-- ==== Sys2Proof/Word.lean ====
section
/-!
DEFINITION. The word types of the Hixikel (R5, R6): a byte, a 32-bit lane or scalar word, a 64-bit
address, mask or instruction word, and the 128-bit width of a quad (R53).
-/
namespace Sys2Proof

/-- One byte, the unit of memory (R182: a location is one byte). -/
abbrev Byte := BitVec 8

/-- One 32-bit register lane or scalar (R11). -/
abbrev Word := BitVec 32

/-- A 64-bit address, lane mask, clause header or instruction word (R12, R32, R60). -/
abbrev Dword := BitVec 64

/-- A 128-bit value: a quad (R53) or a queue entry (R301). -/
abbrev Qword := BitVec 128

end Sys2Proof
end

