-- ==== Sys2Proof/Syntax.lean ====
section
/-!
DEFINITION. The instructions and device events of the Hixikel: one constructor of `Instr` for each row of
spec/opcode_table.json. Operands follow the formats of R46 to R50, with selectors (R41), modifiers and
enumerated fields turned into the names the manual gives them. An event row (ISSUE_SLOT_CHOICE to
HOST_CXL_WRITE, and REORDER_MOVE) has no encoding; its arguments name what the event acts on.
-/
namespace Sys2Proof

/-- Format tags (R22). -/
inductive Tag where
  | b32 | i32 | f32 | bf16x2 | f16x2 | d8x4 | i8x4 | c8x4 | s8x4
  deriving DecidableEq, Repr

/-- The special registers of R19 other than the latches and queue windows. -/
inductive Special where
  | lane | tid | group | ngroups | blockx | blocky | blockz | gridx | gridy | gridz | stook | core | die
  | task | grade | job | clocklo | clockhi | arglo | arghi | depth | chip
  deriving DecidableEq, Repr

/-- A source operand selector (R41): vector, scalar, bypass latch, queue window, special register, or a
small immediate. -/
inductive Src where
  | v (n : BitVec 8)
  | s (n : BitVec 8)
  | y (k : BitVec 2)
  | q (n : BitVec 3)
  | sp (r : Special)
  | imm (b : BitVec 8)
  deriving DecidableEq, Repr

/-- A destination selector (R18): vector or scalar. -/
inductive Dst where
  | v (n : BitVec 8)
  | s (n : BitVec 8)
  deriving DecidableEq, Repr

/-- A scalar register or a small immediate, where an instruction takes no other operand. -/
inductive SImm where
  | s (n : BitVec 8)
  | imm (b : BitVec 8)
  deriving DecidableEq, Repr

/-- An operand of a REAP instruction that has a lane and a slice form (R212): scalar, slice register, or
immediate. -/
inductive RSel where
  | s (n : BitVec 8)
  | x (n : BitVec 5)
  | imm (b : BitVec 8)
  deriving DecidableEq, Repr

/-- An operand of a stream instruction (R246): stream register or immediate. -/
inductive KSel where
  | k (n : BitVec 5)
  | imm (b : BitVec 8)
  deriving DecidableEq, Repr

/-- Format A with a destination and one source, no token (R80). -/
structure Ops1 where
  d : Dst
  a : Src
  nw : Bool
  msel : BitVec 3
  deriving DecidableEq, Repr

/-- Format A with a destination and two sources. -/
structure Ops2 where
  d : Dst
  a : Src
  b : Src
  nw : Bool
  msel : BitVec 3
  deriving DecidableEq, Repr

/-- Format A with a destination and three sources. -/
structure Ops3 where
  d : Dst
  a : Src
  b : Src
  c : Src
  nw : Bool
  msel : BitVec 3
  deriving DecidableEq, Repr

/-- Format A with a destination alone. -/
structure Ops0 where
  d : Dst
  nw : Bool
  msel : BitVec 3
  deriving DecidableEq, Repr

/-- Format I (R47). -/
structure OpsI where
  d : Dst
  a : Src
  imm : BitVec 32
  nw : Bool
  msel : BitVec 3
  deriving DecidableEq, Repr

/-- Integer comparison conditions (R90). -/
inductive Cmp where
  | eq | ne | lt | le | gt | ge
  deriving DecidableEq, Repr

/-- Float comparison conditions (R111). -/
inductive FCmp where
  | eq | ne | lt | le | gt | ge | un | ord
  deriving DecidableEq, Repr

/-- Mask logic operations of `mlop` (R96). -/
inductive MaskOp where
  | and | or | xor | andn | not | mov | act
  deriving DecidableEq, Repr

/-- Rounding modes (R99). -/
inductive Rm where
  | rn | rz | ru | rd
  deriving DecidableEq, Repr

/-- Conversion forms of `cvt` (R116). -/
inductive CvtForm where
  | bf16x2F32 | f16x2F32 | f32Bf16 | f32F16 | bf16x2F16x2 | f16x2Bf16x2
  deriving DecidableEq, Repr

/-- Element type of a packed instruction (R107). -/
inductive Half where
  | bf16 | f16
  deriving DecidableEq, Repr

/-- Segment widths of the shuffles (R125, `seg6`). -/
inductive Seg6 where
  | w64 | w32 | w16 | w8 | w4 | w2
  deriving DecidableEq, Repr

/-- Segment widths of the reductions (R125, `seg4`). -/
inductive Seg4 where
  | w64 | w32 | w16 | w8
  deriving DecidableEq, Repr

/-- Element types of the reductions (R125). -/
inductive RTy where
  | i32 | u32 | f32
  deriving DecidableEq, Repr

/-- Operations of `scan` (R129). -/
inductive ScanOp where
  | add | min | max | exadd
  deriving DecidableEq, Repr

/-- Memory access formats (R53). -/
inductive MFmt where
  | b8 | b16 | b32 | i32 | f32 | bf16x2 | f16x2 | d8x4 | i8x4 | c8x4 | s8x4 | b64 | b128
  deriving DecidableEq, Repr

/-- Memory orders (R52). -/
inductive Ord where
  | pl | acq | rel | ar
  deriving DecidableEq, Repr

/-- Scopes (R52, R186). -/
inductive Scope where
  | thr | grp | blk | stk | die | dev | job | sys
  deriving DecidableEq, Repr

/-- Address modes (R54). -/
inductive Mode where
  | vec | sca | lane | scratch
  deriving DecidableEq, Repr

/-- Atomic operations (R171). -/
inductive AtomOp where
  | add | min | max | and | or | xor | exch | incw
  deriving DecidableEq, Repr

/-- Atomic placement (R171, R174). -/
inductive Place where
  | pred | near | home
  deriving DecidableEq, Repr

/-- The fields every format M or MA access shares (R49, R50). -/
structure MemF where
  data : Src
  base : Src
  ord : Ord
  scope : Scope
  tok : BitVec 4
  fmt : MFmt
  msel : BitVec 3
  nw : Bool
  mode : Mode
  deriving DecidableEq, Repr

/-- A fabric packet (R363): source and target chip, job tag, type code, relaxed bit, grade, virtual address of its line or word,
payload bytes with their addresses, route colour (R365), request tag, the number of its injection,
and the threads whose stores it carries, thread L of group g under 128 × g + L and a group's Reaper under 128 × g + 64 (none
for a packet of a peer). -/
structure Packet where
  dst : Nat
  src : Nat
  jtag : Nat
  kind : BitVec 4
  rlx : Bool
  grade : BitVec 2
  addr : BitVec 64
  bytes : List (Nat × BitVec 8)
  redOp : BitVec 3
  redFmt : MFmt
  threads : List Nat
  acc : Nat
  task : Nat
  colour : Bool := false
  tag : BitVec 8 := 0
  serial : Nat := 0
  deriving DecidableEq, Repr

/-- A grade notice to a remote subscriber (R368, R369). -/
structure Notice where
  job : Nat
  task : Nat
  line : Nat
  refire : Bool
  grade : BitVec 2
  deriving DecidableEq, Repr

/-- What root firmware states when it creates a job (R354, R383): `partitions` names the tenant partition of each chip of the
job, the device's own where the list ends. -/
structure JobSpec where
  job : Nat
  chips : Nat
  chip : Nat
  panel : Nat
  partition : Nat
  partitions : List Nat := []
  jtag : Nat
  arenaBase : BitVec 64
  arenaSize : Nat
  deriving DecidableEq, Repr

/-- A firmware image as R384 judges it: root or field, whether each signature verifies, its key version, and
its measurement. -/
structure FwImage where
  root : Bool
  rsaOk : Bool
  slhOk : Bool
  keyVersion : Nat
  measure : BitVec 384
  deriving DecidableEq, Repr

/-- The two firmware bodies (R383). -/
inductive Body where
  | root | field
  deriving DecidableEq, Repr

/-- A configuration register: a system register written by a block of a job on a core (R346, R348, R388), a launch
queue's (R382), or the Haywain's (R367). -/
inductive ConfigReg where
  | sys (job core : Nat) (n : BitVec 8)
  | lqBase (q : Nat)
  | lqSize (q : Nat)
  | lqJob (q : Nat)
  | wcbAge
  | swBase (job : Nat)
  | swSize (job : Nat)
  deriving DecidableEq, Repr

/-- The instructions and events, one constructor for each row of the opcode table, in its order. -/
inductive Instr where
  -- ALU 0x00-0x29 (R84)
  | iadd (o : Ops2)
  | isub (o : Ops2)
  | iaddc (co : Bool) (o : Ops3)
  | imul (o : Ops2)
  | imulh (sg : Bool) (o : Ops2)
  | imad (o : Ops3)
  | iabs (o : Ops1)
  | ineg (o : Ops1)
  | imin (sg : Bool) (o : Ops2)
  | imax (sg : Bool) (o : Ops2)
  | shl (o : Ops2)
  | shr (sg : Bool) (o : Ops2)
  | rot (o : Ops2)
  | fsh (l : Bool) (o : Ops3)
  | and (o : Ops2)
  | or (o : Ops2)
  | xor (o : Ops2)
  | andn (o : Ops2)
  | not (o : Ops1)
  | tri (table : BitVec 8) (o : Ops3)
  | popc (o : Ops1)
  | clz (o : Ops1)
  | ctz (o : Ops1)
  | brev (o : Ops1)
  | bfx (sg : Bool) (o : Ops2)
  | bfi (o : Ops3)
  | bperm (o : Ops3)
  | icmp (cc : Cmp) (sg : Bool) (o : Ops2)
  | sel (m : Bool) (o : Ops3)
  | mov (o : Ops1)
  | movi (o : OpsI)
  | vfill (o : Ops2)
  | vpick (o : Ops2)
  | ridx (o : Ops2)
  | widx (o : Ops2)
  | tag (t : Tag) (o : Ops1)
  | tagq (o : Ops1)
  | lea (o : OpsI)
  | add64 (w u : Bool) (sh : BitVec 3) (o : Ops2)
  | mlop (op : MaskOp) (o : Ops2)
  | mcnt (o : Ops1)
  | mfirst (o : Ops1)
  -- ALU 0x40-0x5E (R107)
  | fadd (rm : Rm) (o : Ops2)
  | fsub (rm : Rm) (o : Ops2)
  | fmul (rm : Rm) (o : Ops2)
  | ffma (rm : Rm) (o : Ops3)
  | fmin (o : Ops2)
  | fmax (o : Ops2)
  | fabs (o : Ops1)
  | fneg (o : Ops1)
  | fcmp (cc : FCmp) (o : Ops2)
  | fclass (o : Ops1)
  | frcp (rm : Rm) (o : Ops1)
  | frsq (rm : Rm) (o : Ops1)
  | fsqrt (rm : Rm) (o : Ops1)
  | fexp2 (rm : Rm) (o : Ops1)
  | flog2 (rm : Rm) (o : Ops1)
  | ftanh (rm : Rm) (o : Ops1)
  | fsig (rm : Rm) (o : Ops1)
  | fscale (rm : Rm) (o : Ops2)
  | frnd (rm : Rm) (o : Ops1)
  | f2i (rm : Rm) (sg : Bool) (o : Ops1)
  | i2f (rm : Rm) (sg : Bool) (o : Ops1)
  | cvt (form : CvtForm) (e1 : Bool) (rm : Rm) (o : Ops2)
  | hadd2 (t : Half) (rm : Rm) (o : Ops2)
  | hmul2 (t : Half) (rm : Rm) (o : Ops2)
  | hfma2 (t : Half) (rm : Rm) (o : Ops3)
  | fdot2 (t : Half) (rm : Rm) (o : Ops3)
  | d8pack (n : BitVec 2) (inf sc : Bool) (o : Ops2)
  | d8unpk (n : BitVec 2) (sc : Bool) (o : Ops2)
  | s8scale (o : Ops1)
  | i8pack (n : BitVec 2) (rm : Rm) (o : Ops1)
  | i8unpk (n : BitVec 2) (i : Bool) (o : Ops1)
  -- ALU 0x80-0x8F (R125)
  | shfl (seg : Seg6) (o : Ops2)
  | shup (seg : Seg6) (o : Ops2)
  | shdn (seg : Seg6) (o : Ops2)
  | shx (seg : Seg6) (o : Ops2)
  | bcast (o : Ops2)
  | redadd (ty : RTy) (seg : Seg4) (rm : Rm) (o : Ops1)
  | redmin (ty : RTy) (seg : Seg4) (o : Ops1)
  | redmax (ty : RTy) (seg : Seg4) (o : Ops1)
  | redmini (ty : RTy) (seg : Seg4) (o : Ops1)
  | redmaxi (ty : RTy) (seg : Seg4) (o : Ops1)
  | scan (op : ScanOp) (ty : RTy) (seg : Seg4) (rm : Rm) (o : Ops1)
  | ballot (o : Ops1)
  | matchLanes (o : Ops1)
  | reorder (sg : Bool) (a : Src) (b : Src) (msel : BitVec 3)
  | reorderMove (blk : Nat)
  | xlock (msel : BitVec 3)
  | xlockTry (d : BitVec 8) (msel : BitVec 3)
  | xfree (msel : BitVec 3)
  -- ALU 0xA0-0xA5 (R202)
  | rngkey (a b : SImm) (msel : BitVec 3)
  | rngkeyGet (d : BitVec 8) (msel : BitVec 3)
  | rngkeyGetk (d : BitVec 8) (msel : BitVec 3)
  | rngnext (o : Ops0)
  | rngunif (o : Ops0)
  | gumbel (rm : Rm) (o : Ops0)
  | samplecat (o : Ops2)
  | topkthr (o : Ops2)
  -- FLOW (R70)
  | jmp (off : BitVec 32)
  | jsc (z : Bool) (c : Src) (off : BitVec 32)
  | jv (z : Bool) (c : Src) (off : BitVec 32)
  | jany (z : Bool) (c : Src) (off : BitVec 32)
  | jall (z : Bool) (c : Src) (off : BitVec 32)
  | jind (p : Dst)
  | call (link : BitVec 8) (off : BitVec 32)
  | calli (p : Dst) (link : BitVec 8)
  | ret (p : Dst)
  | meet (save : BitVec 8) (off : BitVec 32)
  | meetPop (save : BitVec 8)
  | yield
  | exit
  | wait (mask : BitVec 15)
  | nop
  | trap (n : BitVec 8)
  | loop (n : BitVec 8) (off : BitVec 32)
  -- MEM (R55)
  | ld (f : MemF) (off : BitVec 12) (evict : BitVec 3) (grade : BitVec 2)
  | st (f : MemF) (off : BitVec 12) (evict : BitVec 3) (grade : BitVec 2)
  | lds (f : MemF) (off : BitVec 12)
  | sts (f : MemF) (off : BitVec 12)
  | ldc (f : MemF) (off : BitVec 12) (evict : BitVec 3)
  | ldw (f : MemF) (c : Src) (evict : BitVec 3) (grade : BitVec 2)
  | atom (op : AtomOp) (pl : Place) (f : MemF) (a : Src)
  | atomcas (f : MemF) (n : Src)
  | red (op : AtomOp) (pl : Place) (f : MemF) (off : BitVec 12)
  | cred (f : MemF) (off : BitVec 12)
  | crdecl (op : AtomOp) (len base : BitVec 8) (fmt : MFmt) (msel : BitVec 3)
  | crfree (base : BitVec 8) (msel : BitVec 3)
  | fence (ord : Ord) (scope : Scope) (msel : BitVec 3)
  | flushr (len base : BitVec 8) (scope : Scope) (tok : BitVec 4) (msel : BitVec 3)
  | invr (len base : BitVec 8) (scope : Scope) (tok : BitVec 4) (msel : BitVec 3)
  | pref (base : Src) (off : BitVec 12) (evict : BitVec 3) (fmt : MFmt) (msel : BitVec 3) (mode : Mode)
  | lease (n : SImm) (msel : BitVec 3)
  | barar (n : SImm) (bar : BitVec 5) (msel : BitVec 3)
  | barwt (bar : BitVec 5) (msel : BitVec 3)
  | barsy (n : SImm) (bar : BitVec 5) (msel : BitVec 3)
  | barq (d : BitVec 8) (bar : BitVec 5) (msel : BitVec 3)
  -- REAP (R212)
  | rrec (a : RSel) (tok : BitVec 4) (msel : BitVec 3)
  | rfence (msel : BitVec 3)
  | rcopy (a b c : RSel) (tok : BitVec 4) (msel : BitVec 3)
  | rcopyo (a b c : RSel) (tok : BitVec 4) (msel : BitVec 3)
  | rwait (sl : Bool) (msel : BitVec 3)
  | qdrop (n : BitVec 3) (msel : BitVec 3)
  | qdropAll (msel : BitVec 3)
  | qstat (sl : Bool) (d : BitVec 8) (msel : BitVec 3)
  | slctlStop (msel : BitVec 3)
  | slctlPause (msel : BitVec 3)
  | slctlResume (msel : BitVec 3)
  | xadd (d : BitVec 5) (a b : RSel)
  | xmul (d : BitVec 5) (a b : RSel)
  | xloop (a : BitVec 5)
  | xnext
  | qput (fmt : MFmt) (sp : Bool) (n : BitVec 3) (a : BitVec 5) (b : RSel)
  | xend
  -- TABLE (R245)
  | thres (d a : BitVec 8) (msel : BitVec 3)
  | threl (msel : BitVec 3)
  | orf (msel : BitVec 3)
  | tbuild (lg : BitVec 2) (lm : BitVec 3) (d8 inf : Bool) (n : BitVec 3) (a b c : KSel)
  | tcode (w : BitVec 2) (n : BitVec 3) (a b : KSel)
  | tmac (rb : Bool) (lg : BitVec 2) (lm : BitVec 3) (n : BitVec 2) (t : BitVec 4) (a b c : KSel)
  | taclr (t : BitVec 4)
  | tald (lm : BitVec 3) (n : BitVec 2) (t : BitVec 4) (a b : KSel)
  | tast (fmt : BitVec 2) (lm : BitVec 3) (n : BitVec 2) (t : BitVec 4) (a b c : KSel)
  | tinv (a : KSel)
  | tinvAll
  | twait
  | tbar (arr : Bool) (n : BitVec 4) (cnt : KSel)
  | tloop (k : BitVec 5) (d : BitVec 8)
  | tend
  -- TASK (R290)
  | tspawn (d a : BitVec 8) (tok : BitVec 4) (msel : BitVec 3)
  | tjoin (a : BitVec 8) (n : SImm) (msel : BitVec 3)
  | tsig (a : BitVec 8) (tok : BitVec 4) (msel : BitVec 3)
  | tcont (a : BitVec 8) (msel : BitVec 3)
  | tkill (a : BitVec 8) (msel : BitVec 3)
  | grange (d a b : BitVec 8) (tok : BitVec 4) (msel : BitVec 3)
  | grel (d a : BitVec 8) (tok : BitVec 4) (msel : BitVec 3)
  | promote (gr : BitVec 2) (a : BitVec 8) (n : SImm) (tok : BitVec 4) (msel : BitVec 3)
  | retract (a : BitVec 8) (n : SImm) (tok : BitVec 4) (msel : BitVec 3)
  | gstat (d a : BitVec 8) (tok : BitVec 4) (msel : BitVec 3)
  | qpush (d a b : BitVec 8) (tok : BitVec 4) (msel : BitVec 3)
  | qpop (d a b : BitVec 8) (tok : BitVec 4) (msel : BitVec 3)
  | qpopw (d a : BitVec 8) (tok : BitVec 4) (msel : BitVec 3)
  | launch (d a : BitVec 8) (tok : BitVec 4) (msel : BitVec 3)
  | lwait (h : SImm) (msel : BitVec 3)
  -- FAB (R375)
  | ffence (tok : BitVec 4) (msel : BitVec 3)
  | fdrain (tok : BitVec 4) (msel : BitVec 3)
  | jobq (n : BitVec 3) (d : BitVec 8) (msel : BitVec 3)
  | wcbq (d : BitVec 8) (msel : BitVec 3)
  -- SYS (R345)
  | sysrd (n : BitVec 8) (d : BitVec 8) (msel : BitVec 3)
  | syswr (n : BitVec 8) (a : SImm) (msel : BitVec 3)
  | eret (nxt : Bool) (msel : BitVec 3)
  | clock (d : BitVec 8) (msel : BitVec 3)
  | park (a : SImm) (msel : BitVec 3)
  | abort (n : BitVec 8) (msel : BitVec 3)
  | brk (n : BitVec 8) (msel : BitVec 3)
  | icinv (msel : BitVec 3)
  | tlbinv (msel : BitVec 3)
  | tlbinvVa (a : BitVec 8) (msel : BitVec 3)
  -- device events
  | issueSlotChoice (core slot : Nat)
  | groupRetire (gid : Nat)
  | blockRetire (blk : Nat)
  | accessCompletion (gid acc : Nat) (lanes : BitVec 64)
  | copyDataArrival (copy line : Nat)
  | qputEntryComplete (gid : Nat) (q : BitVec 3)
  | sliceClauseIssue (core : Nat)
  | boundaryFaultDelivery (gid : Nat)
  | homeMigrationEpoch
  | gradedStoreClassify (n : Nat)
  | taskComplete (job rec : Nat)
  | placementDecision
  | dependenceReread (queue : Nat)
  | gridCompletion (grid : Nat)
  | gridCancel (grid : Nat)
  | leaseWindow (core : Nat)
  | victimHitCheck (core : Nat)
  | parkingThreshold (stook : Nat)
  | faultQueueAppend (die : Nat)
  | relaunchSignal (stook : Nat)
  | parkTimerExpiry (stook : Nat)
  | watchdogExpiry (blk : Nat)
  | fqcmdResolve (die : Nat) (idx : BitVec 12)
  | fqcmdCancel (die : Nat) (idx : BitVec 12)
  | preemptJob (job : Nat)
  | preemptGrid (num : BitVec 30)
  | preemptCore (core : Nat)
  | rqregRegister (q : BitVec 16)
  | rqregDeregister (q : BitVec 16)
  | registerWrite (body : Body) (r : ConfigReg) (v : Nat)
  | lqtail (queue : Nat) (v : Nat)
  | remotePacketReceive (inward : Bool) (n : Nat)
  | gradeNotice (n : Notice)
  | wcbAgeExpiry (core n : Nat)
  | routeTableUpdate
  | routeColourRetire
  | linkBufferDegrade (link cells : Nat)
  | jobSwitchCommand (job panel : Nat) (out : Bool) (stamp : Nat)
  | switchOutStamp (job : Nat)
  | switchSeal (job : Nat)
  | switchInStamp (job : Nat)
  | latePacket (p : Packet)
  | dieWarmReset (die : Nat)
  | powerLimiter (above : Bool)
  | identityStatement (nonce : BitVec 256)
  | firmwareImageVerify (img : FwImage)
  | jobCreate (j : JobSpec)
  | jobEnd (job : Nat)
  | hostCxlRead (addr n : Nat)
  | deviceReset (img : FwImage)
  | eccUncorrectableError (addr : Nat)
  | hostCxlWrite (addr : Nat) (bytes : List (BitVec 8))
  deriving DecidableEq, Repr

end Sys2Proof
end

