-- ==== Sys2Proof/WellFormed.lean ====
section
/-!
DEFINITION. Which instructions the encodings admit: the operand and modifier rules whose breach raises the
illegal-instruction fault whatever the state of the machine (R51, R58), instruction by instruction. What
depends on state (an undeclared queue, a place in the clause, a fetching context) is checked where the
instruction executes.
-/
namespace Sys2Proof

/-- A uniform source gives one value to every lane (R81): scalar, uniform special register, immediate. -/
def Src.uniform : Src → Bool
  | .s _ => true
  | .imm _ => true
  | .sp .lane => false
  | .sp .tid => false
  | .sp _ => true
  | .v _ => false
  | .y _ => false
  | .q _ => false

/-- The selector an unused source field holds (R51): all bits 0. -/
def Src.none : Src := .v 0

/-- A register number that may name a pair (R43). -/
def evenReg (n : BitVec 8) : Bool := n.toNat % 2 == 0

/-- A register number that may name a quad (R43). -/
def quadReg (n : BitVec 8) : Bool := n.toNat % 4 == 0

/-- A vector source selector. -/
def Src.isV : Src → Bool
  | .v _ => true
  | _ => false

/-- A scalar source selector with an even index, or an immediate: a 64-bit mask or key (R96, R203). -/
def Src.maskOk : Src → Bool
  | .s n => evenReg n
  | .imm _ => true
  | _ => false

/-- A source that names a 64-bit pair: vector pair, scalar pair, or immediate (R43). -/
def Src.pairOk : Src → Bool
  | .v n => evenReg n
  | .s n => evenReg n
  | .imm _ => true
  | _ => false

def Dst.isV : Dst → Bool
  | .v _ => true
  | .s _ => false

def Dst.isS : Dst → Bool
  | .s _ => true
  | .v _ => false

/-- A destination that names a pair (R43). -/
def Dst.pairOk : Dst → Bool
  | .v n => evenReg n
  | .s n => evenReg n

/-- Destination kind `any` (R81): a scalar destination takes uniform sources only. -/
def anyOk (d : Dst) (srcs : List Src) : Bool := d.isV || srcs.all Src.uniform

def SImm.nonneg : SImm → Bool
  | .s _ => true
  | .imm b => !b.msb

def SImm.pairOk : SImm → Bool
  | .s n => evenReg n
  | .imm _ => true

/-- A data operand of `k` registers (R43, R53): a pair or quad starts at an even or fourfold index, and only
vector, scalar and immediate selectors name one. -/
def Src.dataOk (f : MFmt) (x : Src) : Bool :=
  match f with
  | .b64 => x.pairOk
  | .b128 => match x with
    | .v n => quadReg n
    | .s n => quadReg n
    | .imm _ => true
    | _ => false
  | _ => true

/-- The data operand of a load: vector, or scalar in mode 01 only (R162). -/
def loadDataOk (f : MemF) : Bool :=
  f.data.dataOk f.fmt && match f.data with
    | .v _ => true
    | .s _ => f.mode == .sca
    | _ => false

/-- The base operand an address mode demands (R54). -/
def baseOk (mode : Mode) (b : Src) : Bool :=
  match mode, b with
  | .vec, .v n => evenReg n
  | .sca, .s n => evenReg n
  | .lane, .s n => evenReg n
  | .scratch, .v _ => true
  | _, _ => false

/-- Global access modes 00 to 10 (R54). -/
def globalMode (f : MemF) : Bool := f.mode != .scratch && baseOk f.mode f.base

def Ord.loadOk (o : Ord) : Bool := o == .pl || o == .acq
def Ord.storeOk (o : Ord) : Bool := o == .pl || o == .rel

/-- Scopes allowed on `lds` and `sts` (R164). -/
def Scope.inStook (s : Scope) : Bool := s == .thr || s == .grp || s == .blk || s == .stk

/-- Formats of `ldw` and the atomics (R170, R171): 2, 3, 4 and 11. -/
def MFmt.wordOrPair (f : MFmt) : Bool := f == .b32 || f == .i32 || f == .f32 || f == .b64

/-- The formats R171 allows each atomic operation. -/
def atomFmtOk (op : AtomOp) (f : MFmt) : Bool :=
  match op with
  | .and | .or | .xor => f == .b32 || f == .i32 || f == .b64
  | .incw => f == .b32
  | _ => f.wordOrPair

/-- Element types and combine operations of a commutative range (R175). -/
def crOk (op : AtomOp) (f : MFmt) : Bool :=
  match op with
  | .add | .min | .max => f == .b32 || f == .i32 || f == .f32
  | .and | .or | .xor => f == .b32 || f == .i32
  | _ => false

/-- Formats that `qput` reads: 4-byte formats 2 to 10 (R212). -/
def MFmt.fourBytes (f : MFmt) : Bool :=
  !(f == .b8 || f == .b16 || f == .b64 || f == .b128)

def RSel.isX : RSel → Bool
  | .x _ => true
  | _ => false

/-- Record address, scratchpad address and first coordinate of a copy agree on lane or slice form (R212). The scratchpad address may
be an immediate in a slice too (DEDUCED, log entry 103). -/
def copyOk (a b c : RSel) (tok : BitVec 4) (msel : BitVec 3) : Bool :=
  match a, b, c with
  | .s n, .s _, .s _ => evenReg n
  | .s n, .imm _, .s _ => evenReg n
  | .x _, .x _, .x _ => tok == 0 && msel == 0
  | .x _, .imm _, .x _ => tok == 0 && msel == 0
  | _, _, _ => false

def recOk (a : RSel) (tok : BitVec 4) (msel : BitVec 3) : Bool :=
  match a with
  | .s n => evenReg n
  | .x _ => tok == 0 && msel == 0
  | .imm _ => false

/-- A slice operand: x register or immediate. -/
def RSel.sliceOk : RSel → Bool
  | .s _ => false
  | _ => true

/-- The static operand rules of each instruction; events carry none. -/
def Instr.wf : Instr → Bool
  | .iadd o | .isub o | .imul o | .shl o | .rot o | .and o | .or o | .xor o | .andn o =>
    anyOk o.d [o.a, o.b]
  | .imulh _ o | .imin _ o | .imax _ o | .shr _ o | .bfx _ o => anyOk o.d [o.a, o.b]
  | .iaddc _ o | .fsh _ o | .tri _ o => anyOk o.d [o.a, o.b, o.c]
  | .imad o | .bfi o | .bperm o => anyOk o.d [o.a, o.b, o.c]
  | .iabs o | .ineg o | .not o | .popc o | .clz o | .ctz o | .brev o | .mov o => anyOk o.d [o.a]
  | .icmp _ _ o => o.d.isV || o.d.pairOk
  | .sel m o =>
    (if m then (match o.c with | .s n => evenReg n | _ => false) else true) &&
      anyOk o.d [o.a, o.b, o.c]
  | .movi o => o.a == Src.none
  | .vfill o => o.d.isV
  | .vpick o => o.d.isS && o.b.uniform
  | .ridx o => o.d.isV && o.a.isV
  | .widx o => o.d.isV
  | .tag _ o => o.d.isV
  | .tagq o => o.a.isV
  | .lea o => o.d.pairOk && o.a.pairOk && anyOk o.d [o.a]
  | .add64 w u _ o =>
    o.d.pairOk && o.a.pairOk && (!w || o.b.pairOk) && !(w && u) && anyOk o.d [o.a, o.b]
  | .mlop op o =>
    o.d.isS && o.d.pairOk &&
      (match op with
       | .and | .or | .xor | .andn => o.a.maskOk && o.b.maskOk
       | .not | .mov => o.a.maskOk && o.b == Src.none
       | .act => o.a == Src.none && o.b == Src.none)
  | .mcnt o | .mfirst o => o.d.isS && o.a.maskOk
  | .fadd _ o | .fsub _ o | .fmul _ o | .fscale _ o => anyOk o.d [o.a, o.b]
  | .fmin o | .fmax o => anyOk o.d [o.a, o.b]
  | .ffma _ o => anyOk o.d [o.a, o.b, o.c]
  | .fabs o | .fneg o | .fclass o => anyOk o.d [o.a]
  | .fcmp _ o => o.d.isV || o.d.pairOk
  | .frcp _ o | .frsq _ o | .fsqrt _ o | .fexp2 _ o | .flog2 _ o | .ftanh _ o | .fsig _ o | .frnd _ o =>
    anyOk o.d [o.a]
  | .f2i _ _ o | .i2f _ _ o => anyOk o.d [o.a]
  | .cvt form e1 rm o =>
    (match form with
     | .bf16x2F32 | .f16x2F32 => !e1 && anyOk o.d [o.a, o.b]
     | .f32Bf16 | .f32F16 => rm == .rn && o.b == Src.none && anyOk o.d [o.a]
     | .bf16x2F16x2 | .f16x2Bf16x2 => !e1 && o.b == Src.none && anyOk o.d [o.a])
  | .hadd2 _ _ o | .hmul2 _ _ o => anyOk o.d [o.a, o.b]
  | .hfma2 _ _ o | .fdot2 _ _ o => anyOk o.d [o.a, o.b, o.c]
  | .d8pack _ _ sc o | .d8unpk _ sc o =>
    if sc then anyOk o.d [o.a, o.b] else o.b == Src.none && anyOk o.d [o.a]
  | .s8scale o => o.d.isV
  | .i8pack _ _ o | .i8unpk _ _ o => anyOk o.d [o.a]
  | .shfl _ o | .shx _ o => o.d.isV
  | .shup _ o | .shdn _ o | .bcast o => o.d.isV && o.b.uniform
  | .redadd ty seg rm o => (ty == .f32 || rm == .rn) && (o.d.isV || seg == .w64)
  | .redmin _ seg o | .redmax _ seg o => o.d.isV || seg == .w64
  | .redmini _ seg o | .redmaxi _ seg o => o.d.pairOk && (o.d.isV || seg == .w64)
  | .scan op ty _ rm o =>
    o.d.isV && (rm == .rn || (ty == .f32 && (op == .add || op == .exadd)))
  | .ballot o => o.d.isS && o.d.pairOk
  | .matchLanes o => o.d.isV && o.d.pairOk
  | .reorder _ _ b _ => (match b with | .s n => evenReg n | _ => false)
  | .xlock _ | .xlockTry _ _ | .xfree _ => true
  | .rngkey a b _ => a.pairOk && b.pairOk
  | .rngkeyGet d _ | .rngkeyGetk d _ => evenReg d
  | .rngnext o | .rngunif o => o.d.isV
  | .gumbel _ o => o.d.isV
  | .samplecat o | .topkthr o => o.b.uniform
  | .jmp _ | .yield | .exit | .wait _ | .nop | .trap _ | .loop _ _ => true
  | .jsc _ c _ => c.uniform
  | .jv _ _ _ | .jany _ _ _ | .jall _ _ _ => true
  | .jind p | .ret p => p.pairOk
  | .call l _ => evenReg l
  | .calli p l => p.pairOk && evenReg l
  | .meet l _ | .meetPop l => evenReg l
  | .ld f _ _ _ => globalMode f && loadDataOk f && f.ord.loadOk
  | .st f _ _ _ => globalMode f && f.data.dataOk f.fmt && f.ord.storeOk && !f.nw
  | .lds f _ =>
    f.mode == .scratch && baseOk f.mode f.base && loadDataOk f && f.ord.loadOk && f.scope.inStook
  | .sts f _ =>
    f.mode == .scratch && baseOk f.mode f.base && f.data.dataOk f.fmt && f.ord.storeOk &&
      f.scope.inStook && !f.nw
  | .ldc f _ _ => globalMode f && loadDataOk f && f.ord == .pl && f.scope == .thr
  | .ldw f c _ _ =>
    globalMode f && loadDataOk f && f.ord.loadOk && f.fmt.wordOrPair && c.dataOk f.fmt
  | .atom op _ f a =>
    globalMode f && f.data.isV && f.data.dataOk f.fmt && a.isV && a.dataOk f.fmt && atomFmtOk op f.fmt && !f.nw
  | .atomcas f n =>
    globalMode f && f.data.isV && f.data.dataOk f.fmt && n.isV && n.dataOk f.fmt && f.fmt.wordOrPair && !f.nw
  | .red op _ f _ =>
    globalMode f && f.data.dataOk f.fmt && atomFmtOk op f.fmt && f.ord.storeOk && !f.nw &&
      op != .exch && op != .incw
  | .cred f _ => globalMode f && f.data.dataOk f.fmt && f.ord.storeOk && !f.nw
  | .crdecl op _ base fmt _ => evenReg base && crOk op fmt
  | .crfree base _ => evenReg base
  | .fence ord _ _ => ord != .pl
  | .flushr _ base _ _ _ | .invr _ base _ _ _ => evenReg base
  | .pref base _ _ _ _ mode => mode != .scratch && baseOk mode base
  | .lease n _ => n.nonneg
  | .barar _ bar _ | .barsy _ bar _ => bar.toNat < 24
  | .barwt bar _ => bar.toNat < 24
  | .barq _ bar _ => bar.toNat < 24
  | .rrec a tok msel => recOk a tok msel
  | .rcopy a b c tok msel | .rcopyo a b c tok msel => copyOk a b c tok msel
  | .rfence _ | .rwait _ _ | .qdrop _ _ | .qdropAll _ | .qstat _ _ _ => true
  | .slctlStop _ | .slctlPause _ | .slctlResume _ => true
  | .xadd _ a b | .xmul _ a b => a.sliceOk && b.sliceOk
  | .xloop _ | .xnext | .xend => true
  | .qput fmt _ _ _ b => fmt.fourBytes && b.sliceOk
  | .thres _ a _ => evenReg a
  | .threl _ | .orf _ => true
  | .tbuild lg lm _ inf n _ _ _ =>
    lm.toNat ≤ 4 && (lg != 0 || n == 0) && (!inf || lg == 0)
  | .tcode w _ _ _ => w != 3
  | .tmac _ _ lm n _ _ _ _ => lm.toNat ≤ 4 && n != 3
  | .taclr _ => true
  | .tald lm n _ _ _ => lm.toNat ≤ 4 && n != 3
  | .tast fmt lm n _ _ _ c => lm.toNat ≤ 4 && n != 3 && fmt != 3 && (fmt == 2 || c == .k 0)
  | .tinv _ | .tinvAll | .twait | .tbar _ _ _ | .tloop _ _ | .tend => true
  | .tspawn _ a _ _ | .tsig a _ _ | .tcont a _ | .tkill a _ => evenReg a
  | .tjoin a n _ => evenReg a && n.nonneg
  | .grange _ a _ _ _ | .grel _ a _ _ | .gstat _ a _ _ | .launch _ a _ _ => evenReg a
  | .promote gr a n _ _ => gr != 0 && evenReg a && n.nonneg
  | .retract a n _ _ => evenReg a && n.nonneg
  | .qpush _ _ b _ _ => quadReg b
  | .qpop d _ _ _ _ => quadReg d
  | .qpopw d _ _ _ => quadReg d
  | .lwait _ _ => true
  | .ffence tok _ | .fdrain tok _ => tok != 0
  | .jobq n _ _ => n.toNat ≤ 4
  | .wcbq _ _ => true
  | .sysrd _ _ _ | .syswr _ _ _ | .eret _ _ | .abort _ _ | .brk _ _ | .icinv _ | .tlbinv _ => true
  | .clock d _ => evenReg d
  | .park a _ => a.nonneg
  | .tlbinvVa a _ => evenReg a
  | .reorderMove _ | .issueSlotChoice _ _ | .groupRetire _ | .blockRetire _ | .accessCompletion _ _ _ => true
  | .copyDataArrival _ _ | .qputEntryComplete _ _ | .sliceClauseIssue _ | .boundaryFaultDelivery _ => true
  | .homeMigrationEpoch | .gradedStoreClassify _ | .taskComplete _ _ | .placementDecision => true
  | .dependenceReread _ | .gridCompletion _ | .gridCancel _ | .leaseWindow _ | .victimHitCheck _ => true
  | .parkingThreshold _ | .faultQueueAppend _ | .relaunchSignal _ | .parkTimerExpiry _ => true
  | .watchdogExpiry _ | .fqcmdResolve _ _ | .fqcmdCancel _ _ | .preemptJob _ | .preemptGrid _ => true
  | .preemptCore _ | .rqregRegister _ | .rqregDeregister _ | .registerWrite _ _ _ | .lqtail _ _ => true
  | .remotePacketReceive _ _ | .gradeNotice _ | .wcbAgeExpiry _ _ | .routeTableUpdate => true
  | .routeColourRetire | .linkBufferDegrade _ _ | .jobSwitchCommand _ _ _ _ | .switchOutStamp _ => true
  | .switchSeal _ | .switchInStamp _ | .latePacket _ | .dieWarmReset _ | .powerLimiter _ => true
  | .identityStatement _ | .firmwareImageVerify _ | .jobCreate _ | .jobEnd _ | .hostCxlRead _ _ => true
  | .deviceReset _ | .eccUncorrectableError _ | .hostCxlWrite _ _ => true

end Sys2Proof
end

