-- ==== Sys2Proof/Decode.lean ====
section
/-!
DEFINITION. Decoding and encoding (R32, R41, R46 to R58). A word is decoded by the class and shadow bit of its
clause header (R34); what it rejects it rejects by name, and the machine raises the illegal-instruction fault
for it. The encoder after it lays the same fields out from the same tables.
-/
namespace Sys2Proof

/-- Why a word is no instruction (R58). -/
inductive Reject where
  /-- an opcode with no cell in the opcode map -/
  | unassigned
  /-- a non-zero unused field, an unassigned modifier value or format -/
  | field
  /-- a selector the field cannot hold -/
  | selector
  /-- operands the instruction's description refuses (`Instr.wf`) -/
  | operands
  /-- a header whose class is 0x8 to 0xF, or a word count the reader was not given -/
  | header
  deriving DecidableEq, Repr

/-- Instruction classes (R32). -/
inductive Cls where
  | alu | flow | mem | reap | table | task | fab | sys
  deriving DecidableEq, Repr

def Cls.code : Cls → BitVec 4
  | .alu => 0 | .flow => 1 | .mem => 2 | .reap => 3 | .table => 4 | .task => 5 | .fab => 6 | .sys => 7

def Cls.ofCode (c : BitVec 4) : Option Cls :=
  match c.toNat with
  | 0 => some .alu | 1 => some .flow | 2 => some .mem | 3 => some .reap
  | 4 => some .table | 5 => some .task | 6 => some .fab | 7 => some .sys
  | _ => none

/-! ## Formats -/

/-- Format A (R46). -/
structure FmtA where
  op : BitVec 8
  dst : BitVec 10
  a : BitVec 10
  b : BitVec 10
  c : BitVec 10
  nw : BitVec 1
  tok : BitVec 4
  msel : BitVec 3
  mod : BitVec 8
  deriving DecidableEq, Repr

/-- Format I (R47). -/
structure FmtI where
  op : BitVec 8
  dst : BitVec 10
  a : BitVec 10
  imm : BitVec 32
  nw : BitVec 1
  msel : BitVec 3
  deriving DecidableEq, Repr

/-- Format J (R48). -/
structure FmtJ where
  op : BitVec 8
  cond : BitVec 10
  b : BitVec 10
  off : BitVec 32
  mod : BitVec 4
  deriving DecidableEq, Repr

/-- Format M (R49); format MA (R50) has its second data selector in bits [11:2] of `off`. -/
structure FmtM where
  op : BitVec 8
  data : BitVec 10
  base : BitVec 10
  off : BitVec 12
  ord : BitVec 2
  scope : BitVec 3
  evict : BitVec 3
  grade : BitVec 2
  tok : BitVec 4
  fmt : BitVec 4
  msel : BitVec 3
  nw : BitVec 1
  mode : BitVec 2
  deriving DecidableEq, Repr

def FmtA.unpack (w : Dword) : FmtA :=
  { op := w.extractLsb' 56 8, dst := w.extractLsb' 46 10, a := w.extractLsb' 36 10, b := w.extractLsb' 26 10,
    c := w.extractLsb' 16 10, nw := w.extractLsb' 15 1, tok := w.extractLsb' 11 4,
    msel := w.extractLsb' 8 3, mod := w.extractLsb' 0 8 }

def FmtI.unpack (w : Dword) : FmtI :=
  { op := w.extractLsb' 56 8, dst := w.extractLsb' 46 10, a := w.extractLsb' 36 10,
    imm := w.extractLsb' 4 32, nw := w.extractLsb' 3 1, msel := w.extractLsb' 0 3 }

def FmtJ.unpack (w : Dword) : FmtJ :=
  { op := w.extractLsb' 56 8, cond := w.extractLsb' 46 10, b := w.extractLsb' 36 10,
    off := w.extractLsb' 4 32, mod := w.extractLsb' 0 4 }

def FmtM.unpack (w : Dword) : FmtM :=
  { op := w.extractLsb' 56 8, data := w.extractLsb' 46 10, base := w.extractLsb' 36 10,
    off := w.extractLsb' 24 12, ord := w.extractLsb' 22 2, scope := w.extractLsb' 19 3,
    evict := w.extractLsb' 16 3, grade := w.extractLsb' 14 2, tok := w.extractLsb' 10 4,
    fmt := w.extractLsb' 6 4, msel := w.extractLsb' 3 3, nw := w.extractLsb' 2 1,
    mode := w.extractLsb' 0 2 }

def FmtA.pack (f : FmtA) : Dword :=
  f.op ++ f.dst ++ f.a ++ f.b ++ f.c ++ f.nw ++ f.tok ++ f.msel ++ f.mod

def FmtI.pack (f : FmtI) : Dword := f.op ++ f.dst ++ f.a ++ f.imm ++ f.nw ++ f.msel

def FmtJ.pack (f : FmtJ) : Dword := f.op ++ f.cond ++ f.b ++ f.off ++ f.mod

def FmtM.pack (f : FmtM) : Dword :=
  f.op ++ f.data ++ f.base ++ f.off ++ f.ord ++ f.scope ++ f.evict ++ f.grade ++ f.tok ++ f.fmt ++ f.msel ++
    f.nw ++ f.mode

/-! ## Selectors and enumerated fields -/

def Special.idx : Special → BitVec 8

  | .lane => 16
  | .tid => 17
  | .group => 18
  | .ngroups => 19
  | .blockx => 20
  | .blocky => 21
  | .blockz => 22
  | .gridx => 23
  | .gridy => 24
  | .gridz => 25
  | .stook => 26
  | .core => 27
  | .die => 28
  | .task => 29
  | .grade => 30
  | .job => 31
  | .clocklo => 32
  | .clockhi => 33
  | .arglo => 34
  | .arghi => 35
  | .depth => 36
  | .chip => 37

def Special.ofIdx (i : BitVec 8) : Except Reject Special :=
  match i.toNat with
  | 16 => .ok .lane
  | 17 => .ok .tid
  | 18 => .ok .group
  | 19 => .ok .ngroups
  | 20 => .ok .blockx
  | 21 => .ok .blocky
  | 22 => .ok .blockz
  | 23 => .ok .gridx
  | 24 => .ok .gridy
  | 25 => .ok .gridz
  | 26 => .ok .stook
  | 27 => .ok .core
  | 28 => .ok .die
  | 29 => .ok .task
  | 30 => .ok .grade
  | 31 => .ok .job
  | 32 => .ok .clocklo
  | 33 => .ok .clockhi
  | 34 => .ok .arglo
  | 35 => .ok .arghi
  | 36 => .ok .depth
  | 37 => .ok .chip
  | _ => .error .selector

/-- A source selector (R41, R19). -/
def decSrc (x : BitVec 10) : Except Reject Src :=
  match (x.extractLsb' 8 2).toNat with
  | 0 => .ok (.v (x.extractLsb' 0 8))
  | 1 => .ok (.s (x.extractLsb' 0 8))
  | 2 =>
    if x.extractLsb' 2 6 = 0 then .ok (.y (x.extractLsb' 0 2))
    else if x.extractLsb' 3 5 = 1 then .ok (.q (x.extractLsb' 0 3))
    else (Special.ofIdx (x.extractLsb' 0 8)).map .sp
  | _ => .ok (.imm (x.extractLsb' 0 8))

def encSrc : Src → BitVec 10
  | .v n => (0#2) ++ n
  | .s n => (1#2) ++ n
  | .y k => (2#2) ++ (0#6) ++ k
  | .q n => (2#2) ++ (1#5) ++ n
  | .sp r => (2#2) ++ r.idx
  | .imm b => (3#2) ++ b

/-- A destination selector: the special and immediate spaces are refused (R18). -/
def decDst (x : BitVec 10) : Except Reject Dst :=
  match (x.extractLsb' 8 2).toNat with
  | 0 => .ok (.v (x.extractLsb' 0 8))
  | 1 => .ok (.s (x.extractLsb' 0 8))
  | _ => .error .selector

def encDst : Dst → BitVec 10
  | .v n => (0#2) ++ n
  | .s n => (1#2) ++ n

/-- A field that names a scalar. -/
def decS (x : BitVec 10) : Except Reject (BitVec 8) :=
  if x.extractLsb' 8 2 = 1 then .ok (x.extractLsb' 0 8) else .error .selector

def encS (n : BitVec 8) : BitVec 10 := (1#2) ++ n

/-- A field that names a vector register. -/
def decV (x : BitVec 10) : Except Reject (BitVec 8) :=
  if x.extractLsb' 8 2 = 0 then .ok (x.extractLsb' 0 8) else .error .selector

def encV (n : BitVec 8) : BitVec 10 := (0#2) ++ n

def decSImm (x : BitVec 10) : Except Reject SImm :=
  match (x.extractLsb' 8 2).toNat with
  | 1 => .ok (.s (x.extractLsb' 0 8))
  | 3 => .ok (.imm (x.extractLsb' 0 8))
  | _ => .error .selector

def encSImm : SImm → BitVec 10
  | .s n => (1#2) ++ n
  | .imm b => (3#2) ++ b

/-- An operand of `rrec`, `rcopy` and `rcopyo`: x registers in a shadow clause, scalars in a lane clause
(R212). -/
def decRSel (shadow : Bool) (x : BitVec 10) : Except Reject RSel :=
  match (x.extractLsb' 8 2).toNat with
  | 0 => if shadow && x.extractLsb' 5 3 = 0 then .ok (.x (x.extractLsb' 0 5)) else .error .selector
  | 1 => if shadow then .error .selector else .ok (.s (x.extractLsb' 0 8))
  | 3 => .ok (.imm (x.extractLsb' 0 8))
  | _ => .error .selector

def encRSel : RSel → BitVec 10
  | .s n => (1#2) ++ n
  | .x n => (0#5) ++ n
  | .imm b => (3#2) ++ b

/-- A register number x0 to x31, or k0 to k31, in a field (R212, R246). -/
def dec5 (x : BitVec 10) : Except Reject (BitVec 5) :=
  if x.extractLsb' 5 5 = 0 then .ok (x.extractLsb' 0 5) else .error .selector

def enc5 (n : BitVec 5) : BitVec 10 := (0#5) ++ n

def decKSel (x : BitVec 10) : Except Reject KSel :=
  match (x.extractLsb' 8 2).toNat with
  | 0 => (dec5 x).map .k
  | 3 => .ok (.imm (x.extractLsb' 0 8))
  | _ => .error .selector

def encKSel : KSel → BitVec 10
  | .k n => (0#5) ++ n
  | .imm b => (3#2) ++ b

/-- Refuses a word unless `b` holds: an unused field that is not 0, or a modifier bit not assigned (R51). -/
def need (b : Bool) : Except Reject Unit := if b then .ok () else .error .field

def Tag.bits : Tag → BitVec 4
  | .b32 => 0
  | .i32 => 1
  | .f32 => 2
  | .bf16x2 => 3
  | .f16x2 => 4
  | .d8x4 => 5
  | .i8x4 => 6
  | .c8x4 => 7
  | .s8x4 => 8

/-- Tag values 9 to 15 are refused (R24, R94). -/
def decTag (x : BitVec 4) : Except Reject Tag :=
  match x.toNat with
  | 0 => .ok .b32
  | 1 => .ok .i32
  | 2 => .ok .f32
  | 3 => .ok .bf16x2
  | 4 => .ok .f16x2
  | 5 => .ok .d8x4
  | 6 => .ok .i8x4
  | 7 => .ok .c8x4
  | 8 => .ok .s8x4
  | _ => .error .field

def Cmp.bits : Cmp → BitVec 3
  | .eq => 0
  | .ne => 1
  | .lt => 2
  | .le => 3
  | .gt => 4
  | .ge => 5

/-- cc 110 and 111 are refused (R90). -/
def decCmp (x : BitVec 3) : Except Reject Cmp :=
  match x.toNat with
  | 0 => .ok .eq
  | 1 => .ok .ne
  | 2 => .ok .lt
  | 3 => .ok .le
  | 4 => .ok .gt
  | 5 => .ok .ge
  | _ => .error .field

def FCmp.bits : FCmp → BitVec 3
  | .eq => 0
  | .ne => 1
  | .lt => 2
  | .le => 3
  | .gt => 4
  | .ge => 5
  | .un => 6
  | .ord => 7

/-- All eight conditions of R111. -/
def decFCmp (x : BitVec 3) : Except Reject FCmp :=
  match x.toNat with
  | 0 => .ok .eq
  | 1 => .ok .ne
  | 2 => .ok .lt
  | 3 => .ok .le
  | 4 => .ok .gt
  | 5 => .ok .ge
  | 6 => .ok .un
  | _ => .ok .ord

def MaskOp.bits : MaskOp → BitVec 3
  | .and => 0
  | .or => 1
  | .xor => 2
  | .andn => 3
  | .not => 4
  | .mov => 5
  | .act => 6

/-- Operation 111 is refused (R96). -/
def decMaskOp (x : BitVec 3) : Except Reject MaskOp :=
  match x.toNat with
  | 0 => .ok .and
  | 1 => .ok .or
  | 2 => .ok .xor
  | 3 => .ok .andn
  | 4 => .ok .not
  | 5 => .ok .mov
  | 6 => .ok .act
  | _ => .error .field

def Rm.bits : Rm → BitVec 2
  | .rn => 0
  | .rz => 1
  | .ru => 2
  | .rd => 3

/-- R99. -/
def decRm (x : BitVec 2) : Except Reject Rm :=
  match x.toNat with
  | 0 => .ok .rn
  | 1 => .ok .rz
  | 2 => .ok .ru
  | _ => .ok .rd

def CvtForm.bits : CvtForm → BitVec 3
  | .bf16x2F32 => 0
  | .f16x2F32 => 1
  | .f32Bf16 => 2
  | .f32F16 => 3
  | .bf16x2F16x2 => 4
  | .f16x2Bf16x2 => 5

/-- Forms 6 and 7 are refused (R116). -/
def decCvt (x : BitVec 3) : Except Reject CvtForm :=
  match x.toNat with
  | 0 => .ok .bf16x2F32
  | 1 => .ok .f16x2F32
  | 2 => .ok .f32Bf16
  | 3 => .ok .f32F16
  | 4 => .ok .bf16x2F16x2
  | 5 => .ok .f16x2Bf16x2
  | _ => .error .field

def Half.bits : Half → BitVec 1
  | .bf16 => 0
  | .f16 => 1

/-- R107. -/
def decHalf (x : BitVec 1) : Except Reject Half :=
  match x.toNat with
  | 0 => .ok .bf16
  | _ => .ok .f16

def Seg6.bits : Seg6 → BitVec 3
  | .w64 => 0
  | .w32 => 1
  | .w16 => 2
  | .w8 => 3
  | .w4 => 4
  | .w2 => 5

/-- Values 6 and 7 are refused (R125). -/
def decSeg6 (x : BitVec 3) : Except Reject Seg6 :=
  match x.toNat with
  | 0 => .ok .w64
  | 1 => .ok .w32
  | 2 => .ok .w16
  | 3 => .ok .w8
  | 4 => .ok .w4
  | 5 => .ok .w2
  | _ => .error .field

def Seg4.bits : Seg4 → BitVec 2
  | .w64 => 0
  | .w32 => 1
  | .w16 => 2
  | .w8 => 3

/-- R125. -/
def decSeg4 (x : BitVec 2) : Except Reject Seg4 :=
  match x.toNat with
  | 0 => .ok .w64
  | 1 => .ok .w32
  | 2 => .ok .w16
  | _ => .ok .w8

def RTy.bits : RTy → BitVec 2
  | .i32 => 0
  | .u32 => 1
  | .f32 => 2

/-- Value 11 is refused (R125). -/
def decRTy (x : BitVec 2) : Except Reject RTy :=
  match x.toNat with
  | 0 => .ok .i32
  | 1 => .ok .u32
  | 2 => .ok .f32
  | _ => .error .field

def ScanOp.bits : ScanOp → BitVec 2
  | .add => 0
  | .min => 1
  | .max => 2
  | .exadd => 3

/-- R129. -/
def decScanOp (x : BitVec 2) : Except Reject ScanOp :=
  match x.toNat with
  | 0 => .ok .add
  | 1 => .ok .min
  | 2 => .ok .max
  | _ => .ok .exadd

def MFmt.bits : MFmt → BitVec 4
  | .b8 => 0
  | .b16 => 1
  | .b32 => 2
  | .i32 => 3
  | .f32 => 4
  | .bf16x2 => 5
  | .f16x2 => 6
  | .d8x4 => 7
  | .i8x4 => 8
  | .c8x4 => 9
  | .s8x4 => 10
  | .b64 => 11
  | .b128 => 12

/-- Formats 13 to 15 are refused (R53). -/
def decMFmt (x : BitVec 4) : Except Reject MFmt :=
  match x.toNat with
  | 0 => .ok .b8
  | 1 => .ok .b16
  | 2 => .ok .b32
  | 3 => .ok .i32
  | 4 => .ok .f32
  | 5 => .ok .bf16x2
  | 6 => .ok .f16x2
  | 7 => .ok .d8x4
  | 8 => .ok .i8x4
  | 9 => .ok .c8x4
  | 10 => .ok .s8x4
  | 11 => .ok .b64
  | 12 => .ok .b128
  | _ => .error .field

def Ord.bits : Ord → BitVec 2
  | .pl => 0
  | .acq => 1
  | .rel => 2
  | .ar => 3

/-- R52. -/
def decOrd (x : BitVec 2) : Except Reject Ord :=
  match x.toNat with
  | 0 => .ok .pl
  | 1 => .ok .acq
  | 2 => .ok .rel
  | _ => .ok .ar

def Scope.bits : Scope → BitVec 3
  | .thr => 0
  | .grp => 1
  | .blk => 2
  | .stk => 3
  | .die => 4
  | .dev => 5
  | .job => 6
  | .sys => 7

/-- R52. -/
def decScope (x : BitVec 3) : Except Reject Scope :=
  match x.toNat with
  | 0 => .ok .thr
  | 1 => .ok .grp
  | 2 => .ok .blk
  | 3 => .ok .stk
  | 4 => .ok .die
  | 5 => .ok .dev
  | 6 => .ok .job
  | _ => .ok .sys

def Mode.bits : Mode → BitVec 2
  | .vec => 0
  | .sca => 1
  | .lane => 2
  | .scratch => 3

/-- R54. -/
def decMode (x : BitVec 2) : Except Reject Mode :=
  match x.toNat with
  | 0 => .ok .vec
  | 1 => .ok .sca
  | 2 => .ok .lane
  | _ => .ok .scratch

def AtomOp.bits : AtomOp → BitVec 3
  | .add => 0
  | .min => 1
  | .max => 2
  | .and => 3
  | .or => 4
  | .xor => 5
  | .exch => 6
  | .incw => 7

/-- R171. -/
def decAtom (x : BitVec 3) : Except Reject AtomOp :=
  match x.toNat with
  | 0 => .ok .add
  | 1 => .ok .min
  | 2 => .ok .max
  | 3 => .ok .and
  | 4 => .ok .or
  | 5 => .ok .xor
  | 6 => .ok .exch
  | _ => .ok .incw

def Place.bits : Place → BitVec 2
  | .pred => 0
  | .near => 1
  | .home => 2

/-- Placement 11 is refused (R171). -/
def decPlace (x : BitVec 2) : Except Reject Place :=
  match x.toNat with
  | 0 => .ok .pred
  | 1 => .ok .near
  | 2 => .ok .home
  | _ => .error .field

/-! ## Decoding, class by class -/

/-- The bit of a no-write-back field. -/
def nwBit (b : BitVec 1) : Bool := b == 1

def FmtA.ops0 (f : FmtA) : Except Reject Ops0 := do
  need (f.a == 0 && f.b == 0 && f.c == 0)
  let d ← decDst f.dst
  pure ⟨d, nwBit f.nw, f.msel⟩

def FmtA.ops1 (f : FmtA) : Except Reject Ops1 := do
  need (f.b == 0 && f.c == 0)
  let d ← decDst f.dst
  let a ← decSrc f.a
  pure ⟨d, a, nwBit f.nw, f.msel⟩

def FmtA.ops2 (f : FmtA) : Except Reject Ops2 := do
  need (f.c == 0)
  let d ← decDst f.dst
  let a ← decSrc f.a
  let b ← decSrc f.b
  pure ⟨d, a, b, nwBit f.nw, f.msel⟩

def FmtA.ops3 (f : FmtA) : Except Reject Ops3 := do
  let d ← decDst f.dst
  let a ← decSrc f.a
  let b ← decSrc f.b
  let c ← decSrc f.c
  pure ⟨d, a, b, c, nwBit f.nw, f.msel⟩

def FmtI.ops (f : FmtI) : Except Reject OpsI := do
  let d ← decDst f.dst
  let a ← decSrc f.a
  pure ⟨d, a, f.imm, nwBit f.nw, f.msel⟩

/-- Bits `lo` to `lo + n - 1` of a modifier field. -/
def FmtA.m (f : FmtA) (lo n : Nat) : BitVec n := f.mod.extractLsb' lo n

/-- A single modifier bit. -/
def FmtA.mb (f : FmtA) (i : Nat) : Bool := f.mod.getLsbD i

/-- Every modifier bit outside `mask` is 0 (R51). -/
def FmtA.only (f : FmtA) (mask : BitVec 8) : Except Reject Unit := need (f.mod &&& ~~~mask == 0)

/-- The format A forms of class ALU; none of them is long-latency (R80, R106, R124, R202). -/
def decAluA (f : FmtA) : Except Reject Instr := do
  need (f.tok == 0)
  match f.op.toNat with
  | 0x00 =>
    f.only 0x00
    let o ← f.ops2
    return .iadd o
  | 0x01 =>
    f.only 0x00
    let o ← f.ops2
    return .isub o
  | 0x02 =>
    f.only 0x01
    let co := f.mb 0
    let o ← f.ops3
    return .iaddc co o
  | 0x03 =>
    f.only 0x00
    let o ← f.ops2
    return .imul o
  | 0x04 =>
    f.only 0x01
    let sg := f.mb 0
    let o ← f.ops2
    return .imulh sg o
  | 0x05 =>
    f.only 0x00
    let o ← f.ops3
    return .imad o
  | 0x06 =>
    f.only 0x00
    let o ← f.ops1
    return .iabs o
  | 0x07 =>
    f.only 0x00
    let o ← f.ops1
    return .ineg o
  | 0x08 =>
    f.only 0x01
    let sg := f.mb 0
    let o ← f.ops2
    return .imin sg o
  | 0x09 =>
    f.only 0x01
    let sg := f.mb 0
    let o ← f.ops2
    return .imax sg o
  | 0x0A =>
    f.only 0x00
    let o ← f.ops2
    return .shl o
  | 0x0B =>
    f.only 0x01
    let sg := f.mb 0
    let o ← f.ops2
    return .shr sg o
  | 0x0C =>
    f.only 0x00
    let o ← f.ops2
    return .rot o
  | 0x0D =>
    f.only 0x01
    let l := f.mb 0
    let o ← f.ops3
    return .fsh l o
  | 0x0E =>
    f.only 0x00
    let o ← f.ops2
    return .and o
  | 0x0F =>
    f.only 0x00
    let o ← f.ops2
    return .or o
  | 0x10 =>
    f.only 0x00
    let o ← f.ops2
    return .xor o
  | 0x11 =>
    f.only 0x00
    let o ← f.ops2
    return .andn o
  | 0x12 =>
    f.only 0x00
    let o ← f.ops1
    return .not o
  | 0x13 =>
    f.only 0xFF
    let table := f.m 0 8
    let o ← f.ops3
    return .tri table o
  | 0x14 =>
    f.only 0x00
    let o ← f.ops1
    return .popc o
  | 0x15 =>
    f.only 0x00
    let o ← f.ops1
    return .clz o
  | 0x16 =>
    f.only 0x00
    let o ← f.ops1
    return .ctz o
  | 0x17 =>
    f.only 0x00
    let o ← f.ops1
    return .brev o
  | 0x18 =>
    f.only 0x01
    let sg := f.mb 0
    let o ← f.ops2
    return .bfx sg o
  | 0x19 =>
    f.only 0x00
    let o ← f.ops3
    return .bfi o
  | 0x1A =>
    f.only 0x00
    let o ← f.ops3
    return .bperm o
  | 0x1B =>
    f.only 0x0F
    let cc ← decCmp (f.m 0 3)
    let sg := f.mb 3
    let o ← f.ops2
    return .icmp cc sg o
  | 0x1C =>
    f.only 0x01
    let m := f.mb 0
    let o ← f.ops3
    return .sel m o
  | 0x1D =>
    f.only 0x00
    let o ← f.ops1
    return .mov o
  | 0x1F =>
    f.only 0x00
    let o ← f.ops2
    return .vfill o
  | 0x20 =>
    f.only 0x00
    let o ← f.ops2
    return .vpick o
  | 0x21 =>
    f.only 0x00
    let o ← f.ops2
    return .ridx o
  | 0x22 =>
    f.only 0x00
    let o ← f.ops2
    return .widx o
  | 0x23 =>
    f.only 0x0F
    let t ← decTag (f.m 0 4)
    let o ← f.ops1
    return .tag t o
  | 0x24 =>
    f.only 0x00
    let o ← f.ops1
    return .tagq o
  | 0x26 =>
    f.only 0x1F
    let w := f.mb 0
    let u := f.mb 1
    let sh := f.m 2 3
    let o ← f.ops2
    return .add64 w u sh o
  | 0x27 =>
    f.only 0x07
    let op ← decMaskOp (f.m 0 3)
    let o ← f.ops2
    return .mlop op o
  | 0x28 =>
    f.only 0x00
    let o ← f.ops1
    return .mcnt o
  | 0x29 =>
    f.only 0x00
    let o ← f.ops1
    return .mfirst o
  | 0x40 =>
    f.only 0x30
    let rm ← decRm (f.m 4 2)
    let o ← f.ops2
    return .fadd rm o
  | 0x41 =>
    f.only 0x30
    let rm ← decRm (f.m 4 2)
    let o ← f.ops2
    return .fsub rm o
  | 0x42 =>
    f.only 0x30
    let rm ← decRm (f.m 4 2)
    let o ← f.ops2
    return .fmul rm o
  | 0x43 =>
    f.only 0x30
    let rm ← decRm (f.m 4 2)
    let o ← f.ops3
    return .ffma rm o
  | 0x44 =>
    f.only 0x00
    let o ← f.ops2
    return .fmin o
  | 0x45 =>
    f.only 0x00
    let o ← f.ops2
    return .fmax o
  | 0x46 =>
    f.only 0x00
    let o ← f.ops1
    return .fabs o
  | 0x47 =>
    f.only 0x00
    let o ← f.ops1
    return .fneg o
  | 0x48 =>
    f.only 0x07
    let cc ← decFCmp (f.m 0 3)
    let o ← f.ops2
    return .fcmp cc o
  | 0x49 =>
    f.only 0x00
    let o ← f.ops1
    return .fclass o
  | 0x4A =>
    f.only 0x30
    let rm ← decRm (f.m 4 2)
    let o ← f.ops1
    return .frcp rm o
  | 0x4B =>
    f.only 0x30
    let rm ← decRm (f.m 4 2)
    let o ← f.ops1
    return .frsq rm o
  | 0x4C =>
    f.only 0x30
    let rm ← decRm (f.m 4 2)
    let o ← f.ops1
    return .fsqrt rm o
  | 0x4D =>
    f.only 0x30
    let rm ← decRm (f.m 4 2)
    let o ← f.ops1
    return .fexp2 rm o
  | 0x4E =>
    f.only 0x30
    let rm ← decRm (f.m 4 2)
    let o ← f.ops1
    return .flog2 rm o
  | 0x4F =>
    f.only 0x30
    let rm ← decRm (f.m 4 2)
    let o ← f.ops1
    return .ftanh rm o
  | 0x50 =>
    f.only 0x30
    let rm ← decRm (f.m 4 2)
    let o ← f.ops1
    return .fsig rm o
  | 0x51 =>
    f.only 0x30
    let rm ← decRm (f.m 4 2)
    let o ← f.ops2
    return .fscale rm o
  | 0x52 =>
    f.only 0x30
    let rm ← decRm (f.m 4 2)
    let o ← f.ops1
    return .frnd rm o
  | 0x53 =>
    f.only 0x31
    let rm ← decRm (f.m 4 2)
    let sg := f.mb 0
    let o ← f.ops1
    return .f2i rm sg o
  | 0x54 =>
    f.only 0x31
    let rm ← decRm (f.m 4 2)
    let sg := f.mb 0
    let o ← f.ops1
    return .i2f rm sg o
  | 0x55 =>
    f.only 0x3F
    let form ← decCvt (f.m 0 3)
    let e1 := f.mb 3
    let rm ← decRm (f.m 4 2)
    let o ← f.ops2
    return .cvt form e1 rm o
  | 0x56 =>
    f.only 0x31
    let t ← decHalf (f.m 0 1)
    let rm ← decRm (f.m 4 2)
    let o ← f.ops2
    return .hadd2 t rm o
  | 0x57 =>
    f.only 0x31
    let t ← decHalf (f.m 0 1)
    let rm ← decRm (f.m 4 2)
    let o ← f.ops2
    return .hmul2 t rm o
  | 0x58 =>
    f.only 0x31
    let t ← decHalf (f.m 0 1)
    let rm ← decRm (f.m 4 2)
    let o ← f.ops3
    return .hfma2 t rm o
  | 0x59 =>
    f.only 0x31
    let t ← decHalf (f.m 0 1)
    let rm ← decRm (f.m 4 2)
    let o ← f.ops3
    return .fdot2 t rm o
  | 0x5A =>
    f.only 0x0F
    let n := f.m 0 2
    let inf := f.mb 2
    let sc := f.mb 3
    let o ← f.ops2
    return .d8pack n inf sc o
  | 0x5B =>
    f.only 0x0B
    let n := f.m 0 2
    let sc := f.mb 3
    let o ← f.ops2
    return .d8unpk n sc o
  | 0x5C =>
    f.only 0x00
    let o ← f.ops1
    return .s8scale o
  | 0x5D =>
    f.only 0x33
    let n := f.m 0 2
    let rm ← decRm (f.m 4 2)
    let o ← f.ops1
    return .i8pack n rm o
  | 0x5E =>
    f.only 0x07
    let n := f.m 0 2
    let i := f.mb 2
    let o ← f.ops1
    return .i8unpk n i o
  | 0x80 =>
    f.only 0x07
    let seg ← decSeg6 (f.m 0 3)
    let o ← f.ops2
    return .shfl seg o
  | 0x81 =>
    f.only 0x07
    let seg ← decSeg6 (f.m 0 3)
    let o ← f.ops2
    return .shup seg o
  | 0x82 =>
    f.only 0x07
    let seg ← decSeg6 (f.m 0 3)
    let o ← f.ops2
    return .shdn seg o
  | 0x83 =>
    f.only 0x07
    let seg ← decSeg6 (f.m 0 3)
    let o ← f.ops2
    return .shx seg o
  | 0x84 =>
    f.only 0x00
    let o ← f.ops2
    return .bcast o
  | 0x85 =>
    f.only 0x3F
    let ty ← decRTy (f.m 0 2)
    let seg ← decSeg4 (f.m 2 2)
    let rm ← decRm (f.m 4 2)
    let o ← f.ops1
    return .redadd ty seg rm o
  | 0x86 =>
    f.only 0x0F
    let ty ← decRTy (f.m 0 2)
    let seg ← decSeg4 (f.m 2 2)
    let o ← f.ops1
    return .redmin ty seg o
  | 0x87 =>
    f.only 0x0F
    let ty ← decRTy (f.m 0 2)
    let seg ← decSeg4 (f.m 2 2)
    let o ← f.ops1
    return .redmax ty seg o
  | 0x88 =>
    f.only 0x0F
    let ty ← decRTy (f.m 0 2)
    let seg ← decSeg4 (f.m 2 2)
    let o ← f.ops1
    return .redmini ty seg o
  | 0x89 =>
    f.only 0x0F
    let ty ← decRTy (f.m 0 2)
    let seg ← decSeg4 (f.m 2 2)
    let o ← f.ops1
    return .redmaxi ty seg o
  | 0x8A =>
    f.only 0xFF
    let op ← decScanOp (f.m 6 2)
    let ty ← decRTy (f.m 0 2)
    let seg ← decSeg4 (f.m 2 2)
    let rm ← decRm (f.m 4 2)
    let o ← f.ops1
    return .scan op ty seg rm o
  | 0x8B =>
    f.only 0x00
    let o ← f.ops1
    return .ballot o
  | 0x8C =>
    f.only 0x00
    let o ← f.ops1
    return .matchLanes o
  | 0xA1 =>
    f.only 0x00
    let o ← f.ops0
    return .rngnext o
  | 0xA2 =>
    f.only 0x00
    let o ← f.ops0
    return .rngunif o
  | 0xA3 =>
    f.only 0x30
    let rm ← decRm (f.m 4 2)
    let o ← f.ops0
    return .gumbel rm o
  | 0xA4 =>
    f.only 0x00
    let o ← f.ops2
    return .samplecat o
  | 0xA5 =>
    f.only 0x00
    let o ← f.ops2
    return .topkthr o
  | 0x8D =>
    f.only 0x01
    need (f.dst == 0 && f.c == 0 && f.nw == 0)
    let a ← decSrc f.a
    let b ← decSrc f.b
    return .reorder (f.mb 0) a b f.msel
  | 0x8E =>
    f.only 0x01
    need (f.a == 0 && f.b == 0 && f.c == 0 && f.nw == 0)
    if f.mb 0 then
      let d ← decS f.dst
      return .xlockTry d f.msel
    else
      need (f.dst == 0)
      return .xlock f.msel
  | 0x8F =>
    f.only 0x00
    need (f.dst == 0 && f.a == 0 && f.b == 0 && f.c == 0 && f.nw == 0)
    return .xfree f.msel
  | 0xA0 =>
    f.only 0x03
    need (f.c == 0 && f.nw == 0)
    match (f.m 0 2).toNat with
    | 0 =>
      need (f.dst == 0)
      let a ← decSImm f.a
      let b ← decSImm f.b
      return .rngkey a b f.msel
    | 1 =>
      need (f.a == 0 && f.b == 0)
      let d ← decS f.dst
      return .rngkeyGet d f.msel
    | 2 =>
      need (f.a == 0 && f.b == 0)
      let d ← decS f.dst
      return .rngkeyGetk d f.msel
    | _ => throw .field
  | _ => throw .unassigned

/-- Class ALU: `movi` and `lea` use format I (R56). -/
def decAlu (w : Dword) : Except Reject Instr :=
  if w.extractLsb' 56 8 = 0x1E then (FmtI.unpack w).ops.map .movi
  else if w.extractLsb' 56 8 = 0x25 then (FmtI.unpack w).ops.map .lea
  else decAluA (FmtA.unpack w)

def decFlow (w : Dword) : Except Reject Instr := do
  let f := FmtJ.unpack w
  match f.op.toNat with
  | 0x00 =>
    need (f.cond == 0 && f.b == 0 && f.mod == 0)
    return .jmp f.off
  | 0x01 =>
    need (f.b == 0 && f.mod &&& 0xE == 0)
    let c ← decSrc f.cond
    return .jsc (f.mod.getLsbD 0) c f.off
  | 0x02 =>
    need (f.b == 0 && f.mod &&& 0xE == 0)
    let c ← decSrc f.cond
    return .jv (f.mod.getLsbD 0) c f.off
  | 0x03 =>
    need (f.b == 0 && f.mod &&& 0xE == 0)
    let c ← decSrc f.cond
    return .jany (f.mod.getLsbD 0) c f.off
  | 0x04 =>
    need (f.b == 0 && f.mod &&& 0xE == 0)
    let c ← decSrc f.cond
    return .jall (f.mod.getLsbD 0) c f.off
  | 0x05 =>
    need (f.b == 0 && f.off == 0 && f.mod == 0)
    let p ← decDst f.cond
    return .jind p
  | 0x06 =>
    need (f.cond == 0 && f.mod == 0)
    let l ← decV f.b
    return .call l f.off
  | 0x07 =>
    need (f.off == 0 && f.mod == 0)
    let p ← decDst f.cond
    let l ← decV f.b
    return .calli p l
  | 0x08 =>
    need (f.b == 0 && f.off == 0 && f.mod == 0)
    let p ← decDst f.cond
    return .ret p
  | 0x09 =>
    need (f.cond == 0 && f.mod &&& 0xE == 0)
    let s ← decV f.b
    if f.mod.getLsbD 0 then
      need (f.off == 0)
      return .meetPop s
    else
      return .meet s f.off
  | 0x0A =>
    need (f.cond == 0 && f.b == 0 && f.off == 0 && f.mod == 0)
    return .yield
  | 0x0B =>
    need (f.cond == 0 && f.b == 0 && f.off == 0 && f.mod == 0)
    return .exit
  | 0x0C =>
    need (f.cond == 0 && f.b == 0 && f.off.extractLsb' 15 17 == 0 && f.mod == 0)
    return .wait (f.off.extractLsb' 0 15)
  | 0x0D =>
    need (f.cond == 0 && f.b == 0 && f.off == 0 && f.mod == 0)
    return .nop
  | 0x0E =>
    need (f.cond == 0 && f.b == 0 && f.off.extractLsb' 8 24 == 0 && f.mod == 0)
    return .trap (f.off.extractLsb' 0 8)
  | 0x0F =>
    need (f.b == 0 && f.mod == 0)
    let n ← decS f.cond
    return .loop n f.off
  | _ => throw .unassigned

/-- The fields shared by every access (R49). -/
def FmtM.memF (f : FmtM) : Except Reject MemF := do
  let data ← decSrc f.data
  let base ← decSrc f.base
  let ord ← decOrd f.ord
  let scope ← decScope f.scope
  let fmt ← decMFmt f.fmt
  let mode ← decMode f.mode
  pure { data, base, ord, scope, tok := f.tok, fmt, msel := f.msel, nw := nwBit f.nw, mode }

/-- The second data selector of format MA, whose bits [25:24] must be 0 (R50). -/
def FmtM.data2 (f : FmtM) : Except Reject Src := do
  need (f.off.extractLsb' 0 2 == 0)
  decSrc (f.off.extractLsb' 2 10)

/-- ord, scope, evict, grade, token, fmt, NW, base and mode are all 0 (R193). -/
def FmtM.barZeros (f : FmtM) : Except Reject Unit :=
  need (f.ord == 0 && f.scope == 0 && f.evict == 0 && f.grade == 0 && f.tok == 0 && f.fmt == 0 && f.nw == 0 &&
    f.base == 0 && f.mode == 0)

/-- A barrier number: 24 to 2,047 and negative values are refused (R55). -/
def FmtM.bar (f : FmtM) : Except Reject (BitVec 5) := do
  need (f.off.extractLsb' 5 7 == 0)
  pure (f.off.extractLsb' 0 5)

def decMem (w : Dword) : Except Reject Instr := do
  let f := FmtM.unpack w
  match f.op.toNat with
  | 0x00 =>
    let m ← f.memF
    return .ld m f.off f.evict f.grade
  | 0x01 =>
    let m ← f.memF
    return .st m f.off f.evict f.grade
  | 0x02 =>
    need (f.evict == 0 && f.grade == 0)
    let m ← f.memF
    return .lds m f.off
  | 0x03 =>
    need (f.evict == 0 && f.grade == 0)
    let m ← f.memF
    return .sts m f.off
  | 0x04 =>
    need (f.grade == 0)
    let m ← f.memF
    return .ldc m f.off f.evict
  | 0x05 =>
    let m ← f.memF
    let c ← f.data2
    return .ldw m c f.evict f.grade
  | 0x06 =>
    let m ← f.memF
    let a ← f.data2
    let op ← decAtom f.evict
    let pl ← decPlace f.grade
    return .atom op pl m a
  | 0x07 =>
    need (f.evict == 0 && f.grade == 0)
    let m ← f.memF
    let n ← f.data2
    return .atomcas m n
  | 0x08 =>
    let m ← f.memF
    let op ← decAtom f.evict
    let pl ← decPlace f.grade
    return .red op pl m f.off
  | 0x09 =>
    need (f.evict == 0 && f.grade == 0)
    let m ← f.memF
    return .cred m f.off
  | 0x0A =>
    need (f.off == 0 && f.ord == 0 && f.scope == 0 && f.grade == 0 && f.tok == 0 && f.nw == 0 && f.mode == 1)
    let len ← decS f.data
    let base ← decS f.base
    let op ← decAtom f.evict
    let fmt ← decMFmt f.fmt
    return .crdecl op len base fmt f.msel
  | 0x0B =>
    need (f.data == 0 && f.off == 0 && f.ord == 0 && f.scope == 0 && f.evict == 0 && f.grade == 0 &&
      f.tok == 0 && f.fmt == 0 && f.nw == 0 && f.mode == 1)
    let base ← decS f.base
    return .crfree base f.msel
  | 0x0C =>
    need (f.data == 0 && f.base == 0 && f.off == 0 && f.evict == 0 && f.grade == 0 && f.tok == 0 &&
      f.fmt == 0 && f.nw == 0 && f.mode == 0)
    let ord ← decOrd f.ord
    let scope ← decScope f.scope
    return .fence ord scope f.msel
  | 0x0D =>
    need (f.off == 0 && f.ord == 0 && f.evict == 0 && f.grade == 0 && f.fmt == 0 && f.nw == 0 && f.mode == 1)
    let len ← decS f.data
    let base ← decS f.base
    let scope ← decScope f.scope
    return .flushr len base scope f.tok f.msel
  | 0x0E =>
    need (f.off == 0 && f.ord == 0 && f.evict == 0 && f.grade == 0 && f.fmt == 0 && f.nw == 0 && f.mode == 1)
    let len ← decS f.data
    let base ← decS f.base
    let scope ← decScope f.scope
    return .invr len base scope f.tok f.msel
  | 0x0F =>
    need (f.data == 0 && f.ord == 0 && f.scope == 0 && f.grade == 0 && f.tok == 0 && f.nw == 0)
    let base ← decSrc f.base
    let fmt ← decMFmt f.fmt
    let mode ← decMode f.mode
    return .pref base f.off f.evict fmt f.msel mode
  | 0x10 =>
    f.barZeros
    need (f.off == 0)
    let n ← decSImm f.data
    return .lease n f.msel
  | 0x11 =>
    f.barZeros
    let n ← decSImm f.data
    let b ← f.bar
    return .barar n b f.msel
  | 0x12 =>
    f.barZeros
    need (f.data == 0)
    let b ← f.bar
    return .barwt b f.msel
  | 0x13 =>
    f.barZeros
    let n ← decSImm f.data
    let b ← f.bar
    return .barsy n b f.msel
  | 0x14 =>
    f.barZeros
    let d ← decS f.data
    let b ← f.bar
    return .barq d b f.msel
  | _ => throw .unassigned

/-- REAP words: the lane forms in a lane clause, the slice forms in a shadow clause (R38, R212). -/
def decReap (shadow : Bool) (w : Dword) : Except Reject Instr := do
  let f := FmtA.unpack w
  need (f.nw == 0)
  need (!shadow || (f.tok == 0 && f.msel == 0))
  match f.op.toNat with
  | 0x00 =>
    f.only 0x00
    need (f.dst == 0 && f.b == 0 && f.c == 0)
    let a ← decRSel shadow f.a
    return .rrec a f.tok f.msel
  | 0x02 =>
    f.only 0x00
    need (f.dst == 0)
    let a ← decRSel shadow f.a
    let b ← decRSel shadow f.b
    let c ← decRSel shadow f.c
    return .rcopy a b c f.tok f.msel
  | 0x03 =>
    f.only 0x00
    need (f.dst == 0)
    let a ← decRSel shadow f.a
    let b ← decRSel shadow f.b
    let c ← decRSel shadow f.c
    return .rcopyo a b c f.tok f.msel
  | op =>
    need (f.tok == 0 && f.c == 0)
    if shadow then
      match op with
      | 0x10 =>
        f.only 0x00
        let d ← dec5 f.dst
        let a ← decRSel true f.a
        let b ← decRSel true f.b
        return .xadd d a b
      | 0x11 =>
        f.only 0x00
        let d ← dec5 f.dst
        let a ← decRSel true f.a
        let b ← decRSel true f.b
        return .xmul d a b
      | 0x12 =>
        f.only 0x00
        need (f.dst == 0 && f.b == 0)
        let a ← dec5 f.a
        return .xloop a
      | 0x13 =>
        f.only 0x00
        need (f.dst == 0 && f.a == 0 && f.b == 0)
        return .xnext
      | 0x14 =>
        f.only 0x1F
        need (f.dst.extractLsb' 3 7 == 0)
        let a ← dec5 f.a
        let b ← decRSel true f.b
        let fmt ← decMFmt (f.m 0 4)
        return .qput fmt (f.mb 4) (f.dst.extractLsb' 0 3) a b
      | 0x15 =>
        f.only 0x00
        need (f.dst == 0 && f.a == 0 && f.b == 0)
        return .xend
      | _ => throw .unassigned
    else
      need (f.a == 0 && f.b == 0)
      match op with
      | 0x01 =>
        f.only 0x00
        need (f.dst == 0)
        return .rfence f.msel
      | 0x04 =>
        f.only 0x01
        need (f.dst == 0)
        return .rwait (f.mb 0) f.msel
      | 0x05 =>
        f.only 0x0F
        need (f.dst == 0)
        if f.mb 3 then
          need (f.m 0 3 == 0)
          return .qdropAll f.msel
        else
          return .qdrop (f.m 0 3) f.msel
      | 0x06 =>
        f.only 0x01
        let d ← decS f.dst
        return .qstat (f.mb 0) d f.msel
      | 0x07 =>
        f.only 0x03
        need (f.dst == 0)
        match (f.m 0 2).toNat with
        | 0 => return .slctlStop f.msel
        | 1 => return .slctlPause f.msel
        | 2 => return .slctlResume f.msel
        | _ => throw .field
      | _ => throw .unassigned

def decTable (w : Dword) : Except Reject Instr := do
  let f := FmtA.unpack w
  need (f.nw == 0 && f.tok == 0)
  match f.op.toNat with
  | 0x00 =>
    f.only 0x00
    need (f.b == 0 && f.c == 0)
    let d ← decS f.dst
    let a ← decS f.a
    return .thres d a f.msel
  | 0x01 =>
    f.only 0x00
    need (f.dst == 0 && f.a == 0 && f.b == 0 && f.c == 0)
    return .threl f.msel
  | 0x02 =>
    f.only 0x00
    need (f.dst == 0 && f.a == 0 && f.b == 0 && f.c == 0)
    return .orf f.msel
  | op =>
    need (f.msel == 0)
    match op with
    | 0x10 =>
      f.only 0x7F
      need (f.dst.extractLsb' 3 7 == 0)
      let a ← decKSel f.a
      let b ← decKSel f.b
      let c ← decKSel f.c
      return .tbuild (f.m 0 2) (f.m 2 3) (f.mb 5) (f.mb 6) (f.dst.extractLsb' 0 3) a b c
    | 0x11 =>
      f.only 0x03
      need (f.dst.extractLsb' 3 7 == 0 && f.c == 0)
      let a ← decKSel f.a
      let b ← decKSel f.b
      return .tcode (f.m 0 2) (f.dst.extractLsb' 0 3) a b
    | 0x12 =>
      need (f.dst.extractLsb' 4 6 == 0)
      let a ← decKSel f.a
      let b ← decKSel f.b
      let c ← decKSel f.c
      return .tmac (f.mb 7) (f.m 0 2) (f.m 2 3) (f.m 5 2) (f.dst.extractLsb' 0 4) a b c
    | 0x13 =>
      f.only 0x00
      need (f.dst.extractLsb' 4 6 == 0 && f.a == 0 && f.b == 0 && f.c == 0)
      return .taclr (f.dst.extractLsb' 0 4)
    | 0x14 =>
      f.only 0x7C
      need (f.dst.extractLsb' 4 6 == 0 && f.c == 0)
      let a ← decKSel f.a
      let b ← decKSel f.b
      return .tald (f.m 2 3) (f.m 5 2) (f.dst.extractLsb' 0 4) a b
    | 0x15 =>
      f.only 0x7F
      need (f.dst.extractLsb' 4 6 == 0)
      let a ← decKSel f.a
      let b ← decKSel f.b
      let c ← decKSel f.c
      return .tast (f.m 0 2) (f.m 2 3) (f.m 5 2) (f.dst.extractLsb' 0 4) a b c
    | 0x16 =>
      f.only 0x01
      need (f.dst == 0 && f.b == 0 && f.c == 0)
      if f.mb 0 then
        need (f.a == 0)
        return .tinvAll
      else
        let a ← decKSel f.a
        return .tinv a
    | 0x17 =>
      f.only 0x00
      need (f.dst == 0 && f.a == 0 && f.b == 0 && f.c == 0)
      return .twait
    | 0x18 =>
      f.only 0x1F
      need (f.dst == 0 && f.b == 0 && f.c == 0)
      let a ← decKSel f.a
      return .tbar (f.mb 4) (f.m 0 4) a
    | 0x19 =>
      need (f.dst == 0 && f.b == 0 && f.c == 0)
      let k ← dec5 f.a
      return .tloop k f.mod
    | 0x1A =>
      f.only 0x00
      need (f.dst == 0 && f.a == 0 && f.b == 0 && f.c == 0)
      return .tend
    | _ => throw .unassigned

def decTask (w : Dword) : Except Reject Instr := do
  let f := FmtA.unpack w
  need (f.nw == 0 && f.c == 0)
  match f.op.toNat with
  | 0x00 =>
    f.only 0x00
    need (f.b == 0)
    let d ← decS f.dst
    let a ← decS f.a
    return .tspawn d a f.tok f.msel
  | 0x01 =>
    f.only 0x00
    need (f.dst == 0 && f.tok == 0)
    let a ← decS f.a
    let n ← decSImm f.b
    return .tjoin a n f.msel
  | 0x02 =>
    f.only 0x00
    need (f.dst == 0 && f.b == 0)
    let a ← decS f.a
    return .tsig a f.tok f.msel
  | 0x03 =>
    f.only 0x00
    need (f.dst == 0 && f.b == 0 && f.tok == 0)
    let a ← decS f.a
    return .tcont a f.msel
  | 0x04 =>
    f.only 0x00
    need (f.dst == 0 && f.b == 0 && f.tok == 0)
    let a ← decS f.a
    return .tkill a f.msel
  | 0x05 =>
    f.only 0x00
    let d ← decS f.dst
    let a ← decS f.a
    let b ← decS f.b
    return .grange d a b f.tok f.msel
  | 0x06 =>
    f.only 0x00
    need (f.b == 0)
    let d ← decS f.dst
    let a ← decS f.a
    return .grel d a f.tok f.msel
  | 0x07 =>
    f.only 0x03
    need (f.dst == 0)
    let a ← decS f.a
    let n ← decSImm f.b
    return .promote (f.m 0 2) a n f.tok f.msel
  | 0x08 =>
    f.only 0x00
    need (f.dst == 0)
    let a ← decS f.a
    let n ← decSImm f.b
    return .retract a n f.tok f.msel
  | 0x09 =>
    f.only 0x00
    need (f.b == 0)
    let d ← decS f.dst
    let a ← decS f.a
    return .gstat d a f.tok f.msel
  | 0x0A =>
    f.only 0x00
    let d ← decS f.dst
    let a ← decS f.a
    let b ← decS f.b
    return .qpush d a b f.tok f.msel
  | 0x0B =>
    f.only 0x00
    let d ← decS f.dst
    let a ← decS f.a
    let b ← decS f.b
    return .qpop d a b f.tok f.msel
  | 0x0C =>
    f.only 0x00
    need (f.b == 0)
    let d ← decS f.dst
    let a ← decS f.a
    return .qpopw d a f.tok f.msel
  | 0x0D =>
    f.only 0x00
    need (f.b == 0)
    let d ← decS f.dst
    let a ← decS f.a
    return .launch d a f.tok f.msel
  | 0x0E =>
    f.only 0x00
    need (f.dst == 0 && f.b == 0 && f.tok == 0)
    let h ← decSImm f.a
    return .lwait h f.msel
  | _ => throw .unassigned

def decFab (w : Dword) : Except Reject Instr := do
  let f := FmtA.unpack w
  need (f.nw == 0 && f.a == 0 && f.b == 0 && f.c == 0)
  match f.op.toNat with
  | 0x00 =>
    f.only 0x00
    need (f.dst == 0)
    return .ffence f.tok f.msel
  | 0x01 =>
    f.only 0x00
    need (f.dst == 0)
    return .fdrain f.tok f.msel
  | 0x02 =>
    f.only 0x07
    need (f.tok == 0)
    let d ← decS f.dst
    return .jobq (f.m 0 3) d f.msel
  | 0x03 =>
    f.only 0x00
    need (f.tok == 0)
    let d ← decS f.dst
    return .wcbq d f.msel
  | _ => throw .unassigned

def decSys (w : Dword) : Except Reject Instr := do
  let f := FmtA.unpack w
  need (f.nw == 0 && f.tok == 0 && f.b == 0 && f.c == 0)
  match f.op.toNat with
  | 0x00 =>
    need (f.a == 0)
    let d ← decS f.dst
    return .sysrd f.mod d f.msel
  | 0x01 =>
    need (f.dst == 0)
    let a ← decSImm f.a
    return .syswr f.mod a f.msel
  | 0x02 =>
    f.only 0x01
    need (f.dst == 0 && f.a == 0)
    return .eret (f.mb 0) f.msel
  | 0x03 =>
    f.only 0x00
    need (f.a == 0)
    let d ← decS f.dst
    return .clock d f.msel
  | 0x04 =>
    f.only 0x00
    need (f.dst == 0)
    let a ← decSImm f.a
    return .park a f.msel
  | 0x05 =>
    need (f.dst == 0 && f.a == 0)
    return .abort f.mod f.msel
  | 0x06 =>
    need (f.dst == 0 && f.a == 0)
    return .brk f.mod f.msel
  | 0x07 =>
    f.only 0x00
    need (f.dst == 0 && f.a == 0)
    return .icinv f.msel
  | 0x08 =>
    f.only 0x01
    need (f.dst == 0)
    if f.mb 0 then
      let a ← decS f.a
      return .tlbinvVa a f.msel
    else
      need (f.a == 0)
      return .tlbinv f.msel
  | _ => throw .unassigned

/-- The instruction a word names in a clause of the given class and shadow bit (R34), before the operand rules
of `Instr.wf`. -/
def decRaw (c : Cls) (shadow : Bool) (w : Dword) : Except Reject Instr :=
  match c with
  | .alu => decAlu w
  | .flow => decFlow w
  | .mem => decMem w
  | .reap => decReap shadow w
  | .table => decTable w
  | .task => decTask w
  | .fab => decFab w
  | .sys => decSys w

/-- Decoding, total on every word: the instruction, or the reason it is none. -/
def decodeWord (c : Cls) (shadow : Bool) (w : Dword) : Except Reject Instr := do
  let i ← decRaw c shadow w
  if i.wf then pure i else throw .operands

/-! ## The clause header (R32) -/

structure Header where
  cls : BitVec 4
  count : BitVec 4
  tokens : BitVec 15
  rsv40 : BitVec 1
  queues : BitVec 8
  tail : Bool
  shadow : Bool
  rsv : BitVec 30
  deriving DecidableEq, Repr

def Header.unpack (w : Dword) : Header :=
  { cls := w.extractLsb' 60 4, count := w.extractLsb' 56 4, tokens := w.extractLsb' 41 15,
    rsv40 := w.extractLsb' 40 1, queues := w.extractLsb' 32 8, tail := w.getLsbD 31,
    shadow := w.getLsbD 30, rsv := w.extractLsb' 0 30 }

def Header.pack (h : Header) : Dword :=
  h.cls ++ h.count ++ h.tokens ++ h.rsv40 ++ h.queues ++ BitVec.ofBool h.tail ++ BitVec.ofBool h.shadow ++ h.rsv

/-- A header with no waits. -/
def Header.plain (c : Cls) (count : BitVec 4) (shadow : Bool) : Header :=
  { cls := c.code, count, tokens := 0, rsv40 := 0, queues := 0, tail := false, shadow, rsv := 0 }

/-- The class by which word `k` of a clause is decoded: the header's, or FLOW for the last word when tail-flow
is 1 (R34). -/
def Header.wordClass (h : Header) (k : Nat) : Option Cls :=
  if h.tail && k == h.count.toNat then some .flow else Cls.ofCode h.cls

/-- An instruction of the opcode table as one number: the clause header in the low 64 bits and its first
instruction word in the next 64. -/
def decodeTableWord (nbits w : Nat) : Option Instr :=
  if nbits > 128 then none
  else
    let h := Header.unpack (BitVec.ofNat 64 w)
    match h.wordClass 0 with
    | none => none
    | some c =>
      match decodeWord c h.shadow (BitVec.ofNat 64 (w / 2 ^ 64)) with
      | .ok i => some i
      | .error _ => none

/-! ## Encoding -/

/-- The bit of a Bool field. -/
def bb (b : Bool) : BitVec 1 := BitVec.ofBool b

def Ops0.enc (o : Ops0) (op mod : BitVec 8) : Dword :=
  FmtA.pack ⟨op, encDst o.d, 0, 0, 0, bb o.nw, 0, o.msel, mod⟩

def Ops1.enc (o : Ops1) (op mod : BitVec 8) : Dword :=
  FmtA.pack ⟨op, encDst o.d, encSrc o.a, 0, 0, bb o.nw, 0, o.msel, mod⟩

def Ops2.enc (o : Ops2) (op mod : BitVec 8) : Dword :=
  FmtA.pack ⟨op, encDst o.d, encSrc o.a, encSrc o.b, 0, bb o.nw, 0, o.msel, mod⟩

def Ops3.enc (o : Ops3) (op mod : BitVec 8) : Dword :=
  FmtA.pack ⟨op, encDst o.d, encSrc o.a, encSrc o.b, encSrc o.c, bb o.nw, 0, o.msel, mod⟩

def OpsI.enc (o : OpsI) (op : BitVec 8) : Dword :=
  FmtI.pack ⟨op, encDst o.d, encSrc o.a, o.imm, bb o.nw, o.msel⟩

/-- A format A word of a class other than ALU. -/
def encA (op : BitVec 8) (dst a b c : BitVec 10) (tok : BitVec 4) (msel : BitVec 3) (mod : BitVec 8) : Dword :=
  FmtA.pack ⟨op, dst, a, b, c, 0, tok, msel, mod⟩

def encJ (op : BitVec 8) (cond b : BitVec 10) (off : BitVec 32) (mod : BitVec 4) : Dword :=
  FmtJ.pack ⟨op, cond, b, off, mod⟩

def MemF.enc (f : MemF) (op : BitVec 8) (off : BitVec 12) (evict : BitVec 3) (grade : BitVec 2) : Dword :=
  FmtM.pack ⟨op, encSrc f.data, encSrc f.base, off, f.ord.bits, f.scope.bits, evict, grade, f.tok, f.fmt.bits,
    f.msel, bb f.nw, f.mode.bits⟩

/-- The offset field of a barrier instruction. -/
def encBar (b : BitVec 5) : BitVec 12 := (0#7) ++ b

/-- The class, the shadow bit and the word of an instruction; none for an event. -/
def encode : Instr → Option (Cls × Bool × Dword)
  | .movi o => some (.alu, false, o.enc 0x1E)
  | .lea o => some (.alu, false, o.enc 0x25)
  | .iadd o => some (.alu, false, o.enc 0x00 0)
  | .isub o => some (.alu, false, o.enc 0x01 0)
  | .iaddc co o => some (.alu, false, o.enc 0x02 ((0#7) ++ (BitVec.ofBool co)))
  | .imul o => some (.alu, false, o.enc 0x03 0)
  | .imulh sg o => some (.alu, false, o.enc 0x04 ((0#7) ++ (BitVec.ofBool sg)))
  | .imad o => some (.alu, false, o.enc 0x05 0)
  | .iabs o => some (.alu, false, o.enc 0x06 0)
  | .ineg o => some (.alu, false, o.enc 0x07 0)
  | .imin sg o => some (.alu, false, o.enc 0x08 ((0#7) ++ (BitVec.ofBool sg)))
  | .imax sg o => some (.alu, false, o.enc 0x09 ((0#7) ++ (BitVec.ofBool sg)))
  | .shl o => some (.alu, false, o.enc 0x0A 0)
  | .shr sg o => some (.alu, false, o.enc 0x0B ((0#7) ++ (BitVec.ofBool sg)))
  | .rot o => some (.alu, false, o.enc 0x0C 0)
  | .fsh l o => some (.alu, false, o.enc 0x0D ((0#7) ++ (BitVec.ofBool l)))
  | .and o => some (.alu, false, o.enc 0x0E 0)
  | .or o => some (.alu, false, o.enc 0x0F 0)
  | .xor o => some (.alu, false, o.enc 0x10 0)
  | .andn o => some (.alu, false, o.enc 0x11 0)
  | .not o => some (.alu, false, o.enc 0x12 0)
  | .tri table o => some (.alu, false, o.enc 0x13 table)
  | .popc o => some (.alu, false, o.enc 0x14 0)
  | .clz o => some (.alu, false, o.enc 0x15 0)
  | .ctz o => some (.alu, false, o.enc 0x16 0)
  | .brev o => some (.alu, false, o.enc 0x17 0)
  | .bfx sg o => some (.alu, false, o.enc 0x18 ((0#7) ++ (BitVec.ofBool sg)))
  | .bfi o => some (.alu, false, o.enc 0x19 0)
  | .bperm o => some (.alu, false, o.enc 0x1A 0)
  | .icmp cc sg o => some (.alu, false, o.enc 0x1B ((0#4) ++ (BitVec.ofBool sg) ++ cc.bits))
  | .sel m o => some (.alu, false, o.enc 0x1C ((0#7) ++ (BitVec.ofBool m)))
  | .mov o => some (.alu, false, o.enc 0x1D 0)
  | .vfill o => some (.alu, false, o.enc 0x1F 0)
  | .vpick o => some (.alu, false, o.enc 0x20 0)
  | .ridx o => some (.alu, false, o.enc 0x21 0)
  | .widx o => some (.alu, false, o.enc 0x22 0)
  | .tag t o => some (.alu, false, o.enc 0x23 ((0#4) ++ t.bits))
  | .tagq o => some (.alu, false, o.enc 0x24 0)
  | .add64 w u sh o => some (.alu, false, o.enc 0x26 ((0#3) ++ sh ++ (BitVec.ofBool u) ++ (BitVec.ofBool w)))
  | .mlop op o => some (.alu, false, o.enc 0x27 ((0#5) ++ op.bits))
  | .mcnt o => some (.alu, false, o.enc 0x28 0)
  | .mfirst o => some (.alu, false, o.enc 0x29 0)
  | .fadd rm o => some (.alu, false, o.enc 0x40 ((0#2) ++ rm.bits ++ (0#4)))
  | .fsub rm o => some (.alu, false, o.enc 0x41 ((0#2) ++ rm.bits ++ (0#4)))
  | .fmul rm o => some (.alu, false, o.enc 0x42 ((0#2) ++ rm.bits ++ (0#4)))
  | .ffma rm o => some (.alu, false, o.enc 0x43 ((0#2) ++ rm.bits ++ (0#4)))
  | .fmin o => some (.alu, false, o.enc 0x44 0)
  | .fmax o => some (.alu, false, o.enc 0x45 0)
  | .fabs o => some (.alu, false, o.enc 0x46 0)
  | .fneg o => some (.alu, false, o.enc 0x47 0)
  | .fcmp cc o => some (.alu, false, o.enc 0x48 ((0#5) ++ cc.bits))
  | .fclass o => some (.alu, false, o.enc 0x49 0)
  | .frcp rm o => some (.alu, false, o.enc 0x4A ((0#2) ++ rm.bits ++ (0#4)))
  | .frsq rm o => some (.alu, false, o.enc 0x4B ((0#2) ++ rm.bits ++ (0#4)))
  | .fsqrt rm o => some (.alu, false, o.enc 0x4C ((0#2) ++ rm.bits ++ (0#4)))
  | .fexp2 rm o => some (.alu, false, o.enc 0x4D ((0#2) ++ rm.bits ++ (0#4)))
  | .flog2 rm o => some (.alu, false, o.enc 0x4E ((0#2) ++ rm.bits ++ (0#4)))
  | .ftanh rm o => some (.alu, false, o.enc 0x4F ((0#2) ++ rm.bits ++ (0#4)))
  | .fsig rm o => some (.alu, false, o.enc 0x50 ((0#2) ++ rm.bits ++ (0#4)))
  | .fscale rm o => some (.alu, false, o.enc 0x51 ((0#2) ++ rm.bits ++ (0#4)))
  | .frnd rm o => some (.alu, false, o.enc 0x52 ((0#2) ++ rm.bits ++ (0#4)))
  | .f2i rm sg o => some (.alu, false, o.enc 0x53 ((0#2) ++ rm.bits ++ (0#3) ++ (BitVec.ofBool sg)))
  | .i2f rm sg o => some (.alu, false, o.enc 0x54 ((0#2) ++ rm.bits ++ (0#3) ++ (BitVec.ofBool sg)))
  | .cvt form e1 rm o => some (.alu, false, o.enc 0x55 ((0#2) ++ rm.bits ++ (BitVec.ofBool e1) ++ form.bits))
  | .hadd2 t rm o => some (.alu, false, o.enc 0x56 ((0#2) ++ rm.bits ++ (0#3) ++ t.bits))
  | .hmul2 t rm o => some (.alu, false, o.enc 0x57 ((0#2) ++ rm.bits ++ (0#3) ++ t.bits))
  | .hfma2 t rm o => some (.alu, false, o.enc 0x58 ((0#2) ++ rm.bits ++ (0#3) ++ t.bits))
  | .fdot2 t rm o => some (.alu, false, o.enc 0x59 ((0#2) ++ rm.bits ++ (0#3) ++ t.bits))
  | .d8pack n inf sc o => some (.alu, false, o.enc 0x5A ((0#4) ++ (BitVec.ofBool sc) ++ (BitVec.ofBool inf) ++ n))
  | .d8unpk n sc o => some (.alu, false, o.enc 0x5B ((0#4) ++ (BitVec.ofBool sc) ++ (0#1) ++ n))
  | .s8scale o => some (.alu, false, o.enc 0x5C 0)
  | .i8pack n rm o => some (.alu, false, o.enc 0x5D ((0#2) ++ rm.bits ++ (0#2) ++ n))
  | .i8unpk n i o => some (.alu, false, o.enc 0x5E ((0#5) ++ (BitVec.ofBool i) ++ n))
  | .shfl seg o => some (.alu, false, o.enc 0x80 ((0#5) ++ seg.bits))
  | .shup seg o => some (.alu, false, o.enc 0x81 ((0#5) ++ seg.bits))
  | .shdn seg o => some (.alu, false, o.enc 0x82 ((0#5) ++ seg.bits))
  | .shx seg o => some (.alu, false, o.enc 0x83 ((0#5) ++ seg.bits))
  | .bcast o => some (.alu, false, o.enc 0x84 0)
  | .redadd ty seg rm o => some (.alu, false, o.enc 0x85 ((0#2) ++ rm.bits ++ seg.bits ++ ty.bits))
  | .redmin ty seg o => some (.alu, false, o.enc 0x86 ((0#4) ++ seg.bits ++ ty.bits))
  | .redmax ty seg o => some (.alu, false, o.enc 0x87 ((0#4) ++ seg.bits ++ ty.bits))
  | .redmini ty seg o => some (.alu, false, o.enc 0x88 ((0#4) ++ seg.bits ++ ty.bits))
  | .redmaxi ty seg o => some (.alu, false, o.enc 0x89 ((0#4) ++ seg.bits ++ ty.bits))
  | .scan op ty seg rm o => some (.alu, false, o.enc 0x8A (op.bits ++ rm.bits ++ seg.bits ++ ty.bits))
  | .ballot o => some (.alu, false, o.enc 0x8B 0)
  | .matchLanes o => some (.alu, false, o.enc 0x8C 0)
  | .rngnext o => some (.alu, false, o.enc 0xA1 0)
  | .rngunif o => some (.alu, false, o.enc 0xA2 0)
  | .gumbel rm o => some (.alu, false, o.enc 0xA3 ((0#2) ++ rm.bits ++ (0#4)))
  | .samplecat o => some (.alu, false, o.enc 0xA4 0)
  | .topkthr o => some (.alu, false, o.enc 0xA5 0)
  | .reorder sg a b m => some (.alu, false, FmtA.pack ⟨0x8D, 0, encSrc a, encSrc b, 0, 0, 0, m, (0#7) ++ bb sg⟩)
  | .xlock m => some (.alu, false, encA 0x8E 0 0 0 0 0 m 0)
  | .xlockTry d m => some (.alu, false, encA 0x8E (encS d) 0 0 0 0 m 1)
  | .xfree m => some (.alu, false, encA 0x8F 0 0 0 0 0 m 0)
  | .rngkey a b m => some (.alu, false, encA 0xA0 0 (encSImm a) (encSImm b) 0 0 m 0)
  | .rngkeyGet d m => some (.alu, false, encA 0xA0 (encS d) 0 0 0 0 m 1)
  | .rngkeyGetk d m => some (.alu, false, encA 0xA0 (encS d) 0 0 0 0 m 2)
  | .jmp off => some (.flow, false, encJ 0x00 0 0 off 0)
  | .jsc z c off => some (.flow, false, encJ 0x01 (encSrc c) 0 off ((0#3) ++ bb z))
  | .jv z c off => some (.flow, false, encJ 0x02 (encSrc c) 0 off ((0#3) ++ bb z))
  | .jany z c off => some (.flow, false, encJ 0x03 (encSrc c) 0 off ((0#3) ++ bb z))
  | .jall z c off => some (.flow, false, encJ 0x04 (encSrc c) 0 off ((0#3) ++ bb z))
  | .jind p => some (.flow, false, encJ 0x05 (encDst p) 0 0 0)
  | .call l off => some (.flow, false, encJ 0x06 0 (encV l) off 0)
  | .calli p l => some (.flow, false, encJ 0x07 (encDst p) (encV l) 0 0)
  | .ret p => some (.flow, false, encJ 0x08 (encDst p) 0 0 0)
  | .meet l off => some (.flow, false, encJ 0x09 0 (encV l) off 0)
  | .meetPop l => some (.flow, false, encJ 0x09 0 (encV l) 0 1)
  | .yield => some (.flow, false, encJ 0x0A 0 0 0 0)
  | .exit => some (.flow, false, encJ 0x0B 0 0 0 0)
  | .wait mask => some (.flow, false, encJ 0x0C 0 0 ((0#17) ++ mask) 0)
  | .nop => some (.flow, false, encJ 0x0D 0 0 0 0)
  | .trap n => some (.flow, false, encJ 0x0E 0 0 ((0#24) ++ n) 0)
  | .loop n off => some (.flow, false, encJ 0x0F (encS n) 0 off 0)
  | .ld f off e g => some (.mem, false, f.enc 0x00 off e g)
  | .st f off e g => some (.mem, false, f.enc 0x01 off e g)
  | .lds f off => some (.mem, false, f.enc 0x02 off 0 0)
  | .sts f off => some (.mem, false, f.enc 0x03 off 0 0)
  | .ldc f off e => some (.mem, false, f.enc 0x04 off e 0)
  | .ldw f c e g => some (.mem, false, f.enc 0x05 (encSrc c ++ (0#2)) e g)
  | .atom op pl f a => some (.mem, false, f.enc 0x06 (encSrc a ++ (0#2)) op.bits pl.bits)
  | .atomcas f n => some (.mem, false, f.enc 0x07 (encSrc n ++ (0#2)) 0 0)
  | .red op pl f off => some (.mem, false, f.enc 0x08 off op.bits pl.bits)
  | .cred f off => some (.mem, false, f.enc 0x09 off 0 0)
  | .crdecl op len base fmt m =>
    some (.mem, false, FmtM.pack ⟨0x0A, encS len, encS base, 0, 0, 0, op.bits, 0, 0, fmt.bits, m, 0, 1⟩)
  | .crfree base m => some (.mem, false, FmtM.pack ⟨0x0B, 0, encS base, 0, 0, 0, 0, 0, 0, 0, m, 0, 1⟩)
  | .fence ord scope m =>
    some (.mem, false, FmtM.pack ⟨0x0C, 0, 0, 0, ord.bits, scope.bits, 0, 0, 0, 0, m, 0, 0⟩)
  | .flushr len base scope tok m =>
    some (.mem, false, FmtM.pack ⟨0x0D, encS len, encS base, 0, 0, scope.bits, 0, 0, tok, 0, m, 0, 1⟩)
  | .invr len base scope tok m =>
    some (.mem, false, FmtM.pack ⟨0x0E, encS len, encS base, 0, 0, scope.bits, 0, 0, tok, 0, m, 0, 1⟩)
  | .pref base off e fmt m mode =>
    some (.mem, false, FmtM.pack ⟨0x0F, 0, encSrc base, off, 0, 0, e, 0, 0, fmt.bits, m, 0, mode.bits⟩)
  | .lease n m => some (.mem, false, FmtM.pack ⟨0x10, encSImm n, 0, 0, 0, 0, 0, 0, 0, 0, m, 0, 0⟩)
  | .barar n b m => some (.mem, false, FmtM.pack ⟨0x11, encSImm n, 0, encBar b, 0, 0, 0, 0, 0, 0, m, 0, 0⟩)
  | .barwt b m => some (.mem, false, FmtM.pack ⟨0x12, 0, 0, encBar b, 0, 0, 0, 0, 0, 0, m, 0, 0⟩)
  | .barsy n b m => some (.mem, false, FmtM.pack ⟨0x13, encSImm n, 0, encBar b, 0, 0, 0, 0, 0, 0, m, 0, 0⟩)
  | .barq d b m => some (.mem, false, FmtM.pack ⟨0x14, encS d, 0, encBar b, 0, 0, 0, 0, 0, 0, m, 0, 0⟩)
  | .rrec a tok m => some (.reap, a.isX, encA 0x00 0 (encRSel a) 0 0 tok m 0)
  | .rfence m => some (.reap, false, encA 0x01 0 0 0 0 0 m 0)
  | .rcopy a b c tok m => some (.reap, a.isX, encA 0x02 0 (encRSel a) (encRSel b) (encRSel c) tok m 0)
  | .rcopyo a b c tok m => some (.reap, a.isX, encA 0x03 0 (encRSel a) (encRSel b) (encRSel c) tok m 0)
  | .rwait sl m => some (.reap, false, encA 0x04 0 0 0 0 0 m ((0#7) ++ bb sl))
  | .qdrop n m => some (.reap, false, encA 0x05 0 0 0 0 0 m ((0#5) ++ n))
  | .qdropAll m => some (.reap, false, encA 0x05 0 0 0 0 0 m 8)
  | .qstat sl d m => some (.reap, false, encA 0x06 (encS d) 0 0 0 0 m ((0#7) ++ bb sl))
  | .slctlStop m => some (.reap, false, encA 0x07 0 0 0 0 0 m 0)
  | .slctlPause m => some (.reap, false, encA 0x07 0 0 0 0 0 m 1)
  | .slctlResume m => some (.reap, false, encA 0x07 0 0 0 0 0 m 2)
  | .xadd d a b => some (.reap, true, encA 0x10 (enc5 d) (encRSel a) (encRSel b) 0 0 0 0)
  | .xmul d a b => some (.reap, true, encA 0x11 (enc5 d) (encRSel a) (encRSel b) 0 0 0 0)
  | .xloop a => some (.reap, true, encA 0x12 0 (enc5 a) 0 0 0 0 0)
  | .xnext => some (.reap, true, encA 0x13 0 0 0 0 0 0 0)
  | .qput fmt sp n a b =>
    some (.reap, true, encA 0x14 ((0#7) ++ n) (enc5 a) (encRSel b) 0 0 0 ((0#3) ++ bb sp ++ fmt.bits))
  | .xend => some (.reap, true, encA 0x15 0 0 0 0 0 0 0)
  | .thres d a m => some (.table, false, encA 0x00 (encS d) (encS a) 0 0 0 m 0)
  | .threl m => some (.table, false, encA 0x01 0 0 0 0 0 m 0)
  | .orf m => some (.table, false, encA 0x02 0 0 0 0 0 m 0)
  | .tbuild lg lm d8 inf n a b c =>
    some (.table, false, encA 0x10 ((0#7) ++ n) (encKSel a) (encKSel b) (encKSel c) 0 0
      ((0#1) ++ bb inf ++ bb d8 ++ lm ++ lg))
  | .tcode wd n a b => some (.table, false, encA 0x11 ((0#7) ++ n) (encKSel a) (encKSel b) 0 0 0 ((0#6) ++ wd))
  | .tmac rb lg lm n t a b c =>
    some (.table, false, encA 0x12 ((0#6) ++ t) (encKSel a) (encKSel b) (encKSel c) 0 0 (bb rb ++ n ++ lm ++ lg))
  | .taclr t => some (.table, false, encA 0x13 ((0#6) ++ t) 0 0 0 0 0 0)
  | .tald lm n t a b =>
    some (.table, false, encA 0x14 ((0#6) ++ t) (encKSel a) (encKSel b) 0 0 0 ((0#1) ++ n ++ lm ++ (0#2)))
  | .tast fmt lm n t a b c =>
    some (.table, false, encA 0x15 ((0#6) ++ t) (encKSel a) (encKSel b) (encKSel c) 0 0 ((0#1) ++ n ++ lm ++ fmt))
  | .tinv a => some (.table, false, encA 0x16 0 (encKSel a) 0 0 0 0 0)
  | .tinvAll => some (.table, false, encA 0x16 0 0 0 0 0 0 1)
  | .twait => some (.table, false, encA 0x17 0 0 0 0 0 0 0)
  | .tbar arr n cnt => some (.table, false, encA 0x18 0 (encKSel cnt) 0 0 0 0 ((0#3) ++ bb arr ++ n))
  | .tloop k d => some (.table, false, encA 0x19 0 (enc5 k) 0 0 0 0 d)
  | .tend => some (.table, false, encA 0x1A 0 0 0 0 0 0 0)
  | .tspawn d a tok m => some (.task, false, encA 0x00 (encS d) (encS a) 0 0 tok m 0)
  | .tjoin a n m => some (.task, false, encA 0x01 0 (encS a) (encSImm n) 0 0 m 0)
  | .tsig a tok m => some (.task, false, encA 0x02 0 (encS a) 0 0 tok m 0)
  | .tcont a m => some (.task, false, encA 0x03 0 (encS a) 0 0 0 m 0)
  | .tkill a m => some (.task, false, encA 0x04 0 (encS a) 0 0 0 m 0)
  | .grange d a b tok m => some (.task, false, encA 0x05 (encS d) (encS a) (encS b) 0 tok m 0)
  | .grel d a tok m => some (.task, false, encA 0x06 (encS d) (encS a) 0 0 tok m 0)
  | .promote gr a n tok m => some (.task, false, encA 0x07 0 (encS a) (encSImm n) 0 tok m ((0#6) ++ gr))
  | .retract a n tok m => some (.task, false, encA 0x08 0 (encS a) (encSImm n) 0 tok m 0)
  | .gstat d a tok m => some (.task, false, encA 0x09 (encS d) (encS a) 0 0 tok m 0)
  | .qpush d a b tok m => some (.task, false, encA 0x0A (encS d) (encS a) (encS b) 0 tok m 0)
  | .qpop d a b tok m => some (.task, false, encA 0x0B (encS d) (encS a) (encS b) 0 tok m 0)
  | .qpopw d a tok m => some (.task, false, encA 0x0C (encS d) (encS a) 0 0 tok m 0)
  | .launch d a tok m => some (.task, false, encA 0x0D (encS d) (encS a) 0 0 tok m 0)
  | .lwait h m => some (.task, false, encA 0x0E 0 (encSImm h) 0 0 0 m 0)
  | .ffence tok m => some (.fab, false, encA 0x00 0 0 0 0 tok m 0)
  | .fdrain tok m => some (.fab, false, encA 0x01 0 0 0 0 tok m 0)
  | .jobq n d m => some (.fab, false, encA 0x02 (encS d) 0 0 0 0 m ((0#5) ++ n))
  | .wcbq d m => some (.fab, false, encA 0x03 (encS d) 0 0 0 0 m 0)
  | .sysrd n d m => some (.sys, false, encA 0x00 (encS d) 0 0 0 0 m n)
  | .syswr n a m => some (.sys, false, encA 0x01 0 (encSImm a) 0 0 0 m n)
  | .eret nxt m => some (.sys, false, encA 0x02 0 0 0 0 0 m ((0#7) ++ bb nxt))
  | .clock d m => some (.sys, false, encA 0x03 (encS d) 0 0 0 0 m 0)
  | .park a m => some (.sys, false, encA 0x04 0 (encSImm a) 0 0 0 m 0)
  | .abort n m => some (.sys, false, encA 0x05 0 0 0 0 0 m n)
  | .brk n m => some (.sys, false, encA 0x06 0 0 0 0 0 m n)
  | .icinv m => some (.sys, false, encA 0x07 0 0 0 0 0 m 0)
  | .tlbinv m => some (.sys, false, encA 0x08 0 0 0 0 0 m 0)
  | .tlbinvVa a m => some (.sys, false, encA 0x08 0 (encS a) 0 0 0 m 1)
  | .reorderMove _ => none
  | .issueSlotChoice _ _ => none
  | .groupRetire _ => none
  | .blockRetire _ => none
  | .accessCompletion _ _ _ => none
  | .copyDataArrival _ _ => none
  | .qputEntryComplete _ _ => none
  | .sliceClauseIssue _ => none
  | .boundaryFaultDelivery _ => none
  | .homeMigrationEpoch => none
  | .gradedStoreClassify _ => none
  | .taskComplete _ _ => none
  | .placementDecision => none
  | .dependenceReread _ => none
  | .gridCompletion _ => none
  | .gridCancel _ => none
  | .leaseWindow _ => none
  | .victimHitCheck _ => none
  | .parkingThreshold _ => none
  | .faultQueueAppend _ => none
  | .relaunchSignal _ => none
  | .parkTimerExpiry _ => none
  | .watchdogExpiry _ => none
  | .fqcmdResolve _ _ => none
  | .fqcmdCancel _ _ => none
  | .preemptJob _ => none
  | .preemptGrid _ => none
  | .preemptCore _ => none
  | .rqregRegister _ => none
  | .rqregDeregister _ => none
  | .registerWrite _ _ _ => none
  | .lqtail _ _ => none
  | .remotePacketReceive _ _ => none
  | .gradeNotice _ => none
  | .wcbAgeExpiry _ _ => none
  | .routeTableUpdate => none
  | .routeColourRetire => none
  | .linkBufferDegrade _ _ => none
  | .jobSwitchCommand _ _ _ _ => none
  | .switchOutStamp _ => none
  | .switchSeal _ => none
  | .switchInStamp _ => none
  | .latePacket _ => none
  | .dieWarmReset _ => none
  | .powerLimiter _ => none
  | .identityStatement _ => none
  | .firmwareImageVerify _ => none
  | .jobCreate _ => none
  | .jobEnd _ => none
  | .hostCxlRead _ _ => none
  | .deviceReset _ => none
  | .eccUncorrectableError _ => none
  | .hostCxlWrite _ _ => none

/-- The rows of the opcode table that are events of the machine (R325 and the rules each names) and no program's words. -/
def Instr.fromSchedule : Instr → Bool
  | .reorderMove _ | .issueSlotChoice _ _ | .groupRetire _ | .blockRetire _ | .accessCompletion _ _ _
  | .copyDataArrival _ _ | .qputEntryComplete _ _ | .sliceClauseIssue _ | .boundaryFaultDelivery _
  | .homeMigrationEpoch | .gradedStoreClassify _ | .taskComplete _ _ | .placementDecision | .dependenceReread _
  | .gridCompletion _ | .gridCancel _ | .leaseWindow _ | .victimHitCheck _ | .parkingThreshold _
  | .faultQueueAppend _ | .relaunchSignal _ | .parkTimerExpiry _ | .watchdogExpiry _ | .fqcmdResolve _ _
  | .fqcmdCancel _ _ | .preemptJob _ | .preemptGrid _ | .preemptCore _ | .rqregRegister _ | .rqregDeregister _
  | .registerWrite _ _ _ | .lqtail _ _ | .remotePacketReceive _ _ | .gradeNotice _ | .wcbAgeExpiry _ _
  | .routeTableUpdate | .routeColourRetire | .linkBufferDegrade _ _ | .jobSwitchCommand _ _ _ _ | .switchOutStamp _
  | .switchSeal _ | .switchInStamp _ | .latePacket _ | .dieWarmReset _ | .powerLimiter _ | .identityStatement _
  | .firmwareImageVerify _ | .jobCreate _ | .jobEnd _ | .hostCxlRead _ _ | .deviceReset _
  | .eccUncorrectableError _ | .hostCxlWrite _ _ => true
  | _ => false

/-- A device event: a row of the opcode table that no word encodes. -/
def Instr.isEvent (i : Instr) : Bool := (encode i).isNone

end Sys2Proof
end

