-- ==== Sys2Proof/Config.lean ====
section
/-!
DEFINITION. What the manual leaves to the device. The free values below are constants with no body, so no
proof can rest on what they are; each is applied to the counter `State.freeCount`, which a step that needs a
free value reads and advances, or to the operands the manual leaves it to depend on (log entries 3, 4, 5, 16).
The fixed numbers are those the manual states.
-/
namespace Sys2Proof.Config

/-- A free yes or no: which of two outcomes the manual allows (log entry 3). -/
opaque freeBit : Nat → Bool

/-- A free 32-bit value: register, table and monitor contents the manual leaves open (log entry 3). -/
opaque freeWord : Nat → Word

/-- The die that first homes a 64 KiB unit of local memory: R151 gives every unit a home and says it may
differ from its owning die, and gives no first home (log entry 4). -/
opaque firstHome : Nat → BitVec 2

/-- The 64 KiB units of one HBM stack (R3, R138): 80 GiB. -/
def stackUnits : Nat := 1310720

/-- The stack H0 to H11 to which a 64 KiB unit of local memory goes if it has room. R138 says each unit lies wholly in one
stack, and does not say which (log entry 4). -/
opaque stackChoice : Nat → Fin 12

/-- The first stack from `k` on that has room, where stack i holds `held[i]` units. -/
def roomFrom (held : List Nat) (k : Nat) : Nat :=
  (((List.range 12).map fun i => (k + i) % 12).find? fun i => decide (held.getD i 0 < stackUnits)).getD k

/-- Units in each stack once the units below `u` have their places: no stack holds more than its 80 GiB. -/
def heldBelow : Nat → List Nat
  | 0 => List.replicate 12 0
  | u + 1 => (heldBelow u).modify (roomFrom (heldBelow u) (stackChoice u).val) (· + 1)

/-- The stack that holds a unit of local memory. -/
def stackOf (unit : Nat) : Nat := roomFrom (heldBelow unit) (stackChoice unit).val

/-- The device's serial number, which an identity statement holds (R384). -/
opaque serial : BitVec 64

/-- The two signatures of the device's identity keys over a statement's fields (R384): RSA-3072, and SLH-DSA-SHA2-192s, which
is 16,224 bytes. Signing is no part of the manual. -/
opaque rsaSign : List Nat → BitVec 3072
opaque slhSign : List Nat → BitVec 129792

/-- The worst slack that a core's path-delay monitors have measured over the last 1 ms, in units of 0.1 ps (R388), at a time of the
timebase and under a voltage offset and derating. -/
opaque margin (core time voff derate : Nat) : BitVec 16

/-- The hours for which a core had been powered when the timebase stood at 0 (R388). -/
opaque hoursBefore (core : Nat) : Nat

/-- The bytes of one HBM stack (R3): 80 GiB. -/
def stackBytes : Nat := 80 * 2 ^ 30

/-- The local HBM of the module (R3, R4): twelve stacks, 960 GiB. -/
def hbmBytes : Nat := 12 * stackBytes

/-- Bytes of a line in every cache, the scratchpad and the grade map (R6). -/
def lineBytes : Nat := 128

/-- Bytes of a home unit (R151). -/
def unitBytes : Nat := 65536

/-- The value of a register lane, scalar or MR that means "no meeting" (R60). -/
def noMeeting : Dword := 0xFFFFFFFFFFFFFFFF

end Sys2Proof.Config
end

