-- ==== Sys2Proof/Machine/State.lean ====
section
/-!
DEFINITION. The state of one LHX-9640 device, as plain data. Keyed tables are lists of (key, row) with keys
strictly rising; a table that lists nothing for a key stands for the row's reset value. INVENTORY.md lists
every field with the rule that names it.
-/
namespace Sys2Proof.Machine

/-- A keyed table: keys strictly rising. -/
abbrev Tbl (α : Type) := List (Nat × α)

/-- The 64 lanes of a vector value, lane 0 first. -/
abbrev Lanes := List Word

/-- Bytes by address: addresses strictly rising, and no listed byte equal to `Memory.blank` (R5). -/
abbrev Memory := List Host.Cell

/-- What an unlisted byte reads as: 0. The manual gives scratchpad bytes 0 at launch (R143) and gives HBM no
power-on contents (DESIGN CHOICE, log entry 1). -/
def Memory.blank : Byte := 0

/-- A grade (R265): 0 empty, 1 guess, 2 provisional, 3 final. -/
abbrev Grade := BitVec 2

/-- A vector register: 64 lanes and one format tag (R11, R22). -/
structure VReg where
  lanes : Lanes
  tag : Tag
  deriving DecidableEq, Repr

/-- A declared register at launch: zero in every lane, tag B32 (R13, R24). -/
def VReg.zero : VReg := { lanes := List.replicate 64 0, tag := .b32 }

/-- One entry of a queue window, reserved or complete, with the `qput` that fills it (R224, R227). -/
structure QEntry where
  full : Bool
  lanes : Lanes
  tag : Tag
  fmt : MFmt
  sp : Bool
  base : Dword
  stride : Dword
  deriving DecidableEq, Repr

/-- A cluster (R61): its lanes, its age (R64), where it resumes inside a clause (R37): 0 at a header, k + 1 at word k, so
that the header stands 8 × `res` bytes before its PC, and whether that word has taken part of its effect (R342). -/
structure Cluster where
  lanes : Dword
  age : Nat
  res : Nat
  part : Bool := false
  deriving DecidableEq, Repr

/-- The clause a group has open: header address, header word, index of its next instruction word, the bypass
latches shifted since it started or resumed (y0 first, R44), and the timebase captured by $clocklo (R20). -/
structure Clause where
  hdr : Dword
  head : Dword
  idx : Nat
  latches : List Lanes
  cap : Option Dword
  deriving DecidableEq, Repr

/-- A fault as it is delivered (R342, R343): code, FINFO, lowest faulting lane (64 for none), FADDR, and for a
boundary fault the word and header at which it is taken. -/
structure Flt where
  code : BitVec 8
  info : BitVec 8
  lane : Nat
  addr : Dword
  deriving DecidableEq, Repr

/-- What an outstanding long-latency instruction does when it is performed (R166, R290). -/
inductive AccOp where
  | load (d : Dst) | loadConst (d : Dst) | loadWait (d : Dst)
  | store
  | atom (op : AtomOp) (pl : Place) (d : Dst)
  | cas (d : Dst)
  | red (op : AtomOp) (pl : Place)
  | cred
  | sload (d : Dst) | sstore
  | flushr | invr | rrec
  | tspawn (d : BitVec 8) | tsig
  | grange (d : BitVec 8) | grel (d : BitVec 8)
  | promote (gr : Grade) | retract
  | gstat (d : BitVec 8)
  | qpush (d : BitVec 8) | qpop (d st : BitVec 8) | qpopw (d : BitVec 8)
  | launch (d : BitVec 8)
  | ffence | fdrain
  deriving DecidableEq, Repr

/-- How an outstanding instruction stands: it is on its way; parking abandoned it and a restore issues it again once its page
is there (R330, R333); or a job switch kept it, and it is not issued again (R372). -/
inductive AccSt where
  | flying | abandoned | kept
  deriving DecidableEq, Repr

/-- An outstanding long-latency instruction (R39, R341): how it stands, its token, its active lanes and those done, each lane's
location and virtual address, its data, its memory fields, the lanes that found no free entry for a subscription and wait for
final (R269), the loaded registers that have still to land, register i of lane L under 4 L + i (R40), the threads of lanes that
`reorder` has moved since, 128 × group + lane (R131, R132), and the word and header that hold it. -/
structure Acc where
  id : Nat
  st : AccSt
  op : AccOp
  tok : BitVec 4
  act : Dword
  done : Dword
  addr : List Nat
  va : List Dword
  data : List Qword
  data2 : List Qword
  fmt : MFmt
  ord : Ord
  scope : Scope
  evict : BitVec 3
  grade : Grade
  finalOnly : Dword
  got : Tbl Word
  who : Tbl Nat
  nw : Bool
  pc : Dword
  hdr : Dword
  waiting : Bool
  deriving DecidableEq, Repr

/-- A fault whose trap handler's page is missing, kept until entry is made (R343): the fault, its saved PC and its header. -/
structure TrapPend where
  flt : Flt
  pc : Dword
  hdr : Dword
  deriving DecidableEq, Repr

/-- The states of an access slice (R226). -/
inductive SliceSt where
  | none | running | paused | ended
  deriving DecidableEq, Repr

/-- An access slice (R222, R227): its PC, fault code, x registers, loop stack of (count, head), open clause, whether its word
holds it there, and the depth of an `xloop` body it is passing over (R223). -/
structure Slice where
  st : SliceSt
  faulted : Bool
  fcode : BitVec 8
  held : Bool
  pc : Dword
  xs : Tbl Dword
  loops : List (Dword × Dword)
  clause : Option Clause
  skip : Nat
  deriving DecidableEq, Repr

def Slice.absent : Slice :=
  { st := .none, faulted := false, fcode := 0, held := false, pc := 0, xs := [], loops := [], clause := none, skip := 0 }

/-- A group's arrival at the `reorder` meeting (R131): the instruction's address, the clause after it, the
live mask, the `.s` bit, each thread's key, and the windows its source named, which it pops with the move (R27, R42). -/
structure Arrival where
  pc : Dword
  hdr : Dword
  next : Dword
  mask : Dword
  sg : Bool
  keys : Lanes
  pops : List Nat
  deriving DecidableEq, Repr

/-- What a held instruction waits for where its operands decide that (R328): a row of R328's table, counted from 0; room for some
entries in its task's list (R276); or lines of scratchpads that are absent, each a block and a line (R146). -/
inductive HeldFor where
  | row (r : Nat)
  | room (entries : Nat)
  | lines (ls : List (Nat × Nat))
  deriving DecidableEq, Repr

/-- A group of 64 threads (R10, R11, R60, R341). `lease` is the lease in force, `leaseNext` the declared one (R180, R322).
`fenced`: the threads that have passed a wide acquire fence, which read at the home from then on (R189).
`heads`: pops and drops of each queue window so far, which give its head (R341). -/
structure Group where
  blk : Nat
  idx : Nat
  slot : Nat
  pcs : List Dword
  mrs : List Dword
  exited : Dword
  cur : Option Cluster
  pend : List Cluster
  sregs : Tbl Word
  vregs : Tbl VReg
  queues : Tbl (List QEntry)
  heads : Tbl Nat
  tokens : Tbl Nat
  rngK : Dword
  rngC : Dword
  clause : Option Clause
  heldAt : Bool
  heldRow : Option HeldFor
  resumed : Bool
  partDone : Bool
  fcode : BitVec 8
  finfo : BitVec 8
  flane : BitVec 8
  faddr : Dword
  fpc : Dword
  fhdr : Dword
  fpcEntry : Dword
  fpart : Bool
  inh : Bool
  bfault : Option Flt
  trapPend : Option TrapPend
  lease : Nat
  leaseNext : Nat
  admitted : Bool
  skipped : Nat
  hits : Nat
  misses : Nat
  touched : List Nat
  passedSince : Bool
  brec : Tbl Nat
  out : List Acc
  nextAcc : Nat
  reo : Option Arrival
  xreq : Bool
  slice : Slice
  lockSaved : Bool
  orfReady : Bool
  fenced : Dword
  retired : Bool
  deriving DecidableEq, Repr

/-- A group before its launch sets it up. -/
def Group.empty : Group :=
  { blk := 0, idx := 0, slot := 0, pcs := [], mrs := [], exited := 0, cur := none, pend := [], sregs := [],
    vregs := [], queues := [], heads := [], tokens := [], rngK := 0, rngC := 0, clause := none, heldAt := false, heldRow := none, resumed := false,
    partDone := false, fcode := 0, finfo := 0, flane := 0, faddr := 0, fpc := 0, fhdr := 0, fpcEntry := 0, fpart := false,
    inh := false, bfault := none, trapPend := none, lease := 0, leaseNext := 0,
    admitted := false, skipped := 0, hits := 0, misses := 0, touched := [],
    passedSince := false, brec := [], out := [], nextAcc := 0, reo := none, xreq := false,
    slice := Slice.absent, lockSaved := false, orfReady := false, fenced := 0, retired := false }

/-- A launch record (R308), field by field. -/
structure LRec where
  entry : Dword
  slice : Dword
  args : Dword
  trap : Dword
  caddr : Dword
  cvalue : Word
  gridx : Nat
  gridy : Nat
  gridz : Nat
  groups : Nat
  stook : Nat
  regs : Nat
  scalars : Nat
  qn : Nat
  qdepth : Nat
  carve : Nat
  menus : Nat
  carven : Nat
  lease : Nat
  meas : Bool
  ext : Bool
  thr : Bool
  prio : Nat
  rsvLow : Nat
  deps : List (Dword × Word)
  csize : Nat
  stksz : Nat
  stkbase : Dword
  glist : Dword
  gcount : Nat
  rsvHigh : Nat
  deriving DecidableEq, Repr

/-- The record ubas emits for a kernel that declares nothing but 8 registers and has no code placed (R308,
R392). -/
def LRec.plain : LRec :=
  { entry := 0, slice := 0, args := 0, trap := 0, caddr := 0, cvalue := 0, gridx := 1, gridy := 1, gridz := 1,
    groups := 1, stook := 1, regs := 8, scalars := 32, qn := 0, qdepth := 0, carve := 0, menus := 0, carven := 0,
    lease := 0, meas := false, ext := false, thr := false, prio := 0, rsvLow := 0, deps := [], csize := 16,
    stksz := 0, stkbase := 0, glist := 0, gcount := 0, rsvHigh := 0 }

/-- A barrier (R192): count of the open phase, arrivals, parity. -/
structure Bar where
  n : Nat
  a : Nat
  p : Bool
  deriving DecidableEq, Repr

def Bar.zero : Bar := { n := 0, a := 0, p := false }

/-- A request to park a stook (R330, R332): the reason and timer of its frames, and 5 or 6 when a job switch or a die reset
holds them. -/
structure ParkReq where
  reason : Nat
  timer : Nat
  hold : Nat
  deriving DecidableEq, Repr

/-- The context frame of a parked block (R330 to R340): its address and size, reason, unanswered fault
entries, park timer, awaited kinds, and where it stands in the relaunch; `hold`: 5 or 6 while a job switch or a die reset holds
it (R331), else 0. -/
structure Frame where
  addr : Nat
  size : Nat
  reason : Nat
  pend : Nat
  timer : Nat
  wake : BitVec 16
  ready : Bool
  behind : Bool
  hold : Nat
  passed : Nat
  deriving DecidableEq, Repr

/-- How a page fault meets its group (R334): the group halts at an instruction or a header it is to execute (`own`), or at
the entry to its trap handler (`trap`, R343), an abandoned instruction meets it when it is issued again (`again`, R333), or the
fault is a copy's, a slice's or a stream's (`other`). -/
inductive Halt where
  | own | trap | again | other
  deriving DecidableEq, Repr

/-- What cancelled fault entries leave for a restore: the group, and the fault it then takes (R335); `trap`: the page was
its trap handler's; `acc`: the abandoned instruction whose page it was, 0 for none. -/
structure Cancelled where
  gid : Nat
  acc : Nat
  addr : Dword
  lane : Nat
  trap : Bool
  deriving DecidableEq, Repr

/-- A code set of the Thresher (R231): sixteen BF16 values and a valid count. -/
structure CodeSet where
  vals : List (BitVec 16)
  count : Nat
  deriving DecidableEq, Repr

/-- A code set after a reservation ends: sixteen +0 values, valid count 0 (R230). -/
def CodeSet.zero : CodeSet := { vals := List.replicate 16 0, count := 0 }

/-- A set record (R237). -/
structure SetRec where
  valid : Bool
  e : Int
  inf : Bool
  cset : Nat
  d8 : Bool
  lg : Nat
  lm : Nat
  slot : Nat
  len : Nat
  base : Nat
  deriving DecidableEq, Repr

/-- Sequencer states (R231). -/
inductive SeqSt where
  | idle | running | waiting | ended | faulted
  deriving DecidableEq, Repr

/-- The Thresher of a core (R229 to R237): the holding block, the sequencer, the accumulator tiles (key
4096 × tile + 256 × row + column), code sets, set records by base slot, and table slots. -/
structure Thresher where
  holder : Option Nat
  pc : Dword
  st : SeqSt
  ks : Tbl Word
  clause : Option Clause
  brec : Tbl Nat
  fcode : BitVec 8
  fpc : Dword
  tiles : Tbl Word
  csets : Tbl CodeSet
  sets : Tbl SetRec
  slots : Tbl (List Word)
  deriving DecidableEq, Repr

/-- A Thresher that no block has reserved, as R230 leaves it. -/
def Thresher.free : Thresher :=
  { holder := none, pc := 0, st := .idle, ks := [], clause := none, brec := [], fcode := 0, fpc := 0, tiles := [],
    csets := [], sets := [], slots := [] }

/-- What stands after a change of a scratchpad in happens-before (R188, R194, R242), besides the group of its thread. A barrier is
its block, or from 16 on its stook, and its number.
- `group`: a group;
- `phase`: an open phase of a barrier, for the groups that meet there, and `due` a group whose completion of it is still to be taken;
- `stream`: an open phase, for the sequencer, if it is not `barred` by an arrival of the changing group that was not operand-ready;
  `streamDue`: a phase whose completion the sequencer has still to take. -/
inductive After where
  | group (gid : Nat)
  | phase (bar : Nat × Nat)
  | due (gid : Nat) (bar : Nat × Nat)
  | stream (bar : Nat × Nat)
  | barred (bar : Nat × Nat)
  | streamDue (bar : Nat × Nat)
  deriving DecidableEq, Repr

/-- A byte of a scratchpad that an `sts` changed and the sequencer may still read as it was (R242): the number in its block of the
change, which the bytes that one access changes in one 4-byte word share, the thread (its group and lane, R361), the offset, the
old byte, and what is ordered after it. -/
structure Late where
  no : Nat
  who : Nat
  off : Nat
  was : Byte
  known : List After
  deriving DecidableEq, Repr

/-- A block (R10): its grid, place, launch record, the frame reserved for it (R339), barriers b0–b15, scratchpad with the
lines that are absent (each with the copy whose data sets it present, R146), the clk count of its core when it was placed
(R324), its frame when parked, whether its run is being stopped (R279), the changes of its scratchpad that the sequencer
may not see yet, oldest first, with the number of the next (R242), and whether it has retired with accesses still to be
performed (R77, R320). -/
structure Block where
  grid : Nat
  job : Nat
  core : Nat
  resident : Bool
  frame : Option Frame
  fAddr : Nat
  fSize : Nat
  stook : Nat
  sidx : Nat
  bx : Nat
  by' : Nat
  bz : Nat
  lin : Nat
  record : LRec
  bars : Tbl Bar
  scratch : Memory
  absent : Tbl Nat
  task : Nat
  depth : Nat
  age : Nat
  since : Nat
  wdog : Nat
  gids : List Nat
  slots : List Nat
  thrSave : Option Thresher
  extSave : Tbl (Tbl VReg)
  cancelled : List Cancelled
  parkReq : Option ParkReq
  stop : Bool
  late : List Late
  lateNo : Nat
  gone : Bool
  deriving DecidableEq, Repr

def Block.empty : Block :=
  { grid := 0, job := 0, core := 0, resident := false, frame := none, fAddr := 0, fSize := 0, stook := 0, sidx := 0, bx := 0, by' := 0,
    bz := 0, lin := 0, record := LRec.plain, bars := [], scratch := [], absent := [], task := 0, depth := 0,
    age := 0, since := 0, wdog := 0, gids := [], slots := [], thrSave := none, extSave := [], cancelled := [],
    parkReq := none, stop := false, late := [], lateNo := 0, gone := false }

/-- A stook (R10): its member blocks, barriers b16–b23, and the time its parking clock has run (R328). -/
structure Stook where
  members : List Nat
  bars : Tbl Bar
  clock : Nat
  deriving DecidableEq, Repr

def Stook.empty : Stook := { members := [], bars := [], clock := 0 }

/-- A grid, or the body of a task (R10, R313, R320). `found`: its dependences that a reading has found met (R314). -/
structure Grid where
  job : Nat
  record : LRec
  recVa : Dword
  queue : Nat
  ring : Nat
  age : Nat
  next : Nat
  depth : Nat
  parent : Option Nat
  handle : Nat
  task : Nat
  isTask : Bool
  status : Nat
  ended : Bool
  done : Bool
  cont : Nat
  declared : Bool
  met : Bool
  found : List Nat
  passed : Nat
  deriving DecidableEq, Repr

def Grid.empty : Grid :=
  { job := 0, record := LRec.plain, recVa := 0, queue := 0, ring := 0, age := 0, next := 0, depth := 0, parent := none,
    handle := 0, task := 0, isTask := false, status := 0, ended := false, done := false, cont := 0,
    declared := false, met := false, found := [], passed := 0 }

/-- What a page-table entry names (R136): local HBM, host memory, or a chip of the job. -/
inductive PageDst where
  | hbm (pa : Nat)
  | host (ha : Nat)
  | chip (c : Nat)
  deriving DecidableEq, Repr

/-- A page-table entry (R136, R137): job, virtual base and size, what it names, and the accesses it permits. -/
structure Pte where
  job : Nat
  va : Nat
  size : Nat
  dst : PageDst
  r : Bool
  w : Bool
  x : Bool
  deriving DecidableEq, Repr

/-- An L1 line (R147, R156, R157): its words, the valid and registered bits, its eviction priority, when it was
last used, the group slot that filled it and the group whose lease it counts against. -/
structure L1Line where
  words : List Word
  valid : BitVec 32
  reg : BitVec 32
  prio : Nat
  used : Nat
  slot : Nat
  counts : Option Nat
  deriving DecidableEq, Repr

/-- The extension set of a slot pair (R16, R134). -/
structure ExtPair where
  regs : Tbl VReg
  holder : Option Nat
  blk : Nat
  deriving DecidableEq, Repr

def ExtPair.zero : ExtPair := { regs := [], holder := none, blk := 0 }

/-- An entry of the record cache (R216): the 64 bytes, and whether the record may be used. -/
structure RecEntry where
  job : Nat
  va : Nat
  bits : BitVec 512
  ok : Bool
  deriving DecidableEq, Repr

/-- An open entry of the write-combining buffer (R356): its key, bytes, ordered flag, the threads whose stores it holds, as a
packet names them, and when it opened. -/
structure WcbEntry where
  job : Nat
  chip : Nat
  line : Nat
  bytes : Memory
  ordered : Bool
  threads : List Nat
  opened : Nat
  deriving DecidableEq, Repr

/-- A core: its L1 and the copies `ldc` keeps (R147, R169), contention predictor (R174), victim tags (R323), issue slots
(R325), extension sets, Thresher, record cache, write-combining buffer, TLBs (R137, R220), instruction cache (R353), clk count
lost to derating, in thousandths (R350), groups admitted in order, lease windows begun, checks made in this one and its victim
hits and misses (R324), and Almanac plan (R388). -/
structure Core where
  l1 : Tbl L1Line
  ldc : Tbl (List Word)
  useCount : Nat
  pred : Tbl Nat
  victims : List (Nat × Nat)
  serving : Tbl Nat
  served : Tbl Nat
  serveCount : Nat
  ext : Tbl ExtPair
  thr : Thresher
  rcache : List RecEntry
  wcb : List WcbEntry
  tlb : List Pte
  walkTlb : List Pte
  icache : Tbl Dword
  clkLost : Nat
  admitted : List Nat
  windows : Nat
  checks : Nat
  winHits : Nat
  winMisses : Nat
  sliceTurn : Nat
  voff : Nat
  derate : Nat
  voffNext : Nat
  derateNext : Nat
  deriving DecidableEq, Repr

def Core.zero : Core :=
  { l1 := [], ldc := [], useCount := 0, pred := [], victims := [], serving := [], served := [], serveCount := 0,
    ext := [], thr := Thresher.free, rcache := [], wcb := [], tlb := [], walkTlb := [], icache := [], clkLost := 0,
    admitted := [], windows := 0, checks := 0, winHits := 0, winMisses := 0, sliceTurn := 0, voff := 0, derate := 0, voffNext := 0, derateNext := 0 }

/-- A fault-queue entry (R334) with the block and group it came from, the copy or abandoned instruction that faulted (0 for
none), and how it meets its group. -/
structure FqEntry where
  frame : Nat
  va : Dword
  pc : Dword
  job : Nat
  code : BitVec 8
  kind : BitVec 4
  core : Nat
  slot : Nat
  blk : Nat
  gid : Nat
  lane : Nat
  copy : Nat
  halt : Halt
  deriving DecidableEq, Repr

/-- A die: its fault queue (R334, R346) and frame pool (R339, R348). -/
structure Die where
  fqBase : Dword
  fqHead : Nat
  fqTail : Nat
  fq : Tbl FqEntry
  fqWait : List FqEntry
  fpBase : Dword
  fpSize : Nat
  deriving DecidableEq, Repr

def Die.zero : Die :=
  { fqBase := 0, fqHead := 0, fqTail := 0, fq := [], fqWait := [], fpBase := 0, fpSize := 0 }

/-- A record of the sweep store (R371). -/
structure SweepRec where
  seq : Nat
  late : Bool
  pkt : Packet
  deriving DecidableEq, Repr

/-- Where a job stands in a switch (R370 to R373). -/
inductive SwitchSt where
  | running | halted | out
  deriving DecidableEq, Repr

/-- A task, by job and record address. -/
structure TaskId where
  job : Nat
  rec' : Nat
  deriving DecidableEq, Repr

/-- A line's last writer (R272): a task of this device, or of another chip. -/
structure Writer where
  chip : Option Nat
  task : TaskId
  deriving DecidableEq, Repr

/-- A subscription (R269): a line, a task (of another chip when `chip` names one), the grade read. -/
structure Sub where
  line : Nat
  task : TaskId
  grade : Grade
  chip : Option Nat
  deriving DecidableEq, Repr

/-- An entry of a Binder queue: its 16 bytes, its acceptance stamp (R313) and the job that pushed it. -/
structure BItem where
  bits : Qword
  stamp : Nat
  job : Nat
  deriving DecidableEq, Repr

/-- A job (R354, R370 to R377, R383); `ready`: the run entries saved while it is switched out, with their queues, `subs` and
`writers` its entries of the subscription tables (R289); `ending`: it is to be discarded once its grids have ended (R177). -/
structure Job where
  spec : JobSpec
  sw : SwitchSt
  outStamp : Option Nat
  inStamp : Option Nat
  sealedRecs : List SweepRec
  overflow : List SweepRec
  seq : Nat
  swBase : Nat
  swSize : Nat
  lateLast : Nat
  lateDropped : Nat
  dropPending : Bool
  switchIns : Nat
  ready : List (Nat × BItem)
  subs : List Sub
  writers : Tbl Writer
  ending : Bool
  deriving DecidableEq, Repr

/-- A launch queue ring (R382). -/
structure LQueue where
  base : Nat
  size : Nat
  job : Word
  head : Nat
  tail : Nat
  deriving DecidableEq, Repr

/-- A launch queue that no job owns: LQJOB closed (R382). -/
def LQueue.closed : LQueue := { base := 0, size := 2, job := 0xFFFFFFFF, head := 0, tail := 0 }

/-- A Binder queue (R288, R348): ring address, capacity, entries oldest first. -/
structure BQueue where
  base : Dword
  cap : Nat
  items : List BItem
  deriving DecidableEq, Repr

def BQueue.absent : BQueue := { base := 0, cap := 0, items := [] }

/-- A task instance the Binder has spawned (R293): its continuation as spawned (R296), whether that continuation
has been spawned, whether its parent still counts it (R285), for a handler the two words its body receives
in s0 and s1 (R286), and the successors it signalled when its full output list took no more entries (R276, R284). -/
structure TaskRow where
  id : TaskId
  counted : Bool
  cont0 : Dword
  contDone : Bool
  words : Option (Word × Word)
  signals : List Nat
  deriving DecidableEq, Repr

/-- A fault that waits for its handler (R286): the handler's record, the task that faulted, the code, and whether the task's run is
over and undone. -/
structure FaultWait where
  handler : TaskId
  task : TaskId
  code : BitVec 8
  ready : Bool
  deriving DecidableEq, Repr

/-- Work the Binder and the Reeve still have to do inside one event. -/
inductive Todo where
  /-- A line's grade has risen: move its subscribers' counts (R275). -/
  | raised (line : Nat)
  /-- Apply R274 to a task that may be complete. -/
  | settle (t : TaskId)
  /-- Re-fire a task (R278). -/
  | refire (t : TaskId)
  /-- Steps 4 to 6 of R278, once the run has stopped. -/
  | refireEnd (t : TaskId)
  /-- Step 7 of R278: the task is ready. -/
  | refireReady (t : TaskId)
  /-- Retract a line (R277). -/
  | retract (line : Nat)
  /-- A task faults (R286). -/
  | fault (t : TaskId) (code : BitVec 8)
  /-- The rest of R286 once the run has stopped. -/
  | faultEnd (t : TaskId) (code : BitVec 8)
  /-- The task whose fault waits for a handler has ended its run, and those below it theirs (R286). -/
  | handler (h t : TaskId) (code : BitVec 8)
  /-- Cancel a task and what descends from it (R297). -/
  | cancel (t : TaskId)
  /-- The rest of R297 once the run has stopped. -/
  | cancelEnd (t : TaskId)
  /-- Perform an instruction a stopped run had issued (R278 step 3). -/
  | perform (gid acc : Nat)
  /-- End a block's residence and state. -/
  | freeBlock (b : Nat)
  /-- A grid ends with a status (R320, R344). -/
  | endGrid (g : Nat) (status : Nat)
  /-- Write a completion once the grid's blocks are gone. -/
  | gridOver (g : Nat)
  /-- Spawn a task: as `tspawn` (R293), with a parent address, whether its join field is ignored, and a handler's
  words. -/
  | spawn (t : TaskId) (parent : Dword) (go : Bool) (words : Option (Word × Word))
  /-- A child task has completed, faulted or been cancelled (R285). -/
  | childDone (t : TaskId)
  /-- A handler instance has become ripe or been cancelled: its next waiting fault (R286). -/
  | handlerFree (t : TaskId)
  /-- A grade notice to another chip (R369). -/
  | notice (chip : Nat) (t : TaskId) (line : Nat) (refire : Bool) (g : Grade)
  deriving DecidableEq, Repr

/-- A run that the Binder stops (R278 step 2, R279, R297): its blocks, each group of which still halts at a clause boundary or a
suspension point, and what then follows, once the tasks of `kids` that are being cancelled are (R278 step 6). -/
structure Stop where
  blks : List Nat
  kids : List TaskId
  next : List Todo
  deriving DecidableEq, Repr

/-- A graded store that has reached its line's home and waits its turn in coherence order (R273). -/
structure GStore where
  gid : Nat
  acc : Nat
  task : TaskId
  line : Nat
  va : Dword
  bytes : Memory
  stated : Grade
  deriving DecidableEq, Repr

/-- A graded range (R266). -/
structure GRange where
  job : Nat
  va : Nat
  lines : Nat
  deriving DecidableEq, Repr

/-- A home unit that moves (R153): the die it moves to, and the lines that die already holds. -/
structure Move where
  dst : Nat
  held : List Nat
  deriving DecidableEq, Repr

/-- A commutative range (R154, R175). -/
structure CRange where
  job : Nat
  va : Nat
  len : Nat
  op : AtomOp
  fmt : MFmt
  deriving DecidableEq, Repr

/-- A tensor record (R213), decoded. -/
structure TRec where
  pad : Word
  e0 : Bool
  swz : Nat
  tag : Nat
  rank : Nat
  tiles : List Nat
  sizes : List Nat
  strides : List Nat
  base : Dword
  deriving DecidableEq, Repr

/-- A bulk copy in flight (R217, R221): direction, group, whether its slice issued it, record, origin, target
block and scratchpad offset, token, the scratchpad lines still to move, and the instruction's address. -/
structure Copy where
  id : Nat
  out : Bool
  gid : Nat
  slice : Bool
  record : TRec
  org : List Int
  blk : Nat
  off : Nat
  tok : BitVec 4
  lines : List Nat
  pc : Dword
  waiting : Bool
  deriving DecidableEq, Repr

/-- The Haywain port (R360 to R368): packets injected and not yet performed, packets that have arrived, packets injected so
far, the route colour in use, whether the old colour is being retired and whether a further table update waits for that, link
buffers, counters, and the sharer directory: for each 64 KiB unit, bit i for chips 32 i to 32 i + 31 that may hold copies. -/
structure Fabric where
  outward : List Packet
  inward : List Packet
  colour : Bool
  retiring : Bool
  updateDue : Bool
  sent : Nat
  sharers : Tbl Dword
  links : Tbl Nat
  wcbAge : Nat
  dropCnt : Nat
  probeCnt : Nat
  deriving DecidableEq, Repr

/-- An identity statement (R384): serial number, measurement and key version of each running image, each job's map of chips to
tenant partitions, and the host's nonce, with the signatures of the two schemes. -/
structure Statement where
  serial : BitVec 64
  measures : List (BitVec 384)
  keyVersions : List Nat
  partitions : List (Nat × List Nat)
  nonce : BitVec 256
  rsa : BitVec 3072
  slh : BitVec 129792
  deriving DecidableEq, Repr

/-- Root firmware's own state (R383, R384, R389): whether it runs or the device is in recovery, the
measurements of the running images, fuse counters, its refusal log, the last identity statement and the
power limits in force. -/
structure Root where
  booted : Bool
  recovery : Bool
  rootImg : Option FwImage
  fieldImg : Option FwImage
  fuses : Nat
  refusals : Nat
  statement : Option Statement
  spaceTmac : Bool
  spaceLane : Bool
  deriving DecidableEq, Repr

def Root.off : Root :=
  { booted := false, recovery := true, rootImg := none, fieldImg := none, fuses := 0, refusals := 0,
    statement := none, spaceTmac := false, spaceLane := false }

/-- Which context issues the instruction being executed (R38). -/
inductive Issuer where
  | lane (gid : Nat)
  | slice (gid : Nat)
  | stream (core : Nat)
  deriving DecidableEq, Repr

/-- A die warm reset under way (R386): the die, the last step taken, the homes of units before its step 3, and the requests that
other dies had sent it before its step 2: instructions and copies by group and number, `qput` entries by group and window. -/
structure DieReset where
  die : Nat
  step : Nat
  homes : Tbl Nat
  sent : List (Nat × Nat)
  sentQ : List (Nat × Nat)
  deriving DecidableEq, Repr

/-- Who moves next: an issue slot, a slice or a sequencer issues one word; a group that an instruction holds tries it again;
an event of the opcode table takes place; time passes; or an outside party acts (a page-table edit, a store by the host or a
peer, a packet on the wire, a cache line given up, lines of a home unit that moves handed over, a probe for a unit of a peer,
a fuse that root firmware blows to revoke older images). -/
inductive Action where
  | word (core slot : Nat)
  | resume (gid : Nat)
  | sliceWord (gid : Nat)
  | streamWord (core : Nat)
  | event (e : Instr)
  | tick (ns : Nat)
  | mapPage (p : Pte)
  | unmapPage (job va : Nat)
  | hostStore (addr : Nat) (b : Byte)
  | peerStore (job chip addr : Nat) (b : Byte)
  | arrive (p : Packet)
  | evict (core line : Nat)
  | writeBack (line : Nat)
  | dropCode (core : Nat) (pa : Nat)
  | dropTlb (core : Nat) (va : Nat)
  | peerRange (r : GRange)
  | peerGrade (job chip line : Nat) (g : Grade)
  | handOver (unit n : Nat)
  | peerRelease (job va : Nat)
  | probe (job chip unit : Nat)
  | revoke
  deriving DecidableEq, Repr

/-- The device. -/
structure State where
  issuer : Issuer
  schedule : List Action
  time : Nat
  resetAt : Nat
  mem : Memory
  hbmOld : Tbl Byte
  groups : Tbl Group
  blocks : Tbl Block
  stooks : Tbl Stook
  grids : Tbl Grid
  cores : Tbl Core
  dies : Tbl Die
  jobs : Tbl Job
  ptes : List Pte
  lqueues : Tbl LQueue
  waiting : Tbl (List Nat)
  bqueues : Tbl BQueue
  runqs : List Nat
  taskPassed : Tbl Nat
  subs : List Sub
  lastWriter : Tbl Writer
  gstores : List GStore
  grades : Tbl Grade
  granges : List GRange
  cranges : List CRange
  partials : Tbl (Tbl Word)
  spilled : List (Nat × Nat)
  copies : List Copy
  homes : Tbl Nat
  epoch : Tbl (Tbl (List Nat))
  epochAt : Nat
  moves : Tbl Move
  handlerWait : List FaultWait
  stops : List Stop
  todoHeld : List Todo
  tasks : List TaskRow
  remoteSubs : List (TaskId × Nat × Grade)
  fabric : Fabric
  root : Root
  dieReset : Option DieReset
  resets : List (Nat × Nat)
  poison : List Nat
  cxlData : List Byte
  parkth : Word
  admitReg : Word
  wdog : Word
  migr : Word
  qsel : Word
  fpsel : Word
  almsel : Word
  nextId : Nat
  nextAge : Nat
  nextHandle : Nat
  freeCount : Nat
  deriving DecidableEq, Repr

/-- Reasons a step can stop for good. The device's own faults are architectural: they enter a trap handler,
park a block, fail a task or fail a grid, and the device goes on. -/
inductive Fault where
  /-- A CXL.mem access of the host outside the module's HBM, which R381 exposes; HOST_CXL_READ and
  HOST_CXL_WRITE raise it. Safe: no such address exists (R3, R4). -/
  | cxlOutsideHbm (addr : Nat)
  deriving DecidableEq, Repr

/-- Reasons the model gives no meaning. -/
inductive Refusal where
  /-- An instruction whose meaning is not written yet. Safe. No arm of `exec` answers it. -/
  | notModelled (mnemonic : String)
  deriving DecidableEq, Repr

/-- The device right after reset: clk counts from zero (R350), nothing placed, no job, every queue closed, the
system registers at the values R329 and R321 state; the values the manual does not state are named in log
entries 1, 2 and 17. -/
def State.reset : State :=
  { issuer := .lane 0, schedule := [], time := 0, resetAt := 0, mem := [], hbmOld := [], groups := [], blocks := [], stooks := [],
    grids := [], cores := [], dies := [], jobs := [], ptes := [], lqueues := [], waiting := [], bqueues := [], runqs := [],
    taskPassed := [], subs := [], lastWriter := [], gstores := [], grades := [], granges := [], cranges := [],
    partials := [], spilled := [], copies := [], homes := [], epoch := [], epochAt := 0, moves := [], handlerWait := [],
    stops := [], todoHeld := [], tasks := [], remoteSubs := [],
    fabric := { outward := [], inward := [], colour := false, retiring := false, updateDue := false, sent := 0, sharers := [],
                links := [], wcbAge := 8, dropCnt := 0, probeCnt := 0 },
    root := Root.off, dieReset := none, resets := [], poison := [], cxlData := [], parkth := 20, admitReg := 12, wdog := 0, migr := 0,
    qsel := 0, fpsel := 0, almsel := 0, nextId := 1, nextAge := 0, nextHandle := 1, freeCount := 0 }

end Sys2Proof.Machine
end

