-- ==== Sys2Proof/Machine/Table.lean ====
section
/-!
DEFINITION. Keyed tables and byte memory: find, put and remove a key; read and write bytes and little-endian
values (R5). Lanes of a vector (R11) and lane masks (R12).
-/
namespace Sys2Proof.Machine

/-- The row of key `k`, if listed. -/
def Tbl.find {α : Type} : Tbl α → Nat → Option α
  | [], _ => none
  | (j, v) :: t, k => if j = k then some v else Tbl.find t k

/-- List `v` under `k`, in place of what was listed there; keys stay in rising order. -/
def Tbl.put {α : Type} : Tbl α → Nat → α → Tbl α
  | [], k, v => [(k, v)]
  | (j, w) :: t, k, v =>
    if k < j then (k, v) :: (j, w) :: t
    else if k = j then (k, v) :: t
    else (j, w) :: Tbl.put t k v

/-- List nothing under `k`. -/
def Tbl.del {α : Type} : Tbl α → Nat → Tbl α
  | [], _ => []
  | (j, w) :: t, k => if j = k then Tbl.del t k else (j, w) :: Tbl.del t k

/-- Keys strictly rising, all above `lo` (none: no lower bound). -/
def Tbl.risingFrom {α : Type} : Option Nat → Tbl α → Bool
  | _, [] => true
  | none, (j, _) :: t => Tbl.risingFrom (some j) t
  | some lo, (j, _) :: t => decide (lo < j) && Tbl.risingFrom (some j) t

/-- Keys strictly rising. -/
def Tbl.rising {α : Type} (t : Tbl α) : Bool := Tbl.risingFrom none t

/-- The canonical form of a memory: addresses strictly rising, no byte equal to `Memory.blank`. -/
def Memory.wf (m : Memory) : Bool := Tbl.rising m && m.all fun c => c.2 != Memory.blank

/-- One byte of memory. -/
def Memory.byte (m : Memory) (a : Nat) : Byte := (Tbl.find m a).getD Memory.blank

/-- Write one byte, keeping the canonical form. -/
def Memory.setByte (m : Memory) (a : Nat) (b : Byte) : Memory :=
  if b = Memory.blank then Tbl.del m a else Tbl.put m a b

/-- `n` bytes from address `a`, little-endian (R5). -/
def Memory.read (m : Memory) (a : Nat) : Nat → Nat
  | 0 => 0
  | n + 1 => (m.byte a).toNat + 256 * Memory.read m (a + 1) n

/-- Write the low `n` bytes of `v` from address `a`, little-endian (R5). -/
def Memory.write (m : Memory) (a : Nat) : Nat → Nat → Memory
  | 0, _ => m
  | n + 1, v => Memory.write (m.setByte a (BitVec.ofNat 8 v)) (a + 1) n (v / 256)

/-- Write a list of bytes from address `a`. -/
def Memory.writeList (m : Memory) (a : Nat) : List Byte → Memory
  | [] => m
  | b :: t => Memory.writeList (m.setByte a b) (a + 1) t

/-- Set `n` bytes from `a` to `b`. -/
def Memory.fill (m : Memory) (a : Nat) (b : Byte) : Nat → Memory
  | 0 => m
  | n + 1 => Memory.fill (m.setByte a b) (a + 1) b n

/-- Memory without the bytes of `[a, a + n)`. -/
def Memory.clear (m : Memory) (a n : Nat) : Memory := m.filter fun c => !(decide (a ≤ c.1) && decide (c.1 < a + n))

/-- Lane `L` of a vector value. -/
def Lanes.at (v : Lanes) (L : Nat) : Word := v.getD L 0

/-- The vector value that holds `f L` in lane `L`. -/
def Lanes.make (f : Nat → Word) : Lanes := (List.range 64).map f

/-- The same 32 bits in every lane. -/
def Lanes.splat (w : Word) : Lanes := List.replicate 64 w

/-- The lane mask of the lanes that satisfy `p`: bit L is lane L (R12). -/
def maskOf (p : Nat → Bool) : Dword :=
  BitVec.ofNat 64 ((List.range 64).foldl (fun m L => if p L then m + 2 ^ L else m) 0)

/-- Lane `L` is in the mask. -/
def inMask (m : Dword) (L : Nat) : Bool := m.getLsbD L

/-- The lanes of a mask in ascending order. -/
def lanesOf (m : Dword) : List Nat := (List.range 64).filter (inMask m)

/-- The lowest lane of a mask, 64 if it is empty. -/
def lowestLane (m : Dword) : Nat := (lanesOf m).headD 64

/-- The number of lanes in a mask. -/
def popcount (m : Dword) : Nat := (lanesOf m).length

/-- Merge by lane: `b` in the lanes of `m`, `a` elsewhere. -/
def Lanes.merge (m : Dword) (a b : Lanes) : Lanes := Lanes.make fun L => if inMask m L then b.at L else a.at L

/-- The 64-bit value of a low and a high word (R12). -/
def pairOf (lo hi : Word) : Dword := hi ++ lo

/-- The low word of a 64-bit value. -/
def lowWord (x : Dword) : Word := x.setWidth 32

/-- The high word of a 64-bit value. -/
def highWord (x : Dword) : Word := (x >>> 32).setWidth 32

/-- Put an element into a list sorted by a measure, after its equals. -/
def insertBy {α : Type} (f : α → Nat) (a : α) : List α → List α
  | [] => [a]
  | b :: t => if f a < f b then a :: b :: t else b :: insertBy f a t

def sortBy {α : Type} (f : α → Nat) (l : List α) : List α := l.foldl (fun t a => insertBy f a t) []

/-- Replace the `i`-th element, if there is one. -/
def setNth {α : Type} : List α → Nat → α → List α
  | [], _, _ => []
  | _ :: t, 0, b => b :: t
  | a :: t, n + 1, b => a :: setNth t n b

end Sys2Proof.Machine
end

