-- ==== Sys2Proof/Machine/Access.lean ====
section
/-!
DEFINITION. Reading and replacing the parts of a device by number (groups, blocks, cores, …); what a launch
record and a job give; address translation (R136, R137, R160); graded and commutative ranges; the L1 of a core
(R147 to R157); and writes performed at a line's home (R148, R183).
-/
namespace Sys2Proof.Machine

/-! ### Fault codes -/

/-- The faults of R342, by code. -/
def fIllegalClause : BitVec 8 := 0x01
def fIllegalInstr : BitVec 8 := 0x02
def fIllegalTarget : BitVec 8 := 0x03
def fLatch : BitVec 8 := 0x04
def fRegRange : BitVec 8 := 0x05
def fExtension : BitVec 8 := 0x06
def fTag : BitVec 8 := 0x07
def fAlign : BitVec 8 := 0x08
def fPageMissing : BitVec 8 := 0x09
def fPagePerm : BitVec 8 := 0x0A
def fScratch : BitVec 8 := 0x0B
def fBarrier : BitVec 8 := 0x0C
def fQueue : BitVec 8 := 0x0D
def fReorder : BitVec 8 := 0x0E
def fDepth : BitVec 8 := 0x0F
def fStale : BitVec 8 := 0x10
def fIndex : BitVec 8 := 0x11
def fThresher : BitVec 8 := 0x12
def fRecord : BitVec 8 := 0x13
def fCommutative : BitVec 8 := 0x14
def fAtomicGraded : BitVec 8 := 0x15
def fEgress : BitVec 8 := 0x16
def fLate : BitVec 8 := 0x18
def fPartition : BitVec 8 := 0x19
def fPageFatal : BitVec 8 := 0x1A
def fTrap : BitVec 8 := 0x1D
def fBreak : BitVec 8 := 0x1E

/-! ### Parts by number: a group, block, stook, grid or job that is gone is not changed -/

def State.grp (s : State) (g : Nat) : Group := (Tbl.find s.groups g).getD Group.empty
def State.setGrp (s : State) (g : Nat) (x : Group) : State := { s with groups := Tbl.put s.groups g x }
def State.modGrp (s : State) (g : Nat) (f : Group → Group) : State :=
  match Tbl.find s.groups g with
  | some x => s.setGrp g (f x)
  | none => s

def State.blk (s : State) (b : Nat) : Block := (Tbl.find s.blocks b).getD Block.empty
def State.setBlk (s : State) (b : Nat) (x : Block) : State := { s with blocks := Tbl.put s.blocks b x }
def State.modBlk (s : State) (b : Nat) (f : Block → Block) : State :=
  match Tbl.find s.blocks b with
  | some x => s.setBlk b (f x)
  | none => s

def State.stk (s : State) (b : Nat) : Stook := (Tbl.find s.stooks b).getD Stook.empty
def State.setStk (s : State) (b : Nat) (x : Stook) : State := { s with stooks := Tbl.put s.stooks b x }
def State.modStk (s : State) (b : Nat) (f : Stook → Stook) : State :=
  match Tbl.find s.stooks b with
  | some x => s.setStk b (f x)
  | none => s

def State.grid (s : State) (b : Nat) : Grid := (Tbl.find s.grids b).getD Grid.empty
def State.setGrid (s : State) (b : Nat) (x : Grid) : State := { s with grids := Tbl.put s.grids b x }
def State.modGrid (s : State) (b : Nat) (f : Grid → Grid) : State :=
  match Tbl.find s.grids b with
  | some x => s.setGrid b (f x)
  | none => s

def State.core (s : State) (c : Nat) : Core := (Tbl.find s.cores c).getD Core.zero
def State.setCore (s : State) (c : Nat) (x : Core) : State := { s with cores := Tbl.put s.cores c x }
def State.modCore (s : State) (c : Nat) (f : Core → Core) : State := s.setCore c (f (s.core c))

def State.die (s : State) (d : Nat) : Die := (Tbl.find s.dies d).getD Die.zero
def State.setDie (s : State) (d : Nat) (x : Die) : State := { s with dies := Tbl.put s.dies d x }
def State.modDie (s : State) (d : Nat) (f : Die → Die) : State := s.setDie d (f (s.die d))

/-- The job of a number, if root firmware has created it (R383). -/
def State.job? (s : State) (j : Nat) : Option Job := Tbl.find s.jobs j
def State.setJob (s : State) (j : Nat) (x : Job) : State := { s with jobs := Tbl.put s.jobs j x }
def State.modJob (s : State) (j : Nat) (f : Job → Job) : State :=
  match s.job? j with
  | some x => s.setJob j (f x)
  | none => s

/-- The job runs: it exists and is not switched out (R331). -/
def State.jobRuns (s : State) (job : Nat) : Bool :=
  match s.job? job with
  | some j => j.sw == .running
  | none => true

def State.lq (s : State) (q : Nat) : LQueue := (Tbl.find s.lqueues q).getD LQueue.closed
def State.setLq (s : State) (q : Nat) (x : LQueue) : State := { s with lqueues := Tbl.put s.lqueues q x }

def State.bq (s : State) (q : Nat) : BQueue := (Tbl.find s.bqueues q).getD BQueue.absent
def State.setBq (s : State) (q : Nat) (x : BQueue) : State := { s with bqueues := Tbl.put s.bqueues q x }

/-- A free yes or no (log entry 3): the manual leaves the choice to the device. -/
def State.free (s : State) : Bool := Config.freeBit s.freeCount
/-- The state after `n` free values are used. -/
def State.useFree (s : State) (n : Nat) : State := { s with freeCount := s.freeCount + n }

/-! ### What a block, a launch record and a job give -/

/-- The die of a global core number (R1). -/
def dieOf (core : Nat) : Nat := core / 64
/-- The bay of a global core number (R1). -/
def bayOf (core : Nat) : Nat := core / 4

/-- Base registers rounded to the granule of 8 (R13). -/
def LRec.rounded (r : LRec) : Nat := (r.regs + 7) / 8 * 8
/-- Base registers below the queue windows, which alone are named as v (R13). -/
def LRec.usable (r : LRec) : Nat := r.rounded - r.qn * r.qdepth
/-- Bytes of scratchpad a block has (R139, R145). -/
def LRec.scratchBytes (r : LRec) : Nat := if r.carve = 0 then 0 else r.carven * 4096
/-- The menu size S in KiB (R308). -/
def LRec.menuKib (r : LRec) : Nat := [256, 512, 1024, 1536, 1792].getD r.menus 0

def State.blockOf (s : State) (gid : Nat) : Block := s.blk (s.grp gid).blk
def State.coreOf (s : State) (gid : Nat) : Nat := (s.blockOf gid).core
/-- What a group has issued is on its way: its block is resident, or has retired without waiting for it (R77); what parking finds
outstanding it abandons (R330). -/
def State.inFlight (s : State) (gid : Nat) : Bool := (s.blockOf gid).resident || (s.blockOf gid).gone
def State.jobOf (s : State) (gid : Nat) : Nat := (s.blockOf gid).job

/-- The resident blocks of a core. -/
def State.residents (s : State) (core : Nat) : List (Nat × Block) :=
  s.blocks.filter fun b => b.2.resident && b.2.core == core

/-- Ways of each set that a core's carve takes: the menu partition, or the pinned lines (R140, R141). -/
def State.carveWays (s : State) (core : Nat) : Nat :=
  let rs := s.residents core
  let menu := (rs.filter fun b => b.2.record.carve == 1).map fun b => b.2.record.menuKib / 128
  let pin := (rs.filter fun b => b.2.record.carve == 2).map fun b => b.2.record.carven / 32
  menu.foldl Nat.max 0 + pin.foldl (· + ·) 0

/-- Ways of each set that serve as L1 (R142). -/
def State.l1Ways (s : State) (core : Nat) : Nat := 16 - s.carveWays core

/-! ### Address translation -/

/-- Bits [63:57] all equal bit 56 (R137). -/
def canonical (va : Dword) : Bool := va.extractLsb' 57 7 == (if va.getLsbD 56 then 0x7F#7 else 0#7)

/-- The keys of memory: local HBM below 2^64, host memory from 2^64, and chip c of job j from (2 + 4096 j + c) × 2^64, for chip numbers
and the addresses of peers are a job's own (R136, R354). -/
def hostBase : Nat := 2 ^ 64
def chipBase (job c : Nat) : Nat := (2 + 4096 * job + c) * 2 ^ 64

def isLocal (loc : Nat) : Bool := decide (loc < 2 ^ 64)
def isHost (loc : Nat) : Bool := decide (2 ^ 64 ≤ loc) && decide (loc < 2 * 2 ^ 64)
def isRemote (loc : Nat) : Bool := decide (2 * 2 ^ 64 ≤ loc)
/-- The chip of a remote location. -/
def chipOf (loc : Nat) : Nat := (loc / 2 ^ 64 - 2) % 4096

/-- The entry covers the address for the job. -/
def Pte.covers (p : Pte) (job va : Nat) : Bool := p.job == job && decide (p.va ≤ va) && decide (va < p.va + p.size)

/-- The location an entry gives an address it covers. -/
def Pte.loc (p : Pte) (va : Nat) : Nat :=
  match p.dst with
  | .hbm pa => pa + (va - p.va)
  | .host ha => hostBase + ha + (va - p.va)
  | .chip c => chipBase p.job c + va

/-- The access a translation is made for. -/
inductive Perm where
  | read | write | both | fetch
  deriving DecidableEq, Repr

def Pte.permits (p : Pte) : Perm → Bool
  | .read => p.r
  | .write => p.w
  | .both => p.r && p.w
  | .fetch => p.x

/-- What a translation finds (R160 orders 4 and 5). -/
inductive Walk where
  | ok (loc : Nat)
  | missing
  | denied
  deriving DecidableEq, Repr

/-- The entry of the page table that covers an address. -/
def State.pageEntry (s : State) (job va : Nat) : Option Pte := s.ptes.find? fun p => p.covers job va

/-- The entry a core uses: one its TLB keeps, until `tlbinv` removes it, and else the page table's (R137, R353). -/
def State.coreEntry (s : State) (core job va : Nat) : Option Pte :=
  ((s.core core).tlb.find? fun p => p.covers job va).or (s.pageEntry job va)

/-- Translation by a core's TLB (R160). -/
def State.walk (s : State) (core job va : Nat) (p : Perm) : Walk :=
  match s.coreEntry core job va with
  | none => .missing
  | some e => if e.permits p then .ok (e.loc va) else .denied

/-- Translation by a core's walk-ahead TLB (R220). -/
def State.walkAhead (s : State) (core job va : Nat) (p : Perm) : Walk :=
  match ((s.core core).walkTlb.find? fun p => p.covers job va).or (s.pageEntry job va) with
  | none => .missing
  | some e => if e.permits p then .ok (e.loc va) else .denied

def Walk.isMissing : Walk → Bool
  | .missing => true
  | _ => false
def Walk.isDenied : Walk → Bool
  | .denied => true
  | _ => false

/-- A core's TLB keeps the entries it has used. -/
def State.keepTlb (s : State) (core job : Nat) (vas : List Nat) : State :=
  vas.foldl (fun s va =>
    match s.coreEntry core job va with
    | some e => if (s.core core).tlb.contains e then s else s.modCore core fun c => { c with tlb := e :: c.tlb }
    | none => s) s

/-- A core's walk-ahead TLB of 1,024 entries walks pages: a walk that meets a missing or forbidden page is dropped (R220). The
oldest entry makes room. -/
def State.keepWalk (s : State) (core job : Nat) (p : Perm) (vas : List Nat) : State :=
  vas.foldl (fun s va =>
    match s.pageEntry job va with
    | some e =>
      if !(e.permits p) || (s.core core).walkTlb.any fun q => q.covers job va then s
      else s.modCore core fun c => { c with walkTlb := (e :: c.walkTlb).take 1024 }
    | none => s) s

/-- The job exists and stands so in a switch. -/
def State.jobIn (s : State) (job : Nat) (w : SwitchSt) : Bool :=
  match s.job? job with
  | some j => j.sw == w
  | none => false

/-- Where the device itself finds an address of a job: by the page table, and the address as it stands where
no page covers it (the Binder and the Reeve use addresses that have passed their checks). -/
def State.place (s : State) (job va : Nat) : Nat :=
  match s.pageEntry job va with
  | some e => e.loc va
  | none => va

/-- A chip of a job lies in the device's own tenant partition (R354). -/
def State.samePartition (s : State) (job chip : Nat) : Bool :=
  match s.job? job with
  | some j => decide (chip < j.spec.chips) && j.spec.partitions.getD chip j.spec.partition == j.spec.partition
  | none => false

/-- A location is a peer's that the job does not reach: its chip is at or above the job's count, or lies in another tenant
partition (R354). -/
def State.outsideJob (s : State) (job loc : Nat) : Bool := isRemote loc && !(s.samePartition job (chipOf loc))

/-- The chips that an entry of the sharer directory names (R368). -/
def sharersOf (m : Dword) : List Nat := (List.range 2048).filter fun c => m.getLsbD (c / 32)

/-- A chip number of a job names a chip that lies in another tenant partition (R354, R368). -/
def State.foreignChip (s : State) (job chip : Nat) : Bool :=
  match s.job? job with
  | some j => decide (chip < j.spec.chips) && !(s.samePartition job chip)
  | none => false

/-- The home sends invalidation probes for units to the chips that the directory names, which then share them no more; a probe
whose chip lies in another tenant partition is dropped and counted (R368). A bit's chip numbers at or above the job's count name
no chip. -/
def State.probe (s : State) (job : Nat) (units : Nat → Bool) : State :=
  let us := s.fabric.sharers.filter fun u => units u.1
  let dropped := us.foldl (fun n u => n + (sharersOf u.2).countP (s.foreignChip job)) 0
  { s with
    fabric := { s.fabric with
      probeCnt := s.fabric.probeCnt + dropped, sharers := s.fabric.sharers.filter fun u => !(units u.1) } }

/-- A peer reads a line homed here: the directory names it (R368). -/
def State.share (s : State) (loc chip : Nat) : State :=
  let m := (Tbl.find s.fabric.sharers (loc / 65536)).getD 0
  { s with fabric := { s.fabric with sharers := Tbl.put s.fabric.sharers (loc / 65536) (m ||| (1#64 <<< (chip / 32))) } }

/-! ### Ranges -/

/-- The graded range of a job that holds an address (R266). -/
def State.gradedAt (s : State) (job va : Nat) : Option GRange :=
  s.granges.find? fun r => r.job == job && decide (r.va ≤ va) && decide (va < r.va + 128 * r.lines)

/-- The commutative range of a job that holds an address (R175). -/
def State.commAt (s : State) (job va : Nat) : Option CRange :=
  s.cranges.find? fun r => r.job == job && decide (r.va ≤ va) && decide (va < r.va + r.len)

/-- The grade of a line of a graded range, empty until written (R266). -/
def State.lineGrade (s : State) (line : Nat) : Grade := (Tbl.find s.grades line).getD 0
def State.setGrade (s : State) (line : Nat) (g : Grade) : State := { s with grades := Tbl.put s.grades line g }

/-- The line number of a location (R6). -/
def lineOf (loc : Nat) : Nat := loc / 128

/-- The owning die of a unit of local memory (R3, R138): die n owns stacks 3n, 3n + 1 and 3n + 2. -/
def owner (unit : Nat) : Nat := Config.stackOf unit / 3

/-- Where a warm reset of die `r.1` puts a unit homed at `h` (R386 step 3): its owning die, or the lowest running one. -/
def afterReset (unit h : Nat) (r : Nat × Nat) : Nat :=
  if h != r.1 then h else if owner unit != r.1 then owner unit else r.2

/-- The home die of a unit that no move has been listed for: its first home, as some warm resets moved it. -/
def homeAfter (resets : List (Nat × Nat)) (unit : Nat) : Nat := resets.foldl (afterReset unit) (Config.firstHome unit).toNat
def State.baseHome (s : State) (unit : Nat) : Nat := homeAfter s.resets unit

/-- The home die of a location of local memory (R151): while its unit moves, the new home once it holds the line (R153). -/
def State.homeDie (s : State) (loc : Nat) : Nat :=
  let h := (Tbl.find s.homes (loc / 65536)).getD (s.baseHome (loc / 65536))
  match Tbl.find s.moves (loc / 65536) with
  | some m => if m.held.contains (lineOf loc) then m.dst else h
  | none => h

/-- The home die that a location of local memory had before step 3 of the warm reset under way (R386). -/
def State.homeBefore (s : State) (r : DieReset) (loc : Nat) : Nat :=
  (Tbl.find r.homes (loc / 65536)).getD (homeAfter s.resets.dropLast (loc / 65536))

/-- An access of a die to a location is held while a die is warm-reset (R386 step 2, R387). -/
def State.heldByReset (s : State) (die loc : Nat) : Bool :=
  match s.dieReset with
  | none => false
  | some r => isLocal loc &&
      ((decide (2 ≤ r.step) && die != r.die && s.homeDie loc == r.die) ||
        (decide (4 ≤ r.step) && owner (loc / 65536) == r.die))

/-- The word of a location is registered under some core's L1 (R148). -/
def State.registered (s : State) (loc : Nat) : Bool :=
  s.cores.any fun c => match Tbl.find c.2.l1 (lineOf loc) with
    | some l => l.reg.getLsbD (loc / 4 % 32)
    | none => false

/-- Dirty lines of a home's L2 are written back to HBM; words registered under a core are not in them (R148, R153). -/
def State.writeLines (s : State) (p : Nat → Bool) : State :=
  { s with hbmOld := s.hbmOld.filter fun b => !(p (lineOf b.1)) || s.registered b.1 }

/-- The old home of a unit that moves hands over its next lines: each dirty one is written back to HBM, and the new home then
holds its state (R153 steps 2 and 3). With the last line the lookup tables change and the pointer is dropped (steps 4 and 5). -/
def State.handOver (s : State) (unit n : Nat) : State :=
  match Tbl.find s.moves unit with
  | none => s
  | some m =>
    let next := (((List.range 512).map (512 * unit + ·)).filter fun l => !(m.held.contains l)).take n
    let s := s.writeLines next.contains
    let held := m.held ++ next
    if held.length == 512 then { s with homes := Tbl.put s.homes unit m.dst, moves := Tbl.del s.moves unit }
    else { s with moves := Tbl.put s.moves unit { m with held := held } }

/-- The home of a location counts a line written from a core's die (R152). -/
def State.countWrite (s : State) (core loc : Nat) : State :=
  if !(isLocal loc) then s
  else
    let u := (Tbl.find s.epoch (loc / 65536)).getD []
    let ls := (Tbl.find u (core / 64)).getD []
    if ls.contains (lineOf loc) then s
    else { s with epoch := Tbl.put s.epoch (loc / 65536) (Tbl.put u (core / 64) (lineOf loc :: ls)) }

/-! ### The L1 of a core -/

def lineWord (words : List Word) (i : Nat) : Word := words.getD i 0

/-- The 32 words memory holds for a line. -/
def State.memLine (s : State) (line : Nat) : List Word :=
  (List.range 32).map fun i => BitVec.ofNat 32 (Memory.read s.mem (128 * line + 4 * i) 4)

/-- Lines a group has in L1 that count against its lease (R157). -/
def Core.counted (c : Core) (gid : Nat) : Nat := (c.l1.filter fun l => l.2.counts == some gid).length

/-- The line replaced first: lowest priority, then least recently used (R156). -/
def victimOf : List (Nat × L1Line) → Option (Nat × L1Line)
  | [] => none
  | l :: t =>
    match victimOf t with
    | none => some l
    | some m =>
      if m.2.prio < l.2.prio || (m.2.prio == l.2.prio && m.2.used < l.2.used) then some m else some l

/-- Partials a core holds in L1 for a line go to the home as that core's spilled partials (R154). -/
def State.spill (s : State) (core line : Nat) : State :=
  if (s.partials.any fun p => p.1 / 32 == line && (Tbl.find p.2 core).isSome)
      && !s.spilled.contains (line, core) then
    { s with spilled := (line, core) :: s.spilled }
  else s

/-- A core gives up an L1 line: its registrations end (R149), its partials spill (R154), copies `ldc` keeps go
with it, and the victim tag buffer of 2,048 entries takes its address (R323). -/
def State.evictLine (s : State) (core line : Nat) : State :=
  match Tbl.find (s.core core).l1 line with
  | none => s
  | some l =>
    (s.spill core line).modCore core fun c =>
      { c with l1 := Tbl.del c.l1 line, ldc := Tbl.del c.ldc line,
               victims := (c.victims ++ [(line, l.slot)]).drop ((c.victims.length + 1) - 2048) }

/-- Make room in the set of a line (R156). -/
def State.makeRoom (s : State) (core line : Nat) : State :=
  let set := (s.core core).l1.filter fun l => l.1 % 1024 == line % 1024
  if set.length < s.l1Ways core then s
  else match victimOf set with
    | some v => s.evictLine core v.1
    | none => s

/-- The priority at which a group's fill is made: a fill at 6 or 7 beyond the lease is made at 5 (R157). -/
def fillPrio (c : Core) (gid : Nat) (g : Group) (prio : Nat) : Nat :=
  if 6 ≤ prio && decide ((c.counted gid + 1) * 128 > g.lease * 4096) then 5 else prio

/-- The lines of the sampled sets that a group has touched in the window, with one that it touches now (R322). -/
def Group.touch (g : Group) (line : Nat) : List Nat :=
  if line % 1024 % 16 == 0 && !g.touched.contains line then line :: g.touched else g.touched

/-- A group's access touches a line through the L1 at a priority: use of a line that is there, and its priority, which a
higher one raises and no lease bounds, for only fills count (R156, R157); else a miss, a victim hit if the buffer holds the
line for the group's slot (R323), and, unless the priority is 0, room for a fill with no word valid yet. -/
def State.l1Touch (s : State) (core gid line prio : Nat) : State :=
  let c := s.core core
  let g := s.grp gid
  let touched := g.touch line
  match Tbl.find c.l1 line with
  | some l =>
    ((s.setCore core { c with
        l1 := Tbl.put c.l1 line { l with prio := Nat.max l.prio prio, used := c.useCount + 1 },
        useCount := c.useCount + 1 })).setGrp gid { g with touched := touched }
  | none =>
    let hit := c.victims.contains (line, g.slot)
    let h := if hit then 1 else 0
    let g' := { g with misses := g.misses + 1, hits := g.hits + h, touched := if prio == 0 then g.touched else touched }
    let s := (s.setGrp gid g').setCore core { c with
      victims := c.victims.erase (line, g.slot), winHits := c.winHits + h, winMisses := c.winMisses + 1 }
    if prio == 0 then s
    else
      let s := s.makeRoom core line
      let c := s.core core
      let p := fillPrio c gid g prio
      s.setCore core { c with
        l1 := Tbl.put c.l1 line
          { words := List.replicate 32 0, valid := 0, reg := 0, prio := p, used := c.useCount + 1, slot := g.slot,
            counts := if 6 ≤ p then some gid else none },
        useCount := c.useCount + 1 }

/-- The core's copy of a line, where it keeps one, takes what memory holds, every word valid. -/
def State.l1Refresh (s : State) (core line : Nat) : State :=
  match Tbl.find (s.core core).l1 line with
  | none => s
  | some l =>
    s.modCore core fun c =>
      { c with l1 := Tbl.put c.l1 line { l with words := s.memLine line, valid := BitVec.allOnes 32 } }

/-- The bytes `[loc, loc + n)` as the core's L1 holds them, if every word is valid there (n ≤ 16, one line). -/
def State.l1Read (s : State) (core loc n : Nat) : Option Nat :=
  match Tbl.find (s.core core).l1 (lineOf loc) with
  | none => none
  | some l =>
    let ws := (List.range 32).filter fun i => decide (loc % 128 < 4 * i + 4) && decide (4 * i < loc % 128 + n)
    if ws.all fun i => l.valid.getLsbD i then
      let whole := ws.foldr (fun i acc =>
        let w := if l.reg.getLsbD i then Memory.read s.mem (lineOf loc * 128 + 4 * i) 4
                 else (lineWord l.words i).toNat
        w + 2 ^ 32 * acc) 0
      some (whole / 2 ^ (8 * (loc % 4)) % 2 ^ (8 * n))
    else none

/-- An acquire wider than block: every word of the core's L1 but those registered under it becomes invalid
(R150). -/
def State.selfInvalidate (s : State) (core : Nat) : State :=
  s.modCore core fun c => { c with l1 := c.l1.map fun l => (l.1, { l.2 with valid := l.2.valid &&& l.2.reg }) }

/-- The words of a line that the bytes `[loc, loc + n)` touch. -/
def wordMask (loc n : Nat) : BitVec 32 :=
  (List.range 32).foldl (fun m i =>
    if decide (loc % 128 < 4 * i + 4) && decide (4 * i < loc % 128 + n) then m ||| (1#32 <<< i) else m) 0

/-- Words of a line leave every core's registration and copy but `keep`'s (R148). -/
def State.unregister (s : State) (keep : Option Nat) (line : Nat) (m : BitVec 32) : State :=
  { s with
    cores := s.cores.map fun c =>
      if keep == some c.1 then c
      else match Tbl.find c.2.l1 line with
        | none => c
        | some l =>
          if l.reg &&& m == 0 then c
          else (c.1, { c.2 with
            l1 := Tbl.put c.2.l1 line
              { l with reg := l.reg &&& ~~~m, valid := l.valid &&& ~~~(l.reg &&& m) } }) }

/-- HBM keeps the old bytes until a write-back (R178, R381). -/
def State.ageHbm (s : State) (loc n : Nat) : State :=
  if isLocal loc then
    { s with
      hbmOld := (List.range n).foldl (fun t i =>
        if (Tbl.find t (loc + i)).isSome then t else Tbl.put t (loc + i) (s.mem.byte (loc + i))) s.hbmOld }
  else s

/-- A write performed at the home of its location in one instant (R189): the value is memory's, no core keeps a
registration of its words, and the writing core's copy, if there is one, takes the value. -/
def State.homeWrite (s : State) (loc n v : Nat) : State :=
  let s := (s.ageHbm loc n).unregister none (lineOf loc) (wordMask loc n)
  { s with mem := Memory.write s.mem loc n v }

/-- A core's words (R148): the bytes merge into each word's current value, and the word is registered under
the core and valid in its L1 where the L1 keeps the line. -/
def State.coreWrite (s : State) (core loc n v : Nat) : State :=
  let m := wordMask loc n
  let line := lineOf loc
  let s := (s.ageHbm loc n).unregister (some core) line m
  let s := { s with mem := Memory.write s.mem loc n v }
  match Tbl.find (s.core core).l1 line with
  | none => s
  | some l =>
    s.modCore core fun c =>
      { c with
        l1 := Tbl.put c.l1 line
          { l with valid := l.valid ||| m, reg := if isLocal loc then l.reg ||| m else l.reg,
                   words := (List.range 32).map fun i =>
                     if m.getLsbD i then BitVec.ofNat 32 (Memory.read s.mem (128 * line + 4 * i) 4)
                     else lineWord l.words i } }

/-- Little-endian read at the home. -/
def State.homeRead (s : State) (loc n : Nat) : Nat := Memory.read s.mem loc n

end Sys2Proof.Machine
end

