-- ==== Sys2Proof/Machine/Fp.lean ====
section
/-!
DEFINITION. Numbers (R97 to R105): binary formats as exact values, one rounding of an exact rational (R99), D8,
S8 and I8 conversions, and the correctly rounded functions of R113, computed from enclosures in fixed point that
are narrowed until both ends round to the same value.
-/
namespace Sys2Proof.Machine

/-- A binary format: exponent bits, fraction bits, bias (R97). -/
structure BFmt where
  eb : Nat
  fb : Nat
  bias : Nat
  deriving DecidableEq, Repr

def BFmt.f32 : BFmt := { eb := 8, fb := 23, bias := 127 }
def BFmt.f16 : BFmt := { eb := 5, fb := 10, bias := 15 }
def BFmt.bf16 : BFmt := { eb := 8, fb := 7, bias := 127 }

/-- A value of a binary format: NaN, infinity, or ± m × 2^e. -/
inductive Fpv where
  | nan
  | inf (neg : Bool)
  | fin (neg : Bool) (m : Nat) (e : Int)
  deriving DecidableEq, Repr

/-- The value of a bit pattern (R97). -/
def BFmt.value (f : BFmt) (bits : Nat) : Fpv :=
  let frac := bits % 2 ^ f.fb
  let ex := bits / 2 ^ f.fb % 2 ^ f.eb
  let neg := bits / 2 ^ (f.fb + f.eb) % 2 == 1
  if ex == 2 ^ f.eb - 1 then (if frac == 0 then .inf neg else .nan)
  else if ex == 0 then .fin neg frac (1 - (f.bias : Int) - f.fb)
  else .fin neg (2 ^ f.fb + frac) ((ex : Int) - f.bias - f.fb)

def BFmt.signBit (f : BFmt) (neg : Bool) : Nat := if neg then 2 ^ (f.fb + f.eb) else 0
/-- The canonical NaN (R97, R98). -/
def BFmt.nan (f : BFmt) : Nat := (2 ^ (f.eb + 1) - 1) * 2 ^ (f.fb - 1)
def BFmt.inf (f : BFmt) (neg : Bool) : Nat := f.signBit neg + (2 ^ f.eb - 1) * 2 ^ f.fb
/-- The largest finite value. -/
def BFmt.maxFin (f : BFmt) (neg : Bool) : Nat := f.inf neg - 1

/-- Whether a magnitude n + r/d is rounded up to n + 1 (R99). -/
def roundsUp (rm : Rm) (neg : Bool) (n r d : Nat) : Bool :=
  match rm with
  | .rn => decide (d < 2 * r) || (2 * r == d && n % 2 == 1)
  | .rz => false
  | .ru => decide (0 < r) && !neg
  | .rd => decide (0 < r) && neg

/-- The integer nearest num/den in a mode, as a magnitude. -/
def roundInt (rm : Rm) (neg : Bool) (num den : Nat) : Nat :=
  let n := num / den
  if roundsUp rm neg n (num % den) den then n + 1 else n

/-- ⌊log₂(num/den)⌋ for num, den > 0. -/
def logFloor (num den : Nat) : Int :=
  let e : Int := (Nat.log2 num : Int) - Nat.log2 den
  if num * 2 ^ (-e).toNat < den * 2 ^ e.toNat then e - 1 else e

/-- ± num/den rounded once to a binary format (R99). -/
def BFmt.round (f : BFmt) (rm : Rm) (neg : Bool) (num den : Nat) : Nat :=
  if num == 0 then f.signBit neg
  else
    let e := logFloor num den
    let emin : Int := 1 - (f.bias : Int)
    let q : Int := (if e < emin then emin else e) - f.fb
    let n := roundInt rm neg (num * 2 ^ (-q).toNat) (den * 2 ^ q.toNat)
    let mag : Int := if e < emin then n else (e + f.bias) * 2 ^ f.fb + (n - 2 ^ f.fb)
    if mag.toNat ≥ (2 ^ f.eb - 1) * 2 ^ f.fb then
      match rm with
      | .rn => f.inf neg
      | .rz => f.maxFin neg
      | .ru => if neg then f.maxFin neg else f.inf neg
      | .rd => if neg then f.inf neg else f.maxFin neg
    else f.signBit neg + mag.toNat

/-- The bits of a value rounded once. -/
def BFmt.bits (f : BFmt) (rm : Rm) : Fpv → Nat
  | .nan => f.nan
  | .inf neg => f.inf neg
  | .fin neg m e => f.round rm neg (m * 2 ^ e.toNat) (2 ^ (-e).toNat)

def Fpv.isNan : Fpv → Bool
  | .nan => true
  | _ => false

def Fpv.isZero : Fpv → Bool
  | .fin _ m _ => m == 0
  | _ => false

def Fpv.neg : Fpv → Bool
  | .nan => false
  | .inf n => n
  | .fin n _ _ => n

def Fpv.negate : Fpv → Fpv
  | .nan => .nan
  | .inf n => .inf !n
  | .fin n m e => .fin (!n) m e

/-- A finite value as a signed multiple of 2^q, for q at most its exponent. -/
def Fpv.scaled (q : Int) : Fpv → Int
  | .fin n m e => let x : Int := (m * 2 ^ (e - q).toNat : Nat); if n then -x else x
  | _ => 0

/-- The exact product (R97, R98). -/
def Fpv.mul : Fpv → Fpv → Fpv
  | .nan, _ => .nan
  | _, .nan => .nan
  | .inf a, .inf b => .inf (a != b)
  | .inf a, .fin b m _ => if m == 0 then .nan else .inf (a != b)
  | .fin a m _, .inf b => if m == 0 then .nan else .inf (a != b)
  | .fin a m e, .fin b n f => .fin (a != b) (m * n) (e + f)

def Fpv.isInf : Fpv → Option Bool
  | .inf n => some n
  | _ => none

def Fpv.exp : Fpv → Int
  | .fin _ _ e => e
  | _ => 0

/-- The exact sum of addends, with R97's sign for a zero sum. -/
def Fpv.sum (rm : Rm) (l : List Fpv) : Fpv :=
  if l.any Fpv.isNan then .nan
  else
    match l.filterMap Fpv.isInf with
    | n :: t => if t.all (· == n) then .inf n else .nan
    | [] =>
      let q : Int := l.foldl (fun q x => min q x.exp) 0
      let t : Int := l.foldl (fun t x => t + x.scaled q) 0
      if t == 0 then
        let neg := if l.all (fun x => x.isZero && x.neg) then true
                   else if l.all (fun x => x.isZero && !x.neg) then false
                   else rm == .rd
        .fin neg 0 0
      else .fin (decide (t < 0)) t.natAbs q

def f32 (w : Word) : Fpv := BFmt.f32.value w.toNat
def toF32 (rm : Rm) (v : Fpv) : Word := BitVec.ofNat 32 (BFmt.f32.bits rm v)
def qNaN : Word := 0x7FC00000#32

/-- `RoundF32(A + B)` (R108). -/
def f32Add (rm : Rm) (a b : Word) : Word := toF32 rm (Fpv.sum rm [f32 a, f32 b])
def f32Sub (rm : Rm) (a b : Word) : Word := toF32 rm (Fpv.sum rm [f32 a, (f32 b).negate])
def f32Mul (rm : Rm) (a b : Word) : Word := toF32 rm ((f32 a).mul (f32 b))
def f32Fma (rm : Rm) (a b c : Word) : Word := toF32 rm (Fpv.sum rm [(f32 a).mul (f32 b), f32 c])

/-- Order of the bit patterns of two F32 values that are not NaN, −0 below +0 (R109). -/
def f32Key (w : Word) : Int := if w.msb then -((w.toNat : Int) - 2 ^ 31) - 1 else (w.toNat : Int)

/-- `fmin` and `fmax` (R109). -/
def f32Min (a b : Word) : Word :=
  if (f32 a).isNan && (f32 b).isNan then qNaN
  else if (f32 a).isNan then b
  else if (f32 b).isNan then a
  else if f32Key a ≤ f32Key b then a else b
def f32Max (a b : Word) : Word :=
  if (f32 a).isNan && (f32 b).isNan then qNaN
  else if (f32 a).isNan then b
  else if (f32 b).isNan then a
  else if f32Key a ≤ f32Key b then b else a

/-- A as a real against B (R111), for values that are not NaN; −0 equals +0. -/
def f32Lt (a b : Word) : Bool :=
  if (f32 a).isZero && (f32 b).isZero then false else decide (f32Key a < f32Key b)
def f32Eq (a b : Word) : Bool := ((f32 a).isZero && (f32 b).isZero) || a == b

/-- The test of `fcmp` (R111). -/
def f32Cmp (cc : FCmp) (a b : Word) : Bool :=
  let un := (f32 a).isNan || (f32 b).isNan
  match cc with
  | .eq => !un && f32Eq a b
  | .ne => un || !f32Eq a b
  | .lt => !un && f32Lt a b
  | .le => !un && (f32Lt a b || f32Eq a b)
  | .gt => !un && f32Lt b a
  | .ge => !un && (f32Lt b a || f32Eq a b)
  | .un => un
  | .ord => !un

/-- The class bit of `fclass` (R112). -/
def f32Class (a : Word) : Word :=
  let ex := a.toNat / 2 ^ 23 % 256
  let fr := a.toNat % 2 ^ 23
  let k :=
    if ex == 255 && fr != 0 then (if a.getLsbD 22 then 9 else 8)
    else if ex == 255 then (if a.msb then 0 else 7)
    else if ex == 0 && fr == 0 then (if a.msb then 3 else 4)
    else if ex == 0 then (if a.msb then 2 else 5)
    else (if a.msb then 1 else 6)
  BitVec.ofNat 32 (2 ^ k)

/-- `fscale` (R114): beyond ± 400 binary places the rounding no longer depends on the exponent, which keeps the
exact product small. -/
def f32Scale (rm : Rm) (a : Word) (b : Word) : Word :=
  match f32 a with
  | .nan => qNaN
  | .inf n => toF32 rm (.inf n)
  | .fin n m e => toF32 rm (.fin n m (e + max (-600) (min 600 b.toInt)))

/-- `frnd` (R114). -/
def f32Rnd (rm : Rm) (a : Word) : Word :=
  match f32 a with
  | .nan => qNaN
  | .inf _ => a
  | .fin n m e => if 0 ≤ e then a else toF32 .rn (.fin n (roundInt rm n m (2 ^ (-e).toNat)) 0)

/-- The integer nearest A in a mode, ± 2^40 for an infinity or a magnitude beyond every bound of R115. -/
def f32Int (rm : Rm) (a : Word) : Int :=
  match f32 a with
  | .nan => 0
  | .inf n => if n then -(2 ^ 40) else 2 ^ 40
  | .fin n m e =>
    let k : Int :=
      if 0 ≤ e then (m * 2 ^ (min e 40).toNat : Nat) else (roundInt rm n m (2 ^ (-e).toNat) : Nat)
    if n then -k else k

def clampI (lo hi x : Int) : Int := if x < lo then lo else if hi < x then hi else x

/-- `f2i` (R115). -/
def f32ToInt (rm : Rm) (sg : Bool) (a : Word) : Word :=
  if sg then BitVec.ofInt 32 (clampI (-(2 ^ 31)) (2 ^ 31 - 1) (f32Int rm a))
  else BitVec.ofInt 32 (clampI 0 (2 ^ 32 - 1) (f32Int rm a))

/-- `i2f` (R115). -/
def intToF32 (rm : Rm) (sg : Bool) (a : Word) : Word :=
  let x : Int := if sg then a.toInt else a.toNat
  BitVec.ofNat 32 (BFmt.f32.round rm (decide (x < 0)) x.natAbs 1)

/-! ### D8, S8 and I8 (R100 to R105) -/

/-- Trailing zeros of a number below 128. -/
def tz7 (b : Nat) : Nat := (List.range 7).find? (fun i => b / 2 ^ i % 2 == 1) |>.getD 7

/-- The fraction field F of a D8 body (R100). -/
def d8Frac (body : Nat) : Nat :=
  let t := tz7 body
  let f := [6, 4, 2, 0, 0, 0, 0].getD t 0
  body / 2 ^ (t + 1) % 2 ^ f

/-- The finite magnitude of a D8 body from 1 to 127 other than 64, as a fraction (R100). -/
def d8Mag (body : Nat) : Nat × Nat :=
  let t := tz7 body
  let f := [6, 4, 2, 0, 0, 0, 0].getD t 0
  let w := [0, 1, 2, 3, 2, 1, 0].getD t 0
  let base := [0, 1, 2, 4, 8, 10, 0].getD t 0
  let ef := body / 2 ^ (t + 1 + f)
  let ex := base + (if w == 0 then 0 else ef % 2 ^ (w - 1))
  let up := w == 0 || ef / 2 ^ (w - 1) == 1
  let num := 2 ^ f + 9 * d8Frac body
  if up then (num * 10 ^ ex, 2 ^ f) else (num, 2 ^ f * 10 ^ ex)

/-- A D8 code's value: none for NaR, an infinity, or ± num/den. -/
inductive D8v where
  | nar
  | inf (neg : Bool)
  | fin (neg : Bool) (num den : Nat)
  deriving DecidableEq, Repr

def d8Value (c : Byte) : D8v :=
  let body := c.toNat % 128
  if body == 0 then (if c.msb then .nar else .fin false 0 1)
  else if body == 64 then .inf c.msb
  else .fin c.msb (d8Mag body).1 (d8Mag body).2

/-- |a/b − c/d| as a fraction. -/
def ratDist (a b c d : Nat) : Nat × Nat :=
  let x := a * d
  let y := c * b
  ((if x < y then y - x else x - y), b * d)

/-- Which of two bodies R101 takes for the magnitude num/den: the nearer, and in a tie the even code, the even
fraction field, the smaller magnitude. -/
def d8Better (num den : Nat) (a b : Nat) : Nat :=
  let va := if a == 0 then (0, 1) else d8Mag a
  let vb := if b == 0 then (0, 1) else d8Mag b
  let da := ratDist num den va.1 va.2
  let db := ratDist num den vb.1 vb.2
  if da.1 * db.2 < db.1 * da.2 then a
  else if db.1 * da.2 < da.1 * db.2 then b
  else if a % 2 != b % 2 then (if a % 2 == 0 then a else b)
  else if d8Frac a % 2 != d8Frac b % 2 then (if d8Frac a % 2 == 0 then a else b)
  else if va.1 * vb.2 ≤ vb.1 * va.2 then a else b

/-- `RoundD8` of ± num/den (R101). -/
def roundD8 (inf neg : Bool) (num den : Nat) : Byte :=
  let sign : Nat := if neg then 128 else 0
  if num == 0 then 0
  else if num > 10 ^ 10 * den then BitVec.ofNat 8 (sign + (if inf then 0x40 else 0x60))
  else
    let body := (((List.range 128).drop 1).filter (· != 64)).foldl (fun best c => d8Better num den best c) 0
    if body == 0 then 0 else BitVec.ofNat 8 (sign + body)

/-- A value divided by num/den, converted to D8. -/
def Fpv.toD8 (inf : Bool) (sn sd : Nat) : Fpv → Byte
  | .nan => 0x80
  | .inf neg => BitVec.ofNat 8 ((if neg then 128 else 0) + (if inf then 0x40 else 0x60))
  | .fin neg m e => roundD8 inf neg (m * 2 ^ e.toNat * sd) (2 ^ (-e).toNat * sn)

/-- The value of an S8 scale byte as a fraction (R103). -/
def s8Value (c : Byte) : Nat × Nat :=
  let k := c.toNat / 4
  let q := c.toNat % 4
  ((4 + q) * 2 ^ k, 2 ^ 34)

/-- A D8 value times num/den as F32, rounded once to nearest (R102, R120). -/
def d8ToF32 (c : Byte) (sn sd : Nat) : Word :=
  match d8Value c with
  | .nar => qNaN
  | .inf n => BitVec.ofNat 32 (BFmt.f32.inf n)
  | .fin n a b => BitVec.ofNat 32 (BFmt.f32.round .rn n (a * sn) (b * sd))

/-- The smallest S8 with num/den divided by it below 10, 0xFF where there is none (R121). -/
def s8For (num den : Nat) : Byte :=
  match (List.range 256).find? fun c =>
      let v := s8Value (BitVec.ofNat 8 c)
      decide (num * v.2 < 10 * den * v.1) with
  | some c => BitVec.ofNat 8 c
  | none => 0xFF

/-! ### Enclosures -/

/-- ⌊√n⌋, bit by bit from bit `k − 1`. -/
def isqrtAux (n : Nat) : Nat → Nat → Nat
  | 0, r => r
  | k + 1, r => isqrtAux n k (if (r + 2 ^ k) * (r + 2 ^ k) ≤ n then r + 2 ^ k else r)

def isqrt (n : Nat) : Nat := isqrtAux n (Nat.log2 n / 2 + 1) 0

/-- Bits of the fixed point in which enclosures are computed. -/
def fixBits : Nat := 384

def fixOne : Nat := 2 ^ fixBits

/-- Σ 1 / (k 2^k) for k = n … 1 in fixed point: ln 2 from below, each term truncated. -/
def ln2Sum : Nat → Nat
  | 0 => 0
  | n + 1 => ln2Sum n + fixOne / ((n + 1) * 2 ^ (n + 1))

/-- ln 2 lies in [ln2Lo, ln2Lo + 512] × 2^−384: 400 terms, each short of the truth by less than 1, and a tail
below 1. -/
def ln2Lo : Nat := ln2Sum 400
def ln2Hi : Nat := ln2Lo + 512

/-- Σ (±1)^i r^i / i! from the given term on, in fixed point; `n` counts the terms left. -/
def expTerms (alt : Bool) (r : Nat) : Nat → Nat → Nat → Nat → Nat × Nat
  | 0, _, _, _ => (0, 0)
  | n + 1, i, term, _ =>
    let next := term * r / fixOne / (i + 1)
    let rest := expTerms alt r n (i + 1) next 0
    if alt && i % 2 == 1 then (rest.1, rest.2 + term) else (rest.1 + term, rest.2)

/-- e^(±r) for r in [0, 1] in fixed point, with every error below 1,024 units. -/
def expFix (alt : Bool) (r : Nat) : Nat :=
  let p := expTerms alt r 90 0 fixOne 0
  p.1 - p.2

/-- Bounds of e^−y for y = num/den ≥ 0: [lo, hi] × 2^−384. -/
def expNeg (num den : Nat) : Nat × Nat :=
  let y := num * fixOne / den
  let k := y / ln2Hi
  let r := y - k * ln2Hi
  let e := expFix true r
  let err := 2048 + 1024 * (k + 1)
  ((e - err) / 2 ^ k, (e + err) / 2 ^ k + 1)

/-- Bounds of 2^f for f = num/den in [0, 1): [lo, hi] × 2^−384. -/
def exp2Frac (num den : Nat) : Nat × Nat :=
  let e := expFix false (num * ln2Lo / den)
  (e - 4096, e + 4096)

/-- Σ z^(2i+1) / (2i + 1) in fixed point, `n` terms left. -/
def atanhTerms (z2 : Nat) : Nat → Nat → Nat → Nat
  | 0, _, _ => 0
  | n + 1, i, p => p / (2 * i + 1) + atanhTerms z2 n (i + 1) (p * z2 / fixOne)

/-- Bounds of ln(num/den) for 1 ≤ num/den ≤ 2: [lo, hi] × 2^−384. -/
def lnFix (num den : Nat) : Nat × Nat :=
  let z := (num - den) * fixOne / (num + den)
  let s := 2 * atanhTerms (z * z / fixOne) 130 0 z
  (s - 4096, s + 4096)

/-- Round an enclosure ± [lo, hi] / den: the common rounding of its ends. -/
def encRound (rm : Rm) (neg : Bool) (lo hi den : Nat) : Word :=
  let a := BFmt.f32.round rm neg lo den
  let b := BFmt.f32.round rm neg hi den
  BitVec.ofNat 32 (if a == b then a else BFmt.f32.round rm neg (lo + hi) (2 * den))

/-- num/den of a finite magnitude. -/
def magNum (m : Nat) (e : Int) : Nat := m * 2 ^ e.toNat
def magDen (e : Int) : Nat := 2 ^ (-e).toNat

/-- `frcp` (R113). -/
def f32Rcp (rm : Rm) (a : Word) : Word :=
  match f32 a with
  | .nan => qNaN
  | .inf n => BitVec.ofNat 32 (BFmt.f32.signBit n)
  | .fin n m e =>
    if m == 0 then BitVec.ofNat 32 (BFmt.f32.inf n)
    else BitVec.ofNat 32 (BFmt.f32.round rm n (magDen e) (magNum m e))

/-- √(num/den) rounded once: a floor root with more than 200 bits, and a sticky bit below it. -/
def sqrtRound (rm : Rm) (num den : Nat) : Word :=
  let q := num * 2 ^ 1024 / den
  let r := isqrt q
  let exact := r * r * den == num * 2 ^ 1024
  BitVec.ofNat 32 (BFmt.f32.round rm false (2 * r + (if exact then 0 else 1)) (2 ^ 513))

/-- `fsqrt` (R113). -/
def f32Sqrt (rm : Rm) (a : Word) : Word :=
  match f32 a with
  | .nan => qNaN
  | .inf n => if n then qNaN else a
  | .fin n m e => if m == 0 then a else if n then qNaN else sqrtRound rm (magNum m e) (magDen e)

/-- `frsq` (R113); R113 gives −∞ for −0. -/
def f32Rsq (rm : Rm) (a : Word) : Word :=
  match f32 a with
  | .nan => qNaN
  | .inf n => if n then qNaN else 0
  | .fin n m e =>
    if m == 0 then BitVec.ofNat 32 (BFmt.f32.inf n)
    else if n then qNaN else sqrtRound rm (magDen e) (magNum m e)

/-- `fexp2` (R113). -/
def f32Exp2 (rm : Rm) (a : Word) : Word :=
  match f32 a with
  | .nan => qNaN
  | .inf n => if n then 0 else a
  | .fin n m e =>
    let num := magNum m e
    let den := magDen e
    if num == 0 then 0x3F800000#32
    else if num ≥ 200 * den then
      BitVec.ofNat 32 (if n then BFmt.f32.round rm false 1 (2 ^ 200) else BFmt.f32.round rm false (2 ^ 200) 1)
    else if num % den == 0 then
      BitVec.ofNat 32 (if n then BFmt.f32.round rm false 1 (2 ^ (num / den))
        else BFmt.f32.round rm false (2 ^ (num / den)) 1)
    else
      -- x = i + f with f in (0, 1)
      let k := num / den
      let fr := if n then den - num % den else num % den
      let p := exp2Frac fr den
      if n then encRound rm false p.1 p.2 (fixOne * 2 ^ (k + 1))
      else encRound rm false (p.1 * 2 ^ k) (p.2 * 2 ^ k) fixOne

/-- Bounds of log₂ of num/den, 1 < num/den < 2, as fractions over 2^384: ln / ln 2. -/
def log2Frac (num den : Nat) : Nat × Nat :=
  let p := lnFix num den
  (p.1 * fixOne / ln2Hi, p.2 * fixOne / ln2Lo + 1)

/-- `flog2` (R113). -/
def f32Log2 (rm : Rm) (a : Word) : Word :=
  match f32 a with
  | .nan => qNaN
  | .inf n => if n then qNaN else a
  | .fin n m e =>
    if m == 0 then BitVec.ofNat 32 (BFmt.f32.inf true)
    else if n then qNaN
    else
      let k := Nat.log2 m
      let i : Int := e + k
      if m == 2 ^ k then BitVec.ofNat 32 (BFmt.f32.round rm (decide (i < 0)) i.natAbs 1)
      else
        let p := log2Frac m (2 ^ k)
        if 0 ≤ i then encRound rm false (i.toNat * fixOne + p.1) (i.toNat * fixOne + p.2) fixOne
        else if i == -1 then
          -- log₂ x = −ln(1/x) / ln 2, which keeps the precision near 1
          let q := log2Frac (2 * 2 ^ k) m
          encRound rm true q.1 q.2 fixOne
        else encRound rm true (i.natAbs * fixOne - p.2) (i.natAbs * fixOne - p.1) fixOne

/-- `ftanh` (R113): tanh x = (1 − e^−2x) / (1 + e^−2x) for x > 0. -/
def f32Tanh (rm : Rm) (a : Word) : Word :=
  match f32 a with
  | .nan => qNaN
  | .inf n => BitVec.ofNat 32 (BFmt.f32.signBit n + 0x3F800000)
  | .fin n m e =>
    let num := magNum m e
    let den := magDen e
    if num == 0 then a
    else if num ≥ 30 * den then encRound rm n (2 ^ 40 - 1) (2 ^ 40 - 1) (2 ^ 40)
    else if num * 2 ^ 100 < den then
      -- x − x³/3 < tanh x < x − x³/3 + 2x⁵/15
      let d2 := den * den
      let lo := 15 * num * d2 * d2 - 5 * num * num * num * d2
      encRound rm n lo (lo + 2 * num * num * num * num * num) (15 * den * d2 * d2)
    else
      let p := expNeg (2 * num) den
      let lo := (fixOne - p.2) * fixOne / (fixOne + p.2)
      let hi := (fixOne - p.1) * fixOne / (fixOne + p.1) + 1
      encRound rm n lo hi fixOne

/-- `fsig` (R113). -/
def f32Sig (rm : Rm) (a : Word) : Word :=
  match f32 a with
  | .nan => qNaN
  | .inf n => if n then 0 else 0x3F800000#32
  | .fin n m e =>
    let num := magNum m e
    let den := magDen e
    if num == 0 then 0x3F000000#32
    else if num ≥ 120 * den then
      if n then BitVec.ofNat 32 (BFmt.f32.round rm false 1 (2 ^ 200))
      else encRound rm false (2 ^ 100 - 1) (2 ^ 100 - 1) (2 ^ 100)
    else
      let p := expNeg num den
      if n then encRound rm false (p.1 * fixOne / (fixOne + p.1)) (p.2 * fixOne / (fixOne + p.2) + 1) fixOne
      else encRound rm false (fixOne * fixOne / (fixOne + p.2)) (fixOne * fixOne / (fixOne + p.1) + 1) fixOne

end Sys2Proof.Machine
end

