-- ==== Sys2Proof/Machine/Combine.lean ====
section
/-!
DEFINITION. Combining (R154, R155, R171): the operations of atomics, `red` and `cred`, the combining read of a line, and the
lines of a range.
-/
namespace Sys2Proof.Machine

/-! ### Combining (R154, R155, R171) -/

/-- The combine operation on 32-bit elements: unsigned for B32, signed for I32, F32 rounded to nearest. -/
def combine32 (op : AtomOp) (f : MFmt) (old a : Word) : Word :=
  match op with
  | .add => if f == .f32 then f32Add .rn old a else old + a
  | .min => if f == .f32 then f32Min old a else if f == .i32 then (if a.slt old then a else old)
            else (if a.ult old then a else old)
  | .max => if f == .f32 then f32Max old a else if f == .i32 then (if old.slt a then a else old)
            else (if old.ult a then a else old)
  | .and => old &&& a
  | .or => old ||| a
  | .xor => old ^^^ a
  | .exch => a
  | .incw => if a.ule old then 0 else old + 1

/-- The same on 64-bit words, read unsigned (R171). -/
def combine64 (op : AtomOp) (old a : Dword) : Dword :=
  match op with
  | .add => old + a
  | .min => if a.ult old then a else old
  | .max => if old.ult a then a else old
  | .and => old &&& a
  | .or => old ||| a
  | .xor => old ^^^ a
  | .exch => a
  | .incw => if a.ule old then 0 else old + 1

/-- The new value of an atomic (R171). -/
def atomNew (op : AtomOp) (f : MFmt) (old a : Nat) : Nat :=
  if f == .b64 then (combine64 op (BitVec.ofNat 64 old) (BitVec.ofNat 64 a)).toNat
  else (combine32 op f (BitVec.ofNat 32 old) (BitVec.ofNat 32 a)).toNat

/-- The home value of an element with its partials combined in: by die ascending, within a die by core ascending
(R155). -/
def combineAll (op : AtomOp) (f : MFmt) (m : Word) (ps : Tbl Word) : Word :=
  (List.range 4).foldl (fun r d =>
    match (ps.filter fun p => dieOf p.1 == d).map fun p => p.2 with
    | [] => r
    | p :: t => combine32 op f r (t.foldl (combine32 op f) p)) m

/-- A combining read of a line (R155). -/
def State.combiningRead (s : State) (r : CRange) (line : Nat) : State :=
  let s := (List.range 32).foldl (fun s i =>
    match Tbl.find s.partials (32 * line + i) with
    | none => s
    | some ps =>
      let a := 128 * line + 4 * i
      s.homeWrite a 4 (combineAll r.op r.fmt (BitVec.ofNat 32 (s.homeRead a 4)) ps).toNat) s
  { s with partials := s.partials.filter fun p => p.1 / 32 != line,
           spilled := s.spilled.filter fun p => p.1 != line }

/-- A read at the home, which in a commutative range is a combining read of its line (R155). -/
def State.readThere (s : State) (job va loc n : Nat) : Nat × State :=
  match s.commAt job va with
  | some r =>
    let s := s.combiningRead r (lineOf loc)
    (s.homeRead loc n, s)
  | none => (s.homeRead loc n, s)

/-- A read of a record: of every line that holds a byte of it (R155). -/
def State.readLines (s : State) (job va loc n : Nat) : Nat × State :=
  let s := (List.range ((n + 127) / 128)).foldl (fun (s : State) i => (s.readThere job (va + 128 * i) (loc + 128 * i) 1).2) s
  (s.homeRead loc n, s)

/-- A write of bytes of one line at the home, which in a commutative range follows a combining read of the line (R155). -/
def State.writeThere (s : State) (job va loc n v : Nat) : State := (s.readThere job va loc n).2.homeWrite loc n v

/-- A core's `cred` of one element (R154, R176). -/
def State.credLane (s : State) (core : Nat) (r : CRange) (loc : Nat) (a : Word) : State :=
  let ps := (Tbl.find s.partials (loc / 4)).getD []
  let p := match Tbl.find ps core with
    | some p => combine32 r.op r.fmt p a
    | none => a
  { s with partials := Tbl.put s.partials (loc / 4) (Tbl.put ps core p) }

/-! ### The lines of a range -/

/-- A line that some byte of [base, base + len) of a job touches. -/
def State.rangeLine (s : State) (job base len line : Nat) : Bool :=
  len != 0 && s.ptes.any fun p => p.job == job && (match p.dst with
    | .hbm pa =>
      let va := p.va + (128 * line - pa)
      decide (pa ≤ 128 * line) && decide (128 * line < pa + p.size) &&
        decide (va + 128 > base) && decide (va < base + len)
    | .host ha =>
      let k := hostBase + ha
      let va := p.va + (128 * line - k)
      decide (k ≤ 128 * line) && decide (128 * line < k + p.size) &&
        decide (va + 128 > base) && decide (va < base + len)
    | .chip c =>
      let k := chipBase p.job c
      let va := 128 * line - k
      decide (k ≤ 128 * line) && decide (p.va ≤ va) && decide (va < p.va + p.size) &&
        decide (va + 128 > base) && decide (va < base + len))

/-- A commutative range holds the line of a location, which an access by location then reads or writes after a combining read
(R155). -/
def State.combineAt (s : State) (loc : Nat) : State :=
  match s.cranges.find? fun r => s.rangeLine r.job r.va r.len (lineOf loc) with
  | some r => s.combiningRead r (lineOf loc)
  | none => s

/-- The lines of a span of locations that lie in commutative ranges are combined, as any access by the device itself does (R155). -/
def State.combineOver (s : State) (loc n : Nat) : State :=
  if s.cranges.isEmpty then s
  else (List.range ((loc % 128 + n + 127) / 128)).foldl (fun (s : State) i => s.combineAt (128 * (loc / 128 + i))) s

/-- A home unit that holds a line of a range. -/
def State.rangeUnit (s : State) (job base len unit : Nat) : Bool :=
  (List.range 512).any fun i => s.rangeLine job base len (512 * unit + i)

end Sys2Proof.Machine
end

