-- ==== Sys2Proof/Machine/Clusters.lean ====
section
/-!
DEFINITION. The clusters of a group (R60 to R65): which threads are held, how clusters split and merge, which
cluster runs next, and what the end of a clause does.
-/
namespace Sys2Proof.Machine

def Group.pc (g : Group) (L : Nat) : Dword := g.pcs.getD L 0
def Group.mr (g : Group) (L : Nat) : Dword := g.mrs.getD L Config.noMeeting

/-- Lane `L` is a thread that has not executed `exit` (R60). -/
def Group.live (g : Group) (L : Nat) : Bool := !inMask g.exited L

/-- A thread is held while its PC equals its MR (R60). -/
def Group.held (g : Group) (L : Nat) : Bool := g.live L && g.pc L == g.mr L

/-- Set the PC of the lanes of a mask. -/
def Group.setPcs (g : Group) (m : Dword) (f : Nat → Dword) : Group :=
  { g with pcs := (List.range 64).map fun L => if inMask m L then f L else g.pc L }

def Group.setMrs (g : Group) (m : Dword) (f : Nat → Dword) : Group :=
  { g with mrs := (List.range 64).map fun L => if inMask m L then f L else g.mr L }

/-- The header of the clause at which, or inside which, a cluster stands. -/
def Group.header (g : Group) (c : Cluster) : Dword := g.pc (lowestLane c.lanes) - BitVec.ofNat 64 (8 * c.res)

/-- The word from which a cluster issues its next clause. -/
def Cluster.word (c : Cluster) : Nat := c.res - 1

/-- The lanes of the current cluster, none with no cluster. -/
def Group.curLanes (g : Group) : Dword :=
  match g.cur with
  | none => 0
  | some c => c.lanes

/-- Where a cluster stands: the PC its lanes share, and how it resumes. -/
def Group.spot (g : Group) (c : Cluster) : Dword × Nat × Bool := (g.pc (lowestLane c.lanes), c.res, c.part)

/-- The lanes of a mask grouped by PC, each part's mask, in order of lowest lane (R61). -/
def Group.parts (g : Group) (m : Dword) : List Dword :=
  (lanesOf m).foldl (fun ps L =>
    if ps.any fun p => g.pc (lowestLane p) == g.pc L then
      ps.map fun p => if g.pc (lowestLane p) == g.pc L then p ||| (1#64 <<< L) else p
    else ps ++ [1#64 <<< L]) []

/-- A cluster becomes pending; one that shares its PC with a pending cluster becomes one with it, at the greater
age (R61). -/
def Group.addPending (g : Group) (c : Cluster) : Group :=
  if g.pend.any fun p => g.spot p == g.spot c then
    { g with pend := g.pend.map fun p =>
        if g.spot p == g.spot c then
          { p with lanes := p.lanes ||| c.lanes, age := Nat.max p.age c.age }
        else p }
  else { g with pend := g.pend ++ [c] }

/-- The meeting addresses held in the MR of some held thread (R65). -/
def Group.meetings (g : Group) : List Dword :=
  ((List.range 64).filter g.held).foldl (fun l L => if l.contains (g.mr L) then l else l ++ [g.mr L]) []

/-- Merge the threads that meet at `a`, if every thread of the group that means to is there (R65). A thread of the current
cluster is running, not there. -/
def Group.meetAt (g : Group) (a : Dword) : Group :=
  let who := (List.range 64).filter fun L => g.live L && g.mr L == a
  if who.all fun L => g.pc L == a && !(inMask g.curLanes L) then
    let m := maskOf fun L => who.contains L
    (g.setMrs m fun _ => Config.noMeeting).addPending { lanes := m, age := 0, res := 0 }
  else g

/-- Every merge of R65 that is complete. -/
def Group.meetAll (g : Group) : Group := g.meetings.foldl Group.meetAt g

/-- A cluster with those that join it: all their lanes, and the greatest age (R61). -/
def Cluster.join (c : Cluster) (ps : List Cluster) : Cluster :=
  ps.foldl (fun c p => { c with lanes := c.lanes ||| p.lanes, age := Nat.max c.age p.age }) c

/-- The current cluster takes in the pending clusters of its PC (R61). -/
def Group.absorb (g : Group) : Group :=
  match g.cur with
  | none => g
  | some c =>
    { g with cur := some (c.join (g.pend.filter fun q => g.spot q == g.spot c)),
             pend := g.pend.filter fun q => !(g.spot q == g.spot c) }

/-- The age at which a pending cluster is overdue (R64). -/
def overdueAge : Nat := 192

/-- The first choice of R63 and R64 among two pending clusters: overdue before not, then the greater age among
the overdue, then the lower lowest lane. -/
def preferred (a b : Cluster) : Cluster :=
  let oa := decide (overdueAge ≤ a.age)
  let ob := decide (overdueAge ≤ b.age)
  if oa && !ob then a
  else if ob && !oa then b
  else if oa && ob && a.age != b.age then (if b.age < a.age then a else b)
  else if lowestLane a.lanes ≤ lowestLane b.lanes then a else b

/-- The cluster the group issues next (R63, R64); the lanes in `pass` yielded, and are passed over whenever
another cluster is pending (R77). -/
def Group.choose (g : Group) (pass : Dword) : Option Cluster :=
  let others := g.pend.filter fun c => c.lanes &&& pass == 0
  match (if others.isEmpty then g.pend else others) with
  | [] => none
  | c :: t => some (t.foldl preferred c)

/-- With no current cluster, the chosen one becomes current. -/
def Group.pickNext (g : Group) (pass : Dword) : Group :=
  match g.cur with
  | some _ => g
  | none =>
    match g.choose pass with
    | none => g
    | some c => { g with cur := some { c with age := 0 }, pend := g.pend.filter fun p => p.lanes &&& c.lanes == 0 }

/-- Some pending cluster is overdue (R64). -/
def Group.overdue (g : Group) : Bool := g.pend.any fun p => decide (overdueAge ≤ p.age)

/-- Forced rotation: with an overdue cluster pending, the current run ends, and the cluster is pending at the age that
those it has just taken in gave it, which may make it the one that is issued next; one that stands where a pending cluster stands
becomes one with it (R61, R64). -/
def Group.rotate (g : Group) : Group :=
  match g.cur with
  | none => g
  | some c =>
    if g.overdue then
      let g := { g with cur := none }.addPending c
      match g.choose 0 with
      | none => g
      | some n => { g with pend := g.pend.filter fun p => p.lanes &&& n.lanes == 0, cur := some { n with age := 0 } }
    else g

/-- The end of a clause whose threads have their next PCs and exits set: pending clusters age (R64), the run ends
if it must (R62), meetings complete (R65), clusters of one PC become one (R61), a long-waiting cluster takes its
turn (R64), and the next cluster is chosen (R63). `ends`: the clause held `yield` or `park`; `pass`: the lanes
that yielded; `res`: where the cluster resumes inside a clause, 0 but after `eret` (R349), and `part`: with
part of its effect taken. -/
def Group.endClause (g : Group) (ends : Bool) (pass : Dword) (res : Nat) (part : Bool := false) : Group :=
  let ran := g.curLanes
  let live := ran &&& ~~~g.exited
  let held := maskOf fun L => inMask live L && g.held L
  let parts := g.parts (live &&& ~~~held)
  let pend := g.pend.map fun p => { p with age := p.age + 1 }
  let stop := ends || held != 0 || live != ran || parts.length != 1
  let g := { g with
    clause := none, heldAt := false, heldRow := none, partDone := false, pend := pend,
    cur := if stop then none else some { lanes := live, age := 0, res := res, part := part } }
  let g := if stop then parts.foldl (fun g m => g.addPending { lanes := m, age := 0, res := res, part := part }) g else g
  (g.meetAll.absorb.rotate).pickNext pass

/-- Words of a clause after its header (R32). -/
def headWords (head : Dword) : Nat := (head.extractLsb' 56 4).toNat + 1

/-- `Next`: the header that follows a clause (R71). -/
def nextHeader (hdr head : Dword) : Dword := hdr + BitVec.ofNat 64 (8 * (headWords head + 1))

/-- The open clause's current instruction address. -/
def Clause.pc (c : Clause) : Dword := c.hdr + BitVec.ofNat 64 (8 * (c.idx + 1))

def Group.clause! (g : Group) : Clause :=
  g.clause.getD { hdr := 0, head := 0, idx := 0, latches := [], cap := none }

/-- The address of the instruction being executed. -/
def Group.ipc (g : Group) : Dword := g.clause!.pc

/-- The current word is the clause's last. -/
def Group.atLast (g : Group) : Bool := g.clause!.idx + 1 == headWords g.clause!.head

/-- The instruction is done and has moved no thread: the next word of the clause, or the clause's end with every
thread of the cluster at `Next` (R35). -/
def Group.advance (g : Group) : Group :=
  let c := g.clause!
  if g.atLast then
    (g.setPcs g.curLanes fun _ => nextHeader c.hdr c.head).endClause false 0 0
  else { g with clause := some { c with idx := c.idx + 1 }, heldAt := false, heldRow := none, partDone := false }

end Sys2Proof.Machine
end

