-- ==== Sys2Proof/Machine/TaskOps.lean ====
section
/-!
DEFINITION. The Binder's state (R265 to R304): task records and output lists as memory holds them (R282), grade
counts and subscriptions (R268, R269, R275), the classification of a graded store (R273), and the work that one
Binder event gives rise to, as a list of things still to do. Freeing what a block holds stands here too, because a
re-fire, a cancellation and a failed grid all need it.
-/
namespace Sys2Proof.Machine

/-! ### Task records in memory -/

/-- The job's task arena: base and records (R348). -/
def State.arena (s : State) (job : Nat) : Nat × Nat :=
  match s.job? job with
  | some j => (j.spec.arenaBase.toNat, j.spec.arenaSize)
  | none => (0, 0)

/-- The record address of a task index (R282). -/
def State.taskAt (s : State) (job idx : Nat) : TaskId := { job := job, rec' := (s.arena job).1 + 128 * idx }

/-- The index of a record (R282): $task. -/
def State.taskIdx (s : State) (t : TaskId) : Nat := (t.rec' - (s.arena t.job).1) / 128

/-- Bits [lo + w − 1 : lo] of a record, as the home reads them (R155). -/
def State.recFld (s : State) (t : TaskId) (lo w : Nat) : Nat :=
  (s.readThere t.job t.rec' (s.place t.job t.rec' + lo / 8) ((lo % 8 + w + 7) / 8)).1 / 2 ^ (lo % 8) % 2 ^ w

def State.setRecFld (s : State) (t : TaskId) (lo w v : Nat) : State :=
  let a := s.place t.job t.rec' + lo / 8
  let n := (lo % 8 + w + 7) / 8
  let old := s.readThere t.job t.rec' a n
  let k := 2 ^ (lo % 8)
  let cur := old.1 / k % 2 ^ w
  old.2.homeWrite a n (old.1 - cur * k + v % 2 ^ w * k)

/-- Task states (R283). -/
def tPending : Nat := 0
def tReady : Nat := 1
def tRunning : Nat := 2
def tComplete : Nat := 3
def tRipe : Nat := 4
def tRefire : Nat := 5
def tFaulted : Nat := 6
def tCancelled : Nat := 7

def State.tState (s : State) (t : TaskId) : Nat := s.recFld t 480 4
def State.setTState (s : State) (t : TaskId) (v : Nat) : State := s.setRecFld t 480 4 v
def State.tGen (s : State) (t : TaskId) : Nat := s.recFld t 484 4
def State.tEff (s : State) (t : TaskId) : Grade := BitVec.ofNat 2 (s.recFld t 488 2)
def State.tChildren (s : State) (t : TaskId) : Nat := s.recFld t 512 16
def State.tOuts (s : State) (t : TaskId) : Nat := s.recFld t 464 16
def State.tRunq (s : State) (t : TaskId) : Nat := s.recFld t 448 16
def State.tJoin (s : State) (t : TaskId) : Nat := s.recFld t 384 32
def State.tParent (s : State) (t : TaskId) : Nat := s.recFld t 320 64
def State.tHandler (s : State) (t : TaskId) : Nat := s.recFld t 256 64
def State.tOutlist (s : State) (t : TaskId) : Nat := s.recFld t 192 64
def State.tCont (s : State) (t : TaskId) : Nat := s.recFld t 128 64
def State.tArgs (s : State) (t : TaskId) : Nat := s.recFld t 64 64
def State.tKernel (s : State) (t : TaskId) : Nat := s.recFld t 0 64

def State.taskRow (s : State) (t : TaskId) : Option TaskRow := s.tasks.find? fun r => r.id == t
def State.modTaskRow (s : State) (t : TaskId) (f : TaskRow → TaskRow) : State :=
  { s with tasks := s.tasks.map fun r => if r.id == t then f r else r }

/-- A record is live: spawned, and neither ripe nor cancelled (R293). -/
def State.tLive (s : State) (t : TaskId) : Bool :=
  (s.taskRow t).isSome && s.tState t != tRipe && s.tState t != tCancelled

/-- The task a block runs as, if any. -/
def State.blkTask (s : State) (b : Nat) : Option TaskId :=
  let k := s.blk b
  if k.task == 0 then none else some (s.taskAt k.job k.task)

def State.grpTask (s : State) (gid : Nat) : Option TaskId := s.blkTask (s.grp gid).blk

/-- The effective grade of a group's work (R268, R270). -/
def State.effGrade (s : State) (gid : Nat) : Grade :=
  match s.grpTask gid with
  | some t => s.tEff t
  | none => 3

/-- A location of a unit whose owning die is being warm-reset: every access of the device's own to it is held (R387). -/
def State.unitHeld (s : State) (loc : Nat) : Bool :=
  match s.dieReset with
  | none => false
  | some r => isLocal loc && decide (4 ≤ r.step) && owner (loc / 65536) == r.die

/-- Some byte of a span of locations lies in such a unit. -/
def State.spanHeld (s : State) (loc n : Nat) : Bool :=
  s.dieReset.isSome && n != 0 && (List.range (n / 65536 + 2)).any fun i => s.unitHeld (min (loc + 65536 * i) (loc + n - 1))

/-- The Binder is held: the record or the output list of some task, or the record of a continuation or a handler that it may spawn,
lies in such a unit (R387; log entry 87). -/
def State.binderHeld (s : State) : Bool :=
  s.dieReset.isSome && s.tasks.any fun w =>
    [w.id.rec', s.tOutlist w.id, s.tCont w.id, s.tHandler w.id].any fun va => va != 0 && s.unitHeld (s.place w.id.job va)

/-! ### Output lists -/

/-- Entry `i` of a task's output list (R282). -/
def State.outEntry (s : State) (t : TaskId) (i : Nat) : Nat :=
  (s.readThere t.job (s.tOutlist t + 8 * i) (s.place t.job (s.tOutlist t) + 8 * i) 8).1
def State.setOutEntry (s : State) (t : TaskId) (i e : Nat) : State :=
  s.writeThere t.job (s.tOutlist t + 8 * i) (s.place t.job (s.tOutlist t) + 8 * i) 8 e

/-- The entries of the list. -/
def State.outEntries (s : State) (t : TaskId) : List Nat := (List.range (s.tOuts t)).map (s.outEntry t)

def entryAddr (e : Nat) : Nat := e / 128 % 2 ^ 50 * 128
def entrySignal (e : Nat) : Bool := e / 64 % 2 == 1
def entryGrade (e : Nat) : Grade := BitVec.ofNat 2 e

def State.listed (s : State) (t : TaskId) (va : Nat) (signal : Bool) : Option Nat :=
  (List.range (s.tOuts t)).find? fun i =>
    let e := s.outEntry t i
    entryAddr e == va % 2 ^ 57 / 128 * 128 && entrySignal e == signal

/-- The limit of R276. -/
def outLimit : Nat := 1024

/-- List a line at its stated grade, or a signalled successor (R272, R276, R295). -/
def State.listOut (s : State) (t : TaskId) (va : Nat) (signal : Bool) (g : Grade) : State :=
  let e := va % 2 ^ 57 / 128 * 128 + (if signal then 64 else 0) + g.toNat
  match s.listed t va signal with
  | some i => s.setOutEntry t i e
  | none =>
    let n := s.tOuts t
    if n < outLimit then (s.setOutEntry t n e).setRecFld t 464 16 (n + 1) else s

/-- A task's list is full, and holds back a store to a line that it does not list until the task's effective grade is final
(R276). -/
def State.listBars (s : State) (t : Option TaskId) (va : Nat) : Bool :=
  match t with
  | some t => decide (outLimit ≤ s.tOuts t) && (s.listed t va false).isNone && s.tEff t != 3
  | none => false

/-! ### Subscriptions and grade counts -/

/-- Free entries of a home die's subscription table: 262,144, which hold subscriptions and last writers (R269,
R272). -/
def subLimit : Nat := 262144

/-- Entries in use in the table of a die: subscriptions, and a last writer for each line below final that has one (R269,
R272). -/
def State.subsOn (s : State) (die : Nat) : Nat :=
  (s.subs.countP fun x => s.homeDie (128 * x.line) == die) +
    s.lastWriter.countP fun x => isLocal (128 * x.1) && s.homeDie (128 * x.1) == die

def State.subOf (s : State) (t : TaskId) (line : Nat) : Option Sub :=
  s.subs.find? fun x => x.task == t && x.line == line && x.chip == none

/-- A line's grade rises; a final line has no last-writer record (R272). -/
def State.raiseTo (s : State) (line : Nat) (g : Grade) : State :=
  let t := s.setGrade line g
  if g == 3 then { t with lastWriter := Tbl.del t.lastWriter line } else t

/-- The record's counts and effective grade follow the task's subscriptions, local and on peers (R268, R269). -/
def State.syncCounts (s : State) (t : TaskId) : State :=
  let local' := (s.subs.filter fun x => x.task == t && x.chip == none).map fun x => x.grade
  let remote := (s.remoteSubs.filter fun x => x.1 == t).map fun x => x.2.2
  let gs := local' ++ remote
  let guess := gs.countP (· == 1)
  let prov := gs.countP (· == 2)
  let eff := if 0 < guess then 1 else if 0 < prov then 2 else 3
  ((s.setRecFld t 416 16 guess).setRecFld t 432 16 prov).setRecFld t 488 2 eff

/-- Record that a task read a line at a grade below final (R269). -/
def State.subscribe (s : State) (t : TaskId) (line : Nat) (g : Grade) : State :=
  let s : State :=
    match s.subOf t line with
    | some _ =>
      { s with
        subs := s.subs.map fun (x : Sub) =>
          if x.task == t && x.line == line && x.chip == none then { x with grade := g } else x }
    | none => { s with subs := s.subs ++ [{ line := line, task := t, grade := g, chip := none }] }
  s.syncCounts t

/-- End every subscription of a task (R271). No packet of R363 tells the home of a peer's line: the entry there, (chip, task), stays
and counts in its table until its line changes (log entry 97). -/
def State.unsubscribe (s : State) (t : TaskId) : State :=
  ({ s with subs := s.subs.filter fun x => !(x.task == t && x.chip == none),
            remoteSubs := s.remoteSubs.filter fun x => x.1 != t }).syncCounts t

/-- The last writer of a line (R272). -/
def State.writer (s : State) (line : Nat) : Option Writer := Tbl.find s.lastWriter line
def State.setWriter (s : State) (line : Nat) (w : Option Writer) : State :=
  match w with
  | some w => if s.lineGrade line == 3 then { s with lastWriter := Tbl.del s.lastWriter line }
      else { s with lastWriter := Tbl.put s.lastWriter line w }
  | none => { s with lastWriter := Tbl.del s.lastWriter line }

/-- A task of this device as a last writer. -/
def Writer.own (t : TaskId) : Writer := { chip := none, task := t }

/-- The subscription is the writer's own. -/
def Sub.byWriter (x : Sub) (w : Option Writer) : Bool := some { chip := x.chip, task := x.task } == w

/-- Re-fires of every subscriber of a line but one task (R273, R277); a peer's subscriber is sent a notice
(R369). -/
def State.refires (s : State) (line : Nat) (but : Option Writer) (g : Grade) : List Todo :=
  (s.subs.filter fun x => x.line == line && !(x.byWriter but)).map fun x =>
    match x.chip with
    | none => .refire x.task
    | some c => .notice c x.task line true g

/-- Subscriptions of peers to a line, but the writer's own, end with the re-fire they are told of (R271). -/
def State.dropPeers (s : State) (line : Nat) (but : Option Writer) : State :=
  { s with subs := s.subs.filter fun x => !(x.line == line && x.chip != none && !(x.byWriter but)) }

def gradeMin (a b : Grade) : Grade := if a.toNat ≤ b.toNat then a else b
def gradeMax (a b : Grade) : Grade := if a.toNat ≤ b.toNat then b else a

/-- The grade a graded store writes (R272, R276): a task's is min(stated, effective, provisional), and the stated
grade once its list is full and its effective grade final. -/
def State.storeGrade (s : State) (t : Option TaskId) (va : Nat) (stated : Grade) : Grade :=
  match t with
  | none => stated
  | some t =>
    if s.tOuts t ≥ outLimit && (s.listed t va false).isNone && s.tEff t == 3 then stated
    else gradeMin stated (gradeMin (s.tEff t) 2)

/-- What classification finds (R273). -/
inductive Class where
  | fill | promotion | none | amendment | refused
  deriving DecidableEq, Repr

/-- The case of R273 for a line's grade, whether the bits are equal, and the grade written. -/
def classify (before : Grade) (equal : Bool) (written : Grade) : Class :=
  if before == 0 then .fill
  else if before == 3 then (if equal then .none else .refused)
  else if !equal then .amendment
  else if before.toNat < written.toNat then .promotion
  else .none

/-- The case that a store of some bytes at a grade takes at a line (R273). -/
def State.storeClass (s : State) (line : Nat) (bytes : Memory) (written : Grade) : Class :=
  classify (s.lineGrade line) (bytes.all fun c => s.mem.byte c.1 == c.2) written

/-- The case writes the line's bytes, which the home's epoch counts (R152). -/
def Class.writes : Class → Bool
  | .fill | .amendment => true
  | _ => false

/-- A graded store performed at its line's home, at the grade it writes: bytes, grade and writer change as one event, and what
follows is still to do (R267, R272, R273). The Boolean says the store was refused. -/
def State.gradedStore (s : State) (w : Option Writer) (line : Nat) (bytes : Memory) (written : Grade) :
    State × List Todo × Bool :=
  let before := s.lineGrade line
  let put := fun (s : State) => (bytes.foldl (fun s c => s.homeWrite c.1 1 c.2.toNat) s).setGrade line written
  match s.storeClass line bytes written with
  | .fill => ((put s).setWriter line w, [.raised line], false)
  | .promotion => ((s.setGrade line written).setWriter line w, [.raised line], false)
  | .none => (if before == 3 then s else s.setWriter line w, [], false)
  | .amendment =>
    let todo := s.refires line w written
    let s := ((put s).setWriter line w).dropPeers line w
    let s := match w with
      | some ⟨none, t⟩ => if (s.subOf t line).isSome then s.subscribe t line written else s
      | _ => s
    (s, todo ++ [.raised line], false)
  | .refused => (s, [], true)

/-- A graded store of this device's work reaches its line's home here: a task's takes the grade of R272, and its line goes on
the task's output list (R276), unless it is refused (log entry 90). -/
def State.gradedStoreBy (s : State) (t : Option TaskId) (line va : Nat) (bytes : Memory) (stated : Grade) :
    State × List Todo × Bool :=
  let r := s.gradedStore (t.map Writer.own) line bytes (s.storeGrade t va stated)
  match t with
  | some t => if r.2.2 then r else (r.1.listOut t va false stated, r.2)
  | none => r

/-- Set a line empty, its bytes unchanged, and re-fire its subscribers (R277). -/
def State.retractLine (s : State) (line : Nat) : State × List Todo :=
  let todo := s.refires line none 0
  (((s.setGrade line 0).setWriter line none).dropPeers line none, todo)

/-- The lines a task's retraction affects: listed, last written by it, below final (R277), those of peers among them. -/
def State.ownLines (s : State) (t : TaskId) : List (Nat × Grade) :=
  (s.outEntries t).filterMap fun e =>
    if entrySignal e then none
    else
      let line := lineOf (s.place t.job (entryAddr e))
      if s.writer line == some (Writer.own t) && s.lineGrade line != 3 then some (line, entryGrade e) else none

/-- Keep the signal entries of an output list alone: signals are never undone (R284). -/
def State.keepSignals (s : State) (t : TaskId) : State :=
  let es := (s.outEntries t).filter entrySignal
  let s := ((List.range es.length).zip es).foldl (fun s p => s.setOutEntry t p.1 p.2) s
  s.setRecFld t 464 16 es.length

/-! ### Run entries and completion words -/

/-- The Binder pushes a run entry on the task's run queue, stamped with the acceptance order (R302, R313). -/
def State.pushRun (s : State) (t : TaskId) : State :=
  let q := s.tRunq t
  let e : Qword := BitVec.ofNat 128 (t.rec' + 2 ^ 64 * s.tGen t)
  let b := s.bq q
  let s := { s with nextAge := s.nextAge + 1 }
  s.setBq q { b with items := b.items ++ [{ bits := e, stamp := s.nextAge, job := t.job }] }

/-- A task becomes ready (R283, R302). -/
def State.makeReady (s : State) (t : TaskId) : State := (s.setTState t tReady).pushRun t

/-! ### Freeing what a block holds -/

/-- A Thresher reservation ends (R230): the sequencer stops and the state is reset. -/
def State.freeThresher (s : State) (core : Nat) : State := s.modCore core fun c => { c with thr := Thresher.free }

/-- The slot of a group on its core and the pair it belongs to (R16). -/
def Group.pair (g : Group) : Nat := g.slot / 2

/-- A group's extension lock is freed; a partner's pending request takes it, which ends its wait (R134, R328). -/
def State.freeLock (s : State) (core gid : Nat) : State :=
  let g := s.grp gid
  let e := (Tbl.find (s.core core).ext g.pair).getD ExtPair.zero
  if e.holder == some gid then
    let partner := s.groups.find? fun p =>
      p.1 != gid && p.2.blk == g.blk && p.2.pair == g.pair && p.2.xreq && !p.2.retired
    let s := s.modCore core fun c =>
      { c with ext := Tbl.put c.ext g.pair { e with holder := partner.map fun p => p.1 } }
    match partner with
    | some p => (s.modGrp p.1 fun x => { x with xreq := false }).modStk (s.blk g.blk).stook fun k => { k with clock := 0 }
    | none => s
  else s

/-- A group leaves its core: the lock it holds is no longer held there, and a partner's request stands (R134). -/
def State.dropLock (s : State) (core gid : Nat) : State :=
  s.modCore core fun c =>
    { c with
      ext := c.ext.map fun (e : Nat × ExtPair) =>
        (e.1, if e.2.holder == some gid then { e.2 with holder := none } else e.2) }

/-- Lines that count against a group's lease drop to priority 3 and stop counting (R157). -/
def State.dropCounted (s : State) (core gid : Nat) : State :=
  s.modCore core fun c =>
    { c with l1 := c.l1.map fun l =>
        if l.2.counts == some gid then (l.1, { l.2 with prio := 3, counts := none }) else l }

/-- A block leaves its core: its lock, counted lines and reservation go, and its record of residence ends. -/
def State.leaveCore (s : State) (b : Nat) : State :=
  let k := s.blk b
  let s := k.gids.foldl (fun s g => (s.dropLock k.core g).dropCounted k.core g) s
  let s := if (s.core k.core).thr.holder == some b then s.freeThresher k.core else s
  let s := s.modCore k.core fun c => { c with
    admitted := c.admitted.filter fun g => !k.gids.contains g
    serving := c.serving.filter fun x => !k.gids.contains x.2
    served := c.served.filter fun x => !k.gids.contains x.1 }
  s.setBlk b { k with resident := false }

/-- A block leaves its core and its stook. -/
def State.quitBlock (s : State) (b : Nat) : State :=
  let k := s.blk b
  let s := if k.resident then s.leaveCore b else s
  let s := s.modStk k.stook fun x => { x with members := x.members.filter (· != b) }
  { s with stooks := if (s.stk k.stook).members.isEmpty then Tbl.del s.stooks k.stook else s.stooks }

/-- A block is over: it leaves its core, its frame is discarded, its copies stop, and its groups are gone. -/
def State.removeBlock (s : State) (b : Nat) : State :=
  let k := s.blk b
  let s := s.quitBlock b
  { s with
    groups := k.gids.foldl (fun t g => Tbl.del t g) s.groups,
    blocks := Tbl.del s.blocks b,
    copies := s.copies.filter fun c => !k.gids.contains c.gid,
    gstores := s.gstores,
    dies := s.dies.map fun d =>
      (d.1, { d.2 with fqWait := d.2.fqWait.filter fun e => e.blk != b }) }

/-- The blocks of a grid, resident or parked. -/
def State.blocksOf (s : State) (grid : Nat) : List Nat := (s.blocks.filter fun b => b.2.grid == grid).map fun b => b.1

/-- The blocks that run a task's own body (R285). -/
def State.bodyBlocks (s : State) (t : TaskId) : List Nat :=
  (s.blocks.filter fun b =>
    b.2.job == t.job && b.2.task != 0 && s.taskAt b.2.job b.2.task == t && (s.grid b.2.grid).isTask).map fun b => b.1

/-- The live child grids of a block (R303). -/
def State.childGrids (s : State) (b : Nat) : List Nat :=
  (s.grids.filter fun g => g.2.parent == some b && !g.2.done).map fun g => g.1

/-- Child grids that belong to a task (R287). -/
def State.taskGrids (s : State) (t : TaskId) : List Nat :=
  (s.grids.filter fun g =>
    !g.2.isTask && !g.2.done && g.2.job == t.job && g.2.task != 0 && s.taskAt g.2.job g.2.task == t).map fun g => g.1

/-- The blocks of a task's run: those of its body, and of the child grids that belong to it (R278, R287). -/
def State.runBlocks (s : State) (t : TaskId) : List Nat := s.bodyBlocks t ++ (s.taskGrids t).flatMap s.blocksOf

/-- A grid and the child grids below it, by generations (R303). -/
def State.gridTree (s : State) : Nat → List Nat → List Nat
  | 0, gs => gs
  | n + 1, gs =>
    match ((gs.flatMap s.blocksOf).flatMap s.childGrids).filter fun g => !gs.contains g with
    | [] => gs
    | kids => gs ++ State.gridTree s n kids.eraseDups

/-- A grid ends with a status, if it has not ended: no further block of it is placed (R320, R344). -/
def State.markEnded (s : State) (status g : Nat) : State :=
  { s.modGrid g (fun x => if x.ended then x else { x with ended := true, status := status }) with
    waiting := s.waiting.map fun (q : Nat × List Nat) => (q.1, q.2.filter (· != g)) }

/-- A slice has stopped at a clause boundary, or where a word holds it (R227). -/
def Slice.rests (x : Slice) : Bool := x.st != .running || x.clause.isNone || x.held

/-- The groups of a block have halted: none is inside a clause but at a suspension point or a fault, and their slices have
stopped (R330 steps 1 and 2). -/
def State.halted (s : State) (b : Nat) : Bool :=
  (s.blk b).gids.all fun g => ((s.grp g).clause.isNone || (s.grp g).heldAt) && (s.grp g).slice.rests

/-- Keep nothing of a run but the instructions it has issued (R278 steps 2 and 3): its blocks stop, no frame
is kept, no relaunch signal is sent, and what was issued is still to be performed, in issue order over all its groups, before the
blocks are gone. -/
def State.stopBlocks (s : State) (bs : List Nat) : State × List Todo :=
  let gids := bs.flatMap fun b => (s.blk b).gids
  let issued := sortBy (fun p => p.2) (gids.flatMap fun g => (s.grp g).out.map fun a => (g, a.id))
  let s := gids.foldl (fun s g => s.modGrp g fun x => { x with clause := none, cur := none, pend := [] }) s
  let s := bs.foldl (fun s b => s.modBlk b fun k => { k with frame := none, parkReq := none }) s
  (s, issued.map (fun p => Todo.perform p.1 p.2) ++ bs.map Todo.freeBlock)

/-- Stop a run (R278 step 2): at once if every group of it has halted, and else when the last has. -/
def State.stopRun (s : State) (bs : List Nat) (next : List Todo) : State × List Todo :=
  if bs.all s.halted then
    let r := s.stopBlocks bs
    (r.1, r.2 ++ next)
  else
    let s := bs.foldl (fun s b => s.modBlk b fun k => { k with stop := true, parkReq := none }) s
    ({ s with stops := s.stops ++ [{ blks := bs, kids := [], next := next }] }, [])

/-- The run of a task is being stopped, to be cancelled. -/
def State.cancelling (s : State) (t : TaskId) : Bool := s.stops.any fun p => p.next.contains (.cancelEnd t)

/-- Stop a task's run: its child grids end with status 0x101, and its blocks and theirs halt (R278, R287). -/
def State.stopTask (s : State) (t : TaskId) (next : List Todo) : State × List Todo :=
  let bs := s.runBlocks t
  ((s.taskGrids t).foldl (State.markEnded · 0x101) s).stopRun bs next

end Sys2Proof.Machine
end

