-- ==== Sys2Proof/Machine/Regs.lean ====
section
/-!
DEFINITION. The registers of a group: vectors of the base and extension sets (R11, R13, R16), scalars (R12, R15),
tokens (R39) and queue windows (R42), and the special registers (R19).
-/
namespace Sys2Proof.Machine

/-- Vector register `n` of a group: v0–v63 its own, v64–v191 its pair's (R16). -/
def State.vreg (s : State) (gid n : Nat) : VReg :=
  let g := s.grp gid
  if n < 64 then (Tbl.find g.vregs n).getD VReg.zero
  else
    let e := (Tbl.find (s.core (s.blk g.blk).core).ext g.pair).getD ExtPair.zero
    (Tbl.find e.regs n).getD VReg.zero

def State.setVreg (s : State) (gid n : Nat) (v : VReg) : State :=
  let g := s.grp gid
  if n < 64 then s.setGrp gid { g with vregs := Tbl.put g.vregs n v }
  else
    let c := (s.blk g.blk).core
    let e := (Tbl.find (s.core c).ext g.pair).getD ExtPair.zero
    s.modCore c fun k => { k with ext := Tbl.put k.ext g.pair { e with regs := Tbl.put e.regs n v } }

/-- One lane of a vector register, its tag kept (R163). -/
def State.setLane (s : State) (gid n L : Nat) (w : Word) : State :=
  let v := s.vreg gid n
  s.setVreg gid n { v with lanes := (List.range 64).map fun i => if i = L then w else v.lanes.at i }

def State.setTag (s : State) (gid n : Nat) (t : Tag) : State :=
  s.setVreg gid n { s.vreg gid n with tag := t }

/-- Scalar `n` of a group (R12). -/
def Group.sreg (g : Group) (n : Nat) : Word := (Tbl.find g.sregs n).getD 0
def Group.setSreg (g : Group) (n : Nat) (w : Word) : Group := { g with sregs := Tbl.put g.sregs n w }
def State.sreg (s : State) (gid n : Nat) : Word := (s.grp gid).sreg n
def State.setSreg (s : State) (gid n : Nat) (w : Word) : State := s.setGrp gid ((s.grp gid).setSreg n w)

/-- A scalar pair, low word in its first register (R12). -/
def State.spair (s : State) (gid n : Nat) : Dword := pairOf (s.sreg gid n) (s.sreg gid (n + 1))
def State.setSpair (s : State) (gid n : Nat) (x : Dword) : State :=
  (s.setSreg gid n (lowWord x)).setSreg gid (n + 1) (highWord x)

/-- Outstanding instructions that named a token (R39). -/
def Group.token (g : Group) (n : Nat) : Nat := (Tbl.find g.tokens n).getD 0
def Group.addToken (g : Group) (n : BitVec 4) : Group :=
  if n == 0 then g else { g with tokens := Tbl.put g.tokens n.toNat (g.token n.toNat + 1) }
def Group.subToken (g : Group) (n : BitVec 4) : Group :=
  if n == 0 then g else { g with tokens := Tbl.put g.tokens n.toNat (g.token n.toNat - 1) }
/-- Every token of the group is clear (R63). -/
def Group.allClear (g : Group) : Bool := g.tokens.all fun t => t.2 == 0

/-- The entries of a queue window, oldest first (R224). -/
def Group.queue (g : Group) (q : Nat) : List QEntry := (Tbl.find g.queues q).getD []

/-- The lock of R16 is the group's. -/
def State.holdsLock (s : State) (gid : Nat) : Bool :=
  let g := s.grp gid
  ((Tbl.find (s.core (s.coreOf gid)).ext g.pair).getD ExtPair.zero).holder == some gid

/-- The 1 GHz timebase (R20). -/
def State.timebase (s : State) : Dword := BitVec.ofNat 64 s.time

/-- The clk count of a core since device reset (R350): 2,100 MHz less 25 MHz for each derating step (R388). -/
def State.clk (s : State) (core : Nat) : Nat := ((s.time - s.resetAt) * 2100 - (s.core core).clkLost) / 1000

/-- A uniform special register's value (R19); `$clocklo` and `$clockhi` follow R20, from the timebase captured in
the clause. -/
def State.special (s : State) (gid : Nat) (r : Special) : Word :=
  let g := s.grp gid
  let k := s.blk g.blk
  let n : Nat := match r with
    | .lane | .tid => 0
    | .group => g.idx
    | .ngroups => k.record.groups
    | .blockx => k.bx
    | .blocky => k.by'
    | .blockz => k.bz
    | .gridx => k.record.gridx
    | .gridy => k.record.gridy
    | .gridz => k.record.gridz
    | .stook => k.sidx
    | .core => k.core
    | .die => dieOf k.core
    | .task => k.task
    | .grade => (s.effGrade gid).toNat
    | .job => k.job
    | .clocklo => s.time
    | .clockhi =>
      (match g.clause with
       | some c => match c.cap with
         | some t => (highWord t).toNat
         | none => s.time / 2 ^ 32
       | none => s.time / 2 ^ 32)
    | .arglo => (lowWord k.record.args).toNat
    | .arghi => (highWord k.record.args).toNat
    | .depth => k.depth
    | .chip => match s.job? k.job with
      | some j => j.spec.chip
      | none => 0
  BitVec.ofNat 32 n

/-- A special register in lane `L` (R19). -/
def State.specialLane (s : State) (gid : Nat) (r : Special) (L : Nat) : Word :=
  match r with
  | .lane => BitVec.ofNat 32 L
  | .tid => BitVec.ofNat 32 ((s.grp gid).idx * 64 + L)
  | _ => s.special gid r

/-- The private stack of a block lies in [base, base + size) (R311). -/
def State.stackOf (s : State) (b : Nat) : Nat × Nat :=
  let k := s.blk b
  let n := k.record.groups * 64 * k.record.stksz
  (k.record.stkbase.toNat + k.lin * n, n)

/-- The bytes lie in the private stack of the group's block (R311). -/
def State.inStack (s : State) (gid va n : Nat) : Bool :=
  let k := s.stackOf (s.grp gid).blk
  decide (k.1 ≤ va) && decide (va + n ≤ k.1 + k.2)

end Sys2Proof.Machine
end

