-- ==== Sys2Proof/Machine/Perform.lean ====
section
/-!
DEFINITION. Performing memory accesses (R148 to R179): what one lane of an outstanding instruction does at the
moment it is performed, when that moment may come (R150, R161, R165, R183 to R191, R292, R361), and the write-combining
buffer (R356 to R358).
-/
namespace Sys2Proof

/-- Wider than block: stook, die, device, job, system (R150). -/
def Scope.wide : Scope → Bool
  | .thr | .grp | .blk => false
  | _ => true

/-- Job or system scope (R361). -/
def Scope.far : Scope → Bool
  | .job | .sys => true
  | _ => false

/-- A posted packet: a write, a reduction, a graded write or a notice (R363). -/
def Packet.posted (p : Packet) : Bool := decide (p.kind.toNat ≤ 4)

end Sys2Proof

namespace Sys2Proof.Machine

/-! ### Formats -/

/-- Bytes of an access (R53). -/
def fmtSize : MFmt → Nat
  | .b8 => 1
  | .b16 => 2
  | .b64 => 8
  | .b128 => 16
  | _ => 4

/-- Registers of the data operand (R53). -/
def fmtRegs : MFmt → Nat
  | .b64 => 2
  | .b128 => 4
  | _ => 1

/-- The tag a load gives (R53). -/
def fmtTag : MFmt → Tag
  | .i32 => .i32
  | .f32 => .f32
  | .bf16x2 => .bf16x2
  | .f16x2 => .f16x2
  | .d8x4 => .d8x4
  | .i8x4 => .i8x4
  | .c8x4 => .c8x4
  | .s8x4 => .s8x4
  | _ => .b32

/-- The tag a typed store or operand demands beside B32 (R163); none for the raw formats. -/
def fmtWant : MFmt → Option Tag
  | .b8 => none
  | .b16 => none
  | .b32 => none
  | .b64 => none
  | .b128 => none
  | f => some (fmtTag f)

/-! ### The core's own copies -/

/-- Words a core has just read or written at the home are not older in its L1 afterwards (R183). -/
def State.l1Patch (s : State) (core loc n : Nat) : State :=
  let line := lineOf loc
  let m := wordMask loc n
  match Tbl.find (s.core core).l1 line with
  | none => s
  | some l =>
    s.modCore core fun c => { c with
      l1 := Tbl.put c.l1 line { l with
        words := (List.range 32).map fun i =>
          if m.getLsbD i then BitVec.ofNat 32 (Memory.read s.mem (128 * line + 4 * i) 4) else lineWord l.words i } }

/-- Read at the home. -/
def State.readHome (s : State) (core loc n : Nat) : Nat × State := (s.homeRead loc n, s.l1Patch core loc n)

/-- Read at the home, and fill the line as a load does (R147, R189). -/
def State.readFill (s : State) (core gid loc n prio : Nat) : Nat × State :=
  if prio == 0 then s.readHome core loc n
  else (s.homeRead loc n, (s.l1Touch core gid (lineOf loc) prio).l1Refresh core (lineOf loc))

/-- Read through the L1: a copy that is valid there, and else the home, which fills the line (R147, R156, R185); at
priority 0, at the home. -/
def State.readL1 (s : State) (core gid loc n prio : Nat) : Nat × State :=
  match (if prio == 0 then none else s.l1Read core loc n) with
  | some v => (v, s.l1Touch core gid (lineOf loc) prio)
  | none => s.readFill core gid loc n prio

/-- `ldc` reads the copy it keeps, or makes one (R169): bytes stored since are each old or new. It makes one by a read at the home,
never from an older copy of an ordinary load (DESIGN CHOICE, log entry 101). -/
def State.readConst (s : State) (core gid loc n prio : Nat) : Nat × State :=
  let line := lineOf loc
  match Tbl.find (s.core core).ldc line with
  | some ws =>
    let old := (ws.foldr (fun (w : Word) acc => w.toNat + 2 ^ 32 * acc) 0) / 2 ^ (8 * (loc % 128))
    let new := s.homeRead loc n
    let v := (List.range n).foldl (fun v i =>
      let b := if Config.freeBit (s.freeCount + i) then old else new
      v + b / 256 ^ i % 256 * 256 ^ i) 0
    -- a hit: the line is used and touched (R156, R322)
    let s := if (Tbl.find (s.core core).l1 line).isSome then s.l1Touch core gid line prio
      else s.modGrp gid fun g => { g with touched := g.touch line }
    (v, s.useFree n)
  | none =>
    let v := s.homeRead loc n
    let s := s.l1Touch core gid line prio
    (v, if prio == 0 then s else s.modCore core fun c => { c with ldc := Tbl.put c.ldc line (s.memLine line) })

/-! ### Write combining (R356 to R358) -/

/-- The chip number of this device in a job (R354). -/
def State.chip (s : State) (job : Nat) : Nat :=
  match s.job? job with
  | some j => j.spec.chip
  | none => 0

/-- A packet enters the port: it takes the colour in use (R365) and the next injection number. -/
def State.inject (s : State) (p : Packet) : State :=
  { s with fabric := { s.fabric with
      sent := s.fabric.sent + 1,
      outward := s.fabric.outward ++ [{ p with colour := s.fabric.colour, serial := s.fabric.sent }] } }

/-- The panel tag of a job, and the job of this device that a tag names (R363). -/
def State.jtag (s : State) (job : Nat) : Nat :=
  match s.job? job with
  | some j => j.spec.jtag
  | none => 0
def State.tagJob (s : State) (jtag : Nat) : Option Nat := (s.jobs.find? fun j => j.2.spec.jtag == jtag).map fun j => j.1

/-- Threads of a group, as packets and entries name them, and those of its Reaper. -/
def threadsOf (gid : Nat) (m : Dword) : List Nat := (lanesOf m).map (128 * gid + ·)
def reaperOf (gid : Nat) : List Nat := [128 * gid + 64]

/-- A packet of a job of this device. -/
def State.packet (s : State) (dst job : Nat) (kind : BitVec 4) (rlx : Bool) (addr : Nat) (bytes : List (Nat × Byte))
    (threads : List Nat) : Packet :=
  { dst := dst, src := s.chip job, jtag := s.jtag job, kind := kind, rlx := rlx, grade := 0, addr := BitVec.ofNat 64 addr,
    bytes := bytes, redOp := 0, redFmt := .b32, threads := threads, acc := 0, task := 0 }

/-- The packets of a closed entry: a full line whole, else for each 64-byte half that holds written bytes one write with its fully
written words, if any, then each partly written word as a sub-word write, in ascending address order (R357). -/
def State.entryPackets (s : State) (e : WcbEntry) : List Packet :=
  let mk := fun (kind : BitVec 4) (addr : Nat) (bs : Memory) => s.packet e.chip e.job kind (!e.ordered) addr bs e.threads
  if e.bytes.length == 128 then [mk 0 (128 * e.line) e.bytes]
  else
    let word := fun i => e.bytes.filter fun b => b.1 / 4 == 32 * e.line + i
    let full := fun i => (word i).length == 4
    let halves := [0, 1].filterMap fun h =>
      let bs := ((List.range 16).map (· + 16 * h)).flatMap fun i => if full i then word i else []
      if e.bytes.any fun b => b.1 / 64 % 2 == h then some (mk 0 (128 * e.line + 64 * h) bs) else none
    let subs := (List.range 32).filterMap fun i =>
      if (word i).isEmpty || full i then none else some (mk 1 (128 * e.line + 4 * i) (word i))
    halves ++ subs

/-- Close the entries of a core that satisfy a test, in the order they opened, and send them (R357). -/
def State.closeEntries (s : State) (core : Nat) (p : WcbEntry → Bool) : State :=
  let es := (s.core core).wcb
  let s := (es.filter p).foldl (fun s e => (s.entryPackets e).foldl State.inject s) s
  s.modCore core fun c => { c with wcb := c.wcb.filter fun e => !p e }

/-- The key of an entry (R356), for a job. -/
def WcbEntry.at' (e : WcbEntry) (job chip line : Nat) : Bool := e.job == job && e.chip == chip && e.line == line

/-- The bytes a remote store writes also go into a copy of the line on its core (R355). -/
def State.l1Bytes (s : State) (core job chip line : Nat) (bytes : Memory) : State :=
  let key := lineOf (chipBase job chip) + line
  match Tbl.find (s.core core).l1 key with
  | none => s
  | some l => s.modCore core fun c => { c with
      l1 := Tbl.put c.l1 key { l with
        words := (List.range 32).map fun i =>
          let w := (lineWord l.words i).toNat
          BitVec.ofNat 32 ((List.range 4).foldl (fun acc j =>
            let b := match Tbl.find bytes (128 * line + 4 * i + j) with
              | some b => b.toNat
              | none => w / 256 ^ j % 256
            acc + b * 256 ^ j) 0) } }

/-- What one lane, or the Reaper, writes in a line of a peer's memory: bytes by virtual address, and the threads. -/
structure FarWrite where
  chip : Nat
  line : Nat
  bytes : Memory
  threads : List Nat
  deriving DecidableEq, Repr

/-- One such write enters the buffer: it merges, or opens an entry, for which the oldest makes room; a full entry is closed
(R356, R357). -/
def State.wcbMerge (s : State) (core job : Nat) (rlx : Bool) (w : FarWrite) : State :=
  let mine := fun (e : WcbEntry) => e.at' job w.chip w.line
  let add := fun (m : Memory) => w.bytes.foldl (fun t b => Tbl.put t b.1 b.2) m
  let s :=
    if (s.core core).wcb.any mine then
      s.modCore core fun c => { c with
        wcb := c.wcb.map fun e =>
          if mine e then
            { e with bytes := add e.bytes, ordered := e.ordered || !rlx,
                     threads := e.threads ++ w.threads.filter fun t => !e.threads.contains t }
          else e }
    else
      let s := match (s.core core).wcb with
        | e :: t => if t.length + 1 == 64 then s.closeEntries core (· == e) else s
        | [] => s
      s.modCore core fun c => { c with
        wcb := c.wcb ++ [{ job := job, chip := w.chip, line := w.line, bytes := add [], ordered := !rlx, threads := w.threads,
                           opened := s.time }] }
  (s.l1Bytes core job w.chip w.line w.bytes).closeEntries core fun e => mine e && e.bytes.length == 128

/-- The writes of a remote store enter the buffer one after another. One that is not relaxed first closes every open entry of its
core and targets but those it merges into, newer ones too (R357; R358 names the older ones, R362 needs all: log entry 91), and at
the end its own. -/
def State.wcbStore (s : State) (core job : Nat) (rlx : Bool) (ws : List FarWrite) : State :=
  let own := fun (e : WcbEntry) => ws.any fun w => e.at' job w.chip w.line
  let s := if rlx then s
    else s.closeEntries core fun e => e.job == job && (ws.any fun w => e.chip == w.chip) && !(own e)
  let s := ws.foldl (fun (s : State) w => s.wcbMerge core job rlx w) s
  if rlx then s else s.closeEntries core own

/-! ### Scratchpad -/

/-- A write to a scratchpad range that table sets of the core were built from makes them stale (R240). -/
def State.staleSets (s : State) (b off n : Nat) : State :=
  let c := (s.blk b).core
  if (s.core c).thr.holder == some b then
    s.modCore c fun k => { k with thr := { k.thr with
      sets := k.thr.sets.map fun x =>
        if decide (x.2.base % 2 ^ 24 < off + n) && decide (off < x.2.base % 2 ^ 24 + x.2.len) then (x.1, { x.2 with valid := false })
        else x } }
  else s

/-- Write bytes of a block's scratchpad. -/
def State.scratchWrite (s : State) (b off n v : Nat) : State :=
  (s.modBlk b fun k => { k with scratch := Memory.write k.scratch off n v }).staleSets b off n

/-- A scratchpad location as an access keeps it: block and offset. -/
def scratchLoc (b off : Nat) : Nat := b * 2 ^ 24 + off
def locBlock (x : Nat) : Nat := x / 2 ^ 24
def locOff (x : Nat) : Nat := x % 2 ^ 24

/-- Late changes, by number, that the sequencer's reads are ordered after once they are ordered after the bytes `seen` and the
changes `covered`: of a word, which is read whole, those and each change before one of them that shares a byte with it (R188, R242). -/
def Block.orderedBefore (k : Block) (seen : Nat → Bool) (covered : Late → Bool) : List Nat :=
  ((k.late.map fun x => x.no).eraseDups.foldr (fun no (r : List Nat × List Nat) =>
    let xs := k.late.filter fun x => x.no == no
    if xs.any fun x => covered x || seen x.off || r.1.contains x.off then (r.1 ++ xs.map (fun x => x.off), r.2 ++ [no]) else r)
    ([], [])).2

def Block.orderAfter (k : Block) (seen : Nat → Bool) (covered : Late → Bool) : Block :=
  let gone := k.orderedBefore seen covered
  { k with late := k.late.filter fun x => !(gone.contains x.no) }

/-- A change of a word's bytes by the thread that made the last change of every one of them, where nothing is ordered after that: it
adds no old value. -/
def Block.lateOwn (k : Block) (who : Nat) (offs : List Nat) : Bool :=
  let last := fun (off : Nat) => (k.late.filter fun x => x.off == off).getLast?
  match (offs.head?).bind last with
  | some y => y.who == who && (k.late.filter fun x => x.no == y.no).all (fun x => x.known.isEmpty && offs.contains x.off) &&
      offs.all fun off => (last off).map (fun x => x.no) == some y.no
  | none => false

/-- A thread's `sts` to the scratchpad of a block that may reserve the Thresher keeps the old bytes, which the sequencer may
still read, word by word (R242). -/
def State.keepLate (s : State) (who loc n : Nat) : State :=
  let b := locBlock loc
  if (s.blk b).record.thr then
    (List.range ((n + 3) / 4)).foldl (fun (s : State) w => s.modBlk b fun k =>
      let offs := (List.range (min 4 n)).map fun i => locOff loc + 4 * w + i
      if k.lateOwn who offs then k
      else { k with
        late := k.late ++ offs.map fun off =>
          { no := k.lateNo, who := who, off := off, was := k.scratch.byte off, known := [] },
        lateNo := k.lateNo + 1 }) s
  else s

/-- The late changes of the scratchpads of a block's stook change. -/
def State.mapLates (s : State) (b : Nat) (f : Late → Late) : State :=
  (s.stk (s.blk b).stook).members.foldl (fun (s : State) m =>
    if (s.blk m).late.isEmpty then s else s.modBlk m fun k => { k with late := k.late.map f }) s

/-- The sequencer sees bytes that a copy or the stream writes, and with them what stands before them there (R146, R232, R242). -/
def State.dropLate (s : State) (loc n : Nat) : State :=
  if (s.blk (locBlock loc)).late.isEmpty then s
  else s.modBlk (locBlock loc) fun k =>
    k.orderAfter (fun off => decide (locOff loc ≤ off) && decide (off < locOff loc + n)) fun _ => false

def State.scratchRead (s : State) (b off n : Nat) : Nat := Memory.read (s.blk b).scratch off n

/-! ### What one lane does -/

/-- The access reads memory (R184). -/
def AccOp.reads : AccOp → Bool
  | .load _ | .loadConst _ | .loadWait _ | .atom _ _ _ | .cas _ | .sload _ => true
  | _ => false

/-- The access makes a write visible. -/
def AccOp.writes : AccOp → Bool
  | .store | .atom _ _ _ | .cas _ | .red _ _ | .cred | .sstore => true
  | _ => false

/-- A store, `red`, `cred` or atomic (R292, R218). -/
def AccOp.storeLike : AccOp → Bool
  | .store | .atom _ _ _ | .cas _ | .red _ _ | .cred => true
  | _ => false

def AccOp.perLane : AccOp → Bool
  | .load _ | .loadConst _ | .loadWait _ | .store | .atom _ _ _ | .cas _ | .red _ _ | .cred
  | .sload _ | .sstore => true
  | _ => false

def Acc.addrOf (a : Acc) (L : Nat) : Nat := a.addr.getD L 0
def Acc.vaOf (a : Acc) (L : Nat) : Dword := a.va.getD L 0
def Acc.dataOf (a : Acc) (L : Nat) : Nat := (a.data.getD L 0).toNat
def Acc.data2Of (a : Acc) (L : Nat) : Nat := (a.data2.getD L 0).toNat

/-- Lanes still to be performed. -/
def Acc.left (a : Acc) : Dword := a.act &&& ~~~a.done

def Acc.acquires (a : Acc) : Bool := a.ord == .acq || a.ord == .ar
def Acc.releases (a : Acc) : Bool := a.ord == .rel || a.ord == .ar

def AccOp.scratch : AccOp → Bool
  | .sload _ | .sstore => true
  | _ => false

/-- A pop of a Binder queue is an acquire for the threads that issue it (R292). -/
def AccOp.pops : AccOp → Bool
  | .qpop _ _ | .qpopw _ => true
  | _ => false

/-- A remote access is relaxed (R359). -/
def Acc.relaxed (a : Acc) (graded : Bool) : Bool :=
  !graded && a.ord == .pl && (!a.scope.wide || a.scope == .stk) &&
    match a.op with
    | .load _ | .loadWait _ | .store | .red _ _ => true
    | _ => false

/-- The thread that issued lane `L` of an instruction of group `gid`, by where it stands now (R132): 128 × its group, and its
lane. -/
def Acc.thread (a : Acc) (gid L : Nat) : Nat := (Tbl.find a.who L).getD (128 * gid + L)

/-- The part of an instruction of group `h` that threads of group `gid` issued, under the lanes where they stand now; an instruction
whose threads have not moved stays whole. -/
def Acc.partOf (a : Acc) (h gid : Nat) : Option Acc :=
  if a.who.isEmpty then (if h == gid then some a else none)
  else
    let was := fun M => (lanesOf a.act).find? fun L => a.thread h L == 128 * gid + M
    let mask := fun (x : Dword) => maskOf fun M => ((was M).map (inMask x)).getD false
    let lanes := fun {α : Type} (f : Nat → α) (z : α) => (List.range 64).map fun M => ((was M).map f).getD z
    if mask a.act == 0 then none
    else some { a with
      act := mask a.act, done := mask a.done, finalOnly := mask a.finalOnly, addr := lanes a.addrOf 0, va := lanes a.vaOf 0,
      data := lanes (fun L => a.data.getD L 0) 0, data2 := lanes (fun L => a.data2.getD L 0) 0, got := [], who := [] }

/-- What the threads of a group have outstanding: the group's own instructions, and those that its threads issued where they stood
before a `reorder` (R131). -/
def State.accsOf (s : State) (gid : Nat) : List Acc :=
  (s.groups.flatMap fun h => (h.2.out.filter fun a => !a.who.isEmpty).filterMap fun a => a.partOf h.1 gid) ++
    (s.grp gid).out.filter fun a => a.who.isEmpty

/-- Those of them that were issued before instruction `id`. -/
def State.accsBefore (s : State) (gid id : Nat) : List Acc := (s.accsOf gid).filter fun b => decide (b.id < id)

/-- Lane `L` reads at the home, never an older L1 copy (R189): an atomic, a wide acquire, or any load of a thread that has
passed a wide acquire fence. -/
def Group.readsHome (g : Group) (a : Acc) (L : Nat) : Bool :=
  match a.op with
  | .atom _ _ _ | .cas _ => true
  | .load _ | .loadWait _ => (a.acquires && a.scope.wide) || inMask g.fenced L
  | _ => false

/-- Lanes of `a` whose graded stores wait in their lines' queues (R273). -/
def State.queuedLanes (s : State) (a : Acc) : Dword :=
  let mine := s.gstores.filter fun x => x.acc == a.id
  if mine.isEmpty then 0
  else maskOf fun L => inMask a.act L && mine.any fun x => x.line == lineOf (a.addrOf L)

/-- Lanes of `a` that are still to be performed, graded stores by their classification (R166, R267). -/
def State.undone (s : State) (a : Acc) : Dword := if a.op.perLane then a.left ||| s.queuedLanes a else 0

/-- Two lanes' accesses touch a common location. -/
def overlap (x n y m : Nat) : Bool := decide (x < y + m) && decide (y < x + n)

/-- A read or atomic of a peer's memory may be performed there, and answered (R360): the posted packets injected before it for
its target are performed, but those of other lines if it is relaxed, and so are the target's own, which its completion
follows. -/
def State.fabricOpen (s : State) (job chip va : Nat) (rlx : Bool) : Bool :=
  (s.fabric.outward.all fun p =>
    p.jtag != s.jtag job || p.dst != chip || !p.posted || (rlx && lineOf p.addr.toNat != lineOf va)) &&
  s.fabric.inward.all fun p => p.jtag != s.jtag job || p.src != chip || !p.posted

/-- An instruction would reach memory that a die's warm reset holds: its cluster is held at it (R337, R387). -/
def State.resetHolds (s : State) (gid : Nat) (a : Acc) : Bool :=
  let die := dieOf (s.coreOf gid)
  !a.op.scratch &&
    if a.op.perLane then (lanesOf a.act).any fun L => s.heldByReset die (a.addrOf L) else a.addr.any (s.heldByReset die)

/-- Lane `L` of `a` need not wait for an instruction `b` that its group issued before: own locations keep program order
(R183), writes follow the thread's earlier loads (R184), releases and acquires order as R187, R191 and R292 say, reads at
homes are made in program order (R189), a remote write that is not relaxed follows every remote write of its group's earlier
instructions to its target (R358, R379; log entry 91), and a graded store counts as performed once it is classified (R267). -/
def State.mayFollow (s : State) (gid : Nat) (b a : Acc) (L : Nat) : Bool :=
  let g := s.grp gid
  let common := b.op.scratch == a.op.scratch && overlap (a.addrOf L) (fmtSize a.fmt) (b.addrOf L) (fmtSize b.fmt)
  let line := lineOf (a.addrOf L) == lineOf (b.addrOf L)
  let posts := fun (o : AccOp) => match o with
    | .store | .red _ _ => true
    | _ => false
  let graded := (s.gradedAt (s.jobOf gid) (a.vaOf L).toNat).isSome
  let behind := posts a.op && isRemote (a.addrOf L) && !(a.relaxed graded) && posts b.op &&
    (lanesOf b.left).any fun M => isRemote (b.addrOf M) && chipOf (b.addrOf M) == chipOf (a.addrOf L)
  !behind &&
  (!(b.op.perLane && inMask b.left L) ||
    (!common && !(a.op.writes && b.op.reads) && !b.acquires && !a.releases && !(g.readsHome b L && g.readsHome a L))) &&
  (!(inMask (s.queuedLanes b) L) || (!a.releases && (a.op == .store || a.op.scratch || !line))) &&
  !(b.op.pops && b.got.isEmpty && inMask b.act L)

/-- Whether lane `L` of `a` may be performed now: given the group's instructions issued before it, the order of the fabric
(R360), the die it goes to (R387), and that a job being switched out makes no remote access (R370). A full list holds back a graded
store to a peer's line as the home does here (R276). The order is that of the thread
that issued the lane, wherever it stands now (R132). An abandoned instruction is
not performed before a restore issues it again (R333). The lanes of one instruction follow each other as Acc.unit says. -/
def State.mayPerform (s : State) (gid : Nat) (a : Acc) (L : Nat) : Bool :=
  let loc := a.addrOf L
  let job := s.jobOf gid
  let t := a.thread gid L
  let mine := (a.partOf gid (t / 128)).getD a
  a.st != .abandoned &&
    (if a.who.isEmpty then (s.accsBefore gid a.id).all fun b => s.mayFollow gid b a L
     else (s.accsBefore (t / 128) a.id).all fun b => s.mayFollow (t / 128) b mine (t % 128)) &&
    !(a.op == .store && isRemote loc && (s.gradedAt job (a.vaOf L).toNat).isSome && s.listBars (s.grpTask gid) (a.vaOf L).toNat) &&
    (a.op.scratch ||
      (!(s.heldByReset (dieOf (s.coreOf gid)) loc) && (!(isRemote loc) || s.jobRuns job) &&
        (!(isRemote loc) || !a.op.reads ||
          s.fabricOpen job (chipOf loc) (loc % 2 ^ 64) (a.relaxed (s.gradedAt job (a.vaOf L).toNat).isSome))))

/-- The targets of the remote writes of some threads that have not been performed there (R361): injected packets, and records
swept at a job switch (R370). -/
def State.unsentBy (s : State) (p : Nat → Bool) : List Nat :=
  let swept := s.jobs.flatMap fun j => (j.2.sealedRecs ++ j.2.overflow).map fun r => r.pkt
  ((s.fabric.outward ++ swept).filter fun q => q.threads.any p).map fun q => q.dst

/-- The targets of the open entries of a core that hold a store of some threads (R356, R361). -/
def State.unclosedBy (s : State) (core : Nat) (p : Nat → Bool) : List Nat :=
  ((s.core core).wcb.filter fun e => e.threads.any p).map fun e => e.chip

/-- A thread is the group's, its Reaper among them; or one of the given lanes of it, or its Reaper, whose writes are the group's
(R219). -/
def ofGroup (gid t : Nat) : Bool := t / 128 == gid
def ofLanes (gid : Nat) (m : Dword) (t : Nat) : Bool := t / 128 == gid && (t % 128 == 64 || inMask m (t % 128))

def State.unsent (s : State) (gid : Nat) : List Nat := s.unsentBy (ofGroup gid)
def State.unclosed (s : State) (gid : Nat) : List Nat := s.unclosedBy (s.coreOf gid) (ofGroup gid)

/-- A boundary fault becomes pending for a group; the first stands (R342). -/
def State.boundary (s : State) (gid : Nat) (f : Flt) : State :=
  s.modGrp gid fun g => if g.bfault.isSome then g else { g with bfault := some f }

/-- Data that poisoned memory gives raises ecc-uncorrectable at the group's boundary (R342). -/
def State.poisonCheck (s : State) (gid L loc : Nat) (va : Dword) : State :=
  if s.poison.contains (lineOf loc) then s.boundary gid { code := 0x1B, info := 0, lane := L, addr := va } else s

def State.modAcc (s : State) (gid id : Nat) (f : Acc → Acc) : State :=
  s.modGrp gid fun g => { g with out := g.out.map fun a => if a.id == id then f a else a }

/-- The access is an `ldw`, whose reads repeat as stores reach the home (R170): a copy that still holds the value to compare
is passed over. -/
def Acc.isWait (a : Acc) : Bool := match a.op with | .loadWait _ => true | _ => false

/-- The least grade that a lane of a load takes (R269, R270). -/
def State.leastGrade (s : State) (gid : Nat) (a : Acc) (L : Nat) : Grade :=
  match s.grpTask gid with
  | some _ => if a.grade == 0 || inMask a.finalOnly L then 3 else a.grade
  | none => 3

/-- One lane of a load reads its value, or waits: on a grade (R269, R270), which is final from then on for a lane that finds the
subscription table full (R269). -/
def State.readLane (s : State) (gid : Nat) (a : Acc) (L : Nat) (whole : Bool) : Option Nat × State :=
  let core := s.coreOf gid
  let job := s.jobOf gid
  let loc := a.addrOf L
  let va := a.vaOf L
  let n := fmtSize a.fmt
  let line := lineOf loc
  let got := fun (r : Nat × State) => (some r.1, r.2)
  match s.gradedAt job va.toNat with
  | some _ =>
    match s.l1Read core loc n with
    | some v => (some v, s.l1Touch core gid line a.evict.toNat)
    | none =>
      let gr := s.lineGrade line
      if gr.toNat < (s.leastGrade gid a L).toNat then (none, s)
      else if gr == 3 then
        (some (s.homeRead loc n), (s.l1Touch core gid line a.evict.toNat).l1Refresh core line)
      else match s.grpTask gid with
        | none => (none, s)
        | some t =>
          if s.binderHeld then (none, s)
          else if isRemote loc then
            let keep := s.remoteSubs.filter fun x => !(x.1 == t && x.2.1 == line)
            (some (s.homeRead loc n), ({ s with remoteSubs := keep ++ [(t, line, gr)] }).syncCounts t)
          else if (s.subOf t line).isNone && subLimit ≤ s.subsOn (s.homeDie loc) then
            (none, s.modAcc gid a.id fun b => { b with finalOnly := b.finalOnly ||| (1#64 <<< L) })
          else (some (s.homeRead loc n), s.subscribe t line gr)
  | none =>
    match s.commAt job va.toNat with
    | some r =>
      let s := s.combiningRead r line
      got (s.readHome core loc n)
    | none =>
      if (match a.op with | .loadConst _ => true | _ => false) then
        got (s.readConst core gid loc n a.evict.toNat)
      else if whole || (s.grp gid).readsHome a L || (a.isWait && s.l1Read core loc n == some (a.data2Of L % 256 ^ n)) then
        got (s.readFill core gid loc n a.evict.toNat)
      else got (s.readL1 core gid loc n a.evict.toNat)

/-- Register `i` of a lane's loaded value lands (R53, R162). -/
def State.landReg (s : State) (gid : Nat) (d : Dst) (L i : Nat) (w : Word) : State :=
  match d with
  | .v n => s.setLane gid (n.toNat + i) L w
  | .s n => s.setSreg gid (n.toNat + i) w

/-- A lane's loaded value goes to its destination registers (R53, R162); of a lane that the event does not name (`slow`), each
register lands now or later (R40). -/
def State.placeLane (s : State) (gid : Nat) (a : Acc) (d : Dst) (L v : Nat) (slow : Bool) : State :=
  let lands := match d with
    | .v _ => true
    | .s _ => L == lowestLane a.act
  if a.nw || !lands then s
  else (List.range (fmtRegs a.fmt)).foldl (fun (s : State) i =>
    let w := BitVec.ofNat 32 (v / 2 ^ (32 * i))
    if slow then
      (if s.free then s.landReg gid d L i w else s.modAcc gid a.id fun b => { b with got := Tbl.put b.got (4 * L + i) w }).useFree 1
    else s.landReg gid d L i w) s

/-- A write of one lane to local or host memory: registered under the core (R148), or at the home at priority 0 (R156), or sent
to the host (R149). R165 guarantees less for a 128-bit lane and for overlapping accesses of different sizes: a lane's access is
performed whole all the same (log entry 79). -/
def State.storeLane (s : State) (gid : Nat) (a : Acc) (L v : Nat) : State :=
  let core := s.coreOf gid
  let loc := a.addrOf L
  let n := fmtSize a.fmt
  if isLocal loc then
    let s := s.countWrite core loc
    if a.evict == 0 then (s.homeWrite loc n v).l1Patch core loc n
    else (s.l1Touch core gid (lineOf loc) a.evict.toNat).coreWrite core loc n v
  else ({ s with mem := Memory.write s.mem loc n v }).l1Patch core loc n

/-- The bytes that some lanes of a store write, by virtual address; the higher lane's remain (R161). -/
def Acc.bytes (a : Acc) (ls : List Nat) : Memory :=
  ls.foldl (fun m L => (List.range (fmtSize a.fmt)).foldl (fun m i =>
    Tbl.put m (a.addrOf L % 2 ^ 64 + i) (BitVec.ofNat 8 (a.dataOf L / 256 ^ i))) m) []

/-- The lanes of a store that lie in one graded line of a peer's memory are one graded write, which is not relaxed (R273, R359,
R369); the store is over when it is classified there (R273). -/
def State.sendGraded (s : State) (gid : Nat) (a : Acc) (ls : List Nat) : State :=
  let core := s.coreOf gid
  let job := s.jobOf gid
  let L := ls.headD 0
  let chip := chipOf (a.addrOf L)
  let va := (a.vaOf L).toNat
  let t := s.grpTask gid
  let st : Grade := if a.grade == 0 then 3 else a.grade
  let gr := s.storeGrade t va st
  -- only of a run that is being discarded may the list still hold it back
  if s.listBars t va then s
  else
  let s := match t with
    | some t => s.listOut t va false st
    | none => s
  let s := s.closeEntries core fun e => e.job == job && e.chip == chip
  s.inject { s.packet chip job 3 false (128 * lineOf (a.addrOf L % 2 ^ 64)) (a.bytes ls) (ls.map (a.thread gid)) with
    grade := gr, acc := a.id, task := match t with
      | some t => t.rec'
      | none => 0 }

/-- Lanes of a store that go to peers, in lane order (R356): graded lines as graded writes, and the others into the
write-combining buffer. -/
def State.sendLanes (s : State) (gid : Nat) (a : Acc) (ls : List Nat) : State :=
  let graded := fun L => (s.gradedAt (s.jobOf gid) (a.vaOf L).toNat).isSome
  let plain := ls.filter fun L => !graded L
  let s := if plain.isEmpty then s
    else s.wcbStore (s.coreOf gid) (s.jobOf gid) (a.relaxed false) (plain.map fun L =>
      { chip := chipOf (a.addrOf L), line := lineOf (a.addrOf L % 2 ^ 64), bytes := a.bytes [L], threads := [a.thread gid L] })
  let far := ls.filter graded
  ((far.map fun L => lineOf (a.addrOf L)).eraseDups).foldl (fun (s : State) l =>
    s.sendGraded gid a (far.filter fun L => lineOf (a.addrOf L) == l)) s

/-- Where an atomic is performed, and the contention predictor's count after it (R174). -/
def State.atomPlace (s : State) (core : Nat) (pl : Place) (loc n : Nat) : Bool × State :=
  let i := loc / 128 % 256
  let cnt := (Tbl.find (s.core core).pred i).getD 0
  let near := match pl with
    | .near => true
    | .home => false
    | .pred => decide (cnt ≤ 1)
  let m := wordMask loc n
  let regBy := fun (c : Core) => match Tbl.find c.l1 (lineOf loc) with
    | some l => l.reg &&& m != 0
    | none => false
  let own := regBy (s.core core)
  let other := s.cores.any fun c => c.1 != core && regBy c.2
  let cnt' := if near && other then min 3 (cnt + 1) else if near && own then cnt - 1 else cnt
  (near, s.modCore core fun c => { c with pred := Tbl.put c.pred i cnt' })

/-- An atomic leaves a value in its word: near it takes ownership as a store does, at home it does not (R174). A
compare-and-swap that fails writes nothing (`wrote`) and leaves the value it found. -/
def State.atomWrite (s : State) (gid : Nat) (pl : Place) (loc n v : Nat) (wrote : Bool) : State :=
  let core := s.coreOf gid
  if isLocal loc then
    let p := s.atomPlace core pl loc n
    let s := p.2.l1Touch core gid (lineOf loc) 3
    let s := if wrote then s.countWrite core loc else s
    if p.1 then s.coreWrite core loc n v else (s.homeWrite loc n v).l1Patch core loc n
  else ({ s with mem := Memory.write s.mem loc n v }).l1Patch core loc n

/-- A graded store of this group that reached its line's home together with others of its instruction and line
joins the line's queue (R273). -/
def State.queueGraded (s : State) (gid : Nat) (a : Acc) (L v : Nat) : State :=
  let loc := a.addrOf L
  let line := lineOf loc
  let bytes := (List.range (fmtSize a.fmt)).map fun i => (loc + i, BitVec.ofNat 8 (v / 256 ^ i))
  let add := fun (m : Memory) => bytes.foldl (fun m b => Tbl.put m b.1 b.2) m
  if s.gstores.any fun x => x.gid == gid && x.acc == a.id && x.line == line then
    { s with
      gstores := s.gstores.map fun (x : GStore) =>
        if x.gid == gid && x.acc == a.id && x.line == line then { x with bytes := add x.bytes } else x }
  else
    let t := (s.grpTask gid).getD { job := s.jobOf gid, rec' := 0 }
    let x : GStore :=
      { gid := gid, acc := a.id, task := t, line := line, va := BitVec.ofNat 64 ((a.vaOf L).toNat / 128 * 128),
        bytes := add [], stated := if a.grade == 0 then 3 else a.grade }
    { s with gstores := s.gstores ++ [x] }

/-- A wide acquire self-invalidates the core's L1 when it is performed (R150). -/
def State.acquired (s : State) (core : Nat) (a : Acc) : State :=
  if a.acquires && a.scope.wide then s.selfInvalidate core else s

/-- One lane of an outstanding instruction is performed, and whether it is then done: else it waits. A lane of `ldw` that
reads the value it compares has read, and reads again later (R170). `slow`: as State.placeLane says. -/
def State.performLane (s : State) (gid : Nat) (a : Acc) (L : Nat) (whole slow : Bool) : State × Bool :=
  let core := s.coreOf gid
  let job := s.jobOf gid
  let loc := a.addrOf L
  let n := fmtSize a.fmt
  match a.op with
  | .load d | .loadConst d =>
    match s.readLane gid a L whole with
    | (none, s) => (s, false)
    | (some v, s) => (((s.acquired core a).poisonCheck gid L loc (a.vaOf L)).placeLane gid a d L v slow, true)
  | .loadWait d =>
    match s.readLane gid a L whole with
    | (none, s) => (s, false)
    | (some v, s) =>
      let s := (s.acquired core a).poisonCheck gid L loc (a.vaOf L)
      if v == a.data2Of L % 256 ^ n then (s, false) else (s.placeLane gid a d L v slow, true)
  | .store =>
    if isRemote loc then (s.sendLanes gid a [L], true)
    else match s.gradedAt job (a.vaOf L).toNat with
      | some _ => (s.queueGraded gid a L (a.dataOf L), true)
      | none => (s.storeLane gid a L (a.dataOf L % 256 ^ n), true)
  | .atom op pl d =>
    let old := s.homeRead loc n
    let s := (s.poisonCheck gid L loc (a.vaOf L)).atomWrite gid pl loc n (atomNew op a.fmt old (a.dataOf L)) true
    ((s.acquired core a).placeLane gid a d L old slow, true)
  | .cas d =>
    let old := s.homeRead loc n
    let met := old == a.dataOf L % 256 ^ n
    let s := (s.poisonCheck gid L loc (a.vaOf L)).atomWrite gid .pred loc n (if met then a.data2Of L % 256 ^ n else old) met
    ((s.acquired core a).placeLane gid a d L old slow, true)
  | .red op pl =>
    if isRemote loc then
      -- a `red` closes its line's entry, and one that is not relaxed its target's (R356, R358)
      let s := s.closeEntries core fun e =>
        e.job == job && e.chip == chipOf loc && (e.line == lineOf (loc % 2 ^ 64) || !(a.relaxed false))
      let p := s.packet (chipOf loc) job 2 (a.relaxed false) (loc % 2 ^ 64) (a.bytes [L]) [a.thread gid L]
      (s.inject { p with
        redOp := BitVec.ofNat 3 (match op with
          | .add => 0 | .min => 1 | .max => 2 | .and => 3 | .or => 4 | .xor => 5 | .exch => 6 | .incw => 7),
        redFmt := a.fmt }, true)
    else (s.atomWrite gid pl loc n (atomNew op a.fmt (s.homeRead loc n) (a.dataOf L)) true, true)
  | .cred =>
    match s.commAt job (a.vaOf L).toNat with
    | some r =>
      let s := if s.spilled.contains (lineOf loc, core) then s else s.l1Touch core gid (lineOf loc) 3
      (s.credLane core r loc (BitVec.ofNat 32 (a.dataOf L)), true)
    | none => (s, true)
  | .sload d =>
    ((s.acquired core a).placeLane gid a d L (s.scratchRead (locBlock loc) (locOff loc) n) slow, true)
  | .sstore => ((s.keepLate (a.thread gid L) loc n).scratchWrite (locBlock loc) (locOff loc) n (a.dataOf L % 256 ^ n), true)
  | _ => (s, true)

/-! ### Whole instructions -/

/-- The lanes of an access that lie in lines whose every byte its active lanes together cover (R165). -/
def Acc.wholeLanes (a : Acc) : Dword :=
  match a.op with
  | .load _ | .store | .sload _ | .sstore =>
    let n := fmtSize a.fmt
    let full := fun line =>
      (List.range (128 / n)).all fun i => (lanesOf a.act).any fun L => a.addrOf L == 128 * line + n * i
    if popcount a.act * n < 128 then 0
    else maskOf fun L => inMask a.act L && full (lineOf (a.addrOf L))
  | _ => 0

/-- Two lanes of an access are parts of one event: lanes of a whole line (R165), lanes of one atomic, `red` or `cred` that name
one word, which follow each other with nothing between (R161), and a store's lanes to one line that is graded or a peer's
(R273, R356). -/
def Acc.joined (a : Acc) (whole : Dword) (byLine : Nat → Bool) (i j : Nat) : Bool :=
  let line := lineOf (a.addrOf i) == lineOf (a.addrOf j)
  match a.op with
  | .atom _ _ _ | .cas _ | .red _ _ | .cred => overlap (a.addrOf i) (fmtSize a.fmt) (a.addrOf j) (fmtSize a.fmt)
  | .store => line && ((inMask whole i && inMask whole j) || byLine i)
  | _ => line && inMask whole i && inMask whole j

/-- The lanes left that one event performs when it performs lane `L`: those joined with it, and, of anything but a load, every
lower lane, for lanes are performed in ascending order (R161). -/
def Acc.unit (a : Acc) (byLine : Nat → Bool) (L : Nat) : List Nat :=
  let ls := lanesOf a.left
  let j := a.joined a.wholeLanes byLine
  if a.op.reads && !a.op.writes then ls.filter fun i => i == L || j L i
  else
    let m := ls.foldl (fun m k => if k ≤ m then ls.foldl (fun m i => if j k i then max m i else m) m else m) L
    ls.filter fun i => decide (i ≤ m)

/-- A remote load or atomic that comes to be performed first closes the open entries of its lines (R357, R358): a store
of the same thread may have opened one since the load issued. -/
def State.closeForReads (s : State) (gid : Nat) (a : Acc) (lanes : Dword) : State :=
  let r := (lanesOf lanes).filter fun L => isRemote (a.addrOf L)
  if !a.op.reads || a.op.scratch || r.isEmpty then s
  else s.closeEntries (s.coreOf gid) fun e => r.any fun L => e.at' (s.jobOf gid) (chipOf (a.addrOf L)) (lineOf (a.addrOf L % 2 ^ 64))

/-- A read of one remote location closes the open entry of its line (R357), and may then be made where the fabric lets it (R360). -/
def State.closeLine (s : State) (gid loc : Nat) : State :=
  if isRemote loc then s.closeEntries (s.coreOf gid) fun e => e.at' (s.jobOf gid) (chipOf loc) (lineOf (loc % 2 ^ 64)) else s

def State.readOpen (s : State) (gid loc : Nat) : Bool :=
  !(isRemote loc) || s.fabricOpen (s.jobOf gid) (chipOf loc) (loc % 2 ^ 64) false

/-- A store's lanes to one line reach it together: the line is a peer's, or graded. -/
def State.byLine (s : State) (gid : Nat) (a : Acc) (L : Nat) : Bool :=
  isRemote (a.addrOf L) || (s.gradedAt (s.jobOf gid) (a.vaOf L).toNat).isSome

/-- The vector registers a load writes. -/
def AccOp.dest : AccOp → Option Dst
  | .load d | .loadConst d | .loadWait d | .atom _ _ d | .cas d | .sload d => some d
  | _ => none

/-- Perform the lanes of one event in ascending order. Those not in `want` land register by register (R40). What a parked group's
stores put into its old core's buffer is sent at once, as at parking (R330, R357). -/
def State.performUnit (s : State) (gid : Nat) (a : Acc) (ls : List Nat) (want : Dword) : State :=
  let whole := a.wholeLanes
  let far := if a.op == .store then ls.filter fun L => isRemote (a.addrOf L) else []
  let s := if far.isEmpty then s else s.sendLanes gid a far
  let s := if far.isEmpty || s.inFlight gid then s
    else s.closeEntries (s.coreOf gid) fun e => e.threads.any (far.map (a.thread gid)).contains
  let s := s.modAcc gid a.id fun b => { b with done := b.done ||| maskOf far.contains }
  (ls.filter fun L => !far.contains L).foldl (fun s L =>
    let r := s.performLane gid a L (inMask whole L) (!(inMask want L))
    r.1.modAcc gid a.id fun b =>
      if r.2 then { b with done := b.done ||| (1#64 <<< L), waiting := false } else { b with waiting := true }) s

/-- Registers read and still on their way land: all those of the lanes that an event names, and, of one that names no lane, each
or not (R40). -/
def State.landGot (s : State) (gid : Nat) (a : Acc) (want : Dword) : State :=
  match a.op.dest with
  | none => s
  | some d => a.got.foldl (fun (s : State) (x : Nat × Word) =>
      let lands := if want == 0 then s.free else inMask want (x.1 / 4)
      let s := if want == 0 then s.useFree 1 else s
      if lands then
        (s.landReg gid d (x.1 / 4) (x.1 % 4) x.2).modAcc gid a.id fun b => { b with got := Tbl.del b.got x.1 }
      else s) s

/-- Perform what can be performed of the given lanes, event by event (R161, R165), or with none given the first event that can
be; `force`: whatever order says. -/
def State.performLanes (s : State) (gid : Nat) (a : Acc) (want : Dword) (force : Bool) : State :=
  let s := if a.got.isEmpty then s else s.landGot gid a want
  (lanesOf (if want == 0 then 1#64 <<< lowestLane a.left &&& a.left else want &&& a.left)).foldl (fun s L =>
    match (s.grp gid).out.find? fun b => b.id == a.id with
    | none => s
    | some b =>
      let ls := b.unit (s.byLine gid b) L
      if inMask b.left L && (force || ls.all (s.mayPerform gid b)) then
        let s := s.closeForReads gid b (maskOf ls.contains)
        -- the packets of entries it closed go before it
        if force || ls.all (s.mayPerform gid b) then s.performUnit gid b ls want else s
      else s) s

/-- An instruction whose every lane is done completes: its destination takes its tag, its token counts down (R163,
R166), and it leaves the group's list. -/
def State.complete (s : State) (gid : Nat) (a : Acc) : State :=
  let s := match a.op.dest with
    | some (.v n) =>
      if a.nw then s
      else (List.range (fmtRegs a.fmt)).foldl (fun s i => s.setTag gid (n.toNat + i) (fmtTag a.fmt)) s
    | _ => s
  s.modGrp gid fun g => { g.subToken a.tok with out := g.out.filter fun b => b.id != a.id }

/-- A per-lane access completes once no lane is left, no register has still to land, and none of its graded stores, here or on
its way to a peer, is still to be classified (R166, R273). -/
def State.completeIfDone (s : State) (gid id : Nat) : State :=
  match (s.grp gid).out.find? fun a => a.id == id with
  | none => s
  | some a =>
    if a.op.perLane && a.left == 0 && a.got.isEmpty && s.gstores.all (fun x => !(x.gid == gid && x.acc == id)) &&
        s.fabric.outward.all (fun p => p.kind != 3 || p.acc != id) then s.complete gid a
    else s

/-! ### Range maintenance (R178) -/

/-- `flushr` over a range (R178). -/
def State.flushRange (s : State) (core job base len : Nat) (scope : Scope) : State :=
  if !scope.wide then s
  else
    let s := s.modCore core fun c =>
      { c with l1 := c.l1.map fun l => if s.rangeLine job base len l.1 then (l.1, { l.2 with reg := 0 }) else l }
    if scope == .sys then
      { s with hbmOld := s.hbmOld.filter fun b => !s.rangeLine job base len (lineOf b.1) }
    else s

/-- `invr` over a range (R178). -/
def State.invalidateRange (s : State) (core job base len : Nat) (scope : Scope) : State :=
  if !scope.wide then s
  else s.modCore core fun c =>
    { c with l1 := c.l1.map fun l =>
               if s.rangeLine job base len l.1 then (l.1, { l.2 with valid := l.2.valid &&& l.2.reg }) else l,
             ldc := c.ldc.filter fun l => !s.rangeLine job base len l.1 }

/-! ### Packets to peers (R355, R369) -/

/-- A packet to a peer is performed at its target's memory (R355). A graded write is classified there against the line as this
device knows it; its writer is a task of this device. Read and completion packets carry nothing that memory keeps. -/
def State.performOutward (s : State) (p : Packet) : State :=
  let base := chipBase ((s.tagJob p.jtag).getD 0) p.dst
  if p.kind == 0 || p.kind == 1 then
    p.bytes.foldl (fun s b => { s with mem := s.mem.setByte (base + b.1) b.2 }) s
  else if p.kind == 2 then
    let n := fmtSize p.redFmt
    let op := [AtomOp.add, .min, .max, .and, .or, .xor, .exch, .incw].getD p.redOp.toNat .add
    let old := s.homeRead (base + p.addr.toNat) n
    let v := p.bytes.foldr (fun b acc => b.2.toNat + 256 * acc) 0
    { s with mem := Memory.write s.mem (base + p.addr.toNat) n (atomNew op p.redFmt old v) }
  else if p.kind == 3 then
    let line := lineOf (base + p.addr.toNat)
    let t : TaskId := { job := (s.tagJob p.jtag).getD 0, rec' := p.task }
    let r := s.gradedStore (if p.task == 0 then none else some (Writer.own t)) line
      (p.bytes.map fun b => (base + b.1, b.2)) p.grade
    let gids := (p.threads.map (· / 128)).eraseDups
    let s := if r.2.2 then gids.foldl (fun (s : State) g =>
        s.boundary g { code := 0x16, info := 0, lane := 64, addr := BitVec.ofNat 64 (p.addr.toNat / 128 * 128) }) s
      else r.1
    (s.groups.filter fun g => g.2.out.any fun a => a.id == p.acc).foldl (fun (s : State) g => s.completeIfDone g.1 p.acc) s
  else s

/-- Every packet injected for the given groups is performed, with those before it (R330, R357). -/
def State.drainOutward (s : State) (gids : List Nat) : State :=
  if s.fabric.outward.any fun p => p.threads.any fun t => gids.contains (t / 128) then
    s.fabric.outward.foldl State.performOutward { s with fabric := { s.fabric with outward := [] } }
  else s

/-- What a task's instructions in flight will put on its output list: graded lines, by line, and signals, by record, that it does
not list yet (R276, R284). -/
def State.claims (s : State) (t : TaskId) : List (Bool × Nat) :=
  let waiting := (s.gstores.filter fun x => x.task == t).map fun x => (false, x.va.toNat / 128)
  let flying := (s.groups.filter fun g => s.grpTask g.1 == some t).flatMap fun g => g.2.out.flatMap fun a => match a.op with
    | .store => ((lanesOf a.left).filter fun L => (s.gradedAt t.job (a.vaOf L).toNat).isSome).map fun L => (false, (a.vaOf L).toNat / 128)
    | .tsig => [(true, (a.vaOf 0).toNat / 128)]
    | _ => []
  ((waiting ++ flying).filter fun x => (s.listed t (128 * x.2) x.1).isNone).eraseDups

/-- Entries that a task's output list can still take, beside those in flight (R276). -/
def State.outRoom (s : State) (t : TaskId) : Nat := outLimit - (s.tOuts t + (s.claims t).length)

/-- A task's list, with what is in flight to it, has no room for lines it does not list, which holds a store to them until its
effective grade is final (R276; log entry 92). -/
def State.listFull (s : State) (gid : Nat) (lines : List Nat) : Bool :=
  match s.grpTask gid with
  | none => false
  | some t =>
    let new := lines.filter fun l => (s.listed t (128 * l) false).isNone && !((s.claims t).contains (false, l))
    s.tEff t != 3 && !new.isEmpty && decide (s.outRoom t < new.eraseDups.length)

/-- The lines of `lines` that such a hold keeps back. -/
def State.newLines (s : State) (gid : Nat) (lines : List Nat) : Nat :=
  match s.grpTask gid with
  | none => 0
  | some t => ((lines.filter fun l => (s.listed t (128 * l) false).isNone && !((s.claims t).contains (false, l))).eraseDups).length

/-- A hold for room for `n` entries of a task's list is in force. -/
def State.roomWait (s : State) (gid n : Nat) : Bool :=
  match s.grpTask gid with
  | none => false
  | some t => s.tEff t != 3 && decide (s.outRoom t < n)

end Sys2Proof.Machine
end

