-- ==== Sys2Proof/Machine/Records.lean ====
section
/-!
DEFINITION. Launch records, graded declarations and tensor records as memory holds them (R308, R310, R213), and
the rules that reject or invalidate one (R309, R139, R214).
-/
namespace Sys2Proof.Machine

/-- Bits [lo + w − 1 : lo] of a number. -/
def bits (x lo w : Nat) : Nat := x / 2 ^ lo % 2 ^ w

/-- The 256-byte launch record that a number's bits spell (R308). -/
def LRec.ofBits (x : Nat) : LRec :=
  { entry := BitVec.ofNat 64 (bits x 0 64), slice := BitVec.ofNat 64 (bits x 64 64),
    args := BitVec.ofNat 64 (bits x 128 64), trap := BitVec.ofNat 64 (bits x 192 64),
    caddr := BitVec.ofNat 64 (bits x 256 64), cvalue := BitVec.ofNat 32 (bits x 320 32),
    gridx := bits x 352 32, gridy := bits x 384 16, gridz := bits x 400 16, groups := bits x 416 7,
    stook := bits x 423 3, regs := bits x 426 7, scalars := bits x 433 9, qn := bits x 442 4, qdepth := bits x 446 4,
    carve := bits x 450 2, menus := bits x 452 3, carven := bits x 455 9, lease := bits x 464 10,
    meas := bits x 474 1 == 1, ext := bits x 475 1 == 1, thr := bits x 476 1 == 1, prio := bits x 477 2,
    rsvLow := bits x 479 33,
    deps := (List.range 4).map fun k =>
      (BitVec.ofNat 64 (bits x (512 + 96 * k) 64), BitVec.ofNat 32 (bits x (576 + 96 * k) 32)),
    csize := bits x 896 32, stksz := bits x 928 32, stkbase := BitVec.ofNat 64 (bits x 960 64),
    glist := BitVec.ofNat 64 (bits x 1024 64), gcount := bits x 1088 9, rsvHigh := bits x 1097 951 }

/-- Carve fields that R139 admits: a menu size beside a pinned carve, and sizes with no carve, belong to none of its forms, and are
rejected (DEDUCED, log entry 99). -/
def LRec.carveOk (r : LRec) : Bool :=
  match r.carve with
  | 0 => r.menus == 0 && r.carven == 0
  | 1 => decide (r.menus ≤ 4) && decide (1 ≤ r.carven) && decide (r.carven * 4 ≤ r.menuKib)
  | 2 => r.menus == 0 && decide (1 ≤ r.carven) && r.carven % 32 == 0 && decide (r.carven * 4 ≤ 1792)
  | _ => false

/-- Blocks of a grid's stooks, as one count of threads. -/
def LRec.stooks (r : LRec) : Nat := r.gridx * r.gridy * r.gridz
def LRec.blocks (r : LRec) : Nat := r.stooks * r.stook

/-- The limits of R308's table. -/
def LRec.limitsOk (r : LRec) : Bool :=
  r.rsvHigh == 0 && r.rsvLow == 0 && decide (r.gcount ≤ 256) &&
  (if r.gcount == 0 then r.glist == 0 else r.glist.toNat % 16 == 0) &&
  r.stksz % 16 == 0 && (if r.stksz == 0 then r.stkbase == 0 else r.stkbase.toNat % 16 == 0) &&
  r.csize % 8 == 0 && decide (16 ≤ r.csize) &&
  decide (r.lease ≤ 512) && r.carveOk &&
  (if r.qn == 0 then r.qdepth == 0 else decide (r.qn ≤ 8) && decide (1 ≤ r.qdepth) && decide (r.qdepth ≤ 8)) &&
  decide (r.qn * r.qdepth ≤ r.rounded) &&
  decide (32 ≤ r.scalars) && decide (r.scalars ≤ 256) && decide (8 ≤ r.regs) && decide (r.regs ≤ 64) &&
  decide (1 ≤ r.stook) && decide (r.stook ≤ 4) && decide (1 ≤ r.groups) && decide (r.groups ≤ 64) &&
  decide (1 ≤ r.gridz) && decide (1 ≤ r.gridy) && decide (1 ≤ r.gridx) && r.caddr.toNat % 8 == 0

/-- Every byte of [va, va + n) is local HBM of the job, outside every graded and commutative range. -/
def State.plainLocal (s : State) (job va n : Nat) : Bool :=
  let pages := (List.range ((n + 65535) / 65536 + 1)).map fun i => min (va + 65536 * i) (va + n - 1)
  (n == 0 || pages.all fun a => match s.pageEntry job a with
    | some p => isLocal (p.loc a)
    | none => false) &&
  s.granges.all (fun r => r.job != job || !(overlap va n r.va (128 * r.lines))) &&
  s.cranges.all (fun r => r.job != job || !(overlap va n r.va r.len))

/-- The record a job's address holds, and whether every page of it can be read (R313). -/
def State.readRecord (s : State) (job va : Nat) : Option LRec :=
  match s.pageEntry job va with
  | some p => if p.r && canonical (BitVec.ofNat 64 va) then some (LRec.ofBits (s.readLines job va (p.loc va) 256).1) else none
  | none => none

/-- Its reading is a combining read in a commutative range (R155). -/
def State.touchRecord (s : State) (job va : Nat) : State :=
  match s.pageEntry job va with
  | some p => if p.r && canonical (BitVec.ofNat 64 va) then s.combineOver (p.loc va) 256 else s
  | none => s

/-- The graded declarations of a record: base and lines, which are 0 when a bit outside those two fields is set (R310). -/
def State.declarations (s : State) (job : Nat) (r : LRec) : List (Nat × Nat) :=
  (List.range r.gcount).map fun i =>
    let x := s.homeRead (s.place job (r.glist.toNat + 16 * i)) 16
    (bits x 0 64, if bits x 93 35 == 0 then bits x 64 29 else 0)

/-- Their reading is a combining read in a commutative range (R155). -/
def State.touchDeclarations (s : State) (job : Nat) (r : LRec) : State :=
  (List.range r.gcount).foldl (fun (s : State) i => s.combineOver (s.place job (r.glist.toNat + 16 * i)) 16) s

/-- Stack and declaration fields that R310 and R311 allow. -/
def State.recordFieldsOk (s : State) (job : Nat) (r : LRec) : Bool :=
  (r.stksz == 0 ||
    s.plainLocal job r.stkbase.toNat (r.blocks * r.groups * 64 * r.stksz)) &&
  (s.declarations job r).all fun d => decide (1 ≤ d.2) && decide (d.2 ≤ 2 ^ 29)

/-! ### Tensor records (R213 to R215) -/

def TRec.ofBits (x : Nat) : TRec :=
  { pad := BitVec.ofNat 32 (bits x 480 32), e0 := bits x 475 1 == 1, swz := bits x 472 3, tag := bits x 468 4,
    rank := bits x 464 3, tiles := (List.range 5).map fun k => bits x (384 + 16 * k) 16,
    sizes := (List.range 5).map fun k => bits x (64 + 32 * k) 32,
    strides := (List.range 5).map fun k => if k == 0 then 0 else bits x (224 + 40 * (k - 1)) 40,
    base := BitVec.ofNat 64 (bits x 0 64) }

/-- Bytes of an element (R214). -/
def TRec.esize (r : TRec) : Nat := if r.tag ≤ 2 then 4 else if r.tag ≤ 4 then 2 else 1

def TRec.tileElems (r : TRec) : Nat := (r.tiles.take r.rank).foldl (· * ·) 1

/-- A record's validity (R214). -/
def recordValid (x : Nat) : Bool :=
  let r := TRec.ofBits x
  let e := r.esize
  bits x 476 4 == 0 && bits x 467 1 == 0 && decide (1 ≤ r.rank) && decide (r.rank ≤ 5) && decide (r.tag ≤ 8) &&
  decide (r.swz ≤ 3) && canonical r.base && r.base.toNat % e == 0 &&
  (List.range 5).all (fun k =>
    let size := r.sizes.getD k 0
    let tile := r.tiles.getD k 0
    let stride := r.strides.getD k 0
    if k < r.rank then stride % e == 0 && size != 0 && tile != 0 else size == 0 && tile == 0 && stride == 0) &&
  decide (e * r.tileElems ≤ 1835008)

/-- The coordinates of tile element number `i`, dimension 0 fastest (R215). -/
def tileCoords : List Nat → Nat → List Nat
  | [], _ => []
  | t :: ts, i => (i % t) :: tileCoords ts (i / t)

/-- The address of an element at signed coordinates, if it is in range (R214, R215). -/
def TRec.elemAddr (r : TRec) (pos : List Int) : Option Nat :=
  if (List.range r.rank).all fun k =>
      decide (0 ≤ pos.getD k 0) && decide (pos.getD k 0 < (r.sizes.getD k 0 : Nat)) then
    some ((List.range r.rank).foldl (fun a k =>
      a + (if k == 0 then r.esize else r.strides.getD k 0) * (pos.getD k 0).toNat) r.base.toNat)
  else none

/-- What one scratchpad line holds of a tile at scratchpad address `d`: each element's offset with its number, dense with
dimension 0 fastest, then swizzled (R215). The exclusive or of a swizzle undoes itself, so it is applied to the stored
chunk. -/
def TRec.lineElems (r : TRec) (d line : Nat) : List (Nat × Nat) :=
  (List.range (128 / r.esize)).filterMap fun k =>
    let off := 128 * line + r.esize * k
    let u := if r.swz == 0 then off
      else 128 * line + ((off / 16 % 8) ^^^ ((line - d / 128) % 2 ^ r.swz)) * 16 + off % 16
    if d ≤ u && decide ((u - d) / r.esize < r.tileElems) then some (off, (u - d) / r.esize) else none

/-- The address of tile element number `i` of a copy with an origin, when in range. -/
def TRec.elemAt (r : TRec) (org : List Int) (i : Nat) : Option Nat :=
  let j := tileCoords (r.tiles.take r.rank) i
  r.elemAddr ((List.range r.rank).map fun k => org.getD k 0 + (j.getD k 0 : Nat))

/-- The scratchpad lines a tile occupies. -/
def TRec.lines (r : TRec) (d : Nat) : List Nat :=
  let n := r.esize * r.tileElems
  (List.range ((d % 128 + n + 127) / 128)).map fun i => d / 128 + i

end Sys2Proof.Machine
end

