-- ==== Sys2Proof/Machine/Binder.lean ====
section
/-!
DEFINITION. What the Binder does in one event (R274 to R303): the work list of `Todo` run to its end, with the
TASK-class instructions at the moment each is performed. The list is run with a fuel that no event of a device can
use up: a task is re-fired at most 16 times and a line's grade rises at most 3 times.
-/
namespace Sys2Proof.Machine

/-- The virtual address a job's pages give a line of memory. -/
def State.lineVa (s : State) (job line : Nat) : Option Nat :=
  (s.ptes.find? fun p => p.job == job && decide (p.loc p.va ≤ 128 * line) && decide (128 * line < p.loc p.va + p.size)).map
    fun p => p.va + (128 * line - p.loc p.va)

/-- The tasks spawned by a task (R285). -/
def State.childTasks (s : State) (t : TaskId) : List TaskId :=
  (s.tasks.filter fun r => r.id.job == t.job && s.tParent r.id == t.rec').map fun r => r.id

/-- A task that has not yet completed (R278 step 6). -/
def State.tOpen (s : State) (t : TaskId) : Bool :=
  let x := s.tState t
  x == tPending || x == tReady || x == tRunning || x == tRefire

/-- Spawn a task from its record (R293): index, or 0 when the record is live. -/
def State.spawnTask (s : State) (t : TaskId) (parent : Nat) (go : Bool) (words : Option (Word × Word)) :
    State × Nat :=
  if s.tLive t then (s, 0)
  else
    let join := s.tJoin t
    let s := (s.setTState t tPending).setRecFld t 484 4 0
    let s := ((s.setRecFld t 416 32 0).setRecFld t 464 16 0).setRecFld t 512 16 0
    let s := ((s.setRecFld t 496 8 0).setRecFld t 488 2 3).setRecFld t 320 64 parent
    let row : TaskRow :=
      { id := t, counted := parent != 0, cont0 := BitVec.ofNat 64 (s.tCont t), contDone := false, words := words,
        signals := [] }
    let s := { s with tasks := s.tasks.filter (fun r => r.id != t) ++ [row] }
    let s := if parent == 0 then s
      else
        let p : TaskId := { job := t.job, rec' := parent }
        s.setRecFld p 512 16 (s.tChildren p + 1)
    ((if go || join == 0 then s.makeReady t else s), s.taskIdx t)

/-- The lines of a span whose grade is guess or provisional, with their addresses, ascending by address (R299). -/
def State.spanLines (s : State) (job base n : Nat) : List (Nat × Nat) :=
  sortBy (fun l => l.2) <| s.grades.filterMap fun (x : Nat × Grade) =>
    if x.2 == 1#2 || x.2 == 2#2 then
      match s.lineVa job x.1 with
      | some va => if decide (base ≤ va) && decide (va < base + 128 * n) && (s.gradedAt job va).isSome then some (x.1, va)
                   else none
      | none => none
    else none

/-- A graded range comes into force (R266, R267): every line of it is empty, and registered words and copies of its lines are
given up everywhere, for an L1 keeps copies only of lines that were final when filled. -/
def State.rangeInForce (s : State) (r : GRange) : State :=
  let inr := fun line => s.rangeLine r.job r.va (128 * r.lines) line
  { s with
    granges := s.granges ++ [r],
    grades := s.grades.filter fun g => !inr g.1,
    lastWriter := s.lastWriter.filter fun g => !inr g.1,
    cores := s.cores.map fun (c : Nat × Core) =>
      (c.1, { c.2 with l1 := c.2.l1.filter fun l => !inr l.1, ldc := c.2.ldc.filter fun l => !inr l.1 }) }

/-- Bytes of HBM that the grade maps of the ranges declared here take: 1 for each 512 bytes of data, on the data's stack
(R158). -/
def State.mapBytes (s : State) : Nat :=
  (s.granges.filter fun r => isLocal (s.place r.job r.va)).foldl (fun n r => n + (r.lines + 3) / 4) 0

/-- Bytes of local HBM that page-table entries name, at most. -/
def State.pageBytes (s : State) : Nat :=
  s.ptes.foldl (fun n p => match p.dst with | .hbm _ => n + p.size | _ => n) 0

/-- There is HBM for the grade map of a range (R158, R298): surely while pages and maps together fill no stack, surely not when
the maps alone outgrow the module, and else the answer is free, for which stack holds what the manual does not say (log
entry 42). -/
def State.mapRoom (s : State) (lines : Nat) : Bool :=
  let maps := s.mapBytes + (lines + 3) / 4
  decide (maps + s.pageBytes ≤ Config.stackBytes) || (decide (maps ≤ Config.hbmBytes) && s.free)

/-- `grange` at the moment it is performed (R266, R298): its status, and the range in force. -/
def State.declareRange (s : State) (job base lines : Nat) : State × Nat :=
  if s.granges.any fun r => r.job == job && overlap r.va (128 * r.lines) base (128 * lines) then (s, 1)
  else if s.cranges.any fun r => r.job == job && overlap r.va r.len base (128 * lines) then (s, 2)
  else if 256 ≤ (s.granges.filter fun r => r.job == job).length then (s, 3)
  else if !(s.mapRoom lines) then (s.useFree 1, 4)
  else (((s.useFree 1).rangeInForce { job := job, va := base, lines := lines }).probe job (s.rangeUnit job base (128 * lines)), 0)

/-- `grel` (R298): every subscription to a line of the range ends, and the subscribers' counts fall as if the line had become
final, those of peers by a notice (R271, R369). -/
def State.releaseRange (s : State) (job base : Nat) : State × Nat × List Todo :=
  match s.granges.find? fun r => r.job == job && r.va == base with
  | none => (s, 1, [])
  | some r =>
    let inr := fun line => s.rangeLine job base (128 * r.lines) line
    let gone := s.subs.filter fun x => inr x.line
    let who := (gone.filter fun x => x.chip == none).map fun x => x.task
    let peers := gone.filterMap fun x => x.chip.map fun c => Todo.notice c x.task x.line false 3
    let s' := { s with
      granges := s.granges.filter (· != r), subs := s.subs.filter fun x => !inr x.line,
      grades := s.grades.filter fun g => !inr g.1, lastWriter := s.lastWriter.filter fun g => !inr g.1 }
    (who.foldl State.syncCounts s', 0, who.map Todo.settle ++ peers)

/-- A Binder queue of a die's stacks is held while the die is warm-reset (R387). -/
def State.queueHeld (s : State) (id : Word) : Bool :=
  match s.dieReset with
  | none => false
  | some r => decide (4 ≤ r.step) && id.toNat / 4096 / 3 == r.die

/-- A Binder queue exists (R301). -/
def State.queueOk (s : State) (id : Word) : Bool :=
  decide (id.toNat < 65536) && decide (id.toNat / 4096 < 12) && (s.bq id.toNat).cap != 0

/-- The next handle that no live child of the device holds (R303). -/
def State.freshHandle (s : State) : Nat :=
  let live := (s.grids.filter fun g => g.2.parent.isSome && !g.2.done).map fun g => g.2.handle
  let hs := (List.range (live.length + 1)).map fun i => (s.nextHandle + i - 1) % (2 ^ 32 - 1) + 1
  (hs.find? fun h => !live.contains h).getD s.nextHandle

/-- The launch record of `launch` joins queue 60 + die as a child of the issuing block (R303). -/
def State.launchChild (s : State) (gid : Nat) (va : Dword) : State × Nat :=
  let b := (s.grp gid).blk
  let k := s.blk b
  let h := s.freshHandle
  let id := s.nextId
  let read := s.readLines k.job va.toNat (s.place k.job va.toNat) 256
  let r := LRec.ofBits read.1
  let q := 60 + dieOf k.core
  let g : Grid := { Grid.empty with
    job := k.job, record := r, recVa := va, queue := q, age := s.nextAge + 1, depth := k.depth + 1, parent := some b,
    handle := h, task := k.task }
  let s := { (read.2.setGrid id g) with
    nextId := id + 1, nextAge := s.nextAge + 1, nextHandle := (if h + 1 < 2 ^ 32 then h + 1 else 1),
    waiting := Tbl.put s.waiting q ((Tbl.find s.waiting q).getD [] ++ [id]) }
  let s := match s.blkTask b with
    | some t => s.setRecFld t 512 16 (s.tChildren t + 1)
    | none => s
  (s, h)

/-- The status or value an instruction writes to its scalar on completion (R290). -/
def State.putScalar (s : State) (gid : Nat) (d : BitVec 8) (v : Nat) : State := s.setSreg gid d.toNat (BitVec.ofNat 32 v)

/-- The scalars an instruction that is not lane by lane writes (R290). -/
def AccOp.scalars : AccOp → List Nat
  | .tspawn d | .grange d | .grel d | .gstat d | .qpush d | .launch d => [d.toNat]
  | .qpop d st => (List.range 4).map (d.toNat + ·) ++ [st.toNat]
  | .qpopw d => (List.range 4).map (d.toNat + ·)
  | _ => []

/-- An instruction that is performed completes once no scalar of it is still to land. -/
def State.completeIfLanded (s : State) (gid id : Nat) : State :=
  match (s.grp gid).out.find? fun a => a.id == id with
  | none => s
  | some a => if a.got.isEmpty then s.complete gid a else s

/-- Scalars of a performed instruction that are still on their way land: all of them, or each or not (R40, R291). -/
def State.landScalars (s : State) (gid : Nat) (a : Acc) (all : Bool) : State :=
  a.got.foldl (fun (s : State) (x : Nat × Word) =>
    let r := if all then s else s.useFree 1
    if all || s.free then (r.setSreg gid x.1 x.2).modAcc gid a.id fun b => { b with got := Tbl.del b.got x.1 } else r) s

/-- Performing an instruction has written its scalars: of those whose bits changed from those before, each stays as it is, or goes
back and lands later (R40, R291). -/
def State.delayScalars (s : State) (gid : Nat) (a : Acc) (before : Nat → Word) : State :=
  a.op.scalars.foldl (fun (s : State) n =>
    let w := s.sreg gid n
    let r := s.useFree 1
    if w == before n then s
    else if s.free then r
    else (r.setSreg gid n (before n)).modAcc gid a.id fun b => { b with got := Tbl.put b.got n w }) s

/-- Four scalars take a queue entry (R301). -/
def State.putQuad (s : State) (gid : Nat) (d : BitVec 8) (e : Qword) : State :=
  (List.range 4).foldl (fun s i => s.setSreg gid (d.toNat + i) (e.extractLsb' (32 * i) 32)) s

/-- The group's outstanding stores before an instruction (or all of them) still have bytes of [loc, loc + n) to write
(R183). -/
def State.ownStoreAt (s : State) (gid : Nat) (upTo : Option Nat) (loc n : Nat) : Bool :=
  let os : List Acc := match upTo with
    | some i => s.accsBefore gid i
    | none => s.accsOf gid
  os.any fun b =>
    b.op.storeLike && (lanesOf b.left).any fun L => overlap loc n (b.addrOf L) (fmtSize b.fmt)

/-- Every remote write that a group issued before its `ffence` has left the group's instructions and copies: its open entries are
closed, and the fence takes the number of packets sent so far (R376). -/
def State.fenceMark (s : State) (gid : Nat) (a : Acc) : State :=
  let before := s.accsBefore gid a.id
  if a.op == .ffence && a.data.isEmpty && before.all (fun b => !b.op.storeLike) &&
      !(s.copies.any fun c => c.gid == gid && c.out && decide (c.id < a.id)) then
    let s := s.closeEntries (s.coreOf gid) fun e => e.threads.any (ofGroup gid)
    s.modAcc gid a.id fun b => { b with data := [BitVec.ofNat 128 s.fabric.sent] }
  else s

/-- Each of the group's packets that an `ffence` follows has been performed at its target; one swept at a job switch has not
(R376). -/
def State.fencePassed (s : State) (gid : Nat) (a : Acc) : Bool :=
  let swept := s.jobs.flatMap fun j => (j.2.sealedRecs ++ j.2.overflow).map fun r => r.pkt
  !a.data.isEmpty && (s.fabric.outward ++ swept).all fun p => !(p.threads.any (ofGroup gid)) || decide (a.dataOf 0 ≤ p.serial)

/-- Every store, `red`, `cred` and atomic of the group before an instruction has been performed (R292). -/
def State.storesBefore (s : State) (gid : Nat) (a : Acc) : Bool :=
  ((s.accsBefore gid a.id).all fun b => !(b.op.storeLike)) &&
    (s.unsentBy (ofLanes gid (BitVec.allOnes 64))).isEmpty && (s.unclosedBy (s.coreOf gid) (ofLanes gid (BitVec.allOnes 64))).isEmpty

/-- The Binder performs the instruction (R292). -/
def AccOp.binder : AccOp → Bool
  | .tspawn _ | .tsig | .grange _ | .grel _ | .promote _ | .retract | .launch _ => true
  | _ => false

/-- The lines a `promote` still has to act on: those from the address where it stands (R299). -/
def State.promoteRest (s : State) (gid : Nat) (a : Acc) : List (Nat × Nat) :=
  let va := (a.vaOf 0).toNat
  (s.spanLines (s.jobOf gid) va (a.dataOf 0)).filter fun l => decide ((match a.data2 with | x :: _ => x.toNat | [] => va) ≤ l.2)

/-- An instruction that is not lane by lane is performed (R166, R216, R292 to R303, R376); none: it waits. With `drop`,
its run is being discarded and a wait is not made (R278 step 3). -/
def State.performOp (s : State) (gid : Nat) (a : Acc) (drop : Bool) : Option (State × List Todo) :=
  let job := s.jobOf gid
  let core := s.coreOf gid
  let task := s.grpTask gid
  let va := a.vaOf 0
  let t : TaskId := { job := job, rec' := va.toNat }
  let n := a.dataOf 0
  let before := s.accsBefore gid a.id
  let ready := drop || s.storesBefore gid a
  -- a release follows its threads' loads, scratchpad stores and pops as well (R187, R188, R194, R292)
  let released := drop || (ready && before.all fun b =>
    (!(b.op.reads || b.op == .sstore) || s.undone b &&& a.act == 0) && !(b.op.pops && b.got.isEmpty && b.act &&& a.act != 0))
  if !drop && (s.resetHolds gid a || (a.op.binder && s.binderHeld)) then none
  else match a.op with
  | .rrec =>
    if !drop && (s.ownStoreAt gid (some a.id) (a.addrOf 0) 64 || !(s.readOpen gid (a.addrOf 0))) then none
    else
    let r := s.readThere job va.toNat (a.addrOf 0) 64
    let e : RecEntry := { job := job, va := va.toNat, bits := BitVec.ofNat 512 r.1,
                          ok := recordValid r.1 && (s.gradedAt job va.toNat).isNone && (s.commAt job va.toNat).isNone }
    some (r.2.modCore core fun c => { c with
      rcache := (e :: c.rcache.filter fun x => !(x.job == job && x.va == va.toNat)).take 64 }, [])
  | .flushr =>
    if ready then
      some (s.flushRange core job va.toNat n a.scope, [])
    else none
  | .invr => some (s.invalidateRange core job va.toNat n a.scope, [])
  | .tspawn d =>
    if !released then none
    else match task with
      | some p =>
        if 65535 ≤ s.tChildren p && !drop then none
        else let r := s.spawnTask t p.rec' false none; some (r.1.putScalar gid d r.2, [])
      | none => let r := s.spawnTask t 0 false none; some (r.1.putScalar gid d r.2, [])
  | .tsig =>
    if !released then none
    else
      let signal := fun (s : State) =>
        if s.tLive t && s.tState t == tPending then
          let j := (s.tJoin t + 2 ^ 32 - 1) % 2 ^ 32
          let s := s.setRecFld t 384 32 j
          if j == 0 then s.makeReady t else s
        else s
      match task with
      | none => some (signal s, [])
      | some p =>
        let done := match s.taskRow p with
          | some r => r.signals.contains va.toNat
          | none => false
        if done || (s.listed p va.toNat true).isSome then some (s, [])
        else if s.tOuts p < outLimit then some (signal (s.listOut p va.toNat true 0), [])
        else if s.tEff p != 3 && !drop then none
        -- a signal that the full list does not take is kept with the task, which signals once (R284)
        else some (signal (s.modTaskRow p fun r => { r with signals := r.signals ++ [va.toNat] }), [])
  | .grange d =>
    if !ready then none
    else let r := s.declareRange job va.toNat n; some (r.1.putScalar gid d r.2, [])
  | .grel d =>
    if !ready then none
    else let r := s.releaseRange job va.toNat; some (r.1.putScalar gid d r.2.1, r.2.2)
  | .promote gr =>
    -- State.promoteLines has taken it line by line; of a discarded run what the list does not hold back is left
    let rest := s.promoteRest gid a
    if !ready || (!drop && !rest.isEmpty) then none
    else some (rest.foldl (fun (p : State × List Todo) l =>
      if p.1.listFull gid [l.2 / 128] then p
      else
        let r := p.1.gradedStoreBy task l.1 l.2 [] gr
        (r.1, p.2 ++ r.2.1)) (s, []))
  | .retract =>
    if !ready then none
    else some ((s.spanLines job va.toNat n).foldl (fun (p : State × List Todo) l =>
      let r := p.1.retractLine l.1
      (r.1, p.2 ++ r.2)) (s, []))
  | .gstat d =>
    if !ready then none
    else
      let line := lineOf (a.addrOf 0)
      let graded := (s.gradedAt job va.toNat).isSome
      let sub := match task with
        | some p => (s.subOf p line).isSome || s.remoteSubs.any fun x => x.1 == p && x.2.1 == line
        | none => false
      let g := if graded then (s.lineGrade line).toNat else 3
      some (s.putScalar gid d ((if sub then 8 else 0) + (if graded then 4 else 0) + g), [])
  | .qpush d =>
    if !released || (!drop && s.queueHeld (BitVec.ofNat 32 n)) then none
    else
      let id := BitVec.ofNat 32 n
      if !s.queueOk id then some (s.putScalar gid d 2, [])
      else
        let q := s.bq id.toNat
        if q.cap ≤ q.items.length then some (s.putScalar gid d 1, [])
        else
          let s := { s with nextAge := s.nextAge + 1 }
          some ((s.setBq id.toNat { q with items := q.items ++
            [{ bits := a.data2.getD 0 0, stamp := s.nextAge, job := job }] }).putScalar gid d 0, [])
  | .qpop d st =>
    if !ready || (!drop && s.queueHeld (BitVec.ofNat 32 n)) then none
    else
      let id := BitVec.ofNat 32 n
      if !s.queueOk id then some (s.putScalar gid st 2, [])
      else
        let q := s.bq id.toNat
        match q.items with
        | [] => some (s.putScalar gid st 1, [])
        | e :: es =>
          some ((((s.setBq id.toNat { q with items := es }).selfInvalidate core).putQuad gid d e.bits).putScalar gid st 0, [])
  | .qpopw d =>
    match a.data2 with
    | [] => some (s, [])
    | e :: _ => some (s.selfInvalidate core |>.putQuad gid d e, [])
  | .launch d =>
    if !released then none
    else if 256 ≤ (s.childGrids (s.grp gid).blk).length && !drop then none
    else let r := s.launchChild gid va; some (r.1.putScalar gid d r.2, [])
  | .ffence => if drop || s.fencePassed gid a then some (s, []) else none
  | .fdrain => some (s, [])
  | _ => some (s, [])

/-- Classify graded store number `i` of those that wait, unless one before it is of its line (R273), its task's full list holds it
(R276), the Binder is held (R387), or its job is switched out (R289). A refusal is the storing group's boundary fault, or
nothing when its run is being
discarded; a store that the list holds is not made then. -/
def State.classifyAt (s : State) (i : Nat) (drop : Bool) : Option (State × List Todo) :=
  match s.gstores[i]? with
  | none => none
  | some x =>
    let t := if x.task.rec' == 0 then none else some x.task
    let full := s.listBars t x.va.toNat
    if (s.gstores.take i).any (fun y => y.line == x.line) ||
        (!drop && (full || s.binderHeld || s.jobIn x.task.job .out)) then none
    else if full then some ({ s with gstores := s.gstores.eraseIdx i }.completeIfDone x.gid x.acc, [])
    else
      let wrote := (s.storeClass x.line x.bytes (s.storeGrade t x.va.toNat x.stated)).writes
      let r := (if wrote then s.countWrite (s.coreOf x.gid) (128 * x.line) else s).gradedStoreBy t x.line x.va.toNat x.bytes x.stated
      let s := { r.1 with gstores := r.1.gstores.eraseIdx i }
      let s := if r.2.2 && !drop then
          s.boundary x.gid { code := 0x16, info := 0, lane := 64, addr := x.va }
        else s
      some (s.completeIfDone x.gid x.acc, r.2.1)

/-- Classify, in order, every waiting store of the lines that one instruction stored to; `drop`: its group's run is being
discarded. -/
def State.classifyFor : Nat → State → Nat → Nat → Bool → State × List Todo
  | 0, s, _, _, _ => (s, [])
  | n + 1, s, gid, acc, drop =>
    match s.gstores.find? fun x => x.gid == gid && x.acc == acc with
    | none => (s, [])
    | some x =>
      match s.gstores.findIdx? fun y => y.line == x.line with
      | none => (s, [])
      | some i =>
        let mine := match s.gstores[i]? with
          | some y => y.gid == gid
          | none => false
        match s.classifyAt i (drop && mine) with
        | none => (s, [])
        | some r =>
          let q := State.classifyFor n r.1 gid acc drop
          (q.1, r.2 ++ q.2)

/-- An issued instruction of a stopped run is performed (R278 step 3): stores, to their targets' homes, and TASK instructions;
loads are dropped, and what a restore found at a page that is missing or forbidden (R333). -/
def State.performStopped (s : State) (gid acc : Nat) : State × List Todo :=
  match (s.grp gid).out.find? fun a => a.id == acc with
  | none => (s, [])
  | some a =>
    if a.st == .abandoned then (s.complete gid a, [])
    else if a.op.perLane then
      let s := if a.op.writes then
          ((s.performLanes gid a a.left true).closeEntries (s.coreOf gid) fun e => e.threads.any (ofGroup gid)).drainOutward [gid]
        else s
      let s := s.modAcc gid acc fun b => { b with done := b.act, got := [] }
      let r := State.classifyFor (s.gstores.length + 1) s gid acc true
      (r.1.completeIfDone gid acc, r.2)
    else
      let r := if a.got.isEmpty then (s.performOp gid a true).getD (s, []) else (s, [])
      (r.1.complete gid a, r.2)

/-- The completion word of a grid (R320): 8 bytes at caddr, as one access, a release that a host which reads it through
CXL.mem takes together with every store before it (R381): HBM then holds no older bytes. -/
def State.writeCompletion (s : State) (g : Nat) (status : Nat) : State :=
  let x := s.grid g
  if x.record.caddr == 0 then s
  else { s.writeThere x.job x.record.caddr.toNat (s.place x.job x.record.caddr.toNat) 8 (x.record.cvalue.toNat + 2 ^ 32 * status) with
    hbmOld := [] }

/-- Tasks whose parent chain reaches a task, by generations (R297). -/
def State.descendants (s : State) : Nat → List TaskId → List TaskId
  | 0, _ => []
  | n + 1, ts =>
    let kids := ts.flatMap s.childTasks
    if kids.isEmpty then [] else kids ++ State.descendants s n kids

/-- The tasks a cancellation names: a task and every task whose parent chain reaches it (R297). -/
def State.killed (s : State) (t : TaskId) : List TaskId := (t :: s.descendants (s.tasks.length + 1) [t]).eraseDups

/-- A task ends its run: its own lines are retracted and its subscriptions end, its open children, with every task below
them, and its child grids are cancelled (R278 steps 4 to 6, R286, R297). A cancelled task's children are, of whatever its last
instructions spawned. -/
def State.undoTask (s : State) (t : TaskId) (cancelAll : Bool) : State × List Todo :=
  let kids := if cancelAll then (s.childTasks t).map Todo.cancel
    else ((s.childTasks t).filter s.tOpen).flatMap fun c => (s.killed c).map Todo.cancel
  let grids := (s.taskGrids t).map fun g => if (s.grid g).ended then Todo.gridOver g else Todo.endGrid g 0x101
  let lines := (s.ownLines t).map fun l => Todo.retract l.1
  ((s.unsubscribe t).keepSignals t, lines ++ kids ++ grids)

/-- The tasks below a task whose runs are still being stopped, to be cancelled. -/
def State.kidsLeft (s : State) (t : TaskId) : List TaskId := (s.descendants (s.tasks.length + 1) [t]).filter s.cancelling

/-- Work on a task waits until the tasks below it are cancelled (R278 step 6). -/
def State.waitKids (s : State) (t : TaskId) (w : Todo) : State :=
  { s with stops := s.stops ++ [{ blks := [], kids := s.kidsLeft t, next := [w] }] }

/-- One piece of work, and what it leaves to do. -/
def State.todoStep (s : State) : Todo → State × List Todo
  | .raised line =>
    let gr := s.lineGrade line
    let subs := s.subs.filter fun x => x.line == line
    let mine := (subs.filter fun x => x.chip == none).map fun x => x.task
    let peers := subs.filterMap fun x => x.chip.map fun c => Todo.notice c x.task line false gr
    let s : State :=
      if gr == 3 then { s with subs := s.subs.filter fun x => x.line != line }
      else { s with subs := s.subs.map fun (x : Sub) => if x.line == line then { x with grade := gr } else x }
    (mine.foldl State.syncCounts s, mine.map Todo.settle ++ peers)
  | .settle t =>
    if (s.taskRow t).isSome && s.tState t == tComplete then
      let eff := s.tEff t
      let lines := s.ownLines t
      let s' := lines.foldl (fun s l => s.raiseTo l.1 (gradeMax (s.lineGrade l.1) (gradeMin l.2 eff))) s
      let up := (lines.filter fun l => s'.lineGrade l.1 != s.lineGrade l.1).map fun l => Todo.raised l.1
      if eff == 3 then
        (((s'.setTState t tRipe).setRecFld t 464 16 0).unsubscribe t, up ++ [.handlerFree t])
      else (s', up)
    else (s, [])
  | .refire t =>
    let x := s.tState t
    if (s.taskRow t).isSome && (x == tRunning || x == tComplete) then
      if s.tGen t == 15 then (s, [.fault t 0x17])
      else
        let s := (s.setRecFld t 484 4 (s.tGen t + 1)).setTState t tRefire
        s.stopTask t [.refireEnd t]
    else (s, [])
  | .refireEnd t =>
    let r := s.undoTask t false
    (r.1, r.2 ++ [.refireReady t])
  | .refireReady t =>
    if (s.taskRow t).isNone || s.tState t != tRefire then (s, [])
    else if (s.kidsLeft t).isEmpty then (s.makeReady t, [])
    else (s.waitKids t (.refireReady t), [])
  | .retract line => s.retractLine line
  | .fault t code =>
    -- the run of a task that is to be re-fired is discarded, and so is its fault (R278, R283)
    if s.tLive t && s.tState t != tFaulted && s.tState t != tRefire then
      let s := (s.setRecFld t 496 8 code.toNat).setTState t tFaulted
      let h : TaskId := { job := t.job, rec' := s.tHandler t }
      let s := if h.rec' == 0 then s
        else { s with handlerWait := s.handlerWait ++ [{ handler := h, task := t, code := code, ready := false }] }
      s.stopTask t [.faultEnd t code]
    else (s, [])
  | .faultEnd t code =>
    let r := s.undoTask t false
    (r.1, r.2 ++ .childDone t :: ((s.handlerWait.filter fun w => w.task == t && w.code == code && !w.ready).map fun w =>
      Todo.handler w.handler t code))
  | .handler h t code =>
    if !(s.kidsLeft t).isEmpty then (s.waitKids t (.handler h t code), [])
    else ({ s with handlerWait := s.handlerWait.map fun w =>
      if w.handler == h && w.task == t && w.code == code then { w with ready := true } else w }, [.handlerFree h])
  | .cancel t =>
    let x := s.tState t
    if (s.taskRow t).isNone || x == tRipe || x == tCancelled || s.cancelling t then (s, [])
    else s.stopTask t [.cancelEnd t]
  | .cancelEnd t =>
    let r := s.undoTask t true
    (r.1.setTState t tCancelled |>.modTaskRow t fun w => { w with contDone := true },
      r.2 ++ [.childDone t, .handlerFree t])
  | .perform gid acc => s.performStopped gid acc
  | .freeBlock b => (s.removeBlock b, [])
  | .endGrid g status =>
    if (s.grid g).ended then (s, [])
    else
      let gs := s.gridTree 10 [g]
      let s := gs.foldl (fun (s : State) k => s.markEnded (if k == g then status else 0x101) k) s
      s.stopRun (gs.flatMap s.blocksOf) (gs.map Todo.gridOver)
  | .gridOver g =>
    let x := s.grid g
    if x.done || (x.record.caddr != 0 && s.unitHeld (s.place x.job x.record.caddr.toNat)) then (s, [])
    else
    let s := (s.writeCompletion g x.status).setGrid g { x with done := true }
    let s := match x.parent with
      | some _ =>
        if x.task == 0 then s
        else
          let t := s.taskAt x.job x.task
          s.setRecFld t 512 16 (s.tChildren t - 1)
      | none => s
    if x.status == 0 && x.cont != 0 then (s, [.spawn { job := x.job, rec' := x.cont } 0 true none]) else (s, [])
  | .spawn t parent go words => ((s.spawnTask t parent.toNat go words).1, [])
  | .childDone t =>
    match s.taskRow t with
    | some w =>
      if w.counted then
        let p : TaskId := { job := t.job, rec' := s.tParent t }
        ((s.modTaskRow t fun w => { w with counted := false }).setRecFld p 512 16 (s.tChildren p - 1), [])
      else (s, [])
    | none => (s, [])
  | .handlerFree h =>
    match s.handlerWait.find? fun w => w.handler == h with
    | none => (s, [])
    | some w =>
      if !w.ready || s.tLive h then (s, [])
      else ({ s with handlerWait := s.handlerWait.erase w },
        [.spawn h 0 true (some (BitVec.ofNat 32 (s.taskIdx w.task), BitVec.setWidth 32 w.code))])
  | .notice chip t line refire g =>
    let va := (s.lineVa t.job line).getD 0
    (s.inject { s.packet chip t.job 4 false va [] [] with
      grade := g, task := t.rec', redOp := if refire then 1 else 0 }, [])

/-- Run a work list. -/
def State.runTodo : Nat → State → List Todo → State
  | 0, s, _ => s
  | _ + 1, s, [] => s
  | n + 1, s, w :: ws =>
    let r := s.todoStep w
    State.runTodo n r.1 (r.2 ++ ws)

/-- A bound on the work of one event. -/
def State.todoFuel (s : State) : Nat :=
  4096 + 256 * (s.tasks.length + s.subs.length + s.grades.length + s.groups.length + s.grids.length)

/-- Work for the Binder is done at once, or kept while it is held (R387). -/
def State.runAll (s : State) (ws : List Todo) : State :=
  if s.binderHeld then { s with todoHeld := s.todoHeld ++ ws } else State.runTodo s.todoFuel s ws

/-- The work of a group ends with a fault no handler takes (R344): its task faults, or its grid fails. The group goes no
further: it halts where it stands (R278). -/
def State.failWork (s : State) (gid : Nat) (code : BitVec 8) : State :=
  let s := s.modGrp gid fun g => { g with heldAt := g.clause.isSome }
  match s.grpTask gid with
  | some t => s.runAll [.fault t code]
  | none => s.runAll [.endGrid (s.blockOf gid).grid code.toNat]

/-- Runs that are being stopped and have halted are over, and what follows them is done (R278, R297). -/
def State.settleStops : Nat → State → State
  | 0, s => s
  | n + 1, s =>
    match s.stops.findIdx? fun p => p.blks.all s.halted && p.kids.all fun t => !(s.cancelling t) with
    | none => s
    | some i =>
      match s.stops[i]? with
      | none => s
      | some p =>
        let r := State.stopBlocks { s with stops := s.stops.eraseIdx i } (p.blks.filter fun b => (Tbl.find s.blocks b).isSome)
        State.settleStops n (r.1.runAll (r.2 ++ p.next))

/-- A fatal fault: the grid fails at once (R342), or the task faults when the work is a task body (R344). -/
def State.fatal (s : State) (gid : Nat) (code : BitVec 8) : State := s.failWork gid code

/-- A `promote` acts on its lines in order, as graded stores, until its task's list holds it (R276, R299). -/
def State.promoteLines : Nat → State → Nat → Nat → State
  | 0, s, _, _ => s
  | n + 1, s, gid, acc =>
    match (s.grp gid).out.find? fun a => a.id == acc with
    | none => s
    | some a => match a.op, s.promoteRest gid a with
      | .promote gr, l :: _ =>
        if !(s.storesBefore gid a) || s.resetHolds gid a || s.binderHeld || s.listFull gid [l.2 / 128] then s
        else
          let r := s.gradedStoreBy (s.grpTask gid) l.1 l.2 [] gr
          let s := (r.1.modAcc gid acc fun b => { b with data2 := [BitVec.ofNat 128 (l.2 + 128)] }).runAll r.2.1
          State.promoteLines n s gid acc
      | _, _ => s

/-- ACCESS_COMPLETION's effect: the named lanes of an outstanding instruction are performed, and it completes when
all of it is (R166). One that a restore has still to issue again is not performed (R333). The scalars of one that is not lane by
lane land at once, or, of an event that names no lane, each or not (R40). -/
def State.accessCompletion (s : State) (gid acc : Nat) (lanes : Dword) : State :=
  match (s.grp gid).out.find? fun a => a.id == acc with
  | none => s
  | some a =>
    if a.st == .abandoned then s
    else if a.op.perLane then (s.performLanes gid a lanes false).completeIfDone gid acc
    else if !a.got.isEmpty then (s.landScalars gid a (lanes != 0)).completeIfLanded gid acc
    else
      let s := if a.op == .rrec then s.closeLine gid (a.addrOf 0) else s
      let s := State.promoteLines (s.promoteRest gid a).length (s.fenceMark gid a) gid acc
      match (s.grp gid).out.find? fun a => a.id == acc with
      | none => s
      | some a => match s.performOp gid a false with
        | none => s.modAcc gid acc fun b => { b with waiting := true }
        | some r =>
          if lanes == 0 then ((r.1.delayScalars gid a (s.sreg gid)).completeIfLanded gid acc).runAll r.2
          else (r.1.complete gid a).runAll r.2

end Sys2Proof.Machine
end

