-- ==== Sys2Proof/Machine/Copy.lean ====
section
/-!
DEFINITION. The data of bulk copies (R146, R217 to R221): when a line may move, what it reads and writes, and what comes of
the attempt. COPY_DATA_ARRIVAL and parking both use it.
-/
namespace Sys2Proof.Machine

/-- Every earlier store of the group has been performed at its home (R216, R218), its copies' too as far as they have been made
(DEDUCED, log entry 105). -/
def State.storesDone (s : State) (gid : Nat) (before : Nat) : Bool :=
  let mine := ofLanes gid (BitVec.allOnes 64)
  ((s.accsBefore gid before).all fun b => !b.op.storeLike) &&
    (s.unsentBy mine).isEmpty && (s.unclosedBy (s.coreOf gid) mine).isEmpty

/-- The in-range elements of a copy's tile, by address. -/
def TRec.inRange (r : TRec) (org : List Int) : List Nat := (List.range r.tileElems).filterMap (r.elemAt org)

/-! ### The data of a copy arrives (R146, R218 to R220) -/

/-- A scratchpad access issued before the copy still has the line to touch (R146 step 1, R219). -/
def State.olderTouch (s : State) (c : Copy) (line : Nat) : Bool :=
  s.groups.any fun g => g.2.out.any fun a =>
    decide (a.id < c.id) && a.op.scratch &&
      (lanesOf a.left).any fun L =>
        locBlock (a.addrOf L) == c.blk && overlap (locOff (a.addrOf L)) (fmtSize a.fmt) (128 * line) 128

/-- An older copy still has the line to move. -/
def State.olderCopy (s : State) (c : Copy) (line : Nat) : Bool :=
  s.copies.any fun x => decide (x.id < c.id) && x.blk == c.blk && x.lines.contains line

/-- Translate the in-range addresses of a line; the first that fails. -/
def State.copyWalk (s : State) (c : Copy) (p : Perm) (vas : List Nat) : Option (Nat × BitVec 8) :=
  vas.findSome? fun va => match s.walkAhead (s.coreOf c.gid) (s.jobOf c.gid) va p with
    | .missing => some (va, fPageMissing)
    | .denied => some (va, fPagePerm)
    | .ok _ => none

/-- The location the walk-ahead TLB gives. -/
def State.aheadLoc (s : State) (gid : Nat) (p : Perm) (va : Nat) : Nat :=
  match s.walkAhead (s.coreOf gid) (s.jobOf gid) va p with
  | .ok l => l
  | _ => 0

/-- A read by the Reaper: at the home or from the registrant for local memory, by a combining read in a commutative range,
as `ld` reads for remote and host lines (R218); it allocates at the record's priority (R213). -/
def State.reapRead (s : State) (gid loc va n prio : Nat) : Nat × State :=
  match s.commAt (s.jobOf gid) va with
  | some _ => s.readThere (s.jobOf gid) va loc n
  | none =>
    if isLocal loc then s.readFill (s.coreOf gid) gid loc n prio else s.readL1 (s.coreOf gid) gid loc n prio

/-- One element of an arriving line. -/
def State.copyInElem (s : State) (c : Copy) (e : Nat × Nat) : State :=
  let n := c.record.esize
  let s := s.dropLate (scratchLoc c.blk e.1) n
  match c.record.elemAt c.org e.2 with
  | none => s.scratchWrite c.blk e.1 n (c.record.pad.toNat % 256 ^ n)
  | some va =>
    let loc := s.aheadLoc c.gid .read va
    let r := s.reapRead c.gid loc va n (if c.record.e0 then 0 else 3)
    (r.2.poisonCheck c.gid 64 loc (BitVec.ofNat 64 va)).scratchWrite c.blk e.1 n r.1

/-- A plain device-scope store by the Reaper for a group (R219), to local or host memory. -/
def State.reapStore (s : State) (gid loc n v : Nat) : State :=
  let core := s.coreOf gid
  if isLocal loc then ((s.countWrite core loc).l1Touch core gid (lineOf loc) 3).coreWrite core loc n v
  else ({ s with mem := Memory.write s.mem loc n v }).l1Patch core loc n

/-- The in-range elements of scratchpad lines of a tile: scratchpad offset and address. -/
def Copy.elems (c : Copy) (lines : List Nat) : List (Nat × Nat) :=
  lines.flatMap fun l => (c.record.lineElems c.off l).filterMap fun e => (c.record.elemAt c.org e.2).map fun va => (e.1, va)

/-- The tile covers every byte of a line of memory. -/
def Copy.covers (c : Copy) (line : Nat) : Bool :=
  let vas := c.record.inRange c.org
  (List.range (128 / c.record.esize)).all fun k => vas.contains (128 * line + c.record.esize * k)

/-- The scratchpad lines that one event of an `rcopyo` moves with given ones: those that hold bytes of a line of memory which
the copy covers completely (R165, R219). -/
def Copy.together (c : Copy) : Nat → List Nat → List Nat
  | 0, ls => ls
  | n + 1, ls =>
    let whole := ((c.elems ls).map fun e => e.2 / 128).eraseDups.filter c.covers
    let more := c.lines.filter fun l => !ls.contains l && (c.elems [l]).any fun e => whole.contains (e.2 / 128)
    if more.isEmpty then ls else Copy.together c n (ls ++ more)

/-- The lines a copy moves when it moves one. -/
def Copy.event (c : Copy) (line : Nat) : List Nat := if c.out then c.together c.lines.length [line] else [line]

/-- Scratchpad lines depart: a line of a peer's memory enters the write-combining buffer once, with all its bytes (R356). -/
def State.copyOutLines (s : State) (c : Copy) (lines : List Nat) : State :=
  let n := c.record.esize
  let loc := fun (va : Nat) => s.aheadLoc c.gid .write va
  let es := c.elems lines
  let far := es.filter fun e => isRemote (loc e.2)
  let s' := (es.filter fun e => !(isRemote (loc e.2))).foldl (fun (s : State) e =>
    s.reapStore c.gid (loc e.2) n (s.scratchRead c.blk e.1 n)) s
  if far.isEmpty then s'
  else s'.wcbStore (s.coreOf c.gid) (s.jobOf c.gid) false (((far.map fun e => lineOf (loc e.2)).eraseDups).map fun l =>
    { chip := chipOf (128 * l), line := lineOf (128 * l % 2 ^ 64), threads := reaperOf c.gid,
      bytes := (far.filter fun e => lineOf (loc e.2) == l).foldl (fun (m : Memory) e =>
        (List.range n).foldl (fun m i => Tbl.put m (loc e.2 % 2 ^ 64 + i) (BitVec.ofNat 8 (s.scratchRead c.blk e.1 n / 256 ^ i))) m) [] })

/-- Copies with nothing left to move complete: an `rcopy` when every line it targets is present (R217). -/
def State.finishCopies (s : State) : State :=
  let done := s.copies.filter fun c =>
    c.lines.isEmpty && (c.out || (c.record.lines c.off).all fun l => (Tbl.find (s.blk c.blk).absent l).isNone)
  done.foldl (fun (s : State) c =>
    { (s.modGrp c.gid fun g => g.subToken c.tok) with copies := s.copies.filter fun x => x.id != c.id }) s

def State.modCopy (s : State) (id : Nat) (f : Copy → Copy) : State :=
  { s with copies := s.copies.map fun (c : Copy) => if c.id == id then f c else c }

/-- The line is moved: an arriving one becomes present if no later copy targets it (R146 step 3). -/
def State.lineMoved (s : State) (c : Copy) (line : Nat) : State :=
  let s := s.modCopy c.id fun x => { x with lines := x.lines.filter (· != line), waiting := false }
  let s := if !c.out && Tbl.find (s.blk c.blk).absent line == some c.id then
      s.modBlk c.blk fun k => { k with absent := Tbl.del k.absent line }
    else s
  s.finishCopies

/-- An arriving line reaches a graded line below final, on which the copy waits (R218). -/
def State.copyBelow (s : State) (c : Copy) (vas : List Nat) : Bool :=
  vas.any fun va => (s.gradedAt (s.jobOf c.gid) va).isSome && s.lineGrade (lineOf (s.aheadLoc c.gid .read va)) != 3

/-- A fault entry of the copy is still to be answered. -/
def State.copyFaulted (s : State) (id : Nat) : Bool :=
  s.dies.any fun d => (d.2.fqWait.any fun e => e.copy == id) || d.2.fq.any fun e => e.2.copy == id

/-- Remote reads by the Reaper at given addresses may be made now (R360); they close the entries of their lines (R357). -/
def State.reapOpen (s : State) (gid : Nat) (vas : List Nat) : Bool :=
  vas.all fun va =>
    let loc := s.aheadLoc gid .read va
    !(isRemote loc) || s.fabricOpen (s.jobOf gid) (chipOf loc) (loc % 2 ^ 64) false

def State.reapClose (s : State) (gid : Nat) (vas : List Nat) : State :=
  let ls := (vas.map (s.aheadLoc gid .read)).filter isRemote
  if ls.isEmpty then s
  else s.closeEntries (s.coreOf gid) fun e => ls.any fun l => e.at' (s.jobOf gid) (chipOf l) (lineOf (l % 2 ^ 64))

/-- A copy may go on: its block is resident, and no fault entry of it is unanswered. -/
def State.copyRuns (s : State) (c : Copy) : Bool := (s.blockOf c.gid).resident && !(s.copyFaulted c.id)

/-- The writes of an `rcopyo`, plain stores of its group, need not wait for an instruction that the group issued before: its
loads and acquires are performed (R184, R188), so are its writes of the same bytes (R183), with graded ones classified, and, for
a peer's memory, every remote write to that target (R379). -/
def State.copyFollows (s : State) (c : Copy) (b : Acc) (locs : List Nat) : Bool :=
  let common := fun M => locs.any fun x => overlap x c.record.esize (b.addrOf M) (fmtSize b.fmt)
  let target := fun M => isRemote (b.addrOf M) && locs.any fun x => isRemote x && chipOf x == chipOf (b.addrOf M)
  decide (c.id < b.id) || (!(b.op.pops && b.got.isEmpty) && (!b.op.perLane || (lanesOf (s.undone b)).all fun M =>
    !(b.op.reads || b.acquires || (!b.op.scratch && (common M || (b.op.writes && target M))))))

/-- What comes of moving a line of a copy: it is moved, with the lines that one event moves, or the entries which its read
closes are on their way; its page is missing or forbidden there, or outside the job; it waits for a grade; or its turn has not
come. -/
inductive CopyStep where
  | moved (s : State)
  | page (va : Nat) (code : BitVec 8)
  | outside
  | below
  | stays

/-- A copy moves one of its lines, with those that one event moves together, if the order of R146, R218, R219 and R360 lets it
and, as a store of its group, that of R183, R184 and R188; a job being switched out makes no remote access (R370). A copy into or
out of another stook member's scratchpad uses the core of the issuing group for all but the array (R217; log entry 93). -/
def State.copyStep (s : State) (c : Copy) (line : Nat) : CopyStep :=
  let perm := if c.out then Perm.write else .read
  let lines := c.event line
  let vas := (c.elems lines).map fun e => e.2
  let locs := vas.map (s.aheadLoc c.gid perm)
  if !(c.lines.contains line && s.copyRuns c) || lines.any (fun l => s.olderTouch c l || s.olderCopy c l) ||
      (!(s.jobRuns (s.jobOf c.gid)) && locs.any isRemote) ||
      (c.out && !((s.grp c.gid).out.all fun b => s.copyFollows c b locs)) ||
      (!c.out && !(s.storesDone c.gid c.id)) then .stays
  else match s.copyWalk c perm vas with
    | some f => .page f.1 f.2
    | none =>
      if locs.any (s.heldByReset (dieOf (s.coreOf c.gid))) then .stays
      else if locs.any (s.outsideJob (s.jobOf c.gid)) then .outside
      else if !c.out && s.copyBelow c vas then .below
      else
        let keep := fun (t : State) => t.keepWalk (s.coreOf c.gid) (s.jobOf c.gid) perm vas
        if c.out then .moved (keep (lines.foldl (fun (s : State) l => s.lineMoved c l) (s.copyOutLines c lines)))
        else
          let s := s.reapClose c.gid vas
          .moved (keep (if s.reapOpen c.gid vas then
              ((c.record.lineElems c.off line).foldl (fun (s : State) e => s.copyInElem c e) s).lineMoved c line
            else s))

/-- Every line of a copy that can be moved is moved; a copy below a grade waits for it (R330 step 3). -/
def State.settleCopy (s : State) (id : Nat) (lines : List Nat) : State :=
  lines.foldl (fun (s : State) l =>
    match s.copies.find? fun c => c.id == id with
    | none => s
    | some c => match s.copyStep c l with
      | .moved t => t
      | .below => s.modCopy id fun x => { x with waiting := true }
      | .page _ _ => s
      | .outside => s
      | .stays => s) s

end Sys2Proof.Machine
end

