-- ==== Sys2Proof/Machine/Frame.lean ====
section
/-!
DEFINITION. The context frame of a parked block as memory holds it (R339 to R341, R143, R192, R221, R227, R231, R237): the
sections in their order, each on a 128-byte boundary. The layout inside the sections of slices, block state, copies and the
Thresher, for which the manual gives sizes and contents only, is the model's (log entry 9).
-/
namespace Sys2Proof.Machine

def align128 (n : Nat) : Nat := (n + 127) / 128 * 128

/-- A field at a bit position. -/
def at' (lo v : Nat) : Nat := v * 2 ^ lo

/-- Bytes of the Thresher section: 16 tiles of 16 KiB, 8 code sets of 64 bytes, 256 set records, the sequencer. -/
def thresherBytes : Nat := 262144 + 512 + 4096 + 256

/-- The bytes a block's frame takes in its pool (R339), each recorded section at its largest: 64 instructions of each
group, and the 255 copies that the header can count. The scratchpad, extension and Thresher sections stand where the record
declares them. -/
def LRec.frameSize (r : LRec) : Nat :=
  let g := r.groups
  128 + 256 * g + 1536 * g + align128 (4 * r.scalars * g) + 256 * r.rounded * g + align128 (32 * g) +
  (if r.ext then align128 (32832 * ((g + 1) / 2)) else 0) + (if r.slice == 0 then 0 else 768 * g) + 2048 +
  align128 (96 * 255) + 2048 * g + (if r.carve == 0 then 0 else align128 (4096 * r.carven + 4 * r.carven)) +
  (if r.thr then thresherBytes else 0)

/-! ### Header, groups and threads (R340, R341) -/

/-- The header word of a block's frame (R340). -/
def State.frameHeader (s : State) (b : Nat) (f : Frame) : Nat :=
  let k := s.blk b
  let r := k.record
  let stk := (s.stk k.stook).members
  let next := match stk.find? fun m => (s.blk m).sidx == k.sidx + 1 with
    | some m => (s.blk m).fAddr
    | none => 0
  let grid := s.grid k.grid
  at' 0 grid.recVa.toNat + at' 64 (if k.task == 0 then 0 else (s.taskAt k.job k.task).rec') + at' 128 k.age +
  at' 192 f.timer + at' 256 k.job + at' 288 f.wake.toNat + at' 304 (f.pend % 256) + at' 312 r.prio +
  at' 320 r.groups + at' 327 k.sidx + at' 330 stk.length +
  at' 333 (if k.thrSave.isSome then 1 else 0) + at' 334 (if r.ext then 1 else 0) +
  at' 335 (if r.slice == 0 then 0 else 1) + at' 336 f.reason +
  at' 344 (s.copies.filter fun c => k.gids.contains c.gid).length + at' 352 (f.size / 128) + at' 384 next

/-- Where a group is suspended inside a clause: header, word, and whether that word resumes; header 0 for nowhere. A cluster
that `eret` has sent into a clause stands there too (R349). -/
def Group.suspended (g : Group) : Dword × Nat × Bool :=
  match g.clause with
  | some k => (k.hdr, k.idx, g.heldAt)
  | none => match g.cur with
    | some c => if c.res == 0 then (0, 0, false) else (g.header c, c.word, true)
    | none => (0, 0, false)

/-- The head of a window as a place among its registers. -/
def Group.headAt (g : Group) (q depth : Nat) : Nat := (Tbl.find g.heads q).getD 0 % depth

/-- The group control block (R341). -/
def State.groupControl (s : State) (gid : Nat) : Nat :=
  let g := s.grp gid
  let at0 := g.suspended
  let depth := (s.blockOf gid).record.qdepth
  let tok := (List.range 15).foldl (fun x i => x + at' (6 * i) (g.token (i + 1) % 64)) 0
  let brec := (List.range 24).foldl (fun x i => x + at' (2 * i) ((Tbl.find g.brec i).getD 0)) 0
  let queues := (List.range 8).foldl (fun x i =>
    x + at' (7 * i) (((g.queue i).countP fun e => e.full) + 16 * g.headAt i depth)) 0
  let lock := ((Tbl.find (s.core (s.coreOf gid)).ext g.pair).getD ExtPair.zero).holder == some gid
  at' 0 g.rngK.toNat + at' 64 g.rngC.toNat + at' 128 g.fpc.toNat + at' 192 g.faddr.toNat + at' 256 g.fcode.toNat +
  at' 264 g.finfo.toNat + at' 272 g.flane.toNat +
  at' 280 (match g.bfault with | some f => f.code.toNat | none => 0) +
  at' 288 (match g.cur with | some k => lowestLane k.lanes | none => 64) + at' 296 (if g.inh then 1 else 0) +
  at' 297 (if lock then 1 else 0) + at' 298 (if g.xreq then 1 else 0) + at' 299 (if g.reo.isSome then 1 else 0) +
  at' 300 (if at0.2.2 then 1 else 0) + at' 304 at0.2.1 + at' 320 at0.1.toNat + at' 384 tok + at' 480 brec + at' 576 queues +
  at' 640 g.fhdr.toNat + at' 704 g.out.length

/-- The saved PC of a thread: of the cluster suspended in an open clause, the held instruction (R78, R337). -/
def Group.savedPc (g : Group) (L : Nat) : Dword :=
  match g.clause with
  | some c => if inMask g.curLanes L then c.pc else g.pc L
  | none => g.pc L

/-- A thread entry: PC, MR, the age of its cluster, exited (R341). -/
def Group.threadEntry (g : Group) (L : Nat) : Nat :=
  let age := match g.pend.find? fun p => inMask p.lanes L with
    | some p => p.age
    | none => 0
  at' 0 (g.savedPc L).toNat + at' 64 (g.mr L).toNat + at' 128 (age % 256) + at' 136 (if g.live L then 0 else 1)

/-! ### Registers and tags (R339) -/

/-- The code of a tag (R22). -/
def tagCode (t : Tag) : Nat :=
  match t with
  | .b32 => 0 | .i32 => 1 | .f32 => 2 | .bf16x2 => 3 | .f16x2 => 4 | .d8x4 => 5 | .i8x4 => 6 | .c8x4 => 7 | .s8x4 => 8

/-- The reserved entries of a group's windows (R224): window, slot and the `qput` that fills each. -/
def Group.reservedPuts (g : Group) (depth : Nat) : List (Nat × Nat × QEntry) :=
  (List.range 8).flatMap fun q =>
    (((List.range (g.queue q).length).zip (g.queue q)).filter fun x => !x.2.full).map fun x =>
      (q, (g.headAt q depth + x.1) % depth, x.2)

/-- How many reserved `qput`s the 768 bytes of slice state hold beside the rest of it (log entry 9). -/
def slicePuts : Nat := 22

/-- The `qput` of a reserved entry (R227; log entry 9) in 18 bytes: base, stride, format with the space in bit 4, window, slot and 1. -/
def QEntry.putImage (e : QEntry) (q slot : Nat) : Nat :=
  at' 0 e.base.toNat + at' 64 e.stride.toNat + at' 128 ((MFmt.bits e.fmt).toNat + if e.sp then 16 else 0) + at' 133 q +
  at' 136 slot + at' 139 1

/-- A `qput` that the slice state has no room for, in the first five lanes of its entry's register (log entry 9). -/
def QEntry.reservedImage (e : QEntry) (q slot : Nat) : VReg :=
  { lanes := (List.range 64).map fun L => BitVec.ofNat 32 (e.putImage q slot / 2 ^ (32 * L)), tag := .b32 }

/-- A base register as the frame keeps it: those of the queue windows hold the windows' complete entries, from their heads on. -/
def State.savedReg (s : State) (gid n : Nat) : VReg :=
  let r := (s.blockOf gid).record
  let g := s.grp gid
  if n < r.usable then s.vreg gid n
  else
    let q := (n - r.usable) / r.qdepth
    let j := ((n - r.usable) % r.qdepth + r.qdepth - g.headAt q r.qdepth) % r.qdepth
    match (g.queue q)[j]? with
    | some e =>
      if e.full then { lanes := e.lanes, tag := e.tag }
      else if ((g.reservedPuts r.qdepth).drop slicePuts).any (fun x => x.1 == q && x.2.1 == (n - r.usable) % r.qdepth) then
        e.reservedImage q ((n - r.usable) % r.qdepth)
      else VReg.zero
    | none => VReg.zero

/-! ### Slices, block state, copies and abandoned instructions -/

/-- The state of a slice in its 768 bytes: PC, x0–x31, loop stack, state and fault code, its open clause's header, and the reserved
`qput`s of the group, as many as there is room for. -/
def Group.sliceImage (g : Group) (depth : Nat) : Nat :=
  let puts := (g.reservedPuts depth).take slicePuts
  let x := g.slice
  let st := match x.st with
    | .none => 0 | .running => 1 | .paused => 2 | .ended => 3
  at' 0 (match x.clause with | some c => c.pc.toNat | none => x.pc.toNat) +
  (List.range 32).foldl (fun v i => v + at' (64 + 64 * i) ((Tbl.find x.xs i).getD 0).toNat) 0 +
  ((List.range 5).zip x.loops).foldl (fun v l =>
    v + at' (2112 + 128 * l.1) l.2.1.toNat + at' (2176 + 128 * l.1) l.2.2.toNat) 0 +
  at' 2752 st + at' 2754 (if x.faulted then 1 else 0) + at' 2756 x.loops.length + at' 2760 (x.skip % 256) +
  at' 2768 x.fcode.toNat + at' 2816 (match x.clause with | some c => c.hdr.toNat | none => 0) +
  ((List.range slicePuts).zip puts).foldl (fun v p => v + at' (2880 + 144 * p.1) (p.2.2.2.putImage p.2.1 p.2.2.1)) 0

/-- A barrier in 4 bytes (R192). -/
def Bar.image (b : Bar) : Nat := at' 0 b.n + at' 9 b.a + at' 18 (if b.p then 1 else 0)

/-- An arrival at `reorder` (R131) in 24 bytes: its instruction with the `.s` bit, its clause, its live mask; the keys are those
that the instruction reads. -/
def Arrival.image (a : Arrival) : Nat := at' 0 (a.pc.toNat + if a.sg then 1 else 0) + at' 64 a.hdr.toNat + at' 128 a.mask.toNat

/-- The block's state in its 2 KiB: barriers, those of a stook with its member 0, trap address, declared leases, arrivals. -/
def State.blockImage (s : State) (b : Nat) : Nat :=
  let k := s.blk b
  let bar := fun i => (Tbl.find (if i < 16 then k.bars else if k.sidx == 0 then (s.stk k.stook).bars else []) i).getD Bar.zero
  let gs := (List.range k.gids.length).zip k.gids
  (List.range 24).foldl (fun v i => v + at' (32 * i) (bar i).image) 0 + at' 768 k.record.trap.toNat +
  gs.foldl (fun v g => v + at' (1024 + 16 * g.1) (s.grp g.2).leaseNext) 0 +
  gs.foldl (fun v g => v + at' (2048 + 192 * g.1) (match (s.grp g.2).reo with | some a => a.image | none => 0)) 0

/-- A tensor record's bits (R213). -/
def TRec.toBits (r : TRec) : Nat :=
  at' 480 r.pad.toNat + at' 475 (if r.e0 then 1 else 0) + at' 472 r.swz + at' 468 r.tag + at' 464 r.rank +
  (List.range 5).foldl (fun v k => v + at' (384 + 16 * k) (r.tiles.getD k 0) + at' (64 + 32 * k) (r.sizes.getD k 0)) 0 +
  (List.range 4).foldl (fun v k => v + at' (224 + 40 * k) (r.strides.getD (k + 1) 0)) 0 + at' 0 r.base.toNat

/-- A copy in flight (R221) in 96 bytes: record, origin, scratchpad address, token, direction, issuer, group. -/
def State.copyImage (s : State) (c : Copy) : Nat :=
  c.record.toBits + (List.range 5).foldl (fun v k => v + at' (512 + 32 * k) (BitVec.ofInt 32 (c.org.getD k 0)).toNat) 0 +
  at' 672 ((s.blk c.blk).sidx * 2 ^ 24 + c.off) + at' 704 c.tok.toNat + at' 708 (if c.out then 1 else 0) +
  at' 709 (if c.slice then 1 else 0) + at' 712 (s.grp c.gid).idx

/-- An abandoned instruction (R341). -/
def Acc.image (a : Acc) : Nat := at' 0 a.pc.toNat + at' 64 (a.act &&& a.done).toNat + at' 128 a.hdr.toNat + at' 192 a.tok.toNat

/-! ### The Thresher (R231, R237) -/

/-- The 128-bit record of a set (R237). -/
def SetRec.image (r : SetRec) : Nat :=
  at' 80 1 + at' 79 (if r.valid then 1 else 0) + at' 69 (BitVec.ofInt 10 r.e).toNat + at' 68 (if r.inf then 1 else 0) +
  at' 65 r.cset + at' 61 (if r.d8 then 5 else 3) + at' 59 r.lg + at' 56 r.lm + at' 47 r.slot + at' 26 r.len + at' 0 r.base

def CodeSet.image (c : CodeSet) : Nat :=
  ((List.range 16).foldl (fun v i => v + at' (16 * i) (c.vals.getD i 0).toNat) 0) + at' 256 c.count

/-- The sequencer: PC, state, fault code and PC, barrier records, open clause, k0–k31. -/
def Thresher.seqImage (t : Thresher) : Nat :=
  let st := match t.st with
    | .idle => 0 | .running => 1 | .waiting => 2 | .ended => 3 | .faulted => 4
  at' 0 (match t.clause with | some c => c.pc.toNat | none => t.pc.toNat) + at' 64 t.fpc.toNat + at' 128 st +
  at' 136 t.fcode.toNat + (List.range 16).foldl (fun v i => v + at' (160 + 2 * i) ((Tbl.find t.brec i).getD 0)) 0 +
  at' 192 (match t.clause with | some c => c.hdr.toNat | none => 0) +
  (List.range 32).foldl (fun v i => v + at' (256 + 32 * i) ((Tbl.find t.ks i).getD 0).toNat) 0

/-! ### The image in memory (R339) -/

/-- Images of one size, one after another. -/
structure Section where
  each : Nat
  items : List Nat
  deriving DecidableEq, Repr

/-- The registers and tags of an extension set: 32 KiB and 64 bytes. -/
def extItems (regs : Tbl VReg) : List Nat :=
  let reg := fun i => (Tbl.find regs (64 + i)).getD VReg.zero
  (List.range 128).flatMap (fun i => (reg i).lanes.map fun w => w.toNat) ++
    (List.range 16).map fun j => (List.range 8).foldl (fun x i => x + at' (4 * i) (tagCode (reg (8 * j + i)).tag)) 0

/-- The sections of a block's frame, in order (R339). -/
def State.sections (s : State) (b : Nat) (f : Frame) : List Section :=
  let k := s.blk b
  let r := k.record
  let regs := List.range r.rounded
  let base := [⟨128, [s.frameHeader b f]⟩, ⟨256, k.gids.map s.groupControl⟩,
    ⟨24, k.gids.flatMap fun g => (List.range 64).map (s.grp g).threadEntry⟩,
    ⟨4, k.gids.flatMap fun g => (List.range r.scalars).map fun i => (s.sreg g i).toNat⟩,
    ⟨4, k.gids.flatMap fun g => regs.flatMap fun i => (s.savedReg g i).lanes.map fun w => w.toNat⟩,
    ⟨32, k.gids.map fun g => regs.foldl (fun x i => x + at' (4 * i) (tagCode (s.savedReg g i).tag)) 0⟩]
  let ext := if k.extSave.isEmpty then [] else [⟨4, k.extSave.flatMap fun e => extItems e.2⟩]
  let slices := if r.slice == 0 then [] else [⟨768, k.gids.map fun g => (s.grp g).sliceImage r.qdepth⟩]
  let flight := [⟨2048, [s.blockImage b]⟩, ⟨96, (s.copies.filter fun c => k.gids.contains c.gid).map s.copyImage⟩,
    ⟨32, k.gids.flatMap fun g => (s.grp g).out.map Acc.image⟩]
  let scratch := if r.carve == 0 then [] else
    [⟨4, (List.range (1024 * r.carven)).map fun i => Memory.read k.scratch (4 * i) 4⟩,
     ⟨4 * r.carven, [(List.range (32 * r.carven)).foldl (fun v i => if (Tbl.find k.absent i).isNone then v + 2 ^ i else v) 0]⟩]
  let thr := match k.thrSave with
    | none => []
    | some t => [⟨4, (List.range 65536).map fun i => ((Tbl.find t.tiles i).getD 0).toNat⟩,
        ⟨64, (List.range 8).map fun i => ((Tbl.find t.csets i).getD CodeSet.zero).image⟩,
        ⟨16, (List.range 256).map fun i => match Tbl.find t.sets (2 * i) with | some x => x.image | none => 0⟩,
        ⟨256, [t.seqImage]⟩]
  base ++ ext ++ slices ++ flight ++ scratch ++ thr

/-- Writes of one section. -/
def State.writeImages (s : State) (addr each : Nat) : List Nat → State
  | [] => s
  | v :: t => State.writeImages { s with mem := Memory.write s.mem addr each v } (addr + each) each t

def State.writeSections (s : State) (addr : Nat) : List Section → State
  | [] => s
  | x :: t => State.writeSections (s.writeImages addr x.each x.items) (addr + align128 (x.each * x.items.length)) t

/-- The image of a frame is written to memory (R330 step 5). -/
def State.writeFrame (s : State) (b : Nat) (f : Frame) : State := (s.combineOver f.addr f.size).writeSections f.addr (s.sections b f)

end Sys2Proof.Machine
end

