-- ==== Sys2Proof/Machine/Park.lean ====
section
/-!
DEFINITION. Fetching (R35, R353), counting waits (R328), and parking (R330 to R340): settling the accesses in flight,
requests to park, and fault-queue entries (R334).
-/
namespace Sys2Proof.Machine

/-! ### Fetch -/

/-- The 8-byte word of code at an address: the core's instruction cache keeps what it has read until `icinv` (R353). -/
def State.fetch (s : State) (core job : Nat) (va : Dword) : Walk × Dword :=
  match s.walk core job va.toNat .fetch with
  | .ok loc =>
    (.ok loc, (Tbl.find (s.core core).icache loc).getD (BitVec.ofNat 64 (s.readThere job va.toNat loc 8).1))
  | w => (w, 0)

/-- A word of code that the core does not keep lies where a die's warm reset holds it (R387). -/
def State.fetchHeld (s : State) (core job : Nat) (va : Dword) : Bool :=
  match s.walk core job va.toNat .fetch with
  | .ok loc => (Tbl.find (s.core core).icache loc).isNone && s.heldByReset (dieOf core) loc
  | _ => false

/-- The instruction cache keeps the words fetched. -/
def State.keepCode (s : State) (core loc : Nat) (w : Dword) : State :=
  s.modCore core fun c => { c with icache := Tbl.put c.icache loc w }

/-! ### Counting waits (R328), numbered 0 to 10 as the rows of its table -/

/-- The task of a group has 65,535 children, or its list is full and it is below final: the capacity limits of R293 and
R276. -/
def State.atLimit (s : State) (gid : Nat) (children : Bool) : Bool :=
  match s.grpTask gid with
  | none => false
  | some t => if children then decide (65535 ≤ s.tChildren t) else decide (outLimit ≤ s.tOuts t) && s.tEff t != 3

/-- A lane of a load waits for its line's grade (R269, R270). -/
def State.belowLeast (s : State) (gid : Nat) (a : Acc) (L : Nat) : Bool :=
  let loc := a.addrOf L
  (s.gradedAt (s.jobOf gid) (a.vaOf L).toNat).isSome && (s.l1Read (s.coreOf gid) loc (fmtSize a.fmt)).isNone &&
    decide ((s.lineGrade (lineOf loc)).toNat < (s.leastGrade gid a L).toNat)

/-- The wait an outstanding instruction is in, if it counts: it has been tried, and what it waits for has not come (R328). -/
def State.accRow (s : State) (gid : Nat) (a : Acc) : Option Nat :=
  let one := fun (c : Bool) (r : Nat) => if c then some r else none
  let below := (lanesOf a.left).any (s.belowLeast gid a)
  if !a.waiting then none
  else match a.op with
    | .load _ | .loadConst _ => one below 1
    | .loadWait _ => if below then some 1 else
        one ((lanesOf a.left).any fun L => s.homeRead (a.addrOf L) (fmtSize a.fmt) == a.data2Of L % 256 ^ fmtSize a.fmt) 2
    | .tspawn _ => one (s.atLimit gid true) 8
    | .tsig => one (s.atLimit gid false) 8
    | .promote _ => one ((s.promoteRest gid a).head?.any fun l => s.listFull gid [l.2 / 128]) 8
    | .launch _ => one (decide (256 ≤ (s.childGrids (s.grp gid).blk).length)) 8
    | _ => none

/-- A copy in a counting wait, on a graded line below final (R328). -/
def State.copyRow (s : State) (c : Copy) : Option Nat :=
  if c.waiting && !c.out && c.lines.any fun l =>
      s.copyBelow c ((c.record.lineElems c.off l).filterMap fun e => c.record.elemAt c.org e.2) then some 5 else none

/-- The rows of a wait for some of a group's copies, which counts when one of them is in a counting wait. -/
def State.copyRows (s : State) (cs : List Copy) : List Nat :=
  match cs.filterMap s.copyRow with
  | [] => []
  | rs => 10 :: rs

/-- The rows of a wait for the tokens of a mask, which counts when an instruction that named one is in a counting wait: its own,
and those of what it waits for. -/
def State.tokenRows (s : State) (gid : Nat) (mask : BitVec 15) : List Nat :=
  let named := fun (tok : BitVec 4) => tok != 0 && mask.getLsbD (tok.toNat - 1)
  match ((s.grp gid).out.filter fun a => named a.tok).filterMap (s.accRow gid) ++
      (s.copies.filter fun c => c.gid == gid && named c.tok).filterMap s.copyRow with
  | [] => []
  | rs => 10 :: rs

/-- The source operands of an instruction that can name a queue window (R42, R81). -/
def queueSources : Instr → List Src
  | .iadd o | .isub o | .imul o | .imulh _ o | .imin _ o | .imax _ o | .shl o | .shr _ o | .rot o | .and o | .or o
  | .xor o | .andn o | .bfx _ o | .icmp _ _ o | .vfill o | .vpick o | .ridx o | .widx o | .add64 _ _ _ o | .mlop _ o
  | .fadd _ o | .fsub _ o | .fmul _ o | .fmin o | .fmax o | .fcmp _ o | .fscale _ o | .cvt _ _ _ o | .hadd2 _ _ o
  | .hmul2 _ _ o | .d8pack _ _ _ o | .d8unpk _ _ o | .shfl _ o | .shup _ o | .shdn _ o | .shx _ o | .bcast o
  | .samplecat o | .topkthr o => [o.a, o.b]
  | .iaddc _ o | .imad o | .fsh _ o | .tri _ o | .bfi o | .bperm o | .sel _ o | .ffma _ o | .hfma2 _ _ o
  | .fdot2 _ _ o => [o.a, o.b, o.c]
  | .iabs o | .ineg o | .not o | .popc o | .clz o | .ctz o | .brev o | .mov o | .tag _ o | .tagq o | .mcnt o
  | .mfirst o | .fabs o | .fneg o | .fclass o | .frcp _ o | .frsq _ o | .fsqrt _ o | .fexp2 _ o | .flog2 _ o
  | .ftanh _ o | .fsig _ o | .frnd _ o | .f2i _ _ o | .i2f _ _ o | .s8scale o | .i8pack _ _ o | .i8unpk _ _ o
  | .redadd _ _ _ o | .redmin _ _ o | .redmax _ _ o | .redmini _ _ o | .redmaxi _ _ o | .scan _ _ _ _ o | .ballot o
  | .matchLanes o => [o.a]
  | .movi o | .lea o => [o.a]
  | .reorder _ a b _ => [a, b]
  | .jsc _ c _ | .jv _ c _ | .jany _ c _ | .jall _ c _ => [c]
  | .ld f _ _ _ | .lds f _ | .ldc f _ _ => [f.base]
  | .st f _ _ _ | .sts f _ | .red _ _ f _ | .cred f _ => [f.base, f.data]
  | .ldw f c _ _ => [f.base, c]
  | .atom _ _ f a => [f.base, a]
  | .atomcas f n => [f.base, f.data, n]
  | .pref b _ _ _ _ _ => [b]
  | _ => []

/-- The instruction that word `k` of a lane clause holds, if it can be read and decodes. -/
def State.wordAt (s : State) (gid : Nat) (hdr head : Dword) (k : Nat) : Option Instr :=
  match (Header.unpack head).wordClass k with
  | none => none
  | some cl =>
    if s.fetchHeld (s.coreOf gid) (s.jobOf gid) (hdr + BitVec.ofNat 64 (8 * (k + 1))) then none
    else match decodeWord cl false (s.fetch (s.coreOf gid) (s.jobOf gid) (hdr + BitVec.ofNat 64 (8 * (k + 1)))).2 with
    | .ok i => some i
    | .error _ => none

/-- The instruction at which a group's open clause stands, if it decodes. -/
def State.heldInstr (s : State) (gid : Nat) : Option Instr :=
  match (s.grp gid).clause with
  | none => none
  | some c => s.wordAt gid c.hdr c.head c.idx

/-- Entries of window `q` that the words of a clause from number `k` on pop (R36, R42). -/
def State.popsFrom (s : State) (gid : Nat) (hdr head : Dword) (k q : Nat) : Nat :=
  (List.range (headWords head)).countP fun i =>
    decide (k ≤ i) && match s.wordAt gid hdr head i with
      | some x => (queueSources x).contains (.q (BitVec.ofNat 3 q))
      | none => false

/-- The queue wait of a header is met from word `k` on (R36, R37). -/
def State.queuesMet (s : State) (gid : Nat) (hdr head : Dword) (k : Nat) : Bool :=
  let h := Header.unpack head
  (List.range 8).all fun q =>
    !(h.queues.getLsbD q) || decide (s.popsFrom gid hdr head k q ≤ ((s.grp gid).queue q).countP fun e => e.full)

/-- The token wait of a header is met (R36). -/
def Group.tokensMet (g : Group) (head : Dword) : Bool :=
  let h := Header.unpack head
  (List.range 15).all fun i => !(h.tokens.getLsbD i) || g.token (i + 1) == 0

/-- The header waits of a clause are met. -/
def State.headerMet (s : State) (gid : Nat) (hdr head : Dword) (k : Nat) : Bool :=
  (s.grp gid).tokensMet head && s.queuesMet gid hdr head k

/-- The rows of R328 in which a header's waits keep a group: a queue wait counts whatever its tokens do. -/
def State.headerRows (s : State) (gid : Nat) (hdr head : Dword) (k : Nat) : List Nat :=
  (if (s.grp gid).tokensMet head then [] else s.tokenRows gid (Header.unpack head).tokens) ++
    if s.queuesMet gid hdr head k then [] else [3]

/-- The handle names a live child grid of the block, or with 0 some child is live (R303). -/
def State.childLive (s : State) (b : Nat) (h : Word) : Bool :=
  (s.childGrids b).any fun c => h == 0 || (s.grid c).handle == h.toNat

/-- The value of a scalar or a small immediate. -/
def State.simm (s : State) (gid : Nat) : SImm → Word
  | .s n => s.sreg gid n.toNat
  | .imm b => b.signExtend 32

/-- The rows of R328 of the instruction at which a group is held. -/
def State.heldRows (s : State) (gid : Nat) : List Nat :=
  let g := s.grp gid
  let waiting := fun (bar : BitVec 5) => (Tbl.find g.brec bar.toNat).getD 0 == 1
  let one := fun (c : Bool) (r : Nat) => if c then [r] else []
  match s.heldInstr gid with
  | some (.barwt bar _) => one (waiting bar) 0
  | some (.barsy _ bar _) => one (g.partDone && waiting bar) 0
  | some (.qpopw _ a _ _) => one (s.bq (s.sreg gid a.toNat).toNat).items.isEmpty 3
  | some (.lwait h _) => one (s.childLive g.blk (s.simm gid h)) 6
  | some (.tspawn _ _ _ _) => one (s.atLimit gid true) 8
  | some (.tsig _ _ _) => one (s.roomWait gid 1) 8
  | some (.launch _ _ _ _) => one (decide (256 ≤ (s.childGrids g.blk).length)) 8
  | some (.wait m) => s.tokenRows gid m
  | some (.rwait sl _) => s.copyRows (s.copies.filter fun c => c.gid == gid && (sl || !c.slice))
  | _ => match g.heldRow with
    | none => []
    | some (.row r) => [r]
    | some (.room n) => one (s.roomWait gid n) 8
    | some (.lines ls) => one (ls.any fun x => (Tbl.find (s.blk x.1).absent x.2).isSome) 4

/-- The rows of R328 a group is in: its wait's, then those of the instructions or copies that it waits for; none if it is in no
counting wait. -/
def State.waitRows (s : State) (gid : Nat) : List Nat :=
  let g := s.grp gid
  if g.retired then (if (s.childGrids g.blk).isEmpty then [] else [6])
  else match g.clause with
  | some c =>
    if !g.heldAt then []
    else if g.resumed && !(s.headerMet gid c.hdr c.head c.idx) then s.headerRows gid c.hdr c.head c.idx
    else s.heldRows gid
  | none =>
    if g.reo.isSome then [0]
    else if g.xreq then [7]
    else if !g.admitted then (if g.passedSince then [9] else [])
    else match g.cur with
      | none => []
      | some c =>
        let va := g.header c
        s.headerRows gid va (s.fetch (s.coreOf gid) (s.jobOf gid) va).2 c.word

/-- The row of R328 a group is held in, if it is in a counting wait. -/
def State.waitRow (s : State) (gid : Nat) : Option Nat := (s.waitRows gid).head?

/-- The parking clock of a stook runs: every group that has not retired is in a counting wait, and the sequencer of no
member's reservation runs (R328). With every group retired, only live children are waited for. -/
def State.clockRuns (s : State) (k : Nat) : Bool :=
  ((s.stk k).members.any fun b => (s.blk b).gids.any fun g => (s.waitRow g).isSome) && (s.stk k).members.all fun b =>
    let x := s.blk b
    x.resident && x.gids.all (fun g => (s.grp g).retired || (s.waitRow g).isSome) &&
      ((s.core x.core).thr.holder != some b || (s.core x.core).thr.st != .running)

/-- The awaited kinds of a block's groups, as the header of a frame gives them (R340). -/
def State.wakeBits (s : State) (b : Nat) : BitVec 16 :=
  (s.blk b).gids.foldl (fun w g => (s.waitRows g).foldl (fun w r => w ||| (1#16 <<< r)) w) 0

/-! ### Parking -/

/-- One round of what groups have in flight (R330 step 3): their accesses are performed and classified, their copies move, their
cores' open entries are sent, whatever group's (R357), and, unless a job switch is to sweep them, the packets are performed
(R370). -/
def State.settleRound (s : State) (gids : List Nat) (send : Bool) : State :=
  let s := gids.foldl (fun (s : State) g =>
    (s.grp g).out.foldl (fun (s : State) a => s.accessCompletion g a.id a.act) s) s
  let s := gids.foldl (fun (s : State) g =>
    (s.grp g).out.foldl (fun (s : State) a =>
      let r := State.classifyFor (s.gstores.length + 1) s g a.id false
      r.1.runAll r.2) s) s
  let s := (s.copies.filter fun c => gids.contains c.gid).foldl (fun (s : State) c => s.settleCopy c.id c.lines) s
  let s := ((gids.map s.coreOf).eraseDups).foldl (fun (s : State) c =>
    s.closeEntries c fun _ => true) s
  if send then s.drainOutward gids else s

def State.settleRounds : Nat → State → List Nat → Bool → State
  | 0, s, _, _ => s
  | n + 1, s, gids, send => State.settleRounds n (s.settleRound gids send) gids send

/-- Settle what groups have in flight: everything that is not in a counting wait is performed (R330 step 3). A round performs
the oldest instruction left at least, if it can be performed at all. -/
def State.settleGroups (s : State) (gids : List Nat) (send : Bool) : State :=
  let n := (gids.map fun g => (s.grp g).out.length).foldl (· + ·) 0 + s.copies.length + 2
  State.settleRounds n s gids send

/-- Write one block's frame and free its core (R330 steps 4 and 5). -/
def State.parkBlock (s : State) (b : Nat) (r : ParkReq) (pend : Nat) : State :=
  let k := s.blk b
  let c := s.core k.core
  let thr := if c.thr.holder == some b then some c.thr else none
  let pairs := k.gids.filterMap fun g =>
    let x := s.grp g
    match Tbl.find c.ext x.pair with
    | some e => if e.holder == some g then some (x.idx / 2, (x.idx, e)) else none
    | none => none
  let f : Frame := { addr := k.fAddr, size := k.fSize, reason := r.reason, pend := pend, timer := r.timer, wake := s.wakeBits b,
                     ready := false, behind := r.reason == 2, hold := r.hold, passed := 0 }
  let s := s.modBlk b fun k => { k with
    frame := some f, thrSave := thr, extSave := pairs.map fun p => (p.1, p.2.2.regs), parkReq := none, late := [] }
  let s := s.writeFrame b f
  -- which group of a pair holds the lock stays with the group: `lockSaved` marks it for the restore
  let s := k.gids.foldl (fun s g =>
    s.modGrp g fun x => { x with
      lockSaved := pairs.any fun p => p.2.1 == x.idx }) s
  s.leaveCore b

/-- Fault entries of a block that have not been answered (R340). -/
def State.pendOf (s : State) (b : Nat) : Nat :=
  s.dies.foldl (fun n d =>
    n + (d.2.fqWait.countP fun e => e.blk == b) + (d.2.fq.countP fun e => e.2.blk == b)) 0

/-- Some group of a stook is in a counting wait. -/
def State.waits (s : State) (ms : List Nat) : Bool := ms.any fun b => (s.blk b).gids.any fun g => (s.waitRow g).isSome

/-- A request meets one that stands (R332): pre-emption is recorded only if no counting wait stands, and a job switch or die
reset holds the frames whatever is recorded. A page fault that meets the parking clock's request is recorded, for its answer
is what relaunches the stook (log entry 57). -/
def ParkReq.merge (r n : ParkReq) (counting : Bool) : ParkReq :=
  let x := if (4 ≤ n.reason && !counting) || (n.reason == 3 && r.reason == 1) then n else r
  { x with hold := if n.hold == 0 then r.hold else n.hold }

/-- The frames of a stook that has just parked are ready at once (R331): with no fault entry unanswered, after pre-emption or a
page fault that has been answered, a park of no time, or the clock where a wait is on presence bits or admission. -/
def State.readyNow (s : State) (ms : List Nat) (r : ParkReq) : Bool :=
  (ms.all fun b => s.pendOf b == 0) && (r.reason == 4 || r.reason == 3 || (r.reason == 2 && decide (r.timer ≤ s.time)) ||
    (r.reason == 1 && ms.any fun b => match (s.blk b).frame with
      | some f => f.wake.getLsbD 4 || f.wake.getLsbD 9
      | none => false))

/-- A frame of a stook lies where a die's warm reset holds it, and its writing waits (R387). -/
def State.framesHeld (s : State) (ms : List Nat) : Bool := ms.any fun b => s.spanHeld (s.blk b).fAddr (s.blk b).fSize

/-- The halted members of a stook are parked (R330). -/
def State.parkNow (s : State) (k : Nat) (ms : List Nat) (r : ParkReq) : State :=
  let s := s.settleGroups (ms.flatMap fun b => (s.blk b).gids) (r.hold != 5)
  let s := ms.foldl (fun s b => s.parkBlock b r (s.pendOf b)) s
  let s := s.modStk k fun x => { x with clock := 0 }
  if s.readyNow ms r then ms.foldl (fun s b => s.modBlk b fun x => { x with
    frame := x.frame.map fun f => { f with ready := true } }) s
  else s

/-- Park a stook: every member, with one reason (R330, R332). A request that finds a member still inside a clause is
kept until it halts; a run that is being stopped keeps no frame (R279), and a parked stook is parked already. -/
def State.parkStook (s : State) (k reason timer : Nat) : State :=
  let ms := (s.stk k).members
  let new : ParkReq := { reason := reason, timer := timer, hold := if reason == 5 || reason == 6 then reason else 0 }
  if ms.isEmpty || ms.any (fun b => (s.blk b).stop || !(s.blk b).resident) then s
  else
    let r := match ms.findSome? fun b => (s.blk b).parkReq with
      | some old => old.merge new (s.waits ms)
      | none => new
    if ms.all s.halted && !(s.framesHeld ms) then s.parkNow k ms r
    else ms.foldl (fun s b => s.modBlk b fun x => { x with parkReq := some r }) s

/-- A kept request takes effect once every member has halted, and no frame of theirs is held. -/
def State.parkIfAsked (s : State) (b : Nat) : State :=
  let k := (s.blk b).stook
  let ms := (s.stk k).members
  match (s.blk b).parkReq with
  | none => s
  | some r => if (ms.all fun m => (s.blk m).resident && s.halted m) && !(s.framesHeld ms) then s.parkNow k ms r else s

/-! ### Fault entries (R334) -/

/-- The ring place of a fault entry: 32 bytes each (R334). -/
def FqEntry.image (e : FqEntry) : Nat :=
  at' 192 e.frame + at' 128 e.va.toNat + at' 64 e.pc.toNat + at' 32 e.job + at' 24 e.code.toNat + at' 20 e.kind.toNat +
  at' 12 e.core + at' 6 e.slot + at' 5 1

/-- The ring has room at FQTAIL, and no unanswered entry stands there (R334). -/
def Die.fqRoom (d : Die) : Bool := (d.fqTail + 1) % 4096 != d.fqHead && (Tbl.find d.fq d.fqTail).isNone

/-- The oldest entry that waits enters the ring of a die, if there is room (R334) and no die's warm reset holds its place (R387). -/
def State.appendFault (s : State) (die : Nat) : State :=
  let d := s.die die
  match d.fqWait with
  | [] => s
  | e :: es =>
    let a := d.fqBase.toNat + 32 * d.fqTail
    if d.fqRoom && !(s.unitHeld a) then
      ((s.combineOver a 32).homeWrite a 32 e.image).setDie die { d with
        fqWait := es, fq := Tbl.put d.fq d.fqTail e, fqTail := (d.fqTail + 1) % 4096 }
    else s

/-- A page fault of an access (R334): an entry is made for it, and the stook parks with reason 3. A group whose own
fault it is halts where it stands. -/
def State.pageFault (s : State) (gid : Nat) (code : BitVec 8) (kind : BitVec 4) (va pc : Dword) (lane copy : Nat)
    (halt : Halt) : State :=
  let g := s.grp gid
  let k := s.blk g.blk
  let e : FqEntry := { frame := k.fAddr, va := va, pc := pc, job := k.job, code := code, kind := kind, core := k.core,
                       slot := g.slot, blk := g.blk, gid := gid, lane := lane, copy := copy, halt := halt }
  let s := (s.modDie (dieOf k.core) fun d => { d with fqWait := d.fqWait ++ [e] }).appendFault (dieOf k.core)
  let s := if halt == .other || halt == .again then s else s.modGrp gid fun g => { g with heldAt := g.clause.isSome }
  s.parkStook k.stook 3 0

end Sys2Proof.Machine
end

