-- ==== Sys2Proof/Machine/Ops.lean ====
section
/-!
DEFINITION. The named operations that the meanings share: how a lane instruction ends (done, fault, page fault, hold),
taking an exception (R342 to R344) and returning from one (R349), the checks of a clause header and of a jump target
(R33, R35, R38), faults of an access slice and of a matrix stream (R227, R233), and the issue of a long-latency
instruction (R39, R341).
-/
namespace Sys2Proof.Machine

/-- How an instruction that is not done ends. -/
inductive Exn where
  /-- a precise fault (R342) -/
  | flt (f : Flt)
  /-- a page fault of the given kind, which parks the block (R334) -/
  | page (code : BitVec 8) (kind : BitVec 4) (va : Dword) (lane : Nat)
  /-- the instruction holds its cluster (R337), having taken part of its effect or not; what it waits for,
  where the operands decide that -/
  | hold (part : Bool) (row : Option HeldFor)
  /-- a fatal fault (R342) -/
  | fatal (code : BitVec 8)
  deriving DecidableEq, Repr

abbrev R := Except Exn

/-- A fault that is no lane's and has no address (R342, R346). -/
def Flt.plain (code : BitVec 8) : Flt := { code := code, info := 0, lane := 64, addr := 0 }

/-- Raise a fault that is no lane's. -/
def raise {α : Type} (code : BitVec 8) : R α := .error (.flt (Flt.plain code))

/-- Raise a fault of a lane at an address. -/
def raiseAt {α : Type} (code : BitVec 8) (L : Nat) (va : Dword) : R α :=
  .error (.flt { code := code, info := 0, lane := L, addr := va })

/-- Hold the cluster at the instruction. -/
def hold {α : Type} (part : Bool) : R α := .error (.hold part none)

/-- Hold the cluster at the instruction, in a counting wait of R328. -/
def holdRow {α : Type} (row : Nat) : R α := .error (.hold false (some (.row row)))
def holdFor {α : Type} (h : HeldFor) : R α := .error (.hold false (some h))

/-! ### Clause headers and jump targets -/

/-- The three contexts that fetch clauses (R38). -/
inductive Ctx where
  | lane | slice | stream
  deriving DecidableEq, Repr

/-- A word passes as a clause header in a context, for a kernel with `qn` queue windows (R33, R38). -/
def headerOk (x : Ctx) (qn : Nat) (w : Dword) : Bool :=
  let h := Header.unpack w
  (h.cls.toNat < 8) && h.rsv40 == 0 && h.rsv == 0 && !(h.cls == 1 && h.tail) &&
  (List.range 8).all (fun i => !h.queues.getLsbD i || decide (i < qn)) &&
  match x with
  | .lane => !h.shadow
  | .slice => h.shadow && h.cls == 3 && h.tokens == 0 && h.queues == 0 && !h.tail
  | .stream => !h.shadow && h.cls == 4 && h.tokens == 0 && h.queues == 0 && !h.tail

/-- What the checks of R35 find of a target. -/
inductive Target where
  | ok
  | illegal
  | page (code : BitVec 8)
  | outside
  deriving DecidableEq, Repr

/-- The address lies in the kernel's code (R35 item 1). -/
def LRec.inCode (r : LRec) (va : Dword) : Bool :=
  decide (r.entry.toNat ≤ va.toNat) && decide (va.toNat < r.entry.toNat + r.csize)

/-- The checks of R35 in their order, for a target of a context, with the partition check of R354 after translation; `reg`: the
target is given by a register. -/
def State.checkTarget (s : State) (b : Nat) (x : Ctx) (reg : Bool) (va : Dword) : Target :=
  let k := s.blk b
  if reg && (va.toNat % 8 != 0 || !k.record.inCode va) then .illegal
  else
    match s.fetch k.core k.job va with
    | (.missing, _) => .page fPageMissing
    | (.denied, _) => .page fPagePerm
    | (.ok loc, w) => if s.outsideJob k.job loc then .outside else if headerOk x k.record.qn w then .ok else .illegal

/-! ### Taking an exception -/

/-- A fault ends the open clause, if there is one (R37): pending clusters age (R64) and meetings complete (R65). -/
def Group.faultEnds (g : Group) : Group :=
  if g.clause.isSome then Group.meetAll { g with pend := g.pend.map fun p => { p with age := p.age + 1 } } else g

/-- The word at which the group's cluster stands has taken part of its effect (R342). -/
def Group.partAt (g : Group) : Bool :=
  if g.clause.isSome then g.partDone
  else match g.cur with
    | some c => c.part
    | none => false

/-- The group enters its trap handler (R343): the fault registers take the fault, inh is set, and every thread of the
faulting cluster goes to the handler, which stays current. `pc` is the saved PC and `hdr` its clause header, 0 at a
clause boundary. A clause that a fault ends counts as one the group has issued, and so does its rest after `eret`; no
rotation follows the entry, and the capture of $clocklo (R20) is gone with the clause: the rest of it after `eret` captures anew
(DESIGN CHOICE, log entry 69). -/
def Group.enterTrap (g : Group) (f : Flt) (pc hdr trap : Dword) : Group :=
  let g' := g.faultEnds
  let g : Group := { g' with
    fcode := f.code, finfo := f.info, flane := BitVec.ofNat 8 f.lane, faddr := f.addr, fpc := pc, fhdr := hdr,
    fpcEntry := pc, fpart := g.partAt, inh := true, clause := none, heldAt := false, heldRow := none, partDone := false,
    trapPend := none, cur := g'.cur.map fun c => { c with res := 0, part := false } }
  (g.setPcs g.curLanes fun _ => trap).absorb

/-- What a fault meets at its group's trap handler (R343, R344): no handler that may be entered, or what the checks of R35
find of the trap address. -/
def State.trapCheck (s : State) (gid : Nat) : Option Target :=
  let g := s.grp gid
  let b := s.blk g.blk
  let trap := b.record.trap
  if trap == 0 || g.inh || g.curLanes == 0 || b.cancelled.any (fun c => c.gid == gid && c.trap) then none
  else some (s.checkTarget g.blk .lane true trap)

/-- Taking an exception: a fault reaches its group (R343, R344). With a handler, inh clear and a faulting cluster, the
trap address is checked as R35 checks a target and the handler is entered; a page fault of the handler's own page parks
the block, the fault is kept, and entry is made once it is resolved; in every other case the group's work ends. -/
def State.takeFault (s : State) (gid : Nat) (f : Flt) (pc hdr : Dword) : State :=
  let trap := (s.blockOf gid).record.trap
  match s.trapCheck gid with
  | some .ok => s.setGrp gid ((s.grp gid).enterTrap f pc hdr trap)
  | some (.page c) =>
    (s.modGrp gid fun g => { g with trapPend := some { flt := f, pc := pc, hdr := hdr } }).pageFault gid c 3 trap pc 64 0 .trap
  | some .outside => s.fatal gid fPartition
  | some .illegal => s.failWork gid f.code
  | none => s.failWork gid f.code

/-- A fault at the instruction being executed. -/
def State.faultHere (s : State) (gid : Nat) (f : Flt) : State :=
  let c := (s.grp gid).clause!
  s.takeFault gid f c.pc c.hdr

/-- A boundary fault is taken (R342): at a suspension point inside a clause, or at the clause boundary, where the saved
PC is the header that would issue next and FHDR is 0, or the word of a clause at which the cluster resumes. -/
def State.takeBoundary (s : State) (gid : Nat) : State :=
  let g := s.grp gid
  let s' := s.setGrp gid { g with bfault := none }
  match g.bfault with
  | none => s
  | some f =>
    match g.clause with
    | some c => if g.heldAt then s'.takeFault gid f c.pc c.hdr else s
    | none => match g.cur with
      | some c => s'.takeFault gid f (g.pc (lowestLane c.lanes)) (if c.res == 0 then 0 else g.header c)
      | none => s'.takeFault gid f (g.pc 64) 0

/-! ### Returning from an exception -/

/-- Where `eret` resumes when FPC is as recorded (R349): the PC, and 0 at a header or k + 1 at word k of the clause. The
threads' PC is the word's address: a cluster that resumes at the first word of a clause is not at its header. After a fault at a
header the word after FPC is the clause's first. -/
def Group.eretSpot (g : Group) (next : Bool) (head : Dword) : Dword × Nat :=
  if g.fhdr == 0 then (g.fpc, 0)
  else if g.fhdr == g.fpc then (if next then (g.fpc + 8, 1) else (g.fpc, 0))
  else
    let i := (g.fpc.toNat - g.fhdr.toNat) / 8 - 1
    if next then (if i + 1 < headWords head then (g.fpc + 8, i + 2) else (nextHeader g.fhdr head, 0))
    else (g.fpc, i + 1)

/-- The issuing cluster goes to a word of a clause, and inh is cleared (R349); the run goes on, and R64 applies. -/
def Group.eretTo (g : Group) (spot : Dword × Nat) (part : Bool) : Group :=
  (({ g with inh := false }).setPcs g.curLanes fun _ => spot.1).endClause false 0 spot.2 part

/-- What `eret` reads to find the word after FPC: the header of the faulting clause, whose length says whether FPC is its last
word; a page that is missing, forbidden or outside the job meets it as a fetch does (log entry 94). -/
def State.eretHead (s : State) (gid : Nat) (next : Bool) : R Dword :=
  let g := s.grp gid
  if !next || g.fhdr == 0 || g.fhdr == g.fpc then .ok 0
  else match s.fetch (s.coreOf gid) (s.jobOf gid) g.fhdr with
    | (.missing, _) => .error (.page fPageMissing 3 g.fhdr 64)
    | (.denied, _) => .error (.page fPagePerm 3 g.fhdr 64)
    | (.ok loc, w) => if s.outsideJob (s.jobOf gid) loc then .error (.fatal fPartition) else .ok w

/-- Returning from an exception (R349). -/
def State.returnFrom (s : State) (gid : Nat) (next : Bool) : R State :=
  let g := s.grp gid
  if !g.inh then raise fIllegalInstr
  else if g.fpc == g.fpcEntry then do
    let head ← s.eretHead gid next
    .ok (s.setGrp gid (g.eretTo (g.eretSpot next head) (!next && g.fhdr != 0 && g.fpart)))
  else match s.checkTarget g.blk .lane true g.fpc with
    | .ok => .ok (s.setGrp gid (g.eretTo (g.fpc, 0) false))
    | .illegal => .ok ((s.setGrp gid { g with inh := false }).faultHere gid (Flt.plain fIllegalTarget))
    | .page c => .error (.page c 3 g.fpc 64)
    | .outside => .error (.fatal fPartition)

/-! ### How a lane instruction ends -/

/-- A fault in an access slice ends it and becomes its group's boundary fault (R227). Its PC is then the header of the clause
that faulted, and the queue entries it had reserved still complete, as after `xend` (DESIGN CHOICE, log entry 95). -/
def State.sliceFault (s : State) (gid : Nat) (code : BitVec 8) (addr : Dword) : State :=
  (s.modGrp gid fun g => { g with
    slice := { g.slice with st := .ended, faulted := true, fcode := code, held := false, clause := none } }).boundary gid
    { code := code, info := 1, lane := 64, addr := addr }

/-- A fault of a stream instruction stops the sequencer and becomes every group's boundary fault (R233). -/
def State.streamFault (s : State) (core : Nat) (code : BitVec 8) (addr : Dword) : State :=
  let t := (s.core core).thr
  let pc := match t.clause with
    | some c => c.pc
    | none => t.pc
  let s := s.modCore core fun c => { c with
    thr := { c.thr with st := .faulted, fcode := code, fpc := pc, clause := none } }
  match t.holder with
  | none => s
  | some b => (s.blk b).gids.foldl (fun s g =>
      if (s.grp g).retired then s else s.boundary g { code := code, info := 2, lane := 64, addr := addr }) s

/-- What follows from an instruction that is not done. -/
def State.endBy (s : State) (gid : Nat) : Exn → State
  | .flt f => s.faultHere gid f
  | .page code kind va lane => s.pageFault gid code kind va (s.grp gid).ipc lane 0 .own
  | .hold part row => s.modGrp gid fun g => { g with heldAt := true, partDone := part, heldRow := row }
  | .fatal code => s.fatal gid code

/-- The state after a lane instruction. -/
def State.settle (s : State) (gid : Nat) : R State → State
  | .ok t => t
  | .error e => s.endBy gid e

/-- Run a lane instruction for the group that issues it. In a slice or a stream it is no instruction (R38). -/
def laneRun (s : State) (f : Nat → R State) : Host.Outcome State Fault Refusal :=
  .next (match s.issuer with
    | .lane gid => s.settle gid (f gid)
    | .slice gid => s.sliceFault gid fIllegalInstr 0
    | .stream c => s.streamFault c fIllegalInstr 0)

/-- The instruction is done and the group goes on to its next word or clause. -/
def State.advance (s : State) (gid : Nat) : State := s.modGrp gid Group.advance

/-! ### Active lanes -/

/-- The scalar pair of a mask alias (R12). -/
def aliasReg (j : BitVec 3) : Nat := 240 + 2 * j.toNat

/-- Active(): the lanes of the issuing cluster that msel selects (R25, R51). -/
def State.active (s : State) (gid : Nat) (msel : BitVec 3) : Dword :=
  let c := (s.grp gid).curLanes
  if msel == 0 then c else c &&& s.spair gid (aliasReg msel)

/-! ### Long-latency issue -/

/-- An instruction that writes no register and names token 0 leaves its group at issue (R166). -/
def Acc.stays (a : Acc) : Bool :=
  a.tok != 0 || match a.op with
    | .store | .red _ _ | .cred | .sstore | .flushr | .invr | .rrec | .tsig | .promote _ | .retract | .ffence | .fdrain => false
    | .tspawn _ | .grange _ | .grel _ | .gstat _ | .qpush _ | .qpop _ _ | .qpopw _ | .launch _ => true
    | .load _ | .loadConst _ | .loadWait _ | .atom _ _ _ | .cas _ | .sload _ => !a.nw

/-- The long-latency instructions a group has outstanding, its copies among them (R217, R341). -/
def State.outstanding (s : State) (gid : Nat) : Nat :=
  (s.grp gid).out.countP Acc.stays + s.copies.countP fun c => c.gid == gid && !c.slice && c.tok != 0

/-- The group may take one more outstanding instruction that names a token (R39, R341). -/
def State.hasRoom (s : State) (gid : Nat) (tok : BitVec 4) : Bool :=
  decide (s.outstanding gid < 64) && (tok == 0 || decide ((s.grp gid).token tok.toNat < 63))

/-- An outstanding instruction as issue makes it. -/
def Group.newAcc (g : Group) (id : Nat) (op : AccOp) (tok : BitVec 4) (act : Dword) : Acc :=
  { id := id, st := .flying, op := op, tok := tok, act := act, done := 0, addr := [], va := [], data := [], data2 := [], fmt := .b32,
    ord := .pl, scope := .dev, evict := 3, grade := 0, finalOnly := 0, got := [], who := [], nw := false, pc := g.ipc, hdr := g.clause!.hdr,
    waiting := false }

/-- Issue a long-latency instruction: its token counts up and it joins the group's outstanding ones (R39). -/
def State.issue (s : State) (gid : Nat) (a : Acc) : State :=
  { (s.modGrp gid fun g => { g.addToken a.tok with out := g.out ++ [a] }) with nextId := s.nextId + 1 }

end Sys2Proof.Machine
end

