-- ==== Sys2Proof/Machine/Operands.lean ====
section
/-!
DEFINITION. Operands (R41 to R45, R81): the checks a register, latch or queue operand meets in the order of R59, the
value each selector gives in each lane, and what reading operands does (queue pops, the capture of $clocklo).
-/
namespace Sys2Proof.Machine

/-- How a small immediate is read, and the tag a tagged source must carry (R23, R43, R107). -/
inductive Kind where
  /-- integer, bitwise or raw: every tag -/
  | raw
  /-- F32 -/
  | f32
  /-- a packed pair of the element type -/
  | half (t : Half)
  /-- four bytes of the tag -/
  | bytes (t : Tag)
  deriving DecidableEq, Repr

/-- The tag of a packed pair (R107). -/
def halfTag : Half → Tag
  | .bf16 => .bf16x2
  | .f16 => .f16x2

def halfFmt : Half → BFmt
  | .bf16 => .bf16
  | .f16 => .f16

/-- The tag a source of a kind must carry, if it carries one. -/
def Kind.want : Kind → Option Tag
  | .raw => none
  | .f32 => some .f32
  | .half t => some (halfTag t)
  | .bytes t => some t

/-- A source operand: selector, registers it spans (R43), and kind. -/
structure Opnd where
  src : Src
  w : Nat
  kind : Kind
  deriving DecidableEq, Repr

def Opnd.int (x : Src) : Opnd := { src := x, w := 1, kind := .raw }
def Opnd.fp (x : Src) : Opnd := { src := x, w := 1, kind := .f32 }
def Opnd.packed (t : Half) (x : Src) : Opnd := { src := x, w := 1, kind := .half t }
def Opnd.byte4 (t : Tag) (x : Src) : Opnd := { src := x, w := 1, kind := .bytes t }
def Opnd.pair (x : Src) : Opnd := { src := x, w := 2, kind := .raw }

/-- Something an instruction names that can fault. -/
inductive Need where
  | v (n : Nat)
  | s (n : Nat)
  | y (k : Nat)
  | q (n : Nat)
  deriving DecidableEq, Repr

/-- What a selector that spans `w` registers names. -/
def srcNeeds (x : Src) (w : Nat) : List Need :=
  match x with
  | .v n => (List.range w).map fun i => .v (n.toNat + i)
  | .s n => (List.range w).map fun i => .s (n.toNat + i)
  | .y k => [.y k.toNat]
  | .q n => [.q n.toNat]
  | .sp _ => []
  | .imm _ => []

def dstNeeds (d : Dst) (w : Nat) : List Need :=
  match d with
  | .v n => (List.range w).map fun i => .v (n.toNat + i)
  | .s n => (List.range w).map fun i => .s (n.toNat + i)

def Opnd.needs (o : Opnd) : List Need := srcNeeds o.src o.w

/-- The scalar pair a mask select names (R15, R51). -/
def mselNeeds (m : BitVec 3) : List Need := if m == 0 then [] else [.s (aliasReg m), .s (aliasReg m + 1)]

/-- The state a check looks at: allocations (R13, R15), the lock (R16), declared windows, and the latches shifted so far
in the clause (R45). -/
structure Limits where
  usable : Nat
  scalars : Nat
  lock : Bool
  qn : Nat
  latches : Nat
  deriving DecidableEq, Repr

def State.limits (s : State) (gid : Nat) : Limits :=
  let r := (s.blockOf gid).record
  { usable := r.usable, scalars := r.scalars, lock := s.holdsLock gid, qn := r.qn,
    latches := (s.grp gid).clause!.latches.length }

def Need.illegal (l : Limits) : Need → Bool
  | .q n => decide (l.qn ≤ n)
  | _ => false

def Need.extension (l : Limits) : Need → Bool
  | .v n => decide (64 ≤ n) && decide (n < 192) && !l.lock
  | _ => false

def Need.range (l : Limits) : Need → Bool
  | .v n => decide (192 ≤ n) || (decide (n < 64) && decide (l.usable ≤ n))
  | .s n => decide (l.scalars ≤ n)
  | _ => false

def Need.latch (l : Limits) : Need → Bool
  | .y k => decide (l.latches ≤ k)
  | _ => false

/-- The first operand fault in the order of R59: illegal-instruction, extension, register-range,
latch-outside-clause. -/
def operandFault (l : Limits) (ns : List Need) : Option (BitVec 8) :=
  if ns.any (Need.illegal l) then some fIllegalInstr
  else if ns.any (Need.extension l) then some fExtension
  else if ns.any (Need.range l) then some fRegRange
  else if ns.any (Need.latch l) then some fLatch
  else none

/-- Raise the first operand fault, if there is one. -/
def State.checkNeeds (s : State) (gid : Nat) (ns : List Need) : R Unit :=
  match operandFault (s.limits gid) ns with
  | some c => raise c
  | none => .ok ()

/-! ### Values -/

/-- The oldest complete entry of a window (R225). -/
def Group.head (g : Group) (q : Nat) : Option QEntry :=
  match g.queue q with
  | e :: _ => if e.full then some e else none
  | [] => none

/-- A small immediate as register `i` of an operand of a kind (R43). -/
def immWord (k : Kind) (b : BitVec 8) (i : Nat) : Word :=
  if i != 0 then (if b.msb then BitVec.allOnes 32 else 0)
  else match k with
    | .raw => b.signExtend 32
    | .f32 => intToF32 .rn true (b.signExtend 32)
    | .half t =>
      let x : Int := b.toInt
      let h := (halfFmt t).round .rn (decide (x < 0)) x.natAbs 1
      BitVec.ofNat 32 (h + 65536 * h)
    | .bytes _ => BitVec.ofNat 32 (b.toNat * 0x01010101)

/-- Register `i` of an operand, lane by lane (R41, R43). -/
def State.opndLanes (s : State) (gid : Nat) (o : Opnd) (i : Nat) : Lanes :=
  match o.src with
  | .v n => (s.vreg gid (n.toNat + i)).lanes
  | .s n => Lanes.splat (s.sreg gid (n.toNat + i))
  | .y k => (s.grp gid).clause!.latches.getD k.toNat []
  | .q n => match (s.grp gid).head n.toNat with
    | some e => e.lanes
    | none => []
  | .sp r => Lanes.make fun L => if i == 0 then s.specialLane gid r L else 0
  | .imm b => Lanes.splat (immWord o.kind b i)

/-- The tag an operand carries, if any (R22). -/
def State.opndTag (s : State) (gid : Nat) (o : Opnd) : Option Tag :=
  match o.src with
  | .v n => some (s.vreg gid n.toNat).tag
  | .q n => ((s.grp gid).head n.toNat).map fun e => e.tag
  | _ => none

/-- The windows that sources name, each once (R42). -/
def queuesNamed (srcs : List Src) : List Nat :=
  (srcs.filterMap fun x => match x with
    | .q n => some n.toNat
    | _ => none).eraseDups

/-- A popping instruction that finds a window with no complete entry raises queue-underflow (R225), a float or a Sieve instruction
too, whose own lists of faults leave it out (R123, R207; log entry 8). -/
def State.checkQueues (s : State) (gid : Nat) (srcs : List Src) : R Unit :=
  if (queuesNamed srcs).all fun q => ((s.grp gid).head q).isSome then .ok () else raise fQueue

/-- The entries of a window become those given, `n` of the oldest having left it; heads are kept below 840, which every depth
divides. -/
def Group.takeFrom (g : Group) (q n : Nat) (rest : List QEntry) : Group :=
  { g with queues := Tbl.put g.queues q rest, heads := Tbl.put g.heads q (((Tbl.find g.heads q).getD 0 + n) % 840) }

def Group.popAll (g : Group) (qs : List Nat) : Group := qs.foldl (fun g q => g.takeFrom q 1 (g.queue q).tail) g

/-- Reading operands pops each window named once (R42) and captures the timebase when $clocklo is among them (R20). -/
def State.afterReads (s : State) (gid : Nat) (srcs : List Src) : State :=
  s.modGrp gid fun g =>
    let g := g.popAll (queuesNamed srcs)
    if srcs.contains (.sp .clocklo) then { g with clause := g.clause.map fun c => { c with cap := some s.timebase } }
    else g

end Sys2Proof.Machine
end

