-- ==== Sys2Proof/Machine/Flags.lean ====
section
/-!
DEFINITION. The Hixikel has no arithmetic flags (R97). What an instruction checks and sets beside its result is the
format tag (R22 to R24): the check on tagged sources, and how a result is written with its tag, under a lane mask, with
or without write-back, shifting the bypass latches (R28, R44, R81 to R83).
-/
namespace Sys2Proof.Machine

/-- A tag is one a source of a kind accepts; an untagged source passes every check (R23). -/
def tagOk (k : Kind) (t : Option Tag) : Bool :=
  match k.want, t with
  | some w, some t => w == t
  | _, _ => true

/-- Raise tag-mismatch if some tagged source does not carry the tag demanded (R23). -/
def State.checkTags (s : State) (gid : Nat) (os : List Opnd) : R Unit :=
  if os.all fun o => tagOk o.kind (s.opndTag gid o) then .ok () else raise fTag

/-- What an instruction reads: Active(), the lanes of each operand register in order, and each operand's tag. -/
structure Env where
  act : Dword
  vals : List Lanes
  tags : List (Option Tag)
  deriving DecidableEq, Repr

/-- Operand register `i` in lane `L`. -/
def Env.v (e : Env) (i L : Nat) : Word := (e.vals.getD i []).at L

/-- A 64-bit operand whose low word is operand register `i`. -/
def Env.p (e : Env) (i L : Nat) : Dword := pairOf (e.v i L) (e.v (i + 1) L)

def Env.lowest (e : Env) : Nat := lowestLane e.act

/-- The values of every operand register, in order. -/
def State.values (s : State) (gid : Nat) (os : List Opnd) : List Lanes :=
  os.flatMap fun o => (List.range o.w).map fun i => s.opndLanes gid o i

def State.env (s : State) (gid : Nat) (msel : BitVec 3) (os : List Opnd) : Env :=
  { act := s.active gid msel, vals := s.values gid os, tags := os.map (s.opndTag gid) }

/-- The checks of an instruction's operands in the order of R59, with queue-underflow as the first fault of its own
(log entry 8). -/
def State.checkOperands (s : State) (gid : Nat) (msel : BitVec 3) (dst : List Need) (os : List Opnd) : R Unit := do
  s.checkNeeds gid (dst ++ os.flatMap Opnd.needs ++ mselNeeds msel)
  s.checkTags gid os
  s.checkQueues gid (os.map fun o => o.src)

/-- Write one vector register: the active lanes, and the tag of the whole register (R24). -/
def State.writeV (s : State) (gid n : Nat) (act : Dword) (t : Tag) (x : Lanes) : State :=
  s.setVreg gid n { lanes := Lanes.merge act (s.vreg gid n).lanes x, tag := t }

/-- Write a result to its destination registers: a vector under its mask with its tag (R24, R83), a scalar once with the
lowest active lane's value if a lane is active (R82); nothing with the no-write-back bit (R28). -/
def State.writeDst (s : State) (gid : Nat) (act : Dword) (d : Dst) (nw : Bool) (t : Tag) (res : List Lanes) : State :=
  if nw then s
  else match d with
    | .v n => (List.range res.length).foldl (fun s i => s.writeV gid (n.toNat + i) act t (res.getD i [])) s
    | .s n =>
      if act == 0 then s
      else (List.range res.length).foldl (fun s i =>
        s.setSreg gid (n.toNat + i) ((res.getD i []).at (lowestLane act))) s

/-- What y0 receives (R44), from the state before the write: in each active lane the result's low word and in the others
the destination's bits; a scalar in every lane. -/
def State.latchOf (s : State) (gid : Nat) (act : Dword) (d : Dst) (res : List Lanes) : Lanes :=
  match d with
  | .v n => Lanes.merge act (s.vreg gid n.toNat).lanes (res.getD 0 [])
  | .s n => Lanes.splat (if act == 0 then s.sreg gid n.toNat else (res.getD 0 []).at (lowestLane act))

/-- The latches shift: y0 takes a value, and four are kept (R44). -/
def Group.shiftLatch (g : Group) (y : Lanes) : Group :=
  { g with clause := g.clause.map fun c => { c with latches := (y :: c.latches).take 4 } }

/-- An ALU instruction with a destination is done: operands read, the result written, the latches shifted, and the group
goes on. -/
def State.aluDone (s : State) (gid : Nat) (srcs : List Src) (act : Dword) (d : Dst) (nw : Bool) (t : Tag)
    (res : List Lanes) : State :=
  let y := s.latchOf gid act d res
  ((((s.afterReads gid srcs).writeDst gid act d nw t res).modGrp gid fun g => g.shiftLatch y).advance gid)

/-- An ALU instruction: operand checks, the instruction's own effect on what it read, and the write (R27, R80). -/
def State.alu (s : State) (gid : Nat) (d : Dst) (dn : Nat) (nw : Bool) (msel : BitVec 3) (os : List Opnd)
    (f : Env → R (Tag × List Lanes)) : R State := do
  s.checkOperands gid msel (dstNeeds d dn) os
  let e := s.env gid msel os
  let r ← f e
  pure (s.aluDone gid (os.map fun o => o.src) e.act d nw r.1 r.2)

/-- An effect computed lane by lane, with one result register. -/
def lanewise (t : Tag) (f : Env → Nat → Word) (e : Env) : R (Tag × List Lanes) := .ok (t, [Lanes.make (f e)])

/-- An effect computed lane by lane, with a 64-bit result in a pair. -/
def lanewise2 (t : Tag) (f : Env → Nat → Dword) (e : Env) : R (Tag × List Lanes) :=
  .ok (t, [Lanes.make fun L => lowWord (f e L), Lanes.make fun L => highWord (f e L)])

/-- A 64-bit value for a scalar pair. -/
def uniform2 (t : Tag) (x : Dword) : R (Tag × List Lanes) := .ok (t, [Lanes.splat (lowWord x), Lanes.splat (highWord x)])

/-- A 32-bit value for a scalar. -/
def uniform1 (t : Tag) (x : Word) : R (Tag × List Lanes) := .ok (t, [Lanes.splat x])

/-- An ALU instruction of one source. -/
def State.alu1 (s : State) (gid : Nat) (o : Ops1) (k : Kind) (t : Tag) (f : Word → Word) : R State :=
  s.alu gid o.d 1 o.nw o.msel [⟨o.a, 1, k⟩] (lanewise t fun e L => f (e.v 0 L))

/-- An ALU instruction of two sources. -/
def State.alu2 (s : State) (gid : Nat) (o : Ops2) (k : Kind) (t : Tag) (f : Word → Word → Word) : R State :=
  s.alu gid o.d 1 o.nw o.msel [⟨o.a, 1, k⟩, ⟨o.b, 1, k⟩] (lanewise t fun e L => f (e.v 0 L) (e.v 1 L))

/-- An ALU instruction of three sources. -/
def State.alu3 (s : State) (gid : Nat) (o : Ops3) (k : Kind) (t : Tag) (f : Word → Word → Word → Word) : R State :=
  s.alu gid o.d 1 o.nw o.msel [⟨o.a, 1, k⟩, ⟨o.b, 1, k⟩, ⟨o.c, 1, k⟩]
    (lanewise t fun e L => f (e.v 0 L) (e.v 1 L) (e.v 2 L))

/-- A test of each lane: all ones or zero in a vector, the mask of the active lanes that pass in a scalar pair (R90,
R111). -/
def State.aluTest (s : State) (gid : Nat) (o : Ops2) (k : Kind) (p : Word → Word → Bool) : R State :=
  s.alu gid o.d (match o.d with | .v _ => 1 | .s _ => 2) o.nw o.msel [⟨o.a, 1, k⟩, ⟨o.b, 1, k⟩] fun e =>
    match o.d with
    | .v _ => lanewise .b32 (fun e L => if p (e.v 0 L) (e.v 1 L) then BitVec.allOnes 32 else 0) e
    | .s _ => uniform2 .b32 (maskOf fun L => inMask e.act L && p (e.v 0 L) (e.v 1 L))

end Sys2Proof.Machine
end

