-- ==== Sys2Proof/Machine/Int.lean ====
section
/-!
DEFINITION. The integer, bit, move, tag, address and mask instructions, ALU opcodes 0x00 to 0x29 (R80 to R96).
-/
namespace Sys2Proof.Machine

abbrev Out := Host.Outcome State Fault Refusal

/-! ### Arithmetic (R85) -/

def iaddcVal (co : Bool) (a b c : Word) : Word :=
  let t := a.toNat + b.toNat + c.toNat % 2
  if co then BitVec.ofNat 32 (t / 2 ^ 32) else BitVec.ofNat 32 t

def imulhVal (sg : Bool) (a b : Word) : Word :=
  if sg then BitVec.ofInt 32 (a.toInt * b.toInt / 2 ^ 32) else BitVec.ofNat 32 (a.toNat * b.toNat / 2 ^ 32)

def iabsVal (a : Word) : Word := BitVec.ofNat 32 a.toInt.natAbs

def iminVal (sg : Bool) (a b : Word) : Word := if (if sg then a.slt b else a.ult b) then a else b
def imaxVal (sg : Bool) (a b : Word) : Word := if (if sg then a.slt b else a.ult b) then b else a

def execIadd (o : Ops2) (s : State) : Out := laneRun s fun g => s.alu2 g o .raw .i32 fun a b => a + b
def execIsub (o : Ops2) (s : State) : Out := laneRun s fun g => s.alu2 g o .raw .i32 fun a b => a - b
def execIaddc (co : Bool) (o : Ops3) (s : State) : Out := laneRun s fun g => s.alu3 g o .raw .i32 (iaddcVal co)
def execImul (o : Ops2) (s : State) : Out := laneRun s fun g => s.alu2 g o .raw .i32 fun a b => a * b
def execImulh (sg : Bool) (o : Ops2) (s : State) : Out := laneRun s fun g => s.alu2 g o .raw .i32 (imulhVal sg)
def execImad (o : Ops3) (s : State) : Out := laneRun s fun g => s.alu3 g o .raw .i32 fun a b c => a * b + c
def execIabs (o : Ops1) (s : State) : Out := laneRun s fun g => s.alu1 g o .raw .i32 iabsVal
def execIneg (o : Ops1) (s : State) : Out := laneRun s fun g => s.alu1 g o .raw .i32 fun a => -a
def execImin (sg : Bool) (o : Ops2) (s : State) : Out := laneRun s fun g => s.alu2 g o .raw .i32 (iminVal sg)
def execImax (sg : Bool) (o : Ops2) (s : State) : Out := laneRun s fun g => s.alu2 g o .raw .i32 (imaxVal sg)

/-! ### Shifts and logic (R86, R87) -/

def shlVal (a b : Word) : Word := if 32 ≤ b.toNat then 0 else a <<< b.toNat
def shrVal (sg : Bool) (a b : Word) : Word :=
  if sg then a.sshiftRight (min b.toNat 31) else if 32 ≤ b.toNat then 0 else a >>> b.toNat
def rotVal (a b : Word) : Word := a.rotateLeft (b.toNat % 32)
def fshVal (l : Bool) (a b c : Word) : Word :=
  let w : Dword := a ++ b
  let n := c.toNat % 64
  if l then highWord (w <<< n) else lowWord (w >>> n)
/-- Bit i of `tri` is bit 4·A_i + 2·B_i + C_i of the table (R87). -/
def triVal (t : BitVec 8) (a b c : Word) : Word :=
  BitVec.ofNat 32 ((List.range 32).foldl (fun r i =>
    let k := 4 * (a.getLsbD i).toNat + 2 * (b.getLsbD i).toNat + (c.getLsbD i).toNat
    r + (t.getLsbD k).toNat * 2 ^ i) 0)

def execShl (o : Ops2) (s : State) : Out := laneRun s fun g => s.alu2 g o .raw .b32 shlVal
def execShr (sg : Bool) (o : Ops2) (s : State) : Out := laneRun s fun g => s.alu2 g o .raw .b32 (shrVal sg)
def execRot (o : Ops2) (s : State) : Out := laneRun s fun g => s.alu2 g o .raw .b32 rotVal
def execFsh (l : Bool) (o : Ops3) (s : State) : Out := laneRun s fun g => s.alu3 g o .raw .b32 (fshVal l)
def execAnd (o : Ops2) (s : State) : Out := laneRun s fun g => s.alu2 g o .raw .b32 fun a b => a &&& b
def execOr (o : Ops2) (s : State) : Out := laneRun s fun g => s.alu2 g o .raw .b32 fun a b => a ||| b
def execXor (o : Ops2) (s : State) : Out := laneRun s fun g => s.alu2 g o .raw .b32 fun a b => a ^^^ b
def execAndn (o : Ops2) (s : State) : Out := laneRun s fun g => s.alu2 g o .raw .b32 fun a b => a &&& ~~~b
def execNot (o : Ops1) (s : State) : Out := laneRun s fun g => s.alu1 g o .raw .b32 fun a => ~~~a
def execTri (table : BitVec 8) (o : Ops3) (s : State) : Out := laneRun s fun g => s.alu3 g o .raw .b32 (triVal table)

/-! ### Bit work (R88, R89) -/

def popcVal (a : Word) : Word := BitVec.ofNat 32 ((List.range 32).filter fun i => a.getLsbD i).length
def clzVal (a : Word) : Word := BitVec.ofNat 32 (((List.range 32).find? fun i => a.getLsbD (31 - i)).getD 32)
def ctzVal (a : Word) : Word := BitVec.ofNat 32 (((List.range 32).find? fun i => a.getLsbD i).getD 32)
def brevVal (a : Word) : Word :=
  BitVec.ofNat 32 ((List.range 32).foldl (fun r i => r + (a.getLsbD (31 - i)).toNat * 2 ^ i) 0)

/-- The position and width a field descriptor names (R88). -/
def fieldPos (x : Word) : Nat := x.toNat % 256
def fieldWidth (x : Word) : Nat := min (x.toNat / 256 % 256) 32

def bfxVal (sg : Bool) (a b : Word) : Word :=
  let w := fieldWidth b
  let x : Int := if sg then a.toInt else a.toNat
  let f := x / (2 ^ fieldPos b : Nat) % (2 ^ w : Nat)
  BitVec.ofInt 32 (if sg && decide (0 < w) && decide ((2 ^ (w - 1) : Nat) ≤ f) then f - (2 ^ w : Nat) else f)

def bfiVal (a b c : Word) : Word :=
  let pos := fieldPos c
  let m : Word := BitVec.ofNat 32 ((2 ^ fieldWidth c - 1) * 2 ^ pos)
  (b &&& ~~~m) ||| (BitVec.ofNat 32 (a.toNat * 2 ^ pos) &&& m)

def bpermByte (e : Dword) (nib : Nat) : Nat :=
  let x := (e.extractLsb' (8 * (nib % 8)) 8).toNat
  if 8 ≤ nib then (if 128 ≤ x then 255 else 0) else x
def bpermVal (a b c : Word) : Word :=
  let e := pairOf a b
  BitVec.ofNat 32 ((List.range 4).foldl (fun r j => r + bpermByte e (c.toNat / 16 ^ j % 16) * 256 ^ j) 0)

def execPopc (o : Ops1) (s : State) : Out := laneRun s fun g => s.alu1 g o .raw .i32 popcVal
def execClz (o : Ops1) (s : State) : Out := laneRun s fun g => s.alu1 g o .raw .i32 clzVal
def execCtz (o : Ops1) (s : State) : Out := laneRun s fun g => s.alu1 g o .raw .i32 ctzVal
def execBrev (o : Ops1) (s : State) : Out := laneRun s fun g => s.alu1 g o .raw .b32 brevVal
def execBfx (sg : Bool) (o : Ops2) (s : State) : Out := laneRun s fun g => s.alu2 g o .raw .b32 (bfxVal sg)
def execBfi (o : Ops3) (s : State) : Out := laneRun s fun g => s.alu3 g o .raw .b32 bfiVal
def execBperm (o : Ops3) (s : State) : Out := laneRun s fun g => s.alu3 g o .raw .b32 bpermVal

/-! ### Compares and selection (R90, R91) -/

def icmpTest (cc : Cmp) (sg : Bool) (a b : Word) : Bool :=
  let lt := if sg then a.slt b else a.ult b
  let gt := if sg then b.slt a else b.ult a
  match cc with
  | .eq => a == b
  | .ne => a != b
  | .lt => lt
  | .le => !gt
  | .gt => gt
  | .ge => !lt

/-- The tag of `sel`'s result (R91). -/
def selTag (a b : Option Tag) : Tag :=
  match a, b with
  | some x, some y => if x == y then x else .b32
  | some x, none => x
  | none, some y => y
  | none, none => .b32

def execIcmp (cc : Cmp) (sg : Bool) (o : Ops2) (s : State) : Out :=
  laneRun s fun g => s.aluTest g o .raw (icmpTest cc sg)

def execSel (m : Bool) (o : Ops3) (s : State) : Out :=
  laneRun s fun g =>
    s.alu g o.d 1 o.nw o.msel [.int o.a, .int o.b, if m then .pair o.c else .int o.c] fun e =>
      .ok (selTag (e.tags.getD 0 none) (e.tags.getD 1 none),
        [Lanes.make fun L => if (if m then inMask (e.p 2 L) L else e.v 2 L != 0) then e.v 0 L else e.v 1 L])

/-! ### Moves and broadcasts (R92) -/

def execMov (o : Ops1) (s : State) : Out :=
  laneRun s fun g => s.alu g o.d 1 o.nw o.msel [.int o.a] fun e =>
    lanewise ((e.tags.getD 0 none).getD .b32) (fun e L => e.v 0 L) e

def execMovi (o : OpsI) (s : State) : Out :=
  laneRun s fun g => s.alu g o.d 1 o.nw o.msel [] fun _ => uniform1 .b32 o.imm

def execVfill (o : Ops2) (s : State) : Out :=
  laneRun s fun g => s.alu g o.d 1 o.nw o.msel [.int o.a, .int o.b]
    (lanewise .i32 fun e L => e.v 0 L + BitVec.ofNat 32 L * e.v 1 L)

def execVpick (o : Ops2) (s : State) : Out :=
  laneRun s fun g => s.alu g o.d 1 o.nw o.msel [.int o.a, .int o.b] fun e =>
    uniform1 .b32 (e.v 0 ((e.v 1 0).toNat % 64))

/-! ### Computed register index (R93) -/

/-- The register each lane names: base plus its index, exactly (R26). -/
def computedReg (base : BitVec 8) (i : Word) : Nat := base.toNat + i.toNat

/-- The index source of `ridx` or `widx` has a value: it is no latch of before the clause and no window without a complete
entry. The spec gives no value to a vector or scalar beyond the declared counts: the model forms n(L) from the bits stored there, so
that a computed register's fault may come before the source's own (R59, R93; log entry 8). -/
def State.indexKnown (s : State) (gid : Nat) (o : Opnd) : Bool :=
  (o.needs.all fun x => !(x.latch (s.limits gid))) && (queuesNamed [o.src]).all fun q => ((s.grp gid).head q).isSome

/-- The checks of `ridx` and `widx`: each fault of R59 for the registers the instruction names, its base among them (R13, R16, R41;
DEDUCED, log entry 24), and for those its active lanes compute, the lowest such lane with it. Where the index source has no
value there is no n(L) to check, and the source's
own fault is raised at its place (DEDUCED, log entry 8). -/
def State.checkComputed (s : State) (gid : Nat) (msel : BitVec 3) (dst : List Need) (os : List Opnd) (base : BitVec 8) :
    R Unit := do
  let l := s.limits gid
  let dst := .v base.toNat :: dst
  let named := dst ++ os.flatMap Opnd.needs ++ mselNeeds msel
  let e := s.env gid msel os
  let lanes := if s.indexKnown gid (os.getD 0 (Opnd.int (.v 0))) then lanesOf e.act else []
  let n := fun L => Need.v (computedReg base (e.v 0 L))
  if named.any (Need.illegal l) then raise fIllegalInstr
  if named.any (Need.extension l) then raise fExtension
  match lanes.find? fun L => (n L).extension l with
  | some L => raiseAt fExtension L 0
  | none =>
    if named.any (Need.range l) then raise fRegRange
    match lanes.find? fun L => (n L).range l with
    | some L => raiseAt fRegRange L 0
    | none => s.checkOperands gid msel dst os

/-- The tag of `ridx`'s result (R93). -/
def computedTag (tags : List Tag) : Tag :=
  match tags with
  | [] => .b32
  | t :: ts => if ts.all (· == t) then t else .b32

/-- The register number of a vector selector. -/
def Src.vnum : Src → BitVec 8
  | .v n => n
  | _ => 0
def Dst.vnum : Dst → BitVec 8
  | .v n => n
  | .s n => n

def execRidx (o : Ops2) (s : State) : Out :=
  laneRun s fun g => do
    let base := Src.vnum o.a
    s.checkComputed g o.msel (dstNeeds o.d 1) [.int o.b] base
    let e := s.env g o.msel [.int o.b]
    let n := fun L => computedReg base (e.v 0 L)
    let res := Lanes.make fun L => if inMask e.act L then (s.vreg g (n L)).lanes.at L else 0
    let t := computedTag ((lanesOf e.act).map fun L => (s.vreg g (n L)).tag)
    pure (s.aluDone g [o.b] e.act o.d o.nw t [res])

/-- Write one lane of the register each active lane names; every register written takes the tag (R93). -/
def State.scatter (s : State) (gid : Nat) (act : Dword) (n : Nat → Nat) (x : Nat → Word) (t : Tag) : State :=
  (lanesOf act).foldl (fun s L => (s.setLane gid (n L) L (x L)).setTag gid (n L) t) s

def execWidx (o : Ops2) (s : State) : Out :=
  laneRun s fun g => do
    let base := Dst.vnum o.d
    s.checkComputed g o.msel [] [.int o.a, .int o.b] base
    let e := s.env g o.msel [.int o.a, .int o.b]
    let t := (e.tags.getD 1 none).getD .b32
    let s1 := s.afterReads g [o.a, o.b]
    let s2 := if o.nw then s1 else s1.scatter g e.act (fun L => computedReg base (e.v 0 L)) (fun L => e.v 1 L) t
    let y := Lanes.make fun L => if inMask e.act L then e.v 1 L else 0
    pure ((s2.modGrp g fun x => x.shiftLatch y).advance g)

/-! ### Tags (R94) -/

def execTag (t : Tag) (o : Ops1) (s : State) : Out := laneRun s fun g => s.alu1 g o .raw t fun a => a

def execTagq (o : Ops1) (s : State) : Out :=
  laneRun s fun g => s.alu g o.d 1 o.nw o.msel [.int o.a] fun e =>
    uniform1 .i32 (BitVec.ofNat 32 (tagCode ((e.tags.getD 0 none).getD .b32)))

/-! ### Addresses (R95) -/

/-- Bits [63:57] set to bit 56. -/
def canonize (x : Dword) : Dword := (x.extractLsb' 0 57).signExtend 64

def leaVal (a : Dword) (imm : BitVec 32) : Dword := canonize (a + imm.signExtend 64)
def add64Val (sh : BitVec 3) (a y : Dword) : Dword := a + y <<< sh.toNat

def execLea (o : OpsI) (s : State) : Out :=
  laneRun s fun g => s.alu g o.d 2 o.nw o.msel [.pair o.a] (lanewise2 .b32 fun e L => leaVal (e.p 0 L) o.imm)

def execAdd64 (w u : Bool) (sh : BitVec 3) (o : Ops2) (s : State) : Out :=
  laneRun s fun g => s.alu g o.d 2 o.nw o.msel [.pair o.a, if w then .pair o.b else .int o.b]
    (lanewise2 .b32 fun e L =>
      add64Val sh (e.p 0 L)
        (if w then e.p 2 L else if u then (e.v 2 L).setWidth 64 else (e.v 2 L).signExtend 64))

/-! ### Mask logic (R96) -/

def execMlop (op : MaskOp) (o : Ops2) (s : State) : Out :=
  laneRun s fun g =>
    let os := match op with
      | .and | .or | .xor | .andn => [Opnd.pair o.a, Opnd.pair o.b]
      | .not | .mov => [Opnd.pair o.a]
      | .act => []
    s.alu g o.d 2 o.nw o.msel os fun e =>
      let a := e.p 0 0
      let b := e.p 2 0
      uniform2 .b32 (match op with
        | .and => a &&& b
        | .or => a ||| b
        | .xor => a ^^^ b
        | .andn => a &&& ~~~b
        | .not => ~~~a
        | .mov => a
        | .act => e.act)

def execMcnt (o : Ops1) (s : State) : Out :=
  laneRun s fun g => s.alu g o.d 1 o.nw o.msel [.pair o.a] fun e =>
    uniform1 .b32 (BitVec.ofNat 32 (popcount (e.p 0 0)))

def execMfirst (o : Ops1) (s : State) : Out :=
  laneRun s fun g => s.alu g o.d 1 o.nw o.msel [.pair o.a] fun e =>
    uniform1 .b32 (BitVec.ofNat 32 (lowestLane (e.p 0 0)))

end Sys2Proof.Machine
end

