-- ==== Sys2Proof/Machine/Float.lean ====
section
/-!
DEFINITION. The float, conversion and packing instructions, ALU opcodes 0x40 to 0x5E (R106 to R123).
-/
namespace Sys2Proof.Machine

/-! ### Basic arithmetic (R108 to R112) -/

def execFadd (rm : Rm) (o : Ops2) (s : State) : Out := laneRun s fun g => s.alu2 g o .f32 .f32 (f32Add rm)
def execFsub (rm : Rm) (o : Ops2) (s : State) : Out := laneRun s fun g => s.alu2 g o .f32 .f32 (f32Sub rm)
def execFmul (rm : Rm) (o : Ops2) (s : State) : Out := laneRun s fun g => s.alu2 g o .f32 .f32 (f32Mul rm)
def execFfma (rm : Rm) (o : Ops3) (s : State) : Out := laneRun s fun g => s.alu3 g o .f32 .f32 (f32Fma rm)
def execFmin (o : Ops2) (s : State) : Out := laneRun s fun g => s.alu2 g o .f32 .f32 f32Min
def execFmax (o : Ops2) (s : State) : Out := laneRun s fun g => s.alu2 g o .f32 .f32 f32Max
def execFabs (o : Ops1) (s : State) : Out := laneRun s fun g => s.alu1 g o .f32 .f32 fun a => a &&& 0x7FFFFFFF#32
def execFneg (o : Ops1) (s : State) : Out := laneRun s fun g => s.alu1 g o .f32 .f32 fun a => a ^^^ 0x80000000#32
def execFcmp (cc : FCmp) (o : Ops2) (s : State) : Out := laneRun s fun g => s.aluTest g o .f32 (f32Cmp cc)
def execFclass (o : Ops1) (s : State) : Out := laneRun s fun g => s.alu1 g o .f32 .i32 f32Class

/-! ### Correctly rounded functions (R113) -/

def execFrcp (rm : Rm) (o : Ops1) (s : State) : Out := laneRun s fun g => s.alu1 g o .f32 .f32 (f32Rcp rm)
def execFrsq (rm : Rm) (o : Ops1) (s : State) : Out := laneRun s fun g => s.alu1 g o .f32 .f32 (f32Rsq rm)
def execFsqrt (rm : Rm) (o : Ops1) (s : State) : Out := laneRun s fun g => s.alu1 g o .f32 .f32 (f32Sqrt rm)
def execFexp2 (rm : Rm) (o : Ops1) (s : State) : Out := laneRun s fun g => s.alu1 g o .f32 .f32 (f32Exp2 rm)
def execFlog2 (rm : Rm) (o : Ops1) (s : State) : Out := laneRun s fun g => s.alu1 g o .f32 .f32 (f32Log2 rm)
def execFtanh (rm : Rm) (o : Ops1) (s : State) : Out := laneRun s fun g => s.alu1 g o .f32 .f32 (f32Tanh rm)
def execFsig (rm : Rm) (o : Ops1) (s : State) : Out := laneRun s fun g => s.alu1 g o .f32 .f32 (f32Sig rm)

/-! ### Scaling and integers (R114, R115) -/

def execFscale (rm : Rm) (o : Ops2) (s : State) : Out :=
  laneRun s fun g => s.alu g o.d 1 o.nw o.msel [.fp o.a, .int o.b]
    (lanewise .f32 fun e L => f32Scale rm (e.v 0 L) (e.v 1 L))
def execFrnd (rm : Rm) (o : Ops1) (s : State) : Out := laneRun s fun g => s.alu1 g o .f32 .f32 (f32Rnd rm)
def execF2i (rm : Rm) (sg : Bool) (o : Ops1) (s : State) : Out :=
  laneRun s fun g => s.alu1 g o .f32 .i32 (f32ToInt rm sg)
def execI2f (rm : Rm) (sg : Bool) (o : Ops1) (s : State) : Out :=
  laneRun s fun g => s.alu1 g o .raw .f32 (intToF32 rm sg)

/-! ### Conversion (R116) -/

/-- Element `i` of a packed register (R22). -/
def elem (w : Word) (i : Nat) : Nat := w.toNat / 65536 ^ i % 65536

/-- Two 16-bit results packed. -/
def packed (lo hi : Nat) : Word := BitVec.ofNat 32 (lo + 65536 * hi)

/-- A value of one format rounded to another. -/
def convert (src dst : BFmt) (rm : Rm) (x : Nat) : Nat := dst.bits rm (src.value x)

/-- Source kind of each form. -/
def cvtKind (f : CvtForm) : Kind :=
  match f with
  | .bf16x2F32 => .f32
  | .f16x2F32 => .f32
  | .f32Bf16 => .half .bf16
  | .f32F16 => .half .f16
  | .bf16x2F16x2 => .half .f16
  | .f16x2Bf16x2 => .half .bf16

/-- Result tag of each form. -/
def cvtTag (f : CvtForm) : Tag :=
  match f with
  | .bf16x2F32 | .bf16x2F16x2 => .bf16x2
  | .f16x2F32 | .f16x2Bf16x2 => .f16x2
  | .f32Bf16 | .f32F16 => .f32

def cvtVal (f : CvtForm) (e1 : Bool) (rm : Rm) (a b : Word) : Word :=
  let i := if e1 then 1 else 0
  match f with
  | .bf16x2F32 => packed (convert .f32 .bf16 rm a.toNat) (convert .f32 .bf16 rm b.toNat)
  | .f16x2F32 => packed (convert .f32 .f16 rm a.toNat) (convert .f32 .f16 rm b.toNat)
  | .f32Bf16 => BitVec.ofNat 32 (convert .bf16 .f32 .rn (elem a i))
  | .f32F16 => BitVec.ofNat 32 (convert .f16 .f32 .rn (elem a i))
  | .bf16x2F16x2 => packed (convert .f16 .bf16 rm (elem a 0)) (convert .f16 .bf16 rm (elem a 1))
  | .f16x2Bf16x2 => packed (convert .bf16 .f16 rm (elem a 0)) (convert .bf16 .f16 rm (elem a 1))

/-- A form that reads B. -/
def cvtTwo (f : CvtForm) : Bool := f == .bf16x2F32 || f == .f16x2F32

def execCvt (form : CvtForm) (e1 : Bool) (rm : Rm) (o : Ops2) (s : State) : Out :=
  laneRun s fun g =>
    let k := cvtKind form
    s.alu g o.d 1 o.nw o.msel (if cvtTwo form then [⟨o.a, 1, k⟩, ⟨o.b, 1, k⟩] else [⟨o.a, 1, k⟩])
      (lanewise (cvtTag form) fun e L => cvtVal form e1 rm (e.v 0 L) (e.v 1 L))

/-! ### Packed arithmetic (R117, R118) -/

/-- One element of a packed result, computed exactly and rounded once. -/
def halfElem (t : Half) (rm : Rm) (f : (Nat → Fpv) → Fpv) (ws : List Word) (i : Nat) : Nat :=
  (halfFmt t).bits rm (f fun j => (halfFmt t).value (elem (ws.getD j 0) i))

def halfVal (t : Half) (rm : Rm) (f : (Nat → Fpv) → Fpv) (ws : List Word) : Word :=
  packed (halfElem t rm f ws 0) (halfElem t rm f ws 1)

def execHadd2 (t : Half) (rm : Rm) (o : Ops2) (s : State) : Out :=
  laneRun s fun g => s.alu2 g o (.half t) (halfTag t) fun a b => halfVal t rm (fun x => Fpv.sum rm [x 0, x 1]) [a, b]
def execHmul2 (t : Half) (rm : Rm) (o : Ops2) (s : State) : Out :=
  laneRun s fun g => s.alu2 g o (.half t) (halfTag t) fun a b => halfVal t rm (fun x => (x 0).mul (x 1)) [a, b]
def execHfma2 (t : Half) (rm : Rm) (o : Ops3) (s : State) : Out :=
  laneRun s fun g => s.alu3 g o (.half t) (halfTag t) fun a b c =>
    halfVal t rm (fun x => Fpv.sum rm [(x 0).mul (x 1), x 2]) [a, b, c]

def fdot2Val (t : Half) (rm : Rm) (a b c : Word) : Word :=
  let x := fun w i => (halfFmt t).value (elem w i)
  toF32 rm (Fpv.sum rm [(x a 0).mul (x b 0), (x a 1).mul (x b 1), f32 c])

def execFdot2 (t : Half) (rm : Rm) (o : Ops3) (s : State) : Out :=
  laneRun s fun g => s.alu g o.d 1 o.nw o.msel [.packed t o.a, .packed t o.b, .fp o.c]
    (lanewise .f32 fun e L => fdot2Val t rm (e.v 0 L) (e.v 1 L) (e.v 2 L))

/-! ### D8, S8 and I8 packing (R119 to R122) -/

/-- Byte `n` of a word. -/
def byteOf (w : Word) (n : Nat) : Byte := w.extractLsb' (8 * n) 8

/-- Replace byte `n` of a word. -/
def withByte (w : Word) (n : Nat) (b : Byte) : Word :=
  BitVec.ofNat 32 (w.toNat - (byteOf w n).toNat * 256 ^ n + b.toNat * 256 ^ n)

/-- The scale byte of lane `L` (R104). -/
def scaleOf (w : Word) (L : Nat) : Nat × Nat := s8Value (byteOf w (L / 16))

/-- The bits a destination holds before the write, lane by lane. -/
def State.dstLanes (s : State) (gid : Nat) (d : Dst) : Lanes :=
  match d with
  | .v n => (s.vreg gid n.toNat).lanes
  | .s n => Lanes.splat (s.sreg gid n.toNat)

/-- The lane whose scale a destination's lane uses: a scalar destination has the lowest active lane (R119). -/
def scaleLane (d : Dst) (e : Env) (L : Nat) : Nat :=
  match d with
  | .v _ => L
  | .s _ => e.lowest

def execD8pack (n : BitVec 2) (inf sc : Bool) (o : Ops2) (s : State) : Out :=
  laneRun s fun g =>
    let old := s.dstLanes g o.d
    s.alu g o.d 1 o.nw o.msel (if sc then [.fp o.a, .byte4 .s8x4 o.b] else [.fp o.a])
      (lanewise .d8x4 fun e L =>
        let k := if sc then scaleOf (e.v 1 L) (scaleLane o.d e L) else (1, 1)
        withByte (old.at L) n.toNat ((f32 (e.v 0 L)).toD8 inf k.1 k.2))

def execD8unpk (n : BitVec 2) (sc : Bool) (o : Ops2) (s : State) : Out :=
  laneRun s fun g =>
    s.alu g o.d 1 o.nw o.msel (if sc then [.byte4 .d8x4 o.a, .byte4 .s8x4 o.b] else [.byte4 .d8x4 o.a])
      (lanewise .f32 fun e L =>
        let k := if sc then scaleOf (e.v 1 L) (scaleLane o.d e L) else (1, 1)
        d8ToF32 (byteOf (e.v 0 L) n.toNat) k.1 k.2)

/-- The S8 of a block: from the largest magnitude of its active lanes, 0xFF for an infinity or a NaN (R121). -/
def scaleFor (ws : List Word) : Byte :=
  let vs := ws.map f32
  if vs.any fun v => match v with | .fin _ _ _ => false | _ => true then 0xFF
  else
    let q : Int := vs.foldl (fun q v => min q v.exp) 0
    let m := vs.foldl (fun m v => Nat.max m (v.scaled q).natAbs) 0
    s8For m (2 ^ (-q).toNat)

def blockScale (e : Env) (j : Nat) : Byte :=
  scaleFor (((lanesOf e.act).filter fun L => L / 16 == j).map (e.v 0))

def execS8scale (o : Ops1) (s : State) : Out :=
  laneRun s fun g => s.alu g o.d 1 o.nw o.msel [.fp o.a] fun e =>
    uniform1 .s8x4 (BitVec.ofNat 32 ((List.range 4).foldl (fun r j => r + (blockScale e j).toNat * 256 ^ j) 0))

def i8Val (rm : Rm) (a : Word) : Byte := BitVec.ofInt 8 (clampI (-128) 127 (f32Int rm a))

def execI8pack (n : BitVec 2) (rm : Rm) (o : Ops1) (s : State) : Out :=
  laneRun s fun g =>
    let old := s.dstLanes g o.d
    s.alu g o.d 1 o.nw o.msel [.fp o.a] (lanewise .i8x4 fun e L => withByte (old.at L) n.toNat (i8Val rm (e.v 0 L)))

def execI8unpk (n : BitVec 2) (i : Bool) (o : Ops1) (s : State) : Out :=
  laneRun s fun g => s.alu1 g o (.bytes .i8x4) (if i then .i32 else .f32) fun a =>
    let x : Word := (byteOf a n.toNat).signExtend 32
    if i then x else intToF32 .rn true x

end Sys2Proof.Machine
end

