-- ==== Sys2Proof/Machine/Cross.lean ====
section
/-!
DEFINITION. Cross-lane instructions, reordering and the extension lock, ALU opcodes 0x80 to 0x8F (R124 to R135).
-/
namespace Sys2Proof.Machine

/-- Lanes of a segment width (R125). -/
def seg6W : Seg6 → Nat
  | .w64 => 64 | .w32 => 32 | .w16 => 16 | .w8 => 8 | .w4 => 4 | .w2 => 2
def seg4W : Seg4 → Nat
  | .w64 => 64 | .w32 => 32 | .w16 => 16 | .w8 => 8

/-- Levels of the tree over a segment. -/
def seg4Log : Seg4 → Nat
  | .w64 => 6 | .w32 => 5 | .w16 => 4 | .w8 => 3

/-! ### Shuffles (R126) -/

/-- A shuffle: each active lane takes A from a source lane, or its own A where there is none. -/
def State.shuffle (s : State) (gid : Nat) (o : Ops2) (src : Nat → Word → Option Nat) : R State :=
  s.alu gid o.d 1 o.nw o.msel [.int o.a, .int o.b] fun e =>
    lanewise ((e.tags.getD 0 none).getD .b32) (fun e L => e.v 0 ((src L (e.v 1 L)).getD L)) e

def execShfl (seg : Seg6) (o : Ops2) (s : State) : Out :=
  laneRun s fun g => s.shuffle g o fun L b =>
    let w := seg6W seg
    some (L - L % w + b.toNat % w)
def execShup (seg : Seg6) (o : Ops2) (s : State) : Out :=
  laneRun s fun g => s.shuffle g o fun L b =>
    let w := seg6W seg
    if b.toNat < w && decide (L - L % w + b.toNat ≤ L) then some (L - b.toNat) else none
def execShdn (seg : Seg6) (o : Ops2) (s : State) : Out :=
  laneRun s fun g => s.shuffle g o fun L b =>
    let w := seg6W seg
    if b.toNat < w && decide (L + b.toNat < L - L % w + w) then some (L + b.toNat) else none
def execShx (seg : Seg6) (o : Ops2) (s : State) : Out :=
  laneRun s fun g => s.shuffle g o fun L b =>
    let w := seg6W seg
    some (L - L % w + (L ^^^ b.toNat) % w)
def execBcast (o : Ops2) (s : State) : Out :=
  laneRun s fun g => s.shuffle g o fun _ b => some (b.toNat % 64)

/-! ### Reductions (R127, R128) -/

def rtyTag : RTy → Tag
  | .f32 => .f32
  | .i32 | .u32 => .i32
def rtyKind : RTy → Kind
  | .f32 => .f32
  | .i32 | .u32 => .raw

/-- The three ways a reduction combines. -/
inductive Red where
  | add | min | max
  deriving DecidableEq, Repr

/-- combine(x, y) of R127. -/
def redCombine (r : Red) (ty : RTy) (rm : Rm) (x y : Word) : Word :=
  match r, ty with
  | .add, .f32 => f32Add rm x y
  | .add, _ => x + y
  | .min, .f32 => f32Min x y
  | .min, .i32 => iminVal true x y
  | .min, .u32 => iminVal false x y
  | .max, .f32 => f32Max x y
  | .max, .i32 => imaxVal true x y
  | .max, .u32 => imaxVal false x y

/-- The identity of R127. -/
def redIdentity (r : Red) (ty : RTy) : Word :=
  match r, ty with
  | .add, _ => 0
  | .min, .i32 => 0x7FFFFFFF#32
  | .min, .u32 => 0xFFFFFFFF#32
  | .min, .f32 => 0x7F800000#32
  | .max, .i32 => 0x80000000#32
  | .max, .u32 => 0
  | .max, .f32 => 0xFF800000#32

/-- A node of the tree from the two below it. -/
def redNode (f : Word → Word → Word) : Option Word → Option Word → Option Word
  | none, y => y
  | x, none => x
  | some x, some y => some (f x y)

/-- One level of the tree. -/
def redLevel (f : Word → Word → Word) : List (Option Word) → List (Option Word)
  | x :: y :: t => redNode f x y :: redLevel f t
  | l => l

/-- The tree over a segment's leaves, `k` levels. -/
def redTree (f : Word → Word → Word) : Nat → List (Option Word) → List (Option Word)
  | 0, l => l
  | k + 1, l => redTree f k (redLevel f l)

/-- A NaN that no combination has met becomes the canonical one (R98, R127). -/
def redCanon (ty : RTy) (w : Word) : Word := if ty == .f32 && (f32 w).isNan then qNaN else w

/-- The result of a reduction over segment `j`. -/
def redSegment (r : Red) (ty : RTy) (rm : Rm) (seg : Seg4) (e : Env) (j : Nat) : Word :=
  let w := seg4W seg
  let leaves := (List.range w).map fun i => if inMask e.act (j * w + i) then some (e.v 0 (j * w + i)) else none
  match (redTree (redCombine r ty rm) (seg4Log seg) leaves).headD none with
  | some x => redCanon ty x
  | none => redIdentity r ty

/-- A value of each segment, in every lane of it. -/
def bySegment (seg : Seg4) (f : Nat → Word) : Lanes :=
  let rs := (List.range (64 / seg4W seg)).map f
  Lanes.make fun L => rs.getD (L / seg4W seg) 0

/-- `redadd`, `redmin`, `redmax`. -/
def State.reduce (s : State) (gid : Nat) (r : Red) (ty : RTy) (seg : Seg4) (rm : Rm) (o : Ops1) : R State :=
  s.alu gid o.d 1 o.nw o.msel [⟨o.a, 1, rtyKind ty⟩] fun e =>
    .ok (rtyTag ty, [bySegment seg (redSegment r ty rm seg e)])

/-- The lowest active lane of segment `j` that holds the result's bits; the lowest active lane where every one holds a
NaN; 64 where none is active (R128). -/
def redIndex (r : Red) (ty : RTy) (seg : Seg4) (e : Env) (j : Nat) : Word :=
  let w := seg4W seg
  let v := redSegment r ty .rn seg e j
  let ls := (lanesOf e.act).filter fun L => L / w == j
  let nan := fun L => ty == .f32 && (f32 (e.v 0 L)).isNan
  let hit := if ls.all nan then ls else ls.filter fun L => !(nan L) && e.v 0 L == v
  BitVec.ofNat 32 (hit.headD 64)

/-- `redmini`, `redmaxi`: the index register takes tag I32. -/
def State.reduceIndex (s : State) (gid : Nat) (r : Red) (ty : RTy) (seg : Seg4) (o : Ops1) : R State := do
  let t ← s.alu gid o.d 2 o.nw o.msel [⟨o.a, 1, rtyKind ty⟩] fun e =>
    .ok (rtyTag ty, [bySegment seg (redSegment r ty .rn seg e), bySegment seg (redIndex r ty seg e)])
  pure (match o.d with
    | .v n => if o.nw then t else t.setTag gid (n.toNat + 1) .i32
    | .s _ => t)

def execRedadd (ty : RTy) (seg : Seg4) (rm : Rm) (o : Ops1) (s : State) : Out :=
  laneRun s fun g => s.reduce g .add ty seg rm o
def execRedmin (ty : RTy) (seg : Seg4) (o : Ops1) (s : State) : Out :=
  laneRun s fun g => s.reduce g .min ty seg .rn o
def execRedmax (ty : RTy) (seg : Seg4) (o : Ops1) (s : State) : Out :=
  laneRun s fun g => s.reduce g .max ty seg .rn o
def execRedmini (ty : RTy) (seg : Seg4) (o : Ops1) (s : State) : Out :=
  laneRun s fun g => s.reduceIndex g .min ty seg o
def execRedmaxi (ty : RTy) (seg : Seg4) (o : Ops1) (s : State) : Out :=
  laneRun s fun g => s.reduceIndex g .max ty seg o

/-! ### Scan (R129) -/

def scanRed : ScanOp → Red
  | .add | .exadd => .add
  | .min => .min
  | .max => .max

/-- The running values of a list of lanes, in order: each lane with what it receives. -/
def scanRun (op : ScanOp) (ty : RTy) (rm : Rm) (e : Env) : Option Word → List Nat → List (Nat × Word)
  | _, [] => []
  | r, L :: t =>
    let next := match r with
      | none => e.v 0 L
      | some x => redCombine (scanRed op) ty rm x (e.v 0 L)
    let given := if op == .exadd then r.getD (redIdentity .add ty) else next
    (L, given) :: scanRun op ty rm e (some next) t

def execScan (op : ScanOp) (ty : RTy) (seg : Seg4) (rm : Rm) (o : Ops1) (s : State) : Out :=
  laneRun s fun g => s.alu g o.d 1 o.nw o.msel [⟨o.a, 1, rtyKind ty⟩] fun e =>
    let w := seg4W seg
    let vs := (List.range (64 / w)).flatMap fun j =>
      scanRun op ty rm e none ((lanesOf e.act).filter fun L => L / w == j)
    .ok (rtyTag ty, [Lanes.make fun L => (Tbl.find vs L).getD 0])

/-! ### Ballot and match (R130) -/

def execBallot (o : Ops1) (s : State) : Out :=
  laneRun s fun g => s.alu g o.d 2 o.nw o.msel [.int o.a] fun e =>
    uniform2 .b32 (maskOf fun L => inMask e.act L && e.v 0 L != 0)

def execMatchLanes (o : Ops1) (s : State) : Out :=
  laneRun s fun g => s.alu g o.d 2 o.nw o.msel [.int o.a]
    (lanewise2 .b32 fun e L => maskOf fun M => inMask e.act M && e.v 0 M == e.v 0 L)

/-! ### Reordering threads (R131 to R133) -/

/-- Arrival at the meeting (R131 step 1): the clause ends and its threads stand at the clause after it. -/
def Group.arrive (g : Group) (a : Arrival) : Group :=
  { (g.setPcs g.curLanes fun _ => a.next) with clause := none, heldAt := false, heldRow := none, partDone := false, reo := some a }

/-- `reorder` (R131, step 1). A window named as the key is popped with the move, so that the fault of step 3 leaves it as it
was (R27). -/
def State.reorderAt (s : State) (gid : Nat) (sg : Bool) (a b : Src) (msel : BitVec 3) : R State := do
  let g := s.grp gid
  let c := g.clause!
  if !g.atLast then raise fIllegalInstr
  let base := match b with
    | .s n => n.toNat
    | _ => 0
  let os := [Opnd.int a, Opnd.pair b]
  let mask := s.spair gid base
  s.checkOperands gid msel ((lanesOf mask).map Need.v) os
  if maskOf g.live != g.curLanes then raise fReorder
  let e := s.env gid msel os
  pure (s.modGrp gid fun g => g.arrive
    { pc := c.pc, hdr := c.hdr, next := nextHeader c.hdr c.head, mask := mask, sg := sg, keys := Lanes.make (e.v 0),
      pops := queuesNamed [a] })

def execReorder (sg : Bool) (a : Src) (b : Src) (msel : BitVec 3) (s : State) : Out :=
  laneRun s fun g => s.reorderAt g sg a b msel

/-- The groups of a block that have not retired, by $group (R131 step 2). -/
def State.meeting (s : State) (b : Nat) : List Nat := (s.blk b).gids.filter fun g => !(s.grp g).retired

/-- The arrivals of a block's groups, when every one of them has arrived. -/
def State.arrivals (s : State) (b : Nat) : Option (List (Nat × Arrival)) :=
  let gs := s.meeting b
  let rs := gs.filterMap fun g => (s.grp g).reo.map fun a => (g, a)
  if rs.length == gs.length && !gs.isEmpty then some rs else none

/-- The MR values of a group's threads that have not exited. -/
def Group.liveMrs (g : Group) : List Dword := ((List.range 64).filter g.live).map g.mr

/-- The check of R131 step 3. -/
def State.arrivalsAgree (s : State) (rs : List (Nat × Arrival)) : Bool :=
  let mrs := rs.flatMap fun r => (s.grp r.1).liveMrs
  match rs with
  | [] => true
  | r :: t =>
    (t.all fun x => x.2.pc == r.2.pc && x.2.mask == r.2.mask && x.2.sg == r.2.sg) &&
    match mrs with
    | [] => true
    | m :: ms => ms.all (· == m)

/-- Every arrived group raises reorder-divergent at its `reorder` (R131 step 3); where a handler's page is missing the
fault is kept (R343). -/
def State.reorderFault (s : State) (rs : List (Nat × Arrival)) : State :=
  rs.foldl (fun s r => (s.modGrp r.1 fun g => { g with reo := none }).takeFault r.1 (Flt.plain fReorder) r.2.pc r.2.hdr) s

/-- One thread of the sort: whether it has exited, its key as an integer, its old slot (R132). -/
structure Sorted where
  out : Bool
  key : Int
  slot : Nat
  deriving DecidableEq, Repr

/-- The order of R132. -/
def Sorted.before (a b : Sorted) : Bool :=
  if a.out != b.out then b.out
  else if a.key != b.key then decide (a.key < b.key)
  else decide (a.slot < b.slot)

def insertSorted (x : Sorted) : List Sorted → List Sorted
  | [] => [x]
  | y :: t => if x.before y then x :: y :: t else y :: insertSorted x t

def sortThreads (l : List Sorted) : List Sorted := l.foldr insertSorted []

/-- The tag a live register takes: that of every participating group if all agree, else B32 (R132). -/
def movedTag (ts : List Tag) : Tag := computedTag ts

/-- A base register that does not move holds its old bits or zero in each lane, and tag B32 (R132): free choices. -/
def forgotten (v : VReg) (n : Nat) : VReg :=
  { lanes := Lanes.make fun L => if Config.freeBit (n + L) then v.lanes.at L else 0, tag := .b32 }

/-- The groups of one block, reordered: `gs` are the participating groups with their arrivals, `order` the old slot of
each new slot, `fc` the free values used so far (R132). Exited threads carry their bits of the live registers too (DESIGN CHOICE,
log entry 104). -/
def Group.reordered (gs : List Group) (order : List Nat) (a : Arrival) (rounded i fc : Nat) (g : Group) : Group :=
  let old := fun L => order.getD (64 * i + L) 0
  let from' := fun L => gs.getD (old L / 64) Group.empty
  let lane := fun L => old L % 64
  let live := fun L => (from' L).live (lane L)
  let reg := fun (g : Group) n => (Tbl.find g.vregs n).getD VReg.zero
  let vregs : Tbl VReg := (List.range rounded).map fun n =>
    (n, if inMask a.mask n then
          { lanes := Lanes.make fun L => (reg (from' L) n).lanes.at (lane L),
            tag := movedTag (gs.map fun g => (reg g n).tag) }
        else forgotten (reg g n) (fc + 64 * n))
  let mrs := (List.range 64).map fun L => (from' L).mr (lane L)
  let mask := maskOf live
  let g : Group := { g.popAll a.pops with
    pcs := List.replicate 64 a.next, mrs := mrs, exited := ~~~mask, vregs := vregs, pend := [], reo := none,
    fenced := maskOf fun L => inMask (from' L).fenced (lane L),
    cur := none, clause := none }
  if mask == 0 then g
  else if (List.range 64).any g.held then g.meetAll.pickNext 0
  else { g with cur := some { lanes := mask, age := 0, res := 0 } }

/-- The threads of an instruction of group `h` after a move: `f` gives each thread's new name. -/
def Acc.renamed (h : Nat) (f : Nat → Nat) (a : Acc) : Acc :=
  if a.op.perLane then
    { a with who := (lanesOf a.act).filterMap fun L =>
        let t := f (a.thread h L)
        if t == 128 * h + L then none else some (L, t) }
  else a

/-- The accesses still to be performed, and the stores that entries of the write-combining buffers, packets and swept records hold,
go with their threads: `f` gives each thread's new name (R131, R132, R361). -/
def State.renameThreads (s : State) (f : Nat → Nat) : State :=
  let pkt := fun (p : Packet) => { p with threads := p.threads.map f }
  let rec' := fun (r : SweepRec) => { r with pkt := pkt r.pkt }
  { s with
    groups := s.groups.map fun g => (g.1, { g.2 with out := g.2.out.map (Acc.renamed g.1 f) }),
    cores := s.cores.map fun c => (c.1, { c.2 with wcb := c.2.wcb.map fun e => { e with threads := e.threads.map f } }),
    fabric := { s.fabric with outward := s.fabric.outward.map pkt },
    jobs := s.jobs.map fun j => (j.1, { j.2 with sealedRecs := j.2.sealedRecs.map rec', overflow := j.2.overflow.map rec' }) }

/-- The new name of a thread of the participating groups, whose slots `order` fills. -/
def movedThread (gids order : List Nat) (t : Nat) : Nat :=
  let i := gids.idxOf (t / 128)
  if decide (i < gids.length) && decide (t % 128 < 64) then
    let j := order.idxOf (64 * i + t % 128)
    128 * gids.getD (j / 64) 0 + j % 64
  else t

/-- A change of a scratchpad goes with its thread; after it come the groups that have a thread now of a group that came after it. -/
def Late.moved (gids order : List Nat) (x : Late) : Late :=
  let was := fun (j : Nat) => gids.getD (order.getD j 0 / 64) 0
  let now := (List.range gids.length).filter fun i => (List.range 64).any fun L => x.known.contains (.group (was (64 * i + L)))
  { x with
    who := movedThread gids order x.who,
    known := x.known.filter (fun a => !(gids.any fun g => a == .group g)) ++ now.map fun i => After.group (gids.getD i 0) }

/-- The move of a block (R131 step 5, R132), as one step. -/
def State.moveThreads (s : State) (b : Nat) (rs : List (Nat × Arrival)) : State :=
  let rounded := (s.blk b).record.rounded
  let gs := rs.map fun r => s.grp r.1
  let threads := (List.range rs.length).flatMap fun i =>
    (List.range 64).map fun L =>
      let r := rs.getD i (0, { pc := 0, hdr := 0, next := 0, mask := 0, sg := false, keys := [], pops := [] })
      let k := r.2.keys.at L
      { out := !(gs.getD i Group.empty).live L, key := if r.2.sg then k.toInt else k.toNat, slot := 64 * i + L : Sorted }
  let order := (sortThreads threads).map fun t => t.slot
  let s' := (List.range rs.length).foldl (fun (t : State) i =>
    match rs[i]? with
    | none => t
    | some r => t.setGrp r.1 (Group.reordered gs order r.2 rounded i (s.freeCount + 64 * rounded * i) (s.grp r.1))) s
  let gids := rs.map fun r => r.1
  ((s'.renameThreads (movedThread gids order)).mapLates b (Late.moved gids order)).useFree (64 * rounded * rs.length)

/-- The block is resident, no request to park it is pending, and its job runs: a request is taken before the move commits
(R133, R338). -/
def State.mayMeet (s : State) (b : Nat) : Bool :=
  (s.blk b).resident && (s.blk b).parkReq.isNone && s.jobRuns (s.blk b).job

/-- REORDER_MOVE: the meeting of a block goes on from step 2 (R131): nothing until every group has arrived, then the
check, then nothing until every token is clear and no instruction that names token 0 can write a register at its old place (step 4),
then the move, which ends a wait of its stook (R328). A store that names token 0 has left its group at issue (R166), and holds
nothing. -/
def State.reorderMove (s : State) (b : Nat) : State :=
  if !(s.mayMeet b) then s
  else match s.arrivals b with
  | none => s
  | some rs =>
    if !(s.arrivalsAgree rs) then s.reorderFault rs
    else if rs.all fun r => (s.grp r.1).allClear && (s.grp r.1).out.all (fun a => !a.stays) then
      (s.moveThreads b rs).modStk (s.blk b).stook fun k => { k with clock := 0 }
    else s

def execReorderMove (blk : Nat) (s : State) : Out := .next (s.reorderMove blk)

/-! ### The extension lock (R134) -/

/-- The block was launched with the extension flag. -/
def State.hasExt (s : State) (gid : Nat) : Bool := (s.blockOf gid).record.ext

/-- Who holds the lock of a group's pair. -/
def State.lockHolder (s : State) (gid : Nat) : Option Nat :=
  ((Tbl.find (s.core (s.coreOf gid)).ext (s.grp gid).pair).getD ExtPair.zero).holder

/-- The group takes the lock of its pair. -/
def State.takeLock (s : State) (gid : Nat) : State :=
  let p := (s.grp gid).pair
  s.modCore (s.coreOf gid) fun c =>
    { c with ext := Tbl.put c.ext p { (Tbl.find c.ext p).getD ExtPair.zero with holder := some gid } }

/-- The checks of the lock instructions in the order of R59. -/
def State.checkLock (s : State) (gid : Nat) (msel : BitVec 3) (last : Bool) (dst : List Need) : R Unit := do
  if last && !(s.grp gid).atLast then raise fIllegalInstr
  if !s.hasExt gid then raise fExtension
  s.checkNeeds gid (dst ++ mselNeeds msel)

/-- `xlock`: the lock is taken, or asked for while the partner holds it; the clause ends. -/
def State.xlock (s : State) (gid : Nat) : State :=
  match s.lockHolder gid with
  | none => (s.takeLock gid).advance gid
  | some h => if h == gid then s.advance gid else (s.modGrp gid fun g => { g with xreq := true }).advance gid

def execXlock (msel : BitVec 3) (s : State) : Out :=
  laneRun s fun g => do
    s.checkLock g msel true []
    pure (s.xlock g)

/-- `xlock.try`: takes a free lock, and says whether the group holds it. The scalar is written and y0 shifts under R82
and R44. -/
def State.xlockTry (s : State) (gid : Nat) (d : BitVec 8) (msel : BitVec 3) : State :=
  let t := if s.lockHolder gid == none then s.takeLock gid else s
  t.aluDone gid [] (s.active gid msel) (.s d) false .b32 [Lanes.splat (if t.holdsLock gid then 1 else 0)]

def execXlockTry (d : BitVec 8) (msel : BitVec 3) (s : State) : Out :=
  laneRun s fun g => do
    s.checkLock g msel false [.s d.toNat]
    pure (s.xlockTry g d msel)

def execXfree (msel : BitVec 3) (s : State) : Out :=
  laneRun s fun g => do
    s.checkLock g msel false []
    pure ((s.freeLock (s.coreOf g) g).advance g)

end Sys2Proof.Machine
end

