-- ==== Sys2Proof/Machine/Sieve.lean ====
section
/-!
DEFINITION. The Sieve, ALU opcodes 0xA0 to 0xA5 (R199 to R207): the counter-based generator and the sampling
instructions.
-/
namespace Sys2Proof.Machine

/-! ### The generator (R200, R201) -/

/-- One round of R200. -/
def sieveRound (k z : Dword) (j : Nat) : Dword :=
  let z := z ^^^ k.rotateLeft (16 * j)
  let z := z * 0xA5B357058C4E2D1B#64
  z ^^^ (z >>> 29)

/-- Out(K, c, L). -/
def sieveOut (k c : Dword) (L : Nat) : Word :=
  highWord ((List.range 4).foldl (sieveRound k) (c * 64 + BitVec.ofNat 64 L))

/-- A drawing instruction: each active lane's value from Out(K, C, L), and C moves on once if a lane is active. With
no lane active nothing is written, the tag included (R201). -/
def State.draw (s : State) (gid : Nat) (o : Ops0) (t : Tag) (f : Word → Word) : R State := do
  s.checkOperands gid o.msel (dstNeeds o.d 1) []
  let g := s.grp gid
  let act := s.active gid o.msel
  let res := Lanes.make fun L => f (sieveOut g.rngK g.rngC L)
  let s' := if act == 0 then s else s.modGrp gid fun g => { g with rngC := g.rngC + 1 }
  pure (s'.aluDone gid [] act o.d (o.nw || act == 0) t [res])

/-- `rngunif`: ⌊o / 2^8⌋ × 2^−24 (R204). -/
def rngUnif (o : Word) : Word := BitVec.ofNat 32 (BFmt.f32.round .rn false (o.toNat / 256) (2 ^ 24))

/-- RoundF32(ln(num/den)) for num/den > 0, from an enclosure. -/
def lnRound (rm : Rm) (num den : Nat) : Word :=
  if num == den then 0
  else
    let e := logFloor num den
    let p := lnFix (num * 2 ^ (-e).toNat) (den * 2 ^ e.toNat)
    if 0 ≤ e then encRound rm false (e.toNat * ln2Lo + p.1) (e.toNat * ln2Hi + p.2) fixOne
    else encRound rm true ((-e).toNat * ln2Lo - p.2) ((-e).toNat * ln2Hi - p.1) fixOne

/-- `gumbel` (R204). -/
def gumbelVal (rm : Rm) (o : Word) : Word :=
  match f32 (lnRound rm (2 * (o.toNat / 256) + 1) (2 ^ 25)) with
  | .fin _ m e => lnRound rm (magNum m e) (magDen e) ^^^ 0x80000000#32
  | _ => qNaN

def execRngnext (o : Ops0) (s : State) : Out := laneRun s fun g => s.draw g o .i32 fun x => x
def execRngunif (o : Ops0) (s : State) : Out := laneRun s fun g => s.draw g o .f32 rngUnif
def execGumbel (rm : Rm) (o : Ops0) (s : State) : Out := laneRun s fun g => s.draw g o .f32 (gumbelVal rm)

/-! ### The generator's state (R203) -/

/-- A scalar pair or a small immediate, as 64 bits. -/
def SImm.opnd : SImm → Opnd
  | .s n => Opnd.pair (.s n)
  | .imm b => Opnd.pair (.imm b)

def State.rngkey (s : State) (gid : Nat) (a b : SImm) (msel : BitVec 3) : R State := do
  let os := [SImm.opnd a, SImm.opnd b]
  s.checkOperands gid msel [] os
  let e := s.env gid msel os
  let s' := if e.act == 0 then s else s.modGrp gid fun g => { g with rngK := e.p 0 0, rngC := e.p 2 0 }
  pure (s'.advance gid)

def execRngkey (a b : SImm) (msel : BitVec 3) (s : State) : Out := laneRun s fun g => s.rngkey g a b msel

def execRngkeyGet (d : BitVec 8) (msel : BitVec 3) (s : State) : Out :=
  laneRun s fun g => s.alu g (.s d) 2 false msel [] fun _ => uniform2 .b32 (s.grp g).rngC

def execRngkeyGetk (d : BitVec 8) (msel : BitVec 3) (s : State) : Out :=
  laneRun s fun g => s.alu g (.s d) 2 false msel [] fun _ => uniform2 .b32 (s.grp g).rngK

/-! ### Sampling (R205, R206) -/

/-- A weight as `samplecat` reads it. -/
def weight (x : Word) : Word := if f32Cmp .gt x 0 then x else 0

/-- The running sums of a list of lanes, from a sum so far. -/
def runningSums (e : Env) : Word → List Nat → List (Nat × Word)
  | _, [] => []
  | t, L :: ls =>
    let t' := f32Add .rn t (weight (e.v 0 L))
    (L, t') :: runningSums e t' ls

/-- The lane `samplecat` draws. -/
def sampleLane (e : Env) : Nat :=
  let ls := lanesOf e.act
  let run := runningSums e 0 ls
  let total := match run.getLast? with
    | some r => r.2
    | none => 0
  let th := f32Mul .rn (e.v 1 0) total
  let pos := run.filter fun r => weight (e.v 0 r.1) != 0
  if total == 0 then 64
  else if total == 0x7F800000#32 then (run.filter fun r => r.2 == 0x7F800000#32).map (fun r => r.1) |>.headD 64
  else match pos.find? fun r => f32Cmp .gt r.2 th with
    | some r => r.1
    | none => match pos.getLast? with
      | some r => r.1
      | none => 64

def execSamplecat (o : Ops2) (s : State) : Out :=
  laneRun s fun g => s.alu g o.d 1 o.nw o.msel [.fp o.a, .fp o.b] fun e =>
    uniform1 .i32 (BitVec.ofNat 32 (sampleLane e))

/-- Values in descending order as `fmax` orders them (R109). -/
def insertDesc (x : Word) : List Word → List Word
  | [] => [x]
  | y :: t => if f32Key y ≤ f32Key x then x :: y :: t else y :: insertDesc x t

/-- The k-th largest active value (R206). -/
def topkVal (e : Env) : Word :=
  let vs := (((lanesOf e.act).map fun L => e.v 0 L).filter fun w => !(f32 w).isNan).foldr insertDesc []
  let k := (e.v 1 0).toNat
  if k == 0 then 0x7F800000#32 else vs.getD (k - 1) 0xFF800000#32

def execTopkthr (o : Ops2) (s : State) : Out :=
  laneRun s fun g => s.alu g o.d 1 o.nw o.msel [.fp o.a, .int o.b] fun e => uniform1 .f32 (topkVal e)

end Sys2Proof.Machine
end

