-- ==== Sys2Proof/Machine/Flow.lean ====
section
/-!
DEFINITION. The FLOW instructions (R70 to R79). Each acts on every thread of the issuing cluster.
-/
namespace Sys2Proof.Machine

/-! ### Operands and targets (R71) -/

/-- A target pair as an operand. -/
def pairOpnd (p : Dst) : Opnd :=
  match p with
  | .v n => Opnd.pair (.v n)
  | .s n => Opnd.pair (.s n)

/-- A link or save pair's registers. -/
def vpairNeeds (n : BitVec 8) : List Need := [.v n.toNat, .v (n.toNat + 1)]

/-- T: the clause's header plus 8 × offset (R48). -/
def State.jumpTarget (s : State) (gid : Nat) (off : BitVec 32) : Dword :=
  (s.grp gid).clause!.hdr + 8 * off.signExtend 64

/-- `Next` of the clause being executed (R71). -/
def State.nextOf (s : State) (gid : Nat) : Dword :=
  let c := (s.grp gid).clause!
  nextHeader c.hdr c.head

/-- Check one target under R35; `lane` is the thread that takes it, 64 when every thread takes the same. -/
def State.checkJump (s : State) (gid : Nat) (reg : Bool) (lane : Nat) (va : Dword) : R Unit :=
  match s.checkTarget (s.grp gid).blk .lane reg va with
  | .ok => .ok ()
  | .illegal => raiseAt fIllegalTarget lane 0
  | .outside => .error (.fatal fPartition)
  | .page c => .error (.page c 3 va lane)

/-- Check each thread's own target, all the steps of R35 for one thread before those for the next, lowest lane first: a page fault of
a lower lane's target comes before illegal-target of a higher lane's (DESIGN CHOICE, log entry 98). -/
def State.checkEach (s : State) (gid : Nat) (va : Nat → Dword) : List Nat → R Unit
  | [] => .ok ()
  | L :: t => do
    s.checkJump gid true L (va L)
    s.checkEach gid va t

/-- Check a target pair's values: once for a scalar pair, thread by thread for a vector pair. -/
def State.checkPair (s : State) (gid : Nat) (p : Dst) (va : Nat → Dword) : R Unit :=
  match p with
  | .s _ => s.checkJump gid true 64 (va 0)
  | .v _ => s.checkEach gid va (lanesOf (s.grp gid).curLanes)

/-- Every thread of the cluster moves to its place, and the clause ends (R61 to R65, R71). -/
def Group.branch (g : Group) (f : Nat → Dword) : Group := (g.setPcs g.curLanes f).endClause false 0 0

def State.branch (s : State) (gid : Nat) (f : Nat → Dword) : State := s.modGrp gid fun g => g.branch f

/-! ### Jumps (R72 to R75) -/

def execJmp (off : BitVec 32) (s : State) : Out :=
  laneRun s fun g => do
    let t := s.jumpTarget g off
    s.checkJump g false 64 t
    pure (s.branch g fun _ => t)

/-- A jump of the whole cluster or of the threads whose test holds: T is checked when some thread takes it. It is one target for all
of them, so FLANE of its illegal-target is 64, whichever lanes take it (DEDUCED, log entry 27). -/
def State.jumpIf (s : State) (gid : Nat) (c : Src) (off : BitVec 32) (take : Env → Nat → Bool) : R State := do
  let os := [Opnd.int c]
  s.checkOperands gid 0 [] os
  let e := s.env gid 0 os
  let t := s.jumpTarget gid off
  if (lanesOf e.act).any (take e) then s.checkJump gid false 64 t
  let next := s.nextOf gid
  pure ((s.afterReads gid [c]).branch gid fun L => if take e L then t else next)

/-- The test of a condition in a lane (R72, R73). -/
def Env.test (z : Bool) (e : Env) (L : Nat) : Bool := (e.v 0 L != 0) != z

def execJsc (z : Bool) (c : Src) (off : BitVec 32) (s : State) : Out :=
  laneRun s fun g => s.jumpIf g c off fun e _ => e.test z 0
def execJv (z : Bool) (c : Src) (off : BitVec 32) (s : State) : Out :=
  laneRun s fun g => s.jumpIf g c off fun e L => e.test z L
def execJany (z : Bool) (c : Src) (off : BitVec 32) (s : State) : Out :=
  laneRun s fun g => s.jumpIf g c off fun e _ => (lanesOf e.act).any (e.test z)
def execJall (z : Bool) (c : Src) (off : BitVec 32) (s : State) : Out :=
  laneRun s fun g => s.jumpIf g c off fun e _ => (lanesOf e.act).all (e.test z)

/-- `jind` and `ret` (R74). -/
def State.jumpPair (s : State) (gid : Nat) (p : Dst) : R State := do
  let os := [pairOpnd p]
  s.checkOperands gid 0 [] os
  let e := s.env gid 0 os
  s.checkPair gid p (e.p 0)
  pure (s.branch gid (e.p 0))

def execJind (p : Dst) (s : State) : Out := laneRun s fun g => s.jumpPair g p
def execRet (p : Dst) (s : State) : Out := laneRun s fun g => s.jumpPair g p

/-- Write a 64-bit value to a vector pair in the lanes of the cluster, tag B32 (R75, R76). -/
def State.writePair (s : State) (gid : Nat) (n : BitVec 8) (f : Nat → Dword) : State :=
  let act := (s.grp gid).curLanes
  (s.writeV gid n.toNat act .b32 (Lanes.make fun L => lowWord (f L))).writeV gid (n.toNat + 1) act .b32
    (Lanes.make fun L => highWord (f L))

def execCall (link : BitVec 8) (off : BitVec 32) (s : State) : Out :=
  laneRun s fun g => do
    s.checkOperands g 0 (vpairNeeds link) []
    let t := s.jumpTarget g off
    s.checkJump g false 64 t
    let next := s.nextOf g
    pure ((s.writePair g link fun _ => next).branch g fun _ => t)

def execCalli (p : Dst) (link : BitVec 8) (s : State) : Out :=
  laneRun s fun g => do
    let os := [pairOpnd p]
    s.checkOperands g 0 (vpairNeeds link) os
    let e := s.env g 0 os
    s.checkPair g p (e.p 0)
    let next := s.nextOf g
    pure ((s.writePair g link fun _ => next).branch g (e.p 0))

def execLoop (n : BitVec 8) (off : BitVec 32) (s : State) : Out :=
  laneRun s fun g => do
    s.checkOperands g 0 [.s n.toNat] []
    let c := s.sreg g n.toNat - 1
    let t := s.jumpTarget g off
    if c != 0 then s.checkJump g false 64 t
    let next := s.nextOf g
    pure ((s.setSreg g n.toNat c).branch g fun _ => if c != 0 then t else next)

/-! ### Meetings (R76) -/

def execMeet (save : BitVec 8) (off : BitVec 32) (s : State) : Out :=
  laneRun s fun g => do
    s.checkOperands g 0 (vpairNeeds save) []
    let t := s.jumpTarget g off
    s.checkJump g false 64 t
    let old := fun L => (s.grp g).mr L
    pure (((s.writePair g save old).modGrp g fun x => x.setMrs x.curLanes fun _ => t).advance g)

def execMeetPop (save : BitVec 8) (s : State) : Out :=
  laneRun s fun g => do
    let os := [Opnd.pair (.v save)]
    s.checkOperands g 0 [] os
    let e := s.env g 0 os
    s.checkEach g (e.p 0) ((lanesOf e.act).filter fun L => e.p 0 L != Config.noMeeting)
    pure ((s.modGrp g fun x => x.setMrs x.curLanes (e.p 0)).advance g)

/-! ### `yield`, `exit`, `wait`, `nop`, `trap` (R77 to R79) -/

def Group.yieldNow (g : Group) : Group :=
  let c := g.clause!
  (g.setPcs g.curLanes fun _ => nextHeader c.hdr c.head).endClause true g.curLanes 0

def execYield (s : State) : Out := laneRun s fun g => .ok (s.modGrp g Group.yieldNow)

def Group.exitNow (g : Group) : Group :=
  { g with exited := g.exited ||| g.curLanes }.endClause false 0 0

def execExit (s : State) : Out := laneRun s fun g => .ok (s.modGrp g Group.exitNow)

/-- Some token of a mask is not clear: bit n − 1 of the mask names token n. -/
def Group.waitsFor (g : Group) (mask : BitVec 15) : Bool :=
  (List.range 15).any fun i => mask.getLsbD i && g.token (i + 1) != 0

/-- Forced rotation at a `wait` (R64, R78): the cluster is pending with its PC at the `wait`, and an overdue one runs. Its clause
counts as issued once, at its end: no pending cluster ages here (DESIGN CHOICE, log entry 69). -/
def Group.rotateAt (g : Group) : Group :=
  let c := g.clause!
  Group.rotate { g.setPcs g.curLanes fun _ => c.pc with
    clause := none, heldAt := false, heldRow := none, partDone := false,
    cur := g.cur.map fun k => { k with age := 0, res := c.idx + 1, part := false } }

/-- The group holds at its word (R337). -/
def Group.holdHere (g : Group) : Group := { g with heldAt := true, partDone := false, heldRow := none }

/-- `wait` (R78). With an overdue cluster pending, a forced rotation may take effect at the hold: a free choice. -/
def execWait (mask : BitVec 15) (s : State) : Out :=
  laneRun s fun g =>
    if !((s.grp g).waitsFor mask) then .ok (s.advance g)
    else if (s.grp g).overdue then
      .ok ((s.modGrp g fun x => if s.free then x.rotateAt else x.holdHere).useFree 1)
    else hold false

def execNop (s : State) : Out := laneRun s fun g => .ok (s.advance g)

def execTrap (n : BitVec 8) (s : State) : Out :=
  laneRun s fun g => .error (.flt { code := fTrap, info := n, lane := lowestLane (s.grp g).curLanes, addr := 0 })

end Sys2Proof.Machine
end

