-- ==== Sys2Proof/Machine/Mem.lean ====
section
/-!
DEFINITION. The MEM instructions from `ld` to `lease` (R160 to R181), at the moment they issue: operands, addresses, the
checks of R160 in their order, and the outstanding instruction they leave, which ACCESS_COMPLETION performs.
-/
namespace Sys2Proof.Machine

/-! ### Operands (R43, R54, R162, R163) -/

/-- How a small immediate is read for data of a format (R43). -/
def fmtKind : MFmt → Kind
  | .f32 => .f32
  | .bf16x2 => .half .bf16
  | .f16x2 => .half .f16
  | .d8x4 => .bytes .d8x4
  | .i8x4 => .bytes .i8x4
  | .c8x4 => .bytes .c8x4
  | .s8x4 => .bytes .s8x4
  | _ => .raw

def dataOpnd (x : Src) (f : MFmt) : Opnd := { src := x, w := fmtRegs f, kind := fmtKind f }

/-- The base operand of an address mode (R54). -/
def baseOpnd (mode : Mode) (b : Src) : Opnd := if mode == .scratch then Opnd.int b else Opnd.pair b

/-- The destination that a load's data selector names. -/
def srcDst : Src → Dst
  | .s n => .s n
  | .v n => .v n
  | _ => .v 0

/-- Data of a format carries its tag or B32 (R163). -/
def State.typedOk (s : State) (gid : Nat) (f : MFmt) (x : Src) : Bool :=
  match fmtWant f, s.opndTag gid (dataOpnd x f) with
  | some w, some t => t == w || t == .b32
  | _, _ => true

/-- The operand checks of a memory instruction: registers, the tags of typed data, queue windows (R59, R163). -/
def State.memOperands (s : State) (gid : Nat) (msel : BitVec 3) (dst : List Need) (os : List Opnd) (f : MFmt)
    (typed : List Src) : R Unit := do
  s.checkNeeds gid (dst ++ os.flatMap Opnd.needs ++ mselNeeds msel)
  if typed.all (s.typedOk gid f) then s.checkQueues gid (os.map fun o => o.src) else raise fTag

/-- The value of `w` operand registers from number `i`, in lane `L`. -/
def Env.val (e : Env) (i w L : Nat) : Nat := (List.range w).foldl (fun x k => x + (e.v (i + k) L).toNat * 2 ^ (32 * k)) 0

/-- The address of lane `L`, from a base that starts at operand register `i` (R54). -/
def Env.addr (e : Env) (i : Nat) (mode : Mode) (size : Nat) (off : BitVec 12) (L : Nat) : Dword :=
  match mode with
  | .vec | .sca => e.p i L + BitVec.ofInt 64 (off.toInt * size)
  | .lane => e.p i L + BitVec.ofInt 64 ((off.toInt + L) * size)
  | .scratch => (e.v i L).setWidth 64 + BitVec.ofInt 64 (off.toInt * size)

/-! ### The checks of R160 -/

/-- Raise a fault for the lowest lane that fails a check. -/
def refuse (ls : List Nat) (bad : Nat → Bool) (code : BitVec 8) (va : Nat → Dword) : R Unit :=
  match ls.find? bad with
  | some L => raiseAt code L (va L)
  | none => .ok ()

/-- A page fault for the lowest lane that fails. -/
def refusePage (ls : List Nat) (bad : Nat → Bool) (code : BitVec 8) (kind : BitVec 4) (va : Nat → Dword) : R Unit :=
  match ls.find? bad with
  | some L => .error (.page code kind (va L) L)
  | none => .ok ()

/-- A fatal fault if some lane fails. -/
def refuseFatal (ls : List Nat) (bad : Nat → Bool) (code : BitVec 8) : R Unit :=
  if ls.any bad then .error (.fatal code) else .ok ()

/-- What an instruction may not reach, by virtual address and location: pages refused precisely (R174, R355),
commutative ranges, graded ranges, and where its grade may not leave. -/
structure Limit where
  page : Nat → Nat → Bool
  comm : Nat → Nat → Bool
  graded : Nat → Nat → Bool
  egress : Nat → Nat → Bool

/-- The location a global address has for a group, when its page permits the access. -/
def State.locOf (s : State) (gid : Nat) (p : Perm) (va : Dword) : Nat :=
  match s.walk (s.coreOf gid) (s.jobOf gid) va.toNat p with
  | .ok l => l
  | _ => 0

/-- The checks of R160 on global addresses, in its order; the partition check of R354 follows translation. Of check 5, what
translation refuses comes before what R174 and R355 refuse, in whichever lanes (DESIGN CHOICE, log entry 102). -/
def State.globalChecks (s : State) (gid : Nat) (ls : List Nat) (va : Nat → Dword) (size : Nat) (p : Perm)
    (kind : BitVec 4) (r : Limit) : R Unit := do
  let w := fun L => s.walk (s.coreOf gid) (s.jobOf gid) (va L).toNat p
  let loc := fun L => s.locOf gid p (va L)
  refuse ls (fun L => (va L).toNat % size != 0) fAlign va
  refuse ls (fun L => !canonical (va L)) fPageFatal va
  refusePage ls (fun L => (w L).isMissing) fPageMissing kind va
  refusePage ls (fun L => (w L).isDenied) fPagePerm kind va
  refuse ls (fun L => r.page (va L).toNat (loc L)) fPagePerm va
  refuseFatal ls (fun L => s.outsideJob (s.jobOf gid) (loc L)) fPartition
  refuse ls (fun L => r.comm (va L).toNat (loc L)) fCommutative va
  refuse ls (fun L => r.graded (va L).toNat (loc L)) fAtomicGraded va
  refuse ls (fun L => r.egress (va L).toNat (loc L)) fEgress va

/-- A block's fellow of its stook with a member number (R144). -/
def State.member (s : State) (b m : Nat) : Option Nat :=
  (s.stk (s.blk b).stook).members.find? fun x => (s.blk x).sidx == m

/-- The checks of R144 and R145 on a scratchpad address: `reg` is the register, `a` the address formed from it. -/
def State.scratchBad (s : State) (b size : Nat) (reg : Word) (a : Dword) : Bool :=
  let k := s.blk b
  let m := a.toNat / 2 ^ 24 % 4
  decide (2 ^ 26 ≤ reg.toNat) || decide (2 ^ 26 ≤ a.toNat) || decide (k.record.stook ≤ m) ||
    (s.member b m).isNone || decide (k.record.scratchBytes < a.toNat % 2 ^ 24 + size)

/-- The location of a scratchpad address. -/
def State.scratchAt (s : State) (b : Nat) (a : Dword) : Nat :=
  scratchLoc ((s.member b (a.toNat / 2 ^ 24 % 4)).getD b) (a.toNat % 2 ^ 24)

/-- The scratchpad lines, each with its block, that an access touches (R143). -/
def scratchLines (loc size : Nat) : List (Nat × Nat) :=
  [(locBlock loc, locOff loc / 128), (locBlock loc, (locOff loc + size - 1) / 128)]

/-- Bytes of a scratchpad access lie on an absent line (R146). -/
def State.absentAt (s : State) (loc size : Nat) : Bool :=
  let k := s.blk (locBlock loc)
  (Tbl.find k.absent (locOff loc / 128)).isSome || (Tbl.find k.absent ((locOff loc + size - 1) / 128)).isSome

/-! ### Grades and releases -/

/-- Work below final may not write an ungraded byte outside its private stack (R167, R281). -/
def State.belowFinal (s : State) (gid va n : Nat) : Bool := (s.effGrade gid).toNat < 3 && !(s.inStack gid va n)

/-- The grade check of a store (R167, R281). -/
def State.storeEgress (s : State) (gid : Nat) (grade : BitVec 2) (n va : Nat) : Bool :=
  match s.gradedAt (s.jobOf gid) va with
  | some _ => false
  | none => grade == 1 || grade == 2 || s.belowFinal gid va n

/-- The group has no access of a kind still to be performed. -/
def State.drained (s : State) (gid : Nat) (p : AccOp → Bool) : Bool := (s.accsOf gid).all fun a => !(p a.op)

/-- Some threads of the group have no access of a kind still to be performed. -/
def State.settled (s : State) (gid : Nat) (act : Dword) (p : AccOp → Bool) : Bool :=
  (s.accsOf gid).all fun a => !(p a.op) || s.undone a &&& act == 0

/-- A release by some threads may issue: R150 at a scope wider than block, R361 at job and system scope. `own`: the one target
all its lanes name; `joins`: the release is a store, which closes older entries of its own target (R358). It waits for the writes
that an earlier `rcopyo` has made, and not for those still to come (DEDUCED, log entry 105). -/
def State.releaseReady (s : State) (gid : Nat) (act : Dword) (rel : Bool) (scope : Scope) (joins : Bool) (own : Option Nat) :
    Bool :=
  !rel ||
    ((!scope.wide || s.settled gid act AccOp.writes) &&
     (!scope.far || ((s.unsentBy (ofLanes gid act)).all (fun c => some c == own) &&
       (s.unclosedBy (s.coreOf gid) (ofLanes gid act)).all fun c => joins && some c == own)))

/-- The release orders of R52. -/
def relOrd (o : Ord) : Bool := o == .rel || o == .ar

/-! ### Issue -/

/-- The outstanding instruction of a memory access. -/
def State.newAccess (s : State) (gid : Nat) (op : AccOp) (f : MemF) (act : Dword) (loc : Nat → Nat) (va : Nat → Dword) :
    Acc :=
  let lanes := fun (g : Nat → Nat) => (List.range 64).map fun L => if inMask act L then g L else 0
  { (s.grp gid).newAcc s.nextId op f.tok act with
    addr := lanes loc, va := (List.range 64).map fun L => if inMask act L then va L else 0, fmt := f.fmt, ord := f.ord,
    scope := f.scope, nw := f.nw }

/-- Data of a store or an atomic, lane by lane. -/
def laneData (e : Env) (i w : Nat) : List Qword := (List.range 64).map fun L => BitVec.ofNat 128 (e.val i w L)

/-- An access with no active lane touches nothing; its token completes at once, and a load still sets its tag (R160). -/
def State.noLanes (s : State) (gid : Nat) (f : MemF) (load : Bool) (srcs : List Src) : State :=
  let s := s.afterReads gid srcs
  let s := match srcDst f.data with
    | .v n =>
      if load && !f.nw then
        (List.range (fmtRegs f.fmt)).foldl (fun (s : State) i => s.setTag gid (n.toNat + i) (fmtTag f.fmt)) s
      else s
    | .s _ => s
  s.advance gid

/-- The one target that every lane's location names. -/
def ownTarget (ls : List Nat) (loc : Nat → Nat) : Option Nat :=
  match ls with
  | [] => none
  | L :: _ =>
    if isRemote (loc L) && ls.all fun i => isRemote (loc i) && chipOf (loc i) == chipOf (loc L) then some (chipOf (loc L)) else none

/-- A remote load or atomic closes open entries of its lines (R357, R358). -/
def State.closeLines (s : State) (gid : Nat) (ls : List Nat) (loc : Nat → Nat) : State :=
  let r := ls.filter fun L => isRemote (loc L)
  if r.isEmpty then s
  else s.closeEntries (s.coreOf gid) fun e => r.any fun L => e.at' (s.jobOf gid) (chipOf (loc L)) (lineOf (loc L % 2 ^ 64))

/-- The access has passed every check: it waits for room (R39, R341) and for a die that is warm-reset (R387), and issues. -/
def State.launchAccess (s : State) (gid : Nat) (a : Acc) (srcs : List Src) (tlb : List Nat) : R State :=
  if !(s.hasRoom gid a.tok) || s.resetHolds gid a then hold false
  else
    let s := (s.keepTlb (s.coreOf gid) (s.jobOf gid) tlb).afterReads gid srcs
    .ok ((s.issue gid a).advance gid)

/-- A load refuses nothing by its page, range or grade beyond R160's translation. -/
def Limit.none : Limit :=
  { page := fun _ _ => false, comm := fun _ _ => false, graded := fun _ _ => false, egress := fun _ _ => false }

/-- `ld`, `ldc`, `ldw`: a load of global memory; `c`: the comparison operand of `ldw`. -/
def State.globalLoad (s : State) (gid : Nat) (op : Dst → AccOp) (f : MemF) (off : BitVec 12) (evict : BitVec 3)
    (grade : BitVec 2) (lim : Limit) (c : List Opnd) : R State := do
  let d := srcDst f.data
  let os := baseOpnd f.mode f.base :: c
  s.memOperands gid f.msel (dstNeeds d (fmtRegs f.fmt)) os f.fmt []
  let e := s.env gid f.msel os
  let srcs := os.map fun o => o.src
  if e.act == 0 then pure (s.noLanes gid f true srcs)
  else do
    let ls := lanesOf e.act
    let va := e.addr 0 f.mode (fmtSize f.fmt) off
    s.globalChecks gid ls va (fmtSize f.fmt) .read 0 lim
    let loc := fun L => s.locOf gid .read (va L)
    let a := { s.newAccess gid (op d) f e.act loc va with
      evict := evict, grade := grade, data2 := if c.isEmpty then [] else laneData e 2 (fmtRegs f.fmt) }
    if !(s.hasRoom gid f.tok) || s.resetHolds gid a then hold false
    (s.closeLines gid ls loc).launchAccess gid a srcs (ls.map fun L => (va L).toNat)

def execLd (f : MemF) (off : BitVec 12) (evict : BitVec 3) (grade : BitVec 2) (s : State) : Out :=
  laneRun s fun g => s.globalLoad g .load f off evict grade Limit.none []

/-- `ldc` reads no remote memory (R355). -/
def execLdc (f : MemF) (off : BitVec 12) (evict : BitVec 3) (s : State) : Out :=
  laneRun s fun g => s.globalLoad g .loadConst f off evict 0 { Limit.none with page := fun _ loc => isRemote loc } []

def execLdw (f : MemF) (c : Src) (evict : BitVec 3) (grade : BitVec 2) (s : State) : Out :=
  laneRun s fun g => s.globalLoad g .loadWait f 0 evict grade Limit.none [dataOpnd c f.fmt]

/-- `st` (R168). -/
def State.globalStore (s : State) (gid : Nat) (f : MemF) (off : BitVec 12) (evict : BitVec 3) (grade : BitVec 2) :
    R State := do
  let os := [baseOpnd f.mode f.base, dataOpnd f.data f.fmt]
  let srcs := [f.base, f.data]
  s.memOperands gid f.msel [] os f.fmt [f.data]
  let e := s.env gid f.msel os
  if e.act == 0 then pure (s.noLanes gid f false srcs)
  else do
    let ls := lanesOf e.act
    let n := fmtSize f.fmt
    let va := e.addr 0 f.mode n off
    let job := s.jobOf gid
    s.globalChecks gid ls va n .write 1
      { Limit.none with
        comm := fun va _ => (s.commAt job va).isSome, egress := fun va _ => s.storeEgress gid grade n va }
    let loc := fun L => s.locOf gid .write (va L)
    let lines := ((ls.filter fun L => (s.gradedAt job (va L).toNat).isSome).map fun L => (va L).toNat / 128).eraseDups
    if s.listFull gid lines then holdFor (.room (s.newLines gid lines))
    if !(s.releaseReady gid e.act (relOrd f.ord) f.scope true (ownTarget ls loc)) then hold false
    let a := { s.newAccess gid .store f e.act loc va with
      evict := evict, grade := grade, data := laneData e 2 (fmtRegs f.fmt) }
    s.launchAccess gid a srcs (ls.map fun L => (va L).toNat)

def execSt (f : MemF) (off : BitVec 12) (evict : BitVec 3) (grade : BitVec 2) (s : State) : Out :=
  laneRun s fun g => s.globalStore g f off evict grade

/-- `lds` and `sts` (R168): scratchpad accesses, held on an absent line (R146). -/
def State.scratchAccess (s : State) (gid : Nat) (f : MemF) (off : BitVec 12) (load : Bool) : R State := do
  let os := if load then [baseOpnd .scratch f.base] else [baseOpnd .scratch f.base, dataOpnd f.data f.fmt]
  let srcs := os.map fun o => o.src
  let d := srcDst f.data
  s.memOperands gid f.msel (if load then dstNeeds d (fmtRegs f.fmt) else []) os f.fmt (if load then [] else [f.data])
  let e := s.env gid f.msel os
  if e.act == 0 then pure (s.noLanes gid f load srcs)
  else do
    let ls := lanesOf e.act
    let n := fmtSize f.fmt
    let b := (s.grp gid).blk
    let va := e.addr 0 .scratch n off
    refuse ls (fun L => (va L).toNat % n != 0) fAlign va
    refuse ls (fun L => s.scratchBad b n (e.v 0 L) (va L)) fScratch va
    let loc := fun L => s.scratchAt b (va L)
    if ls.any fun L => s.absentAt (loc L) n then holdFor (.lines (ls.flatMap fun L => scratchLines (loc L) n))
    if !(s.releaseReady gid e.act (relOrd f.ord) f.scope false none) then hold false
    let a := { s.newAccess gid (if load then .sload d else .sstore) f e.act loc va with
      data := if load then [] else laneData e 1 (fmtRegs f.fmt) }
    s.launchAccess gid a srcs []

def execLds (f : MemF) (off : BitVec 12) (s : State) : Out := laneRun s fun g => s.scratchAccess g f off true
def execSts (f : MemF) (off : BitVec 12) (s : State) : Out := laneRun s fun g => s.scratchAccess g f off false

/-! ### Atomics (R171 to R174) -/

/-- The host link carries the operation (R174). -/
def hostCarries (op : AtomOp) (f : MFmt) : Bool :=
  match op with
  | .add => f == .b32 || f == .i32 || f == .b64
  | .exch => true
  | _ => false

/-- What atomics and `red` may not reach (R167, R174, R281). -/
def State.atomLimit (s : State) (gid n : Nat) (host : Bool) : Limit :=
  { page := fun _ loc => isHost loc && !host, comm := fun va _ => (s.commAt (s.jobOf gid) va).isSome,
    graded := fun va _ => (s.gradedAt (s.jobOf gid) va).isSome, egress := fun va _ => s.belowFinal gid va n }

/-- An atomic, `red` or `cred`: `dst` is written with the old value, `os` are base and data operands, `typed` those whose
tag is checked. -/
def State.atomic (s : State) (gid : Nat) (op : AccOp) (f : MemF) (off : BitVec 12) (dst : List Need) (os : List Opnd)
    (typed : List Src) (lim : Limit) : R State := do
  let srcs := os.map fun o => o.src
  s.memOperands gid f.msel dst os f.fmt typed
  let e := s.env gid f.msel os
  if e.act == 0 then pure (s.noLanes gid f (!dst.isEmpty) srcs)
  else do
    let ls := lanesOf e.act
    let n := fmtSize f.fmt
    let w := fmtRegs f.fmt
    let va := e.addr 0 f.mode n off
    s.globalChecks gid ls va n .both 2 lim
    let loc := fun L => s.locOf gid .both (va L)
    if !(s.releaseReady gid e.act (relOrd f.ord) f.scope false (ownTarget ls loc)) then hold false
    let a := { s.newAccess gid op f e.act loc va with data := laneData e 2 w, data2 := laneData e (2 + w) w }
    if !(s.hasRoom gid f.tok) then hold false
    (if dst.isEmpty then s else s.closeLines gid ls loc).launchAccess gid a srcs (ls.map fun L => (va L).toNat)

def execAtom (op : AtomOp) (pl : Place) (f : MemF) (a : Src) (s : State) : Out :=
  laneRun s fun g =>
    s.atomic g (.atom op pl (srcDst f.data)) f 0 (dstNeeds (srcDst f.data) (fmtRegs f.fmt))
      [baseOpnd f.mode f.base, dataOpnd a f.fmt] [a] (s.atomLimit g (fmtSize f.fmt) (hostCarries op f.fmt))

def execAtomcas (f : MemF) (n : Src) (s : State) : Out :=
  laneRun s fun g =>
    s.atomic g (.cas (srcDst f.data)) f 0 (dstNeeds (srcDst f.data) (fmtRegs f.fmt))
      [baseOpnd f.mode f.base, dataOpnd f.data f.fmt, dataOpnd n f.fmt] [n, f.data] (s.atomLimit g (fmtSize f.fmt) true)

def execRed (op : AtomOp) (pl : Place) (f : MemF) (off : BitVec 12) (s : State) : Out :=
  laneRun s fun g =>
    s.atomic g (.red op pl) f off [] [baseOpnd f.mode f.base, dataOpnd f.data f.fmt] [f.data]
      (s.atomLimit g (fmtSize f.fmt) (hostCarries op f.fmt))

/-- `cred` reaches only commutative ranges of its element type (R176). -/
def State.credLimit (s : State) (gid n : Nat) (f : MFmt) : Limit :=
  { page := fun _ _ => false, graded := fun _ _ => false, egress := fun va _ => s.belowFinal gid va n,
    comm := fun va loc => !(isLocal loc) || match s.commAt (s.jobOf gid) va with
      | some r => r.fmt != f
      | none => true }

def execCred (f : MemF) (off : BitVec 12) (s : State) : Out :=
  laneRun s fun g =>
    s.atomic g .cred f off [] [baseOpnd f.mode f.base, dataOpnd f.data f.fmt] [f.data] (s.credLimit g (fmtSize f.fmt) f.fmt)

/-! ### Commutative ranges (R175, R177) -/

/-- Every page of [va, va + n) is local HBM of the job. -/
def State.allLocal (s : State) (job va n : Nat) : Bool :=
  (List.range (n / 65536 + 2)).all fun i =>
    let a := min (va + 65536 * i) (va + n - 1)
    match s.pageEntry job a with
    | some p => isLocal (p.loc a)
    | none => false

/-- The range may not be declared (R175). -/
def State.crRefused (s : State) (job va n : Nat) : Bool :=
  !(s.allLocal job va n) || decide (64 ≤ s.cranges.length) ||
  (s.granges.any fun r => r.job == job && overlap va n r.va (128 * r.lines)) ||
  (s.cranges.any fun r => r.job == job && overlap va n r.va r.len)

/-- The range comes into force: registrations of its words end (R175). -/
def State.crDeclare (s : State) (r : CRange) : State :=
  { s with
    cranges := s.cranges ++ [r],
    cores := s.cores.map fun c =>
      (c.1, { c.2 with
        l1 := c.2.l1.map fun l => if s.rangeLine r.job r.va r.len l.1 then (l.1, { l.2 with reg := 0 }) else l }) }

/-- An access of a kind to the range is still to be performed: of an instruction, or a write of an `rcopyo`, which is a store
(R219). -/
def State.flying (s : State) (r : CRange) (p : AccOp → Bool) : Bool :=
  let within := fun (va : Nat) => decide (r.va ≤ va) && decide (va < r.va + r.len)
  (s.groups.any fun g => s.jobOf g.1 == r.job && g.2.out.any fun a =>
    p a.op && !a.op.scratch && (lanesOf a.left).any fun L => within (a.vaOf L).toNat) ||
  (p .store && s.copies.any fun c => c.out && s.jobOf c.gid == r.job && (c.elems c.lines).any fun e => within e.2)

/-- A scalar base pair and a scalar length. -/
def rangeNeeds (len base : BitVec 8) (msel : BitVec 3) : List Need :=
  [.s base.toNat, .s (base.toNat + 1), .s len.toNat] ++ mselNeeds msel

/-- `crdecl` (R175). It waits for every store, atomic and `red` to the range that has passed its checks, of any group and with the
writes of copies: each is performed as an ordinary access before the range exists. -/
def execCrdecl (op : AtomOp) (len base : BitVec 8) (fmt : MFmt) (msel : BitVec 3) (s : State) : Out :=
  laneRun s fun g => do
    s.checkNeeds g (rangeNeeds len base msel)
    if s.active g msel == 0 then pure (s.advance g)
    else do
      let va := s.spair g base.toNat
      let n := (s.sreg g len.toNat).toNat
      let job := s.jobOf g
      if va.toNat % 128 != 0 || n == 0 || n % 128 != 0 || decide (2 ^ 30 < n) then raiseAt fAlign 64 va
      if s.crRefused job va.toNat n then raiseAt fCommutative 64 va
      let r : CRange := { job := job, va := va.toNat, len := n, op := op, fmt := fmt }
      if s.flying r fun o => o.writes then hold false
      pure (((s.crDeclare r).probe job (s.rangeUnit job r.va r.len)).advance g)

/-- The range ends after a combining read of each of its lines (R177). The core whose group has read them keeps no older
word of them (R183). -/
def State.crEnd (s : State) (core : Nat) (r : CRange) : State :=
  let lines := ((s.partials.map fun p => p.1 / 32).filter (s.rangeLine r.job r.va r.len)).eraseDups
  let s := lines.foldl (fun s l => s.combiningRead r l) s
  let s := s.modCore core fun c => { c with
    l1 := c.l1.map fun l => if s.rangeLine r.job r.va r.len l.1 then (l.1, { l.2 with words := s.memLine l.1 }) else l }
  { s with cranges := s.cranges.filter (· != r) }

def execCrfree (base : BitVec 8) (msel : BitVec 3) (s : State) : Out :=
  laneRun s fun g => do
    s.checkNeeds g ([.s base.toNat, .s (base.toNat + 1)] ++ mselNeeds msel)
    if s.active g msel == 0 then pure (s.advance g)
    else match s.cranges.find? fun r => r.job == s.jobOf g && r.va == (s.spair g base.toNat).toNat with
      | none =>
        -- a remote address raises commutative-store, whatever its page permits (R355)
        let va := s.spair g base.toNat
        if (s.coreEntry (s.coreOf g) (s.jobOf g) va.toNat).any fun e => isRemote (e.loc va.toNat) then raiseAt fCommutative 64 va
        else pure (s.advance g)
      | some r => if s.flying r (· == .cred) then hold false else pure ((s.crEnd (s.coreOf g) r).advance g)

/-! ### Range maintenance, hints and leases (R178 to R180) -/

/-- `flushr` and `invr`. -/
def State.rangeOp (s : State) (gid : Nat) (op : AccOp) (len base : BitVec 8) (scope : Scope) (tok : BitVec 4)
    (msel : BitVec 3) : R State := do
  s.checkNeeds gid (rangeNeeds len base msel)
  if s.active gid msel == 0 then pure (s.advance gid)
  else do
    let a := { (s.grp gid).newAcc s.nextId op tok (s.active gid msel) with
      va := [s.spair gid base.toNat], data := [(s.sreg gid len.toNat).setWidth 128], scope := scope }
    s.launchAccess gid a [] []

def execFlushr (len base : BitVec 8) (scope : Scope) (tok : BitVec 4) (msel : BitVec 3) (s : State) : Out :=
  laneRun s fun g => s.rangeOp g .flushr len base scope tok msel
def execInvr (len base : BitVec 8) (scope : Scope) (tok : BitVec 4) (msel : BitVec 3) (s : State) : Out :=
  laneRun s fun g => s.rangeOp g .invr len base scope tok msel

/-- A lane of `pref` is not dropped: aligned, canonical, mapped and local, in no range (R179). -/
def State.prefable (s : State) (gid size : Nat) (va : Dword) : Bool :=
  let job := s.jobOf gid
  va.toNat % size == 0 && canonical va && (s.gradedAt job va.toNat).isNone && (s.commAt job va.toNat).isNone &&
    match s.walk (s.coreOf gid) job va.toNat .read with
    | .ok l => isLocal l
    | _ => false

/-- `pref` fills the line of an address at a priority. -/
def State.prefetch (s : State) (gid prio : Nat) (va : Dword) : State :=
  let line := lineOf (s.locOf gid .read va)
  if prio == 0 then s else (s.l1Touch (s.coreOf gid) gid line prio).l1Refresh (s.coreOf gid) line

def execPref (base : Src) (off : BitVec 12) (evict : BitVec 3) (fmt : MFmt) (msel : BitVec 3) (mode : Mode) (s : State) :
    Out :=
  laneRun s fun g => do
    let os := [baseOpnd mode base]
    s.memOperands g msel [] os fmt []
    let e := s.env g msel os
    let n := fmtSize fmt
    let ls := (lanesOf e.act).filter fun L => s.prefable g n (e.addr 0 mode n off L)
    pure ((ls.foldl (fun s L => s.prefetch g evict.toNat (e.addr 0 mode n off L)) s).advance g)

def SImm.needs : SImm → List Need
  | .s n => [.s n.toNat]
  | .imm _ => []

def execLease (n : SImm) (msel : BitVec 3) (s : State) : Out :=
  laneRun s fun g => do
    s.checkNeeds g (SImm.needs n ++ mselNeeds msel)
    let s' := if s.active g msel == 0 then s
      else s.modGrp g fun x => { x with leaseNext := min (s.simm g n).toNat 512 }
    pure (s'.advance g)

end Sys2Proof.Machine
end

