-- ==== Sys2Proof/Machine/Barrier.lean ====
section
/-!
DEFINITION. `fence` and the barriers (R191 to R195).
-/
namespace Sys2Proof.Machine

/-! ### Fences (R191) -/

def acqOrd (o : Ord) : Bool := o == .acq || o == .ar

/-- A fence's condition is met for its threads: the accesses it orders are performed, and at job or system scope a release
fence's remote writes too (R361). -/
def State.fenceReady (s : State) (gid : Nat) (act : Dword) (ord : Ord) (scope : Scope) : Bool :=
  s.settled gid act AccOp.reads &&
  (!(relOrd ord) || (s.settled gid act AccOp.writes &&
    (!scope.far || ((s.unsentBy (ofLanes gid act)).isEmpty && (s.unclosedBy (s.coreOf gid) (ofLanes gid act)).isEmpty))))

def execFence (ord : Ord) (scope : Scope) (msel : BitVec 3) (s : State) : Out :=
  laneRun s fun g => do
    s.checkNeeds g (mselNeeds msel)
    let act := s.active g msel
    if act == 0 then pure (s.advance g)
    else if !(s.fenceReady g act ord scope) then hold false
    else
      -- a wide acquire: no older copy stays, and its threads read at the home from now on (R150, R189)
      let t := if acqOrd ord && scope.wide then
          (s.selfInvalidate (s.coreOf g)).modGrp g fun x => { x with fenced := x.fenced ||| act }
        else s
      pure (t.advance g)

/-! ### Barriers (R192 to R194) -/

/-- A barrier of a block: its own below 16, its stook's from 16 (R192). -/
def State.bar (s : State) (b n : Nat) : Bar :=
  let k := s.blk b
  (Tbl.find (if n < 16 then k.bars else (s.stk k.stook).bars) n).getD Bar.zero

def State.setBar (s : State) (b n : Nat) (x : Bar) : State :=
  if n < 16 then s.modBlk b fun k => { k with bars := Tbl.put k.bars n x }
  else s.modStk (s.blk b).stook fun k => { k with bars := Tbl.put k.bars n x }

/-- The largest count of a barrier (R192). -/
def barMax (n : Nat) : Nat := if n < 16 then 65 else 256

/-- The blocks whose groups meet at a barrier. -/
def State.barBlocks (s : State) (b n : Nat) : List Nat :=
  if n < 16 then [b] else (s.stk (s.blk b).stook).members

def barRec (t : Tbl Nat) (n : Nat) : Nat := (Tbl.find t n).getD 0

/-- A waiting record becomes completed. -/
def barTake (t : Tbl Nat) (n : Nat) : Tbl Nat := if barRec t n == 1 then Tbl.put t n 2 else t

/-- The phase of a barrier completes for a group: its record that waits is completed (R193). -/
def Group.phaseDone (g : Group) (n : Nat) : Group := { g with brec := barTake g.brec n }

/-! What a phase orders of the changes of the scratchpads that the Thresher may read (R194, R242, R243). -/

/-- A barrier: of a block, or of its stook. -/
def State.barKey (s : State) (b n : Nat) : Nat × Nat := (if n < 16 then b else (s.blk b).stook, n)

/-- A group arrives. The groups of the phase, and the sequencer, come after all that the group comes after (R194); after the group's
own changes the sequencer comes only where the arrival is operand-ready (R242). A completion it left is not taken any more. -/
def Late.arrived (gid : Nat) (bar : Nat × Nat) (ready : Bool) (x : Late) : Late :=
  let known := x.known.filter (· != .due gid bar)
  { x with known := known ++
      if x.who / 128 == gid then [.phase bar, if ready then .stream bar else .barred bar]
      else if known.contains (.group gid) then [.phase bar, .stream bar] else [] }

/-- The phase completes for groups that wait, and for the sequencer where it waits. -/
def Late.completed (gids : List Nat) (bar : Nat × Nat) (seq : Bool) (x : Late) : Late :=
  { x with known := x.known.filter (fun a => a != .phase bar && a != .stream bar && a != .barred bar) ++
      (if x.known.contains (.phase bar) then gids.map (After.due · bar) else []) ++
      if seq && x.known.contains (.stream bar) && !(x.known.contains (.barred bar)) then [.streamDue bar] else [] }

/-- A group takes its completion. -/
def Late.taken (gid : Nat) (bar : Nat × Nat) (x : Late) : Late :=
  if x.known.contains (.due gid bar) then { x with known := x.known.filter (· != .due gid bar) ++ [.group gid] } else x

/-- The sequencer of a block waits at a barrier. -/
def State.seqWaits (s : State) (b n : Nat) : Bool :=
  let t := (s.core (s.blk b).core).thr
  n < 16 && t.holder == some b && barRec t.brec n == 1

/-- The phase completes: every record that waits is completed, the sequencer's among them (R193, R259). -/
def State.barComplete (s : State) (b n : Nat) : State :=
  let gids := (s.barBlocks b n).flatMap fun k => (s.blk k).gids
  let s := s.mapLates b (Late.completed (gids.filter fun g => barRec (s.grp g).brec n == 1) (s.barKey b n) (s.seqWaits b n))
  let s := gids.foldl (fun s g => s.modGrp g fun x => x.phaseDone n) s
  let c := (s.blk b).core
  let s := if n < 16 && (s.core c).thr.holder == some b then
      s.modCore c fun k => { k with thr := { k.thr with brec := barTake k.thr.brec n } }
    else s
  s.setBar b n { n := 0, a := 0, p := !(s.bar b n).p }

/-- An arrival with a count raises barrier-count (R193). -/
def State.barFault (s : State) (b n : Nat) (count : Word) (rec' : Nat) : Bool :=
  let x := s.bar b n
  let c := count.toInt
  decide (c < 1) || decide ((barMax n : Int) < c) || rec' == 1 || (x.n != 0 && (x.n : Int) != c)

/-- An arrival is counted; the phase completes when its count is reached. The arriver's record already waits. -/
def State.barCount (s : State) (b n c : Nat) : State :=
  let x := s.bar b n
  if x.a + 1 == c then s.barComplete b n else s.setBar b n { x with n := c, a := x.a + 1 }

/-- Everything the group accessed before is performed, so that its arrival, which is the group's and not only its active threads'
(R193), may release it (R194). It is performed whatever stands in open entries, which only a release at job or system scope waits
for (R361; DEDUCED, log entry 106), or is still to move in a copy (log entry 105). -/
def State.arrivalReady (s : State) (gid : Nat) : Bool := s.settled gid (BitVec.allOnes 64) fun o => o.reads || o.writes

/-- The group's own state at its arrival: its record waits, and it is operand-ready no more (R193, R242). -/
def Group.arriveAt (g : Group) (n : Nat) : Group := { g with brec := Tbl.put g.brec n 1, orfReady := false }

/-- The arrival of `barar` and `barsy`. -/
def State.barArrive (s : State) (gid : Nat) (n : SImm) (bar : BitVec 5) : R State :=
  let g := s.grp gid
  if s.barFault g.blk bar.toNat (s.simm gid n) (barRec g.brec bar.toNat) then raise fBarrier
  else if !(s.arrivalReady gid) then hold false
  else .ok (((s.mapLates g.blk (Late.arrived gid (s.barKey g.blk bar.toNat) g.orfReady)).modGrp gid fun x =>
    x.arriveAt bar.toNat).barCount g.blk bar.toNat (s.simm gid n).toNat)

/-- The wait of `barwt` and `barsy`; `part`: the instruction has arrived. -/
def State.barWait (s : State) (gid : Nat) (bar : BitVec 5) (part : Bool) : R State :=
  match barRec (s.grp gid).brec bar.toNat with
  | 1 => hold part
  | 2 =>
    let b := (s.grp gid).blk
    let s := s.mapLates b (Late.taken gid (s.barKey b bar.toNat))
    let s := if 16 ≤ bar.toNat then s.selfInvalidate (s.coreOf gid) else s
    .ok ((s.modGrp gid fun x => { x with brec := Tbl.put x.brec bar.toNat 0 }).advance gid)
  | _ => .ok (s.advance gid)

def execBarar (n : SImm) (bar : BitVec 5) (msel : BitVec 3) (s : State) : Out :=
  laneRun s fun g => do
    s.checkNeeds g (SImm.needs n ++ mselNeeds msel)
    if s.active g msel == 0 then pure (s.advance g)
    else do
      let t ← s.barArrive g n bar
      pure (t.advance g)

def execBarwt (bar : BitVec 5) (msel : BitVec 3) (s : State) : Out :=
  laneRun s fun g => do
    s.checkNeeds g (mselNeeds msel)
    if s.active g msel == 0 then pure (s.advance g) else s.barWait g bar false

/-- `barsy`: an arrival that finds the phase still open stays, and the instruction holds with it made. -/
def State.barSync (s : State) (gid : Nat) (n : SImm) (bar : BitVec 5) : R State :=
  if (s.grp gid).partDone then s.barWait gid bar true
  else do
    let t ← s.barArrive gid n bar
    if barRec (t.grp gid).brec bar.toNat == 1 then
      pure (t.modGrp gid fun x => { x with heldAt := true, partDone := true })
    else t.barWait gid bar true

def execBarsy (n : SImm) (bar : BitVec 5) (msel : BitVec 3) (s : State) : Out :=
  laneRun s fun g => do
    s.checkNeeds g (SImm.needs n ++ mselNeeds msel)
    if s.active g msel == 0 then pure (s.advance g) else s.barSync g n bar

/-- The word `barq` writes (R193). -/
def State.barWord (s : State) (gid n : Nat) : Word :=
  let x := s.bar (s.grp gid).blk n
  BitVec.ofNat 32 ((if x.p then 2 ^ 31 else 0) + barRec (s.grp gid).brec n * 2 ^ 29 + x.a * 2 ^ 9 + x.n)

def execBarq (d : BitVec 8) (bar : BitVec 5) (msel : BitVec 3) (s : State) : Out :=
  laneRun s fun g => do
    s.checkNeeds g (.s d.toNat :: mselNeeds msel)
    let t := if s.active g msel == 0 then s else s.setSreg g d.toNat (s.barWord g bar.toNat)
    pure (t.advance g)

end Sys2Proof.Machine
end

