-- ==== Sys2Proof/Machine/Reap.lean ====
section
/-!
DEFINITION. The Reaper (R212 to R221, R226): tensor records, bulk copies and the lane side of access slices. An
instruction that has a lane and a slice form is one definition over the context that issues it.
-/
namespace Sys2Proof.Machine

/-! ### The two contexts -/

/-- A context that issues REAP instructions: a group, or its access slice. -/
structure Who where
  gid : Nat
  slice : Bool
  deriving DecidableEq, Repr

/-- The slice goes on to its next word, or to the clause after (R38, R222). -/
def Slice.advance (x : Slice) : Slice :=
  match x.clause with
  | none => x
  | some c =>
    if c.idx + 1 == headWords c.head then { x with held := false, clause := none, pc := nextHeader c.hdr c.head }
    else { x with held := false, clause := some { c with idx := c.idx + 1 } }

/-- The slice's word is its clause's last. -/
def Slice.atLast (x : Slice) : Bool :=
  match x.clause with
  | none => false
  | some c => c.idx + 1 == headWords c.head

/-- The address of the slice's instruction. -/
def Slice.ipc (x : Slice) : Dword :=
  match x.clause with
  | none => x.pc
  | some c => c.pc

def State.modSlice (s : State) (gid : Nat) (f : Slice → Slice) : State :=
  s.modGrp gid fun g => { g with slice := f g.slice }

def State.sliceAdvance (s : State) (gid : Nat) : State := s.modSlice gid Slice.advance

/-- A word holds the slice (R227). -/
def State.holdSlice (s : State) (gid : Nat) : State := s.modSlice gid fun x => { x with held := true }

/-- The state after a slice instruction; one that holds stays where it is (R227). -/
def State.sliceSettle (s : State) (gid : Nat) : R State → State
  | .ok t => t
  | .error (.flt f) => s.sliceFault gid f.code f.addr
  | .error (.page code kind va lane) =>
    (s.holdSlice gid).pageFault gid code kind va (s.grp gid).slice.ipc lane 0 .other
  | .error (.hold _ _) => s.holdSlice gid
  | .error (.fatal code) => s.fatal gid code

/-- Run a slice-only instruction (R38). -/
def sliceRun (s : State) (f : Nat → R State) : Out :=
  .next (match s.issuer with
    | .lane gid => s.faultHere gid (Flt.plain fIllegalInstr)
    | .slice gid => s.sliceSettle gid (f gid)
    | .stream c => s.streamFault c fIllegalInstr 0)

/-- Run an instruction that has a lane and a slice form (R38), from the state that `pre` makes, which stands whatever comes of the
instruction. -/
def bothRun (s : State) (pre : Who → State) (f : State → Who → R State) : Out :=
  .next (match s.issuer with
    | .lane gid => (pre ⟨gid, false⟩).settle gid (f (pre ⟨gid, false⟩) ⟨gid, false⟩)
    | .slice gid => (pre ⟨gid, true⟩).sliceSettle gid (f (pre ⟨gid, true⟩) ⟨gid, true⟩)
    | .stream c => s.streamFault c fIllegalInstr 0)

/-- The context goes on. -/
def State.goOn (s : State) (w : Who) : State := if w.slice then s.sliceAdvance w.gid else s.advance w.gid

/-- The address of the context's instruction. -/
def State.whoPc (s : State) (w : Who) : Dword := if w.slice then (s.grp w.gid).slice.ipc else (s.grp w.gid).ipc

/-- The context acts: a slice always, a lane clause when Active() is not empty (R217, R226). -/
def State.acts (s : State) (w : Who) (msel : BitVec 3) : Bool := w.slice || s.active w.gid msel != 0

/-- An x register of a slice. -/
def Slice.x (x : Slice) (n : Nat) : Dword := (Tbl.find x.xs n).getD 0

/-- A 64-bit operand: a scalar pair, an x register, or an immediate. -/
def State.rsel64 (s : State) (gid : Nat) : RSel → Dword
  | .s n => s.spair gid n.toNat
  | .x n => (s.grp gid).slice.x n.toNat
  | .imm b => b.signExtend 64

/-- A scratchpad-address operand: a scalar, an x register, or an immediate. -/
def State.rselAddr (s : State) (gid : Nat) : RSel → Dword
  | .s n => (s.sreg gid n.toNat).setWidth 64
  | .x n => (s.grp gid).slice.x n.toNat
  | .imm b => (b.signExtend 32).setWidth 64

/-- The scalars an operand names, `w` of them. -/
def rselNeeds (r : RSel) (w : Nat) : List Need :=
  match r with
  | .s n => (List.range w).map fun i => .s (n.toNat + i)
  | _ => []

/-- The operand checks of a REAP instruction; a slice's registers all exist. -/
def State.checkWho (s : State) (w : Who) (msel : BitVec 3) (ns : List Need) : R Unit :=
  if w.slice then .ok () else s.checkNeeds w.gid (ns ++ mselNeeds msel)

/-! ### Records (R216) -/

/-- The core's cached record of an address. -/
def State.cached (s : State) (core job va : Nat) : Option RecEntry :=
  (s.core core).rcache.find? fun e => e.job == job && e.va == va

/-- The entry becomes the most recently used. -/
def State.useRecord (s : State) (core : Nat) (e : RecEntry) : State :=
  s.modCore core fun c => { c with rcache := e :: c.rcache.erase e }

/-- The checks a record address meets before it is read: alignment, then as a load (R216). -/
def State.recordChecks (s : State) (gid : Nat) (va : Dword) : R Unit := do
  if va.toNat % 64 != 0 then raiseAt fAlign 64 va
  if !(canonical va) then raiseAt fPageFatal 64 va
  match s.walk (s.coreOf gid) (s.jobOf gid) va.toNat .read with
  | .missing => .error (.page fPageMissing 4 va 64)
  | .denied => .error (.page fPagePerm 4 va 64)
  | .ok l => if s.outsideJob (s.jobOf gid) l then .error (.fatal fPartition) else .ok ()

/-- The entry that reading a record now makes. -/
def State.recordNow (s : State) (gid : Nat) (va : Dword) : RecEntry :=
  let job := s.jobOf gid
  let x := (s.readThere job va.toNat (s.locOf gid .read va) 64).1
  { job := job, va := va.toNat, bits := BitVec.ofNat 512 x,
    ok := recordValid x && (s.gradedAt job va.toNat).isNone && (s.commAt job va.toNat).isNone }

/-- A record enters the cache of 64 entries, the least recently used leaving it (R216). -/
def State.keepRecord (s : State) (core : Nat) (e : RecEntry) : State :=
  s.modCore core fun c => { c with rcache := (e :: c.rcache.filter fun x => !(x.job == e.job && x.va == e.va)).take 64 }

/-- A copy's record: cached, or read now as `rrec` reads it; held while the group's own earlier store to it is in
flight, and while the fabric does not let a peer's be read (R360). -/
def State.recordFor (s : State) (gid : Nat) (va : Dword) : R (RecEntry × State) :=
  let core := s.coreOf gid
  match s.cached core (s.jobOf gid) va.toNat with
  | some e => .ok (e, s.useRecord core e)
  | none => do
    s.recordChecks gid va
    let loc := s.locOf gid .read va
    let s := s.closeLine gid loc
    if s.ownStoreAt gid none loc 64 || s.heldByReset (dieOf core) loc || !(s.readOpen gid loc) then hold false
    let e := s.recordNow gid va
    pure (e, (s.readThere (s.jobOf gid) va.toNat loc 64).2.keepRecord core e)

/-- Whether an instruction reads a record whatever its own checks then find: its operands and the record's address pass, it acts,
and the record is not cached (R216, R217). -/
def State.misses (s : State) (w : Who) (a : RSel) (ns : List Need) (msel : BitVec 3) : Bool :=
  let va := s.rsel64 w.gid a
  (match s.checkWho w msel ns, s.recordChecks w.gid va with
    | .ok _, .ok _ => true
    | _, _ => false) &&
  s.acts w msel && (s.cached (s.coreOf w.gid) (s.jobOf w.gid) va.toNat).isNone

/-- A record that is missed is read, and stands in its entry; or the read waits, and the open entry of a peer's line is closed for it
(R217, R357). -/
def State.bringRecord (s : State) (w : Who) (a : RSel) (ns : List Need) (msel : BitVec 3) : State :=
  if s.misses w a ns msel then
    match s.recordFor w.gid (s.rsel64 w.gid a) with
    | .ok r => r.2
    | .error _ => s.closeLine w.gid (s.locOf w.gid .read (s.rsel64 w.gid a))
  else s

/-- `rrec`. A slice reads the record at once; a lane clause issues the read, unless the entry is there. -/
def State.rrec (s : State) (w : Who) (a : RSel) (tok : BitVec 4) (msel : BitVec 3) : R State := do
  s.checkWho w msel (rselNeeds a 2)
  if !(s.acts w msel) then pure (s.goOn w)
  else do
    let va := s.rsel64 w.gid a
    let core := s.coreOf w.gid
    s.recordChecks w.gid va
    match s.cached core (s.jobOf w.gid) va.toNat with
    | some e => pure ((s.useRecord core e).goOn w)
    | none =>
      if w.slice then do
        let r ← s.recordFor w.gid va
        pure (r.2.goOn w)
      else
        let g := s.grp w.gid
        let acc := { g.newAcc s.nextId .rrec tok (s.active w.gid msel) with
          va := [va], addr := [s.locOf w.gid .read va] }
        (s.closeLine w.gid (s.locOf w.gid .read va)).launchAccess w.gid acc [] [va.toNat]

def execRrec (a : RSel) (tok : BitVec 4) (msel : BitVec 3) (s : State) : Out :=
  bothRun s (fun w => if w.slice then s.bringRecord w a (rselNeeds a 2) msel else s) fun s w => s.rrec w a tok msel

def execRfence (msel : BitVec 3) (s : State) : Out :=
  laneRun s fun g => do
    s.checkNeeds g (mselNeeds msel)
    if s.active g msel == 0 then pure (s.advance g)
    else if !(s.storesDone g s.nextId) then hold false
    else pure ((s.modCore (s.coreOf g) fun c => { c with rcache := [] }).advance g)

/-! ### Copies (R217 to R219) -/

/-- Check 5 of R217. -/
def State.copyOutOk (s : State) (gid : Nat) (r : TRec) (org : List Int) : R Unit := do
  let job := s.jobOf gid
  let below := decide ((s.effGrade gid).toNat < 3)
  let all := fun (p : Nat → Bool) => (r.inRange org).all fun va => !(p va)
  if !(s.cranges.isEmpty || all fun va => (s.commAt job va).isSome) then raise fCommutative
  if !((s.granges.isEmpty || all fun va => (s.gradedAt job va).isSome) &&
      (!below || all fun va => !(s.inStack gid va r.esize))) then raise fEgress

/-- The coordinate registers: their values, and the check of R212. -/
def State.coords (s : State) (w : Who) (c : RSel) (rank : Nat) : R (List Int) :=
  match c with
  | .s n =>
    if 256 < n.toNat + rank then raise fIllegalInstr
    else if (s.blockOf w.gid).record.scalars < n.toNat + rank then raise fRegRange
    else .ok ((List.range rank).map fun k => (s.sreg w.gid (n.toNat + k)).toInt)
  | .x n =>
    if 32 < n.toNat + rank then raise fIllegalInstr
    else .ok ((List.range rank).map fun k => (lowWord ((s.grp w.gid).slice.x (n.toNat + k))).toInt)
  | .imm _ => raise fIllegalInstr

/-- Two addresses of a job lie in one page: in one page of the table, of whatever size, and where none covers them in one unit of
64 KiB (R135). -/
def State.samePage (s : State) (job x y : Nat) : Bool :=
  match s.pageEntry job x with
  | some e => e.covers job y
  | none => x / 65536 == y / 65536

/-- Addresses, one for each page they lie in, added to those seen. -/
def State.pagesOf (s : State) (job : Nat) (seen vas : List Nat) : List Nat :=
  vas.foldl (fun t va => if t.any fun x => s.samePage job x va then t else t ++ [va]) seen

/-- The origin advanced by `k` tiles along dimension 0. -/
def TRec.nextOrigin (r : TRec) (org : List Int) (k : Nat) : List Int :=
  (List.range r.rank).map fun d => if d == 0 then org.getD 0 0 + (k * r.tiles.getD 0 1 : Nat) else org.getD d 0

/-- How many bytes from an address on lie in its page, by `samePage`. -/
def State.pageLeft (s : State) (job va : Nat) : Nat :=
  match s.pageEntry job va with
  | some e => e.va + e.size - va
  | none => 65536 - va % 65536

/-- How many tiles on from one with origin coordinate `o0` and elements `vas` a new page can first be met: the next tile, where
the tile begins before the tensor, and else the first with an element past the end of its page, since each tile lies `tile0`
elements behind the one before. -/
def State.tileLeap (s : State) (job : Nat) (r : TRec) (o0 : Int) (vas : List Nat) : Nat :=
  let step := r.esize * r.tiles.getD 0 1
  if decide (o0 < 0) then 1
  else match (vas.map (s.pageLeft job)).min? with
    | some d => max 1 ((d + step - 1) / step)
    | none => 1

/-- The pages of the tiles from the `k`-th on, added to those seen until there are `most` or a tile starts beyond the tensor or
has no element in it; tiles that can add no page are passed over. -/
def State.pagesAhead (s : State) (job : Nat) (r : TRec) (org : List Int) (most : Nat) : Nat → Nat → List Nat → List Nat
  | 0, _, seen => seen
  | n + 1, k, seen =>
    let o := r.nextOrigin org k
    let vas := r.inRange o
    if decide (most ≤ seen.length) || decide ((r.sizes.getD 0 0 : Int) ≤ o.getD 0 0) || vas.isEmpty then seen
    else s.pagesAhead job r org most n (k + s.tileLeap job r (o.getD 0 0) vas) (s.pagesOf job seen vas)

/-- The pages of the next tiles of the record that the walk-ahead TLB walks, up to 8 beyond the copy's own, from the first tile that
reaches the tensor on (R220). -/
def State.walkNext (s : State) (gid : Nat) (r : TRec) (org : List Int) (p : Perm) : State :=
  let job := s.jobOf gid
  let own := s.pagesOf job [] (r.inRange org)
  let t0 := r.tiles.getD 0 1
  let first := max 1 ((-(org.getD 0 0)).toNat / t0)
  let tiles := ((r.sizes.getD 0 0 : Int) - org.getD 0 0).toNat / t0 + 1
  let all := s.pagesAhead job r org (own.length + 8) tiles first own
  s.keepWalk (s.coreOf gid) job p ((all.drop own.length).take 8)

/-- A copy issues: its token counts up, and the lines an `rcopy` targets become absent (R146, R218). -/
def State.startCopy (s : State) (w : Who) (c : Copy) : State :=
  let s := s.modGrp w.gid fun g => g.addToken c.tok
  let s := if c.out then s
    else s.modBlk c.blk fun k => { k with absent := c.lines.foldl (fun t l => Tbl.put t l c.id) k.absent }
  { s with copies := s.copies ++ [c], nextId := s.nextId + 1 }

/-- The operands of a copy. -/
def copyNeeds (a b c : RSel) : List Need := rselNeeds a 2 ++ rselNeeds b 1 ++ rselNeeds c 1

/-- `rcopy` and `rcopyo`. -/
def State.copy (s : State) (w : Who) (out : Bool) (a b c : RSel) (tok : BitVec 4) (msel : BitVec 3) : R State := do
  s.checkWho w msel (copyNeeds a b c)
  if !(s.acts w msel) then pure (s.goOn w)
  else do
    let g := s.grp w.gid
    let p ← s.recordFor w.gid (s.rsel64 w.gid a)
    let s := p.2
    if !p.1.ok then raise fRecord
    let r := TRec.ofBits p.1.bits.toNat
    let org ← s.coords w c r.rank
    let d := s.rselAddr w.gid b
    if d.toNat % (if r.swz == 0 then r.esize else 128) != 0 then raiseAt fAlign 64 d
    let n := r.esize * r.tileElems
    if decide (2 ^ 26 ≤ d.toNat) || s.scratchBad g.blk n 0 d then raiseAt fScratch 64 d
    if out then s.copyOutOk w.gid r org
    let loc := s.scratchAt g.blk d
    let lines := r.lines (locOff loc)
    if out && lines.any (fun l => (Tbl.find (s.blk (locBlock loc)).absent l).isSome) then
      holdFor (.lines (lines.map fun l => (locBlock loc, l)))
    if !w.slice && !(s.hasRoom w.gid tok) then hold false
    if w.slice && tok != 0 && decide (63 ≤ g.token tok.toNat) then hold false
    let k : Copy := { id := s.nextId, out := out, gid := w.gid, slice := w.slice, record := r, org := org,
                      blk := locBlock loc, off := locOff loc, tok := tok, lines := lines, pc := s.whoPc w, waiting := false }
    pure (((s.startCopy w k).walkNext w.gid r org (if out then .write else .read)).goOn w)

def execRcopy (a b c : RSel) (tok : BitVec 4) (msel : BitVec 3) (s : State) : Out :=
  bothRun s (fun w => s.bringRecord w a (copyNeeds a b c) msel) fun s w => s.copy w false a b c tok msel
def execRcopyo (a b c : RSel) (tok : BitVec 4) (msel : BitVec 3) (s : State) : Out :=
  bothRun s (fun w => s.bringRecord w a (copyNeeds a b c) msel) fun s w => s.copy w true a b c tok msel

/-- `rwait` (R221). -/
def execRwait (sl : Bool) (msel : BitVec 3) (s : State) : Out :=
  laneRun s fun g => do
    s.checkNeeds g (mselNeeds msel)
    if s.active g msel == 0 then pure (s.advance g)
    else if s.copies.any fun c => c.gid == g && (sl || !c.slice) then hold false
    else pure (s.advance g)

/-! ### The data of a copy arrives -/

/-- COPY_DATA_ARRIVAL: a copy moves one of its lines, or what keeps it from that follows. -/
def State.copyArrival (s : State) (id line : Nat) : State :=
  match s.copies.find? fun c => c.id == id with
  | none => s
  | some c => match s.copyStep c line with
    | .moved t => t
    | .page va code => s.pageFault c.gid code (if c.out then 6 else 5) (BitVec.ofNat 64 va) c.pc 64 c.id .other
    | .outside => s.fatal c.gid fPartition
    | .below => s.modCopy id fun x => { x with waiting := true }
    | .stays => s

def execCopyDataArrival (copy line : Nat) (s : State) : Out := .next (s.copyArrival copy line)

/-! ### The lane side of slices (R226) -/

/-- Queue control: operand checks, and the effect on the group when Active() is not empty. -/
def State.onGroup (s : State) (gid : Nat) (msel : BitVec 3) (ns : List Need) (f : Group → Group) : R State := do
  s.checkNeeds gid (ns ++ mselNeeds msel)
  pure ((if s.active gid msel == 0 then s else s.modGrp gid f).advance gid)

/-- Every entry of a window goes (R226). -/
def Group.dropQueue (g : Group) (q : Nat) : Group := g.takeFrom q (g.queue q).length []

def execQdrop (n : BitVec 3) (msel : BitVec 3) (s : State) : Out :=
  laneRun s fun g => s.onGroup g msel [.q n.toNat] fun x => x.dropQueue n.toNat

def execQdropAll (msel : BitVec 3) (s : State) : Out :=
  laneRun s fun g => s.onGroup g msel [] fun x => (List.range 8).foldl Group.dropQueue x

/-- Complete entries of a window (R225). -/
def Group.complete (g : Group) (n : Nat) : Nat := (g.queue n).countP fun e => e.full

def sliceCode : SliceSt → Nat
  | .none => 0 | .running => 1 | .paused => 2 | .ended => 3

/-- The word `qstat` writes (R226). -/
def Group.qstatWord (g : Group) (sl : Bool) : Word :=
  BitVec.ofNat 32 (if sl then sliceCode g.slice.st + (if g.slice.faulted then 4 else 0)
    else (List.range 8).foldl (fun x n => x + g.complete n * 16 ^ n) 0)

def execQstat (sl : Bool) (d : BitVec 8) (msel : BitVec 3) (s : State) : Out :=
  laneRun s fun g => s.onGroup g msel [.s d.toNat] fun x => x.setSreg d.toNat (x.qstatWord sl)

/-- The slice ends at once, and reserved entries whose data has not arrived are discarded (R226). -/
def Group.stopSlice (g : Group) : Group :=
  if g.slice.st == .none then g
  else { g with
    slice := { g.slice with st := .ended, held := false, clause := none },
    queues := g.queues.map fun q => (q.1, q.2.filter fun e => e.full) }

def execSlctlStop (msel : BitVec 3) (s : State) : Out := laneRun s fun g => s.onGroup g msel [] Group.stopSlice
def execSlctlPause (msel : BitVec 3) (s : State) : Out :=
  laneRun s fun g => s.onGroup g msel [] fun x =>
    if x.slice.st == .running then { x with slice := { x.slice with st := .paused } } else x
def execSlctlResume (msel : BitVec 3) (s : State) : Out :=
  laneRun s fun g => s.onGroup g msel [] fun x =>
    if x.slice.st == .paused then { x with slice := { x.slice with st := .running } } else x

end Sys2Proof.Machine
end

