-- ==== Sys2Proof/Machine/Slice.lean ====
section
/-!
DEFINITION. The instructions of access slices (R222 to R225): 64-bit arithmetic, loops, and filling queue windows.
-/
namespace Sys2Proof.Machine

/-- A slice operand's value (R223). -/
def State.xval (s : State) (gid : Nat) (r : RSel) : Dword := s.rsel64 gid r

def State.setX (s : State) (gid n : Nat) (v : Dword) : State :=
  s.modSlice gid fun x => { x with xs := Tbl.put x.xs n v }

def execXadd (d : BitVec 5) (a b : RSel) (s : State) : Out :=
  sliceRun s fun g => .ok ((s.setX g d.toNat (s.xval g a + s.xval g b)).sliceAdvance g)
def execXmul (d : BitVec 5) (a b : RSel) (s : State) : Out :=
  sliceRun s fun g => .ok ((s.setX g d.toNat (s.xval g a * s.xval g b)).sliceAdvance g)

/-- `xloop`: a count of 0 passes over the body (R223). -/
def Slice.enterLoop (x : Slice) (n : Dword) : Slice :=
  let y := x.advance
  if n == 0 then { y with skip := 1 } else { y with loops := (n, y.pc) :: y.loops }

def execXloop (a : BitVec 5) (s : State) : Out :=
  sliceRun s fun g =>
    let x := (s.grp g).slice
    if !x.atLast then raise fIllegalInstr
    else if decide (5 ≤ x.loops.length) then raise fIllegalInstr
    else .ok (s.modSlice g fun x => x.enterLoop (x.x a.toNat))

/-- `xnext`: back to the innermost head, or past the loop (R223). -/
def Slice.nextLoop (x : Slice) : Slice :=
  let y := x.advance
  match y.loops with
  | [] => y
  | (n, head) :: t => if n - 1 == 0 then { y with loops := t } else { y with loops := (n - 1, head) :: t, pc := head }

def execXnext (s : State) : Out :=
  sliceRun s fun g =>
    let x := (s.grp g).slice
    if !x.atLast || x.loops.isEmpty then raise fIllegalInstr else .ok (s.modSlice g Slice.nextLoop)

def execXend (s : State) : Out :=
  sliceRun s fun g => .ok (s.modSlice g fun x => { x with st := .ended, held := false, clause := none })

/-! ### `qput` (R224) -/

/-- The address of lane `L` of a `qput`. -/
def QEntry.addr (e : QEntry) (L : Nat) : Dword := e.base + BitVec.ofNat 64 L * e.stride

/-- The checks of R160 that a `qput` makes at issue, for all 64 lanes. -/
def State.qputChecks (s : State) (gid : Nat) (e : QEntry) : R Unit := do
  let ls := List.range 64
  refuse ls (fun L => (e.addr L).toNat % 4 != 0) fAlign e.addr
  if e.sp then refuse ls (fun L => s.scratchBad (s.grp gid).blk 4 0 (e.addr L)) fScratch e.addr
  else refuse ls (fun L => !canonical (e.addr L)) fPageFatal e.addr

def execQput (fmt : MFmt) (sp : Bool) (n : BitVec 3) (a : BitVec 5) (b : RSel) (s : State) : Out :=
  sliceRun s fun g => do
    let r := (s.blockOf g).record
    if r.qn ≤ n.toNat then raise fIllegalInstr
    let e : QEntry := { full := false, lanes := [], tag := fmtTag fmt, fmt := fmt, sp := sp,
                        base := (s.grp g).slice.x a.toNat, stride := s.xval g b }
    if r.qdepth ≤ ((s.grp g).queue n.toNat).length then hold false
    s.qputChecks g e
    pure ((s.modGrp g fun x => { x with queues := Tbl.put x.queues n.toNat (x.queue n.toNat ++ [e]) }).sliceAdvance g)

/-! ### The data of a `qput` arrives -/

/-- Whether a lane's read must wait: on a graded line below final, or on an absent scratchpad line (R218, R224). -/
def State.qputWaits (s : State) (gid : Nat) (e : QEntry) (L : Nat) : Bool :=
  let va := e.addr L
  if e.sp then s.absentAt (s.scratchAt (s.grp gid).blk va) 4
  else (s.gradedAt (s.jobOf gid) va.toNat).isSome && s.lineGrade (lineOf (s.aheadLoc gid .read va.toNat)) != 3

/-- One lane's read: its value, and the state after it. -/
def State.qputLane (s : State) (gid : Nat) (e : QEntry) (L : Nat) : Word × State :=
  let va := e.addr L
  if e.sp then
    let loc := s.scratchAt (s.grp gid).blk va
    (BitVec.ofNat 32 (s.scratchRead (locBlock loc) (locOff loc) 4), s)
  else
    let loc := s.aheadLoc gid .read va.toNat
    let r := match s.commAt (s.jobOf gid) va.toNat with
      | some _ => s.readThere (s.jobOf gid) va.toNat loc 4
      | none => s.readL1 (s.coreOf gid) gid loc 4 3
    (BitVec.ofNat 32 r.1, r.2.poisonCheck gid 64 loc va)

/-- Every lane's read, in ascending order. -/
def State.qputLanes (s : State) (gid : Nat) (e : QEntry) : List Nat → Lanes × State
  | [] => ([], s)
  | L :: t =>
    let r := s.qputLane gid e L
    let rest := r.2.qputLanes gid e t
    (r.1 :: rest.1, rest.2)

/-- The oldest reserved entry of a window becomes complete with the given lanes. -/
def fillFirst (lanes : Lanes) : List QEntry → List QEntry
  | [] => []
  | e :: t => if e.full then e :: fillFirst lanes t else { e with full := true, lanes := lanes } :: t

/-- The oldest reserved entry of a window. -/
def Group.reserved (g : Group) (q : Nat) : Option QEntry := (g.queue q).find? fun e => !e.full

/-- A `qput` page fault of the group is still to be answered. -/
def State.qputFaulted (s : State) (gid : Nat) : Bool :=
  s.dies.any fun d =>
    (d.2.fqWait.any fun e => e.gid == gid && e.kind == 7) || d.2.fq.any fun e => e.2.gid == gid && e.2.kind == 7

/-- QPUT_ENTRY_COMPLETE: the oldest reserved entry of a window is filled, once no lane of it waits. -/
def State.qputComplete (s : State) (gid q : Nat) : State :=
  let g := s.grp gid
  match g.reserved q with
  | none => s
  | some e =>
    let ls := List.range 64
    let w := fun L => s.walkAhead (s.coreOf gid) (s.jobOf gid) (e.addr L).toNat .read
    let vas := if e.sp then [] else ls.map fun L => (e.addr L).toNat
    if !(s.blk g.blk).resident || !(s.jobRuns (s.jobOf gid)) || s.qputFaulted gid then s
    else
      match if e.sp then none else ls.find? fun L => (w L).isMissing || (w L).isDenied with
      | some L =>
        s.pageFault gid (if (w L).isMissing then fPageMissing else fPagePerm) 7 (e.addr L) g.slice.ipc L 0 .other
      | none =>
        if !e.sp && ls.any fun L => s.outsideJob (s.jobOf gid) (s.aheadLoc gid .read (e.addr L).toNat) then
          s.fatal gid fPartition
        else if ls.any (s.qputWaits gid e) then s
        else if !e.sp && ls.any fun L =>
            s.heldByReset (dieOf (s.coreOf gid)) (s.aheadLoc gid .read (e.addr L).toNat) then s
        else
          let core := s.coreOf gid
          let s := s.reapClose gid vas
          if !(s.reapOpen gid vas) then s
          else
            let r := s.qputLanes gid e ls
            (r.2.modGrp gid fun g => { g with queues := Tbl.put g.queues q (fillFirst r.1 (g.queue q)) }).keepWalk
              core (s.jobOf gid) .read vas

def execQputEntryComplete (gid : Nat) (q : BitVec 3) (s : State) : Out := .next (s.qputComplete gid q.toNat)

end Sys2Proof.Machine
end

