-- ==== Sys2Proof/Machine/ThreshLane.lean ====
section
/-!
DEFINITION. The lane side of the Thresher: reservation, release and the operand-ready fence (R229 to R231, R242, R248 to
R250).
-/
namespace Sys2Proof.Machine

/-- The block that holds the reservation of a group's core. -/
def State.thrHolder (s : State) (gid : Nat) : Option Nat := (s.core (s.coreOf gid)).thr.holder

/-- The reservation is taken (R229): the sequencer runs from the pair's address with k0–k31 from s32–s63 (R17). -/
def State.takeThresher (s : State) (gid : Nat) (pc : Dword) : State :=
  let g := s.grp gid
  s.modCore (s.coreOf gid) fun c => { c with thr := { Thresher.free with
    holder := some g.blk, pc := pc, st := .running, ks := (List.range 32).map fun i => (i, g.sreg (32 + i)) } }

/-- `thres`'s result and effect (R229). -/
def State.reserve (s : State) (gid : Nat) (pc : Dword) : Word × State :=
  match s.thrHolder gid with
  | none => (1, s.takeThresher gid pc)
  | some b => if b == (s.grp gid).blk then (2, s) else (0, s)

def execThres (d a : BitVec 8) (msel : BitVec 3) (s : State) : Out :=
  laneRun s fun g => do
    s.checkNeeds g ([.s d.toNat, .s a.toNat, .s (a.toNat + 1)] ++ mselNeeds msel)
    if s.active g msel == 0 then pure (s.advance g)
    else do
      let r := (s.blockOf g).record
      let pc := s.spair g a.toNat
      if !r.thr then raise fThresher
      if pc.toNat % 8 != 0 || !(canonical pc) || !(r.inCode pc) then raise fIllegalTarget
      let p := s.reserve g pc
      pure ((p.2.setSreg g d.toNat p.1).advance g)

/-- A group of the holding block only (R230). -/
def State.mustHold (s : State) (gid : Nat) : R Unit :=
  if s.thrHolder gid == some (s.grp gid).blk then .ok () else raise fThresher

def execThrel (msel : BitVec 3) (s : State) : Out :=
  laneRun s fun g => do
    s.checkNeeds g (mselNeeds msel)
    if s.active g msel == 0 then pure (s.advance g)
    else do
      s.mustHold g
      pure ((s.freeThresher (s.coreOf g)).advance g)

/-- The scratchpad writes of the group, and the data of its and its slice's `rcopy`s, have been performed (R242). -/
def State.operandsReady (s : State) (gid : Nat) : Bool :=
  s.drained gid (fun o => o == .sstore) && s.copies.all fun c => c.gid != gid || c.out || c.lines.isEmpty

def execOrf (msel : BitVec 3) (s : State) : Out :=
  laneRun s fun g => do
    s.checkNeeds g (mselNeeds msel)
    if s.active g msel == 0 then pure (s.advance g)
    else do
      s.mustHold g
      if !(s.operandsReady g) then hold false
      pure ((s.modGrp g fun x => { x with orfReady := true }).advance g)

end Sys2Proof.Machine
end

