-- ==== Sys2Proof/Machine/Stream.lean ====
section
/-!
DEFINITION. The matrix stream (R232 to R247, R251 to R261): table entries as exact rationals, building a set, one step
of multiplication, code sets, accumulator tiles, and the sequencer's control flow. Each instruction takes effect whole
and in stream order (R232).
-/
namespace Sys2Proof.Machine

/-! ### The sequencer's context -/

def State.thr (s : State) (core : Nat) : Thresher := (s.core core).thr
def State.modThr (s : State) (core : Nat) (f : Thresher → Thresher) : State :=
  s.modCore core fun c => { c with thr := f c.thr }

/-- The holding block of a core's Thresher. -/
def State.thrBlk (s : State) (core : Nat) : Nat := (s.thr core).holder.getD 0

/-- The sequencer goes on to its next word or clause. -/
def Thresher.advance (t : Thresher) : Thresher :=
  match t.clause with
  | none => t
  | some c =>
    if c.idx + 1 == headWords c.head then { t with clause := none, pc := nextHeader c.hdr c.head }
    else { t with clause := some { c with idx := c.idx + 1 } }

def State.thrAdvance (s : State) (core : Nat) : State := s.modThr core Thresher.advance

/-- The group in whose name a stream's page fault is entered: the holding block's first that has not retired. -/
def State.thrGroup (s : State) (core : Nat) : Nat :=
  ((s.blk (s.thrBlk core)).gids.find? fun g => !(s.grp g).retired).getD 0

/-- The state after a stream instruction; one that holds stays where it is (R233). -/
def State.streamSettle (s : State) (core : Nat) : R State → State
  | .ok t => t
  | .error (.flt f) => s.streamFault core f.code f.addr
  | .error (.page code kind va _) =>
    s.pageFault (s.thrGroup core) code kind va (match (s.thr core).clause with | some c => c.pc | none => (s.thr core).pc)
      64 0 .other
  | .error (.hold _ _) => s
  | .error (.fatal code) => s.fatal (s.thrGroup core) code

/-- Run a stream instruction (R38). -/
def streamRun (s : State) (f : Nat → R State) : Out :=
  .next (match s.issuer with
    | .lane gid => s.faultHere gid (Flt.plain fIllegalInstr)
    | .slice gid => s.sliceFault gid fIllegalInstr 0
    | .stream c => s.streamSettle c (f c))

def Thresher.k (t : Thresher) (n : Nat) : Word := (Tbl.find t.ks n).getD 0

/-- A stream operand's value (R246). -/
def State.kval (s : State) (core : Nat) : KSel → Word
  | .k n => (s.thr core).k n.toNat
  | .imm b => b.signExtend 32

/-- The registers among slot bases and scratchpad addresses that step (R247). -/
def stepping (ks : List KSel) : List Nat :=
  (ks.filterMap fun x => match x with
    | .k n => if 16 ≤ n.toNat then some n.toNat else none
    | .imm _ => none).eraseDups

/-- Each steps once, by the register 16 below it (R247). -/
def Thresher.stepAll (t : Thresher) (ks : List KSel) : Thresher :=
  (stepping ks).foldl (fun t n => { t with ks := Tbl.put t.ks n (t.k n + t.k (n - 16)) }) t

/-- The instruction is done: registers step and the sequencer goes on. -/
def State.streamDone (s : State) (core : Nat) (ks : List KSel) : State := s.modThr core fun t => (t.stepAll ks).advance

/-! ### Scratchpad pieces (R251, R252) -/

/-- Bytes of the scratchpad an instruction touches: address and length. -/
abbrev Pieces := List (Nat × Nat)

/-- Rows of a tile: `n` bytes each, a pitch apart. -/
def rowPieces (a p rows n : Nat) : Pieces := (List.range rows).map fun m => (a + m * p, n)

/-- A piece lies in the block's own scratchpad, named by its own member index (R251). -/
def State.pieceOk (s : State) (b : Nat) (x : Nat × Nat) : Bool :=
  let k := s.blk b
  x.1 / 2 ^ 24 == k.sidx && decide (x.1 % 2 ^ 24 + x.2 ≤ k.record.scratchBytes)

/-- The checks of R252, and the hold on absent lines (R146). An alignment or scratchpad-range fault has FADDR 0 (DESIGN CHOICE, log
entry 28). -/
def State.touch (s : State) (core : Nat) (aligned : Bool) (ps : Pieces) : R Unit := do
  let b := s.thrBlk core
  if !aligned then raise fAlign
  if !(ps.all (s.pieceOk b)) then raise fScratch
  if ps.any fun x => (List.range (x.2 / 128 + 2)).any fun i =>
      let off := min (x.1 + 128 * i) (x.1 + x.2 - 1) % 2 ^ 24
      (Tbl.find (s.blk b).absent (off / 128)).isSome then hold false

/-- A word's bytes as they were before its late change number `no`: each byte as the first change from there on found it. -/
def Block.asBefore (k : Block) (w no : Nat) (m : Memory) : Memory :=
  (List.range 4).foldl (fun m i => match k.late.find? fun x => x.off == 4 * w + i && decide (no ≤ x.no) with
    | some x => m.setByte (4 * w + i) x.was
    | none => m) m

/-- The 4-byte words of a block's scratchpad that some group's `sts` has changed without an operand-ready arrival since (R242). -/
def Block.lateWords (k : Block) : List Nat := (k.late.map fun x => x.off / 4).eraseDups

/-- The scratchpad as one stream instruction reads it, each such word as it is or as it was before one access's change of it, in
coherence order (R242); and the words not read as they are. A free value for each change, oldest first, says whether its word is read as
before it; the first that answers yes decides. -/
def State.streamView (s : State) (b : Nat) : Memory × List Nat :=
  let k := s.blk b
  k.lateWords.foldl (fun (v : Memory × List Nat) w =>
    match k.late.find? fun x => x.off / 4 == w && Config.freeBit (s.freeCount + x.no) with
    | some x => (k.asBefore w x.no v.1, v.2 ++ [w])
    | none => v) (k.scratch, [])

/-- The free values that reading a view uses. -/
def State.viewed (s : State) (b : Nat) : State := if (s.blk b).late.isEmpty then s else s.useFree (s.blk b).lateNo

/-- A write of the stream: at the array, and seen by the stream from then on. -/
def State.streamWrite (s : State) (b off n v : Nat) : State :=
  (s.dropLate (scratchLoc b off) n).scratchWrite b off n v

/-! ### Exact values (R234) -/

/-- A rational: numerator and positive denominator. -/
structure Rat2 where
  num : Int
  den : Nat
  deriving DecidableEq, Repr

def Rat2.zero : Rat2 := { num := 0, den := 1 }
def Rat2.add (a b : Rat2) : Rat2 := { num := a.num * b.den + b.num * a.den, den := a.den * b.den }
def Rat2.mul (a b : Rat2) : Rat2 := { num := a.num * b.num, den := a.den * b.den }
/-- The value times 2^e. -/
def Rat2.scale (a : Rat2) (e : Int) : Rat2 := { num := a.num * 2 ^ e.toNat, den := a.den * 2 ^ (-e).toNat }
def signed (neg : Bool) (n : Nat) : Int := if neg then -(n : Int) else n

/-- A finite binary value as a rational; none for an infinity or a NaN. -/
def Fpv.rat : Fpv → Option Rat2
  | .fin neg m e => some { num := signed neg (magNum m e), den := magDen e }
  | _ => none

/-- A BF16 value read exactly. -/
def bf16Rat (x : Nat) : Option Rat2 := (BFmt.bf16.value x).rat

/-- The S8 scale as a rational. -/
def s8Rat (c : Byte) : Rat2 := { num := (s8Value c).1, den := (s8Value c).2 }

/-- A D8 activation: none for NaR and the infinities. -/
def d8Rat (c : Byte) : Option Rat2 :=
  match d8Value c with
  | .fin neg a b => some { num := signed neg a, den := b }
  | _ => none

/-- What a sub-code reads (R234). -/
inductive CodeVal where
  | invalid
  | special
  | inf (neg : Bool)
  | fin (v : Rat2)
  deriving DecidableEq, Repr

/-- val of a D8 code (g = 1). -/
def d8Code (inf : Bool) (c : Nat) : CodeVal :=
  match d8Value (BitVec.ofNat 8 c) with
  | .nar => .invalid
  | .inf neg => if inf then .inf neg else .invalid
  | .fin neg a b => .fin { num := signed neg a, den := b }

/-- val of a sub-code of a code set (g > 1). -/
def setCode (cs : CodeSet) (c : Nat) : CodeVal :=
  if cs.count ≤ c then .invalid
  else match bf16Rat (cs.vals.getD c 0).toNat with
    | some v => .fin v
    | none => .special

/-- A table entry before the set exponent is known. -/
inductive Entry where
  | poison (invalid : Bool)
  | invalid
  | inf (neg : Bool)
  | fin (v : Rat2)
  deriving DecidableEq, Repr

/-- The entry that activations and sub-code values give, by the first case of R234 that applies. A poisoned entry keeps
whether a sub-code of it is invalid, which bit 31 of its word says (R235). -/
def entryOf (acts : List (Option Rat2)) (vals : List CodeVal) : Entry :=
  let bad := vals.any fun v => v == .invalid
  let pairs := acts.zip vals
  if acts.any Option.isNone || (vals.any fun v => v == .special) ||
      (pairs.any fun p => match p.1, p.2 with
        | some a, .inf _ => a.num == 0
        | _, _ => false) then .poison bad
  else if bad then .invalid
  else match pairs.findSome? (fun p => match p.1, p.2 with
      | some a, .inf neg => some (neg != decide (a.num < 0))
      | _, _ => none) with
    | some neg => .inf neg
    | none => .fin (pairs.foldl (fun s p => match p.1, p.2 with
        | some a, .fin v => s.add (a.mul v)
        | _, _ => s) Rat2.zero)

/-- The nearest multiple of 2^e, ties to even, as a multiple of it. -/
def roundFix (x : Rat2) (e : Int) : Int :=
  let y := x.scale (-e)
  signed (decide (y.num < 0)) (roundInt .rn false y.num.natAbs y.den)

/-- The value lies in [−2^27, 2^27 − 1] × 2^e once rounded. -/
def fits (x : Rat2) (e : Int) : Bool := decide (-(2 ^ 27) ≤ roundFix x e) && decide (roundFix x e ≤ 2 ^ 27 - 1)

/-- The smallest exponent at which a non-zero value fits: its magnitude leaves three candidates. -/
def leastExp (x : Rat2) : Int :=
  let l := logFloor x.num.natAbs x.den
  if fits x (l - 27) then l - 27 else if fits x (l - 26) then l - 26 else l - 25

/-- The set exponent (R235). -/
def setExp (es : List Entry) : Int :=
  match es.filterMap (fun e => match e with
      | .fin v => if v.num == 0 then none else some (leastExp v)
      | _ => none) with
  | [] => 0
  | e :: t => t.foldl max e

/-- The entry word (R235). -/
def entryWord (e : Int) : Entry → Word
  | .poison bad => if bad then 0xC0000000#32 else 0x40000000#32
  | .invalid => 0x80000000#32
  | .inf neg => if neg then 0x30000000#32 else 0x20000000#32
  | .fin v => (BitVec.ofInt 28 (roundFix v e)).setWidth 32

/-! ### Building a set (R236, R237, R240, R253) -/

/-- The shape and place of a set, as a build is given them or a record keeps them. -/
structure Shape where
  lg : Nat
  lm : Nat
  d8 : Bool
  inf : Bool
  cset : Nat
  slot : Nat
  base : Nat
  pitch : Nat
  deriving DecidableEq, Repr

def Shape.g (x : Shape) : Nat := 2 ^ x.lg
def Shape.mt (x : Shape) : Nat := 2 ^ x.lm
/-- Tables of one row. -/
def Shape.tables (x : Shape) : Nat := 16 / x.g
def Shape.slots (x : Shape) : Nat := x.mt * x.tables
/-- Bytes a row's activations and scale take (R251). -/
def Shape.rowBytes (x : Shape) : Nat := if x.d8 then 17 else 32
def Shape.len (x : Shape) : Nat := (x.mt - 1) * x.pitch + x.rowBytes
def Shape.pieces (x : Shape) : Pieces := rowPieces x.base x.pitch x.mt x.rowBytes
def Shape.aligned (x : Shape) : Bool := x.d8 || (x.base % 2 == 0 && x.pitch % 2 == 0)

/-- The activation of row m, element j, from the view of the scratchpad (R234, R251). -/
def Shape.activation (x : Shape) (v : Memory) (m j : Nat) : Option Rat2 :=
  let row := x.base % 2 ^ 24 + m * x.pitch
  if x.d8 then (d8Rat (v.byte (row + j))).map fun a => a.mul (s8Rat (v.byte (row + 16)))
  else bf16Rat (Memory.read v (row + 2 * j) 2)

/-- The sub-codes of an entry number (R234). -/
def Shape.subcodes (x : Shape) (c : Nat) : List Nat :=
  (List.range x.g).map fun i => c / 2 ^ (i * (8 / x.g)) % 2 ^ (8 / x.g)

/-- The 256 entries of table i of row m. -/
def Shape.entries (x : Shape) (v : Memory) (cs : CodeSet) (m i : Nat) : List Entry :=
  let acts := (List.range x.g).map fun k => x.activation v m (x.g * i + k)
  (List.range 256).map fun c =>
    entryOf acts ((x.subcodes c).map fun s => if x.lg == 0 then d8Code x.inf s else setCode cs s)

/-- A set of an older build overlaps the slots. -/
def SetRec.overlaps (r : SetRec) (slot n : Nat) : Bool :=
  decide (r.slot < slot + n) && decide (slot < r.slot + 2 ^ r.lm * (16 / 2 ^ r.lg))

/-- Build a set: entries, set exponent, record; an overlapping older set ends (R236). The set is valid unless the build
read a word as it was before a write (R240, R242). -/
def State.build (s : State) (core : Nat) (x : Shape) : State :=
  let b := s.thrBlk core
  let view := s.streamView b
  let t := s.thr core
  let cs := (Tbl.find t.csets x.cset).getD CodeSet.zero
  let es := (List.range x.mt).flatMap fun m => (List.range x.tables).map fun i => x.entries view.1 cs m i
  let e := setExp es.flatten
  let off := x.base % 2 ^ 24
  let stale := view.2.any fun w => decide (4 * w < off + x.len) && decide (off < 4 * w + 4)
  let r : SetRec := { valid := !stale, e := e, inf := x.inf, cset := if x.lg == 0 then 0 else x.cset, d8 := x.d8,
                      lg := x.lg, lm := x.lm, slot := x.slot, len := x.len, base := x.base % 2 ^ 26 }
  let kept := t.sets.filter fun p => !(p.2.overlaps x.slot x.slots)
  (s.viewed b).modThr core fun t => { t with
    sets := Tbl.put kept x.slot r,
    slots := (List.range es.length).foldl (fun y i => Tbl.put y (x.slot + i) ((es.getD i []).map (entryWord e))) t.slots }

def execTbuild (lg : BitVec 2) (lm : BitVec 3) (d8 inf : Bool) (n : BitVec 3) (a b c : KSel) (s : State) : Out :=
  streamRun s fun core => do
    let x : Shape := { lg := lg.toNat, lm := lm.toNat, d8 := d8, inf := inf, cset := n.toNat,
                       slot := (s.kval core a).toNat, base := (s.kval core b).toNat, pitch := (s.kval core c).toNat }
    if decide (512 ≤ x.slot) || x.slot % x.slots != 0 then raise fAlign
    s.touch core x.aligned x.pieces
    pure ((s.build core x).streamDone core [a, b])

/-! ### Code sets (R254) -/

/-- Load a code set. -/
def State.loadCodes (s : State) (core n width addr count : Nat) : State :=
  let b := s.thrBlk core
  let view := s.streamView b
  let k := 2 ^ (2 ^ width)
  let vals := (List.range 16).map fun i =>
    if i < k then BitVec.ofNat 16 (Memory.read view.1 (addr % 2 ^ 24 + 2 * i) 2) else 0
  (s.viewed b).modThr core fun t => { t with
    sets := t.sets.map fun p => if p.2.cset == n && p.2.lg != 0 then (p.1, { p.2 with valid := false }) else p,
    csets := Tbl.put t.csets n { vals := vals, count := min count k } }

def execTcode (w : BitVec 2) (n : BitVec 3) (a b : KSel) (s : State) : Out :=
  streamRun s fun core => do
    let addr := (s.kval core a).toNat
    s.touch core (addr % 2 == 0) [(addr, 2 * 2 ^ (2 ^ w.toNat))]
    pure ((s.loadCodes core n.toNat w.toNat addr (s.kval core b).toNat).streamDone core [a])

/-! ### One step of multiplication (R238, R241, R255) -/

def tileKey (t m n : Nat) : Nat := 4096 * t + 256 * m + n
def Thresher.out (t : Thresher) (tile m n : Nat) : Word := (Tbl.find t.tiles (tileKey tile m n)).getD 0
def Thresher.setOut (t : Thresher) (tile m n : Nat) (w : Word) : Thresher :=
  { t with tiles := Tbl.put t.tiles (tileKey tile m n) w }

/-- Columns of an n field. -/
def columns (n : BitVec 2) : Nat := 64 * 2 ^ n.toNat

/-- The outputs of a tile step, row by row. -/
def outputs (mt cols : Nat) : List (Nat × Nat) := (List.range mt).flatMap fun m => (List.range cols).map fun n => (m, n)

/-- The rebuild of a set from its record (R241); the pitch is what the recorded length leaves between rows. -/
def SetRec.shape (r : SetRec) : Shape :=
  let row := if r.d8 then 17 else 32
  { lg := r.lg, lm := r.lm, d8 := r.d8, inf := r.inf, cset := r.cset, slot := r.slot, base := r.base,
    pitch := if r.lm == 0 then 0 else (r.len - row) / (2 ^ r.lm - 1) }

/-- The set a `tmac` uses, rebuilt where `.rb` asks (R241). -/
def State.usableSet (s : State) (core : Nat) (rb : Bool) (lg lm slot : Nat) : R (SetRec × State) :=
  match Tbl.find (s.thr core).sets slot with
  | none => raise fStale
  | some r =>
    if r.lg != lg || r.lm != lm then raise fStale
    else if r.valid then .ok (r, s)
    else if !rb then raise fStale
    else do
      let x := r.shape
      s.touch core true x.pieces
      let t := s.build core x
      match Tbl.find (t.thr core).sets slot with
      | some q => if q.valid then pure (q, t) else raise fStale
      | none => raise fStale

/-- The value of a finite entry word. -/
def entryInt (w : Word) : Int := (w.setWidth 28).toInt

/-- The accumulated output for the entries looked up (R238). -/
def tmacOut (acc : Word) (es : List Word) (e : Int) (scale : Byte) : Word :=
  let infs := es.filter fun w => w.getLsbD 29
  if es.any fun w => w.getLsbD 30 then qNaN
  else match infs with
    | w :: t =>
      if t.all fun x => x.getLsbD 28 == w.getLsbD 28 then
        f32Add .rn acc (if w.getLsbD 28 then 0xFF800000#32 else 0x7F800000#32)
      else f32Add .rn acc qNaN
    | [] =>
      let sum : Int := es.foldl (fun x w => x + entryInt w) 0
      let v := (Rat2.mul { num := sum, den := 1 } (s8Rat scale)).scale e
      f32Add .rn acc (BitVec.ofNat 32 (BFmt.f32.round .rn (decide (v.num < 0)) v.num.natAbs v.den))

/-- The entries output (m, n) looks up. -/
def lookups (t : Thresher) (view : Memory) (slot tables codes m n : Nat) : List Word :=
  (List.range tables).map fun i =>
    ((Tbl.find t.slots (slot + m * tables + i)).getD []).getD (view.byte (codes + n * tables + i)).toNat 0

/-- An output that no poisoned entry settles finds an invalid one. -/
def badLookup (es : List Word) : Bool := !(es.any fun w => w.getLsbD 30) && es.any fun w => w.getLsbD 31

def execTmac (rb : Bool) (lg : BitVec 2) (lm : BitVec 3) (n : BitVec 2) (t : BitVec 4) (a b c : KSel) (s : State) : Out :=
  streamRun s fun core => do
    let slot := (s.kval core a).toNat
    let code := (s.kval core b).toNat
    let sc := (s.kval core c).toNat
    let tables := 16 / 2 ^ lg.toNat
    let cols := columns n
    s.touch core true [(code, cols * tables), (sc, cols)]
    let p ← s.usableSet core rb lg.toNat lm.toNat slot
    let blk := s.thrBlk core
    let view := (p.2.streamView blk).1
    let th := p.2.thr core
    let look := fun (o : Nat × Nat) => lookups th view slot tables (code % 2 ^ 24) o.1 o.2
    let os := outputs (2 ^ lm.toNat) cols
    if os.any fun o => badLookup (look o) then raise fIndex
    let th' := os.foldl (fun x o =>
      x.setOut t.toNat o.1 o.2 (tmacOut (th.out t.toNat o.1 o.2) (look o) p.1.e (view.byte (sc % 2 ^ 24 + o.2)))) th
    pure (((p.2.viewed blk).modThr core fun _ => th').streamDone core [a, b, c])

/-! ### Accumulator tiles (R256, R257) -/

def execTaclr (t : BitVec 4) (s : State) : Out :=
  streamRun s fun core =>
    .ok ((s.modThr core fun x => { x with tiles := x.tiles.filter fun p => p.1 / 4096 != t.toNat }).streamDone core [])

def execTald (lm : BitVec 3) (n : BitVec 2) (t : BitVec 4) (a b : KSel) (s : State) : Out :=
  streamRun s fun core => do
    let addr := (s.kval core a).toNat
    let p := (s.kval core b).toNat
    s.touch core (addr % 4 == 0 && p % 4 == 0) (rowPieces addr p (2 ^ lm.toNat) (4 * columns n))
    let blk := s.thrBlk core
    let view := (s.streamView blk).1
    let th' := (outputs (2 ^ lm.toNat) (columns n)).foldl (fun x o =>
      x.setOut t.toNat o.1 o.2 (BitVec.ofNat 32 (Memory.read view (addr % 2 ^ 24 + o.1 * p + 4 * o.2) 4))) (s.thr core)
    pure (((s.viewed blk).modThr core fun _ => th').streamDone core [a])

/-- Bytes of one stored output. -/
def tastSize (fmt : BitVec 2) : Nat := if fmt == 0 then 4 else if fmt == 1 then 2 else 1

/-- The S8 of columns 16j to 16j + 15 of a row, every lane counted as active (R121, R257). -/
def Thresher.rowScale (t : Thresher) (tile m j : Nat) : Byte :=
  scaleFor ((List.range 16).map fun i => t.out tile m (16 * j + i))

/-- The stored form of an output (R257). -/
def Thresher.stored (t : Thresher) (fmt : BitVec 2) (tile m n : Nat) : Nat :=
  let w := t.out tile m n
  if fmt == 0 then w.toNat
  else if fmt == 1 then convert .f32 .bf16 .rn w.toNat
  else
    let k := s8Value (t.rowScale tile m (n / 16))
    ((f32 w).toD8 false k.1 k.2).toNat

/-- `tast` (R257). Where its rows overlap one another or the scale tile, the bytes of the later write remain: scales first, then
outputs in ascending row and column (log entry 96). -/
def execTast (fmt : BitVec 2) (lm : BitVec 3) (n : BitVec 2) (t : BitVec 4) (a b c : KSel) (s : State) : Out :=
  streamRun s fun core => do
    let addr := (s.kval core a).toNat
    let p := (s.kval core b).toNat
    let sc := (s.kval core c).toNat
    let mt := 2 ^ lm.toNat
    let cols := columns n
    let sz := tastSize fmt
    let d8 := fmt == 2
    s.touch core (addr % sz == 0 && p % sz == 0)
      (rowPieces addr p mt (sz * cols) ++ if d8 then [(sc, mt * (cols / 16))] else [])
    let blk := s.thrBlk core
    let th := s.thr core
    let s1 := if d8 then (outputs mt (cols / 16)).foldl (fun (s : State) o =>
        s.streamWrite blk (sc % 2 ^ 24 + o.1 * (cols / 16) + o.2) 1 (th.rowScale t.toNat o.1 o.2).toNat) s
      else s
    let s2 := (outputs mt cols).foldl (fun (s : State) o =>
      s.streamWrite blk (addr % 2 ^ 24 + o.1 * p + sz * o.2) sz (th.stored fmt t.toNat o.1 o.2)) s1
    pure (s2.streamDone core (if d8 then [a, c] else [a]))

/-! ### Stream control (R258 to R260) -/

def execTinv (a : KSel) (s : State) : Out :=
  streamRun s fun core => do
    let slot := (s.kval core a).toNat
    if 512 ≤ slot then raise fAlign
    pure ((s.modThr core fun t => { t with
      sets := t.sets.map fun p => if p.1 == slot then (p.1, { p.2 with valid := false }) else p }).streamDone core [a])

def execTinvAll (s : State) : Out :=
  streamRun s fun core => .ok ((s.modThr core fun t => { t with
    sets := t.sets.map fun p => (p.1, { p.2 with valid := false }) }).streamDone core [])

/-- `twait`: every earlier stream instruction has completed, for each takes effect whole (R232). -/
def execTwait (s : State) : Out := streamRun s fun core => .ok (s.thrAdvance core)

def execTend (s : State) : Out :=
  streamRun s fun core => .ok (s.modThr core fun t => { t with st := .ended, clause := none })

/-- The sequencer takes the completion of a barrier's phase, and its reads are ordered after what the phase covers for it (R242). -/
def State.takePhase (s : State) (b n : Nat) : State :=
  let due := After.streamDue (b, n)
  if (s.blk b).late.isEmpty then s else s.modBlk b fun k => k.orderAfter (fun _ => false) fun x => x.known.contains due

/-- A completion that an arrival with `.a` left is not taken any more. -/
def State.leavePhase (s : State) (b n : Nat) : State :=
  s.mapLates b fun x => { x with known := x.known.filter (· != .streamDue (b, n)) }

/-- The sequencer's wait at a barrier it has arrived at (R259). -/
def State.tbarWait (s : State) (core n : Nat) : State :=
  if barRec (s.thr core).brec n == 2 then
    (s.takePhase (s.thrBlk core) n).modThr core fun t => { t with st := .running, brec := Tbl.put t.brec n 0 }.advance
  else s.modThr core fun t => { t with st := .waiting }

def execTbar (arr : Bool) (n : BitVec 4) (cnt : KSel) (s : State) : Out :=
  streamRun s fun core =>
    let b := s.thrBlk core
    let t := s.thr core
    let count := s.kval core cnt
    if t.st == .waiting then .ok (s.tbarWait core n.toNat)
    else if s.barFault b n.toNat count (barRec t.brec n.toNat) then raise fBarrier
    else
      let s := s.leavePhase b n.toNat
      let s := (s.modThr core fun t => { t with brec := Tbl.put t.brec n.toNat 1 }).barCount b n.toNat count.toNat
      .ok (if arr then s.thrAdvance core else s.tbarWait core n.toNat)

/-- The sequencer jumps to a header. -/
def Thresher.jump (t : Thresher) (pc : Dword) : Thresher := { t with pc := pc, clause := none }

def execTloop (k : BitVec 5) (d : BitVec 8) (s : State) : Out :=
  streamRun s fun core =>
    let t := s.thr core
    match t.clause with
    | none => raise fIllegalInstr
    | some c =>
      let n := t.k k.toNat - 1
      let target := c.hdr - BitVec.ofNat 64 (8 * d.toNat)
      let put := s.modThr core fun t => { t with ks := Tbl.put t.ks k.toNat n }
      if c.idx + 1 != headWords c.head then raise fIllegalInstr
      else if n == 0 then .ok (put.thrAdvance core)
      else match s.checkTarget (s.thrBlk core) .stream false target with
        | .ok => .ok (put.modThr core fun t => t.jump target)
        | .illegal => raise fIllegalTarget
        | .outside => .error (.fatal fPartition)
        | .page code => .error (.page code 8 target 64)

end Sys2Proof.Machine
end

