-- ==== Sys2Proof/Machine/Task.lean ====
section
/-!
DEFINITION. The TASK instructions (R290 to R304) at the moment they issue: the checks of R292 and R304, the instructions
that hold until they are performed, and the outstanding instruction the others leave.
-/
namespace Sys2Proof.Machine

/-! ### Operands and addresses (R290 to R292) -/

/-- The scalars of a pair and of a quad. -/
def pairNeeds (a : BitVec 8) : List Need := [.s a.toNat, .s (a.toNat + 1)]
def quadNeeds (a : BitVec 8) : List Need := (List.range 4).map fun i => .s (a.toNat + i)

/-- A TASK instruction: its operand checks, then its effect if a lane is active (R291). -/
def State.task (s : State) (gid : Nat) (msel : BitVec 3) (ns : List Need) (f : R State) : R State := do
  s.checkNeeds gid (ns ++ mselNeeds msel)
  if s.active gid msel == 0 then pure (s.advance gid) else f

/-- A record address of the task arena, its reserved first record excepted (R282). -/
def State.inArena (s : State) (job va : Nat) : Bool :=
  let a := s.arena job
  decide (a.1 < va) && decide (va + 128 ≤ a.1 + 128 * a.2)

def State.taskAlign (va : Dword) (size : Nat) : R Unit := if va.toNat % size != 0 then raiseAt fAlign 64 va else .ok ()

/-- Orders 3 to 5 of R160 for a TASK address, the partition check of R354, and the arena's bounds for a task record. -/
def State.taskPage (s : State) (gid : Nat) (va : Dword) (p : Perm) (arena : Bool) : R Unit := do
  if !(canonical va) then raiseAt fPageFatal 64 va
  match s.walk (s.coreOf gid) (s.jobOf gid) va.toNat p with
  | .missing => .error (.page fPageMissing 9 va 64)
  | .denied => .error (.page fPagePerm 9 va 64)
  | .ok l =>
    if s.outsideJob (s.jobOf gid) l then .error (.fatal fPartition)
    else if arena && !(s.inArena (s.jobOf gid) va.toNat) then raiseAt fPagePerm 64 va
    else .ok ()

/-- The checks of a task record's address, which is held while its die is warm-reset (R387). -/
def State.recordAddress (s : State) (gid : Nat) (va : Dword) (p : Perm) : R Unit := do
  State.taskAlign va 128
  s.taskPage gid va p true
  if s.heldByReset (dieOf (s.coreOf gid)) (s.locOf gid p va) then hold false

/-- The outstanding instruction of a TASK operation on an address. -/
def State.taskOp (s : State) (gid : Nat) (op : AccOp) (tok : BitVec 4) (msel : BitVec 3) (va : Dword) (p : Perm) (n : Nat) :
    R State :=
  s.launchAccess gid { (s.grp gid).newAcc s.nextId op tok (s.active gid msel) with
    va := [va], addr := [s.locOf gid p va], data := [BitVec.ofNat 128 n] } [] [va.toNat]

/-- The outstanding instruction of a queue operation, which is held while the die of its queue is warm-reset (R387). -/
def State.queueOp (s : State) (gid : Nat) (op : AccOp) (tok : BitVec 4) (msel : BitVec 3) (id : Word) (e : List Qword) :
    R State :=
  if s.queueHeld id then hold false
  else s.launchAccess gid { (s.grp gid).newAcc s.nextId op tok (s.active gid msel) with
    data := [id.setWidth 128], data2 := e } [] []

/-- An instruction that holds its cluster until it is performed waits for the group's earlier stores (R292). -/
def State.afterStores (s : State) (gid : Nat) (f : R State) : R State :=
  if s.storesDone gid s.nextId then f else hold false

/-- One that the Binder performs also waits while a die's warm reset holds the Binder (R387). -/
def State.byBinder (s : State) (gid : Nat) (f : R State) : R State :=
  s.afterStores gid (if s.binderHeld then hold false else f)

/-- The group's work is below final (R281). -/
def State.isBelow (s : State) (gid : Nat) : Bool := decide ((s.effGrade gid).toNat < 3)

/-- The task of an address in the group's job. -/
def State.taskOfVa (s : State) (gid : Nat) (va : Dword) : TaskId := { job := s.jobOf gid, rec' := va.toNat }

/-- The task was spawned by the group's own task (R294). -/
def State.spawnedBy (s : State) (gid : Nat) (t : TaskId) : Bool :=
  match s.grpTask gid with
  | some p => (s.taskRow t).isSome && s.tParent t == p.rec'
  | none => false

/-! ### Creating and joining tasks (R293 to R297) -/

def execTspawn (d a : BitVec 8) (tok : BitVec 4) (msel : BitVec 3) (s : State) : Out :=
  laneRun s fun g => s.task g msel (.s d.toNat :: pairNeeds a) do
    let va := s.spair g a.toNat
    s.recordAddress g va .write
    if s.atLimit g true then holdRow 8
    s.taskOp g (.tspawn d) tok msel va .write 0

/-- `tjoin` performed (R294). -/
def State.joinTask (s : State) (t : TaskId) (n : Word) : State :=
  if s.tLive t && s.tState t == tPending then
    let s := s.setRecFld t 384 32 n.toNat
    if n == 0 then s.makeReady t else s
  else s

def execTjoin (a : BitVec 8) (n : SImm) (msel : BitVec 3) (s : State) : Out :=
  laneRun s fun g => s.task g msel (pairNeeds a ++ SImm.needs n) do
    let va := s.spair g a.toNat
    let t := s.taskOfVa g va
    s.recordAddress g va .write
    if s.isBelow g && !(s.spawnedBy g t) then raiseAt fEgress 64 va
    s.byBinder g (.ok ((s.joinTask t (s.simm g n)).advance g))

def execTsig (a : BitVec 8) (tok : BitVec 4) (msel : BitVec 3) (s : State) : Out :=
  laneRun s fun g => s.task g msel (pairNeeds a) do
    let va := s.spair g a.toNat
    s.recordAddress g va .write
    let listed := match s.grpTask g with
      | some t => (s.listed t va.toNat true).isSome
      | none => true
    if !listed && s.roomWait g 1 then holdRow 8
    s.taskOp g .tsig tok msel va .write 0

/-- `tcont` performed (R296): the task's continuation, or its grid's. -/
def State.setCont (s : State) (gid : Nat) (va : Dword) : State :=
  match s.grpTask gid with
  | some t => s.setRecFld t 128 64 va.toNat
  | none => s.modGrid (s.blockOf gid).grid fun x => { x with cont := va.toNat }

def execTcont (a : BitVec 8) (msel : BitVec 3) (s : State) : Out :=
  laneRun s fun g => s.task g msel (pairNeeds a) do
    let va := s.spair g a.toNat
    if va != 0 then s.recordAddress g va .read
    s.byBinder g (.ok ((s.setCont g va).advance g))

/-- `tkill` performed: every task it names is cancelled, but those that are ripe or already cancelled. The issuing group runs: where
its own body is cancelled, that ends with its clause, as its block then halts. -/
def State.killTasks (s : State) (gid : Nat) (t : TaskId) : State :=
  (s.modGrp gid fun g => { g with heldAt := false }).runAll ((s.killed t).map Todo.cancel)

/-- `tkill` names the issuing group's own task. -/
def State.killsOwn (s : State) (gid : Nat) (t : TaskId) : Bool := (s.grpTask gid).any (s.killed t).contains

/-- A cancellation by `tkill` of a task that is not the group's own still waits for its run to halt. -/
def State.killing (s : State) (gid : Nat) (t : TaskId) : Bool :=
  (s.killed t).any fun x => s.grpTask gid != some x && s.stops.any fun p => p.next.contains (.cancelEnd x)

/-- `tkill` waits at its word for its cancellations: one of the group's own task is no suspension point, for the body ends with its
clause. -/
def State.killWait (s : State) (gid : Nat) (own : Bool) : State := s.modGrp gid fun x => { x with heldAt := !own, partDone := true }

/-- `tkill` holds its cluster until every cancellation is done (R297). Once it is performed it makes no check again (R27). -/
def execTkill (a : BitVec 8) (msel : BitVec 3) (s : State) : Out :=
  laneRun s fun g => s.task g msel (pairNeeds a) do
    let va := s.spair g a.toNat
    let t := s.taskOfVa g va
    let own := s.killsOwn g t
    if (s.grp g).partDone then return (if s.killing g t then s.killWait g own else s.advance g)
    s.recordAddress g va .write
    if s.isBelow g && !(s.grpTask g == some t || s.spawnedBy g t) then raiseAt fEgress 64 va
    s.byBinder g do
      let u := s.killTasks g t
      if u.killing g t then pure (u.killWait g own) else pure (u.advance g)

/-! ### Ranges and grades (R298 to R300) -/

def execGrange (d a b : BitVec 8) (tok : BitVec 4) (msel : BitVec 3) (s : State) : Out :=
  laneRun s fun g => s.task g msel (.s d.toNat :: pairNeeds a ++ [.s b.toNat]) do
    let va := s.spair g a.toNat
    let n := (s.sreg g b.toNat).toNat
    State.taskAlign va 128
    if n == 0 || decide (2 ^ 29 < n) then raiseAt fAlign 64 va
    s.taskPage g va .write false
    if !(s.allLocal (s.jobOf g) va.toNat (128 * n)) then raiseAt fPagePerm 64 va
    if s.isBelow g then raiseAt fEgress 64 va
    s.taskOp g (.grange d) tok msel va .write n

def execGrel (d a : BitVec 8) (tok : BitVec 4) (msel : BitVec 3) (s : State) : Out :=
  laneRun s fun g => s.task g msel (.s d.toNat :: pairNeeds a) do
    let va := s.spair g a.toNat
    State.taskAlign va 128
    s.taskPage g va .write false
    if s.isBelow g then raiseAt fEgress 64 va
    s.taskOp g (.grel d) tok msel va .write 0

/-- `promote` and `retract`: the span's base passes the checks of a range base, made as a read. -/
def State.spanOp (s : State) (gid : Nat) (op : AccOp) (a : BitVec 8) (n : SImm) (tok : BitVec 4) (msel : BitVec 3) : R State :=
  s.task gid msel (pairNeeds a ++ SImm.needs n) do
    let va := s.spair gid a.toNat
    State.taskAlign va 128
    s.taskPage gid va .read false
    let n := (s.simm gid n).toNat
    -- a promotion is a graded store, which a full output list holds at its first unlisted line (R276, R299)
    let promotes := match op with
      | .promote _ => true
      | _ => false
    if promotes && (s.spanLines (s.jobOf gid) va.toNat n).any fun l => s.listFull gid [l.2 / 128] then holdFor (.room 1)
    s.taskOp gid op tok msel va .read n

def execPromote (gr : BitVec 2) (a : BitVec 8) (n : SImm) (tok : BitVec 4) (msel : BitVec 3) (s : State) : Out :=
  laneRun s fun g => s.spanOp g (.promote gr) a n tok msel
def execRetract (a : BitVec 8) (n : SImm) (tok : BitVec 4) (msel : BitVec 3) (s : State) : Out :=
  laneRun s fun g => s.spanOp g .retract a n tok msel

def execGstat (d a : BitVec 8) (tok : BitVec 4) (msel : BitVec 3) (s : State) : Out :=
  laneRun s fun g => s.task g msel (.s d.toNat :: pairNeeds a) do
    let va := s.spair g a.toNat
    s.taskPage g va .read false
    s.taskOp g (.gstat d) tok msel va .read 0

/-! ### Queues (R301) -/

/-- The entry that four scalars hold: byte 0 is bits [7:0] of the first. -/
def State.quad (s : State) (gid : Nat) (n : BitVec 8) : Qword :=
  s.sreg gid (n.toNat + 3) ++ s.sreg gid (n.toNat + 2) ++ s.sreg gid (n.toNat + 1) ++ s.sreg gid n.toNat

def execQpush (d a b : BitVec 8) (tok : BitVec 4) (msel : BitVec 3) (s : State) : Out :=
  laneRun s fun g => s.task g msel (.s d.toNat :: .s a.toNat :: quadNeeds b) do
    if s.isBelow g then raise fEgress
    s.queueOp g (.qpush d) tok msel (s.sreg g a.toNat) [s.quad g b]

def execQpop (d a b : BitVec 8) (tok : BitVec 4) (msel : BitVec 3) (s : State) : Out :=
  laneRun s fun g => s.task g msel (quadNeeds d ++ [.s a.toNat, .s b.toNat]) do
    s.queueOp g (.qpop d b) tok msel (s.sreg g a.toNat) []

/-- `qpopw` holds until its queue has an entry, which it then takes; of a queue that does not exist it takes none. -/
def State.popWait (s : State) (gid : Nat) (d : BitVec 8) (id : Word) (tok : BitVec 4) (msel : BitVec 3) : R State :=
  if !(s.hasRoom gid tok) then hold false
  else if s.queueHeld id then hold false
  else if !(s.queueOk id) then s.queueOp gid (.qpopw d) tok msel id []
  else match (s.bq id.toNat).items with
    | [] => holdRow 3
    | e :: es =>
      (s.setBq id.toNat { s.bq id.toNat with items := es }).queueOp gid (.qpopw d) tok msel id [e.bits]

def execQpopw (d a : BitVec 8) (tok : BitVec 4) (msel : BitVec 3) (s : State) : Out :=
  laneRun s fun g => s.task g msel (quadNeeds d ++ [.s a.toNat]) (s.afterStores g (s.popWait g d (s.sreg g a.toNat) tok msel))

/-! ### Child grids (R303) -/

def execLaunch (d a : BitVec 8) (tok : BitVec 4) (msel : BitVec 3) (s : State) : Out :=
  laneRun s fun g => s.task g msel (.s d.toNat :: pairNeeds a) do
    let va := s.spair g a.toNat
    State.taskAlign va 256
    s.taskPage g va .read false
    if 10 ≤ (s.blockOf g).depth then raise fDepth
    if decide (256 ≤ (s.childGrids (s.grp g).blk).length) then holdRow 8
    s.taskOp g (.launch d) tok msel va .read 0

/-- `lwait` (R303): its completion is a device-scope acquire (R292). -/
def State.awaitChild (s : State) (gid : Nat) (h : Word) : R State :=
  if s.childLive (s.grp gid).blk h then holdRow 6
  else .ok ((s.selfInvalidate (s.coreOf gid)).advance gid)

def execLwait (h : SImm) (msel : BitVec 3) (s : State) : Out :=
  laneRun s fun g => s.task g msel (SImm.needs h) (s.afterStores g (s.awaitChild g (s.simm g h)))

end Sys2Proof.Machine
end

