-- ==== Sys2Proof/Machine/Fab.lean ====
section
/-!
DEFINITION. The FAB instructions (R375 to R377).
-/
namespace Sys2Proof.Machine

/-- A long-latency FAB instruction closes the entries of its core that satisfy a test and leaves itself outstanding (R357,
R376). -/
def State.fabOp (s : State) (gid : Nat) (op : AccOp) (tok : BitVec 4) (msel : BitVec 3) (p : WcbEntry → Bool) : R State := do
  s.checkNeeds gid (mselNeeds msel)
  if s.active gid msel == 0 then pure (s.advance gid)
  else
    if !(s.hasRoom gid tok) then hold false
    (s.closeEntries (s.coreOf gid) p).launchAccess gid ((s.grp gid).newAcc s.nextId op tok (s.active gid msel)) [] []

def execFfence (tok : BitVec 4) (msel : BitVec 3) (s : State) : Out :=
  laneRun s fun g => s.fabOp g .ffence tok msel fun e => e.threads.any (ofGroup g)

def execFdrain (tok : BitVec 4) (msel : BitVec 3) (s : State) : Out :=
  laneRun s fun g => s.fabOp g .fdrain tok msel fun _ => true

/-- The value of `jobq` (R377). -/
def State.jobqWord (s : State) (job n : Nat) : Word :=
  match s.job? job with
  | none => 0
  | some j =>
    BitVec.ofNat 32 (match n with
      | 0 => j.spec.chips
      | 1 => j.spec.panel
      | 2 => j.lateLast
      | 3 => j.lateDropped
      | _ => j.switchIns)

/-- An instruction that writes one scalar when a lane is active (R82). -/
def State.scalarOp (s : State) (gid : Nat) (d : BitVec 8) (msel : BitVec 3) (w : Word) : R State := do
  s.checkNeeds gid (.s d.toNat :: mselNeeds msel)
  pure ((if s.active gid msel == 0 then s else s.setSreg gid d.toNat w).advance gid)

def execJobq (n : BitVec 3) (d : BitVec 8) (msel : BitVec 3) (s : State) : Out :=
  laneRun s fun g => s.scalarOp g d msel (s.jobqWord (s.jobOf g) n.toNat)

/-- The operation's lanes are writes that enter the write-combining buffer (R356). -/
def AccOp.posts : AccOp → Bool
  | .store | .red _ _ => true
  | _ => false

/-- The lines of a peer's memory that a copy outwards has still to write (R219). -/
def State.copyLeft (s : State) (c : Copy) : List Nat :=
  ((c.elems c.lines).map fun e => lineOf (s.aheadLoc c.gid .write e.2)).eraseDups.filter fun l => isRemote (128 * l)

/-- Remote writes of a group not yet performed: store lanes and lines of copies still to enter the buffer, open entries and
packets (log entry 50). -/
def State.remoteLeft (s : State) (gid : Nat) : Nat :=
  let lanes := (s.accsOf gid).foldl (fun n a =>
    n + if a.op.posts then ((lanesOf a.left).filter fun L => isRemote (a.addrOf L)).length else 0) 0
  let copies := s.copies.foldl (fun n c => n + if c.out && c.gid == gid then (s.copyLeft c).length else 0) 0
  lanes + copies + (s.unclosed gid).length + (s.unsent gid).length

/-- The word `wcbq` writes (R377). -/
def State.wcbqWord (s : State) (gid : Nat) : Word :=
  BitVec.ofNat 32 (min (s.remoteLeft gid) 0xFFFF * 2 ^ 16 + (s.unclosed gid).length * 2 ^ 8 +
    (s.core (s.coreOf gid)).wcb.length)

def execWcbq (d : BitVec 8) (msel : BitVec 3) (s : State) : Out :=
  laneRun s fun g => s.scalarOp g d msel (s.wcbqWord g)

end Sys2Proof.Machine
end

