-- ==== Sys2Proof/Machine/Sys.lean ====
section
/-!
DEFINITION. The SYS instructions (R345 to R353), the system registers they read and write (R346, R348, R388), and what a
write to one of them makes the Reeve do: answering a fault entry (R335), pre-emption (R336), run-queue registration
(R348).
-/
namespace Sys2Proof.Machine

/-! ### Answering fault entries (R335) -/

/-- The header of a parked block's frame is written again, with the entries still unanswered (R340). -/
def State.refreshHeader (s : State) (b : Nat) : State :=
  match (s.blk b).frame with
  | none => s
  | some f =>
    let f := { f with pend := s.pendOf b }
    let s := s.modBlk b fun k => { k with frame := some f }
    let s := s.combineOver f.addr 128
    { s with mem := Memory.write s.mem f.addr 128 (s.frameHeader b f) }

/-- Every parked member of a stook whose last entry is answered becomes ready to relaunch (R331). -/
def State.answered (s : State) (b : Nat) : State :=
  let s := s.refreshHeader b
  let ms := (s.stk (s.blk b).stook).members
  if ms.all fun m => s.pendOf m == 0 then
    ms.foldl (fun (s : State) m => s.modBlk m fun k => { k with
      frame := k.frame.map fun f => if 3 ≤ f.reason then { f with ready := true } else f }) s
  else s

/-- Remove an entry from the ring: it is answered. -/
def State.dropEntry (s : State) (die idx : Nat) : State :=
  s.modDie die fun d => { d with fq := Tbl.del d.fq idx }

/-- *Resolve*: the access replays on restore (R335). -/
def State.resolveEntry (s : State) (die idx : Nat) : State :=
  match Tbl.find (s.die die).fq idx with
  | none => s
  | some e =>
    let s := s.dropEntry die idx
    if (Tbl.find s.blocks e.blk).isSome then s.answered e.blk else s

/-- The page-fatal fault of a cancelled entry (R335). -/
def FqEntry.flt (e : FqEntry) : Flt := { code := fPageFatal, info := 4, lane := e.lane, addr := e.va }

/-- Bytes of a line of a cancelled copy: each old or copied (R220), by combining reads in a commutative range (R155). -/
def State.freeLine (s : State) (c : Copy) (line : Nat) : State :=
  let es := c.record.lineElems c.off line
  let job := s.jobOf c.gid
  es.foldl (fun (s : State) e =>
    let n := c.record.esize
    let read := match c.record.elemAt c.org e.2 with
      | none => (c.record.pad.toNat, s)
      | some va => match s.pageEntry job va with
        | some p => s.readThere job va (p.loc va) n
        | none => ((Config.freeWord s.freeCount).toNat, s)
    let new := read.1
    let s := read.2
    let old := s.scratchRead c.blk e.1 n
    let s := s.useFree 1
    s.scratchWrite c.blk e.1 n (if s.free then new % 256 ^ n else old)) s

/-- A copy whose fault is cancelled: its group takes page-fatal at its next boundary, its unfinished lines become present
(R220), and it is over. -/
def State.cancelCopy (s : State) (e : FqEntry) : State :=
  match s.copies.find? fun c => c.id == e.copy with
  | none => s
  | some c =>
    let s := s.boundary c.gid e.flt
    if c.out then (s.modCopy c.id fun x => { x with lines := [] }).finishCopies
    else c.lines.foldl (fun (s : State) l => (s.freeLine c l).lineMoved c l) s

/-- The slice ends with a cancelled fault (R227, R335); the entry it was filling is discarded. -/
def State.cancelSlice (s : State) (e : FqEntry) : State :=
  (s.modGrp e.gid fun g => { g with
      slice := { g.slice with st := .ended, faulted := true, fcode := fPageFatal, held := false, clause := none },
      queues := g.queues.map fun q => (q.1, q.2.filter fun x => x.full) }).boundary e.gid e.flt

/-- The stream of a block ends with a cancelled fault (R233, R335). -/
def State.cancelStream (s : State) (e : FqEntry) : State :=
  let stop := fun (t : Thresher) => { t with st := .faulted, fcode := fPageFatal, fpc := e.pc, clause := none }
  let k := s.blk e.blk
  let s := s.modBlk e.blk fun k => { k with thrSave := k.thrSave.map stop }
  let s := if (s.core k.core).thr.holder == some e.blk then s.modCore k.core fun c => { c with thr := stop c.thr } else s
  k.gids.foldl (fun (s : State) g => if (s.grp g).retired then s else s.boundary g e.flt) s

/-- *Cancel*: the access becomes the page-fatal fault (R335). -/
def State.cancelEntry (s : State) (die idx : Nat) : State :=
  match Tbl.find (s.die die).fq idx with
  | none => s
  | some e =>
    let s := s.dropEntry die idx
    if (Tbl.find s.blocks e.blk).isNone then s
    else
    let s :=
      if e.halt != .again && e.copy != 0 then s.cancelCopy e
      else if e.kind == 8 then s.cancelStream e
      else if e.halt != .other then
        let acc := if e.halt == .again then e.copy else 0
        let c : Cancelled := { gid := e.gid, acc := acc, addr := e.va, lane := e.lane, trap := e.halt == .trap }
        s.modBlk e.blk fun k => { k with cancelled := k.cancelled ++ [c] }
      else s.cancelSlice e
    s.answered e.blk

/-! ### Pre-emption (R336) -/

/-- Pre-empt the stooks of the resident blocks that satisfy a test. -/
def State.preempt (s : State) (p : Nat × Block → Bool) : State :=
  let ks := ((s.blocks.filter fun b => b.2.resident && p b).map fun b => b.2.stook).eraseDups
  ks.foldl (fun (s : State) k => s.parkStook k 4 0) s

/-- The live grid that a PREEMPT number names: its launch queue and ring index (R346). -/
def State.gridNumbered (s : State) (num : BitVec 30) : Option Nat :=
  if num.extractLsb' 16 8 != 0 then none
  else (s.grids.find? fun g =>
    !g.2.done && !g.2.isTask && g.2.parent.isNone && g.2.queue == num.toNat / 2 ^ 24 && g.2.ring == num.toNat % 2 ^ 16).map
      fun g => g.1

def State.preemptJob (s : State) (job : Nat) : State := s.preempt fun b => b.2.job == job

def State.preemptGrid (s : State) (num : BitVec 30) : State :=
  match s.gridNumbered num with
  | none => s
  | some g =>
    let gs := s.gridTree (s.grids.length + 1) [g]
    s.preempt fun b => gs.contains b.2.grid

def State.preemptCore (s : State) (core : Nat) : State := s.preempt fun b => b.2.core == core

/-- A write to PREEMPT (R346). -/
def State.preemptWrite (s : State) (v : Word) : State :=
  let n := v.toNat % 2 ^ 30
  match v.toNat / 2 ^ 30 with
  | 1 => s.preemptJob n
  | 2 => s.preemptGrid (BitVec.ofNat 30 n)
  | 3 => s.preemptCore n
  | _ => s

/-! ### Run queues (R348) -/

def State.registerQueue (s : State) (q : Nat) : State :=
  if s.runqs.contains q || decide (64 ≤ s.runqs.length) then s else { s with runqs := s.runqs ++ [q] }

def State.deregisterQueue (s : State) (q : Nat) : State := { s with runqs := s.runqs.filter (· != q) }

/-- A write to RQREG. -/
def State.rqregWrite (s : State) (v : Word) : State :=
  match v.toNat / 2 ^ 30 with
  | 1 => s.registerQueue (v.toNat % 65536)
  | 2 => s.deregisterQueue (v.toNat % 65536)
  | _ => s

/-- A write to FQCMD (R335). -/
def State.fqcmdWrite (s : State) (die : Nat) (v : Word) : State :=
  match v.toNat / 2 ^ 30 with
  | 1 => s.resolveEntry die (v.toNat % 4096)
  | 2 => s.cancelEntry die (v.toNat % 4096)
  | _ => s

/-! ### System registers (R346, R348, R388) -/

/-- How a system register may be accessed. -/
inductive SysAccess where
  /-- read by any job, never written -/
  | read
  /-- read by any job; written while inh = 1 -/
  | trapPc
  /-- read by any job, written by the firmware job -/
  | shared
  /-- read and written by the firmware job -/
  | firm
  /-- read by the firmware job, never written -/
  | firmRead
  /-- written by the firmware job, never read -/
  | firmWrite
  deriving DecidableEq, Repr

/-- The access of a register's index; none for an index in neither table. -/
def sysAccess (n : Nat) : Option SysAccess :=
  if n ≤ 0x04 then some .read
  else if n ≤ 0x06 then some .trapPc
  else if n == 0x07 || n == 0x0A || n == 0x13 then some .read
  else if n == 0x08 || n == 0x09 || n == 0x0B then some .shared
  else if n == 0x0C || n == 0x0F || n == 0x10 || n == 0x12 then some .firm
  else if n == 0x0D then some .firmRead
  else if n == 0x0E || n == 0x11 || n == 0x18 then some .firmWrite
  else if n ≤ 0x1C then some .firm
  else if n ≤ 0x1F then some .read
  else if n == 0x20 || n == 0x22 || n == 0x23 then some .firm
  else if n ≤ 0x25 then some .read
  else none

/-- A read is refused (R346): job 0 is the firmware job. -/
def SysAccess.readRefused (a : SysAccess) (job : Nat) : Bool :=
  match a with
  | .read => false
  | .trapPc => false
  | .shared => false
  | .firm => job != 0
  | .firmRead => job != 0
  | .firmWrite => true

/-- A write is refused (R346). -/
def SysAccess.writeRefused (a : SysAccess) (job : Nat) (inh : Bool) : Bool :=
  match a with
  | .read => true
  | .firmRead => true
  | .trapPc => !inh
  | .shared => job != 0
  | .firm => job != 0
  | .firmWrite => job != 0

/-- A core's clock in MHz (R388). -/
def Core.mhz (c : Core) : Nat := 2100 - 25 * c.derate

/-- A core's margin under the plan in force (R388; log entry 16). -/
def State.margin (s : State) (core : Nat) : BitVec 16 :=
  Config.margin core s.time (s.core core).voff (s.core core).derate

/-- The contents of a system register as a block of a job on a core reads it; `g` is the reading group. What the
monitors measure is free (log entry 16). -/
def State.sysReg (s : State) (g : Group) (job core n : Nat) : Word :=
  let d := s.die (dieOf core)
  let q := s.bq s.qsel.toNat
  let f := s.die s.fpsel.toNat
  let a := s.core s.almsel.toNat
  match n with
  | 0x00 => g.fcode.setWidth 32
  | 0x01 => g.finfo.setWidth 32
  | 0x02 => g.flane.setWidth 32
  | 0x03 => lowWord g.faddr
  | 0x04 => highWord g.faddr
  | 0x05 => lowWord g.fpc
  | 0x06 => highWord g.fpc
  | 0x07 => lowWord g.fhdr
  | 0x08 => s.parkth
  | 0x09 => s.admitReg
  | 0x0A => BitVec.ofNat 32 (s.core core).mhz
  | 0x0B => s.wdog
  | 0x0C => BitVec.ofNat 32 d.fqHead
  | 0x0D => BitVec.ofNat 32 d.fqTail
  | 0x0F => lowWord d.fqBase
  | 0x10 => highWord d.fqBase
  | 0x12 => s.migr
  | 0x13 => highWord g.fhdr
  | 0x14 => s.qsel
  | 0x15 => lowWord q.base
  | 0x16 => highWord q.base
  | 0x17 => BitVec.ofNat 32 q.cap
  | 0x19 => s.fpsel
  | 0x1A => lowWord f.fpBase
  | 0x1B => highWord f.fpBase
  | 0x1C => BitVec.ofNat 32 f.fpSize
  | 0x1D => BitVec.ofNat 32 (s.arena job).1
  | 0x1E => BitVec.ofNat 32 ((s.arena job).1 / 2 ^ 32)
  | 0x1F => BitVec.ofNat 32 (s.arena job).2
  | 0x20 => s.almsel
  | 0x21 => (s.margin s.almsel.toNat).setWidth 32
  | 0x22 => BitVec.ofNat 32 a.voffNext
  | 0x23 => BitVec.ofNat 32 a.derateNext
  | 0x24 => BitVec.ofNat 32 (Config.hoursBefore s.almsel.toNat + s.time / 3600000000000)
  | 0x25 =>
    let pending := s.cores.any fun c => c.2.voff != c.2.voffNext || c.2.derate != c.2.derateNext
    (if pending then 1 else 0) ||| (if (List.range 256).any fun c => (s.margin c).msb then 2 else 0)
  | _ => 0

/-- Replace the low or high word of a 64-bit register. -/
def putLow (x : Dword) (w : Word) : Dword := pairOf w (highWord x)
def putHigh (x : Dword) (w : Word) : Dword := pairOf (lowWord x) w

/-- Change the selected queue, unless it holds entries (R348). -/
def State.modQueue (s : State) (f : BQueue → BQueue) : State :=
  let q := s.qsel.toNat
  if (s.bq q).items.isEmpty then s.setBq q (f (s.bq q)) else s

/-- 0, or a power of two from 2 to 65,536 (R348). -/
def capOk (v : Word) : Bool := v == 0 || ((List.range 16).any fun i => v.toNat == 2 ^ (i + 1))

/-- A write to a configuration register that has been let through (R346, R348, R388). A value outside the limits of its
register has no effect (log entry 22). -/
def State.setSysReg (s : State) (core n : Nat) (v : Word) : State :=
  let die := dieOf core
  match n with
  | 0x08 => if decide (1 ≤ v.toNat) && decide (v.toNat ≤ 10000) then { s with parkth := v } else s
  | 0x09 => if decide (8 ≤ v.toNat) && decide (v.toNat ≤ 16) then { s with admitReg := v } else s
  | 0x0B => { s with wdog := v }
  | 0x0C => if v.toNat < 4096 then s.modDie die fun d => { d with fqHead := v.toNat } else s
  | 0x0E => s.fqcmdWrite die v
  | 0x0F => if v.toNat % 128 == 0 then s.modDie die fun d => { d with fqBase := putLow d.fqBase v } else s
  | 0x10 => s.modDie die fun d => { d with fqBase := putHigh d.fqBase v }
  | 0x11 => s.preemptWrite v
  | 0x12 => { s with migr := v &&& 1 }
  | 0x14 => if v.toNat < 65536 then { s with qsel := v } else s
  | 0x15 => if v.toNat % 128 == 0 then s.modQueue fun q => { q with base := putLow q.base v } else s
  | 0x16 => s.modQueue fun q => { q with base := putHigh q.base v }
  | 0x17 => if capOk v then s.modQueue fun q => { q with cap := v.toNat } else s
  | 0x18 => s.rqregWrite v
  | 0x19 => if v.toNat < 4 then { s with fpsel := v } else s
  | 0x1A => if v.toNat % 128 == 0 then s.modDie s.fpsel.toNat fun d => { d with fpBase := putLow d.fpBase v } else s
  | 0x1B => s.modDie s.fpsel.toNat fun d => { d with fpBase := putHigh d.fpBase v }
  | 0x1C => if v.toNat < 65536 then s.modDie s.fpsel.toNat fun d => { d with fpSize := v.toNat } else s
  | 0x20 => if v.toNat < 256 then { s with almsel := v } else s
  | 0x22 => if v.toNat ≤ 40 then s.modCore s.almsel.toNat fun c => { c with voffNext := v.toNat } else s
  | 0x23 => if v.toNat ≤ 40 then s.modCore s.almsel.toNat fun c => { c with derateNext := v.toNat } else s
  | _ => s

def execSysrd (n : BitVec 8) (d : BitVec 8) (msel : BitVec 3) (s : State) : Out :=
  laneRun s fun g =>
    match sysAccess n.toNat with
    | none => raise fIllegalInstr
    | some a => do
      let act := s.active g msel != 0
      if act && a.readRefused (s.jobOf g) then raise fIllegalInstr
      s.checkNeeds g (.s d.toNat :: mselNeeds msel)
      let w := s.sysReg (s.grp g) (s.jobOf g) (s.coreOf g) n.toNat
      pure ((if act then s.setSreg g d.toNat w else s).advance g)

/-- FPC (R346), which only the group's trap handler writes. -/
def Group.setFpc (g : Group) (n : Nat) (v : Word) : Group :=
  if n == 0x05 then { g with fpc := putLow g.fpc v } else if n == 0x06 then { g with fpc := putHigh g.fpc v } else g

def execSyswr (n : BitVec 8) (a : SImm) (msel : BitVec 3) (s : State) : Out :=
  laneRun s fun g =>
    match sysAccess n.toNat with
    | none => raise fIllegalInstr
    | some k => do
      let act := s.active g msel != 0
      if act && k.writeRefused (s.jobOf g) (s.grp g).inh then raise fIllegalInstr
      s.checkNeeds g (SImm.needs a ++ mselNeeds msel)
      if act then
        let v := s.simm g a
        pure (((s.modGrp g fun x => x.setFpc n.toNat v).advance g).setSysReg (s.coreOf g) n.toNat v)
      else pure (s.advance g)

/-! ### The other SYS instructions (R349 to R353) -/

def execEret (nxt : Bool) (msel : BitVec 3) (s : State) : Out :=
  laneRun s fun g => do
    if !(s.grp g).atLast then raise fIllegalInstr
    s.checkNeeds g (mselNeeds msel)
    if s.active g msel == 0 then pure (s.advance g) else s.returnFrom g nxt

def execClock (d : BitVec 8) (msel : BitVec 3) (s : State) : Out :=
  laneRun s fun g => do
    s.checkNeeds g (pairNeeds d ++ mselNeeds msel)
    let t := if s.active g msel == 0 then s
      else s.setSpair g d.toNat (BitVec.ofNat 64 (s.clk (s.coreOf g)))
    pure (t.advance g)

/-- The run of a cluster ends with its clause (R62). -/
def Group.endRun (g : Group) : Group :=
  let c := g.clause!
  (g.setPcs g.curLanes fun _ => nextHeader c.hdr c.head).endClause true 0 0

/-- The time at which the timer of `park` expires (R351). -/
def State.parkTimer (s : State) (a : Word) : Nat := s.time + 1000 * min a.toNat 10000000

def execPark (a : SImm) (msel : BitVec 3) (s : State) : Out :=
  laneRun s fun g => do
    if !(s.grp g).atLast then raise fIllegalInstr
    s.checkNeeds g (SImm.needs a ++ mselNeeds msel)
    if s.active g msel == 0 then pure (s.advance g)
    else pure ((s.modGrp g Group.endRun).parkStook (s.blockOf g).stook 2 (s.parkTimer (s.simm g a)))

def execAbort (n : BitVec 8) (msel : BitVec 3) (s : State) : Out :=
  laneRun s fun g => do
    s.checkNeeds g (mselNeeds msel)
    if s.active g msel == 0 then pure (s.advance g)
    else pure ((s.modGrp g fun x => { x with fcode := fTrap, finfo := n }).failWork g fTrap)

def execBrk (n : BitVec 8) (msel : BitVec 3) (s : State) : Out :=
  laneRun s fun g => do
    s.checkNeeds g (mselNeeds msel)
    if s.active g msel == 0 then pure (s.advance g)
    else .error (.flt { code := fBreak, info := n, lane := 64, addr := 0 })

def execIcinv (msel : BitVec 3) (s : State) : Out :=
  laneRun s fun g => do
    s.checkNeeds g (mselNeeds msel)
    if s.active g msel == 0 then pure (s.advance g)
    else s.afterStores g (.ok ((s.modCore (s.coreOf g) fun c => { c with icache := [] }).advance g))

/-- The translations of a job that satisfy a test leave a core (R353). -/
def State.dropTlb (s : State) (core job : Nat) (p : Pte → Bool) : State :=
  s.modCore core fun c => { c with
    tlb := c.tlb.filter fun e => !(e.job == job && p e), walkTlb := c.walkTlb.filter fun e => !(e.job == job && p e) }

def execTlbinv (msel : BitVec 3) (s : State) : Out :=
  laneRun s fun g => do
    s.checkNeeds g (mselNeeds msel)
    if s.active g msel == 0 then pure (s.advance g)
    else pure ((s.dropTlb (s.coreOf g) (s.jobOf g) fun _ => true).advance g)

def execTlbinvVa (a : BitVec 8) (msel : BitVec 3) (s : State) : Out :=
  laneRun s fun g => do
    s.checkNeeds g (pairNeeds a ++ mselNeeds msel)
    if s.active g msel == 0 then pure (s.advance g)
    else do
      let va := s.spair g a.toNat
      if !(canonical va) then raiseAt fPageFatal 64 va
      pure ((s.dropTlb (s.coreOf g) (s.jobOf g) fun e => e.covers (s.jobOf g) va.toNat).advance g)

end Sys2Proof.Machine
end

