-- ==== Sys2Proof/Machine/Place.lean ====
section
/-!
DEFINITION. Launch queues, placement and restore (R308 to R319, R333, R382): accepting records, the fit test, where a
block or stook goes, how its state is set up, and PLACEMENT_DECISION.
-/
namespace Sys2Proof.Machine

/-! ### The fit test (R316, R317, R339) -/

/-- Group slots of a core that its resident blocks hold. -/
def State.usedSlots (s : State) (core : Nat) : List Nat := (s.residents core).flatMap fun b => b.2.slots

/-- The slots a block's groups take, and all it keeps (R317). -/
def takeSlots (used : List Nat) (r : LRec) : Option (List Nat × List Nat) :=
  if r.ext then
    let pairs := ((List.range 32).filter fun k => !used.contains (2 * k) && !used.contains (2 * k + 1)).take ((r.groups + 1) / 2)
    let all := pairs.flatMap fun k => [2 * k, 2 * k + 1]
    if pairs.length == (r.groups + 1) / 2 then some (all.take r.groups, all) else none
  else
    let free := ((List.range 64).filter fun k => !used.contains k).take r.groups
    if free.length == r.groups then some (free, free) else none

def sumOf (rs : List LRec) (f : LRec → Nat) : Nat := rs.foldl (fun n r => n + f r) 0

/-- The scratchpad row of R316, with the rules of R140 to R142. -/
def carveFits (rs : List LRec) (r : LRec) : Bool :=
  match r.carve with
  | 1 => rs.all (fun x => x.carve != 2 && (x.carve != 1 || x.menus == r.menus)) &&
      decide (sumOf (rs.filter fun x => x.carve == 1) (fun x => 4 * x.carven) + 4 * r.carven ≤ r.menuKib)
  | 2 => rs.all (fun x => x.carve != 1) &&
      decide (sumOf (rs.filter fun x => x.carve == 2) (fun x => x.carven / 32) + r.carven / 32 ≤ 14)
  | _ => true

/-- L1 capacity in KiB of a core that holds blocks of the given records (R321). -/
def l1Kib (rs : List LRec) : Nat :=
  2048 - (match rs.find? fun x => x.carve == 1 with
    | some x => x.menuKib
    | none => sumOf (rs.filter fun x => x.carve == 2) fun x => 4 * x.carven)

/-- The admission factor ov (R321). -/
def State.ov (s : State) : Nat := s.admitReg.toNat % 32

/-- Every row of R316 for a core with the given residents and slots in use; `free`: no block holds its Thresher. -/
def coreFits (rs : List LRec) (used : List Nat) (free : Bool) (ov : Nat) (r : LRec) : Bool :=
  (takeSlots used r).isSome &&
  decide (sumOf rs (fun x => x.groups * x.rounded) + r.groups * r.rounded ≤ 4096) &&
  decide (sumOf rs (fun x => x.groups * x.scalars) + r.groups * r.scalars ≤ 16384) &&
  carveFits rs r && (!r.thr || (free && rs.all fun x => !x.thr)) &&
  decide (r.groups * r.lease * 4 * 8 ≤ l1Kib (rs ++ [r]) * ov)

/-- The block fits an empty core (R309). -/
def State.fitsEmpty (s : State) (r : LRec) : Bool := coreFits [] [] true s.ov r

/-- The block fits a core; a frame that holds a reservation needs a free Thresher (R333). -/
def State.fitsCore (s : State) (core : Nat) (r : LRec) (resv : Bool) : Bool :=
  let c := s.core core
  coreFits ((s.residents core).map fun b => b.2.record) (s.usedSlots core) c.thr.holder.isNone s.ov r &&
    (!resv || c.thr.holder.isNone)

/-- Places for `n` frames of a size in a die's pool, clear of the frames already reserved there (R339). -/
def State.framesFor (s : State) (die size : Nat) : Nat → List (Nat × Nat) → Option (List Nat)
  | 0, _ => some []
  | n + 1, taken =>
    let d := s.die die
    let used := ((s.blocks.filter fun b => b.2.fSize != 0).map fun b => (b.2.fAddr, b.2.fSize)) ++ taken
    let starts := d.fpBase.toNat :: used.map fun u => align128 (u.1 + u.2)
    let ok := fun a => decide (d.fpBase.toNat ≤ a) && decide (a + size ≤ d.fpBase.toNat + d.fpSize * 2 ^ 20) &&
      used.all fun u => !(overlap a size u.1 u.2)
    match starts.find? ok with
    | none => none
    | some a => (State.framesFor s die size n (taken ++ [(a, size)])).map fun l => a :: l

/-! ### Where a unit goes (R318) -/

/-- The number of the list that is least by a measure, the first among equals. -/
def leastBy (f : Nat → Nat) : List Nat → Option Nat
  | [] => none
  | a :: t => match leastBy f t with
    | some b => if f b < f a then some b else some a
    | none => some a

/-- Resident groups of a core (R318). -/
def State.load (s : State) (core : Nat) : Nat := ((s.residents core).map fun b => b.2.record.groups).foldl (· + ·) 0

def State.freeSlots (s : State) (core : Nat) : Nat := 64 - (s.usedSlots core).length

def coresOf (die : Nat) : List Nat := (List.range 64).map fun i => 64 * die + i
def baysOf (die : Nat) : List Nat := (List.range 16).map fun i => 16 * die + i
def bayCores (bay : Nat) : List Nat := (List.range 4).map fun i => 4 * bay + i

/-- Free slots by which a die is chosen: all its cores', or for a stook those of its freest bay. -/
def State.dieFree (s : State) (stook : Bool) (die : Nat) : Nat :=
  let sum := fun l => (l.map s.freeSlots).foldl (· + ·) 0
  if stook then ((baysOf die).map fun b => sum (bayCores b)).foldl Nat.max 0 else sum (coresOf die)

/-- The dies that run (R386). -/
def State.running (s : State) (die : Nat) : Bool :=
  match s.dieReset with
  | some d => d.die != die
  | none => true

/-- Dies in the order R318 tries them. -/
def State.dieOrder (s : State) (stook : Bool) : List Nat :=
  sortBy (fun d => 4096 - s.dieFree stook d) ((List.range 4).filter s.running)

/-- Members of a stook on distinct cores, each to the least-loaded one left that fits it (R318). -/
def State.bayAssign (s : State) (r : LRec) (resv : List Bool) (cores : List Nat) : Option (List Nat) :=
  match resv with
  | [] => some []
  | v :: vs =>
    match leastBy s.load (cores.filter fun c => s.fitsCore c r v) with
    | none => none
    | some c => (s.bayAssign r vs (cores.filter (· != c))).map fun l => c :: l

/-- The cores of a die that a unit of members takes, if it fits there: `resv` says of each member whether it brings a
reservation. -/
def State.dieAssign (s : State) (r : LRec) (resv : List Bool) (die : Nat) : Option (List Nat) :=
  match resv with
  | [v] => (leastBy s.load ((coresOf die).filter fun c => s.fitsCore c r v)).map fun c => [c]
  | _ =>
    let bays := sortBy (fun b => ((bayCores b).map s.load).foldl (· + ·) 0) (baysOf die)
    bays.findSome? fun b => s.bayAssign r resv (bayCores b)

/-- Where a unit goes: its cores, and the address of a frame for each member. A frame's own die needs no new place. -/
def State.assign (s : State) (r : LRec) (resv : List Bool) (old : Option (Nat × List Nat)) : Option (List (Nat × Nat)) :=
  (s.dieOrder (decide (1 < resv.length))).findSome? fun d =>
    match s.dieAssign r resv d with
    | none => none
    | some cs =>
      let fs := match old with
        | some o => if o.1 == d then some o.2 else s.framesFor d r.frameSize resv.length []
        | none => s.framesFor d r.frameSize resv.length []
      fs.map fun l => cs.zip l

/-! ### Setting up a block (R319) -/

/-- L1 lines beyond the ways a core has left are displaced as replacement would choose (R140, R141). -/
def State.trimSet (s : State) (core set : Nat) : Nat → State
  | 0 => s
  | n + 1 =>
    let ls := (s.core core).l1.filter fun l => l.1 % 1024 == set
    if ls.length ≤ s.l1Ways core then s
    else match victimOf ls with
      | some v => State.trimSet (s.evictLine core v.1) core set n
      | none => s

def State.trimL1 (s : State) (core : Nat) : State :=
  (((s.core core).l1.map fun l => l.1 % 1024).eraseDups).foldl (fun s set => s.trimSet core set 16) s

/-- Argument word `i` of a block (R14); of an address no page of the job covers, a free value. -/
def State.argWord (s : State) (job : Nat) (args : Dword) (i : Nat) : Word :=
  let va := args.toNat + 4 * i
  match s.pageEntry job va with
  | some p => BitVec.ofNat 32 (s.readThere job va (p.loc va) 4).1
  | none => Config.freeWord (s.freeCount + i)

/-- The argument words have been read, by combining reads in a commutative range (R155). -/
def State.readArgs (s : State) (job : Nat) (args : Dword) : State :=
  (List.range 32).foldl (fun (s : State) i =>
    match s.pageEntry job (args.toNat + 4 * i) with
    | some p => (s.readThere job (args.toNat + 4 * i) (p.loc (args.toNat + 4 * i)) 4).2
    | none => s) s

/-- The first 32 argument words; a handler's first two are the faulted task and its code (R286). -/
def State.argWords (s : State) (job : Nat) (args : Dword) (words : Option (Word × Word)) : List Word :=
  (List.range 32).map fun i => match words with
    | some w => if i == 0 then w.1 else if i == 1 then w.2 else s.argWord job args i
    | none => s.argWord job args i

/-- Slack register `j` of a group: each lane 0 or all ones (R13). -/
def State.slack (s : State) (base j : Nat) : VReg :=
  { lanes := Lanes.make fun L => if Config.freeBit (s.freeCount + base + 64 * j + L) then BitVec.allOnes 32 else 0, tag := .b32 }

/-- A group's access slice at spawn (R222). -/
def spawnSlice (r : LRec) (args : List Word) (group x y z : Nat) : Slice :=
  if r.slice == 0 then Slice.absent
  else
    let pairs := (List.range 16).map fun i => (i, pairOf (args.getD (2 * i) 0) (args.getD (2 * i + 1) 0))
    { Slice.absent with
      st := .running, pc := r.slice,
      xs := pairs ++ [(16, BitVec.ofNat 64 group), (17, BitVec.ofNat 64 x), (18, BitVec.ofNat 64 y), (19, BitVec.ofNat 64 z)] }

/-- A group at launch (R14, R60, R319). -/
def State.newGroup (s : State) (b idx slot : Nat) (r : LRec) (args : List Word) (x y z : Nat) : Group :=
  { Group.empty with
    blk := b, idx := idx, slot := slot, pcs := List.replicate 64 r.entry, mrs := List.replicate 64 Config.noMeeting,
    cur := some { lanes := BitVec.allOnes 64, age := 0, res := 0 },
    sregs := (List.range 32).zip args,
    vregs := ((List.range r.rounded).filter fun n => decide (r.regs ≤ n)).map fun n => (n, s.slack (512 * idx) (n - r.regs)),
    lease := r.lease, leaseNext := r.lease, slice := spawnSlice r args idx x y z }

/-- What is common to the members of a unit that is placed. -/
structure Launch where
  grid : Nat
  job : Nat
  task : Nat
  depth : Nat
  age : Nat
  record : LRec
  number : Nat
  stook : Nat
  words : Option (Word × Word)
  deriving DecidableEq, Repr

/-- The lease windows of a core that holds no block have gone by (R321). -/
def State.catchUp (s : State) (core : Nat) : State :=
  if (s.residents core).isEmpty && decide (4096 * (s.core core).windows < s.clk core) then
    s.modCore core fun c => { c with windows := (s.clk core + 4095) / 4096, checks := s.clk core % 4096 / 256 }
  else s

/-- A member of a unit starts on a core. -/
def State.startBlock (s : State) (l : Launch) (sidx core frame : Nat) : State :=
  let s := s.catchUp core
  let r := l.record
  let b := s.nextId
  let gids := (List.range r.groups).map fun i => b + 1 + i
  let slots := (takeSlots (s.usedSlots core) r).getD ([], [])
  let x := l.number % r.gridx
  let y := l.number / r.gridx % r.gridy
  let z := l.number / (r.gridx * r.gridy)
  let args := s.argWords l.job r.args l.words
  let s := s.readArgs l.job r.args
  let k : Block := { Block.empty with
    grid := l.grid, job := l.job, core := core, resident := true, fAddr := frame, fSize := r.frameSize, stook := l.stook,
    sidx := sidx, bx := x, by' := y, bz := z,
    lin := if (s.grid l.grid).isTask then 0 else l.number * r.stook + sidx, record := r, task := l.task,
    depth := l.depth, age := l.age, since := s.clk core, gids := gids, slots := slots.2 }
  let gs := (List.range r.groups).map fun i => (b + 1 + i, s.newGroup b i (slots.1.getD i 0) r args x y z)
  let s := { s with nextId := b + 1 + r.groups, groups := gs.foldl (fun (t : Tbl Group) (g : Nat × Group) => Tbl.put t g.1 g.2) s.groups }
  let s := (s.setBlk b k).useFree (32 + 512 * r.groups)
  -- a pair of slots that passes to another block holds zeros (R16)
  let s := s.modCore core fun c => { c with
    ext := (slots.2.map (· / 2)).eraseDups.foldl (fun t p => Tbl.put t p { ExtPair.zero with blk := b }) c.ext }
  (s.trimL1 core).setStk l.stook { s.stk l.stook with members := (s.stk l.stook).members ++ [b] }

/-- A unit starts: its members in ascending $stook order. -/
def State.startUnit (s : State) (l : Launch) (cores : List (Nat × Nat)) : State :=
  let l := { l with stook := s.nextId }
  let s : State := { s with nextId := s.nextId + 1 }
  ((List.range cores.length).zip cores).foldl (fun s c => s.startBlock l c.1 c.2.1 c.2.2) s

/-! ### Restoring frames (R333) -/

/-- The access that an abandoned instruction makes to a page, and the kind of its fault entry (R334). -/
def AccOp.checks : AccOp → Option (Perm × BitVec 4)
  | .load _ | .loadConst _ | .loadWait _ => some (.read, 0)
  | .store => some (.write, 1)
  | .atom _ _ _ | .cas _ | .red _ _ | .cred => some (.both, 2)
  | .rrec => some (.read, 4)
  | .tspawn _ | .tsig | .grange _ | .grel _ => some (.write, 9)
  | .promote _ | .retract | .gstat _ | .launch _ => some (.read, 9)
  | .sload _ | .sstore | .flushr | .invr | .qpush _ | .qpop _ _ | .qpopw _ | .ffence | .fdrain => none

/-- Addresses of an abandoned access are translated again. -/
def State.retranslate (s : State) (job : Nat) (a : Acc) : Acc :=
  if a.op.scratch then a
  else { a with addr := (List.range a.addr.length).map fun L =>
    match s.pageEntry job (a.vaOf L).toNat with
    | some p => p.loc (a.vaOf L).toNat
    | none => a.addrOf L }

/-- An outstanding instruction of a restored block: one that a job switch kept, or whose lanes are done, goes on as it is (R372);
any other was abandoned, and is translated and checked again (R333). -/
def State.restoreAcc (s : State) (job : Nat) (a : Acc) : Acc :=
  if a.st == .kept || (a.op.perLane && a.left == 0) then { a with st := .flying, waiting := false }
  else { s.retranslate job a with st := if a.op.checks.isSome then .abandoned else .flying, waiting := false }

/-- A group of a restored block: its new slot, its held clause's waits to be applied again, its lock taken again. -/
def State.restoreGroup (s : State) (core gid slot : Nat) : State :=
  let g := s.grp gid
  let job := s.jobOf gid
  let g' : Group := { g with
    slot := slot, admitted := false, resumed := g.clause.isSome,
    clause := g.clause.map fun c => { c with latches := [] },
    out := g.out.map (s.restoreAcc job),
    lockSaved := false, hits := 0, misses := 0, touched := [], skipped := 0 }
  let s := s.setGrp gid g'
  if g.lockSaved then
    let regs := (Tbl.find (s.blockOf gid).extSave (g.idx / 2)).getD []
    s.modCore core fun c => { c with ext := Tbl.put c.ext (slot / 2) { regs := regs, holder := some gid, blk := g.blk } }
  else s

/-- A frame is restored to a core (R244, R333). -/
def State.restoreBlock (s : State) (b core frame : Nat) : State :=
  let s := s.catchUp core
  let k := s.blk b
  let slots := (takeSlots (s.usedSlots core) k.record).getD ([], [])
  let s := s.setBlk b { k with
    core := core, resident := true, frame := none, fAddr := frame, since := s.clk core, slots := slots.2, thrSave := none }
  let s := s.modCore core fun c => { c with
    ext := (slots.2.map (· / 2)).eraseDups.foldl (fun t p => Tbl.put t p { ExtPair.zero with blk := b }) c.ext }
  let s := ((List.range k.gids.length).zip k.gids).foldl (fun s g => s.restoreGroup core g.2 (slots.1.getD g.1 0)) s
  let s := s.modBlk b fun k => { k with extSave := [] }
  let s := match k.thrSave with
    | none => s
    | some t => s.modCore core fun c => { c with
        thr := { t with holder := some b, slots := [], sets := t.sets.map fun (x : Nat × SetRec) => (x.1, { x.2 with valid := false }) } }
  (s.selfInvalidate core).trimL1 core

/-- An abandoned instruction is issued again with its checks (R333): the lowest lane left whose page is missing or forbidden. -/
def State.recheck (s : State) (gid : Nat) (a : Acc) : Option (Nat × BitVec 8 × BitVec 4) :=
  match a.op.checks with
  | none => none
  | some c =>
    let w := fun L => s.walk (s.coreOf gid) (s.jobOf gid) (a.vaOf L).toNat c.1
    let ls := if a.op.perLane then lanesOf a.left else [0]
    match ls.find? fun L => (w L).isMissing with
    | some L => some (L, fPageMissing, c.2)
    | none => (ls.find? fun L => (w L).isDenied).map fun L => (L, fPagePerm, c.2)

/-- A cancelled entry's abandoned instruction is over, and its fault is taken at that instruction (R335). -/
def State.dropCancelled (s : State) (gid : Nat) (c : Cancelled) : State :=
  let s := s.modBlk (s.grp gid).blk fun k => { k with cancelled := k.cancelled.erase c }
  match (s.grp gid).out.find? fun a => a.id == c.acc with
  | none => s
  | some a =>
    (s.modGrp gid fun g => { g.subToken a.tok with out := g.out.filter fun b => b.id != a.id }).takeFault gid
      { code := fPageFatal, info := 4, lane := c.lane, addr := c.addr } a.pc a.hdr

/-- A lane left of an abandoned instruction now names a chip outside the job (R354). -/
def State.nowOutside (s : State) (gid : Nat) (a : Acc) : Bool :=
  !a.op.scratch && (if a.op.perLane then lanesOf a.left else [0]).any fun L => s.outsideJob (s.jobOf gid) (a.addrOf L)

/-- The abandoned instructions of a group that pass their checks again are on their way; one that names a chip outside the job is
the partition fault. Then those whose page is missing or forbidden meet their page faults, and stay abandoned (R333). -/
def State.reissue (s : State) (gid : Nat) : State :=
  let mine := fun (s : State) => (s.grp gid).out.filter fun a =>
    a.st == .abandoned && !((s.blockOf gid).cancelled.any fun c => c.gid == gid && c.acc == a.id)
  let s := (mine s).foldl (fun (s : State) a =>
    if (s.recheck gid a).isSome then s
    else if s.nowOutside gid a then s.fatal gid fPartition
    else s.modAcc gid a.id fun b => { b with st := .flying }) s
  (mine s).foldl (fun (s : State) a => match s.recheck gid a with
    | some f => s.pageFault gid f.2.1 f.2.2 (a.vaOf f.1) a.pc (if a.op.perLane then f.1 else 64) a.id .again
    | none => s) s

/-- What a restored group meets before it resumes: the fault it holds enters its handler (R343), each cancelled fault of an
abandoned instruction is taken (R335), while no handler's page is missing, and abandoned instructions are issued again (R333). -/
def State.resumeGroup (s : State) (gid : Nat) : State :=
  let s := match (s.grp gid).trapPend with
    | some p => s.takeFault gid p.flt p.pc p.hdr
    | none => s
  let mine := (s.blockOf gid).cancelled.filter fun c => c.gid == gid && c.acc != 0
  (mine.foldl (fun (s : State) c => if (s.grp gid).trapPend.isSome then s else s.dropCancelled gid c) s).reissue gid

/-- A stook's frames are restored together. -/
def State.restoreUnit (s : State) (k : Nat) (cores : List (Nat × Nat)) : State :=
  let ms := sortBy (fun b => (s.blk b).sidx) (s.stk k).members
  let s := (ms.zip cores).foldl (fun s c => s.restoreBlock c.1 c.2.1 c.2.2) s
  ms.foldl (fun (s : State) b => ((s.blk b).gids.foldl State.resumeGroup s).refreshHeader b) s

/-! ### Accepting launch records (R313, R382) -/

/-- The record at a ring index is accepted: it joins its queue with the next stamp of the acceptance order. -/
def State.acceptRecord (s : State) (q : Nat) : State :=
  let l := s.lq q
  let i := l.head % l.size
  let a := l.base + 256 * i
  let s := s.combineOver a 256
  let g : Grid := { Grid.empty with
    job := l.job.toNat, record := LRec.ofBits (s.homeRead a 256), recVa := BitVec.ofNat 64 a, queue := q, ring := i,
    age := s.nextAge + 1 }
  let s := { s.setGrid s.nextId g with
    nextAge := s.nextAge + 1, waiting := Tbl.put s.waiting q ((Tbl.find s.waiting q).getD [] ++ [s.nextId]),
    nextId := s.nextId + 1 }
  s.setLq q { l with head := (l.head + 1) % 2 ^ 32 }

/-- Records from LQHEAD to LQTAIL are accepted, at most `n` of them, and none while a die's warm reset holds it (R387). -/
def State.acceptQueue (s : State) (q : Nat) : Nat → State
  | 0 => s
  | n + 1 =>
    let l := s.lq q
    if l.job == 0xFFFFFFFF || l.head == l.tail || s.unitHeld (l.base + 256 * (l.head % l.size)) then s
    else State.acceptQueue (s.acceptRecord q) q n

def State.acceptAll (s : State) : State := s.lqueues.foldl (fun s q => s.acceptQueue q.1 q.2.size) s

/-- A doorbell: a tail that would pass the head by more than the ring's size is ignored (R382), and in recovery no queue is
served (R384). -/
def State.ringTail (s : State) (q v : Nat) : State :=
  let l := s.lq q
  if !s.root.booted || decide (60 ≤ q) || decide (2 ^ 32 ≤ v) || decide (l.size < (v + 2 ^ 32 - l.head) % 2 ^ 32) then s
  else (s.setLq q { l with tail := v }).acceptQueue q l.size

def execLqtail (queue : Nat) (v : Nat) (s : State) : Out := .next (s.ringTail queue v)

/-! ### Eligibility (R314) -/

/-- A dependence is met: its address is 0, or the low 32 bits of its word, read at the home, are at least its value. A word that a
die's warm reset holds is not read (R387). -/
def State.depMet (s : State) (job : Nat) (d : Dword × Word) : Bool :=
  let loc := s.place job d.1.toNat
  d.1 == 0 || (!(s.unitHeld loc) && decide (d.2.toNat ≤ (s.readThere job d.1.toNat loc 4).1))

/-- Its reading is a combining read in a commutative range (R155). -/
def State.readDep (s : State) (job : Nat) (d : Dword × Word) : State :=
  let loc := s.place job d.1.toNat
  if d.1 == 0 || s.unitHeld loc then s else (s.readThere job d.1.toNat loc 4).2

/-- The dependences of a grid that no reading has found met. -/
def Grid.unmet (x : Grid) : List (Nat × Dword × Word) :=
  ((List.range x.record.deps.length).zip x.record.deps).filter fun d => !(x.found.contains d.1)

/-- DEPENDENCE_REREAD: the Reeve reads the unmet dependences of a queue's head again (R314). -/
def State.rereadHead (s : State) (q : Nat) : State :=
  match (Tbl.find s.waiting q).getD [] with
  | [] => s
  | g :: _ =>
    let x := s.grid g
    if x.met then s
    else
      let found := x.found ++ (x.unmet.filter fun d => s.depMet x.job d.2).map fun d => d.1
      (x.unmet.foldl (fun (s : State) d => s.readDep x.job d.2) s).modGrid g fun x => { x with
        found := found, met := { x with found := found }.unmet.isEmpty }

def execDependenceReread (queue : Nat) (s : State) : Out := .next (s.rereadHead queue)

/-! ### Candidates (R315, R331) -/

inductive Cand where
  | frames (k : Nat)
  | grid (g : Nat)
  | run (q : Nat) (t : TaskId)
  deriving DecidableEq, Repr

/-- A candidate with what orders it: priority, then frames ready, others, frames behind, then age. -/
structure Offer where
  cand : Cand
  prio : Nat
  tier : Nat
  age : Nat
  passed : Nat
  record : LRec
  resv : List Bool
  old : Option (Nat × List Nat)
  deriving DecidableEq, Repr

/-- `a` goes before `b`. -/
def Offer.before (a b : Offer) : Bool :=
  decide (b.prio < a.prio) || (a.prio == b.prio && (decide (a.tier < b.tier) || (a.tier == b.tier && decide (a.age < b.age))))

def Offer.insert (a : Offer) : List Offer → List Offer
  | [] => [a]
  | b :: t => if b.before a then b :: Offer.insert a t else a :: b :: t

/-- Blocks of a job may be placed: it runs, and, where it is job 0, so does field firmware that root firmware has accepted (R383,
R384). -/
def State.mayPlace (s : State) (job : Nat) : Bool :=
  s.jobRuns job && (job != 0 || (s.root.booted && s.root.fieldImg.isSome))

/-- The ready frames of the device, stook by stook. -/
def State.frameOffers (s : State) : List Offer :=
  s.stooks.filterMap fun k =>
    let ms := sortBy (fun b => (s.blk b).sidx) k.2.members
    match ms with
    | [] => none
    | b :: _ =>
      let x := s.blk b
      match x.frame with
      | none => none
      | some f =>
        let ready := ms.all fun m => match (s.blk m).frame with
          | some f => f.ready && f.hold == 0
          | none => false
        if ready && s.mayPlace x.job then
          some { cand := .frames k.1, prio := x.record.prio, tier := if f.behind then 2 else 0, age := x.age,
                 passed := f.passed, record := x.record, resv := ms.map fun m => (s.blk m).thrSave.isSome,
                 old := some (dieOf x.core, ms.map fun m => (s.blk m).fAddr) }
        else none

/-- The words that a launch reads lie where a die's warm reset holds them (R387): argument words, and a graded declaration list. -/
def State.launchHeld (s : State) (job : Nat) (r : LRec) : Bool :=
  let at' := fun (va : Nat) => s.unitHeld (s.place job va)
  (r.args != 0 && (at' r.args.toNat || at' (r.args.toNat + 127))) ||
    (r.gcount != 0 && (at' r.glist.toNat || at' (r.glist.toNat + 16 * r.gcount - 1)))

/-- The heads of launch queues whose dependences have been found met (R314). -/
def State.gridOffers (s : State) : List Offer :=
  s.waiting.filterMap fun q =>
    match q.2 with
    | [] => none
    | g :: _ =>
      let x := s.grid g
      if x.met && s.mayPlace x.job && !(s.launchHeld x.job x.record) then
        some { cand := .grid g, prio := x.record.prio, tier := 1, age := x.age, passed := x.passed, record := x.record,
               resv := List.replicate x.record.stook false, old := none }
      else none

/-- The task a run entry names (R302), unless the Reeve drops it. -/
def State.entryTask (s : State) (e : BItem) : Option TaskId :=
  let t : TaskId := { job := e.job, rec' := e.bits.toNat % 2 ^ 64 }
  if (s.taskRow t).isSome && s.tState t == tReady && s.tGen t == e.bits.toNat / 2 ^ 64 % 16 then some t else none

/-- The record of a task's launch descriptor with the fields that a body ignores cleared (R313). -/
def LRec.body (r : LRec) : LRec :=
  { r with gridx := 1, gridy := 1, gridz := 1, caddr := 0, cvalue := 0, glist := 0, gcount := 0, deps := [] }

/-- The launch descriptor of a task, if it can be read and would not be rejected (R309, R313). -/
def State.descriptor (s : State) (t : TaskId) : Option LRec :=
  match s.readRecord t.job (s.tKernel t) with
  | none => none
  | some r =>
    if r.limitsOk && s.recordFieldsOk t.job r.body && s.fitsEmpty r then some { r.body with args := BitVec.ofNat 64 (s.tArgs t) }
    else none

/-- Run queues whose entries the Reeve may take: but those of a die that is warm-reset, whose pops are held, and none while the
Binder is (R387). -/
def State.openRunqs (s : State) : List Nat :=
  if s.binderHeld then [] else s.runqs.filter fun q => !(s.queueHeld (BitVec.ofNat 32 q))

/-- A task's launch descriptor lies where a die's warm reset holds it (R387). -/
def State.kernelHeld (s : State) (t : TaskId) : Bool := s.unitHeld (s.place t.job (s.tKernel t))

/-- The heads of registered run queues. -/
def State.runOffers (s : State) : List Offer :=
  s.openRunqs.filterMap fun q =>
    match (s.bq q).items with
    | [] => none
    | e :: _ =>
      match s.entryTask e with
      | none => none
      | some t => if s.kernelHeld t then none else match s.descriptor t with
        | none => none
        | some r =>
          if s.mayPlace t.job && !(s.launchHeld t.job r) then
            some { cand := .run q t, prio := r.prio, tier := 1, age := e.stamp, passed := (Tbl.find s.taskPassed e.stamp).getD 0,
                   record := r, resv := List.replicate r.stook false, old := none }
          else none

/-- The candidates of a decision in order, none after the oldest starving one (R315). -/
def State.offers (s : State) : List Offer :=
  let all := (s.frameOffers ++ s.gridOffers ++ s.runOffers).foldl (fun l a => Offer.insert a l) []
  match ((all.filter fun o => decide (64 ≤ o.passed)).map fun o => o.age) with
  | [] => all
  | a :: t =>
    let oldest := t.foldl min a
    let upTo := all.takeWhile fun o => !(decide (64 ≤ o.passed) && o.age == oldest)
    upTo ++ (all.drop upTo.length).take 1

/-! ### One decision -/

/-- A page of a declared range that is not local HBM of the job, or a base that is no line address. -/
def State.declBad (s : State) (job : Nat) (d : Nat × Nat) : Bool :=
  d.1 % 128 != 0 || !(s.allLocal job d.1 (128 * d.2))

/-- The record is rejected (R309). -/
def State.rejects (s : State) (x : Grid) : Bool :=
  let r := x.record
  !(r.limitsOk && s.recordFieldsOk x.job r && s.fitsEmpty r) || (s.declarations x.job r).any (s.declBad x.job)

/-- Declare a record's ranges in order (R310): the state, or the status of the first refusal with the ranges that this
record declared. -/
def State.declareAll (s : State) (job : Nat) (made : List Nat) : List (Nat × Nat) → State × Nat × List Nat
  | [] => (s, 0, made)
  | d :: ds =>
    if s.granges.any fun r => r.job == job && r.va == d.1 && r.lines == d.2 then State.declareAll s job made ds
    else
      let p := s.declareRange job d.1 d.2
      if p.2 == 0 then State.declareAll p.1 job (d.1 :: made) ds else (p.1, p.2, made)

/-- The ranges a refused record declared are released. -/
def State.releaseAll (s : State) (job : Nat) (bases : List Nat) : State :=
  bases.foldl (fun s b =>
    let r := s.releaseRange job b
    r.1.runAll r.2.2) s

/-- A grid's next unit is placed on cores; the grid leaves its queue with its last. -/
def State.placeGrid (s : State) (g : Nat) (cores : List (Nat × Nat)) : State :=
  let x := s.grid g
  let l : Launch := { grid := g, job := x.job, task := x.task, depth := x.depth, age := x.age, record := x.record,
                      number := x.next, stook := 0, words := none }
  let s := s.startUnit l cores
  let s := s.setGrid g { x with next := x.next + 1, passed := 0, met := true, declared := true }
  let s := if x.record.deps.any (fun d => d.1 != 0) || x.parent.isSome then
      cores.foldl (fun s c => s.selfInvalidate c.1) s
    else s
  if x.next + 1 == x.record.stooks then
    { s with waiting := s.waiting.map fun q => (q.1, q.2.filter (· != g)) }
  else s

/-- A ready task's body is placed (R283, R313). -/
def State.placeTask (s : State) (q : Nat) (t : TaskId) (r : LRec) (age : Nat) (cores : List (Nat × Nat)) : State :=
  let b := s.bq q
  let s := s.setBq q { b with items := b.items.tail }
  let id := s.nextId
  let g : Grid := { Grid.empty with job := t.job, record := r, recVa := BitVec.ofNat 64 (s.tKernel t), age := age,
                                    task := s.taskIdx t, isTask := true, next := 1, declared := true }
  let s := { s.setGrid id g with nextId := id + 1, taskPassed := Tbl.del s.taskPassed age }
  -- each start sets the continuation back to what it was at spawn (R296)
  let s := match s.taskRow t with
    | some w => s.setRecFld t 128 64 w.cont0.toNat
    | none => s
  let words := match s.taskRow t with
    | some w => w.words
    | none => none
  let s := s.startUnit { grid := id, job := t.job, task := s.taskIdx t, depth := 0, age := age, record := r, number := 0,
                         stook := 0, words := words } cores
  cores.foldl (fun s c => s.selfInvalidate c.1) (s.setTState t tRunning)

/-- A candidate that fits is placed; a grid's first unit follows its graded declarations. -/
def State.placeOffer (s : State) (o : Offer) (cores : List (Nat × Nat)) : State :=
  match o.cand with
  | .frames k => s.restoreUnit k cores
  | .run q t => s.placeTask q t o.record o.age cores
  | .grid g =>
    let x := s.grid g
    if x.declared then s.placeGrid g cores
    else
      let p := s.declareAll x.job [] (s.declarations x.job x.record)
      if p.2.1 == 0 then p.1.placeGrid g cores
      else (p.1.releaseAll x.job p.2.2).runAll [.endGrid g (0x110 + p.2.1)]

/-- A candidate is passed over (R315); every group that is not admitted has seen it (R328). -/
def State.passOver (s : State) (o : Offer) : State :=
  let s := match o.cand with
    | .frames k => (s.stk k).members.foldl (fun (s : State) b => s.modBlk b fun x => { x with
        frame := x.frame.map fun (f : Frame) => { f with passed := f.passed + 1 } }) s
    | .grid g => s.modGrid g fun x => { x with passed := x.passed + 1 }
    | .run _ _ => { s with taskPassed := Tbl.put s.taskPassed o.age (o.passed + 1) }
  { s with groups := s.groups.map fun (g : Nat × Group) => if g.2.admitted then g else (g.1, { g.2 with passedSince := true }) }

/-- The candidate would fit if a stook's members were gone. -/
def State.fitsWithout (s : State) (o : Offer) (k : Nat) : Bool :=
  let ms := (s.stk k).members
  let s' := ms.foldl (fun (s : State) b =>
    let core := (s.blk b).core
    let s := if (s.core core).thr.holder == some b then s.freeThresher core else s
    s.modBlk b fun x => { x with resident := false }) s
  let here := ms.map fun b => (s.blk b).core
  match o.resv with
  | [v] => here.any fun c => s'.fitsCore c o.record v
  | _ => (here.map bayOf).eraseDups.any fun y => (s'.bayAssign o.record o.resv (bayCores y)).isSome

/-- A starving candidate pre-empts the lowest-priority, youngest block that it outranks and whose place it fits (R336). -/
def State.starve (s : State) (o : Offer) : State :=
  let vs := s.blocks.filter fun b => b.2.resident && decide (b.2.record.prio < o.prio) && s.fitsWithout o b.2.stook
  let worse := fun (a b : Nat × Block) =>
    decide (a.2.record.prio < b.2.record.prio) || (a.2.record.prio == b.2.record.prio && decide (b.2.age < a.2.age))
  match vs with
  | [] => s
  | v :: t =>
    let w := t.foldl (fun a b => if worse b a then b else a) v
    s.parkStook w.2.stook 4 0

/-- Try the candidates in order, none after one that is now the oldest that starves. -/
def State.tryOffers (s : State) : List Offer → State
  | [] => s
  | o :: os =>
    match s.assign o.record o.resv o.old with
    | some cores => s.placeOffer o cores
    | none =>
      let s := s.passOver o
      if o.passed + 1 < 64 then State.tryOffers s os
      else
        let s := s.starve o
        if os.any fun x => decide (64 ≤ x.passed) && decide (x.age < o.age) then State.tryOffers s os else s

/-- Heads of a launch queue that R309 rejects complete with status 0x100, at most `n` of them; none whose words a die's warm reset
holds (R387). -/
def State.rejectQueue (s : State) (q : Nat) : Nat → State
  | 0 => s
  | n + 1 =>
    match (Tbl.find s.waiting q).getD [] with
    | [] => s
    | g :: _ =>
      let x := s.grid g
      if x.declared || s.launchHeld x.job x.record then s
      else
        let s := s.touchDeclarations x.job x.record
        if s.rejects x then State.rejectQueue (s.runAll [.endGrid g 0x100]) q n else s

/-- The dependences of every queue's head are read (R314). -/
def State.readHeads (s : State) : State := s.waiting.foldl (fun (s : State) (q : Nat × List Nat) => s.rereadHead q.1) s

def State.rejectHeads (s : State) : State :=
  s.waiting.foldl (fun (s : State) (q : Nat × List Nat) => s.rejectQueue q.1 q.2.length) s

/-- A task's launch descriptor has been read. -/
def State.touchKernel (s : State) (t : TaskId) : State := s.touchRecord t.job (s.tKernel t)

/-- Stale heads of run queues are dropped (R302), and a ready task whose descriptor is unusable faults (R313). -/
def State.dropHeads (s : State) : State :=
  s.openRunqs.foldl (fun (s : State) q =>
    match (s.bq q).items with
    | [] => s
    | e :: es =>
      let gone := { s.setBq q { s.bq q with items := es } with taskPassed := Tbl.del s.taskPassed e.stamp }
      match s.entryTask e with
      | none => gone
      | some t => if !(s.kernelHeld t) && (s.descriptor t).isNone then (gone.touchKernel t).runAll [.fault t 0x1F] else s) s

/-- The descriptors of the tasks at the heads of run queues are read, by combining reads in a commutative range (R155). -/
def State.touchHeads (s : State) : State :=
  s.openRunqs.foldl (fun (s : State) q =>
    match (s.bq q).items.head?.bind s.entryTask with
    | some t => if s.kernelHeld t then s else s.touchKernel t
    | none => s) s

/-- PLACEMENT_DECISION (R315). -/
def State.placeNext (s : State) : State :=
  let s := s.acceptAll.rejectHeads.dropHeads.touchHeads.readHeads
  s.tryOffers s.offers

def execPlacementDecision (s : State) : Out := .next s.placeNext

end Sys2Proof.Machine
end

