-- ==== Sys2Proof/Machine/Issue.lean ====
section
/-!
DEFINITION. Issue (R33 to R38, R63, R222, R325 to R327): reading a clause's header and words, the choice of an issue slot,
opening a clause of a group, a slice or a sequencer, what the end of a word leads to, and the delivery of pending faults.
-/
namespace Sys2Proof.Machine

/-! ### Code words -/

/-- A word of code has been read, by a combining read if it is new to the core and in a commutative range (R155): the core keeps
its translation and the word (R353). -/
def State.readCode (s : State) (core job : Nat) (va : Dword) (loc : Nat) (w : Dword) : State :=
  let s := if (Tbl.find (s.core core).icache loc).isSome then s else (s.readThere job va.toNat loc 8).2
  (s.keepTlb core job [va.toNat]).keepCode core loc w

/-- The opcode of `meet`, `wait` or `nop`, which may stand before a FLOW clause's last word (R34). -/
def earlyOp (w : Dword) : Bool :=
  let o := w.extractLsb' 56 8
  o == 0x09 || o == 0x0C || o == 0x0D

/-- The rule of R34 for the words before the last of a FLOW clause. One whose page cannot be read when the clause is about to issue
is checked when it is fetched, with the header for its saved PC as well (log entry 28). -/
def State.earlyOk (s : State) (gid : Nat) (hdr head : Dword) : Bool :=
  (Header.unpack head).cls != 1 || (List.range (headWords head - 1)).all fun k =>
    match s.fetch (s.coreOf gid) (s.jobOf gid) (hdr + BitVec.ofNat 64 (8 * (k + 1))) with
    | (.ok _, w) => earlyOp w
    | _ => true

/-- The word at which an open clause stands breaks that rule. -/
def Clause.earlyBad (c : Clause) (w : Dword) : Bool :=
  (Header.unpack c.head).cls == 1 && decide (c.idx + 1 < headWords c.head) && !(earlyOp w)

/-! ### Cancelled page faults (R335) -/

/-- The cancelled fault of a group that its next issue meets. -/
def State.cancelledOf (s : State) (gid : Nat) : Option Cancelled :=
  (s.blockOf gid).cancelled.find? fun c => c.gid == gid && !c.trap && c.acc == 0

/-- The page-fatal fault of a cancelled entry is delivered at an instruction or a header (R335). -/
def State.cancelledAt (s : State) (gid : Nat) (c : Cancelled) (pc hdr : Dword) : State :=
  (s.modBlk (s.grp gid).blk fun k => { k with cancelled := k.cancelled.erase c }).takeFault gid
    { code := fPageFatal, info := 4, lane := c.lane, addr := c.addr } pc hdr

/-! ### A group's clause opens -/

/-- The group's next clause is read and checked, and opens (R33 to R37): at its first word, or at the word at which the
cluster resumes. A header that cannot be read or is not legal is met at the cluster's own place. -/
def State.openClause (s : State) (gid : Nat) : State :=
  let g := s.grp gid
  let b := s.blk g.blk
  match g.cur with
  | none => s
  | some c =>
    let va := g.header c
    match s.cancelledOf gid with
    | some x => s.cancelledAt gid x va va
    | none =>
      if s.fetchHeld b.core b.job va then s
      else match s.fetch b.core b.job va with
      | (.missing, _) => s.pageFault gid fPageMissing 3 va va 64 0 .own
      | (.denied, _) => s.pageFault gid fPagePerm 3 va va 64 0 .own
      | (.ok loc, w) =>
        if s.outsideJob b.job loc then s.fatal gid fPartition
        else
        let s := s.readCode b.core b.job va loc w
        if headerOk .lane b.record.qn w && s.earlyOk gid va w then
          (s.setGrp gid { g with
            clause := some { hdr := va, head := w, idx := min c.word (headWords w - 1), latches := [], cap := none },
            heldAt := false, heldRow := none, resumed := false, partDone := c.part }).modStk b.stook fun k =>
              { k with clock := 0 }
        else s.takeFault gid (Flt.plain fIllegalClause) va va

/-- The waits of the group's next header are met; a header that cannot be read or is not legal waits for nothing. -/
def State.nextMet (s : State) (gid : Nat) : Bool :=
  let g := s.grp gid
  let b := s.blk g.blk
  match g.cur with
  | none => false
  | some c =>
    let va := g.header c
    if s.fetchHeld b.core b.job va then false
    else match s.fetch b.core b.job va with
    | (.ok _, w) => !(headerOk .lane b.record.qn w) || s.headerMet gid va w c.word || (s.cancelledOf gid).isSome
    | _ => true

/-- The group could go on but for its waits: it is resident, running, at a clause boundary, and no request or fault stops
it. -/
def State.mayOpen (s : State) (gid : Nat) : Bool :=
  let g := s.grp gid
  let b := s.blk g.blk
  g.admitted && !g.retired && b.resident && b.parkReq.isNone && !b.stop && g.clause.isNone && g.reo.isNone &&
    !g.xreq && g.bfault.isNone && g.trapPend.isNone && s.jobRuns b.job

/-- A group is ready (R325). -/
def State.ready (s : State) (gid : Nat) : Bool := s.mayOpen gid && s.nextMet gid

/-! ### The choice of an issue slot (R325) -/

/-- The ready groups a slot serves. -/
def State.slotReady (s : State) (core slot : Nat) : List Nat :=
  (s.groups.filter fun g => g.2.slot % 4 == slot && (s.blk g.2.blk).core == core && s.ready g.1).map fun g => g.1

/-- When a slot last served a group, never before every served one, and in order of group slot among those never served. -/
def State.turn (s : State) (core gid : Nat) : Nat :=
  match Tbl.find (s.core core).served gid with
  | some n => 64 + n
  | none => (s.grp gid).slot

def State.slotChoice (s : State) (core slot : Nat) : Option Nat := leastBy (s.turn core) (s.slotReady core slot)

/-- A slot starts to serve a group. -/
def State.serve (s : State) (core slot gid : Nat) : State :=
  s.modCore core fun c => { c with
    serving := Tbl.put c.serving slot gid, served := Tbl.put c.served gid c.serveCount, serveCount := c.serveCount + 1 }

/-- A slot whose group is between clauses or held chooses again. -/
def State.freeSlot (s : State) (core slot gid : Nat) : State :=
  let g := s.grp gid
  if (g.clause.isNone || g.heldAt) && Tbl.find (s.core core).serving slot == some gid then
    s.modCore core fun c => { c with serving := Tbl.del c.serving slot }
  else s

/-- What follows a word, or an attempt at one, of a group of the state before: the parking clock of its stook starts again if it
is not held, and its slot is free at a clause's end. -/
def State.after (s0 : State) (gid : Nat) (s : State) : State :=
  let g := s0.grp gid
  let b := s0.blk g.blk
  let s := if (s.grp gid).heldAt then s else s.modStk b.stook fun k => { k with clock := 0 }
  s.freeSlot b.core (g.slot % 4) gid

/-- ISSUE_SLOT_CHOICE (R325): a slot that serves no group starts one clause of the ready group it served least recently. -/
def State.issueSlot (s : State) (core slot : Nat) : State :=
  if (Tbl.find (s.core core).serving slot).isSome then s
  else match s.slotChoice core slot with
    | none => s
    | some gid =>
      let t := s.serve core slot gid
      s.after gid (t.openClause gid)

def execIssueSlotChoice (core slot : Nat) (s : State) : Out := .next (s.issueSlot core slot)

/-! ### A word of a group -/

/-- What a step does: an instruction in a state, as a word of a group or not, or a state at once. -/
inductive Plan where
  | run (gid : Option Nat) (i : Instr) (s : State)
  | done (s : State)
  deriving DecidableEq, Repr

/-- A group may not go on at its word: it holds there for a request to park or a pending boundary fault (R337, R342), its
block is parked or has been placed in this lease window (R327), or its job is switched out. -/
def State.stopped (s : State) (gid : Nat) : Bool :=
  let g := s.grp gid
  let b := s.blk g.blk
  !b.resident || (g.resumed && !g.admitted) ||
    (g.heldAt && (b.parkReq.isSome || b.stop || g.bfault.isSome || g.trapPend.isSome || !(s.jobRuns b.job)))

/-- The word at which a group's open clause stands: the page fault of a word that cannot be fetched, the fault of one that
is no instruction (R58), or the instruction it holds. -/
def State.laneWord (s : State) (gid : Nat) : Plan :=
  let g := s.grp gid
  let b := s.blk g.blk
  match g.clause with
  | none => .done s
  | some c =>
    if s.stopped gid then .done s
    else match s.cancelledOf gid with
      | some x => .done (s.cancelledAt gid x c.pc c.hdr)
      | none =>
        if (g.resumed && !(s.headerMet gid c.hdr c.head c.idx)) || s.fetchHeld b.core b.job c.pc then
          .done (s.setGrp gid { g with heldAt := true })
        else match s.fetch b.core b.job c.pc with
          | (.missing, _) => .done (s.pageFault gid fPageMissing 3 c.pc c.pc 64 0 .own)
          | (.denied, _) => .done (s.pageFault gid fPagePerm 3 c.pc c.pc 64 0 .own)
          | (.ok loc, w) =>
            if s.outsideJob b.job loc then .done (s.fatal gid fPartition)
            else
            let s := (s.readCode b.core b.job c.pc loc w).setGrp gid { g with resumed := false }
            if c.earlyBad w then .done (s.takeFault gid (Flt.plain fIllegalClause) c.hdr c.hdr)
            else match (Header.unpack c.head).wordClass c.idx with
            | none => .done (s.faultHere gid (Flt.plain fIllegalInstr))
            | some cl => match decodeWord cl false w with
              | .ok i => .run (some gid) i { s with issuer := .lane gid }
              | .error _ => .done (s.faultHere gid (Flt.plain fIllegalInstr))

/-- A step of a group's word: when no instruction is executed, what follows is done at once. -/
def State.lanePlan (s : State) (gid : Nat) : Plan :=
  match s.laneWord gid with
  | .done t => .done (s.after gid t)
  | p => p

/-- A slot issues the next word of the clause it serves (R326). -/
def State.slotWord (s : State) (core slot : Nat) : Option Nat := Tbl.find (s.core core).serving slot

/-- A held group tries its instruction again, when its slot serves no group. -/
def State.resumeOk (s : State) (gid : Nat) : Bool :=
  let g := s.grp gid
  g.heldAt && g.clause.isSome && !(s.stopped gid) &&
    (Tbl.find (s.core (s.blk g.blk).core).serving (g.slot % 4)).isNone

/-! ### Access slices (R222 to R227) -/

/-- A slice may go on: it runs, its block is resident, and nothing asks it to stop, or it is inside a clause, which it ends
first unless a word holds it (R227). -/
def State.sliceRuns (s : State) (gid : Nat) : Bool :=
  let g := s.grp gid
  let b := s.blk g.blk
  g.slice.st == .running && !g.retired && b.resident &&
    ((b.parkReq.isNone && !b.stop && s.jobRuns b.job) || !g.slice.rests)

/-- A clause that the slice passes over: its last word may open or close a loop (R223). -/
def Slice.passOver (x : Slice) (va head : Dword) (last : Option Instr) : Slice :=
  let skip := match last with
    | some (.xloop _) => x.skip + 1
    | some .xnext => x.skip - 1
    | _ => x.skip
  { x with pc := nextHeader va head, skip := skip }

/-- The next clause of a slice opens, or is passed over (R38, R222, R223). -/
def State.openSlice (s : State) (gid : Nat) : State :=
  let x := (s.grp gid).slice
  let b := s.blockOf gid
  if s.fetchHeld b.core b.job x.pc then s
  else match s.fetch b.core b.job x.pc with
  | (.missing, _) => s.pageFault gid fPageMissing 3 x.pc x.pc 64 0 .other
  | (.denied, _) => s.pageFault gid fPagePerm 3 x.pc x.pc 64 0 .other
  | (.ok loc, w) =>
    if s.outsideJob b.job loc then s.fatal gid fPartition
    else
    let s := s.readCode b.core b.job x.pc loc w
    if !(headerOk .slice b.record.qn w) then s.sliceFault gid fIllegalClause 0
    else if x.skip == 0 then
      s.modSlice gid fun x => { x with
        clause := some { hdr := x.pc, head := w, idx := 0, latches := [], cap := none } }
    else
      let va := x.pc + BitVec.ofNat 64 (8 * headWords w)
      if s.fetchHeld b.core b.job va then s
      else match s.fetch b.core b.job va with
      | (.missing, _) => s.pageFault gid fPageMissing 3 va va 64 0 .other
      | (.denied, _) => s.pageFault gid fPagePerm 3 va va 64 0 .other
      | (.ok loc, u) =>
        if s.outsideJob b.job loc then s.fatal gid fPartition
        else
        let last := match decodeWord .reap true u with
          | .ok i => some i
          | .error _ => none
        (s.readCode b.core b.job va loc u).modSlice gid fun y => y.passOver x.pc w last

/-- SLICE_CLAUSE_ISSUE (R222): the Reaper takes the next ready slice of a core in turn, by group slot. -/
def State.sliceIssue (s : State) (core : Nat) : State :=
  let rs := (s.groups.filter fun g =>
    (s.blk g.2.blk).core == core && s.sliceRuns g.1 && g.2.slice.clause.isNone).map fun g => g.1
  let turn := (s.core core).sliceTurn
  match leastBy (fun g => ((s.grp g).slot + 64 - (turn + 1)) % 64) rs with
  | none => s
  | some gid => (s.modCore core fun c => { c with sliceTurn := (s.grp gid).slot }).openSlice gid

def execSliceClauseIssue (core : Nat) (s : State) : Out := .next (s.sliceIssue core)

/-- The next word of a slice's open clause. -/
def State.sliceWord (s : State) (gid : Nat) : Plan :=
  let b := s.blockOf gid
  match (s.grp gid).slice.clause with
  | none => .done s
  | some c =>
    if !(s.sliceRuns gid) then .done s
    else if s.fetchHeld b.core b.job c.pc then .done (s.holdSlice gid)
    else match s.fetch b.core b.job c.pc with
      | (.missing, _) => .done ((s.holdSlice gid).pageFault gid fPageMissing 3 c.pc c.pc 64 0 .other)
      | (.denied, _) => .done ((s.holdSlice gid).pageFault gid fPagePerm 3 c.pc c.pc 64 0 .other)
      | (.ok loc, w) =>
        if s.outsideJob b.job loc then .done (s.fatal gid fPartition)
        else
        let s := s.readCode b.core b.job c.pc loc w
        match decodeWord .reap true w with
        | .ok i => .run none i { s with issuer := .slice gid }
        | .error _ => .done (s.sliceFault gid fIllegalInstr 0)

/-! ### The sequencer (R232, R233) -/

/-- The sequencer of a core may go on. -/
def State.streamRuns (s : State) (core : Nat) : Bool :=
  let t := s.thr core
  match t.holder with
  | none => false
  | some b => (t.st == .running || t.st == .waiting) && (s.blk b).resident && (s.blk b).parkReq.isNone &&
      !(s.blk b).stop && s.jobRuns (s.blk b).job

/-- The next clause of the stream opens (R38). -/
def State.openStream (s : State) (core : Nat) : State :=
  let t := s.thr core
  let b := s.blk (s.thrBlk core)
  if s.fetchHeld core b.job t.pc then s
  else match s.fetch core b.job t.pc with
  | (.missing, _) => s.pageFault (s.thrGroup core) fPageMissing 8 t.pc t.pc 64 0 .other
  | (.denied, _) => s.pageFault (s.thrGroup core) fPagePerm 8 t.pc t.pc 64 0 .other
  | (.ok loc, w) =>
    if s.outsideJob b.job loc then s.fatal (s.thrGroup core) fPartition
    else
    let s := s.readCode core b.job t.pc loc w
    if headerOk .stream b.record.qn w then
      s.modThr core fun t => { t with clause := some { hdr := t.pc, head := w, idx := 0, latches := [], cap := none } }
    else s.streamFault core fIllegalClause 0

/-- The sequencer's next move: a clause opens, or the next word of the open one is executed. -/
def State.streamWord (s : State) (core : Nat) : Plan :=
  let b := s.blk (s.thrBlk core)
  if !(s.streamRuns core) then .done s
  else match (s.thr core).clause with
    | none => .done (s.openStream core)
    | some c =>
      if s.fetchHeld core b.job c.pc then .done s
      else match s.fetch core b.job c.pc with
      | (.missing, _) => .done (s.pageFault (s.thrGroup core) fPageMissing 8 c.pc c.pc 64 0 .other)
      | (.denied, _) => .done (s.pageFault (s.thrGroup core) fPagePerm 8 c.pc c.pc 64 0 .other)
      | (.ok loc, w) =>
        if s.outsideJob b.job loc then .done (s.fatal (s.thrGroup core) fPartition)
        else
        let s := s.readCode core b.job c.pc loc w
        match decodeWord .table false w with
        | .ok i => .run none i { s with issuer := .stream core }
        | .error _ => .done (s.streamFault core fIllegalInstr 0)

/-! ### Pending boundary faults (R342) -/

/-- BOUNDARY_FAULT_DELIVERY: a group of a resident block takes its pending fault at a clause boundary or where it is held;
one that waits at a meeting or for the extension set has its boundary when the wait ends. -/
def State.deliver (s : State) (gid : Nat) : State :=
  let g := s.grp gid
  let b := s.blk g.blk
  if !b.resident || g.retired || g.reo.isSome || g.xreq || g.trapPend.isSome || !(s.jobRuns b.job) then s
  else s.after gid (s.takeBoundary gid)

def execBoundaryFaultDelivery (gid : Nat) (s : State) : Out := .next (s.deliver gid)

/-! ### Accesses (R166) -/

/-- ACCESS_COMPLETION: lanes of an outstanding instruction are performed, while its block is resident, or has retired without
waiting for it (R77). -/
def State.accessDone (s : State) (gid acc : Nat) (lanes : Dword) : State :=
  if s.inFlight gid && s.jobRuns (s.jobOf gid) then s.accessCompletion gid acc lanes else s

def execAccessCompletion (gid acc : Nat) (lanes : BitVec 64) (s : State) : Out := .next (s.accessDone gid acc lanes)

/-! ### Retirement (R63, R77) -/

/-- A graded store the group issued is still to be classified: in its line's queue, outstanding, or on its way to a peer (R273). -/
def State.gradedFlying (s : State) (gid : Nat) : Bool :=
  (s.gstores.any fun x => x.gid == gid) ||
  (s.fabric.outward.any fun p => p.kind == 3 && p.threads.any (ofGroup gid)) ||
  (s.accsOf gid).any fun a => a.op == .store &&
    (lanesOf a.left).any fun L => (s.gradedAt (s.jobOf gid) (a.vaOf L).toNat).isSome

/-- All threads have exited, every token is clear, no graded store waits to be classified, and no fault is pending. -/
def State.mayRetire (s : State) (gid : Nat) : Bool :=
  let g := s.grp gid
  (s.blk g.blk).resident && !g.retired && g.clause.isNone && g.exited == BitVec.allOnes 64 && g.allClear &&
    g.bfault.isNone && !(s.gradedFlying gid)

/-- GROUP_RETIRE: the slice stops, the windows are emptied, the lock is freed, counted lines stop counting, and the group is no
more one that its core has admitted (R63, R134, R157, R226, R324). -/
def State.retireGroup (s : State) (gid : Nat) : State :=
  if s.mayRetire gid then
    let t := ((s.modGrp gid fun g => { g.stopSlice with queues := [], retired := true }).freeLock (s.coreOf gid) gid).dropCounted
      (s.coreOf gid) gid
    t.modCore (s.coreOf gid) fun c => { c with admitted := c.admitted.filter (· != gid) }
  else s

def execGroupRetire (gid : Nat) (s : State) : Out := .next (s.retireGroup gid)

/-- A block has nothing more to do: its groups and child grids have retired (R77), and its copies are over, whose page faults would
park it (R220; log entry 54). -/
def State.blockOver (s : State) (b : Nat) : Bool :=
  let k := s.blk b
  k.resident && !k.stop && (s.childGrids b).isEmpty && k.gids.all fun g =>
    (s.grp g).retired && s.copies.all fun c => c.gid != g

/-- What the block's groups issued, loads apart, is still to be performed, which its grid's completion waits for (R320). -/
def State.owes (s : State) (b : Nat) : Bool :=
  (s.blk b).gids.any fun g =>
    ((s.grp g).out.any fun a => !a.op.reads || a.op.writes) || !(s.unsent g).isEmpty || !(s.unclosed g).isEmpty

/-- A block retires: it leaves its core, and only what it owes stays of it. -/
def State.partBlock (s : State) (b : Nat) (owes : Bool) : State :=
  if owes then (s.quitBlock b).modBlk b fun k => { k with gone := true, frame := none, fAddr := 0, fSize := 0 }
  else s.removeBlock b

/-- BLOCK_RETIRE (R77): the members of a stook retire together (R10), and a task's body is then over. Of one that has retired, what
stayed is gone once it owes nothing more. -/
def State.retireBlock (s : State) (b : Nat) : State :=
  let ms := (s.stk (s.blk b).stook).members
  if (s.blk b).gone then (if s.owes b then s else s.removeBlock b)
  else if ms.contains b && ms.all s.blockOver then
    let g := (s.blk b).grid
    let s := ms.foldl (fun (t : State) m => t.partBlock m (s.owes m)) s
    if (s.grid g).isTask then s.modGrid g fun x => { x with done := true } else s
  else s

def execBlockRetire (blk : Nat) (s : State) : Out := .next (s.retireBlock blk)

end Sys2Proof.Machine
end

