-- ==== Sys2Proof/Machine/Reeve.lean ====
section
/-!
DEFINITION. The events of the Binder and the Reeve (R152, R153, R273 to R278, R285, R320 to R338, R346 to R348, R382):
migration of homes, classification of graded stores, tasks and grids that are over, lease windows, parking and relaunch,
fault entries, pre-emption, run queues and configuration registers.
-/
namespace Sys2Proof.Machine

/-! ### Home units (R152, R153) -/

/-- Lines a die has written in a unit this epoch. -/
def writtenBy (u : Tbl (List Nat)) (d : Nat) : Nat := ((Tbl.find u d).getD []).length

/-- The die a unit moves to: the one that wrote most among those that are not its home, if it wrote at least twice as many
lines as the home and at least 64 (R152). It does not move to a die that is being warm-reset (DESIGN CHOICE, log entry 100). -/
def State.moveTo (s : State) (unit : Nat) (u : Tbl (List Nat)) : Option Nat :=
  let h := s.homeDie (65536 * unit)
  match leastBy (fun d => 1024 - writtenBy u d) ((List.range 4).filter (· != h)) with
  | none => none
  | some d => if 2 * writtenBy u h ≤ writtenBy u d && decide (64 ≤ writtenBy u d) && s.running d then some d else none

/-- A unit begins to move (R153 step 1), unless it is moving already. -/
def State.beginMove (s : State) (unit dst : Nat) : State :=
  if (Tbl.find s.moves unit).isSome then s else { s with moves := Tbl.put s.moves unit { dst := dst, held := [] } }

/-- HOME_MIGRATION_EPOCH: an epoch of 100 µs has ended: units begin to move, unless firmware has disabled it, and the counts
start again (R152). -/
def State.migrate (s : State) : State :=
  if s.time < s.epochAt + 100000 then s
  else
    let s' := if s.migr.getLsbD 0 then s
      else s.epoch.foldl (fun (s : State) (u : Nat × Tbl (List Nat)) =>
        match s.moveTo u.1 u.2 with
        | some d => s.beginMove u.1 d
        | none => s) s
    { s' with epoch := [], epochAt := s.epochAt + (s.time - s.epochAt) / 100000 * 100000 }

def execHomeMigrationEpoch (s : State) : Out := .next s.migrate

/-! ### Grades and tasks (R273, R274, R285, R296) -/

/-- GRADED_STORE_CLASSIFY: a graded store that has reached its home is classified, and what follows is done. -/
def State.classify (s : State) (n : Nat) : State :=
  match s.classifyAt n false with
  | none => s
  | some r => r.1.runAll r.2

def execGradedStoreClassify (n : Nat) (s : State) : Out := .next (s.classify n)

/-- A task's body has retired and its children are done (R285). -/
def State.taskOver (s : State) (t : TaskId) : Bool :=
  (s.taskRow t).isSome && s.tState t == tRunning && (s.bodyBlocks t).all (fun b => (s.blk b).gone) && s.tChildren t == 0

/-- TASK_COMPLETE: while its job is not switched out (R289), the task becomes complete, its parent counts it no more, and the
continuation is spawned once for the
instance, with the task's parent, when that has room for a child (R274, R285, R293, R296). -/
def State.completeTask (s : State) (t : TaskId) : State :=
  if s.taskOver t && !s.binderHeld && !(s.jobIn t.job .out) then
    let done := match s.taskRow t with
      | some w => w.contDone
      | none => true
    let c : TaskId := { job := t.job, rec' := s.tCont t }
    let spawns := !done && c.rec' != 0 && !(s.tLive c)
    let p : TaskId := { job := t.job, rec' := s.tParent t }
    let r := (s.setTState t tComplete).runAll [.childDone t]
    if spawns && p.rec' != 0 && decide (65535 ≤ r.tChildren p) then s
    else
      let r := if spawns then (r.spawnTask c p.rec' true none).1 else r
      (r.modTaskRow t fun w => { w with contDone := w.contDone || c.rec' != 0 }).runAll [.settle t]
  else s

def execTaskComplete (job rec : Nat) (s : State) : Out := .next (s.completeTask { job := job, rec' := rec })

/-! ### Grids (R320) -/

/-- Every block of a grid has been placed and has retired. -/
def State.gridDone (s : State) (g : Nat) : Bool :=
  match Tbl.find s.grids g with
  | none => false
  | some x => !x.isTask && !x.ended && x.next == x.record.stooks && (s.blocksOf g).isEmpty

/-- A grid has ended and its blocks are gone, and only its completion is left, which a die's warm reset held back (R387). -/
def State.gridEnded (s : State) (g : Nat) : Bool :=
  match Tbl.find s.grids g with
  | none => false
  | some x => !x.isTask && x.ended && !x.done && (s.blocksOf g).isEmpty &&
      (s.todoHeld :: s.stops.map fun p => p.next).all fun w => !(w.contains (.gridOver g))

/-- GRID_COMPLETION: the completion word is written, and the grid's continuation is spawned. -/
def State.completeGrid (s : State) (g : Nat) : State :=
  if s.gridDone g then (s.modGrid g fun x => { x with ended := true, status := 0 }).runAll [.gridOver g]
  else if s.gridEnded g then s.runAll [.gridOver g] else s

def execGridCompletion (grid : Nat) (s : State) : Out := .next (s.completeGrid grid)

/-- GRID_CANCEL: a grid ends with status 0x101; a task body is cancelled as `tkill` cancels it (R320, R344). What the Binder holds of
a job that is switched out is saved with the job, and its grids are not cancelled then (R289; DESIGN CHOICE, log entry 107). -/
def State.cancelGrid (s : State) (g : Nat) : State :=
  match Tbl.find s.grids g with
  | none => s
  | some x =>
    if s.jobIn x.job .out then s
    else if x.isTask then (if x.done then s else s.runAll ((s.killed (s.taskAt x.job x.task)).map Todo.cancel)) else s.runAll [.endGrid g 0x101]

def execGridCancel (grid : Nat) (s : State) : Out := .next (s.cancelGrid grid)

/-! ### Lease windows and admission (R321 to R324) -/

/-- The measured lease in 4 KiB units: distinct sampled lines, times 16 lines of 128 bytes, rounded up (R322). -/
def Group.measuredLease (g : Group) : Nat := (g.touched.length * 16 * 128 + 4095) / 4096

/-- A group's lease for the window that begins (R322). -/
def Group.newLease (g : Group) (meas : Bool) : Nat :=
  let n := if meas then max g.leaseNext g.measuredLease else g.leaseNext
  if g.misses < 16 * g.hits then max (n + 1) ((n * 5 + 3) / 4) else n

/-- `a` is walked before `b`: priority, age, group slot (R324). -/
def State.walkedBefore (s : State) (a b : Nat) : Bool :=
  let x := s.blockOf a
  let y := s.blockOf b
  decide (y.record.prio < x.record.prio) || (x.record.prio == y.record.prio &&
    (decide (x.age < y.age) || (x.age == y.age && decide ((s.grp a).slot < (s.grp b).slot))))

def State.insertWalk (s : State) (a : Nat) : List Nat → List Nat
  | [] => [a]
  | b :: t => if s.walkedBefore b a then b :: State.insertWalk s a t else a :: b :: t

def State.walkOrder (s : State) (gs : List Nat) : List Nat := gs.foldl (fun l g => s.insertWalk g l) []

/-- The groups of a core that take part in the admission of the window that begins: those placed by then (R324). -/
def State.coreGroups (s : State) (core : Nat) : List Nat :=
  ((s.residents core).filter fun b => decide (b.2.since ≤ 4096 * (s.core core).windows)).flatMap fun b =>
    b.2.gids.filter fun g => !(s.grp g).retired

/-- The walk of R324 over the groups left, with the sum of leases admitted so far: each is admitted if its lease fits, and one of
lease 0 in any case. -/
def State.walkAdmit (s : State) (limit : Nat) : Nat → List Nat → List Nat
  | _, [] => []
  | sum, g :: t =>
    if (s.grp g).lease == 0 || decide ((sum + (s.grp g).lease) * 32 ≤ limit) then g :: State.walkAdmit s limit (sum + (s.grp g).lease) t
    else State.walkAdmit s limit sum t

/-- The groups admitted to a window, in order (R324). -/
def State.admission (s : State) (core : Nat) (gs : List Nat) : List Nat :=
  let all := s.walkOrder gs
  let forced := all.filter fun g => 63 ≤ (s.grp g).skipped
  let rest := all.filter fun g => !(forced.contains g)
  let limit := l1Kib ((s.residents core).map fun b => b.2.record) * s.ov
  let sum := (forced.map fun g => (s.grp g).lease).foldl (· + ·) 0
  match forced ++ s.walkAdmit limit sum rest with
  | [] => all.take 1
  | l => l

/-- A window begins when the core's count reaches the next multiple of 4,096 clk (R321). -/
def State.windowDue (s : State) (core : Nat) : Bool := decide (4096 * (s.core core).windows ≤ s.clk core)

/-- LEASE_WINDOW: an Almanac plan takes effect (R388), leases are computed, groups are admitted, and counts start again. -/
def State.leaseWindow (s : State) (core : Nat) : State :=
  if s.windowDue core then
    let gs := s.coreGroups core
    let s := s.modCore core fun c => { c with
      voff := c.voffNext, derate := c.derateNext, windows := c.windows + 1, checks := 0, winHits := 0, winMisses := 0 }
    let s := gs.foldl (fun (s : State) g => s.modGrp g fun x => { x with lease := x.newLease (s.blockOf g).record.meas }) s
    let adm := s.admission core gs
    let s := gs.foldl (fun (s : State) g => s.modGrp g fun x => { x with
      admitted := adm.contains g, skipped := if adm.contains g then 0 else x.skipped + 1, hits := 0, misses := 0, touched := [],
      passedSince := !(adm.contains g) && x.passedSince }) s
    s.modCore core fun c => { c with admitted := adm }
  else s

def execLeaseWindow (core : Nat) (s : State) : Out := .next (s.leaseWindow core)

/-- VICTIM_HIT_CHECK, every 256 clk of a window: with victim hits above 1/8 of misses and more than one group admitted, the
last admitted is dropped (R324). -/
def State.victimCheck (s : State) (core : Nat) : State :=
  let c := s.core core
  if c.windows != 0 && decide (4096 * (c.windows - 1) + 256 * (c.checks + 1) ≤ s.clk core) then
    let s := s.modCore core fun c => { c with checks := c.checks + 1 }
    if decide (c.winMisses < 8 * c.winHits) && decide (1 < c.admitted.length) then
      let s := s.modCore core fun c => { c with admitted := c.admitted.dropLast }
      match c.admitted.getLast? with
      | some g => s.modGrp g fun x => { x with admitted := false, passedSince := false }
      | none => s
    else s
  else s

def execVictimHitCheck (core : Nat) (s : State) : Out := .next (s.victimCheck core)

/-! ### Parking and relaunch (R328 to R332) -/

/-- PARKING_THRESHOLD: the clock of a stook has reached PARKTH µs and still runs (R329). -/
def State.threshold (s : State) (k : Nat) : State :=
  if decide (1000 * s.parkth.toNat ≤ (s.stk k).clock) && s.clockRuns k then s.parkStook k 1 0 else s

def execParkingThreshold (stook : Nat) (s : State) : Out := .next (s.threshold stook)

/-- FAULT_QUEUE_APPEND: an entry that waits for room enters the ring. -/
def execFaultQueueAppend (die : Nat) (s : State) : Out := .next (s.appendFault die)

/-- A wait of an abandoned instruction is over: a lane of it could be performed, or the limit it met is no more. -/
def State.accMet (s : State) (gid : Nat) (a : Acc) : Bool :=
  if a.op.perLane then
    (lanesOf a.left).any fun L => s.mayPerform gid a L && (s.performLane gid a L false false).2
  else (s.accRow gid a).isNone

/-- A copy's wait is over: its lines are final; a wait on presence bits ends at once (R331). -/
def State.copyMet (s : State) (c : Copy) : Bool :=
  c.out || c.lines.any fun l =>
    !(s.copyBelow c ((c.record.lineElems c.off l).filterMap fun e => c.record.elemAt c.org e.2))

/-- The oldest reserved entry of some window could be filled. -/
def State.entryMet (s : State) (gid : Nat) : Bool :=
  (List.range 8).any fun q => match (s.grp gid).reserved q with
    | some e => !((List.range 64).any (s.qputWaits gid e))
    | none => false

/-- The event that a parked group awaits has occurred (R328, R331). -/
def State.groupMet (s : State) (f : Frame) (gid : Nat) : Bool :=
  let g := s.grp gid
  if g.retired then f.wake.getLsbD 6 && (s.childGrids g.blk).isEmpty
  else
    let rows := s.waitRows gid
    rows.isEmpty || (rows.contains 10 && ((g.out.any (s.accMet gid)) || s.copies.any fun c => c.gid == gid && s.copyMet c)) ||
      (rows.contains 3 && s.entryMet gid)

/-- A parked block that the clock parked has an awaited event. -/
def State.blockMet (s : State) (b : Nat) : Bool :=
  match (s.blk b).frame with
  | some f => f.reason == 1 && (s.blk b).gids.any (s.groupMet f)
  | none => false

/-- The frames of a stook become ready, if no fault entry of them is unanswered. -/
def State.makeFramesReady (s : State) (k : Nat) : State :=
  let ms := (s.stk k).members
  if ms.all fun b => s.pendOf b == 0 then
    ms.foldl (fun (s : State) b => s.modBlk b fun x => { x with
      frame := x.frame.map fun (f : Frame) => { f with ready := true } }) s
  else s

/-- RELAUNCH_SIGNAL: an awaited event outside the stook has occurred (R331). -/
def State.relaunch (s : State) (k : Nat) : State :=
  if (s.stk k).members.any s.blockMet then s.makeFramesReady k else s

def execRelaunchSignal (stook : Nat) (s : State) : Out := .next (s.relaunch stook)

/-- PARK_TIMER_EXPIRY (R331, R351). -/
def State.parkExpiry (s : State) (k : Nat) : State :=
  if (s.stk k).members.any fun b => match (s.blk b).frame with
      | some f => f.reason == 2 && decide (f.timer ≤ s.time)
      | none => false
  then s.makeFramesReady k else s

def execParkTimerExpiry (stook : Nat) (s : State) : Out := .next (s.parkExpiry stook)

/-- WATCHDOG_EXPIRY (R347): the block's clock has passed WDOG ms, and its grid fails or its task faults. -/
def State.watchdog (s : State) (b : Nat) : State :=
  let k := s.blk b
  if s.wdog != 0 && !k.gone && decide (1000000 * s.wdog.toNat < k.wdog) then
    match s.blkTask b with
    | some t => s.runAll [.fault t 0x1C]
    | none => s.runAll [.endGrid k.grid 0x1C]
  else s

def execWatchdogExpiry (blk : Nat) (s : State) : Out := .next (s.watchdog blk)

/-! ### Answers, pre-emption and run queues (R335, R336, R348) -/

/-- A firmware body runs: its image has been accepted (R384). -/
def Root.runs (r : Root) : Body → Bool
  | .root => r.booted
  | .field => r.booted && r.fieldImg.isSome

/-- What field firmware does has an effect only while an accepted image of it runs (R383, R384). -/
def State.asField (s t : State) : Out := .next (if s.root.runs .field then t else s)

def execFqcmdResolve (die : Nat) (idx : BitVec 12) (s : State) : Out := s.asField (s.resolveEntry die idx.toNat)
def execFqcmdCancel (die : Nat) (idx : BitVec 12) (s : State) : Out := s.asField (s.cancelEntry die idx.toNat)
def execPreemptJob (job : Nat) (s : State) : Out := s.asField (s.preemptJob job)
def execPreemptGrid (num : BitVec 30) (s : State) : Out := s.asField (s.preemptGrid num)
def execPreemptCore (core : Nat) (s : State) : Out := s.asField (s.preemptCore core)
def execRqregRegister (q : BitVec 16) (s : State) : Out := s.asField (s.registerQueue q.toNat)
def execRqregDeregister (q : BitVec 16) (s : State) : Out := s.asField (s.deregisterQueue q.toNat)

/-! ### Configuration registers (R346, R367, R382, R383) -/

/-- Field firmware's write of a register of the root column has no effect and is counted (R383). -/
def State.rootOnly (s : State) (body : Body) (t : State) : State :=
  match body with
  | .root => t
  | .field => { s with root := { s.root with refusals := s.root.refusals + 1 } }

/-- A power of two from 2 to 65,536 (R382). -/
def ringOk (v : Nat) : Bool := (List.range 16).any fun i => v == 2 ^ (i + 1)

/-- A write of a configuration register under its access rules; a value outside a register's limits has no effect (log
entry 22). -/
def State.setConfig (s : State) (body : Body) (v : Nat) : ConfigReg → State
  | .sys job core n =>
    match sysAccess n.toNat with
    | none => s
    | some a => if a.writeRefused job false || decide (256 ≤ core) then s
        else s.setSysReg core n.toNat (BitVec.ofNat 32 v)
  | .lqBase q => s.rootOnly body (if v % 256 == 0 && decide (q < 60) then s.setLq q { s.lq q with base := v } else s)
  | .lqSize q => s.rootOnly body (if ringOk v && decide (q < 60) then s.setLq q { s.lq q with size := v } else s)
  | .lqJob q => s.rootOnly body (if q < 60 then s.setLq q { s.lq q with job := BitVec.ofNat 32 v } else s)
  | .wcbAge => if decide (1 ≤ v) && decide (v ≤ 256) then { s with fabric := { s.fabric with wcbAge := v } } else s
  | .swBase job => s.rootOnly body (s.modJob job fun j => { j with swBase := v })
  | .swSize job => s.rootOnly body (if v ≤ 64 then s.modJob job fun j => { j with swSize := v } else s)

/-- REGISTER_WRITE: a body that does not run writes nothing (R384). -/
def State.writeConfig (s : State) (body : Body) (v : Nat) (r : ConfigReg) : State :=
  if s.root.runs body then s.setConfig body v r else s

def execRegisterWrite (body : Body) (r : ConfigReg) (v : Nat) (s : State) : Out := .next (s.writeConfig body v r)

end Sys2Proof.Machine
end

