-- ==== Sys2Proof/Machine/Haywain.lean ====
section
/-!
DEFINITION. The Haywain's events (R355 to R374): packets that reach their target, grade notices, the age of write-combining
entries, route tables and links, and the job switch.
-/
namespace Sys2Proof.Machine

/-! ### Packets and their flits (R363) -/

/-- The types of R363's table. -/
def knownKind (k : BitVec 4) : Bool := [0, 1, 2, 3, 4, 8, 9, 10, 12, 13].contains k.toNat

/-- The channel of a packet: 00 posted, 01 non-posted, 10 completion. -/
def packetVc (p : Packet) : Nat := if p.posted then 0 else if p.kind.toNat < 12 then 1 else 2

/-- The packet carries bytes of memory at their places in its flits: a write, a graded write or data. -/
def inPlace (p : Packet) : Bool := p.kind == 0 || p.kind == 3 || p.kind == 13

/-- The 64-byte halves of its line that a packet's flits carry, in order. -/
def packetHalves (p : Packet) : List Nat :=
  let hs := [0, 1].filter fun h => inPlace p && p.bytes.any fun b => b.1 / 64 % 2 == h
  if hs.isEmpty then [p.addr.toNat / 64 % 2] else hs

/-- The bytes that one flit carries. -/
def flitBytes (p : Packet) (h : Nat) : List (Nat × Byte) :=
  if inPlace p then p.bytes.filter fun b => b.1 / 64 % 2 == h else p.bytes

/-- The words a flit writes: bit i for bytes 4 i to 4 i + 3. -/
def flitMask (p : Packet) (h : Nat) : Nat :=
  (List.range 16).foldl (fun m i => if (flitBytes p h).any fun b => b.1 % 64 / 4 == i then m + 2 ^ i else m) 0

/-- The 16-byte header of a flit. -/
def flitHeader (p : Packet) (h : Nat) (last : Bool) : Nat :=
  at' 117 (p.dst % 2048) + at' 106 (p.src % 2048) + at' 94 (p.jtag % 4096) + at' 92 (packetVc p) + at' 88 p.kind.toNat +
  at' 87 (if p.colour then 1 else 0) + at' 86 (if p.rlx then 1 else 0) +
  at' 84 (if p.kind == 3 || p.kind == 4 then p.grade.toNat else 0) + at' 76 p.tag.toNat + at' 60 (flitMask p h) +
  at' 6 ((p.addr.toNat / 128 * 2 + h) % 2 ^ 51) + at' 0 (if last then 1 else 0)

/-- The grade that a graded read asks, and its completion gives, which no header field holds: in byte 62 of the payload, or in
byte 0 where data stands there (log entry 74). -/
def gradePart (p : Packet) (bs : List (Nat × Byte)) : Nat :=
  if p.kind == 10 || p.kind == 13 then at' (if inPlace p && bs.any fun b => b.1 % 64 == 62 then 0 else 496) p.grade.toNat else 0

/-- The 64-byte payload of a flit: bytes at their places, or what a packet carries from byte 0 on, with the byte mask of a
sub-word write in byte 4 and a reduction's operation in byte 63 (R363; log entry 74). -/
def flitPayload (p : Packet) (h : Nat) : Nat :=
  let bs := flitBytes p h
  gradePart p bs +
  if inPlace p then bs.foldl (fun x b => x + at' (8 * (b.1 % 64)) b.2.toNat) 0
  else
    ((List.range bs.length).zip bs).foldl (fun x b => x + at' (8 * (if p.kind == 1 then b.2.1 % 4 else b.1)) b.2.2.toNat) 0 +
      (if p.kind == 1 then at' 32 (bs.foldl (fun m b => m + 2 ^ (b.1 % 4)) 0) else 0) +
      (if p.kind == 2 || p.kind == 4 then at' 504 p.redOp.toNat else 0)

/-- The flits of a packet, of 80 bytes each: header, then payload. -/
def packetFlits (p : Packet) : List Nat :=
  let hs := packetHalves p
  hs.map fun h => flitHeader p h (some h == hs.getLast?) + at' 128 (flitPayload p h)

/-! ### Packets that arrive here (R355, R363, R369) -/

/-- The location here of an address of the job, if a page of local HBM covers it. -/
def State.homeLoc (s : State) (job va : Nat) : Option Nat :=
  match s.pageEntry job va with
  | some p => if isLocal (p.loc va) then some (p.loc va) else none
  | none => none

/-- The job of this device whose packet it is; none, and no job, when its tag names none. -/
def State.jobOfPacket (s : State) (p : Packet) : Nat := (s.tagJob p.jtag).getD 0

/-- A packet's bytes at their locations here. -/
def State.packetBytes (s : State) (p : Packet) : Memory :=
  p.bytes.filterMap fun b => (s.homeLoc (s.jobOfPacket p) b.1).map fun loc => (loc, b.2)

/-- A little-endian value of bytes. -/
def bytesVal (bs : List (Nat × Byte)) : Nat := bs.foldr (fun b acc => b.2.toNat + 256 * acc) 0

def packetOp (p : Packet) : AtomOp :=
  [AtomOp.add, .min, .max, .and, .or, .xor, .exch, .incw].getD p.redOp.toNat .add

/-- A completion with data goes back to the source, under the tag of its request. -/
def State.reply (s : State) (p : Packet) (kind : BitVec 4) (bytes : List (Nat × Byte)) (g : Grade) : State :=
  s.inject { p with
    dst := p.src, src := p.dst, kind := kind, rlx := false, bytes := bytes, redOp := 0, threads := [], grade := g }

/-- The bytes of a value from an address. -/
def valBytes (va n v : Nat) : List (Nat × Byte) := (List.range n).map fun i => (va + i, BitVec.ofNat 8 (v / 256 ^ i))

/-- The subscription of a peer's task. -/
def State.peerSub (s : State) (p : Packet) (line : Nat) : Option Sub :=
  s.subs.find? fun x => x.line == line && x.task == { job := s.jobOfPacket p, rec' := p.task } && x.chip == some p.src

/-- A graded read finds no free entry for the subscription it would make (R269). -/
def State.tableFull (s : State) (p : Packet) : Bool :=
  match s.homeLoc (s.jobOfPacket p) p.addr.toNat with
  | none => false
  | some loc => s.lineGrade (lineOf loc) != 3 && (s.peerSub p (lineOf loc)).isNone && decide (subLimit ≤ s.subsOn (s.homeDie loc))

/-- The grade that a graded read asks is met (R267). -/
def State.gradeMet (s : State) (p : Packet) : Bool :=
  match s.homeLoc (s.jobOfPacket p) p.addr.toNat with
  | none => true
  | some loc => decide ((if p.grade == 0 then 3 else p.grade.toNat) ≤ (s.lineGrade (lineOf loc)).toNat)

/-- A graded read may be performed: it waits for the grade it asks, and for an entry of the table (R267, R269). -/
def State.gradedReadMet (s : State) (p : Packet) : Bool := s.gradeMet p && !(s.tableFull p)

/-- A graded read returns the bytes and grade, and records the subscription of a read below final under (chip, task)
(R369). -/
def State.gradedReadHere (s : State) (p : Packet) (loc n : Nat) : State :=
  let line := lineOf loc
  let g := s.lineGrade line
  let s : State := if g == 3 then s
    else
      let t : TaskId := { job := s.jobOfPacket p, rec' := p.task }
      let rest := s.subs.filter fun x => !(x.line == line && x.task == t && x.chip == some p.src)
      { s with subs := rest ++ [{ line := line, task := t, grade := g, chip := some p.src }] }
  s.reply p 13 (valBytes p.addr.toNat n (s.homeRead loc n)) g

/-- An atomic here: with twice its size in bytes it is a compare-and-swap, the value to compare first. -/
def State.atomicHere (s : State) (p : Packet) (loc : Nat) : State :=
  let n := fmtSize p.redFmt
  let r := s.readThere (s.jobOfPacket p) p.addr.toNat loc n
  let new := if p.bytes.length == 2 * n then
      (if r.1 == bytesVal (p.bytes.take n) then bytesVal (p.bytes.drop n) else r.1)
    else atomNew (packetOp p) p.redFmt r.1 (bytesVal p.bytes)
  (r.2.homeWrite loc n new).reply p 13 (valBytes p.addr.toNat n r.1) 0

/-- A grade notice meets the local task that subscribed to a peer's line (R369): a re-fire, or its count moves. -/
def State.notice (s : State) (t : TaskId) (line : Nat) (refire : Bool) (g : Grade) : State :=
  if !(s.remoteSubs.any fun x => x.1 == t && x.2.1 == line) then s
  else
    let rest := s.remoteSubs.filter fun x => !(x.1 == t && x.2.1 == line)
    if refire then (({ s with remoteSubs := rest }).syncCounts t).runAll [.refire t]
    else (({ s with remoteSubs := if g == 3 then rest else rest ++ [(t, line, g)] }).syncCounts t).runAll [.settle t]

/-- A packet is performed at this device's home, as a store, reduction, atomic or read by its port (R355); in a commutative range
each is a combining read first (R155). A graded write's writer is the task of its source that made it (R272). A reader's chip
enters the sharer directory (R368). Of an address that no local page of the job covers nothing is kept. -/
def State.performInward (s : State) (p : Packet) : State :=
  let job := s.jobOfPacket p
  let va := p.addr.toNat
  if p.kind == 0 || p.kind == 1 then
    (s.packetBytes p).foldl (fun (s : State) (b : Nat × Byte) => s.homeWrite b.1 1 b.2.toNat)
      (match s.homeLoc job va with
        | some loc => (s.readThere job va loc 4).2
        | none => s)
  else if p.kind == 4 then
    s.notice { job := job, rec' := p.task } (lineOf (chipBase job p.src + va)) (p.redOp == 1) p.grade
  else match s.homeLoc job va with
    | none => s
    | some loc =>
      if p.kind == 2 then
        let r := s.readThere job va loc (fmtSize p.redFmt)
        r.2.homeWrite loc (fmtSize p.redFmt) (atomNew (packetOp p) p.redFmt r.1 (bytesVal p.bytes))
      else if p.kind == 3 then
        let w : Option Writer := if p.task == 0 then none else some { chip := some p.src, task := { job := job, rec' := p.task } }
        let r := s.gradedStore w (lineOf loc) (s.packetBytes p) p.grade
        r.1.runAll r.2.1
      else if p.kind == 8 then
        let r := s.readThere job va loc (max 4 p.bytes.length)
        (r.2.share loc p.src).reply p 13 (valBytes va (max 4 p.bytes.length) r.1) 0
      else if p.kind == 9 then s.atomicHere p loc
      else if p.kind == 10 then (s.share loc p.src).gradedReadHere p loc (max 4 p.bytes.length)
      else s

/-! ### The sweep store (R370, R371, R374) -/

/-- A record of the sweep store: a 16-byte header, then the packet's flits (R371). -/
def SweepRec.image (r : SweepRec) : Nat :=
  let fs := packetFlits r.pkt
  at' 117 (r.pkt.src % 2048) + at' 115 (packetVc r.pkt) + at' 114 (if r.late then 1 else 0) +
  at' 113 (if fs.length == 2 then 1 else 0) + at' 0 r.seq + (fs.foldr (fun f x => f + at' 640 x) 0) * 2 ^ 128

def packetRoom (p : Packet) : Nat := 16 + 80 * (packetHalves p).length
def SweepRec.bytes (r : SweepRec) : Nat := packetRoom r.pkt
def zoneBytes (rs : List SweepRec) : Nat := rs.foldl (fun n r => n + r.bytes) 0

/-- The overflow zone: the last 4 MiB of the store, or all of a smaller one (R371). -/
def Job.overflowSize (j : Job) : Nat := min (4 * 2 ^ 20) (j.swSize * 2 ^ 20)
def Job.overflowBase (j : Job) : Nat := j.swBase + j.swSize * 2 ^ 20 - j.overflowSize

/-- A packet joins a job's sweep store in order of arrival, and its record is written there; one for which there is no room is
dropped and counted (R371, R374). -/
def State.sweep (s : State) (job : Nat) (late : Bool) (p : Packet) : State :=
  match s.job? job with
  | none => s
  | some j =>
    let r : SweepRec := { seq := j.seq, late := late, pkt := p }
    let put := fun (s : State) (a : Nat) =>
      let s := s.combineOver a r.bytes
      { s with mem := Memory.write s.mem a r.bytes r.image }
    if !late && j.overflow.isEmpty && decide (j.swBase + zoneBytes j.sealedRecs + r.bytes ≤ j.overflowBase) then
      (put s (j.swBase + zoneBytes j.sealedRecs)).setJob job { j with sealedRecs := j.sealedRecs ++ [r], seq := j.seq + 1 }
    else if zoneBytes j.overflow + r.bytes ≤ j.overflowSize then
      (put s (j.overflowBase + zoneBytes j.overflow)).setJob job { j with overflow := j.overflow ++ [r], seq := j.seq + 1 }
    else s.setJob job { j with lateDropped := j.lateDropped + 1, dropPending := true }

/-- A packet is dropped and counted (R363). -/
def State.dropPacket (s : State) : State := { s with fabric := { s.fabric with dropCnt := s.fabric.dropCnt + 1 } }

/-- A packet reaches this device: it is dropped and counted when its type is unknown or its tag is no job's
(R363), swept while its job is halted, kept as late while it is out, and else performed. -/
def State.receive (s : State) (p : Packet) : State :=
  match s.tagJob p.jtag with
  | none => s.dropPacket
  | some job =>
    if !(knownKind p.kind) then s.dropPacket
    else match (s.job? job).map (fun (j : Job) => j.sw) with
      | some .halted => s.sweep job false p
      | some .out => s.sweep job true p
      | _ => s.performInward p

/-! ### Order on the fabric (R360) -/

/-- A packet may overtake one before it (R360): one of another pair; when relaxed any but of its own line; and else what was not
posted. -/
def mayPass (p q : Packet) : Bool :=
  p.jtag != q.jtag || p.src != q.src || p.dst != q.dst ||
    (if p.rlx then lineOf p.addr.toNat != lineOf q.addr.toNat else !q.posted)

/-- What a packet reaches here is held by a die's warm reset: its home, or the Binder (R387). -/
def State.homeHeld (s : State) (p : Packet) : Bool :=
  match s.homeLoc (s.jobOfPacket p) p.addr.toNat with
  | some loc => s.unitHeld loc || (p.kind == 4 && s.binderHeld)
  | none => p.kind == 4 && s.binderHeld

/-- What a packet on its way in reaches is held: its home here, or, for a job that is switched out, its place in the sweep store. -/
def State.inwardHeld (s : State) (p : Packet) : Bool :=
  let job := s.jobOfPacket p
  if s.jobIn job .out then
    match s.job? job with
    | some j => (s.tagJob p.jtag).isSome && knownKind p.kind && s.spanHeld (j.overflowBase + zoneBytes j.overflow) (packetRoom p)
    | none => false
  else s.homeHeld p

/-- GRADE_NOTICE: a notice of a peer, which is a packet of the fabric, and swept as one (R289, R369): it is received at once unless
an earlier packet of its sender must go before it (R360). -/
def State.gradeNotice (s : State) (n : Notice) : State :=
  let p : Packet := { s.packet (s.chip n.job) n.job 4 false (128 * n.line % 2 ^ 64) [] [] with
    src := chipOf (128 * n.line), grade := n.grade, redOp := if n.refire then 1 else 0, task := n.task }
  if s.fabric.inward.all (mayPass p) && !(s.inwardHeld p) then s.receive p
  else { s with fabric := { s.fabric with inward := s.fabric.inward ++ [p] } }

def execGradeNotice (n : Notice) (s : State) : Out := .next (s.gradeNotice n)

/-- REMOTE_PACKET_RECEIVE: packet number `n` of those on their way in or out reaches its target, if R360 lets it. -/
def State.packetArrives (s : State) (inward : Bool) (n : Nat) : State :=
  let ps := if inward then s.fabric.inward else s.fabric.outward
  match ps[n]? with
  | none => s
  | some p =>
    if !((ps.take n).all (mayPass p)) then s
    else if inward then
      if !(s.jobIn (s.jobOfPacket p) .halted) && s.inwardHeld p then s else
      if p.kind == 10 && (s.tagJob p.jtag).isSome && s.jobIn (s.jobOfPacket p) .running && !(s.gradedReadMet p) then
        -- a read whose grade is met and that finds the subscription table full waits for final from then on (R269)
        if s.gradeMet p && s.tableFull p then
          { s with fabric := { s.fabric with inward := s.fabric.inward.set n { p with grade := 3 } } }
        else s
      else ({ s with fabric := { s.fabric with inward := ps.eraseIdx n } }).receive p
    else
      if s.jobIn (s.jobOfPacket p) .out then s
      else ({ s with fabric := { s.fabric with outward := ps.eraseIdx n } }).performOutward p

def execRemotePacketReceive (inward : Bool) (n : Nat) (s : State) : Out := .next (s.packetArrives inward n)

/-- WCB_AGE_EXPIRY: an open entry has been open for WCBAGE, in units of 0.25 µs (R357, R367). -/
def State.wcbExpiry (s : State) (core n : Nat) : State :=
  match (s.core core).wcb[n]? with
  | none => s
  | some e => if e.opened + 250 * s.fabric.wcbAge ≤ s.time then s.closeEntries core (· == e) else s

def execWcbAgeExpiry (core n : Nat) (s : State) : Out := .next (s.wcbExpiry core n)

/-! ### Routes and links (R365, R366) -/

/-- ROUTE_TABLE_UPDATE: new packets take the other colour; a second update waits for the retirement. -/
def State.routeUpdate (s : State) : State :=
  if s.fabric.retiring then { s with fabric := { s.fabric with updateDue := true } }
  else { s with fabric := { s.fabric with colour := !s.fabric.colour, retiring := true, updateDue := false } }

def execRouteTableUpdate (s : State) : Out := .next s.routeUpdate

/-- ROUTE_COLOUR_RETIRE: the layer reports that no packet of the old colour remains, which is so once none is on its way; an
update that waited then begins. -/
def State.routeRetire (s : State) : State :=
  if !s.fabric.retiring || s.fabric.outward.any fun p => p.colour != s.fabric.colour then s
  else
    let s' : State := { s with fabric := { s.fabric with retiring := false } }
    if s.fabric.updateDue then s'.routeUpdate else s'

def execRouteColourRetire (s : State) : Out := .next s.routeRetire

/-- The channels a link carries (R366): posted and non-posted, completion and sweep. -/
def linkCarries (cells : Nat) : Bool × Bool := (decide (8 ≤ cells), decide (4 ≤ cells))

/-- The flits a link can hold, as far as it has been degraded: a layer that meets R364 reserves 8. -/
def State.linkCells (s : State) (link : Nat) : Nat := (Tbl.find s.fabric.links link).getD 8

/-- LINK_BUFFER_DEGRADE: what a link can still hold, in flits; it only falls. When it stops to carry a channel, traffic is
re-routed by a table update (R365, R366). -/
def State.degrade (s : State) (link cells : Nat) : State :=
  let now := min (s.linkCells link) cells
  let s' : State := { s with fabric := { s.fabric with links := Tbl.put s.fabric.links link now } }
  if linkCarries now == linkCarries (s.linkCells link) then s' else s'.routeUpdate

def execLinkBufferDegrade (link cells : Nat) (s : State) : Out := .next (s.degrade link cells)

/-! ### The job switch (R370 to R374, R385) -/

/-- A switch of the job has been stamped or has not finished sealing or re-injecting. -/
def Job.switching (j : Job) : Bool := j.outStamp.isSome || j.inStamp.isSome || j.sw == .halted

/-- JOB_SWITCH_COMMAND: a stamp at least 2 µs ahead is set for the device's panel, unless a switch is unfinished or a die is
being reset (R385). -/
def State.switchCommand (s : State) (job panel : Nat) (out : Bool) (stamp : Nat) : State :=
  match s.job? job with
  | none => s
  | some j =>
    if j.spec.panel != panel || stamp < s.time + 2000 || j.switching || s.dieReset.isSome then s
    else if out then (if j.sw == .running then s.setJob job { j with outStamp := some stamp } else s)
    else if j.sw == .out then s.setJob job { j with inStamp := some stamp } else s

def execJobSwitchCommand (job panel : Nat) (out : Bool) (stamp : Nat) (s : State) : Out :=
  .next (s.switchCommand job panel out stamp)

/-- Close and send the entries of a job on every core. -/
def State.sendEntries (s : State) (job : Nat) : State :=
  s.cores.foldl (fun (s : State) (c : Nat × Core) => s.closeEntries c.1 fun e => e.job == job) s

/-- SWITCH_OUT_STAMP: the timebase has reached the stamp; the job's groups issue no more clauses and its accesses of peers stop,
the sweep begins (R370 step 1), and every open entry of the job is closed and sent (step 2), for none opens any more. -/
def State.switchOut (s : State) (job : Nat) : State :=
  match s.job? job with
  | none => s
  | some j => match j.outStamp with
    | none => s
    | some t => if t ≤ s.time then (s.setJob job { j with sw := .halted, outStamp := none, seq := 0 }).sendEntries job else s

def execSwitchOutStamp (job : Nat) (s : State) : Out := .next (s.switchOut job)

/-- Stooks of a job that are resident. -/
def State.jobStooks (s : State) (job : Nat) : List Nat :=
  ((s.blocks.filter fun b => b.2.job == job && b.2.resident).map fun b => b.2.stook).eraseDups

/-- Every group of the job has halted. -/
def State.jobHalted (s : State) (job : Nat) : Bool :=
  s.blocks.all fun b => b.2.job != job || !b.2.resident || s.halted b.1

/-- Classify the graded stores of a job that wait, but those that a full list holds (R276, R289). -/
def State.classifyJob : Nat → State → Nat → State
  | 0, s, _ => s
  | n + 1, s, job =>
    match (List.range s.gstores.length).find? fun i =>
      (s.gstores[i]?.any fun x => x.task.job == job) && (s.classifyAt i false).isSome with
    | none => s
    | some i => State.classifyJob n (s.classify i) job

/-- Packets of the job that have reached the device are swept. -/
def State.sweepJob (s : State) (job : Nat) : State :=
  let mine := s.fabric.inward.filter fun p => s.jobOfPacket p == job
  let s : State := { s with fabric := { s.fabric with inward := s.fabric.inward.filter fun p => s.jobOfPacket p != job } }
  mine.foldl (fun (s : State) p => s.receive p) s

/-- The job's run entries leave the registered queues and its entries the subscription tables: they are kept with the job
(R289). -/
def State.saveReady (s : State) (job : Nat) : State :=
  let mine := s.runqs.flatMap fun q => ((s.bq q).items.filter fun e => e.job == job).map fun e => (q, e)
  let s := s.runqs.foldl (fun (s : State) q =>
    s.setBq q { s.bq q with items := (s.bq q).items.filter fun e => e.job != job }) s
  let s := s.modJob job fun j => { j with
    ready := mine, subs := s.subs.filter fun x => x.task.job == job, writers := s.lastWriter.filter fun w => w.2.task.job == job }
  { s with subs := s.subs.filter fun x => x.task.job != job, lastWriter := s.lastWriter.filter fun w => w.2.task.job != job }

/-- An instruction with a remote lane left is kept outstanding (R370). -/
def Acc.keep (a : Acc) : Acc :=
  let remote := (lanesOf a.left).any fun L => isRemote (a.addrOf L)
  if a.op.perLane && !a.op.scratch && remote then { a with st := .kept } else a

/-- What the job's groups have in flight here is performed where it can be, and an instruction with a remote lane left is kept
outstanding (R370, R372). -/
def State.settleJob (s : State) (job : Nat) : State :=
  let gids := (s.blocks.filter fun b => b.2.job == job).flatMap fun b => b.2.gids.filter s.inFlight
  gids.foldl (fun (s : State) g => s.modGrp g fun x => { x with out := x.out.map Acc.keep }) (s.settleGroups gids false)

/-- SWITCH_SEAL: every group has halted and the layer reports the job empty; the sweep store is sealed and the frames are written
with reason 5. -/
def State.seal (s : State) (job : Nat) : State :=
  match s.job? job with
  | none => s
  | some j =>
    if j.sw == .halted && s.jobHalted job then
      let s := (s.settleJob job).sweepJob job
      let s := State.classifyJob s.gstores.length s job
      let s := (s.jobStooks job).foldl (fun (s : State) k => s.parkStook k 5 0) s
      (s.saveReady job).modJob job fun j => { j with sw := .out }
    else s

def execSwitchSeal (job : Nat) (s : State) : Out := .next (s.seal job)

/-- Frames held for a reason are let go, and are ready when no fault entry of their stook is unanswered. -/
def State.letGo (s : State) (p : Nat × Block → Bool) (reason : Nat) : State :=
  let held := s.blocks.filter fun b => p b && (match b.2.frame with
    | some f => f.hold == reason
    | none => false)
  let s := held.foldl (fun (s : State) b => s.modBlk b.1 fun x => { x with
    frame := x.frame.map fun (f : Frame) => { f with hold := 0 } }) s
  -- frames of another reason keep their own signal (R331, R332)
  let asked := held.filter fun b => match b.2.frame with
    | some f => decide (4 ≤ f.reason)
    | none => false
  ((asked.map fun b => b.2.stook).eraseDups).foldl State.makeFramesReady s

/-- The saved run entries go back, in order of age, and the saved entries of the tables. -/
def State.restoreReady (s : State) (job : Nat) : State :=
  match s.job? job with
  | none => s
  | some j =>
    let put := fun (s : State) (e : Nat × BItem) =>
      let q := s.bq e.1
      s.setBq e.1 { q with
        items := (q.items.filter fun x => decide (x.stamp < e.2.stamp)) ++ [e.2] ++
          q.items.filter fun x => decide (e.2.stamp ≤ x.stamp) }
    let s := (j.ready.foldl put s).modJob job fun j => { j with ready := [], subs := [], writers := [] }
    { s with subs := s.subs ++ j.subs, lastWriter := j.writers.foldl (fun t w => Tbl.put t w.1 w.2) s.lastWriter }

/-- The remote lanes that a job switch kept are performed, where the order of the fabric lets them, before their group resumes
(R372). -/
def State.performKept (s : State) (job : Nat) : State :=
  (s.groups.filter fun g => s.jobOf g.1 == job).foldl (fun (s : State) g =>
    (g.2.out.filter fun a => a.st == .kept).foldl (fun (s : State) a =>
      (s.performLanes g.1 a (maskOf fun L => inMask a.left L && isRemote (a.addrOf L)) false).completeIfDone g.1 a.id) s) s

/-- SWITCH_IN_STAMP: the Binder's state is restored, the sealed and then the overflow records are performed in order of
arrival, then the remote accesses that the frames kept, the frames are released, and a dropped packet is made known to every
group (R373, R374). -/
def State.switchIn (s : State) (job : Nat) : State :=
  match s.job? job with
  | none => s
  | some j => match j.inStamp with
    | none => s
    | some t =>
      -- what a die's warm reset holds of it makes it wait (R387)
      if (j.sealedRecs ++ j.overflow).any fun r => s.homeHeld r.pkt then s
      else if decide (t ≤ s.time) && j.sw == .out then
        let s := (s.restoreReady job).modJob job fun j => { j with
          sw := .running, inStamp := none, sealedRecs := [], overflow := [], dropPending := false,
          lateLast := j.overflow.countP fun r => r.late, switchIns := j.switchIns + 1 }
        -- as if they had just arrived: a graded read below its grade waits again (R269, R373)
        let s := (j.sealedRecs ++ j.overflow).foldl (fun (s : State) r =>
          if r.pkt.kind == 10 && !(s.gradedReadMet r.pkt) then
            { s with fabric := { s.fabric with inward := s.fabric.inward ++ [r.pkt] } }
          else s.performInward r.pkt) s
        let s := s.performKept job
        let s := if j.dropPending then
            (s.blocks.filter fun b => b.2.job == job).foldl (fun (s : State) b =>
              b.2.gids.foldl (fun (s : State) g =>
                if (s.grp g).retired then s else s.boundary g { code := fLate, info := 3, lane := 64, addr := 0 }) s) s
          else s
        s.letGo (fun b => b.2.job == job) 5
      else s

def execSwitchInStamp (job : Nat) (s : State) : Out := .next (s.switchIn job)

/-- LATE_PACKET: a packet of a job that is switched out goes to the overflow zone, or is dropped and counted, one of an unknown
type among the latter (R363); of any other job it arrives, and so it does while a die's warm reset holds its place (R387). -/
def State.late (s : State) (p : Packet) : State :=
  if s.jobIn (s.jobOfPacket p) .out && (s.tagJob p.jtag).isSome && !(s.inwardHeld p) then s.receive p
  else { s with fabric := { s.fabric with inward := s.fabric.inward ++ [p] } }

def execLatePacket (p : Packet) (s : State) : Out := .next (s.late p)

end Sys2Proof.Machine
end

