-- ==== Sys2Proof/Machine/HostLink.lean ====
section
/-!
DEFINITION. Root firmware, the host and the module (R177, R342, R350, R381 to R389): warm reset of a die, jobs, firmware
images and identity statements, CXL.mem, device reset, power, and poisoned data.
-/
namespace Sys2Proof.Machine

/-! ### Die warm reset (R386, R387) -/

/-- The lanes that an instruction still has to perform at some homes; of one that is not lane by lane and not performed, lane 0
stands for it. -/
def Acc.lanesTo (a : Acc) (home : Nat → Bool) : List Nat :=
  if a.op.scratch then []
  else if a.op.perLane then (lanesOf a.left).filter fun L => home (a.addrOf L)
  else if a.got.isEmpty && a.addr.any home then [0] else []

/-- In-range elements of a copy's lines that lie at some homes. -/
def State.elemsTo (s : State) (home : Nat → Bool) (c : Copy) (lines : List Nat) : List (Nat × Nat) :=
  (c.elems lines).filter fun e => home (s.aheadLoc c.gid (if c.out then .write else .read) e.2)

/-- The lanes of a `qput` that lie at some homes. -/
def State.qputTo (s : State) (home : Nat → Bool) (gid : Nat) (e : QEntry) : List Nat :=
  if e.sp then [] else (List.range 64).filter fun L => home (s.aheadLoc gid .read (e.addr L).toNat)

/-- A location is homed on a die, and was before step 3 of its reset moved the homes. -/
def State.homedOn (s : State) (die loc : Nat) : Bool := isLocal loc && s.homeDie loc == die
def State.homedBefore (s : State) (r : DieReset) (loc : Nat) : Bool := isLocal loc && s.homeBefore r loc == r.die

/-- Requests of other dies that a die still has to perform: instructions and copies, but those that parking has abandoned (R330). -/
def State.sentTo (s : State) (die : Nat) : List (Nat × Nat) :=
  (s.groups.filter fun g => dieOf (s.coreOf g.1) != die && s.inFlight g.1).flatMap fun g =>
    (g.2.out.filter fun a => a.st != .abandoned && !(a.lanesTo (s.homedOn die)).isEmpty).map (fun a => (g.1, a.id)) ++
    (s.copies.filter fun c => c.gid == g.1 && !(s.elemsTo (s.homedOn die) c c.lines).isEmpty).map fun c => (g.1, c.id)

/-- Requests of other dies that a die still has to perform: the oldest reserved entries of queue windows. -/
def State.sentToQ (s : State) (die : Nat) : List (Nat × Nat) :=
  (s.groups.filter fun g => dieOf (s.coreOf g.1) != die && s.inFlight g.1).flatMap fun g =>
    ((List.range 8).filter fun q => match g.2.reserved q with
      | some e => !(s.qputTo (s.homedOn die) g.1 e).isEmpty
      | none => false).map fun q => (g.1, q)

/-- A group receives an error reply: it takes ecc-uncorrectable at its boundary (R386 step 4). -/
def State.eccAt (s : State) (gid L : Nat) (va : Dword) : State := s.boundary gid { code := 0x1B, info := 0, lane := L, addr := va }

/-- A free value of up to 16 bytes. -/
def State.freeWide (s : State) (n : Nat) : Nat :=
  ((List.range 4).foldl (fun v i => v + 2 ^ (32 * i) * (Config.freeWord (s.freeCount + i)).toNat) 0) % 256 ^ n

/-- The lanes of an instruction that are addressed to a die receive an error reply: a load's take poisoned data, a write is not
made, and an instruction that is not lane by lane is over with poisoned scalars. -/
def State.replyAcc (s : State) (home : Nat → Bool) (gid : Nat) (a : Acc) : State :=
  match a.lanesTo home with
  | [] => s
  | L :: ls =>
    let s := s.eccAt gid (if a.op.perLane then L else 64) (a.vaOf L)
    if a.op.perLane then
      let s := match a.op.dest with
        | some d => (L :: ls).foldl (fun (s : State) L =>
            (s.placeLane gid a d L (s.freeWide (fmtSize a.fmt)) false).useFree 4) s
        | none => s
      (s.modAcc gid a.id fun b => { b with done := (L :: ls).foldl (fun m i => m ||| (1#64 <<< i)) b.done }).completeIfDone gid a.id
    else
      (a.op.scalars.foldl (fun (s : State) n => (s.setSreg gid n (Config.freeWord s.freeCount)).useFree 1) s).complete gid a

/-- The lines of a copy with elements on a die receive error replies: what arrives is poisoned, what departs is not written
there. -/
def State.replyCopy (s : State) (home : Nat → Bool) (c : Copy) : State :=
  match s.elemsTo home c c.lines with
  | [] => s
  | e :: _ =>
    let n := c.record.esize
    let hit := c.lines.filter fun l => !(s.elemsTo home c [l]).isEmpty
    hit.foldl (fun (s : State) l =>
      let bad := s.elemsTo home c [l]
      let s := if c.out then
          (c.elems [l]).foldl (fun (s : State) x =>
            if bad.contains x then s
            else s.reapStore c.gid (s.aheadLoc c.gid .write x.2) n (s.scratchRead c.blk x.1 n)) s
        else (c.record.lineElems c.off l).foldl (fun (s : State) x =>
          if bad.any fun b => b.1 == x.1 then (s.scratchWrite c.blk x.1 n (s.freeWide n)).useFree 4
          else s.copyInElem c x) s
      s.lineMoved c l) (s.eccAt c.gid 64 (BitVec.ofNat 64 e.2))

/-- A request that still is addressed to some homes receives an error reply. -/
def State.errorReply (s : State) (home : Nat → Bool) (gid id : Nat) : State :=
  match (s.grp gid).out.find? fun a => a.id == id with
  | some a => s.replyAcc home gid a
  | none => match s.copies.find? fun c => c.id == id with
    | some c => s.replyCopy home c
    | none => s

/-- The lanes of a `qput` entry that are addressed to a die take poisoned data. -/
def State.errorReplyQ (s : State) (home : Nat → Bool) (gid q : Nat) : State :=
  match (s.grp gid).reserved q with
  | none => s
  | some e =>
    match s.qputTo home gid e with
    | [] => s
    | L :: ls =>
      let r := (s.eccAt gid L (e.addr L)).qputLanes gid e (List.range 64)
      let vals := (List.range 64).map fun i =>
        if (L :: ls).contains i then Config.freeWord (r.2.freeCount + i) else r.1.getD i 0
      (r.2.useFree 64).modGrp gid fun g => { g with queues := Tbl.put g.queues q (fillFirst vals (g.queue q)) }

/-- A core of a die that is reset: its caches and buffers are empty; its clk count and Almanac plan stand. -/
def Core.warm (c : Core) : Core :=
  { Core.zero with clkLost := c.clkLost, windows := c.windows, voff := c.voff, derate := c.derate, voffNext := c.voffNext,
                   derateNext := c.derateNext }

/-- The lowest-numbered die other than one. -/
def otherDie (die : Nat) : Nat := if die == 0 then 1 else 0

/-- One step of R386 for a die. Step 2 waits until no block is resident on the die, nor owes accesses from there (R77). -/
def State.resetStep (s : State) (r : DieReset) : State :=
  let on := fun (b : Nat × Block) => dieOf b.2.core == r.die
  match r.step with
  | 1 =>
    if s.blocks.any fun b => (b.2.resident || b.2.gone) && on b then s
    else { s with dieReset := some { r with step := 2, sent := s.sentTo r.die, sentQ := s.sentToQ r.die } }
  | 2 =>
    -- moves under way complete first; the die's dirty lines are written back (R153)
    let s := s.moves.foldl (fun (s : State) (m : Nat × Move) => s.handOver m.1 512) s
    let old := s.hbmOld.filter fun b => s.homeDie b.1 != r.die || s.registered b.1
    let moved := s.homes.map fun (h : Nat × Nat) => (h.1, afterReset h.1 h.2 (r.die, otherDie r.die))
    { s with homes := moved, hbmOld := old, resets := s.resets ++ [(r.die, otherDie r.die)],
             dieReset := some { r with step := 3, homes := s.homes } }
  | 3 =>
    let s := r.sent.foldl (fun (s : State) a => (if s.free then s.errorReply (s.homedBefore r) a.1 a.2 else s).useFree 1) s
    let s := r.sentQ.foldl (fun (s : State) a => (if s.free then s.errorReplyQ (s.homedBefore r) a.1 a.2 else s).useFree 1) s
    { s with dieReset := some { r with step := 4, sent := [], sentQ := [] } }
  | 4 => { s.letGo on 6 with dieReset := some { r with step := 5 } }
  | _ =>
    { s with dieReset := none,
             cores := s.cores.map fun (c : Nat × Core) => if dieOf c.1 == r.die then (c.1, c.2.warm) else c }

/-- DIE_WARM_RESET: a reset begins with the pre-emption of the die's blocks, whose frames are held, or takes its next step.
It does not begin while a job is between its switch stamp and its seal (R385), nor in recovery, where no root firmware runs
(R384). -/
def State.warmReset (s : State) (die : Nat) : State :=
  match s.dieReset with
  | some r => if r.die == die then s.resetStep r else s
  | none =>
    if !s.root.booted || decide (4 ≤ die) || s.jobs.any fun j => j.2.outStamp.isSome || j.2.sw == .halted then s
    else
      let ks := ((s.blocks.filter fun b => b.2.resident && dieOf b.2.core == die).map fun b => b.2.stook).eraseDups
      let begun : DieReset := { die := die, step := 1, homes := [], sent := [], sentQ := [] }
      ks.foldl (fun (s : State) k => s.parkStook k 6 0) { s with dieReset := some begun }

def execDieWarmReset (die : Nat) (s : State) : Out := .next (s.warmReset die)

/-! ### Power (R389) -/

/-- POWER_LIMITER: above the limit `tmac` issue is spaced first and then lane issue; below it they are lifted in reverse. -/
def Root.limit (r : Root) (above : Bool) : Root :=
  if above then (if r.spaceTmac then { r with spaceLane := true } else { r with spaceTmac := true })
  else if r.spaceLane then { r with spaceLane := false } else { r with spaceTmac := false }

def execPowerLimiter (above : Bool) (s : State) : Out := .next { s with root := s.root.limit above }

/-! ### Firmware images and identity (R384) -/

/-- Both signatures verify and the key version is not revoked. -/
def Root.accepts (r : Root) (img : FwImage) : Bool := img.rsaOk && img.slhOk && decide (r.fuses ≤ img.keyVersion)

/-- FIRMWARE_IMAGE_VERIFY: an accepted image runs: the boot ROM's judgement of root firmware, root firmware's of field
firmware. A refused one leaves what runs as it is. -/
def Root.verify (r : Root) (img : FwImage) : Root :=
  if !(r.accepts img) then r
  else if img.root then { r with rootImg := some img, booted := true, recovery := false }
  else if r.booted then { r with fieldImg := some img } else r

def execFirmwareImageVerify (img : FwImage) (s : State) : Out := .next { s with root := s.root.verify img }

/-- The images that run. -/
def Root.images (r : Root) : List FwImage := r.rootImg.toList ++ r.fieldImg.toList

/-- What the two signatures of a statement are over (R384): its fields, one after the other. -/
def statementFields (serial : BitVec 64) (measures : List (BitVec 384)) (versions : List Nat) (parts : List (Nat × List Nat))
    (nonce : BitVec 256) : List Nat :=
  [serial.toNat, nonce.toNat, measures.length] ++ measures.map BitVec.toNat ++ versions ++ parts.flatMap fun p => p.1 :: p.2

/-- The tenant partition of each chip of a job (R354). -/
def partitionMap (j : JobSpec) : List Nat := (List.range j.chips).map fun c => j.partitions.getD c j.partition

/-- IDENTITY_STATEMENT: what root firmware signs for a host's nonce; nothing while no root firmware runs. -/
def State.identity (s : State) (nonce : BitVec 256) : State :=
  if !s.root.booted then s
  else
    let measures := s.root.images.map fun i => i.measure
    let versions := s.root.images.map fun i => i.keyVersion
    let parts := s.jobs.map fun j => (j.1, partitionMap j.2.spec)
    let fields := statementFields Config.serial measures versions parts nonce
    { s with root := { s.root with statement := some {
        serial := Config.serial, measures := measures, keyVersions := versions, partitions := parts, nonce := nonce,
        rsa := Config.rsaSign fields, slh := Config.slhSign fields } } }

def execIdentityStatement (nonce : BitVec 256) (s : State) : Out := .next (s.identity nonce)

/-! ### Jobs (R177, R354, R383) -/

def Job.fresh (spec : JobSpec) : Job :=
  { spec := spec, sw := .running, outStamp := none, inStamp := none, sealedRecs := [], overflow := [], seq := 0, swBase := 0,
    swSize := 0, lateLast := 0, lateDropped := 0, dropPending := false, switchIns := 0, ready := [], subs := [], writers := [],
    ending := false }

/-- What root firmware may state of a job: at most 2,048 chips, its own number among them, panel 0 to 31, jtag 12 bits, an
arena of at most 2^32 records at a multiple of 128 (R348, R354, R363). -/
def jobSpecOk (j : JobSpec) : Bool :=
  decide (1 ≤ j.chips) && decide (j.chips ≤ 2048) && decide (j.chip < j.chips) && decide (j.panel < 32) &&
  decide (j.jtag < 4096) && j.arenaBase.toNat % 128 == 0 && decide (j.arenaSize ≤ 2 ^ 32) && decide (j.job < 2 ^ 32 - 1)

/-- JOB_CREATE: root firmware creates a job that does not exist. -/
def State.createJob (s : State) (j : JobSpec) : State :=
  if s.root.booted && jobSpecOk j && (s.job? j.job).isNone then s.setJob j.job (Job.fresh j) else s

def execJobCreate (j : JobSpec) (s : State) : Out := .next (s.createJob j)

/-- What the device holds for a job is discarded (R177): commutative ranges with their partials, graded ranges, tasks and
subscriptions, frames and blocks, and entries on their way out. -/
def State.discardJob (s : State) (job : Nat) : State :=
  let bs := (s.blocks.filter fun b => b.2.job == job).map fun b => b.1
  let inCr := fun (loc : Nat) => s.cranges.any fun r => r.job == job && s.rangeLine job r.va r.len (lineOf loc)
  let inGr := fun (line : Nat) => s.granges.any fun r => r.job == job && s.rangeLine job r.va (128 * r.lines) line
  let t := bs.foldl State.removeBlock s
  { t with
    partials := t.partials.filter fun p => !(inCr (4 * p.1)), spilled := t.spilled.filter fun p => !(inCr (128 * p.1)),
    cranges := t.cranges.filter fun r => r.job != job, granges := t.granges.filter fun r => r.job != job,
    grades := t.grades.filter fun g => !(inGr g.1), lastWriter := t.lastWriter.filter fun g => !(inGr g.1),
    subs := t.subs.filter fun x => x.task.job != job, remoteSubs := t.remoteSubs.filter fun x => x.1.job != job,
    gstores := t.gstores.filter fun x => x.task.job != job, tasks := t.tasks.filter fun r => r.id.job != job,
    handlerWait := t.handlerWait.filter fun w => w.handler.job != job, stops := t.stops.filter fun p => !(p.blks.any bs.contains),
    waiting := t.waiting.map fun (q : Nat × List Nat) => (q.1, q.2.filter fun g => (t.grid g).job != job),
    grids := t.grids.filter fun g => g.2.job != job,
    bqueues := t.bqueues.map fun (q : Nat × BQueue) =>
      if t.runqs.contains q.1 then (q.1, { q.2 with items := q.2.items.filter fun e => e.job != job }) else q,
    jobs := Tbl.del t.jobs job }

/-- JOB_END: the job's live grids are cancelled, its tasks as `tkill` cancels them (R320, R344); when they have ended, it is
discarded. -/
def State.endJob (s : State) (job : Nat) : State :=
  if (s.job? job).isNone then s
  else
    let gs := (s.grids.filter fun g => g.2.job == job && !g.2.isTask && !g.2.ended).map fun g => Todo.endGrid g.1 0x101
    let ts := (s.tasks.filter fun r => r.id.job == job).map fun r => Todo.cancel r.id
    (s.runAll (gs ++ ts)).modJob job fun j => { j with ending := true }

/-- Jobs that are ending, no run of which is still to halt and no grid of which has still to write its completion, are discarded. -/
def State.endJobs (s : State) : State :=
  let gone := s.jobs.filter fun j => j.2.ending && s.todoHeld.isEmpty && (s.grids.all fun g =>
    g.2.job != j.1 || g.2.isTask || !g.2.ended || g.2.done) && s.stops.all fun p =>
    (p.blks.all fun b => (s.blk b).job != j.1) && p.kids.all fun t => t.job != j.1
  gone.foldl (fun (s : State) j => s.discardJob j.1) s

/-- Work that a die's warm reset kept back is done once it ends (R387). -/
def State.workHeld (s : State) : State :=
  if s.todoHeld.isEmpty || s.binderHeld then s else { s with todoHeld := [] }.runAll s.todoHeld

/-- What the end of a step leads to: work that was kept back is done (R387), runs that were to stop and have halted are over
(R279), stooks that were asked to park and have halted park (R330), and jobs whose grids have ended are over (R177). -/
def State.quiesce (s : State) : State :=
  let s := s.workHeld
  let s := State.settleStops (2 * s.stops.length + s.tasks.length) s
  (((s.blocks.filter fun b => b.2.parkReq.isSome).map fun b => b.1).foldl State.parkIfAsked s).endJobs

def execJobEnd (job : Nat) (s : State) : Out := .next (s.endJob job)

/-! ### The host's view of HBM (R381) -/

/-- The bytes lie in the module's HBM. -/
def inHbm (addr n : Nat) : Bool := decide (addr + n ≤ Config.hbmBytes)

/-- A byte the host reads: where a store has not reached HBM, the old byte or the new one. -/
def State.cxlByte (s : State) (i addr : Nat) : Byte :=
  match Tbl.find s.hbmOld addr with
  | some old => if Config.freeBit (s.freeCount + i) then s.mem.byte addr else old
  | none => s.mem.byte addr

/-- HOST_CXL_READ: what the host has read stands in `cxlData`; in a commutative range it is a combining read (R155), and it waits while
a die's warm reset holds a byte of it (R387). -/
def execHostCxlRead (addr n : Nat) (s : State) : Out :=
  if s.spanHeld addr n then .next s
  else if inHbm addr n then
    let s := s.combineOver addr n
    .next { s with cxlData := (List.range n).map fun i => s.cxlByte i (addr + i), freeCount := s.freeCount + n }
  else .fault (.cxlOutsideHbm addr)

/-- Bytes the host writes: performed at their homes, in a commutative range after a combining read (R155), and in HBM. -/
def State.cxlWrite (s : State) (addr : Nat) : List Byte → State
  | [] => s
  | b :: t => State.cxlWrite { (s.combineAt addr).homeWrite addr 1 b.toNat with hbmOld := Tbl.del s.hbmOld addr } (addr + 1) t

/-- HOST_CXL_WRITE, which waits while a die's warm reset holds a byte of it (R387). -/
def execHostCxlWrite (addr : Nat) (bytes : List (BitVec 8)) (s : State) : Out :=
  if s.spanHeld addr bytes.length then .next s
  else if inHbm addr bytes.length then .next (s.cxlWrite addr bytes) else .fault (.cxlOutsideHbm addr)

/-- ECC_UNCORRECTABLE_ERROR: the line at an address becomes poisoned; a group whose access receives it takes the fault
(R342). -/
def execEccUncorrectableError (addr : Nat) (s : State) : Out :=
  .next { s with poison := if s.poison.contains (lineOf addr) then s.poison else lineOf addr :: s.poison }

/-! ### Device reset (R350, R384) -/

/-- DEVICE_RESET: the state of `State.reset`, clk counts from zero; the boot ROM verifies root firmware against the fuses,
which a reset does not change, or the device is in recovery. The timebase does not go backwards (R20), and free values are
not repeated. -/
def State.deviceReset (s : State) (img : FwImage) : State :=
  let r : Root := { Root.off with fuses := s.root.fuses }
  { State.reset with
    root := if img.root then r.verify img else r, schedule := s.schedule, freeCount := s.freeCount, time := s.time,
    resetAt := s.time, epochAt := s.time }

def execDeviceReset (img : FwImage) (s : State) : Out := .next (s.deviceReset img)

end Sys2Proof.Machine
end

