-- ==== Sys2Proof/Machine/Cycle.lean ====
section
/-!
DEFINITION. One step of the device: the schedule says who moves next, and State.plan says what that move is. Time and the
outside world move by actions of the schedule. With nothing scheduled the context that issued last goes on (log entry 6).
Also how a test places an instruction where the next step executes it.
-/
namespace Sys2Proof.Machine

/-! ### Time -/

/-- Time passes for a core: its clk count loses 25 × n thousandths of a clk a nanosecond to derating (R350). On a core with no
block a plan that is pending takes effect at the next multiple of 4,096 clk, which no LEASE_WINDOW event marks there (R321, R388);
`x`: its clk count in thousandths. -/
def Core.pass (c : Core) (x ns : Nat) (empty : Bool) : Core :=
  let edge := 4096000 * (x / 4096000 + 1)
  let dt := (edge - x + (2100 - 25 * c.derate) - 1) / (2100 - 25 * c.derate)
  if empty && (c.voff != c.voffNext || c.derate != c.derateNext) && decide (dt ≤ ns) then
    { c with clkLost := c.clkLost + 25 * (dt * c.derate + (ns - dt) * c.derateNext), voff := c.voffNext, derate := c.derateNext,
             windows := edge / 4096000 + 1, checks := 0 }
  else { c with clkLost := c.clkLost + ns * 25 * c.derate }

/-- Time passes on the 1 GHz timebase: clk counts (R350, R388), parking clocks that run (R328) and watchdog clocks, which
stop while a frame is held (R347). -/
def State.tick (s : State) (ns : Nat) : State :=
  let ks := (s.stooks.filter fun k => s.clockRuns k.1).map fun k => k.1
  { s with
    time := s.time + ns,
    cores := s.cores.map fun (c : Nat × Core) =>
      (c.1, c.2.pass ((s.time - s.resetAt) * 2100 - c.2.clkLost) ns (s.residents c.1).isEmpty),
    stooks := s.stooks.map fun (k : Nat × Stook) => if ks.contains k.1 then (k.1, { k.2 with clock := k.2.clock + ns }) else k,
    blocks := s.blocks.map fun (b : Nat × Block) =>
      if (match b.2.frame with
        | some f => f.hold != 0
        | none => false) then b else (b.1, { b.2 with wdog := b.2.wdog + ns }) }

/-! ### The outside world -/

/-- An entry that R136 and R137 allow, beside those of its job: a page size, aligned, local HBM within the module. -/
def State.pteOk (s : State) (p : Pte) : Bool :=
  (p.size == 65536 || p.size == 2 ^ 21 || p.size == 2 ^ 30) && p.va % p.size == 0 && canonical (BitVec.ofNat 64 p.va) &&
  (match p.dst with
    | .hbm pa => pa % p.size == 0 && decide (pa + p.size ≤ Config.hbmBytes)
    | .host ha => ha % p.size == 0 && decide (ha + p.size ≤ 2 ^ 64)
    | .chip c => decide (c < 2048)) &&
  s.ptes.all fun q => q.job != p.job || !(overlap p.va p.size q.va q.size)

/-- What an outside party does. -/
def State.outside (s : State) : Action → State
  | .mapPage p => if s.pteOk p then { s with ptes := s.ptes ++ [p] } else s
  | .unmapPage job va =>
    let s' := s.probe job fun u => s.ptes.any fun p => p.job == job && p.va == va && match p.dst with
      | .hbm pa => decide (pa < 65536 * u + 65536) && decide (65536 * u < pa + p.size)
      | _ => false
    { s' with ptes := s'.ptes.filter fun p => !(p.job == job && p.va == va) }
  | .hostStore a b => { s with mem := s.mem.setByte (hostBase + a % 2 ^ 64) b }
  | .peerStore job c a b => { s with mem := s.mem.setByte (chipBase job (c % 2048) + a % 2 ^ 64) b }
  | .arrive p => { s with fabric := { s.fabric with inward := s.fabric.inward ++ [p] } }
  | .evict core line => s.evictLine core line
  | .writeBack line => s.writeLines (· == line)
  | .dropCode core pa => s.modCore core fun c => { c with icache := Tbl.del c.icache pa }
  | .dropTlb core va => s.modCore core fun c => { c with
      tlb := c.tlb.filter fun p => !(decide (p.va ≤ va) && decide (va < p.va + p.size)),
      walkTlb := c.walkTlb.filter fun p => !(decide (p.va ≤ va) && decide (va < p.va + p.size)) }
  | .peerRange r => if 256 ≤ (s.granges.filter fun x => x.job == r.job).length then s else s.rangeInForce r
  | .peerRelease job va => if isLocal (s.place job va) then s else (s.releaseRange job va).1
  | .probe job c u => { s with cores := s.cores.map fun (k : Nat × Core) =>
      (k.1, { k.2 with l1 := k.2.l1.filter fun l => 128 * l.1 / 65536 != (chipBase job (c % 2048)) / 65536 + u % 2 ^ 41 }) }
  | .handOver u n => s.handOver u n
  | .peerGrade job c line g => s.raiseTo (lineOf (chipBase job (c % 2048)) + line % 2 ^ 57) g
  | .tick ns => s.tick ns
  -- root firmware raises the counter that revokes older images (R384)
  | .revoke => if s.root.booted then { s with root := { s.root with fuses := s.root.fuses + 1 } } else s
  | _ => s

/-! ### The next move -/

/-- A held group tries again: its slot serves it. -/
def State.resumePlan (s : State) (gid : Nat) : Plan :=
  let g := s.grp gid
  if s.resumeOk gid then
    (s.modCore (s.blk g.blk).core fun c => { c with serving := Tbl.put c.serving (g.slot % 4) gid }).lanePlan gid
  else .done s

/-- With nothing scheduled: the open clause of the context that issued last goes on, else its oldest access is performed,
else a held group tries again or its slot chooses; with none of these 1 ns passes. -/
def State.idle (s : State) : Plan :=
  match s.issuer with
  | .lane gid =>
    let g := s.grp gid
    if g.clause.isSome && !g.heldAt then s.lanePlan gid
    else match g.out with
      | a :: _ => .run none (.accessCompletion gid a.id a.act) s
      | [] =>
        if s.resumeOk gid then s.resumePlan gid
        else if s.ready gid then .run none (.issueSlotChoice (s.coreOf gid) (g.slot % 4)) s
        else .done (s.tick 1)
  | .slice gid =>
    if !(s.sliceRuns gid) then .done (s.tick 1)
    else if (s.grp gid).slice.clause.isSome then s.sliceWord gid
    else .run none (.sliceClauseIssue (s.coreOf gid)) s
  | .stream core => if s.streamRuns core then s.streamWord core else .done (s.tick 1)

/-- What the move of an action is. -/
def State.move (s : State) : Action → Plan
  | .word core slot =>
    match s.slotWord core slot with
    | some gid => s.lanePlan gid
    | none => .done s
  | .resume gid => s.resumePlan gid
  | .sliceWord gid => s.sliceWord gid
  | .streamWord core => s.streamWord core
  | .event e => if e.isEvent then .run none e s else .done s
  | a => .done (s.outside a)

/-- The next move: the head of the schedule, or the default. -/
def State.plan (s : State) : Plan :=
  match s.schedule with
  | [] => s.idle
  | a :: t => ({ s with schedule := t }).move a

/-- What follows an instruction: a word of a group is followed by what State.after does, and every step by what State.quiesce
does. -/
def State.finish (who : Option Nat) (t u : State) : State :=
  (match who with
    | some gid => t.after gid u
    | none => u).quiesce

/-! ### Placing an instruction -/

/-- Where a placed instruction's code stands: virtual and physical address, and its job. -/
def placedVa : Nat := 65536
def placedPa : Nat := 0
def placedJob : Nat := 1

/-- A launch record for the code: one group, and what `LRec.plain` declares. -/
def placedRec : LRec := { LRec.plain with entry := BitVec.ofNat 64 placedVa, csize := 16 }

/-- A clause header and its first word, as one number, stand in memory at the start of a page of a job, and a group of one
block on core 0 has that clause open at the word; with a shadow header the group's slice has, and with a stream word the
sequencer that the block holds. Nothing is scheduled, so the next step executes the word. -/
def State.placeWord (s : State) (w : Nat) : State :=
  let h : Dword := BitVec.ofNat 64 w
  let c : Clause := { hdr := BitVec.ofNat 64 placedVa, head := h, idx := 0, latches := [], cap := none }
  let shadow := (Header.unpack h).shadow
  let stream := (match Cls.ofCode (Header.unpack h).cls with
    | some .table => true
    | _ => false) && decide (0x10 ≤ w / 2 ^ 120 % 256)
  let k := s.nextId
  let r : LRec := if shadow then { placedRec with slice := placedRec.entry } else placedRec
  let g := s.newGroup (k + 1) 0 0 r (List.replicate 32 0) 0 0 0
  let g : Group := { g with
    admitted := true, clause := if shadow || stream then none else some c,
    slice := if shadow then { g.slice with clause := some c } else g.slice }
  let b : Block := { Block.empty with
    grid := k + 3, job := placedJob, core := 0, resident := true, stook := k, record := r, gids := [k + 2], slots := [0] }
  let x : Grid := { Grid.empty with job := placedJob, record := r, next := 1, declared := true, met := true }
  let p : Pte := { job := placedJob, va := placedVa, size := 65536, dst := .hbm placedPa, r := true, w := true, x := true }
  let core : Core := s.core 0
  let core : Core := { core with
    tlb := [], icache := [], serving := Tbl.put core.serving 0 (k + 2), admitted := [k + 2],
    thr := if stream then
        { Thresher.free with holder := some (k + 1), st := .running, pc := BitVec.ofNat 64 placedVa, clause := some c }
      else core.thr }
  { s with
    schedule := [],
    issuer := if shadow then .slice (k + 2) else if stream then .stream 0 else .lane (k + 2),
    nextId := k + 4,
    mem := Memory.write s.mem placedPa 16 (w % 2 ^ 128),
    ptes := p :: s.ptes.filter (fun q => q.job != placedJob),
    jobs := Tbl.put s.jobs placedJob (Job.fresh { job := placedJob, chips := 1, chip := 0, panel := 0, partition := 0,
                                                  jtag := placedJob, arenaBase := 0, arenaSize := 0 }),
    cores := Tbl.put s.cores 0 core,
    groups := Tbl.put s.groups (k + 2) g, blocks := Tbl.put s.blocks (k + 1) b,
    stooks := Tbl.put s.stooks k { Stook.empty with members := [k + 1] }, grids := Tbl.put s.grids (k + 3) x }

end Sys2Proof.Machine
end

