-- ==== Sys2Proof/Machine/Dispatch.lean ====
section
/-!
DEFINITION. The one dispatch of the machine: each instruction and each device event to its meaning, one arm per
constructor of Instr. The word form (R32 to R50) has been decoded before; an event comes from the schedule.
-/
namespace Sys2Proof.Machine

def exec (i : Instr) (s : State) : Host.Outcome State Fault Refusal :=
  match i with
  | .iadd o => Sys2Proof.Machine.execIadd o s
  | .isub o => Sys2Proof.Machine.execIsub o s
  | .iaddc co o => Sys2Proof.Machine.execIaddc co o s
  | .imul o => Sys2Proof.Machine.execImul o s
  | .imulh sg o => Sys2Proof.Machine.execImulh sg o s
  | .imad o => Sys2Proof.Machine.execImad o s
  | .iabs o => Sys2Proof.Machine.execIabs o s
  | .ineg o => Sys2Proof.Machine.execIneg o s
  | .imin sg o => Sys2Proof.Machine.execImin sg o s
  | .imax sg o => Sys2Proof.Machine.execImax sg o s
  | .shl o => Sys2Proof.Machine.execShl o s
  | .shr sg o => Sys2Proof.Machine.execShr sg o s
  | .rot o => Sys2Proof.Machine.execRot o s
  | .fsh l o => Sys2Proof.Machine.execFsh l o s
  | .and o => Sys2Proof.Machine.execAnd o s
  | .or o => Sys2Proof.Machine.execOr o s
  | .xor o => Sys2Proof.Machine.execXor o s
  | .andn o => Sys2Proof.Machine.execAndn o s
  | .not o => Sys2Proof.Machine.execNot o s
  | .tri table o => Sys2Proof.Machine.execTri table o s
  | .popc o => Sys2Proof.Machine.execPopc o s
  | .clz o => Sys2Proof.Machine.execClz o s
  | .ctz o => Sys2Proof.Machine.execCtz o s
  | .brev o => Sys2Proof.Machine.execBrev o s
  | .bfx sg o => Sys2Proof.Machine.execBfx sg o s
  | .bfi o => Sys2Proof.Machine.execBfi o s
  | .bperm o => Sys2Proof.Machine.execBperm o s
  | .icmp cc sg o => Sys2Proof.Machine.execIcmp cc sg o s
  | .sel m o => Sys2Proof.Machine.execSel m o s
  | .mov o => Sys2Proof.Machine.execMov o s
  | .movi o => Sys2Proof.Machine.execMovi o s
  | .vfill o => Sys2Proof.Machine.execVfill o s
  | .vpick o => Sys2Proof.Machine.execVpick o s
  | .ridx o => Sys2Proof.Machine.execRidx o s
  | .widx o => Sys2Proof.Machine.execWidx o s
  | .tag t o => Sys2Proof.Machine.execTag t o s
  | .tagq o => Sys2Proof.Machine.execTagq o s
  | .lea o => Sys2Proof.Machine.execLea o s
  | .add64 w u sh o => Sys2Proof.Machine.execAdd64 w u sh o s
  | .mlop op o => Sys2Proof.Machine.execMlop op o s
  | .mcnt o => Sys2Proof.Machine.execMcnt o s
  | .mfirst o => Sys2Proof.Machine.execMfirst o s
  | .fadd rm o => Sys2Proof.Machine.execFadd rm o s
  | .fsub rm o => Sys2Proof.Machine.execFsub rm o s
  | .fmul rm o => Sys2Proof.Machine.execFmul rm o s
  | .ffma rm o => Sys2Proof.Machine.execFfma rm o s
  | .fmin o => Sys2Proof.Machine.execFmin o s
  | .fmax o => Sys2Proof.Machine.execFmax o s
  | .fabs o => Sys2Proof.Machine.execFabs o s
  | .fneg o => Sys2Proof.Machine.execFneg o s
  | .fcmp cc o => Sys2Proof.Machine.execFcmp cc o s
  | .fclass o => Sys2Proof.Machine.execFclass o s
  | .frcp rm o => Sys2Proof.Machine.execFrcp rm o s
  | .frsq rm o => Sys2Proof.Machine.execFrsq rm o s
  | .fsqrt rm o => Sys2Proof.Machine.execFsqrt rm o s
  | .fexp2 rm o => Sys2Proof.Machine.execFexp2 rm o s
  | .flog2 rm o => Sys2Proof.Machine.execFlog2 rm o s
  | .ftanh rm o => Sys2Proof.Machine.execFtanh rm o s
  | .fsig rm o => Sys2Proof.Machine.execFsig rm o s
  | .fscale rm o => Sys2Proof.Machine.execFscale rm o s
  | .frnd rm o => Sys2Proof.Machine.execFrnd rm o s
  | .f2i rm sg o => Sys2Proof.Machine.execF2i rm sg o s
  | .i2f rm sg o => Sys2Proof.Machine.execI2f rm sg o s
  | .cvt form e1 rm o => Sys2Proof.Machine.execCvt form e1 rm o s
  | .hadd2 t rm o => Sys2Proof.Machine.execHadd2 t rm o s
  | .hmul2 t rm o => Sys2Proof.Machine.execHmul2 t rm o s
  | .hfma2 t rm o => Sys2Proof.Machine.execHfma2 t rm o s
  | .fdot2 t rm o => Sys2Proof.Machine.execFdot2 t rm o s
  | .d8pack n inf sc o => Sys2Proof.Machine.execD8pack n inf sc o s
  | .d8unpk n sc o => Sys2Proof.Machine.execD8unpk n sc o s
  | .s8scale o => Sys2Proof.Machine.execS8scale o s
  | .i8pack n rm o => Sys2Proof.Machine.execI8pack n rm o s
  | .i8unpk n iv o => Sys2Proof.Machine.execI8unpk n iv o s
  | .shfl seg o => Sys2Proof.Machine.execShfl seg o s
  | .shup seg o => Sys2Proof.Machine.execShup seg o s
  | .shdn seg o => Sys2Proof.Machine.execShdn seg o s
  | .shx seg o => Sys2Proof.Machine.execShx seg o s
  | .bcast o => Sys2Proof.Machine.execBcast o s
  | .redadd ty seg rm o => Sys2Proof.Machine.execRedadd ty seg rm o s
  | .redmin ty seg o => Sys2Proof.Machine.execRedmin ty seg o s
  | .redmax ty seg o => Sys2Proof.Machine.execRedmax ty seg o s
  | .redmini ty seg o => Sys2Proof.Machine.execRedmini ty seg o s
  | .redmaxi ty seg o => Sys2Proof.Machine.execRedmaxi ty seg o s
  | .scan op ty seg rm o => Sys2Proof.Machine.execScan op ty seg rm o s
  | .ballot o => Sys2Proof.Machine.execBallot o s
  | .matchLanes o => Sys2Proof.Machine.execMatchLanes o s
  | .reorder sg a b msel => Sys2Proof.Machine.execReorder sg a b msel s
  | .reorderMove blk => Sys2Proof.Machine.execReorderMove blk s
  | .xlock msel => Sys2Proof.Machine.execXlock msel s
  | .xlockTry d msel => Sys2Proof.Machine.execXlockTry d msel s
  | .xfree msel => Sys2Proof.Machine.execXfree msel s
  | .rngkey a b msel => Sys2Proof.Machine.execRngkey a b msel s
  | .rngkeyGet d msel => Sys2Proof.Machine.execRngkeyGet d msel s
  | .rngkeyGetk d msel => Sys2Proof.Machine.execRngkeyGetk d msel s
  | .rngnext o => Sys2Proof.Machine.execRngnext o s
  | .rngunif o => Sys2Proof.Machine.execRngunif o s
  | .gumbel rm o => Sys2Proof.Machine.execGumbel rm o s
  | .samplecat o => Sys2Proof.Machine.execSamplecat o s
  | .topkthr o => Sys2Proof.Machine.execTopkthr o s
  | .jmp off => Sys2Proof.Machine.execJmp off s
  | .jsc z c off => Sys2Proof.Machine.execJsc z c off s
  | .jv z c off => Sys2Proof.Machine.execJv z c off s
  | .jany z c off => Sys2Proof.Machine.execJany z c off s
  | .jall z c off => Sys2Proof.Machine.execJall z c off s
  | .jind p => Sys2Proof.Machine.execJind p s
  | .call link off => Sys2Proof.Machine.execCall link off s
  | .calli p link => Sys2Proof.Machine.execCalli p link s
  | .ret p => Sys2Proof.Machine.execRet p s
  | .meet save off => Sys2Proof.Machine.execMeet save off s
  | .meetPop save => Sys2Proof.Machine.execMeetPop save s
  | .yield => Sys2Proof.Machine.execYield s
  | .exit => Sys2Proof.Machine.execExit s
  | .wait mask => Sys2Proof.Machine.execWait mask s
  | .nop => Sys2Proof.Machine.execNop s
  | .trap n => Sys2Proof.Machine.execTrap n s
  | .loop n off => Sys2Proof.Machine.execLoop n off s
  | .ld f off evict grade => Sys2Proof.Machine.execLd f off evict grade s
  | .st f off evict grade => Sys2Proof.Machine.execSt f off evict grade s
  | .lds f off => Sys2Proof.Machine.execLds f off s
  | .sts f off => Sys2Proof.Machine.execSts f off s
  | .ldc f off evict => Sys2Proof.Machine.execLdc f off evict s
  | .ldw f c evict grade => Sys2Proof.Machine.execLdw f c evict grade s
  | .atom op pl f a => Sys2Proof.Machine.execAtom op pl f a s
  | .atomcas f n => Sys2Proof.Machine.execAtomcas f n s
  | .red op pl f off => Sys2Proof.Machine.execRed op pl f off s
  | .cred f off => Sys2Proof.Machine.execCred f off s
  | .crdecl op len base fmt msel => Sys2Proof.Machine.execCrdecl op len base fmt msel s
  | .crfree base msel => Sys2Proof.Machine.execCrfree base msel s
  | .fence ord scope msel => Sys2Proof.Machine.execFence ord scope msel s
  | .flushr len base scope tok msel => Sys2Proof.Machine.execFlushr len base scope tok msel s
  | .invr len base scope tok msel => Sys2Proof.Machine.execInvr len base scope tok msel s
  | .pref base off evict fmt msel mode => Sys2Proof.Machine.execPref base off evict fmt msel mode s
  | .lease n msel => Sys2Proof.Machine.execLease n msel s
  | .barar n bar msel => Sys2Proof.Machine.execBarar n bar msel s
  | .barwt bar msel => Sys2Proof.Machine.execBarwt bar msel s
  | .barsy n bar msel => Sys2Proof.Machine.execBarsy n bar msel s
  | .barq d bar msel => Sys2Proof.Machine.execBarq d bar msel s
  | .rrec a tok msel => Sys2Proof.Machine.execRrec a tok msel s
  | .rfence msel => Sys2Proof.Machine.execRfence msel s
  | .rcopy a b c tok msel => Sys2Proof.Machine.execRcopy a b c tok msel s
  | .rcopyo a b c tok msel => Sys2Proof.Machine.execRcopyo a b c tok msel s
  | .rwait sl msel => Sys2Proof.Machine.execRwait sl msel s
  | .qdrop n msel => Sys2Proof.Machine.execQdrop n msel s
  | .qdropAll msel => Sys2Proof.Machine.execQdropAll msel s
  | .qstat sl d msel => Sys2Proof.Machine.execQstat sl d msel s
  | .slctlStop msel => Sys2Proof.Machine.execSlctlStop msel s
  | .slctlPause msel => Sys2Proof.Machine.execSlctlPause msel s
  | .slctlResume msel => Sys2Proof.Machine.execSlctlResume msel s
  | .xadd d a b => Sys2Proof.Machine.execXadd d a b s
  | .xmul d a b => Sys2Proof.Machine.execXmul d a b s
  | .xloop a => Sys2Proof.Machine.execXloop a s
  | .xnext => Sys2Proof.Machine.execXnext s
  | .qput fmt sp n a b => Sys2Proof.Machine.execQput fmt sp n a b s
  | .xend => Sys2Proof.Machine.execXend s
  | .thres d a msel => Sys2Proof.Machine.execThres d a msel s
  | .threl msel => Sys2Proof.Machine.execThrel msel s
  | .orf msel => Sys2Proof.Machine.execOrf msel s
  | .tbuild lg lm d8 inf n a b c => Sys2Proof.Machine.execTbuild lg lm d8 inf n a b c s
  | .tcode w n a b => Sys2Proof.Machine.execTcode w n a b s
  | .tmac rb lg lm n t a b c => Sys2Proof.Machine.execTmac rb lg lm n t a b c s
  | .taclr t => Sys2Proof.Machine.execTaclr t s
  | .tald lm n t a b => Sys2Proof.Machine.execTald lm n t a b s
  | .tast fmt lm n t a b c => Sys2Proof.Machine.execTast fmt lm n t a b c s
  | .tinv a => Sys2Proof.Machine.execTinv a s
  | .tinvAll => Sys2Proof.Machine.execTinvAll s
  | .twait => Sys2Proof.Machine.execTwait s
  | .tbar arr n cnt => Sys2Proof.Machine.execTbar arr n cnt s
  | .tloop k d => Sys2Proof.Machine.execTloop k d s
  | .tend => Sys2Proof.Machine.execTend s
  | .tspawn d a tok msel => Sys2Proof.Machine.execTspawn d a tok msel s
  | .tjoin a n msel => Sys2Proof.Machine.execTjoin a n msel s
  | .tsig a tok msel => Sys2Proof.Machine.execTsig a tok msel s
  | .tcont a msel => Sys2Proof.Machine.execTcont a msel s
  | .tkill a msel => Sys2Proof.Machine.execTkill a msel s
  | .grange d a b tok msel => Sys2Proof.Machine.execGrange d a b tok msel s
  | .grel d a tok msel => Sys2Proof.Machine.execGrel d a tok msel s
  | .promote gr a n tok msel => Sys2Proof.Machine.execPromote gr a n tok msel s
  | .retract a n tok msel => Sys2Proof.Machine.execRetract a n tok msel s
  | .gstat d a tok msel => Sys2Proof.Machine.execGstat d a tok msel s
  | .qpush d a b tok msel => Sys2Proof.Machine.execQpush d a b tok msel s
  | .qpop d a b tok msel => Sys2Proof.Machine.execQpop d a b tok msel s
  | .qpopw d a tok msel => Sys2Proof.Machine.execQpopw d a tok msel s
  | .launch d a tok msel => Sys2Proof.Machine.execLaunch d a tok msel s
  | .lwait h msel => Sys2Proof.Machine.execLwait h msel s
  | .ffence tok msel => Sys2Proof.Machine.execFfence tok msel s
  | .fdrain tok msel => Sys2Proof.Machine.execFdrain tok msel s
  | .jobq n d msel => Sys2Proof.Machine.execJobq n d msel s
  | .wcbq d msel => Sys2Proof.Machine.execWcbq d msel s
  | .sysrd n d msel => Sys2Proof.Machine.execSysrd n d msel s
  | .syswr n a msel => Sys2Proof.Machine.execSyswr n a msel s
  | .eret nxt msel => Sys2Proof.Machine.execEret nxt msel s
  | .clock d msel => Sys2Proof.Machine.execClock d msel s
  | .park a msel => Sys2Proof.Machine.execPark a msel s
  | .abort n msel => Sys2Proof.Machine.execAbort n msel s
  | .brk n msel => Sys2Proof.Machine.execBrk n msel s
  | .icinv msel => Sys2Proof.Machine.execIcinv msel s
  | .tlbinv msel => Sys2Proof.Machine.execTlbinv msel s
  | .tlbinvVa a msel => Sys2Proof.Machine.execTlbinvVa a msel s
  | .issueSlotChoice core slot => Sys2Proof.Machine.execIssueSlotChoice core slot s
  | .groupRetire gid => Sys2Proof.Machine.execGroupRetire gid s
  | .blockRetire blk => Sys2Proof.Machine.execBlockRetire blk s
  | .accessCompletion gid acc lanes => Sys2Proof.Machine.execAccessCompletion gid acc lanes s
  | .copyDataArrival copy line => Sys2Proof.Machine.execCopyDataArrival copy line s
  | .qputEntryComplete gid q => Sys2Proof.Machine.execQputEntryComplete gid q s
  | .sliceClauseIssue core => Sys2Proof.Machine.execSliceClauseIssue core s
  | .boundaryFaultDelivery gid => Sys2Proof.Machine.execBoundaryFaultDelivery gid s
  | .homeMigrationEpoch => Sys2Proof.Machine.execHomeMigrationEpoch s
  | .gradedStoreClassify n => Sys2Proof.Machine.execGradedStoreClassify n s
  | .taskComplete job recd => Sys2Proof.Machine.execTaskComplete job recd s
  | .placementDecision => Sys2Proof.Machine.execPlacementDecision s
  | .dependenceReread queue => Sys2Proof.Machine.execDependenceReread queue s
  | .gridCompletion grid => Sys2Proof.Machine.execGridCompletion grid s
  | .gridCancel grid => Sys2Proof.Machine.execGridCancel grid s
  | .leaseWindow core => Sys2Proof.Machine.execLeaseWindow core s
  | .victimHitCheck core => Sys2Proof.Machine.execVictimHitCheck core s
  | .parkingThreshold stook => Sys2Proof.Machine.execParkingThreshold stook s
  | .faultQueueAppend die => Sys2Proof.Machine.execFaultQueueAppend die s
  | .relaunchSignal stook => Sys2Proof.Machine.execRelaunchSignal stook s
  | .parkTimerExpiry stook => Sys2Proof.Machine.execParkTimerExpiry stook s
  | .watchdogExpiry blk => Sys2Proof.Machine.execWatchdogExpiry blk s
  | .fqcmdResolve die idx => Sys2Proof.Machine.execFqcmdResolve die idx s
  | .fqcmdCancel die idx => Sys2Proof.Machine.execFqcmdCancel die idx s
  | .preemptJob job => Sys2Proof.Machine.execPreemptJob job s
  | .preemptGrid num => Sys2Proof.Machine.execPreemptGrid num s
  | .preemptCore core => Sys2Proof.Machine.execPreemptCore core s
  | .rqregRegister q => Sys2Proof.Machine.execRqregRegister q s
  | .rqregDeregister q => Sys2Proof.Machine.execRqregDeregister q s
  | .registerWrite body r v => Sys2Proof.Machine.execRegisterWrite body r v s
  | .lqtail queue v => Sys2Proof.Machine.execLqtail queue v s
  | .remotePacketReceive inward n => Sys2Proof.Machine.execRemotePacketReceive inward n s
  | .gradeNotice n => Sys2Proof.Machine.execGradeNotice n s
  | .wcbAgeExpiry core n => Sys2Proof.Machine.execWcbAgeExpiry core n s
  | .routeTableUpdate => Sys2Proof.Machine.execRouteTableUpdate s
  | .routeColourRetire => Sys2Proof.Machine.execRouteColourRetire s
  | .linkBufferDegrade link cells => Sys2Proof.Machine.execLinkBufferDegrade link cells s
  | .jobSwitchCommand job panel out stamp => Sys2Proof.Machine.execJobSwitchCommand job panel out stamp s
  | .switchOutStamp job => Sys2Proof.Machine.execSwitchOutStamp job s
  | .switchSeal job => Sys2Proof.Machine.execSwitchSeal job s
  | .switchInStamp job => Sys2Proof.Machine.execSwitchInStamp job s
  | .latePacket p => Sys2Proof.Machine.execLatePacket p s
  | .dieWarmReset die => Sys2Proof.Machine.execDieWarmReset die s
  | .powerLimiter above => Sys2Proof.Machine.execPowerLimiter above s
  | .identityStatement nonce => Sys2Proof.Machine.execIdentityStatement nonce s
  | .firmwareImageVerify img => Sys2Proof.Machine.execFirmwareImageVerify img s
  | .jobCreate j => Sys2Proof.Machine.execJobCreate j s
  | .jobEnd job => Sys2Proof.Machine.execJobEnd job s
  | .hostCxlRead addr n => Sys2Proof.Machine.execHostCxlRead addr n s
  | .deviceReset img => Sys2Proof.Machine.execDeviceReset img s
  | .eccUncorrectableError addr => Sys2Proof.Machine.execEccUncorrectableError addr s
  | .hostCxlWrite addr bytes => Sys2Proof.Machine.execHostCxlWrite addr bytes s

end Sys2Proof.Machine
end

