-- ==== Sys2Proof/Machine/Step.lean ====
section
/-!
DEFINITION. The step of the device: State.plan's move, its instruction's meaning, and what follows it.
-/
namespace Sys2Proof.Machine

/-- One step. -/
def step (s : State) : Host.Outcome State Fault Refusal :=
  match s.plan with
  | .done t => .next t.quiesce
  | .run who i t =>
    match exec i t with
    | .next u => .next (State.finish who t u)
    | .fault f => .fault f
    | .refused r => .refused r

/-- The state with an instruction (header and word, as `decodeTableWord` numbers them) placed where the very next step
executes it. The manual gives no program at reset: programs come from launch records (R308, R313), and this stands for one
such launch (log entry 7). -/
def State.withFetchWord (s : State) (nbits w : Nat) : State :=
  s.placeWord (if nbits ≤ 128 then w else 0)

end Sys2Proof.Machine
end

