-- ==== Sys2Proof/Safety.lean ====
section
/-!
DEFINITION. The words in which the statements speak of a run: which context issues, when an instruction's operands are in
order, what an instruction leaves of its group and of the device, and what every step keeps.
-/
namespace Sys2Proof.Machine

/-! ### Words -/

/-- The word of `w` bits whose bit `i` is `f i`. -/
def bitsOf : (w : Nat) → (Nat → Bool) → BitVec w
  | 0, _ => 0#0
  | w + 1, f => BitVec.cons (f w) (bitsOf w f)

/-- Every fraction within a part 2^−200 of a real number rounds in mode `rm` to the word `w`: so does the number itself, which is no
nearer than that to where the rounding changes. -/
def RoundsTo (rm : Rm) (x : ℝ) (w : Word) : Prop :=
  ∀ (neg : Bool) (p q : ℕ), (neg = true ↔ x < 0) → 0 < q → abs ((p : ℝ) / q - abs x) ≤ abs x / 2 ^ 200 →
    BitVec.ofNat 32 (BFmt.f32.round rm neg p q) = w

/-! ### Before an instruction -/

/-- Group `g` is there and issues a word of its clause (R38). -/
abbrev State.Issues (s : State) (g : Nat) : Prop := s.issuer = .lane g ∧ (Tbl.find s.groups g).isSome = true

/-- A register, latch or window that an instruction names is there: a base register below the usable allocation (R13), an
extension register under the lock (R16), a scalar below the declared count (R15), a latch already shifted in the clause
(R45), a window of the kernel (R42). -/
def Need.ok (l : Limits) : Need → Bool
  | .v n => (decide (n < 64) && decide (n < l.usable)) || (decide (64 ≤ n) && decide (n < 192) && l.lock)
  | .s n => decide (n < l.scalars)
  | .y k => decide (k < l.latches)
  | .q n => decide (n < l.qn)

/-- Everything named is there. -/
def State.needsOk (s : State) (g : Nat) (ns : List Need) : Bool := ns.all (Need.ok (s.limits g))

/-- An instruction's operands are in order: what it names is there, every tagged source carries the tag demanded (R23), and
every window it pops has a complete entry (R225). -/
def State.operandsOk (s : State) (g : Nat) (msel : BitVec 3) (dst : List Need) (os : List Opnd) : Bool :=
  s.needsOk g (dst ++ os.flatMap Opnd.needs ++ mselNeeds msel) &&
    (os.all fun o => tagOk o.kind (s.opndTag g o)) &&
    (queuesNamed (os.map fun o => o.src)).all fun q => ((s.grp g).head q).isSome

/-- An operand's 32 bits in a lane. -/
def State.word (s : State) (g : Nat) (o : Opnd) (L : Nat) : Word := (s.opndLanes g o 0).at L

/-- A 64-bit operand's bits in a lane, low word first. -/
def State.dword (s : State) (g : Nat) (o : Opnd) (L : Nat) : Dword :=
  pairOf ((s.opndLanes g o 0).at L) ((s.opndLanes g o 1).at L)

/-! ### After an instruction -/

/-- A group apart from where its threads stand: its clause, PCs, MRs and clusters set aside. -/
def Group.still (g : Group) : Group :=
  { g with pcs := [], mrs := [], cur := none, pend := [], clause := none, heldAt := false, heldRow := none, partDone := false }

/-- A group apart from where its threads stand, its registers, and its windows with the places of their heads: its tokens,
generator, fault registers, outstanding instructions, slice, barrier records and what else it holds. -/
def Group.kept (g : Group) : Group := { g.still with vregs := [], sregs := [], queues := [], heads := [] }

/-- A device apart from its groups and cores. -/
def State.rest (s : State) : State := { s with groups := [], cores := [] }

/-- How a group goes on past an instruction that moves no thread: to the next word of its clause with every thread where it
was, or out of the clause with every thread of the cluster at `Next` (R35, R71). -/
structure Group.WentOn (x y : Group) : Prop where
  word : ∀ c, x.clause = some c → x.atLast = false →
    ∃ k, y.clause = some k ∧ k.hdr = c.hdr ∧ k.head = c.head ∧ k.idx = c.idx + 1
  threads : x.atLast = false → y.pcs = x.pcs ∧ y.mrs = x.mrs ∧ y.cur = x.cur ∧ y.pend = x.pend
  ended : x.atLast = true → y.clause = none
  next : x.atLast = true → ∀ L, L < 64 →
    y.pc L = if inMask x.curLanes L then nextHeader x.clause!.hdr x.clause!.head else x.pc L

/-- Memory, every scratchpad and every other group read as before. -/
structure State.SameElsewhere (s t : State) (g : Nat) : Prop where
  memory : ∀ a, t.mem.byte a = s.mem.byte a
  scratch : ∀ b a, (t.blk b).scratch.byte a = (s.blk b).scratch.byte a
  groups : ∀ h, h ≠ g → t.grp h = s.grp h

/-- Nothing but group `g` has changed, and of its core only the extension set of its slot pair may have: its lock and the
other pairs' sets stand. -/
structure State.OnlyGroup (s t : State) (g : Nat) : Prop where
  elsewhere : s.SameElsewhere t g
  device : t.rest = s.rest
  cores : ∀ c, { t.core c with ext := [] } = { s.core c with ext := [] }
  ext : ∀ c p, c ≠ s.coreOf g ∨ p ≠ (s.grp g).pair → Tbl.find (t.core c).ext p = Tbl.find (s.core c).ext p
  lock : t.lockHolder g = s.lockHolder g

/-- The instruction is done: the device is as it was but for group `g`, which is as `x` says and has gone on. -/
structure State.Did (s t : State) (g : Nat) (x : Group) : Prop where
  elsewhere : s.SameElsewhere t g
  device : t.rest = s.rest
  cores : t.cores = s.cores
  group : (t.grp g).still = x.still
  went : (s.grp g).WentOn (t.grp g)

/-- The registers from number `n` on that a destination of `dn` registers names. -/
def dstNamesV (d : Dst) (dn n : Nat) : Bool :=
  match d with
  | .v k => decide (k.toNat ≤ n) && decide (n < k.toNat + dn)
  | .s _ => false
def dstNamesS (d : Dst) (dn n : Nat) : Bool :=
  match d with
  | .v _ => false
  | .s k => decide (k.toNat ≤ n) && decide (n < k.toNat + dn)

/-- What an instruction with a destination leaves (R24, R28, R44, R82, R83): the active lanes of a vector destination's
registers hold the result under its tag and the others keep their bits, a scalar destination holds the lowest active
lane's result, and with no-write-back neither is written; y0 holds the result's low word; each window named is popped
once (R42); every other register, and all else the group holds, is as before. -/
structure State.Wrote (s t : State) (g : Nat) (act : Dword) (d : Dst) (dn : Nat) (nw : Bool) (tag : Nat → Tag)
    (val : Nat → Nat → Word) (srcs : List Src) : Prop where
  lanes : ∀ n i, d = .v n → i < dn → nw = false → ∀ L, L < 64 →
    (t.vreg g (n.toNat + i)).lanes.at L = if inMask act L then val i L else (s.vreg g (n.toNat + i)).lanes.at L
  tag : ∀ n i, d = .v n → i < dn → nw = false → (t.vreg g (n.toNat + i)).tag = tag i
  scalar : ∀ n i, d = .s n → i < dn → nw = false → act ≠ 0 → t.sreg g (n.toNat + i) = val i (lowestLane act)
  vregs : ∀ n, (nw = true ∨ dstNamesV d dn n = false) → t.vreg g n = s.vreg g n
  sregs : ∀ n, (nw = true ∨ act = 0 ∨ dstNamesS d dn n = false) → t.sreg g n = s.sreg g n
  latch : ∀ c, (s.grp g).clause = some c → (s.grp g).atLast = false →
    ∃ k y, (t.grp g).clause = some k ∧ k.latches = (y :: c.latches).take 4 ∧ ∀ L, L < 64 → y.at L =
      match d with
      | .v n => if inMask act L then val 0 L else (s.vreg g n.toNat).lanes.at L
      | .s n => if act = 0 then s.sreg g n.toNat else val 0 (lowestLane act)
  windows : ∀ q, (t.grp g).queue q = if (queuesNamed srcs).contains q then ((s.grp g).queue q).tail else (s.grp g).queue q
  kept : (t.grp g).kept = (s.grp g).kept
  went : (s.grp g).WentOn (t.grp g)
  only : s.OnlyGroup t g

/-! ### What instructions of one shape do -/

/-- Word `j` of a 64-bit result in a pair: the low word first (R12). -/
def halfOf (j : Nat) (x : Dword) : Word := if j = 0 then lowWord x else highWord x

/-- Issued with its operands in order, the instruction completes, and its destination of `dn` registers receives `val`,
register by register and lane by lane, under `tag`. -/
def Computes (i : Instr) (d : Dst) (dn : Nat) (nw : Bool) (msel : BitVec 3) (os : List Opnd)
    (tag : State → Nat → Nat → Tag) (val : State → Nat → Nat → Nat → Word) : Prop :=
  ∀ (s : State) (g : Nat), s.Issues g → s.operandsOk g msel (dstNeeds d dn) os = true →
    ∃ t, exec i s = .next t ∧ s.Wrote t g (s.active g msel) d dn nw (tag s g) (val s g) (os.map fun o => o.src)

/-- An instruction of one source computes `f` in each lane. -/
def Computes1 (i : Ops1 → Instr) (k : Kind) (tag : Tag) (f : Word → Word) : Prop :=
  ∀ o : Ops1, Computes (i o) o.d 1 o.nw o.msel [⟨o.a, 1, k⟩] (fun _ _ _ => tag) fun s g _ L => f (s.word g ⟨o.a, 1, k⟩ L)

/-- An instruction of two sources computes `f` in each lane. -/
def Computes2 (i : Ops2 → Instr) (k : Kind) (tag : Tag) (f : Word → Word → Word) : Prop :=
  ∀ o : Ops2, Computes (i o) o.d 1 o.nw o.msel [⟨o.a, 1, k⟩, ⟨o.b, 1, k⟩] (fun _ _ _ => tag) fun s g _ L =>
    f (s.word g ⟨o.a, 1, k⟩ L) (s.word g ⟨o.b, 1, k⟩ L)

/-- An instruction of three sources computes `f` in each lane. -/
def Computes3 (i : Ops3 → Instr) (k : Kind) (tag : Tag) (f : Word → Word → Word → Word) : Prop :=
  ∀ o : Ops3, Computes (i o) o.d 1 o.nw o.msel [⟨o.a, 1, k⟩, ⟨o.b, 1, k⟩, ⟨o.c, 1, k⟩] (fun _ _ _ => tag) fun s g _ L =>
    f (s.word g ⟨o.a, 1, k⟩ L) (s.word g ⟨o.b, 1, k⟩ L) (s.word g ⟨o.c, 1, k⟩ L)

/-- A test of two sources: all ones or zero in each active lane of a vector destination; in a scalar pair, the mask of the
active lanes whose test holds (R90, R111). -/
def Tests2 (i : Ops2 → Instr) (k : Kind) (p : Word → Word → Bool) : Prop :=
  ∀ o : Ops2,
    let holds : State → Nat → Nat → Bool := fun s g L => p (s.word g ⟨o.a, 1, k⟩ L) (s.word g ⟨o.b, 1, k⟩ L)
    (∀ n, o.d = .v n → Computes (i o) o.d 1 o.nw o.msel [⟨o.a, 1, k⟩, ⟨o.b, 1, k⟩] (fun _ _ _ => .b32) fun s g _ L =>
      if holds s g L then 0xFFFFFFFF#32 else 0) ∧
    (∀ n, o.d = .s n → Computes (i o) o.d 2 o.nw o.msel [⟨o.a, 1, k⟩, ⟨o.b, 1, k⟩] (fun _ _ _ => .b32) fun s g j _ =>
      halfOf j (maskOf fun L => inMask (s.active g o.msel) L && holds s g L))

/-! ### Branches, faults and holds -/

/-- No register, tag or window of the group has changed. -/
structure State.SameRegs (s t : State) (g : Nat) : Prop where
  vregs : ∀ n, t.vreg g n = s.vreg g n
  sregs : ∀ n, t.sreg g n = s.sreg g n
  windows : ∀ q, (t.grp g).queue q = (s.grp g).queue q

/-- Every thread of the issuing cluster has moved to its place and the clause has ended; the other threads stand where they
stood, and nothing else the group holds has changed but registers and windows (R61 to R65, R71). -/
structure State.Branched (s t : State) (g : Nat) (dest : Nat → Dword) : Prop where
  threads : ∀ L, L < 64 → (t.grp g).pc L = if inMask (s.grp g).curLanes L then dest L else (s.grp g).pc L
  ended : (t.grp g).clause = none
  kept : (t.grp g).kept = (s.grp g).kept
  only : s.OnlyGroup t g

/-- Windows that an instruction's sources name have popped once, and no register has changed. -/
structure State.Popped (s t : State) (g : Nat) (srcs : List Src) : Prop where
  vregs : ∀ n, t.vreg g n = s.vreg g n
  sregs : ∀ n, t.sreg g n = s.sreg g n
  windows : ∀ q, (t.grp g).queue q = if (queuesNamed srcs).contains q then ((s.grp g).queue q).tail else (s.grp g).queue q

/-- A vector pair holds a 64-bit value in the lanes of the issuing cluster, its other lanes their old bits, both registers
tag B32; every other register is as before (R75, R76). -/
structure State.WrotePair (s t : State) (g n : Nat) (x : Nat → Dword) : Prop where
  low : ∀ L, L < 64 → (t.vreg g n).lanes.at L =
    if inMask (s.grp g).curLanes L then lowWord (x L) else (s.vreg g n).lanes.at L
  high : ∀ L, L < 64 → (t.vreg g (n + 1)).lanes.at L =
    if inMask (s.grp g).curLanes L then highWord (x L) else (s.vreg g (n + 1)).lanes.at L
  tags : (t.vreg g n).tag = .b32 ∧ (t.vreg g (n + 1)).tag = .b32
  vregs : ∀ k, k ≠ n → k ≠ n + 1 → t.vreg g k = s.vreg g k
  sregs : ∀ k, t.sreg g k = s.sreg g k
  windows : ∀ q, (t.grp g).queue q = (s.grp g).queue q

/-- The header of a clause is a target that R35 lets the group's threads take. -/
def State.targetOk (s : State) (g : Nat) (reg : Bool) (va : Dword) : Prop :=
  s.checkTarget (s.grp g).blk .lane reg va = .ok

/-- The fault of a code with no lane and no address (R346). -/
def Flt.bare (code info : BitVec 8) (lane : Nat) : Flt := { code := code, info := info, lane := lane, addr := 0 }

/-- The fault of a code in a lane at an address. -/
def Flt.ofLane (code : BitVec 8) (lane : Nat) (addr : Dword) : Flt :=
  { code := code, info := 0, lane := lane, addr := addr }

/-- The group has entered its trap handler (R343): the fault registers hold the fault, inh is set, every thread of the
faulting cluster stands at the handler, which runs next, its MR as before, and no register, window or other group has
changed. -/
structure State.Trapped (s t : State) (g : Nat) (f : Flt) (pc hdr : Dword) : Prop where
  code : (t.grp g).fcode = f.code ∧ (t.grp g).finfo = f.info ∧ (t.grp g).flane = BitVec.ofNat 8 f.lane ∧
    (t.grp g).faddr = f.addr
  saved : (t.grp g).fpc = pc ∧ (t.grp g).fhdr = hdr
  inhibited : (t.grp g).inh = true
  threads : ∀ L, L < 64 → (t.grp g).pc L =
    if inMask (s.grp g).curLanes L then (s.blockOf g).record.trap else (s.grp g).pc L
  current : inMask (t.grp g).curLanes (lowestLane (s.grp g).curLanes) = true
  ended : (t.grp g).clause = none
  regs : s.SameRegs t g
  others : (t.grp g).exited = (s.grp g).exited ∧ (t.grp g).tokens = (s.grp g).tokens ∧ (t.grp g).out = (s.grp g).out
  meeting : ∀ L, L < 64 → inMask (s.grp g).curLanes L = true → (t.grp g).mr L = (s.grp g).mr L
  elsewhere : s.SameElsewhere t g
  device : t.rest = s.rest
  cores : t.cores = s.cores

/-- The group holds at its instruction, having changed nothing (R337). -/
structure State.Holds (s t : State) (g : Nat) : Prop where
  held : (t.grp g).heldAt = true
  still : (t.grp g).still = (s.grp g).still
  clause : (t.grp g).clause = (s.grp g).clause
  threads : (t.grp g).pcs = (s.grp g).pcs ∧ (t.grp g).cur = (s.grp g).cur
  elsewhere : s.SameElsewhere t g
  device : t.rest = s.rest
  cores : t.cores = s.cores

/-- With no lane active the instruction completes and does nothing (R82, R291). -/
def PassesBy (i : Instr) (msel : BitVec 3) (ns : List Need) : Prop :=
  ∀ (s : State) (g : Nat), s.Issues g → s.needsOk g (ns ++ mselNeeds msel) = true → s.active g msel = 0 →
    ∃ t, exec i s = .next t ∧ s.Did t g (s.grp g)

/-- With a lane active, and `ok` of the state, the instruction completes and leaves the group as `x` says. -/
def Leaves (i : Instr) (msel : BitVec 3) (ns : List Need) (ok : State → Nat → Prop) (x : State → Nat → Group) : Prop :=
  ∀ (s : State) (g : Nat), s.Issues g → s.needsOk g (ns ++ mselNeeds msel) = true → s.active g msel ≠ 0 → ok s g →
    ∃ t, exec i s = .next t ∧ s.Did t g (x s g)

/-- With a lane active, and `ok` of the state, the instruction waits where it stands. -/
def Waits (i : Instr) (msel : BitVec 3) (ns : List Need) (ok : State → Nat → Prop) : Prop :=
  ∀ (s : State) (g : Nat), s.Issues g → s.needsOk g (ns ++ mselNeeds msel) = true → s.active g msel ≠ 0 → ok s g →
    ∃ t, exec i s = .next t ∧ s.Holds t g

/-- Issued with its operands in order and `ok` of the state, the instruction moves each thread to `dest`, pops its windows and
writes nothing. -/
def Jumps (i : Instr) (os : List Opnd) (ok : State → Nat → Prop) (dest : State → Nat → Nat → Dword) : Prop :=
  ∀ (s : State) (g : Nat), s.Issues g → s.operandsOk g 0 [] os = true → ok s g →
    ∃ t, exec i s = .next t ∧ s.Branched t g (dest s g) ∧ s.Popped t g (os.map fun o => o.src)

/-! ### Segments, meetings and locks -/

/-- The value at the root of a tree of `k` levels over the leaves from `lo` on: absent where no leaf is present, and where
one half is absent the other half's value (R127). -/
def treeOf (f : Word → Word → Word) (leaf : Nat → Option Word) : Nat → Nat → Option Word
  | 0, lo => leaf lo
  | k + 1, lo =>
    match treeOf f leaf k lo, treeOf f leaf k (lo + 2 ^ k) with
    | some x, some y => some (f x y)
    | some x, none => some x
    | none, y => y

/-- A group apart from where its threads stand, its windows and its arrival at a meeting. -/
def Group.apart (g : Group) : Group := { g.still with queues := [], heads := [], reo := none }

/-- The holder of the group's extension lock may have changed, and requests for it, whose wait's clock starts again (R328);
nothing else has but where the group's threads stand. -/
structure State.PassedLock (s t : State) (g : Nat) : Prop where
  memory : ∀ a, t.mem.byte a = s.mem.byte a
  scratch : ∀ b a, (t.blk b).scratch.byte a = (s.blk b).scratch.byte a
  groups : ∀ h, h ≠ g → { t.grp h with xreq := false } = { s.grp h with xreq := false }
  device : { t.rest with stooks := [] } = { s.rest with stooks := [] }
  stooks : ∀ k, { t.stk k with clock := 0 } = { s.stk k with clock := 0 }
  cores : ∀ c, { t.core c with ext := [] } = { s.core c with ext := [] }
  ext : ∀ c p, c ≠ s.coreOf g ∨ p ≠ (s.grp g).pair → Tbl.find (t.core c).ext p = Tbl.find (s.core c).ext p
  vregs : ∀ n, t.vreg g n = s.vreg g n
  group : { (t.grp g).still with xreq := false } = { (s.grp g).still with xreq := false }

/-! ### Returning from a trap -/

/-- The group has left its trap handler for the header at `pc`, or for the word at `pc`, which is number `res` of its clause
counted from 1 (R349): inh is clear, every thread of the issuing cluster stands there, the cluster stays current and resumes
at the word unless one of its threads means to meet others there, and no register, window or other group has changed. -/
structure State.Resumed (s t : State) (g : Nat) (pc : Dword) (res : Nat) : Prop where
  threads : ∀ L, L < 64 → (t.grp g).pc L = if inMask (s.grp g).curLanes L then pc else (s.grp g).pc L
  inhibited : (t.grp g).inh = false
  ended : (t.grp g).clause = none
  kept : { (t.grp g).kept with inh := false } = { (s.grp g).kept with inh := false }
  current : (s.grp g).curLanes ≠ 0 → (s.grp g).curLanes &&& (s.grp g).exited = 0 →
    (∀ L, L < 64 → inMask (s.grp g).curLanes L = true → (s.grp g).mr L ≠ pc) → (∀ p ∈ (s.grp g).pend, p.age + 1 < 192) →
    ∃ c, (t.grp g).cur = some c ∧ c.res = res ∧ inMask c.lanes (lowestLane (s.grp g).curLanes) = true
  regs : s.SameRegs t g
  only : s.OnlyGroup t g

/-! ### Memory accesses -/

/-- The operands of a memory instruction are in order: what it names is there, typed data carry their format's tag or B32
(R163), and every window it pops has a complete entry. -/
def State.memOk (s : State) (g : Nat) (msel : BitVec 3) (dst : List Need) (os : List Opnd) (f : MFmt) (typed : List Src) :
    Bool :=
  s.needsOk g (dst ++ os.flatMap Opnd.needs ++ mselNeeds msel) && typed.all (s.typedOk g f) &&
    (queuesNamed (os.map fun o => o.src)).all fun q => ((s.grp g).head q).isSome

/-- The address of a lane, by its mode (R54). -/
def State.addrOf (s : State) (g : Nat) (f : MemF) (off : BitVec 12) (L : Nat) : Dword :=
  let n : Int := fmtSize f.fmt
  match f.mode with
  | .vec | .sca => BitVec.ofInt 64 ((s.dword g (.pair f.base) L).toNat + off.toInt * n)
  | .lane => BitVec.ofInt 64 ((s.dword g (.pair f.base) L).toNat + (off.toInt + L) * n)
  | .scratch => BitVec.ofInt 64 ((s.word g (.int f.base) L).toNat + off.toInt * n)

/-- The checks of R160 on a global address of `n` bytes: aligned, canonical, in a page that permits the access and leads
to `loc`, on a chip of the job that lies in this device's tenant partition (R354), and on no die that is warm-reset (R387). -/
structure State.Reaches (s : State) (g : Nat) (p : Perm) (va : Dword) (n loc : Nat) : Prop where
  aligned : va.toNat % n = 0
  canonical : canonical va = true
  page : s.walk (s.coreOf g) (s.jobOf g) va.toNat p = .ok loc
  inJob : isRemote loc = true → ∃ j, s.job? (s.jobOf g) = some j ∧ chipOf loc < j.spec.chips ∧
    j.spec.partitions.getD (chipOf loc) j.spec.partition = j.spec.partition
  up : s.heldByReset (dieOf (s.coreOf g)) loc = false

/-- The group has gone on past an instruction that it leaves outstanding as `a` (R39, R341): the token it names counts up,
windows its sources name have popped, and no register, memory, scratchpad or other group has changed. Of its core only what
the TLB keeps and the write-combining buffer may have changed, and of the fabric the packets that closing entries sent. -/
structure State.Launched (s t : State) (g : Nat) (a : Acc) (srcs : List Src) : Prop where
  out : (t.grp g).out = (s.grp g).out ++ [a]
  token : ∀ n, (t.grp g).token n = (s.grp g).token n + if n ≠ 0 ∧ n = a.tok.toNat then 1 else 0
  kept : { (t.grp g).kept with out := [], tokens := [] } = { (s.grp g).kept with out := [], tokens := [] }
  regs : s.Popped t g srcs
  went : (s.grp g).WentOn (t.grp g)
  elsewhere : s.SameElsewhere t g
  number : t.nextId = s.nextId + 1
  device : { t.rest with nextId := 0, fabric := s.fabric } = { s.rest with nextId := 0 }
  sent : ∃ ps, t.fabric = { s.fabric with sent := s.fabric.sent + ps.length, outward := s.fabric.outward ++ ps }
  cores : ∀ c, { t.core c with tlb := [], wcb := [] } = { s.core c with tlb := [], wcb := [] }

/-- What an outstanding access holds: its instruction's fields and address, its active lanes, and each lane's virtual
address and location. -/
structure State.Holding (s : State) (g : Nat) (a : Acc) (op : AccOp) (f : MemF) (va : Nat → Dword) (loc : Nat → Nat) :
    Prop where
  op : a.op = op
  lanes : a.act = s.active g f.msel ∧ a.done = 0
  fields : a.tok = f.tok ∧ a.fmt = f.fmt ∧ a.ord = f.ord ∧ a.scope = f.scope ∧ a.nw = f.nw
  place : a.pc = (s.grp g).ipc ∧ a.hdr = (s.grp g).clause!.hdr
  addr : ∀ L ∈ lanesOf (s.active g f.msel), a.vaOf L = va L ∧ a.addrOf L = loc L

/-- The bits of a data operand of `w` registers in a lane, low word first. -/
def State.bitsIn (s : State) (g : Nat) (o : Opnd) (L : Nat) : Nat :=
  (List.range o.w).foldl (fun x i => x + ((s.opndLanes g o i).at L).toNat * 2 ^ (32 * i)) 0

/-- A memory instruction with an active lane, whose operands are in order, whose every active lane's address passes its
checks, and for which there is room, leaves itself outstanding. -/
def Issues (i : Instr) (op : AccOp) (f : MemF) (off : BitVec 12) (p : Perm) (dst : List Need) (os : List Opnd)
    (typed : List Src) (ok : State → Nat → Dword → Nat → Prop) (ready : State → Nat → (Nat → Dword) → (Nat → Nat) → Prop)
    (data : State → Nat → Acc → Prop) : Prop :=
  ∀ (s : State) (g : Nat) (loc : Nat → Nat), s.Issues g → s.memOk g f.msel dst os f.fmt typed = true →
    s.active g f.msel ≠ 0 → s.hasRoom g f.tok = true →
    (∀ L ∈ lanesOf (s.active g f.msel),
      s.Reaches g p (s.addrOf g f off L) (fmtSize f.fmt) (loc L) ∧ ok s g (s.addrOf g f off L) (loc L)) →
    ready s g (s.addrOf g f off) loc →
    ∃ t a, exec i s = .next t ∧ s.Launched t g a (os.map fun o => o.src) ∧
      s.Holding g a op f (s.addrOf g f off) loc ∧ data s g a

/-- The same for a scratchpad instruction (R144 to R146): each active lane's address is aligned and lies in the scratchpad
of a block of the stook, whose line is not absent; its location is that block's and the offset. -/
def IssuesScratch (i : Instr) (op : AccOp) (f : MemF) (off : BitVec 12) (dst : List Need) (os : List Opnd)
    (typed : List Src) (ready : State → Nat → Prop) (data : State → Nat → Acc → Prop) : Prop :=
  ∀ (s : State) (g : Nat) (loc : Nat → Nat), s.Issues g → s.memOk g f.msel dst os f.fmt typed = true →
    s.active g f.msel ≠ 0 → s.hasRoom g f.tok = true →
    (∀ L ∈ lanesOf (s.active g f.msel),
      let va := (s.addrOf g f off L).toNat
      let m := va / 2 ^ 24
      va % fmtSize f.fmt = 0 ∧ (s.word g (.int f.base) L).toNat < 2 ^ 26 ∧ va < 2 ^ 26 ∧
        m < (s.blockOf g).record.stook ∧ va % 2 ^ 24 + fmtSize f.fmt ≤ (s.blockOf g).record.scratchBytes ∧
        ∃ b, s.member (s.grp g).blk m = some b ∧ loc L = scratchLoc b (va % 2 ^ 24) ∧
          s.absentAt (loc L) (fmtSize f.fmt) = false) →
    ready s g →
    ∃ t a, exec i s = .next t ∧ s.Launched t g a (os.map fun o => o.src) ∧
      s.Holding g a op f (s.addrOf g f off) loc ∧ data s g a

/-- With no lane active a memory instruction touches nothing (R160): its windows pop, and a load still sets the tags of its
`n` destination registers. -/
def TouchesNothing (i : Instr) (msel : BitVec 3) (dst : List Need) (os : List Opnd) (f : MFmt) (typed : List Src)
    (tagged : Nat → Bool) : Prop :=
  ∀ (s : State) (g : Nat), s.Issues g → s.memOk g msel dst os f typed = true → s.active g msel = 0 →
    ∃ t, exec i s = .next t ∧ (∀ n, (t.vreg g n).tag = if tagged n then fmtTag f else (s.vreg g n).tag) ∧
      (∀ n, (t.vreg g n).lanes = (s.vreg g n).lanes) ∧ (∀ n, t.sreg g n = s.sreg g n) ∧
      (∀ q, (t.grp g).queue q = if (queuesNamed (os.map fun o => o.src)).contains q then ((s.grp g).queue q).tail
        else (s.grp g).queue q) ∧
      (t.grp g).kept = (s.grp g).kept ∧ (s.grp g).WentOn (t.grp g) ∧ s.OnlyGroup t g

/-- An outstanding access of one active lane to memory of this device or its host, or to a scratchpad, that may be performed
now: no range, poison, copy of the line, queued store, graded packet or register on its way concerns it. -/
structure State.OneLane (s : State) (g : Nat) (a : Acc) (L : Nat) : Prop where
  present : (Tbl.find s.groups g).isSome = true
  resident : (s.blockOf g).resident = true
  runs : s.jobRuns (s.jobOf g) = true
  found : (s.grp g).out.find? (fun b => b.id == a.id) = some a
  lane : L < 64 ∧ a.act = 1#64 <<< L ∧ a.done = 0
  may : s.mayPerform g a L = true
  queued : s.gstores.all (fun x => !(x.gid == g && x.acc == a.id)) = true
  landed : a.got = []
  classified : s.fabric.outward.all (fun p => p.kind != 3 || p.acc != a.id) = true
  plain : a.op.scratch = false → s.gradedAt (s.jobOf g) (a.vaOf L).toNat = none ∧
    s.commAt (s.jobOf g) (a.vaOf L).toNat = none ∧ isRemote (a.addrOf L) = false ∧
    s.poison.contains (lineOf (a.addrOf L)) = false ∧ Tbl.find (s.core (s.coreOf g)).l1 (lineOf (a.addrOf L)) = none ∧
    Tbl.find (s.core (s.coreOf g)).ldc (lineOf (a.addrOf L)) = none
  inLine : a.addrOf L % 128 + fmtSize a.fmt ≤ 128

/-- An outstanding access, none of it performed yet, every lane of which may be performed now: no poison, copy of its lines, queued
store, graded packet or register on its way concerns it. -/
structure State.Due (s : State) (g : Nat) (a : Acc) : Prop where
  present : (Tbl.find s.groups g).isSome = true
  resident : (s.blockOf g).resident = true
  runs : s.jobRuns (s.jobOf g) = true
  found : (s.grp g).out.find? (fun b => b.id == a.id) = some a
  fresh : a.act ≠ 0 ∧ a.done = 0 ∧ a.got = []
  queued : s.gstores.all (fun x => !(x.gid == g && x.acc == a.id)) = true
  classified : s.fabric.outward.all (fun p => p.kind != 3 || p.acc != a.id) = true
  lanes : ∀ L ∈ lanesOf a.act, s.mayPerform g a L = true ∧ a.addrOf L % 128 + fmtSize a.fmt ≤ 128 ∧
    s.poison.contains (lineOf (a.addrOf L)) = false ∧ Tbl.find (s.core (s.coreOf g)).l1 (lineOf (a.addrOf L)) = none ∧
    Tbl.find (s.core (s.coreOf g)).ldc (lineOf (a.addrOf L)) = none

/-- Lane `L` of an access goes to memory of this device or its host, in no range. -/
def State.plainLane (s : State) (g : Nat) (a : Acc) (L : Nat) : Prop :=
  isRemote (a.addrOf L) = false ∧ s.gradedAt (s.jobOf g) (a.vaOf L).toNat = none ∧ s.commAt (s.jobOf g) (a.vaOf L).toNat = none

/-- Lane `L` of an access goes to a peer's memory, to no graded line, and no entry of its line is open in the core's buffer. -/
def State.farLane (s : State) (g : Nat) (a : Acc) (L : Nat) : Prop :=
  isRemote (a.addrOf L) = true ∧ s.gradedAt (s.jobOf g) (a.vaOf L).toNat = none ∧
    s.commAt (s.jobOf g) (a.vaOf L).toNat = none ∧ ∀ e ∈ (s.core (s.coreOf g)).wcb,
      e.at' (s.jobOf g) (chipOf (a.addrOf L)) (lineOf (a.addrOf L % 2 ^ 64)) = false

/-- The access goes on waiting: of its group only that, and what `f` says of the access, has changed. -/
def State.Waits (s t : State) (g : Nat) (a : Acc) (f : Acc → Acc) : Prop :=
  s.SameRegs t g ∧ (∀ x, t.mem.byte x = s.mem.byte x) ∧
    (t.grp g).out = (s.grp g).out.map fun b => if b.id = a.id then { f b with waiting := true } else b

/-- The access is complete (R166): its token counts down and it has left the group's list; the group stands where it stood,
and no other group has changed but what the device keeps of its lines. -/
structure State.Finished (s t : State) (g : Nat) (a : Acc) : Prop where
  out : (t.grp g).out = (s.grp g).out.filter fun b => b.id != a.id
  token : ∀ n, (t.grp g).token n = (s.grp g).token n - if n ≠ 0 ∧ n = a.tok.toNat then 1 else 0
  kept : { (t.grp g).kept with
      out := [], tokens := [], touched := [], hits := 0, misses := 0 } =
    { (s.grp g).kept with
      out := [], tokens := [], touched := [], hits := 0, misses := 0 }
  threads : (t.grp g).pcs = (s.grp g).pcs ∧ (t.grp g).mrs = (s.grp g).mrs ∧ (t.grp g).cur = (s.grp g).cur ∧
    (t.grp g).pend = (s.grp g).pend ∧ (t.grp g).clause = (s.grp g).clause
  windows : (t.grp g).queues = (s.grp g).queues
  groups : ∀ h, h ≠ g → t.grp h = s.grp h

/-- A lane's value of `w` registers is in the destination, under its tag (R53, R162, R163); every other register, and every
other lane, is as before. -/
structure State.Placed (s t : State) (g : Nat) (d : Dst) (nw : Bool) (f : MFmt) (L v : Nat) : Prop where
  vregs : ∀ n i, i < 64 → (t.vreg g n).lanes.at i =
    if nw = false ∧ i = L ∧ dstNamesV d (fmtRegs f) n = true then
      BitVec.ofNat 32 (v / 2 ^ (32 * (n - match d with | .v k => k.toNat | .s k => k.toNat)))
    else (s.vreg g n).lanes.at i
  tags : ∀ n, (t.vreg g n).tag = if nw = false ∧ dstNamesV d (fmtRegs f) n = true then fmtTag f else (s.vreg g n).tag
  sregs : ∀ n, t.sreg g n =
    if nw = false ∧ dstNamesS d (fmtRegs f) n = true then
      BitVec.ofNat 32 (v / 2 ^ (32 * (n - match d with | .v k => k.toNat | .s k => k.toNat)))
    else s.sreg g n

/-- Memory holds the `n` bytes of `v` from `loc` on, low byte first (R5), and every other byte is as before; no scratchpad
byte has changed. -/
structure State.Stored (s t : State) (loc n v : Nat) : Prop where
  bytes : ∀ i, i < n → t.mem.byte (loc + i) = BitVec.ofNat 8 (v / 256 ^ i)
  others : ∀ a, (a < loc ∨ loc + n ≤ a) → t.mem.byte a = s.mem.byte a
  scratch : ∀ b a, (t.blk b).scratch.byte a = (s.blk b).scratch.byte a

/-- The word that an operation of R171's table makes of an old word and an operand: unsigned, but for signed and F32 elements. -/
def combined (op : AtomOp) (f : MFmt) (old a : Word) : Word := match op with
  | .add => if f = .f32 then toF32 .rn (Fpv.sum .rn [f32 old, f32 a]) else BitVec.ofNat 32 (old.toNat + a.toNat)
  | .min => if f = .f32 then f32Min old a else if f = .i32 then (if a.toInt < old.toInt then a else old)
    else if a.toNat < old.toNat then a else old
  | .max => if f = .f32 then f32Max old a else if f = .i32 then (if old.toInt < a.toInt then a else old)
    else if old.toNat < a.toNat then a else old
  | .and => old &&& a
  | .or => old ||| a
  | .xor => old ^^^ a
  | .exch => a
  | .incw => if a.toNat ≤ old.toNat then 0 else BitVec.ofNat 32 (old.toNat + 1)

/-! ### Instructions that hold or leave themselves outstanding -/

/-- An instruction that is not lane by lane, with a lane active, `ok` of the state, room for it and no die being warm-reset (R387),
leaves itself outstanding (R39, R291): `about` says what the outstanding instruction holds. -/
def IssuesOp (i : Instr) (op : AccOp) (tok : BitVec 4) (msel : BitVec 3) (ns : List Need) (ok : State → Nat → Prop)
    (about : State → Nat → Acc → Prop) : Prop :=
  ∀ (s : State) (g : Nat), s.Issues g → s.needsOk g (ns ++ mselNeeds msel) = true → s.active g msel ≠ 0 →
    s.hasRoom g tok = true → s.dieReset = none → ok s g →
    ∃ t a, exec i s = .next t ∧ s.Launched t g a [] ∧ a.op = op ∧ a.tok = tok ∧ a.act = s.active g msel ∧ a.done = 0 ∧
      about s g a

/-- Nothing but the words of core `c`'s L1 that are not registered under it has changed: they are invalid (R150). -/
def State.Invalidated (s t : State) (c : Nat) : Prop :=
  (∀ line, Tbl.find (t.core c).l1 line = (Tbl.find (s.core c).l1 line).map fun l => { l with valid := l.valid &&& l.reg }) ∧
  (∀ d, { t.core d with l1 := [] } = { s.core d with l1 := [] }) ∧ ∀ d, d ≠ c → t.core d = s.core d

/-- A group has taken part in a barrier's phase: of what it keeps only its barrier records and what R242 ties to an arrival
have changed. -/
def Group.met (g : Group) : Group := { g.still with brec := [], orfReady := false }

/-! ### Slices and streams -/

/-- A context goes on past a word (R38): to the clause's next word, or out of the clause to the header after it. -/
def PastWord (x : Option Clause) (pc : Dword) (y : Option Clause) (pc' : Dword) : Prop :=
  match x with
  | none => y = none ∧ pc' = pc
  | some c =>
    if c.idx + 1 = headWords c.head then y = none ∧ pc' = nextHeader c.hdr c.head
    else y = some { c with idx := c.idx + 1 } ∧ pc' = pc

/-- Issued by the access slice of a group, with `ok` of it, the instruction leaves everything but the slice as it was, and
the slice as `dest` says. -/
def SliceDoes (i : Instr) (ok : State → Nat → Slice → Prop) (dest : State → Nat → Slice → Slice → Prop) : Prop :=
  ∀ (s : State) (g : Nat), s.issuer = .slice g → (Tbl.find s.groups g).isSome = true → ok s g (s.grp g).slice →
    ∃ y, exec i s = .next (s.setGrp g { s.grp g with slice := y }) ∧ dest s g (s.grp g).slice y

/-- The scratchpad bytes a stream instruction touches lie in the block's own scratchpad, on lines that are not absent
(R146, R251, R252). -/
def State.StreamReaches (s : State) (core : Nat) (ps : Pieces) : Prop :=
  ∀ x ∈ ps, x.1 / 2 ^ 24 = (s.blk (s.thrBlk core)).sidx ∧
    x.1 % 2 ^ 24 + x.2 ≤ (s.blk (s.thrBlk core)).record.scratchBytes ∧
    ∀ a, x.1 ≤ a → a < x.1 + x.2 → Tbl.find (s.blk (s.thrBlk core)).absent (a % 2 ^ 24 / 128) = none

/-- The sequencer goes on past its word, and each of the registers k16 to k31 among the operands `ks` has stepped once by
the register sixteen below it (R247). -/
structure Thresher.WentOn (x y : Thresher) (ks : List KSel) : Prop where
  place : PastWord x.clause x.pc y.clause y.pc
  stepped : ∀ r, KSel.k r ∈ ks → 16 ≤ r.toNat → y.k r.toNat = x.k r.toNat + x.k (r.toNat - 16)
  others : ∀ n, (∀ r, KSel.k r ∈ ks → 16 ≤ r.toNat → r.toNat ≠ n) → y.k n = x.k n
  kept : y.holder = x.holder ∧ y.st = x.st ∧ y.brec = x.brec ∧ y.fcode = x.fcode ∧ y.fpc = x.fpc

/-- Everything but core `c`'s Thresher is as it was, free values used aside, and the Thresher is `y`. -/
def State.OnlyThresher (s t : State) (c : Nat) (y : Thresher) : Prop :=
  { t with freeCount := s.freeCount } = s.setCore c { s.core c with thr := y }

/-- Issued by the sequencer of a core, with `ok` of it, the instruction changes only the Thresher, as `dest` says. -/
def StreamDoes (i : Instr) (ok : State → Nat → Thresher → Prop) (dest : State → Nat → Thresher → Thresher → Prop) : Prop :=
  ∀ (s : State) (c : Nat), s.issuer = .stream c → ok s c (s.thr c) →
    ∃ t y, exec i s = .next t ∧ s.OnlyThresher t c y ∧ dest s c (s.thr c) y

/-! ### Parking and the end of a grid -/

/-- Every member of a stook is resident and has halted, with nothing outstanding and no other request for it (R330), and no
die's warm reset holds a frame of it (R387). -/
structure State.MayPark (s : State) (k : Nat) : Prop where
  some : (s.stk k).members ≠ []
  free : ∀ b ∈ (s.stk k).members, (s.blk b).resident = true ∧ (s.blk b).stop = false ∧ (s.blk b).parkReq = none
  halted : ∀ b ∈ (s.stk k).members, ∀ h ∈ (s.blk b).gids, (s.grp h).out = [] ∧
    ((s.grp h).clause = none ∨ (s.grp h).heldAt = true) ∧
    ((s.grp h).slice.st ≠ .running ∨ (s.grp h).slice.clause = none ∨ (s.grp h).slice.held = true)
  copies : ∀ b ∈ (s.stk k).members, ∀ c ∈ s.copies, c.gid ∉ (s.blk b).gids
  reset : s.framesHeld (s.stk k).members = false

/-- Every member of a stook has left its core for the frame reserved for it, with a reason and a timer (R330, R340). -/
def State.Parked (s t : State) (k reason timer : Nat) : Prop :=
  ∀ b ∈ (s.stk k).members, (t.blk b).resident = false ∧
    ∃ f, (t.blk b).frame = some f ∧ f.reason = reason ∧ f.timer = timer ∧ f.addr = (s.blk b).fAddr

/-- Every frame of a stook is ready, its reason and place as before (R331). -/
def State.FramesReady (s t : State) (k : Nat) : Prop :=
  ∀ b ∈ (s.stk k).members, ∀ f, (s.blk b).frame = some f → (t.blk b).frame = some { f with ready := true }

/-- A packet has joined a job's sweep store (R371, R374): its record stands in the sealed zone, or from the first late packet or
spill on in the overflow zone, and one for which there is no room is dropped and counted. No range is commutative. -/
def State.Swept (s t : State) (job : Nat) (late : Bool) (p : Packet) : Prop :=
  ∀ j, s.job? job = some j → s.cranges = [] →
    let r : SweepRec := { seq := j.seq, late := late, pkt := p }
    let size := packetRoom p
    let room := min (4 * 2 ^ 20) (j.swSize * 2 ^ 20)
    let split := j.swBase + j.swSize * 2 ^ 20 - room
    let fits := late = false ∧ j.overflow = [] ∧ j.swBase + zoneBytes j.sealedRecs + size ≤ split
    let lands := fun a => Memory.read t.mem a size = r.image % 256 ^ size ∧
      ∀ x, (x < a ∨ a + size ≤ x) → t.mem.byte x = s.mem.byte x
    (fits → lands (j.swBase + zoneBytes j.sealedRecs) ∧
      t.job? job = some { j with sealedRecs := j.sealedRecs ++ [r], seq := j.seq + 1 }) ∧
    (¬ fits → zoneBytes j.overflow + size ≤ room → lands (split + zoneBytes j.overflow) ∧
      t.job? job = some { j with overflow := j.overflow ++ [r], seq := j.seq + 1 }) ∧
    (¬ fits → room < zoneBytes j.overflow + size → t.mem = s.mem ∧
      t.job? job = some { j with lateDropped := j.lateDropped + 1, dropPending := true })

/-- A grid that has not ended, whose blocks have halted (R330), with no child grid and nothing outstanding; no die is being
warm-reset (R387). -/
structure State.MayEnd (s : State) (z : Nat) : Prop where
  found : (Tbl.find s.grids z).isSome = true
  live : (s.grid z).ended = false
  few : (s.blocksOf z).length < 4000
  quiet : ∀ b ∈ s.blocksOf z, s.childGrids b = [] ∧ ∀ h ∈ (s.blk b).gids, (s.grp h).out = []
  halted : ∀ b ∈ s.blocksOf z, ∀ h ∈ (s.blk b).gids, ((s.grp h).clause = none ∨ (s.grp h).heldAt = true) ∧
    ((s.grp h).slice.st ≠ .running ∨ (s.grp h).slice.clause = none ∨ (s.grp h).slice.held = true)
  up : s.dieReset = none

/-- The grid has ended with a status, and none of its blocks is left (R320, R344). -/
def State.Ended (s t : State) (z status : Nat) : Prop :=
  (t.grid z).ended = true ∧ (t.grid z).done = true ∧ (t.grid z).status = status ∧
    ∀ b ∈ s.blocksOf z, Tbl.find t.blocks b = none

/-! ### Steps -/

/-- The step from `s` is the instruction's meaning in `t`, followed by what ends every step: stooks that were asked to park, runs
that were to stop and jobs that were to end do so once they have halted (R279, R330, R177). -/
def StepsAs (s : State) (i : Instr) (t : State) : Prop :=
  (∀ u, exec i t = .next u → step s = .next u.quiesce) ∧ (∀ f, exec i t = .fault f → step s = .fault f) ∧
    ∀ f, exec i t = .refused f → step s = .refused f

/-! ### What every step keeps -/

/-- Memory, and the scratchpad of every block, is in its one canonical form: addresses strictly rising, and no byte listed
that an unlisted address would read as. Equal memories are then equal data. -/
structure State.Inv (s : State) : Prop where
  memory : Memory.wf s.mem = true
  scratch : ∀ b, Memory.wf (s.blk b).scratch = true

end Sys2Proof.Machine
end

