-- ==== Sys2Proof/Certificates/Slice0/Obligations.lean ====
section
/-!
DEFINITION. The statements about this model: each formalises what the manual says an instruction, an event or the whole
device does.
-/
section

open Sys2Proof Sys2Proof.Machine

/-! ### Integer, bit, move, tag, address and mask instructions -/

/-- R85: the arithmetic instructions compute the values of its table in every active lane, or once for a scalar. -/
def Obligations.IntegerArithmetic : Prop :=
  Computes2 .iadd .raw .i32 (fun a b => BitVec.ofNat 32 (a.toNat + b.toNat)) ∧
  Computes2 .isub .raw .i32 (fun a b => BitVec.ofInt 32 ((a.toNat : Int) - b.toNat)) ∧
  Computes3 (.iaddc false) .raw .i32 (fun a b c => BitVec.ofNat 32 (a.toNat + b.toNat + c.toNat % 2)) ∧
  Computes3 (.iaddc true) .raw .i32 (fun a b c => BitVec.ofNat 32 ((a.toNat + b.toNat + c.toNat % 2) / 2 ^ 32)) ∧
  Computes2 .imul .raw .i32 (fun a b => BitVec.ofNat 32 (a.toNat * b.toNat)) ∧
  Computes2 (.imulh true) .raw .i32 (fun a b => BitVec.ofInt 32 (a.toInt * b.toInt / 2 ^ 32)) ∧
  Computes2 (.imulh false) .raw .i32 (fun a b => BitVec.ofNat 32 (a.toNat * b.toNat / 2 ^ 32)) ∧
  Computes3 .imad .raw .i32 (fun a b c => BitVec.ofNat 32 (a.toNat * b.toNat + c.toNat)) ∧
  Computes1 .iabs .raw .i32 (fun a => BitVec.ofNat 32 a.toInt.natAbs) ∧
  Computes1 .ineg .raw .i32 (fun a => BitVec.ofInt 32 (-(a.toNat : Int))) ∧
  Computes2 (.imin true) .raw .i32 (fun a b => BitVec.ofInt 32 (min a.toInt b.toInt)) ∧
  Computes2 (.imin false) .raw .i32 (fun a b => BitVec.ofNat 32 (min a.toNat b.toNat)) ∧
  Computes2 (.imax true) .raw .i32 (fun a b => BitVec.ofInt 32 (max a.toInt b.toInt)) ∧
  Computes2 (.imax false) .raw .i32 (fun a b => BitVec.ofNat 32 (max a.toNat b.toNat))
/-- R86 to R89: the shifts take their whole unsigned count, `rot` and `fsh` reduce theirs, the logic instructions act bit by
bit; counting bits, fields and byte permutation. -/
def Obligations.ShiftsLogicAndBitFields : Prop :=
  (Computes2 .shl .raw .b32 (fun a b => if 32 ≤ b.toNat then 0 else BitVec.ofNat 32 (a.toNat * 2 ^ b.toNat)) ∧
   Computes2 (.shr true) .raw .b32 (fun a b => BitVec.ofInt 32 (a.toInt / 2 ^ min b.toNat 31)) ∧
   Computes2 (.shr false) .raw .b32 (fun a b => if 32 ≤ b.toNat then 0 else BitVec.ofNat 32 (a.toNat / 2 ^ b.toNat)) ∧
   Computes2 .rot .raw .b32 (fun a b =>
     BitVec.ofNat 32 (a.toNat * 2 ^ (b.toNat % 32) + a.toNat / 2 ^ (32 - b.toNat % 32))) ∧
   Computes3 (.fsh true) .raw .b32 (fun a b c =>
     BitVec.ofNat 32 ((a.toNat * 2 ^ 32 + b.toNat) * 2 ^ (c.toNat % 64) % 2 ^ 64 / 2 ^ 32)) ∧
   Computes3 (.fsh false) .raw .b32 (fun a b c => BitVec.ofNat 32 ((a.toNat * 2 ^ 32 + b.toNat) / 2 ^ (c.toNat % 64))) ∧
   Computes2 .and .raw .b32 (fun a b => bitsOf 32 fun i => a.getLsbD i && b.getLsbD i) ∧
   Computes2 .or .raw .b32 (fun a b => bitsOf 32 fun i => a.getLsbD i || b.getLsbD i) ∧
   Computes2 .xor .raw .b32 (fun a b => bitsOf 32 fun i => a.getLsbD i != b.getLsbD i) ∧
   Computes2 .andn .raw .b32 (fun a b => bitsOf 32 fun i => a.getLsbD i && !b.getLsbD i) ∧
   Computes1 .not .raw .b32 (fun a => bitsOf 32 fun i => !a.getLsbD i) ∧
   ∀ table : BitVec 8, Computes3 (.tri table) .raw .b32 (fun a b c => bitsOf 32 fun i =>
     table.getLsbD (4 * (a.getLsbD i).toNat + 2 * (b.getLsbD i).toNat + (c.getLsbD i).toNat))) ∧
  (Computes1 .popc .raw .i32 (fun a => BitVec.ofNat 32 ((List.range 32).countP fun i => a.getLsbD i)) ∧
   Computes1 .clz .raw .i32 (fun a => if a = 0 then 32 else BitVec.ofNat 32 (31 - Nat.log2 a.toNat)) ∧
   Computes1 .ctz .raw .i32 (fun a => BitVec.ofNat 32 ((List.range 32).countP fun i => a.toNat % 2 ^ (i + 1) == 0)) ∧
   Computes1 .brev .raw .b32 (fun a => bitsOf 32 fun i => a.getLsbD (31 - i)) ∧
   Computes2 (.bfx false) .raw .b32 (fun a b =>
     BitVec.ofNat 32 (a.toNat / 2 ^ (b.toNat % 256) % 2 ^ min (b.toNat / 256 % 256) 32)) ∧
   Computes2 (.bfx true) .raw .b32 (fun a b =>
     let w := min (b.toNat / 256 % 256) 32
     let f := a.toInt / 2 ^ (b.toNat % 256) % 2 ^ w
     BitVec.ofInt 32 (if 0 < w ∧ 2 ^ (w - 1) ≤ f then f - 2 ^ w else f)) ∧
   Computes3 .bfi .raw .b32 (fun a b c =>
     let pos := c.toNat % 256
     let w := min (c.toNat / 256 % 256) 32
     bitsOf 32 fun i => if pos ≤ i ∧ i < pos + w then a.getLsbD (i - pos) else b.getLsbD i) ∧
   Computes3 .bperm .raw .b32 (fun a b c => bitsOf 32 fun i =>
     let nib := c.toNat / 16 ^ (i / 8) % 16
     let byte := 8 * (nib % 8)
     if 8 ≤ nib then (b ++ a : BitVec 64).getLsbD (byte + 7) else (b ++ a : BitVec 64).getLsbD (byte + i % 8)))

/-- R90, R91: comparison of two integers, and selection by a word or by a mask with the tag R91's table settles. -/
def Obligations.CompareAndSelect : Prop :=
  (∀ sg, Tests2 (.icmp .eq sg) .raw fun a b => decide (a = b)) ∧
  (∀ sg, Tests2 (.icmp .ne sg) .raw fun a b => decide (a ≠ b)) ∧
  Tests2 (.icmp .lt true) .raw (fun a b => decide (a.toInt < b.toInt)) ∧
  Tests2 (.icmp .lt false) .raw (fun a b => decide (a.toNat < b.toNat)) ∧
  Tests2 (.icmp .le true) .raw (fun a b => decide (a.toInt ≤ b.toInt)) ∧
  Tests2 (.icmp .le false) .raw (fun a b => decide (a.toNat ≤ b.toNat)) ∧
  Tests2 (.icmp .gt true) .raw (fun a b => decide (b.toInt < a.toInt)) ∧
  Tests2 (.icmp .gt false) .raw (fun a b => decide (b.toNat < a.toNat)) ∧
  Tests2 (.icmp .ge true) .raw (fun a b => decide (b.toInt ≤ a.toInt)) ∧
  Tests2 (.icmp .ge false) .raw (fun a b => decide (b.toNat ≤ a.toNat)) ∧
  ∀ o : Ops3,
    let tag : State → Nat → Nat → Tag := fun s g _ =>
      let ta := s.opndTag g (.int o.a)
      let tb := s.opndTag g (.int o.b)
      if ta = tb then ta.getD .b32 else if tb = none then ta.getD .b32 else if ta = none then tb.getD .b32 else .b32
    Computes (.sel false o) o.d 1 o.nw o.msel [.int o.a, .int o.b, .int o.c] tag (fun s g _ L =>
      if s.word g (.int o.c) L ≠ 0 then s.word g (.int o.a) L else s.word g (.int o.b) L) ∧
    Computes (.sel true o) o.d 1 o.nw o.msel [.int o.a, .int o.b, .pair o.c] tag (fun s g _ L =>
      if inMask (s.dword g (.pair o.c) L) L then s.word g (.int o.a) L else s.word g (.int o.b) L)

/-- R92: moves and broadcasts. -/
def Obligations.MovesAndBroadcasts : Prop :=
  (∀ o : Ops1, Computes (.mov o) o.d 1 o.nw o.msel [.int o.a] (fun s g _ => (s.opndTag g (.int o.a)).getD .b32)
    fun s g _ L => s.word g (.int o.a) L) ∧
  (∀ o : OpsI, Computes (.movi o) o.d 1 o.nw o.msel [] (fun _ _ _ => .b32) fun _ _ _ _ => o.imm) ∧
  (∀ o : Ops2, Computes (.vfill o) o.d 1 o.nw o.msel [.int o.a, .int o.b] (fun _ _ _ => .i32) fun s g _ L =>
    BitVec.ofNat 32 ((s.word g (.int o.a) L).toNat + L * (s.word g (.int o.b) L).toNat)) ∧
  ∀ o : Ops2, Computes (.vpick o) o.d 1 o.nw o.msel [.int o.a, .int o.b] (fun _ _ _ => .b32) fun s g _ _ =>
    s.word g (.int o.a) ((s.word g (.int o.b) 0).toNat % 64)

/-- R93: n(L) is the base's index plus the lane's index, exactly. `ridx` reads the register each active lane computes, under the
tag they share or else B32; `widx` writes one lane of the register each active lane computes: each register written takes the
value's tag, every other lane, register and tag is as before, and y0 takes the values of the active lanes and 0 elsewhere; with
no-write-back no register is written. An n(L) in 64 to 191 without the lock is the extension fault, and, when no lane's is, one of
192 or more, or below 64 and not usable, register-range, of the lowest such lane. The base is a register that the instruction
names, and must itself be there: the model's choice of log entry 24. -/
def Obligations.RegistersByIndex : Prop :=
  let faults : (State → Out) → State → Nat → Dword → (Nat → Nat) → Prop := fun run s g act n =>
    let ext := (lanesOf act).find? fun L => decide (64 ≤ n L) && decide (n L < 192) && !(s.limits g).lock
    let range := (lanesOf act).find? fun L => decide (192 ≤ n L) || (decide (n L < 64) && decide ((s.limits g).usable ≤ n L))
    (∀ L, ext = some L → run s = .next (s.faultHere g (Flt.ofLane 0x06 L 0))) ∧
    (∀ L, ext = none → range = some L → run s = .next (s.faultHere g (Flt.ofLane 0x05 L 0)))
  (∀ (o : Ops2) (a : BitVec 8), o.a = .v a → ∀ (s : State) (g : Nat),
     let act := s.active g o.msel
     let n : Nat → Nat := fun L => a.toNat + (s.word g (.int o.b) L).toNat
     s.Issues g → s.operandsOk g o.msel (.v a.toNat :: dstNeeds o.d 1) [.int o.b] = true →
     faults (exec (.ridx o)) s g act n ∧
     ((∀ L ∈ lanesOf act, Need.ok (s.limits g) (.v (n L)) = true) →
      ∃ t, exec (.ridx o) s = .next t ∧ s.Wrote t g act o.d 1 o.nw
        (fun _ => if act ≠ 0 ∧ ∀ L ∈ lanesOf act, (s.vreg g (n L)).tag = (s.vreg g (n (lowestLane act))).tag
          then (s.vreg g (n (lowestLane act))).tag else .b32)
        (fun _ L => (s.vreg g (n L)).lanes.at L) [o.b])) ∧
  (∀ (o : Ops2) (a : BitVec 8), o.d = .v a → ∀ (s : State) (g : Nat),
     let act := s.active g o.msel
     let n : Nat → Nat := fun L => a.toNat + (s.word g (.int o.a) L).toNat
     s.Issues g → s.operandsOk g o.msel [.v a.toNat] [.int o.a, .int o.b] = true →
     faults (exec (.widx o)) s g act n ∧
     ((∀ L ∈ lanesOf act, Need.ok (s.limits g) (.v (n L)) = true) →
      ∃ t, exec (.widx o) s = .next t ∧
        (∀ k L, L < 64 → (t.vreg g k).lanes.at L =
          if o.nw = false ∧ inMask act L ∧ n L = k then s.word g (.int o.b) L else (s.vreg g k).lanes.at L) ∧
        (∀ k, (t.vreg g k).tag = if o.nw = false ∧ ∃ L ∈ lanesOf act, n L = k then (s.opndTag g (.int o.b)).getD .b32
          else (s.vreg g k).tag) ∧
        (∀ k, t.sreg g k = s.sreg g k) ∧
        (∀ c, (s.grp g).clause = some c → (s.grp g).atLast = false →
          ∃ k y, (t.grp g).clause = some k ∧ k.latches = (y :: c.latches).take 4 ∧
            ∀ L, L < 64 → y.at L = if inMask act L then s.word g (.int o.b) L else 0) ∧
        (∀ q, (t.grp g).queue q = if (queuesNamed [o.a, o.b]).contains q then ((s.grp g).queue q).tail
          else (s.grp g).queue q) ∧
        (t.grp g).kept = (s.grp g).kept ∧ (s.grp g).WentOn (t.grp g) ∧ s.OnlyGroup t g))

/-- R94, R95, R96: tags, 64-bit addresses and lane masks. -/
def Obligations.TagsAddressesAndMasks : Prop :=
  (∀ t, Computes1 (.tag t) .raw t fun a => a) ∧
  (∀ o : Ops1, Computes (.tagq o) o.d 1 o.nw o.msel [.int o.a] (fun _ _ _ => .i32) fun s g _ _ =>
    BitVec.ofNat 32 (tagCode ((s.opndTag g (.int o.a)).getD .b32))) ∧
  (∀ o : OpsI, Computes (.lea o) o.d 2 o.nw o.msel [.pair o.a] (fun _ _ _ => .b32) fun s g j L =>
    halfOf j (BitVec.signExtend 64 ((s.dword g (.pair o.a) L + o.imm.signExtend 64).extractLsb' 0 57))) ∧
  (∀ (n : BitVec 3) (o : Ops2),
    Computes (.add64 false false n o) o.d 2 o.nw o.msel [.pair o.a, .int o.b] (fun _ _ _ => .b32) (fun s g j L =>
      halfOf j (BitVec.ofInt 64 ((s.dword g (.pair o.a) L).toInt + (s.word g (.int o.b) L).toInt * 2 ^ n.toNat))) ∧
    Computes (.add64 false true n o) o.d 2 o.nw o.msel [.pair o.a, .int o.b] (fun _ _ _ => .b32) (fun s g j L =>
      halfOf j (BitVec.ofNat 64 ((s.dword g (.pair o.a) L).toNat + (s.word g (.int o.b) L).toNat * 2 ^ n.toNat))) ∧
    Computes (.add64 true false n o) o.d 2 o.nw o.msel [.pair o.a, .pair o.b] (fun _ _ _ => .b32) (fun s g j L =>
      halfOf j (BitVec.ofNat 64 ((s.dword g (.pair o.a) L).toNat + (s.dword g (.pair o.b) L).toNat * 2 ^ n.toNat)))) ∧
  (∀ o : Ops2,
    let two : MaskOp → (Bool → Bool → Bool) → Prop := fun op f =>
      Computes (.mlop op o) o.d 2 o.nw o.msel [.pair o.a, .pair o.b] (fun _ _ _ => .b32) fun s g j _ =>
        halfOf j (bitsOf 64 fun i => f ((s.dword g (.pair o.a) 0).getLsbD i) ((s.dword g (.pair o.b) 0).getLsbD i))
    two .and (fun a b => a && b) ∧ two .or (fun a b => a || b) ∧ two .xor (fun a b => a != b) ∧
      two .andn (fun a b => a && !b) ∧
    Computes (.mlop .not o) o.d 2 o.nw o.msel [.pair o.a] (fun _ _ _ => .b32) (fun s g j _ =>
      halfOf j (bitsOf 64 fun i => !((s.dword g (.pair o.a) 0).getLsbD i))) ∧
    Computes (.mlop .mov o) o.d 2 o.nw o.msel [.pair o.a] (fun _ _ _ => .b32) (fun s g j _ =>
      halfOf j (s.dword g (.pair o.a) 0)) ∧
    Computes (.mlop .act o) o.d 2 o.nw o.msel [] (fun _ _ _ => .b32) (fun s g j _ => halfOf j (s.active g o.msel))) ∧
  (∀ o : Ops1, Computes (.mcnt o) o.d 1 o.nw o.msel [.pair o.a] (fun _ _ _ => .b32) fun s g _ _ =>
    BitVec.ofNat 32 ((List.range 64).countP fun i => (s.dword g (.pair o.a) 0).getLsbD i)) ∧
  ∀ o : Ops1, Computes (.mfirst o) o.d 1 o.nw o.msel [.pair o.a] (fun _ _ _ => .b32) fun s g _ _ =>
    BitVec.ofNat 32 (((List.range 64).find? fun i => (s.dword g (.pair o.a) 0).getLsbD i).getD 64)

/-- R59: an arithmetic or logic instruction whose operands are not in order takes the first fault in R59's order, with no
register written: illegal-instruction, extension, register-range, latch, then tag-mismatch, then an empty window. That an empty
window faults a float instruction too (R225), though R123 says that these raise no fault of their own, is the model's choice of
log entry 8. R19, R20, R41 to R45: what each selector reads in a lane: a register, a latch, a window's oldest complete entry, a
small immediate by the kind of its source, a special register by its name. -/
def Obligations.OperandFaultOrder : Prop :=
  (∀ (i : Ops2 → Instr) (k : Kind), (i, k) ∈ [(Instr.iadd, Kind.raw), (.isub, .raw), (.imul, .raw), (.shl, .raw), (.rot, .raw),
      (.and, .raw), (.or, .raw), (.xor, .raw), (.andn, .raw), (.fadd .rn, .f32), (.fsub .rn, .f32), (.fmul .rn, .f32),
      (.fmin, .f32), (.fmax, .f32), (.hadd2 .bf16 .rn, .half .bf16), (.hmul2 .f16 .rn, .half .f16)] →
    ∀ (o : Ops2) (s : State) (g : Nat), s.issuer = .lane g →
      let os : List Opnd := [⟨o.a, 1, k⟩, ⟨o.b, 1, k⟩]
      let ns := dstNeeds o.d 1 ++ os.flatMap Opnd.needs ++ mselNeeds o.msel
      let l := s.limits g
      s.operandsOk g o.msel (dstNeeds o.d 1) os = false →
      exec (i o) s = .next (s.faultHere g (Flt.bare
        (if ns.any fun n => match n with | .q q => decide (l.qn ≤ q) | _ => false then 0x02
         else if ns.any fun n => match n with | .v n => decide (64 ≤ n) && decide (n < 192) && !l.lock | _ => false then 0x06
         else if ns.any fun n => match n with
           | .v n => decide (192 ≤ n) || (decide (n < 64) && decide (l.usable ≤ n))
           | .s n => decide (l.scalars ≤ n)
           | _ => false then 0x05
         else if ns.any fun n => match n with | .y k => decide (l.latches ≤ k) | _ => false then 0x04
         else if os.any fun o => !(tagOk o.kind (s.opndTag g o)) then 0x07
         else 0x0D) 0 64))) ∧
  ∀ (s : State) (g L : Nat) (kind : Kind) (w : Nat), L < 64 →
    let reads : Src → Nat → Word := fun x i => (s.opndLanes g ⟨x, w, kind⟩ i).at L
    let x := s.grp g
    let k := s.blk x.blk
    let r := k.record
    let is : Special → Nat → Prop := fun p v => reads (.sp p) 0 = BitVec.ofNat 32 v
    (∀ (n : BitVec 8) (i : Nat), reads (.v n) i = (s.vreg g (n.toNat + i)).lanes.at L ∧
      reads (.s n) i = s.sreg g (n.toNat + i)) ∧
    (∀ (n : BitVec 2) (c : Clause) (y : Lanes), x.clause = some c → c.latches[n.toNat]? = some y → reads (.y n) 0 = y.at L) ∧
    (∀ (n : BitVec 3) e es, x.queue n.toNat = e :: es → e.full = true → reads (.q n) 0 = e.lanes.at L) ∧
    (∀ (b : BitVec 8) (i : Nat),
      let at' : Fpv → Prop := fun v => ∃ m e, v = .fin (decide (b.toInt < 0)) m e ∧
        ((if b.toInt < 0 then -1 else 1) * m * 2 ^ (e + 200).toNat : Int) = b.toInt * 2 ^ 200
      (0 < i → reads (.imm b) i = if b.toInt < 0 then 0xFFFFFFFF else 0) ∧
      match kind with
      | .raw => reads (.imm b) 0 = BitVec.ofInt 32 b.toInt
      | .f32 => at' (f32 (reads (.imm b) 0))
      | .half t => ∀ j, j < 2 → at' ((halfFmt t).value ((reads (.imm b) 0).toNat / 65536 ^ j % 65536))
      | .bytes _ => ∀ j, j < 4 → (reads (.imm b) 0).toNat / 256 ^ j % 256 = b.toNat) ∧
    (is .lane L ∧ is .tid (64 * x.idx + L) ∧ is .group x.idx ∧ is .ngroups r.groups ∧ is .blockx k.bx ∧ is .blocky k.by' ∧
      is .blockz k.bz ∧ is .gridx r.gridx ∧ is .gridy r.gridy ∧ is .gridz r.gridz ∧ is .stook k.sidx ∧ is .core k.core ∧
      is .die (k.core / 64) ∧ is .task k.task ∧ is .job k.job ∧ is .depth k.depth ∧
      is .arglo (r.args.toNat % 2 ^ 32) ∧ is .arghi (r.args.toNat / 2 ^ 32) ∧ is .clocklo (s.time % 2 ^ 32) ∧
      (∀ c, x.clause = some c → is .clockhi (match c.cap with
        | some t => t.toNat / 2 ^ 32
        | none => s.time / 2 ^ 32)) ∧
      is .grade (match s.grpTask g with
        | some t => (s.tEff t).toNat
        | none => 3) ∧
      is .chip (match s.job? k.job with
        | some j => j.spec.chip
        | none => 0))

/-! ### Float, conversion and packing instructions -/

/-- R108 to R112: the basic F32 instructions round the exact result once; `fabs` and `fneg` act on the sign. `fmin` and `fmax`
give the other operand of a lone NaN, the canonical NaN of two, else the lesser or greater of the two reals, −0 below +0; `fcmp`
compares reals, with −0 equal to +0 and a NaN unordered; `fclass` sets the bit of R112's table. Reals are counted here in units
of the least subnormal, the infinities beyond all of them. -/
def Obligations.FloatArithmetic : Prop :=
  (∀ rm, Computes2 (.fadd rm) .f32 .f32 fun a b => toF32 rm (Fpv.sum rm [f32 a, f32 b])) ∧
  (∀ rm, Computes2 (.fsub rm) .f32 .f32 fun a b => toF32 rm (Fpv.sum rm [f32 a, (f32 b).negate])) ∧
  (∀ rm, Computes2 (.fmul rm) .f32 .f32 fun a b => toF32 rm ((f32 a).mul (f32 b))) ∧
  (∀ rm, Computes3 (.ffma rm) .f32 .f32 fun a b c => toF32 rm (Fpv.sum rm [(f32 a).mul (f32 b), f32 c])) ∧
  Computes2 .fmin .f32 .f32 f32Min ∧ Computes2 .fmax .f32 .f32 f32Max ∧
  Computes1 .fabs .f32 .f32 (fun a => BitVec.ofNat 32 (a.toNat % 2 ^ 31)) ∧
  Computes1 .fneg .f32 .f32 (fun a => BitVec.ofNat 32 (a.toNat + 2 ^ 31)) ∧
  (∀ cc, Tests2 (.fcmp cc) .f32 (f32Cmp cc)) ∧
  Computes1 .fclass .f32 .i32 f32Class ∧
  (let real : Word → Int := fun w => match f32 w with
     | .nan => 0
     | .inf n => if n then -(2 ^ 300) else 2 ^ 300
     | .fin n m e => if n then -(m * 2 ^ (e + 149).toNat : Nat) else (m * 2 ^ (e + 149).toNat : Nat)
   (∀ a b : Word,
     ((f32 a).isNan = true → (f32 b).isNan = true → f32Min a b = 0x7FC00000#32 ∧ f32Max a b = 0x7FC00000#32) ∧
     ((f32 a).isNan = true → (f32 b).isNan = false → f32Min a b = b ∧ f32Max a b = b) ∧
     ((f32 a).isNan = false → (f32 b).isNan = true → f32Min a b = a ∧ f32Max a b = a) ∧
     ((f32 a).isNan = false → (f32 b).isNan = false →
       (real a < real b → f32Min a b = a ∧ f32Max a b = b) ∧ (real b < real a → f32Min a b = b ∧ f32Max a b = a) ∧
       (a = b → f32Min a b = a ∧ f32Max a b = a) ∧
       (real a = real b → a ≠ b → f32Min a b = 0x80000000#32 ∧ f32Max a b = 0)) ∧
     ∀ cc, f32Cmp cc a b =
       let un := (f32 a).isNan || (f32 b).isNan
       match cc with
       | .eq => !un && decide (real a = real b)
       | .ne => un || decide (real a ≠ real b)
       | .lt => !un && decide (real a < real b)
       | .le => !un && decide (real a ≤ real b)
       | .gt => !un && decide (real b < real a)
       | .ge => !un && decide (real b ≤ real a)
       | .un => un
       | .ord => !un) ∧
   ∀ a : Word, f32Class a = match f32 a with
     | .nan => if a.getLsbD 22 then 0x200#32 else 0x100#32
     | .inf n => if n then 0x1#32 else 0x80#32
     | .fin n m _ =>
       if m = 0 then (if n then 0x8#32 else 0x10#32)
       else if m < 2 ^ 23 then (if n then 0x4#32 else 0x20#32)
       else (if n then 0x2#32 else 0x40#32))

/-- R98, R99, R113 to R115: the correctly rounded functions, scaling, and rounding to and from integers complete, with their
frame. Their values: the special cases of R113's table, NaN inputs and the inputs outside a function's domain; `frcp` rounds the
exact quotient once; `fexp2` of an integer in range and `flog2` of a power of two are exact in every mode; `fscale` rounds the
exact product of A and a power of two once; `f2i` rounds to an integer and saturates; `i2f` rounds an integer once. -/
def Obligations.FloatFunctions : Prop :=
  ((∀ rm, Computes1 (.frcp rm) .f32 .f32 (f32Rcp rm)) ∧ (∀ rm, Computes1 (.frsq rm) .f32 .f32 (f32Rsq rm)) ∧
   (∀ rm, Computes1 (.fsqrt rm) .f32 .f32 (f32Sqrt rm)) ∧ (∀ rm, Computes1 (.fexp2 rm) .f32 .f32 (f32Exp2 rm)) ∧
   (∀ rm, Computes1 (.flog2 rm) .f32 .f32 (f32Log2 rm)) ∧ (∀ rm, Computes1 (.ftanh rm) .f32 .f32 (f32Tanh rm)) ∧
   (∀ rm, Computes1 (.fsig rm) .f32 .f32 (f32Sig rm)) ∧
   (∀ (rm : Rm) (o : Ops2), Computes (.fscale rm o) o.d 1 o.nw o.msel [.fp o.a, .int o.b] (fun _ _ _ => .f32) fun s g _ L =>
     f32Scale rm (s.word g (.fp o.a) L) (s.word g (.int o.b) L)) ∧
   (∀ rm, Computes1 (.frnd rm) .f32 .f32 fun a => match f32 a with
     | .nan => 0x7FC00000#32
     | .inf _ => a
     | .fin n m e => if 0 ≤ e then a else toF32 .rn (.fin n (roundInt rm n m (2 ^ (-e).toNat)) 0)) ∧
   (∀ rm, Computes1 (.f2i rm true) .f32 .i32 fun a =>
     if (f32 a).isNan then 0 else BitVec.ofInt 32 (max (-(2 ^ 31)) (min (2 ^ 31 - 1) (f32Int rm a)))) ∧
   (∀ rm, Computes1 (.f2i rm false) .f32 .i32 fun a =>
     if (f32 a).isNan then 0 else BitVec.ofInt 32 (max 0 (min (2 ^ 32 - 1) (f32Int rm a)))) ∧
   (∀ rm, Computes1 (.i2f rm true) .raw .f32 fun a => toF32 rm (.fin (decide (a.toInt < 0)) a.toInt.natAbs 0)) ∧
   (∀ rm, Computes1 (.i2f rm false) .raw .f32 fun a => toF32 rm (.fin false a.toNat 0))) ∧
  (∀ (rm : Rm) (a : Word), ((f32 a).isNan = true → ∀ f ∈ [f32Rcp, f32Rsq, f32Sqrt, f32Exp2, f32Log2, f32Tanh, f32Sig, f32Rnd],
       f rm a = 0x7FC00000#32) ∧
     ∀ n m e, f32 a = .fin n m e →
       (m ≠ 0 → f32Rcp rm a = BitVec.ofNat 32 (BFmt.f32.round rm n (2 ^ (-e).toNat) (m * 2 ^ e.toNat))) ∧
       (m ≠ 0 → n = true → ∀ f ∈ [f32Rsq, f32Sqrt, f32Log2], f rm a = 0x7FC00000#32) ∧
       (∀ b : Word, -600 ≤ b.toInt → b.toInt ≤ 600 → f32Scale rm a b = toF32 rm (.fin n m (e + b.toInt))) ∧
       (e < 0 → f32Int rm a = (if n then -1 else 1) * (roundInt rm n m (2 ^ (-e).toNat) : Int)) ∧
       (0 ≤ e → e ≤ 40 → f32Int rm a = (if n then -1 else 1) * (m * 2 ^ e.toNat : Int))) ∧
  (∀ rm : Rm,
     [f32Rcp rm 0xFF800000, f32Rcp rm 0x80000000, f32Rcp rm 0, f32Rcp rm 0x7F800000] =
       [0x80000000#32, 0xFF800000#32, 0x7F800000#32, 0] ∧
     [f32Rsq rm 0xFF800000, f32Rsq rm 0x80000000, f32Rsq rm 0, f32Rsq rm 0x7F800000] =
       [0x7FC00000#32, 0xFF800000#32, 0x7F800000#32, 0] ∧
     [f32Sqrt rm 0xFF800000, f32Sqrt rm 0x80000000, f32Sqrt rm 0, f32Sqrt rm 0x7F800000] =
       [0x7FC00000#32, 0x80000000#32, 0, 0x7F800000#32] ∧
     [f32Exp2 rm 0xFF800000, f32Exp2 rm 0x80000000, f32Exp2 rm 0, f32Exp2 rm 0x7F800000] =
       [0, 0x3F800000#32, 0x3F800000#32, 0x7F800000#32] ∧
     [f32Log2 rm 0xFF800000, f32Log2 rm 0x80000000, f32Log2 rm 0, f32Log2 rm 0x7F800000] =
       [0x7FC00000#32, 0xFF800000#32, 0xFF800000#32, 0x7F800000#32] ∧
     [f32Tanh rm 0xFF800000, f32Tanh rm 0x80000000, f32Tanh rm 0, f32Tanh rm 0x7F800000] =
       [0xBF800000#32, 0x80000000#32, 0, 0x3F800000#32] ∧
     [f32Sig rm 0xFF800000, f32Sig rm 0x80000000, f32Sig rm 0, f32Sig rm 0x7F800000] =
       [0, 0x3F000000#32, 0x3F000000#32, 0x3F800000#32]) ∧
  (∀ (rm : Rm) (n : Nat), (n ≤ 127 →
       f32Exp2 rm (toF32 .rn (.fin false n 0)) = BitVec.ofNat 32 ((127 + n) * 2 ^ 23) ∧
       f32Log2 rm (BitVec.ofNat 32 ((127 + n) * 2 ^ 23)) = toF32 .rn (.fin false n 0)) ∧
     (1 ≤ n → n ≤ 126 →
       f32Exp2 rm (toF32 .rn (.fin true n 0)) = BitVec.ofNat 32 ((127 - n) * 2 ^ 23) ∧
       f32Log2 rm (BitVec.ofNat 32 ((127 - n) * 2 ^ 23)) = toF32 .rn (.fin true n 0))) ∧
  f32Rcp .rz 1 = 0x7F7FFFFF#32

/-- R99, R113, R204: `fsqrt`, `frsq`, `fexp2`, `flog2`, `ftanh` and `fsig` of a finite A that is not 0 give the exact real value
rounded once in mode rm, and `gumbel` rounds each of its two logarithms once; what is stated is the value wherever the exact one lies
no nearer than a part 2^−200 to a point where rounding changes. Far out, `fexp2` overflows or underflows, and `ftanh` and `fsig` stand
next to their limits. -/
def Obligations.CorrectRounding : Prop :=
  (∀ (rm : Rm) (a : Word) (n : Bool) (m : Nat) (e : Int), f32 a = .fin n m e → m ≠ 0 →
    let x : ℝ := (if n then -1 else 1) * m * (2 : ℝ) ^ e
    let one : Bool → Word := fun neg => if rm = .rz ∨ (rm = .rd ∧ neg = false) ∨ (rm = .ru ∧ neg = true) then 0x3F7FFFFF else 0x3F800000
    (n = false → ∀ w, RoundsTo rm (√x) w → f32Sqrt rm a = w) ∧
    (n = false → ∀ w, RoundsTo rm (1 / √x) w → f32Rsq rm a = w) ∧
    (n = false → ∀ w, RoundsTo rm (Real.logb 2 x) w → f32Log2 rm a = w) ∧
    (|x| < 200 → ∀ w, RoundsTo rm ((2 : ℝ) ^ x) w → f32Exp2 rm a = w) ∧
    (200 ≤ |x| → f32Exp2 rm a = if n then (if rm = .ru then 1 else 0)
      else if rm = .rz ∨ rm = .rd then 0x7F7FFFFF else 0x7F800000) ∧
    (|x| < 30 → ∀ w, RoundsTo rm (Real.tanh x) w → f32Tanh rm a = w) ∧
    (30 ≤ |x| → f32Tanh rm a = one n + if n then 0x80000000 else 0) ∧
    (|x| < 120 → ∀ w, RoundsTo rm (1 / (1 + Real.exp (-x))) w → f32Sig rm a = w) ∧
    (120 ≤ |x| → f32Sig rm a = if n then (if rm = .ru then 1 else 0) else one false)) ∧
  ∀ (rm : Rm) (o t w : Word) (m : Nat) (e : Int), f32 t = .fin true m e →
    RoundsTo rm (Real.log (((o.toNat / 256 : ℕ) + 1 / 2) / 2 ^ 24)) t →
    RoundsTo rm (Real.log (m * (2 : ℝ) ^ e)) w → gumbelVal rm o = w ^^^ 0x80000000

/-- R116 to R118: conversion between formats and packed arithmetic, each element rounded once. -/
def Obligations.ConversionAndPackedArithmetic : Prop :=
  let value : Half → Word → Nat → Fpv := fun t w i => (halfFmt t).value (w.toNat / 65536 ^ i % 65536)
  let pack : Half → Rm → (Nat → Fpv) → Word := fun t rm x =>
    BitVec.ofNat 32 ((halfFmt t).bits rm (x 0) + 65536 * (halfFmt t).bits rm (x 1))
  (∀ (e1 : Bool) (rm : Rm) (o : Ops2),
    Computes (.cvt .bf16x2F32 e1 rm o) o.d 1 o.nw o.msel [.fp o.a, .fp o.b] (fun _ _ _ => .bf16x2) (fun s g _ L =>
      pack .bf16 rm fun i => f32 (if i = 0 then s.word g (.fp o.a) L else s.word g (.fp o.b) L)) ∧
    Computes (.cvt .f16x2F32 e1 rm o) o.d 1 o.nw o.msel [.fp o.a, .fp o.b] (fun _ _ _ => .f16x2) (fun s g _ L =>
      pack .f16 rm fun i => f32 (if i = 0 then s.word g (.fp o.a) L else s.word g (.fp o.b) L)) ∧
    Computes (.cvt .f32Bf16 e1 rm o) o.d 1 o.nw o.msel [.packed .bf16 o.a] (fun _ _ _ => .f32) (fun s g _ L =>
      toF32 .rn (value .bf16 (s.word g (.packed .bf16 o.a) L) e1.toNat)) ∧
    Computes (.cvt .f32F16 e1 rm o) o.d 1 o.nw o.msel [.packed .f16 o.a] (fun _ _ _ => .f32) (fun s g _ L =>
      toF32 .rn (value .f16 (s.word g (.packed .f16 o.a) L) e1.toNat)) ∧
    Computes (.cvt .bf16x2F16x2 e1 rm o) o.d 1 o.nw o.msel [.packed .f16 o.a] (fun _ _ _ => .bf16x2) (fun s g _ L =>
      pack .bf16 rm (value .f16 (s.word g (.packed .f16 o.a) L))) ∧
    Computes (.cvt .f16x2Bf16x2 e1 rm o) o.d 1 o.nw o.msel [.packed .bf16 o.a] (fun _ _ _ => .f16x2) (fun s g _ L =>
      pack .f16 rm (value .bf16 (s.word g (.packed .bf16 o.a) L)))) ∧
  (∀ t rm, Computes2 (.hadd2 t rm) (.half t) (halfTag t) fun a b =>
    pack t rm fun i => Fpv.sum rm [value t a i, value t b i]) ∧
  (∀ t rm, Computes2 (.hmul2 t rm) (.half t) (halfTag t) fun a b => pack t rm fun i => (value t a i).mul (value t b i)) ∧
  (∀ t rm, Computes3 (.hfma2 t rm) (.half t) (halfTag t) fun a b c =>
    pack t rm fun i => Fpv.sum rm [(value t a i).mul (value t b i), value t c i]) ∧
  ∀ (t : Half) (rm : Rm) (o : Ops3),
    Computes (.fdot2 t rm o) o.d 1 o.nw o.msel [.packed t o.a, .packed t o.b, .fp o.c] (fun _ _ _ => .f32) fun s g _ L =>
      let a := s.word g (.packed t o.a) L
      let b := s.word g (.packed t o.b) L
      toF32 rm (Fpv.sum rm [(value t a 0).mul (value t b 0), (value t a 1).mul (value t b 1), f32 (s.word g (.fp o.c) L)])

/-- R119 to R122: packing into and unpacking from bytes of D8, S8 and I8; a packed byte leaves the destination's other three
as they were. -/
def Obligations.BytePacking : Prop :=
  let old : State → Nat → Dst → Nat → Word := fun s g d L => match d with
    | .v n => (s.vreg g n.toNat).lanes.at L
    | .s n => s.sreg g n.toNat
  let insert : Word → BitVec 2 → Byte → Word := fun w n b => bitsOf 32 fun i =>
    if i / 8 = n.toNat then b.getLsbD (i % 8) else w.getLsbD i
  let byte : Word → Nat → Byte := fun w n => BitVec.ofNat 8 (w.toNat / 256 ^ n)
  (∀ (n : BitVec 2) (inf : Bool) (o : Ops2),
    Computes (.d8pack n inf false o) o.d 1 o.nw o.msel [.fp o.a] (fun _ _ _ => .d8x4) (fun s g _ L =>
      insert (old s g o.d L) n ((f32 (s.word g (.fp o.a) L)).toD8 inf 1 1)) ∧
    Computes (.d8pack n inf true o) o.d 1 o.nw o.msel [.fp o.a, .byte4 .s8x4 o.b] (fun _ _ _ => .d8x4) (fun s g _ L =>
      let k := s8Value (byte (s.word g (.byte4 .s8x4 o.b) L) (L / 16))
      insert (old s g o.d L) n ((f32 (s.word g (.fp o.a) L)).toD8 inf k.1 k.2))) ∧
  (∀ (n : BitVec 2) (o : Ops2),
    Computes (.d8unpk n false o) o.d 1 o.nw o.msel [.byte4 .d8x4 o.a] (fun _ _ _ => .f32) (fun s g _ L =>
      d8ToF32 (byte (s.word g (.byte4 .d8x4 o.a) L) n.toNat) 1 1) ∧
    Computes (.d8unpk n true o) o.d 1 o.nw o.msel [.byte4 .d8x4 o.a, .byte4 .s8x4 o.b] (fun _ _ _ => .f32) (fun s g _ L =>
      let k := s8Value (byte (s.word g (.byte4 .s8x4 o.b) L) (L / 16))
      d8ToF32 (byte (s.word g (.byte4 .d8x4 o.a) L) n.toNat) k.1 k.2)) ∧
  (∀ o : Ops1, Computes (.s8scale o) o.d 1 o.nw o.msel [.fp o.a] (fun _ _ _ => .s8x4) fun s g _ _ => bitsOf 32 fun i =>
    (scaleFor (((lanesOf (s.active g o.msel)).filter fun M => M / 16 == i / 8).map (s.word g (.fp o.a)))).getLsbD
      (i % 8)) ∧
  (∀ (n : BitVec 2) (rm : Rm) (o : Ops1),
    Computes (.i8pack n rm o) o.d 1 o.nw o.msel [.fp o.a] (fun _ _ _ => .i8x4) fun s g _ L =>
      insert (old s g o.d L) n (BitVec.ofInt 8 (max (-128) (min 127 (f32Int rm (s.word g (.fp o.a) L)))))) ∧
  (∀ n : BitVec 2, Computes1 (.i8unpk n true) (.bytes .i8x4) .i32 fun a => (byte a n.toNat).signExtend 32) ∧
  ∀ n : BitVec 2, Computes1 (.i8unpk n false) (.bytes .i8x4) .f32 fun a =>
    toF32 .rn (.fin (byte a n.toNat).msb (byte a n.toNat).toInt.natAbs 0)

/-! ### Cross-lane instructions -/

/-- R126: each active lane takes A from the source lane its table names, or its own A where that lane does not exist. R129,
R130: `scan` gives each active lane the running value of its segment's active lanes, `.exadd` that of the lanes below it;
`ballot` and `match` give masks of active lanes. -/
def Obligations.ShufflesScansAndVotes : Prop :=
  (let takes : (Ops2 → Instr) → (Nat → Nat → Nat) → Prop := fun i src =>
     ∀ o : Ops2, Computes (i o) o.d 1 o.nw o.msel [.int o.a, .int o.b] (fun s g _ => (s.opndTag g (.int o.a)).getD .b32)
       fun s g _ L => s.word g (.int o.a) (src L (s.word g (.int o.b) L).toNat)
   (∀ seg, takes (.shfl seg) fun L b => L / seg6W seg * seg6W seg + b % seg6W seg) ∧
   (∀ seg, takes (.shup seg) fun L b => if b < seg6W seg ∧ L / seg6W seg * seg6W seg + b ≤ L then L - b else L) ∧
   (∀ seg, takes (.shdn seg) fun L b =>
     if b < seg6W seg ∧ L + b < L / seg6W seg * seg6W seg + seg6W seg then L + b else L) ∧
   (∀ seg, takes (.shx seg) fun L b => L / seg6W seg * seg6W seg + (L ^^^ b) % seg6W seg) ∧
   takes .bcast (fun _ b => b % 64)) ∧
  ((∀ op ty seg rm (o : Ops1), Computes (.scan op ty seg rm o) o.d 1 o.nw o.msel [⟨o.a, 1, rtyKind ty⟩]
     (fun _ _ _ => rtyTag ty) fun s g _ L =>
       let a := s.word g ⟨o.a, 1, rtyKind ty⟩
       let lanes := (lanesOf (s.active g o.msel)).filter fun M =>
         decide (M / seg4W seg = L / seg4W seg) && decide (if op = .exadd then M < L else M ≤ L)
       match lanes with
       | [] => 0
       | M :: t => (t.map a).foldl (redCombine (scanRed op) ty rm) (a M)) ∧
   (∀ o : Ops1, Computes (.ballot o) o.d 2 o.nw o.msel [.int o.a] (fun _ _ _ => .b32) fun s g j _ =>
     halfOf j (bitsOf 64 fun L => inMask (s.active g o.msel) L && decide (s.word g (.int o.a) L ≠ 0))) ∧
   ∀ o : Ops1, Computes (.matchLanes o) o.d 2 o.nw o.msel [.int o.a] (fun _ _ _ => .b32) fun s g j L =>
     halfOf j (bitsOf 64 fun M => inMask (s.active g o.msel) M && decide (s.word g (.int o.a) M = s.word g (.int o.a) L)))

/-- R127, R128: a reduction combines the active lanes of each segment over the binary tree, with the identity where none is
active; the indexed forms also give the lowest active lane that holds the result. -/
def Obligations.Reductions : Prop :=
  let combine : Red → RTy → Rm → Word → Word → Word := fun r ty rm x y => match r, ty with
    | .add, .f32 => toF32 rm (Fpv.sum rm [f32 x, f32 y])
    | .add, _ => BitVec.ofNat 32 (x.toNat + y.toNat)
    | .min, .i32 => if x.toInt ≤ y.toInt then x else y
    | .max, .i32 => if x.toInt ≤ y.toInt then y else x
    | .min, .u32 => if x.toNat ≤ y.toNat then x else y
    | .max, .u32 => if x.toNat ≤ y.toNat then y else x
    | .min, .f32 => f32Min x y
    | .max, .f32 => f32Max x y
  let identity : Red → RTy → Word := fun r ty => match r, ty with
    | .add, _ => 0
    | .min, .i32 => 0x7FFFFFFF#32
    | .min, .u32 => 0xFFFFFFFF#32
    | .min, .f32 => 0x7F800000#32
    | .max, .i32 => 0x80000000#32
    | .max, .u32 => 0
    | .max, .f32 => 0xFF800000#32
  let result : Red → RTy → Rm → Nat → Dword → (Nat → Word) → Nat → Word := fun r ty rm k act a j =>
    match treeOf (combine r ty rm) (fun L => if inMask act L then some (a L) else none) k (j * 2 ^ k) with
    | some x => if ty = .f32 ∧ (f32 x).isNan = true then 0x7FC00000#32 else x
    | none => identity r ty
  let index : Red → RTy → Nat → Dword → (Nat → Word) → Nat → Word := fun r ty k act a j =>
    let nan : Nat → Bool := fun L => decide (ty = .f32) && (f32 (a L)).isNan
    let inSeg : Nat → Bool := fun L => inMask act L && decide (L / 2 ^ k = j)
    BitVec.ofNat 32 (((List.range 64).find? fun L => inSeg L &&
      ((List.range 64).all (fun M => !inSeg M || nan M) || (!nan L && a L == result r ty .rn k act a j))).getD 64)
  let k : Seg4 → Nat := seg4Log
  let src : RTy → Src → Opnd := fun ty a => ⟨a, 1, rtyKind ty⟩
  (∀ seg, 2 ^ seg4Log seg = seg4W seg) ∧
  (∀ ty seg rm (o : Ops1), Computes (.redadd ty seg rm o) o.d 1 o.nw o.msel [src ty o.a] (fun _ _ _ => rtyTag ty)
    fun s g _ L => result .add ty rm (k seg) (s.active g o.msel) (s.word g (src ty o.a)) (L / 2 ^ k seg)) ∧
  (∀ ty seg (o : Ops1), Computes (.redmin ty seg o) o.d 1 o.nw o.msel [src ty o.a] (fun _ _ _ => rtyTag ty)
    fun s g _ L => result .min ty .rn (k seg) (s.active g o.msel) (s.word g (src ty o.a)) (L / 2 ^ k seg)) ∧
  (∀ ty seg (o : Ops1), Computes (.redmax ty seg o) o.d 1 o.nw o.msel [src ty o.a] (fun _ _ _ => rtyTag ty)
    fun s g _ L => result .max ty .rn (k seg) (s.active g o.msel) (s.word g (src ty o.a)) (L / 2 ^ k seg)) ∧
  (∀ ty seg (o : Ops1), Computes (.redmini ty seg o) o.d 2 o.nw o.msel [src ty o.a]
    (fun _ _ i => if i = 0 then rtyTag ty else .i32) fun s g i L =>
      (if i = 0 then result .min ty .rn else index .min ty) (k seg) (s.active g o.msel) (s.word g (src ty o.a))
        (L / 2 ^ k seg)) ∧
  ∀ ty seg (o : Ops1), Computes (.redmaxi ty seg o) o.d 2 o.nw o.msel [src ty o.a]
    (fun _ _ i => if i = 0 then rtyTag ty else .i32) fun s g i L =>
      (if i = 0 then result .max ty .rn else index .max ty) (k seg) (s.active g o.msel) (s.word g (src ty o.a))
        (L / 2 ^ k seg)

/-- R25, R131 step 1: a group whose every thread is in the issuing cluster arrives, its clause ends and its threads stand at
the next clause; a group with a thread elsewhere takes reorder-divergent, and a `reorder` that is not its clause's last
word takes illegal-instruction. R131 step 5, R132: with every group arrived, the arrivals alike and every token clear, the
threads move in the stable order of exited, key and old slot; each carries its MR, its lane of every live register, what its
fences have ordered, the accesses of it that are still to be performed and the stores that its core's write-combining buffer holds
for it; everything that stays with a slot stays. That a group arrives, or is divergent, whatever lanes the lane select leaves active
is the model's choice of log entry 29. -/
def Obligations.Reorder : Prop :=
  (∀ (sg : Bool) (a : Src) (n : BitVec 8) (msel : BitVec 3) (s : State) (g : Nat), s.Issues g →
     let x := s.grp g
     let mask := s.spair g n.toNat
     let named := (lanesOf mask).map Need.v
     let os := [Opnd.int a, .pair (.s n)]
     let next := nextHeader x.clause!.hdr x.clause!.head
     (x.atLast = false → exec (.reorder sg a (.s n) msel) s = .next (s.faultHere g (Flt.bare 0x02 0 64))) ∧
     (x.atLast = true → s.operandsOk g msel named os = true → bitsOf 64 x.live ≠ x.curLanes →
       exec (.reorder sg a (.s n) msel) s = .next (s.faultHere g (Flt.bare 0x0E 0 64))) ∧
     (x.atLast = true → s.operandsOk g msel named os = true → bitsOf 64 x.live = x.curLanes →
       ∃ t r, exec (.reorder sg a (.s n) msel) s = .next t ∧ (t.grp g).reo = some r ∧
         r.pc = x.ipc ∧ r.next = next ∧ r.mask = mask ∧ r.sg = sg ∧ (∀ L, L < 64 → r.keys.at L = s.word g (.int a) L) ∧
         r.pops = queuesNamed [a] ∧
         (t.grp g).clause = none ∧ (∀ L, L < 64 → (t.grp g).pc L = if x.live L then next else x.pc L) ∧
         (t.grp g).mrs = x.mrs ∧ (t.grp g).apart = x.apart ∧ s.SameRegs t g ∧ s.SameElsewhere t g ∧ t.rest = s.rest ∧
         t.cores = s.cores)) ∧
  (∀ (s : State) (b : Nat), ¬ ((s.blk b).resident = true ∧ (s.blk b).parkReq = none ∧ s.jobRuns (s.blk b).job = true) →
     exec (.reorderMove b) s = .next s) ∧
  (∀ (s : State) (b : Nat) (rs : List (Nat × Arrival)), s.arrivals b = some rs → s.arrivalsAgree rs = true →
     (s.blk b).resident = true → (s.blk b).parkReq = none → s.jobRuns (s.blk b).job = true →
     (rs.map fun r => r.1).Nodup →
     (∀ r ∈ rs, (s.grp r.1).allClear = true ∧ (∀ a ∈ (s.grp r.1).out, a.stays = false) ∧ (s.grp r.1).retired = false) →
     let gid : Nat → Nat := fun i => (rs.map fun r => r.1).getD i 0
     let out : Nat → Bool := fun j => inMask (s.grp (gid (j / 64))).exited (j % 64)
     let key : Nat → Int := fun j => match rs[j / 64]? with
       | some r => if r.2.sg then (r.2.keys.at (j % 64)).toInt else (r.2.keys.at (j % 64)).toNat
       | none => 0
     ∃ (t : State) (order : List Nat), exec (.reorderMove b) s = .next t ∧ order.Perm (List.range (64 * rs.length)) ∧
       order.Pairwise (fun i j => (out i = false ∧ out j = true) ∨
         (out i = out j ∧ (key i < key j ∨ (key i = key j ∧ i < j)))) ∧
       (∀ (i : Nat) (r : Nat × Arrival), rs[i]? = some r →
         let x := s.grp r.1
         let y := t.grp r.1
         (∀ L, L < 64 →
           let from' := s.grp (gid (order.getD (64 * i + L) 0 / 64))
           let l := order.getD (64 * i + L) 0 % 64
           y.pc L = r.2.next ∧ (from'.mr l ≠ r.2.next → y.mr L = from'.mr l) ∧ y.live L = from'.live l ∧
           inMask y.fenced L = inMask from'.fenced l ∧
           ∀ n, n < 64 → n < (s.blk b).record.rounded → inMask r.2.mask n = true →
             (t.vreg r.1 n).lanes.at L = (s.vreg (gid (order.getD (64 * i + L) 0 / 64)) n).lanes.at l) ∧
         (∀ n, n < 64 → n < (s.blk b).record.rounded → inMask r.2.mask n = true →
           (t.vreg r.1 n).tag = if ∀ q ∈ rs, (s.vreg q.1 n).tag = (s.vreg r.1 n).tag then (s.vreg r.1 n).tag else .b32) ∧
         (∀ n, n < 64 → n < (s.blk b).record.rounded → inMask r.2.mask n = false → (t.vreg r.1 n).tag = .b32 ∧
           ∀ L, L < 64 → (t.vreg r.1 n).lanes.at L = (s.vreg r.1 n).lanes.at L ∨ (t.vreg r.1 n).lanes.at L = 0) ∧
         y.reo = none ∧ y.clause = none ∧ y.sregs = x.sregs ∧ y.tokens = x.tokens ∧ y.rngK = x.rngK ∧ y.rngC = x.rngC ∧
         (r.2.pops.Nodup → ∀ q, y.queue q = if r.2.pops.contains q then (x.queue q).tail else x.queue q) ∧
         (y.liveMrs ≠ [] → y.curLanes = bitsOf 64 y.live ∧ y.pend = [])) ∧
       (∀ h, h ∉ (rs.map fun r => r.1) → { t.grp h with out := [] } = { s.grp h with out := [] }) ∧
       (∀ k, { t.blk k with late := [] } = { s.blk k with late := [] } ∧ ((s.blk k).late = [] → (t.blk k).late = [])) ∧
       t.mem = s.mem ∧
       ∃ f : Nat → Nat,
         (∀ (i : Nat) (r : Nat × Arrival) (L : Nat), rs[i]? = some r → L < 64 →
           f (128 * gid (order.getD (64 * i + L) 0 / 64) + order.getD (64 * i + L) 0 % 64) = 128 * r.1 + L) ∧
         (∀ n, n / 128 ∉ (rs.map fun r => r.1) → f n = n) ∧
         (∀ h, (t.grp h).out = (s.grp h).out.map (Acc.renamed h f)) ∧
         ∀ c, t.core c = { s.core c with wcb := (s.core c).wcb.map fun e => { e with threads := e.threads.map f } })

/-- R134: the extension lock: `xlock` takes a free lock or asks for it, `xlock.try` takes a free one and says whether the
group holds it, and `xfree` releases it to a waiting partner. That the three act whatever lanes are active, with none active too,
is the model's choice of log entry 30. -/
def Obligations.ExtensionLock : Prop :=
  ∀ (msel : BitVec 3) (s : State) (g : Nat), s.Issues g → s.hasExt g = true →
    let holder := s.lockHolder g
    let partner := s.groups.find? fun p => p.1 != g && p.2.blk == (s.grp g).blk && p.2.pair == (s.grp g).pair && p.2.xreq &&
      !p.2.retired
    ((s.grp g).atLast = false → exec (.xlock msel) s = .next (s.faultHere g (Flt.bare 0x02 0 64))) ∧
    ((s.grp g).atLast = true → s.needsOk g (mselNeeds msel) = true →
      ∃ t, exec (.xlock msel) s = .next t ∧ s.PassedLock t g ∧ (s.grp g).WentOn (t.grp g) ∧
        t.lockHolder g = some (holder.getD g) ∧
        (t.grp g).xreq = if holder = none ∨ holder = some g then (s.grp g).xreq else true) ∧
    (∀ d : BitVec 8, s.needsOk g (.s d.toNat :: mselNeeds msel) = true →
      ∃ m t, s.PassedLock m g ∧ m.grp g = s.grp g ∧ m.lockHolder g = some (holder.getD g) ∧
        exec (.xlockTry d msel) s = .next t ∧
        m.Wrote t g (s.active g msel) (.s d) 1 false (fun _ => .b32)
          (fun _ _ => if holder = none ∨ holder = some g then 1 else 0) []) ∧
    (s.needsOk g (mselNeeds msel) = true →
      ∃ t, exec (.xfree msel) s = .next t ∧ s.PassedLock t g ∧ (s.grp g).WentOn (t.grp g) ∧
        t.lockHolder g = if holder = some g then partner.map (fun p => p.1) else holder)

/-! ### The Sieve -/

/-- R200, R201, R203, R204: a drawing instruction gives each active lane the value its formula makes of Out(K, C, L), and C
moves on once if a lane is active; with none active nothing is written and C stands. `rngkey` sets the key and the counter
if a lane is active, and its other forms read them into a scalar pair. -/
def Obligations.RandomDrawsAndKeys : Prop :=
  (let round : Dword → Dword → Nat → Dword := fun k z j =>
     let x := k.toNat * 2 ^ (16 * j)
     let z := z ^^^ BitVec.ofNat 64 (x % 2 ^ 64 + x / 2 ^ 64)
     let z := BitVec.ofNat 64 (z.toNat * 0xA5B357058C4E2D1B)
     z ^^^ BitVec.ofNat 64 (z.toNat / 2 ^ 29)
   let output : Dword → Dword → Nat → Word := fun k c L =>
     highWord (round k (round k (round k (round k (BitVec.ofNat 64 (c.toNat * 64 + L)) 0) 1) 2) 3)
   let draws : (Ops0 → Instr) → Tag → (Word → Word) → Prop := fun i tag f =>
     ∀ (o : Ops0) (s : State) (g : Nat), s.Issues g → s.operandsOk g o.msel (dstNeeds o.d 1) [] = true →
       let x := s.grp g
       let act := s.active g o.msel
       let m := if act = 0 then s else s.setGrp g { x with rngC := BitVec.ofNat 64 (x.rngC.toNat + 1) }
       ∃ t, exec (i o) s = .next t ∧
         m.Wrote t g act o.d 1 (o.nw || decide (act = 0)) (fun _ => tag) (fun _ L => f (output x.rngK x.rngC L)) []
   draws .rngnext .i32 (fun o => o) ∧
   draws .rngunif .f32 (fun o => toF32 .rn (.fin false (o.toNat / 2 ^ 8) (-24))) ∧
   ∀ rm, draws (.gumbel rm) .f32 (gumbelVal rm)) ∧
  ((∀ (a b : SImm) (msel : BitVec 3) (s : State) (g : Nat), s.Issues g →
     s.operandsOk g msel [] [SImm.opnd a, SImm.opnd b] = true →
     ∃ t, exec (.rngkey a b msel) s = .next t ∧ s.Did t g (if s.active g msel = 0 then s.grp g else
       { s.grp g with rngK := s.dword g (SImm.opnd a) 0, rngC := s.dword g (SImm.opnd b) 0 })) ∧
   (∀ d msel, Computes (.rngkeyGet d msel) (.s d) 2 false msel [] (fun _ _ _ => .b32) fun s g j _ =>
     halfOf j (s.grp g).rngC) ∧
   ∀ d msel, Computes (.rngkeyGetk d msel) (.s d) 2 false msel [] (fun _ _ _ => .b32) fun s g j _ =>
     halfOf j (s.grp g).rngK)

/-- R205, R206: `samplecat` draws a lane by the running sums of the active weights, and `topkthr` finds the k-th largest
active value. -/
def Obligations.Sampling : Prop :=
  (∀ o : Ops2, Computes (.samplecat o) o.d 1 o.nw o.msel [.fp o.a, .fp o.b] (fun _ _ _ => .i32) fun s g _ _ =>
    let act := lanesOf (s.active g o.msel)
    let w : Nat → Word := fun L =>
      let a := s.word g (.fp o.a) L
      if f32Cmp .gt a 0 then a else 0
    let run : Nat → Word := fun L =>
      (act.filter fun M => decide (M ≤ L)).foldl (fun x M => toF32 .rn (Fpv.sum .rn [f32 x, f32 (w M)])) 0
    let total := run 63
    let th := toF32 .rn ((f32 (s.word g (.fp o.b) 0)).mul (f32 total))
    let positive := act.filter fun L => decide (w L ≠ 0)
    BitVec.ofNat 32 (
      if total = 0 then 64
      else if total = 0x7F800000#32 then (act.find? fun L => decide (run L = 0x7F800000#32)).getD 64
      else match positive.find? fun L => f32Cmp .gt (run L) th with
        | some L => L
        | none => positive.getLastD 64)) ∧
  ∀ o : Ops2, Computes (.topkthr o) o.d 1 o.nw o.msel [.fp o.a, .int o.b] (fun _ _ _ => .f32) fun s g _ _ =>
    let vs := ((lanesOf (s.active g o.msel)).map (s.word g (.fp o.a))).filter fun v => !(f32 v).isNan
    let k := (s.word g (.int o.b) 0).toNat
    if k = 0 then 0x7F800000#32
    else (vs.find? fun v => decide (vs.countP (fun x => decide (f32Key v < f32Key x)) < k) &&
      decide (k ≤ vs.countP (fun x => decide (f32Key v ≤ f32Key x)))).getD 0xFF800000#32

/-! ### Control flow -/

/-- R71 to R73: the jumps move each thread of the cluster to T, the clause's header plus 8 × offset, or to `Next`; T passes
the checks of a target when some thread takes it. Of `jmp`: with a target that is no clause header of the kernel, no thread
moves, no register changes, and illegal-target is raised at the jump, with FLANE 64 and FADDR 0: the model's choices of log
entries 27 and 28. -/
def Obligations.DirectJumps : Prop :=
  (let target : State → Nat → BitVec 32 → Dword := fun s g off => (s.grp g).clause!.hdr + 8 * off.signExtend 64
   let next : State → Nat → Dword := fun s g => nextHeader (s.grp g).clause!.hdr (s.grp g).clause!.head
   let jumps : (Src → BitVec 32 → Instr) → (State → Nat → Opnd → Nat → Prop) → Prop := fun i taken =>
     ∀ (c : Src) (off : BitVec 32) (dest : State → Nat → Nat → Dword),
       (∀ s g L, (taken s g (.int c) L → dest s g L = target s g off) ∧ (¬ taken s g (.int c) L → dest s g L = next s g)) →
       Machine.Jumps (i c off) [.int c]
         (fun s g => (∃ L ∈ lanesOf (s.grp g).curLanes, taken s g (.int c) L) → s.targetOk g false (target s g off)) dest
   (∀ off, Machine.Jumps (.jmp off) [] (fun s g => s.targetOk g false (target s g off)) fun s g _ => target s g off) ∧
   (∀ z : Bool, jumps (.jsc z) fun s g c _ => (s.word g c 0 ≠ 0) ≠ (z = true)) ∧
   (∀ z : Bool, jumps (.jv z) fun s g c L => (s.word g c L ≠ 0) ≠ (z = true)) ∧
   (∀ z : Bool, jumps (.jany z) fun s g c _ => ∃ L ∈ lanesOf (s.grp g).curLanes, (s.word g c L ≠ 0) ≠ (z = true)) ∧
   (∀ z : Bool, jumps (.jall z) fun s g c _ => ∀ L ∈ lanesOf (s.grp g).curLanes, (s.word g c L ≠ 0) ≠ (z = true)) ∧
   ∀ (n : BitVec 8) (off : BitVec 32) (s : State) (g : Nat), s.Issues g → s.needsOk g [.s n.toNat] = true →
     let c := BitVec.ofInt 32 ((s.sreg g n.toNat).toNat - 1 : Int)
     (c ≠ 0 → s.targetOk g false (target s g off)) →
     ∃ t, exec (.loop n off) s = .next t ∧ s.Branched t g (fun _ => if c ≠ 0 then target s g off else next s g) ∧
       (∀ k, t.sreg g k = if k = n.toNat then c else s.sreg g k) ∧ (∀ k, t.vreg g k = s.vreg g k) ∧
       ∀ q, (t.grp g).queue q = (s.grp g).queue q) ∧
  (∀ (off : BitVec 32) (s : State) (g : Nat), s.issuer = .lane g →
     s.checkTarget (s.grp g).blk .lane false ((s.grp g).clause!.hdr + 8 * off.signExtend 64) = .illegal →
     exec (.jmp off) s = .next (s.faultHere g (Flt.bare 0x03 0 64)))

/-- R74 to R76: the jumps through a pair take each thread to its lane's value, and the calls leave the address of `Next` in
the link pair. `meet` saves each thread's MR in a pair and sets it to T, and `meet.pop` puts a saved value back; neither moves a
thread. -/
def Obligations.IndirectJumpsAndCalls : Prop :=
  let next : State → Nat → Dword := fun s g => nextHeader (s.grp g).clause!.hdr (s.grp g).clause!.head
  let target : State → Nat → BitVec 32 → Dword := fun s g off => (s.grp g).clause!.hdr + 8 * off.signExtend 64
  let ok : Dst → State → Nat → Prop := fun p s g =>
    ∀ L ∈ (match p with | .s _ => [0] | .v _ => lanesOf (s.grp g).curLanes), s.targetOk g true (s.dword g (pairOpnd p) L)
  let setMrs : State → State → Nat → (Nat → Dword) → Prop := fun s t g f =>
    ∃ x : Group, x.WentOn (t.grp g) ∧ { x with mrs := [] } = { s.grp g with mrs := [] } ∧
      (∀ L, L < 64 → x.mr L = if inMask (s.grp g).curLanes L then f L else (s.grp g).mr L) ∧
      (t.grp g).kept = (s.grp g).kept ∧ s.OnlyGroup t g
  (∀ p, Machine.Jumps (.jind p) [pairOpnd p] (ok p) fun s g L => s.dword g (pairOpnd p) L) ∧
  (∀ p, Machine.Jumps (.ret p) [pairOpnd p] (ok p) fun s g L => s.dword g (pairOpnd p) L) ∧
  (∀ (link : BitVec 8) (off : BitVec 32) (s : State) (g : Nat), s.Issues g →
    s.needsOk g (vpairNeeds link) = true → s.targetOk g false (target s g off) →
    ∃ t, exec (.call link off) s = .next t ∧ s.Branched t g (fun _ => target s g off) ∧
      s.WrotePair t g link.toNat (fun _ => next s g)) ∧
  (∀ (p : Dst) (link : BitVec 8) (s : State) (g : Nat), s.Issues g →
    s.operandsOk g 0 (vpairNeeds link) [pairOpnd p] = true → ok p s g →
    ∃ t, exec (.calli p link) s = .next t ∧ s.Branched t g (fun L => s.dword g (pairOpnd p) L) ∧
      s.WrotePair t g link.toNat (fun _ => next s g)) ∧
  (∀ (save : BitVec 8) (off : BitVec 32) (s : State) (g : Nat), s.Issues g → s.needsOk g (vpairNeeds save) = true →
    let target := (s.grp g).clause!.hdr + 8 * off.signExtend 64
    s.targetOk g false target →
    ∃ t, exec (.meet save off) s = .next t ∧ s.WrotePair t g save.toNat (fun L => (s.grp g).mr L) ∧
      setMrs s t g fun _ => target) ∧
  ∀ (save : BitVec 8) (s : State) (g : Nat), s.Issues g →
    let saved : Nat → Dword := fun L => s.dword g (.pair (.v save)) L
    s.operandsOk g 0 [] [.pair (.v save)] = true →
    (∀ L ∈ lanesOf (s.grp g).curLanes, saved L ≠ Config.noMeeting → s.targetOk g true (saved L)) →
    ∃ t, exec (.meetPop save) s = .next t ∧ s.SameRegs t g ∧ setMrs s t g saved

/-- R77 to R79: `yield` ends the run with every thread at `Next`, `exit` marks the cluster's threads exited, and `nop` has no
effect. `wait` goes on when its tokens are clear and holds while one is not; with an overdue cluster pending, the cluster that
holds may also be pending with its PC at the `wait`, as one with a pending cluster that stands there (R61), and an overdue
cluster runs (R64). -/
def Obligations.YieldExitWait : Prop :=
  ∀ (s : State) (g : Nat), s.Issues g →
    (∃ t, exec .yield s = .next t ∧ s.SameRegs t g ∧
      s.Branched t g fun _ => nextHeader (s.grp g).clause!.hdr (s.grp g).clause!.head) ∧
    (∃ t, exec .exit s = .next t ∧ s.SameRegs t g ∧ (t.grp g).clause = none ∧ s.OnlyGroup t g ∧
      (t.grp g).exited = (s.grp g).exited ||| (s.grp g).curLanes ∧
      (∀ L, L < 64 → (t.grp g).pc L = (s.grp g).pc L) ∧
      { (t.grp g).kept with exited := 0 } = { (s.grp g).kept with exited := 0 }) ∧
    (∀ mask : BitVec 15,
      ((∀ n, 1 ≤ n → n ≤ 15 → mask.getLsbD (n - 1) = true → (s.grp g).token n = 0) →
        ∃ t, exec (.wait mask) s = .next t ∧ s.Did t g (s.grp g)) ∧
      (∀ n, 1 ≤ n → n ≤ 15 → mask.getLsbD (n - 1) = true → (s.grp g).token n ≠ 0 →
        ∃ t, exec (.wait mask) s = .next t ∧
          ((s.grp g).overdue = false → s.Holds t g) ∧
          ((s.grp g).overdue = true → s.SameElsewhere t g ∧ s.SameRegs t g ∧ t.cores = s.cores ∧
            { t.rest with freeCount := s.freeCount } = s.rest ∧ (t.grp g).kept = (s.grp g).kept ∧
            (((t.grp g).heldAt = true ∧ (t.grp g).clause = (s.grp g).clause ∧ (t.grp g).cur = (s.grp g).cur ∧
                (t.grp g).pend = (s.grp g).pend ∧ (t.grp g).pcs = (s.grp g).pcs) ∨
              ((t.grp g).clause = none ∧
                (∀ L, L < 64 → (t.grp g).pc L =
                  if inMask (s.grp g).curLanes L then (s.grp g).ipc else (s.grp g).pc L) ∧
                ((s.grp g).cur ≠ none →
                  let y := (s.grp g).setPcs (s.grp g).curLanes fun _ => (s.grp g).ipc
                  let c : Cluster := { lanes := (s.grp g).curLanes, age := 0, res := (s.grp g).clause!.idx + 1 }
                  ∃ n ∈ (s.grp g).pend, overdueAge ≤ n.age ∧
                    (t.grp g).curLanes = if y.spot n = y.spot c then n.lanes ||| c.lanes else n.lanes)))))) ∧
    ∃ t, exec .nop s = .next t ∧ s.Did t g (s.grp g)

/-! ### Exceptions -/

/-- R343: a fault whose handler may be entered sets the fault registers and inh and takes every thread of the faulting
cluster to the handler; `trap` and `brk` take such faults, with their number in FINFO. R345, R349: `eret` clears inh and
resumes at FPC, the header or the word of a clause; with `.next` and FHDR not 0 it resumes at the word after FPC, which is the
clause's first word where FPC is the header itself, or at the next header where FPC is the clause's last word (that the header
is then read as a fetch reads it is the model's choice of log entry 94); at an FPC that the handler has changed it resumes at
the clause there; with inh clear, or where it is not its clause's last word, it is illegal-instruction. -/
def Obligations.TrapEntryAndReturn : Prop :=
  ((∀ (s : State) (g : Nat) (f : Flt) (pc hdr : Dword), (Tbl.find s.groups g).isSome = true → s.trapCheck g = some .ok →
     s.Trapped (s.takeFault g f pc hdr) g f pc hdr) ∧
   ∀ (n : BitVec 8) (s : State) (g : Nat), s.Issues g → s.trapCheck g = some .ok →
     let pc := (s.grp g).clause!.hdr + BitVec.ofNat 64 (8 * ((s.grp g).clause!.idx + 1))
     (∃ t, exec (.trap n) s = .next t ∧
       s.Trapped t g (Flt.bare 0x1D n (lowestLane (s.grp g).curLanes)) pc (s.grp g).clause!.hdr) ∧
     ∀ msel : BitVec 3, s.needsOk g (mselNeeds msel) = true → s.active g msel ≠ 0 →
       ∃ t, exec (.brk n msel) s = .next t ∧ s.Trapped t g (Flt.bare 0x1E n 64) pc (s.grp g).clause!.hdr) ∧
  (∀ (nxt : Bool) (msel : BitVec 3) (s : State) (g : Nat), s.Issues g →
     let x := s.grp g
     ((x.atLast = false ∨ (s.needsOk g (mselNeeds msel) = true ∧ s.active g msel ≠ 0 ∧ x.inh = false)) →
       exec (.eret nxt msel) s = .next (s.faultHere g (Flt.bare 0x02 0 64))) ∧
     (x.atLast = true → s.needsOk g (mselNeeds msel) = true → s.active g msel ≠ 0 → x.inh = true →
       let inClause := x.fhdr ≠ 0 ∧ x.fhdr ≠ x.fpc
       let i := (x.fpc.toNat - x.fhdr.toNat) / 8 - 1
       (x.fpc = x.fpcEntry → ¬ inClause → (nxt = false ∨ x.fhdr = 0) →
         ∃ t, exec (.eret nxt msel) s = .next t ∧ s.Resumed t g x.fpc 0) ∧
       (x.fpc = x.fpcEntry → x.fhdr = x.fpc → x.fhdr ≠ 0 → nxt = true →
         ∃ t, exec (.eret nxt msel) s = .next t ∧ s.Resumed t g (x.fpc + 8) 1) ∧
       (x.fpc = x.fpcEntry → inClause → nxt = false →
         ∃ t, exec (.eret nxt msel) s = .next t ∧ s.Resumed t g x.fpc (i + 1)) ∧
       (∀ (loc : Nat) (head : Dword), x.fpc = x.fpcEntry → inClause → nxt = true →
         s.fetch (s.coreOf g) (s.jobOf g) x.fhdr = (.ok loc, head) → s.outsideJob (s.jobOf g) loc = false →
         ∃ t, exec (.eret nxt msel) s = .next t ∧
           if i + 1 < headWords head then s.Resumed t g (x.fpc + 8) (i + 2) else s.Resumed t g (nextHeader x.fhdr head) 0) ∧
       (x.fpc ≠ x.fpcEntry → s.targetOk g true x.fpc →
         ∃ t, exec (.eret nxt msel) s = .next t ∧ s.Resumed t g x.fpc 0)))

/-! ### Memory accesses -/

/-- R160, R168 to R170: a load whose addresses pass the checks leaves itself outstanding with each active lane's address;
nothing is read or written until it is performed. -/
def Obligations.LoadsIssue : Prop :=
  (∀ (f : MemF) (off : BitVec 12) (evict : BitVec 3) (grade : BitVec 2),
    Machine.Issues (.ld f off evict grade) (.load (srcDst f.data)) f off .read (dstNeeds (srcDst f.data) (fmtRegs f.fmt))
      [baseOpnd f.mode f.base] [] (fun _ _ _ _ => True) (fun _ _ _ _ => True)
      fun _ _ a => a.evict = evict ∧ a.grade = grade) ∧
  (∀ (f : MemF) (off : BitVec 12) (evict : BitVec 3),
    Machine.Issues (.ldc f off evict) (.loadConst (srcDst f.data)) f off .read
      (dstNeeds (srcDst f.data) (fmtRegs f.fmt)) [baseOpnd f.mode f.base] [] (fun _ _ _ loc => isRemote loc = false)
      (fun _ _ _ _ => True) fun _ _ a => a.evict = evict) ∧
  (∀ (f : MemF) (c : Src) (evict : BitVec 3) (grade : BitVec 2), f.mode ≠ .scratch →
    Machine.Issues (.ldw f c evict grade) (.loadWait (srcDst f.data)) f 0 .read
      (dstNeeds (srcDst f.data) (fmtRegs f.fmt)) [baseOpnd f.mode f.base, dataOpnd c f.fmt] [] (fun _ _ _ _ => True)
      (fun _ _ _ _ => True) fun s g a => a.evict = evict ∧ a.grade = grade ∧
        ∀ L ∈ lanesOf (s.active g f.msel), a.data2Of L = s.bitsIn g (dataOpnd c f.fmt) L) ∧
  ∀ (f : MemF) (off : BitVec 12), f.mode = .scratch →
    IssuesScratch (.lds f off) (.sload (srcDst f.data)) f off (dstNeeds (srcDst f.data) (fmtRegs f.fmt))
      [.int f.base] [] (fun s g => s.releaseReady g (s.active g f.msel) (relOrd f.ord) f.scope false none = true) fun _ _ _ => True

/-- R160, R162, R168: a store whose addresses pass the checks leaves itself outstanding with each active lane's address and
data; memory stands until it is performed. -/
def Obligations.StoresIssue : Prop :=
  (∀ (f : MemF) (off : BitVec 12) (evict : BitVec 3) (grade : BitVec 2), f.mode ≠ .scratch →
    Machine.Issues (.st f off evict grade) .store f off .write [] [baseOpnd f.mode f.base, dataOpnd f.data f.fmt] [f.data]
      (fun s g va _ => s.commAt (s.jobOf g) va.toNat = none ∧ s.storeEgress g grade (fmtSize f.fmt) va.toNat = false)
      (fun s g va loc =>
        let lanes := lanesOf (s.active g f.msel)
        let graded := lanes.filter fun L => (s.gradedAt (s.jobOf g) (va L).toNat).isSome
        s.listFull g (graded.map fun L => (va L).toNat / 128).eraseDups = false ∧
          s.releaseReady g (s.active g f.msel) (relOrd f.ord) f.scope true (ownTarget lanes loc) = true)
      fun s g a => a.evict = evict ∧ a.grade = grade ∧
        ∀ L ∈ lanesOf (s.active g f.msel), a.dataOf L = s.bitsIn g (dataOpnd f.data f.fmt) L) ∧
  ∀ (f : MemF) (off : BitVec 12), f.mode = .scratch →
    IssuesScratch (.sts f off) .sstore f off [] [.int f.base, dataOpnd f.data f.fmt] [f.data]
      (fun s g => s.releaseReady g (s.active g f.msel) (relOrd f.ord) f.scope false none = true) fun s g a =>
        ∀ L ∈ lanesOf (s.active g f.msel), a.dataOf L = s.bitsIn g (dataOpnd f.data f.fmt) L

/-- R160, R171 to R174, R176: an atomic outside graded and commutative ranges, and a `cred` inside one of its element type,
leaves itself outstanding with each active lane's operands. That host memory takes `red.add` of the 32-bit and 64-bit integer
formats beside `exch`, `add` and compare-and-swap is the model's choice of log entry 34. -/
def Obligations.AtomicsIssue : Prop :=
  let free : Nat → Bool → State → Nat → Dword → Nat → Prop := fun n host s g va loc =>
    s.commAt (s.jobOf g) va.toNat = none ∧ s.gradedAt (s.jobOf g) va.toNat = none ∧ s.belowFinal g va.toNat n = false ∧
      (isHost loc = true → host = true)
  let hostOk : AtomOp → MFmt → Bool := fun op f =>
    decide (op = .exch) || (decide (op = .add) && decide (f = .b32 ∨ f = .i32 ∨ f = .b64))
  let released : MemF → State → Nat → (Nat → Dword) → (Nat → Nat) → Prop := fun f s g _ loc =>
    s.releaseReady g (s.active g f.msel) (relOrd f.ord) f.scope false (ownTarget (lanesOf (s.active g f.msel)) loc) = true
  (∀ (op : AtomOp) (pl : Place) (f : MemF) (x : Src), f.mode ≠ .scratch →
    Machine.Issues (.atom op pl f x) (.atom op pl (srcDst f.data)) f 0 .both (dstNeeds (srcDst f.data) (fmtRegs f.fmt))
      [baseOpnd f.mode f.base, dataOpnd x f.fmt] [x] (free (fmtSize f.fmt) (hostOk op f.fmt)) (released f)
      fun s g a => ∀ L ∈ lanesOf (s.active g f.msel), a.dataOf L = s.bitsIn g (dataOpnd x f.fmt) L) ∧
  (∀ (f : MemF) (n : Src), f.mode ≠ .scratch →
    Machine.Issues (.atomcas f n) (.cas (srcDst f.data)) f 0 .both (dstNeeds (srcDst f.data) (fmtRegs f.fmt))
      [baseOpnd f.mode f.base, dataOpnd f.data f.fmt, dataOpnd n f.fmt] [n, f.data] (free (fmtSize f.fmt) true) (released f)
      fun s g a => ∀ L ∈ lanesOf (s.active g f.msel), a.dataOf L = s.bitsIn g (dataOpnd f.data f.fmt) L ∧
        a.data2Of L = s.bitsIn g (dataOpnd n f.fmt) L) ∧
  (∀ (op : AtomOp) (pl : Place) (f : MemF) (off : BitVec 12), f.mode ≠ .scratch →
    Machine.Issues (.red op pl f off) (.red op pl) f off .both [] [baseOpnd f.mode f.base, dataOpnd f.data f.fmt] [f.data]
      (free (fmtSize f.fmt) (hostOk op f.fmt)) (released f)
      fun s g a => ∀ L ∈ lanesOf (s.active g f.msel), a.dataOf L = s.bitsIn g (dataOpnd f.data f.fmt) L) ∧
  ∀ (f : MemF) (off : BitVec 12), f.mode ≠ .scratch →
    Machine.Issues (.cred f off) .cred f off .both [] [baseOpnd f.mode f.base, dataOpnd f.data f.fmt] [f.data]
      (fun s g va loc => isLocal loc = true ∧ s.belowFinal g va.toNat (fmtSize f.fmt) = false ∧
        ∃ r, s.commAt (s.jobOf g) va.toNat = some r ∧ r.fmt = f.fmt)
      (released f) fun s g a => ∀ L ∈ lanesOf (s.active g f.msel), a.dataOf L = s.bitsIn g (dataOpnd f.data f.fmt) L

/-- R24, R27, R160: with no lane active an access makes no address check and touches no memory; a load still sets its
destination's tags, unless no-write-back or a scalar destination leaves none to set. An `ld` with a misaligned active lane
takes the alignment fault, and one whose aligned addresses include one that is not canonical takes page-fatal, each with the
lowest such lane and its address; nothing is outstanding and no register has changed. -/
def Obligations.AccessesThatDoNotIssue : Prop :=
  (let tags : MemF → Nat → Bool := fun f n => !f.nw && dstNamesV (srcDst f.data) (fmtRegs f.fmt) n
   let dst : MemF → List Need := fun f => dstNeeds (srcDst f.data) (fmtRegs f.fmt)
   ∀ (f : MemF) (off : BitVec 12) (evict : BitVec 3) (grade : BitVec 2) (op : AtomOp) (pl : Place) (x : Src),
     let base := baseOpnd f.mode f.base
     let data := dataOpnd f.data f.fmt
     TouchesNothing (.ld f off evict grade) f.msel (dst f) [base] f.fmt [] (tags f) ∧
     TouchesNothing (.ldc f off evict) f.msel (dst f) [base] f.fmt [] (tags f) ∧
     TouchesNothing (.ldw f x evict grade) f.msel (dst f) [base, dataOpnd x f.fmt] f.fmt [] (tags f) ∧
     TouchesNothing (.lds f off) f.msel (dst f) [.int f.base] f.fmt [] (tags f) ∧
     TouchesNothing (.st f off evict grade) f.msel [] [base, data] f.fmt [f.data] (fun _ => false) ∧
     TouchesNothing (.sts f off) f.msel [] [.int f.base, data] f.fmt [f.data] (fun _ => false) ∧
     TouchesNothing (.atom op pl f x) f.msel (dst f) [base, dataOpnd x f.fmt] f.fmt [x] (tags f) ∧
     TouchesNothing (.atomcas f x) f.msel (dst f) [base, data, dataOpnd x f.fmt] f.fmt [x, f.data] (tags f) ∧
     TouchesNothing (.red op pl f off) f.msel [] [base, data] f.fmt [f.data] (fun _ => false) ∧
     TouchesNothing (.cred f off) f.msel [] [base, data] f.fmt [f.data] (fun _ => false)) ∧
  (∀ (f : MemF) (off : BitVec 12) (evict : BitVec 3) (grade : BitVec 2) (s : State) (g : Nat), s.issuer = .lane g →
     s.memOk g f.msel (dstNeeds (srcDst f.data) (fmtRegs f.fmt)) [baseOpnd f.mode f.base] f.fmt [] = true →
     f.mode ≠ .scratch →
     let lanes := lanesOf (s.active g f.msel)
     let bad : Nat → Prop := fun L => (s.addrOf g f off L).toNat % fmtSize f.fmt ≠ 0
     let far : Nat → Prop := fun L => canonical (s.addrOf g f off L) = false
     ∀ L ∈ lanes,
       (bad L → (∀ M ∈ lanes, M < L → ¬ bad M) →
         exec (.ld f off evict grade) s = .next (s.faultHere g (Flt.ofLane 0x08 L (s.addrOf g f off L)))) ∧
       ((∀ M ∈ lanes, ¬ bad M) → far L → (∀ M ∈ lanes, M < L → ¬ far M) →
         exec (.ld f off evict grade) s = .next (s.faultHere g (Flt.ofLane 0x1A L (s.addrOf g f off L)))))

/-- R162, R163, R166, R168 to R170: performing a load of one lane puts the bytes of its address in its destination's lane,
sets the tag and completes the token; memory and every other register stand. A `ldw` whose bytes still equal its
comparison operand goes on waiting. R155, R267 to R270, R355: a peer's memory is read as this device's is; a load in a commutative
range makes a combining read; one of a graded line waits below its least grade, takes the bytes with a copy of a final line, and else
leaves a subscription of its task, or, with the table full, waits for final; while a warm reset holds the Binder it waits (the
model's choice of log entry 87). R161, R165: the lanes of one `ld` each read their own bytes. -/
def Obligations.LoadsPerform : Prop :=
  (∀ (s : State) (g : Nat) (a : Acc) (L : Nat) (want : Dword), s.OneLane g a L → inMask want L = true →
    let loc := a.addrOf L
    let n := fmtSize a.fmt
    let v := Memory.read s.mem loc n
    (∀ d, a.op = .load d ∨ a.op = .loadConst d ∨ (a.op = .loadWait d ∧ v ≠ a.data2Of L % 256 ^ n) →
      ∃ t, exec (.accessCompletion g a.id want) s = .next t ∧ s.Finished t g a ∧ s.Placed t g d a.nw a.fmt L v ∧
        (∀ x, t.mem.byte x = s.mem.byte x) ∧ ∀ b x, (t.blk b).scratch.byte x = (s.blk b).scratch.byte x) ∧
    (∀ d, a.op = .loadWait d → v = a.data2Of L % 256 ^ n →
      ∃ t, exec (.accessCompletion g a.id want) s = .next t ∧ s.SameRegs t g ∧
        (t.grp g).out = (s.grp g).out.map (fun b => if b.id = a.id then { b with waiting := true } else b) ∧
        (∀ x, t.mem.byte x = s.mem.byte x)) ∧
    ∀ d, a.op = .sload d →
      ∃ t, exec (.accessCompletion g a.id want) s = .next t ∧ s.Finished t g a ∧
        s.Placed t g d a.nw a.fmt L (Memory.read (s.blk (locBlock loc)).scratch (locOff loc) n) ∧
        (∀ x, t.mem.byte x = s.mem.byte x) ∧ ∀ b x, (t.blk b).scratch.byte x = (s.blk b).scratch.byte x) ∧
  (∀ (s : State) (g : Nat) (a : Acc) (L : Nat) (want : Dword) (d : Dst), s.Due g a → L < 64 → a.act = 1#64 <<< L →
    inMask want L = true →
    let loc := a.addrOf L
    let n := fmtSize a.fmt
    let v := Memory.read s.mem loc n
    let core := s.coreOf g
    let runs : (State → Prop) → Prop := fun p => ∃ t, exec (.accessCompletion g a.id want) s = .next t ∧ p t
    let gives : Nat → State → Prop := fun v t => s.Finished t g a ∧ s.Placed t g d a.nw a.fmt L v
    let same : State → Prop := fun t => ∀ x, t.mem.byte x = s.mem.byte x
    (a.op = .load d ∨ a.op = .loadConst d ∨ (a.op = .loadWait d ∧ v ≠ a.data2Of L % 256 ^ n)) →
    (s.farLane g a L → runs fun t => gives v t ∧ same t) ∧
    (∀ r, a.op ≠ .loadWait d → isRemote loc = false → s.gradedAt (s.jobOf g) (a.vaOf L).toNat = none →
      s.commAt (s.jobOf g) (a.vaOf L).toNat = some r →
      let c := s.combiningRead r (lineOf loc)
      runs fun t => gives (Memory.read c.mem loc n) t ∧ ∀ x, t.mem.byte x = c.mem.byte x) ∧
    (isRemote loc = false → (s.gradedAt (s.jobOf g) (a.vaOf L).toNat).isSome = true →
      let line := lineOf loc
      let gr := s.lineGrade line
      let least : Grade := if s.grpTask g = none ∨ a.grade = 0 ∨ inMask a.finalOnly L = true then 3 else a.grade
      (gr.toNat < least.toNat → runs fun t => s.Waits t g a id) ∧
      (gr = 3 → runs fun t => gives v t ∧ same t ∧
        (a.evict ≠ 0 → a.acquires = false → ∃ l, Tbl.find (t.core core).l1 line = some l ∧ l.valid = BitVec.allOnes 32 ∧
          l.words = s.memLine line)) ∧
      ∀ k, s.grpTask g = some k → least.toNat ≤ gr.toNat → gr ≠ 3 →
        let there := ∃ y ∈ s.subs, y.task = k ∧ y.line = line ∧ y.chip = none
        let full := ¬ there ∧ 262144 ≤ s.subsOn (s.homeDie loc)
        (s.binderHeld = true → runs fun t => s.Waits t g a id) ∧
        (s.binderHeld = false → full → runs fun t =>
          s.Waits t g a fun b => { b with finalOnly := b.finalOnly ||| (1#64 <<< L) }) ∧
        (s.binderHeld = false → ¬ full → s.commAt k.job k.rec' = none → runs fun t => gives v t ∧
          (∃ y ∈ t.subs, y.task = k ∧ y.line = line ∧ y.chip = none ∧ y.grade = gr) ∧ (gr = 1 → t.tEff k = 1) ∧
          ∀ x, (x < s.place k.job k.rec' ∨ s.place k.job k.rec' + 128 ≤ x) → t.mem.byte x = s.mem.byte x))) ∧
  ∀ (s : State) (g : Nat) (a : Acc) (want : Dword) (d : Dst), s.Due g a → a.op = .load d →
    (∀ L ∈ lanesOf a.act, inMask want L = true ∧ s.plainLane g a L) →
    let k := match d with | .v k => k.toNat | .s k => k.toNat
    let word : Nat → Nat → Word := fun L n => BitVec.ofNat 32 (Memory.read s.mem (a.addrOf L) (fmtSize a.fmt) / 2 ^ (32 * (n - k)))
    ∃ t, exec (.accessCompletion g a.id want) s = .next t ∧ s.Finished t g a ∧ (∀ x, t.mem.byte x = s.mem.byte x) ∧
      (∀ n i, i < 64 → (t.vreg g n).lanes.at i =
        if a.nw = false ∧ inMask a.act i = true ∧ dstNamesV d (fmtRegs a.fmt) n = true then word i n
        else (s.vreg g n).lanes.at i) ∧
      (∀ n, (t.vreg g n).tag = if a.nw = false ∧ dstNamesV d (fmtRegs a.fmt) n = true then fmtTag a.fmt else (s.vreg g n).tag) ∧
      ∀ n, t.sreg g n = if a.nw = false ∧ dstNamesS d (fmtRegs a.fmt) n = true then word (lowestLane a.act) n else s.sreg g n

/-- R166, R168: performing a store of one lane writes exactly the bytes of its address and completes the token; an `sts`
writes exactly its bytes of the scratchpad it names. R161, R165: of several lanes of one `st`, the highest that writes a byte is
the one whose byte remains. -/
def Obligations.StoresPerform : Prop :=
  (∀ (s : State) (g : Nat) (a : Acc) (L : Nat) (want : Dword), s.OneLane g a L → inMask want L = true →
    let loc := a.addrOf L
    let n := fmtSize a.fmt
    (a.op = .store → ∃ t, exec (.accessCompletion g a.id want) s = .next t ∧ s.Finished t g a ∧ s.SameRegs t g ∧
      s.Stored t loc n (a.dataOf L)) ∧
    (a.op = .sstore → (Tbl.find s.blocks (locBlock loc)).isSome = true →
      ∃ t, exec (.accessCompletion g a.id want) s = .next t ∧ s.Finished t g a ∧ s.SameRegs t g ∧
        (∀ x, t.mem.byte x = s.mem.byte x) ∧
        (∀ b x, b ≠ locBlock loc ∨ x < locOff loc ∨ locOff loc + n ≤ x →
          (t.blk b).scratch.byte x = (s.blk b).scratch.byte x) ∧
        ∀ i, i < n → (t.blk (locBlock loc)).scratch.byte (locOff loc + i) = BitVec.ofNat 8 (a.dataOf L / 256 ^ i))) ∧
  ∀ (s : State) (g : Nat) (a : Acc) (want : Dword), s.Due g a → a.op = .store →
    (∀ L ∈ lanesOf a.act, inMask want L = true ∧ s.plainLane g a L) →
    ∃ t, exec (.accessCompletion g a.id want) s = .next t ∧ s.Finished t g a ∧ s.SameRegs t g ∧
      (∀ b x, (t.blk b).scratch.byte x = (s.blk b).scratch.byte x) ∧
      ∀ x, t.mem.byte x =
        match (lanesOf a.act).reverse.find? fun L => decide (a.addrOf L ≤ x) && decide (x < a.addrOf L + fmtSize a.fmt) with
        | some L => BitVec.ofNat 8 (a.dataOf L / 256 ^ (x - a.addrOf L))
        | none => s.mem.byte x

/-- R171 to R173: performing an atomic of one lane writes the new value that its table makes of the old one and gives back
the old one; `atomcas` writes only where the old bits equal the expected ones; `red` gives nothing back. The 64-bit operations
read both words as unsigned. R355: an atomic of a peer's memory acts there as here. -/
def Obligations.AtomicsPerform : Prop :=
  let new64 : AtomOp → Dword → Dword → Dword := fun op old a => match op with
    | .add => BitVec.ofNat 64 (old.toNat + a.toNat)
    | .min => if a.toNat < old.toNat then a else old
    | .max => if old.toNat < a.toNat then a else old
    | .and => bitsOf 64 fun i => old.getLsbD i && a.getLsbD i
    | .or => bitsOf 64 fun i => old.getLsbD i || a.getLsbD i
    | .xor => bitsOf 64 fun i => old.getLsbD i != a.getLsbD i
    | .exch => a
    | .incw => if a.toNat ≤ old.toNat then 0 else BitVec.ofNat 64 (old.toNat + 1)
  (∀ op f (old a : Nat), f ≠ .b64 → old < 2 ^ 32 → a < 2 ^ 32 →
    atomNew op f old a = (combined op f (BitVec.ofNat 32 old) (BitVec.ofNat 32 a)).toNat) ∧
  (∀ op (old a : Nat), old < 2 ^ 64 → a < 2 ^ 64 →
    atomNew op .b64 old a = (new64 op (BitVec.ofNat 64 old) (BitVec.ofNat 64 a)).toNat) ∧
  ∀ (s : State) (g : Nat) (a : Acc) (L : Nat) (want : Dword),
    s.OneLane g a L ∨ (s.Due g a ∧ L < 64 ∧ a.act = 1#64 <<< L ∧ s.farLane g a L) → inMask want L = true →
    let loc := a.addrOf L
    let n := fmtSize a.fmt
    let old := Memory.read s.mem loc n
    (∀ op pl d, a.op = .atom op pl d →
      ∃ t, exec (.accessCompletion g a.id want) s = .next t ∧ s.Finished t g a ∧ s.Placed t g d a.nw a.fmt L old ∧
        s.Stored t loc n (atomNew op a.fmt old (a.dataOf L))) ∧
    (∀ d, a.op = .cas d →
      ∃ t, exec (.accessCompletion g a.id want) s = .next t ∧ s.Finished t g a ∧ s.Placed t g d a.nw a.fmt L old ∧
        if old = a.dataOf L % 256 ^ n then s.Stored t loc n (a.data2Of L) else ∀ x, t.mem.byte x = s.mem.byte x) ∧
    ∀ op pl, a.op = .red op pl → isRemote loc = false →
      ∃ t, exec (.accessCompletion g a.id want) s = .next t ∧ s.Finished t g a ∧ s.SameRegs t g ∧
        s.Stored t loc n (atomNew op a.fmt old (a.dataOf L))

/-! ### Ranges, hints, fences and barriers -/

/-- R155, R175 to R177: `crdecl` puts a range in force and ends the registrations of its words; a base or length off its bounds
is alignment, and a range that is not all local HBM, that meets a graded or another commutative range, or that is the 65th,
commutative-store, with the base in FADDR. `crfree` leaves each element as the combining read makes it, with no partial, and
ends the range; the combining read combines each die's partials by ascending core, then the home's value with the dies' in
ascending order. A `crfree` of no range's base has no effect, but of a remote address it is commutative-store (R355); a `cred`
performed joins its core's partial. That a page which is missing or forbidden makes `crdecl` commutative-store as one that is not
local HBM does, and that `crdecl` holds while a write to the range is in flight, is the model's choice of log entry 35. R178 to
R180: `flushr` and `invr` are left outstanding with their range; `pref` changes no
visible state; `lease` sets the declared lease, at most 512, and the lease in force stands. -/
def Obligations.RangesAndHints : Prop :=
  ((∀ (op : AtomOp) (f : MFmt) (m : Word) (ps : Tbl Word), (ps.map fun p => p.1).Pairwise (· < ·) → (∀ p ∈ ps, p.1 < 256) →
     combineAll op f m ps = (List.range 4).foldl (fun r d =>
       match (List.range 64).filterMap fun i => Tbl.find ps (64 * d + i) with
       | [] => r
       | p :: t => combined op f r (t.foldl (combined op f) p)) m) ∧
   (∀ (op : AtomOp) (len base : BitVec 8) (fmt : MFmt) (msel : BitVec 3) (s : State) (g : Nat), s.Issues g →
     s.needsOk g (rangeNeeds len base msel) = true → s.active g msel ≠ 0 →
     let job := s.jobOf g
     let va := (s.spair g base.toNat).toNat
     let n := (s.sreg g len.toNat).toNat
     let meets : Nat → Nat → Prop := fun b k => va < b + k ∧ b < va + n
     let aligned := va % 128 = 0 ∧ 0 < n ∧ n % 128 = 0 ∧ n ≤ 2 ^ 30
     (¬ aligned →
       exec (.crdecl op len base fmt msel) s = .next (s.faultHere g (Flt.ofLane 0x08 64 (s.spair g base.toNat)))) ∧
     (aligned → (s.allLocal job va n = false ∨ 64 ≤ s.cranges.length ∨
         (∃ r ∈ s.granges, r.job = job ∧ meets r.va (128 * r.lines)) ∨ ∃ r ∈ s.cranges, r.job = job ∧ meets r.va r.len) →
       exec (.crdecl op len base fmt msel) s = .next (s.faultHere g (Flt.ofLane 0x14 64 (s.spair g base.toNat))))) ∧
   (∀ (op : AtomOp) (len base : BitVec 8) (fmt : MFmt) (msel : BitVec 3) (s : State) (g : Nat), s.Issues g →
     s.needsOk g (rangeNeeds len base msel) = true → s.active g msel ≠ 0 →
     let va := (s.spair g base.toNat).toNat
     let n := (s.sreg g len.toNat).toNat
     va % 128 = 0 → 0 < n → n % 128 = 0 → n ≤ 2 ^ 30 → s.crRefused (s.jobOf g) va n = false →
     let r : CRange := { job := s.jobOf g, va := va, len := n, op := op, fmt := fmt }
     (s.flying r AccOp.writes = true → ∃ t, exec (.crdecl op len base fmt msel) s = .next t ∧ s.Holds t g) ∧
     (s.flying r AccOp.writes = false → ∃ t, exec (.crdecl op len base fmt msel) s = .next t ∧
       t.cranges = s.cranges ++ [r] ∧
       (t.grp g).still = (s.grp g).still ∧ (s.grp g).WentOn (t.grp g) ∧ s.SameElsewhere t g ∧ s.SameRegs t g ∧
       ∀ c line, Tbl.find (t.core c).l1 line = (Tbl.find (s.core c).l1 line).map fun l =>
         if s.rangeLine (s.jobOf g) va n line then { l with reg := 0 } else l)) ∧
   (∀ (base : BitVec 8) (msel : BitVec 3) (s : State) (g : Nat), s.Issues g →
     s.needsOk g ([.s base.toNat, .s (base.toNat + 1)] ++ mselNeeds msel) = true → s.active g msel ≠ 0 →
     let found := s.cranges.find? fun r => r.job == s.jobOf g && r.va == (s.spair g base.toNat).toNat
     let va := s.spair g base.toNat
     let remote := (s.coreEntry (s.coreOf g) (s.jobOf g) va.toNat).any fun e => isRemote (e.loc va.toNat)
     (found = none → remote = false →
       ∃ t, exec (.crfree base msel) s = .next t ∧ s.Did t g (s.grp g)) ∧
     (found = none → remote = true →
       exec (.crfree base msel) s = .next (s.faultHere g (Flt.ofLane 0x14 64 va))) ∧
     (∀ r, found = some r → s.flying r (· == .cred) = true → ∃ t, exec (.crfree base msel) s = .next t ∧ s.Holds t g) ∧
     (∀ r, found = some r → s.flying r (· == .cred) = false →
       ∃ t, exec (.crfree base msel) s = .next t ∧ t.cranges = s.cranges.filter (fun x => x != r) ∧
         (t.grp g).still = (s.grp g).still ∧ (s.grp g).WentOn (t.grp g) ∧ s.SameRegs t g ∧
         (∀ i, s.rangeLine r.job r.va r.len (i / 32) = true → Tbl.find t.partials i = none) ∧
         (∀ i ps, Tbl.find s.partials i = some ps → s.rangeLine r.job r.va r.len (i / 32) = true →
           Memory.read t.mem (4 * i) 4 =
             (combineAll r.op r.fmt (BitVec.ofNat 32 (Memory.read s.mem (4 * i) 4)) ps).toNat) ∧
         ∀ a, (Tbl.find s.partials (a / 4) = none ∨ s.rangeLine r.job r.va r.len (a / 128) = false) →
           t.mem.byte a = s.mem.byte a)) ∧
   ∀ (s : State) (g : Nat) (a : Acc) (L : Nat) (want : Dword) (r : CRange), (Tbl.find s.groups g).isSome = true →
     (s.blockOf g).resident = true → s.jobRuns (s.jobOf g) = true →
     (s.grp g).out.find? (fun b => b.id == a.id) = some a → L < 64 → a.act = 1#64 <<< L → a.done = 0 →
     s.mayPerform g a L = true → inMask want L = true → s.gstores.all (fun x => !(x.gid == g && x.acc == a.id)) = true →
     a.got = [] → s.fabric.outward.all (fun p => p.kind != 3 || p.acc != a.id) = true →
     a.op = .cred → s.commAt (s.jobOf g) (a.vaOf L).toNat = some r →
     let core := s.coreOf g
     let old := (Tbl.find ((Tbl.find s.partials (a.addrOf L / 4)).getD []) core)
     let x := BitVec.ofNat 32 (a.dataOf L)
     ∃ t, exec (.accessCompletion g a.id want) s = .next t ∧ s.Finished t g a ∧ s.SameRegs t g ∧
       (∀ y, t.mem.byte y = s.mem.byte y) ∧
       Tbl.find ((Tbl.find t.partials (a.addrOf L / 4)).getD []) core =
         some (match old with | some p => combine32 r.op r.fmt p x | none => x)) ∧
  (let holds : BitVec 8 → BitVec 8 → Scope → State → Nat → Acc → Prop := fun len base scope s g a =>
     a.vaOf 0 = s.spair g base.toNat ∧ a.dataOf 0 = (s.sreg g len.toNat).toNat ∧ a.scope = scope
   (∀ len base scope tok msel, IssuesOp (.flushr len base scope tok msel) .flushr tok msel
     [.s base.toNat, .s (base.toNat + 1), .s len.toNat] (fun _ _ => True) (holds len base scope)) ∧
   (∀ len base scope tok msel, IssuesOp (.invr len base scope tok msel) .invr tok msel
     [.s base.toNat, .s (base.toNat + 1), .s len.toNat] (fun _ _ => True) (holds len base scope)) ∧
   (∀ (base : Src) (off : BitVec 12) (evict : BitVec 3) (fmt : MFmt) (msel : BitVec 3) (mode : Mode) (s : State) (g : Nat),
     s.Issues g → s.memOk g msel [] [baseOpnd mode base] fmt [] = true →
     ∃ t, exec (.pref base off evict fmt msel mode) s = .next t ∧ s.SameElsewhere t g ∧ s.SameRegs t g ∧
       (s.grp g).WentOn (t.grp g) ∧ { t.rest with spilled := [] } = { s.rest with spilled := [] } ∧
       { (t.grp g).kept with touched := [], hits := 0, misses := 0 } =
         { (s.grp g).kept with touched := [], hits := 0, misses := 0 }) ∧
   ∀ n msel, Leaves (.lease n msel) msel (SImm.needs n) (fun _ _ => True) fun s g =>
     { s.grp g with leaseNext := min (s.simm g n).toNat 512 })

/-- R191: a `fence` goes on once the accesses of its threads that it orders are performed, and an acquire wider than block then
invalidates the unregistered words of the core's L1; until then it holds its cluster. R192 to R194: an arrival waits for its
group's accesses and counts; the one that reaches the count completes the phase, flips the parity and completes every waiting
record; an arrival holds while its group's accesses are not all performed; `barwt` takes a completion, at a stook's barrier
with the invalidation of its acquire, or holds; `barsy` does both; `barq` reads; a count out of bounds or unlike the open one is
barrier-count. -/
def Obligations.FencesAndBarriers : Prop :=
  (∀ (ord : Ord) (scope : Scope) (msel : BitVec 3) (s : State) (g : Nat), s.Issues g →
     s.needsOk g (mselNeeds msel) = true → s.active g msel ≠ 0 →
     let release := ord = .rel ∨ ord = .ar
     let acquire := ord = .acq ∨ ord = .ar
     let far := scope = .job ∨ scope = .sys
     let wide := scope ≠ .thr ∧ scope ≠ .grp ∧ scope ≠ .blk
     let mine := ofLanes g (s.active g msel)
     let done : (AccOp → Bool) → Prop := fun p =>
       ∀ a ∈ s.accsOf g, p a.op = true → s.undone a &&& s.active g msel = 0
     let ready := done AccOp.reads ∧ (release → done AccOp.writes) ∧
       (release → far → s.unsentBy mine = [] ∧ s.unclosedBy (s.coreOf g) mine = [])
     (ready → ∃ t, exec (.fence ord scope msel) s = .next t ∧
       { (t.grp g).still with fenced := 0 } = { (s.grp g).still with fenced := 0 } ∧
       (t.grp g).fenced = (if acquire ∧ wide then (s.grp g).fenced ||| s.active g msel else (s.grp g).fenced) ∧
       (s.grp g).WentOn (t.grp g) ∧ s.SameElsewhere t g ∧ s.SameRegs t g ∧ t.rest = s.rest ∧
       (acquire ∧ wide → s.Invalidated t (s.coreOf g)) ∧ (¬ (acquire ∧ wide) → t.cores = s.cores)) ∧
     (¬ ready → ∃ t, exec (.fence ord scope msel) s = .next t ∧ s.Holds t g)) ∧
  (∀ (n : SImm) (bar : BitVec 5) (msel : BitVec 3) (s : State) (g : Nat), s.Issues g → s.active g msel ≠ 0 →
     let k := bar.toNat
     let b := (s.grp g).blk
     let x := s.bar b k
     let c := s.simm g n
     let rec' : State → Nat → Nat := fun s h => barRec (s.grp h).brec k
     let meets := (s.barBlocks b k).flatMap fun m => (s.blk m).gids
     let max : Int := if k < 16 then 65 else 256
     let there := (Tbl.find s.blocks b).isSome = true ∧ (16 ≤ k → (Tbl.find s.stooks (s.blk b).stook).isSome = true) ∧
       g ∈ meets
     let performed := ∀ a ∈ s.accsOf g, (a.op.reads || a.op.writes) = true → s.undone a = 0
     let fine := 1 ≤ c.toInt ∧ c.toInt ≤ max ∧ rec' s g ≠ 1 ∧ (x.n ≠ 0 → (x.n : Int) = c.toInt)
     let apart : State → Prop := fun t => (t.grp g).met = (s.grp g).met ∧ s.SameRegs t g ∧
       (∀ a, t.mem.byte a = s.mem.byte a) ∧ ∀ m a, (t.blk m).scratch.byte a = (s.blk m).scratch.byte a
     (s.needsOk g (SImm.needs n ++ mselNeeds msel) = true → there → performed → fine →
       (x.a + 1 ≠ c.toNat →
         ∃ t, exec (.barar n bar msel) s = .next t ∧ apart t ∧ (s.grp g).WentOn (t.grp g) ∧
           t.bar b k = { x with n := c.toNat, a := x.a + 1 } ∧ rec' t g = 1 ∧ ∀ h, h ≠ g → t.grp h = s.grp h) ∧
       (x.a + 1 = c.toNat →
         ∃ t, exec (.barar n bar msel) s = .next t ∧ apart t ∧ (s.grp g).WentOn (t.grp g) ∧
           t.bar b k = { n := 0, a := 0, p := !x.p } ∧ rec' t g = 2 ∧
           ∀ h, h ≠ g → rec' t h = if rec' s h = 1 ∧ h ∈ meets then 2 else rec' s h) ∧
       ((s.grp g).partDone = false → x.a + 1 = c.toNat →
         ∃ t, exec (.barsy n bar msel) s = .next t ∧ apart t ∧ (s.grp g).WentOn (t.grp g) ∧
           t.bar b k = { n := 0, a := 0, p := !x.p } ∧ rec' t g = 0 ∧
           (16 ≤ k → s.Invalidated t (s.coreOf g)) ∧
           ∀ h, h ≠ g → rec' t h = if rec' s h = 1 ∧ h ∈ meets then 2 else rec' s h) ∧
       ((s.grp g).partDone = false → x.a + 1 ≠ c.toNat →
         ∃ t, exec (.barsy n bar msel) s = .next t ∧ apart t ∧ (t.grp g).heldAt = true ∧ (t.grp g).partDone = true ∧
           (t.grp g).clause = (s.grp g).clause ∧ t.bar b k = { x with n := c.toNat, a := x.a + 1 } ∧ rec' t g = 1 ∧
           ∀ h, h ≠ g → t.grp h = s.grp h)) ∧
     (s.needsOk g (SImm.needs n ++ mselNeeds msel) = true → fine → ¬ performed → (s.grp g).partDone = false →
       (∃ t, exec (.barar n bar msel) s = .next t ∧ s.Holds t g) ∧ ∃ t, exec (.barsy n bar msel) s = .next t ∧ s.Holds t g) ∧
     (s.needsOk g (SImm.needs n ++ mselNeeds msel) = true → (s.grp g).partDone = true →
       (rec' s g = 1 → ∃ t, exec (.barsy n bar msel) s = .next t ∧ (t.grp g).heldAt = true ∧ (t.grp g).partDone = true ∧
         s.SameElsewhere t g ∧ t.rest = s.rest) ∧
       (rec' s g = 2 → ∃ t, exec (.barsy n bar msel) s = .next t ∧ apart t ∧ (s.grp g).WentOn (t.grp g) ∧ rec' t g = 0 ∧
         (16 ≤ k → s.Invalidated t (s.coreOf g)) ∧ (k < 16 → t.cores = s.cores))) ∧
     (s.needsOk g (SImm.needs n ++ mselNeeds msel) = true → ¬ fine →
       exec (.barar n bar msel) s = .next (s.faultHere g (Flt.bare 0x0C 0 64))) ∧
     (s.needsOk g (mselNeeds msel) = true →
       (rec' s g = 1 → ∃ t, exec (.barwt bar msel) s = .next t ∧ s.Holds t g) ∧
       (rec' s g = 2 → ∃ t, exec (.barwt bar msel) s = .next t ∧ apart t ∧ (s.grp g).WentOn (t.grp g) ∧ rec' t g = 0 ∧
         (∀ h, h ≠ g → t.grp h = s.grp h) ∧ (16 ≤ k → s.Invalidated t (s.coreOf g)) ∧ (k < 16 → t.cores = s.cores)) ∧
       (rec' s g = 0 → ∃ t, exec (.barwt bar msel) s = .next t ∧ s.Did t g (s.grp g))) ∧
     ∀ d : BitVec 8, s.needsOk g (.s d.toNat :: mselNeeds msel) = true →
       ∃ t, exec (.barq d bar msel) s = .next t ∧ s.Did t g ((s.grp g).setSreg d.toNat
         (BitVec.ofNat 32 ((if x.p then 2 ^ 31 else 0) + rec' s g * 2 ^ 29 + x.a * 2 ^ 9 + x.n))))

/-! ### The Reaper: records, copies, windows and slices -/

/-- R216: `rrec` of a record that is not cached is left outstanding with its location, and of a cached one leaves nothing
outstanding; performed, it caches the record's 64 bytes; `rfence` empties the cache once the group's earlier stores are
performed, and holds until then. -/
def Obligations.TensorRecords : Prop :=
  (∀ (x : RSel) (tok : BitVec 4) (msel : BitVec 3) (loc : Nat), IssuesOp (.rrec x tok msel) .rrec tok msel (rselNeeds x 2)
    (fun s g => s.Reaches g .read (s.rsel64 g x) 64 loc ∧ isRemote loc = false ∧
      s.cached (s.coreOf g) (s.jobOf g) (s.rsel64 g x).toNat = none)
    fun s g a => a.vaOf 0 = s.rsel64 g x ∧ a.addrOf 0 = loc) ∧
  (∀ (x : RSel) (tok : BitVec 4) (msel : BitVec 3) (loc : Nat) (e : RecEntry) (s : State) (g : Nat), s.Issues g →
    s.needsOk g (rselNeeds x 2 ++ mselNeeds msel) = true → s.active g msel ≠ 0 →
    s.Reaches g .read (s.rsel64 g x) 64 loc → s.cached (s.coreOf g) (s.jobOf g) (s.rsel64 g x).toNat = some e →
    ∃ t, exec (.rrec x tok msel) s = .next t ∧ (t.grp g).still = (s.grp g).still ∧ (s.grp g).WentOn (t.grp g) ∧
      s.SameElsewhere t g ∧ t.rest = s.rest ∧ (t.core (s.coreOf g)).rcache.head? = some e ∧
      ∀ c, { t.core c with rcache := [] } = { s.core c with rcache := [] }) ∧
  (∀ (s : State) (g : Nat) (a : Acc) (want : Dword), (Tbl.find s.groups g).isSome = true →
    (s.blockOf g).resident = true → s.jobRuns (s.jobOf g) = true →
    (s.grp g).out.find? (fun b => b.id == a.id) = some a → a.op = .rrec →
    a.st ≠ .abandoned → s.ownStoreAt g (some a.id) (a.addrOf 0) 64 = false → s.resetHolds g a = false →
    isRemote (a.addrOf 0) = false →
    s.commAt (s.jobOf g) (a.vaOf 0).toNat = none → (s.grp g).bfault = none →
    ∃ t e, exec (.accessCompletion g a.id want) s = .next t ∧ s.Finished t g a ∧ s.SameRegs t g ∧ t.mem = s.mem ∧
      (t.core (s.coreOf g)).rcache.head? = some e ∧ e.job = s.jobOf g ∧ e.va = (a.vaOf 0).toNat ∧
      e.bits = BitVec.ofNat 512 (Memory.read s.mem (a.addrOf 0) 64)) ∧
  ∀ (msel : BitVec 3) (s : State) (g : Nat), s.Issues g → s.needsOk g (mselNeeds msel) = true → s.active g msel ≠ 0 →
    let mine := ofLanes g (BitVec.allOnes 64)
    ((∀ a ∈ s.accsOf g, a.op.storeLike = false) → s.unsentBy mine = [] → s.unclosedBy (s.coreOf g) mine = [] →
      ∃ t, exec (.rfence msel) s = .next t ∧ (t.grp g).still = (s.grp g).still ∧ (s.grp g).WentOn (t.grp g) ∧
        s.SameElsewhere t g ∧ t.rest = s.rest ∧ (t.core (s.coreOf g)).rcache = [] ∧
        ∀ c, { t.core c with rcache := [] } = { s.core c with rcache := [] }) ∧
    ((∃ a ∈ s.accsOf g, a.op.storeLike = true ∧ a.id < s.nextId) ∨ s.unsentBy mine ≠ [] ∨
        s.unclosedBy (s.coreOf g) mine ≠ [] →
      ∃ t, exec (.rfence msel) s = .next t ∧ s.Holds t g)

/-- R146, R217 to R221: a bulk copy with a cached valid record, coordinates and an aligned scratchpad place goes into flight
with its token counted and, inwards, its lines absent; `rwait` holds while a copy it waits for is in flight. -/
def Obligations.BulkCopiesIssue : Prop :=
  let issues : (RSel → RSel → RSel → BitVec 4 → BitVec 3 → Instr) → Bool → Prop := fun i out =>
    ∀ (a b : RSel) (c : BitVec 8) (tok : BitVec 4) (msel : BitVec 3) (s : State) (g : Nat) (e : RecEntry), s.Issues g →
      s.needsOk g (rselNeeds a 2 ++ rselNeeds b 1 ++ [.s c.toNat] ++ mselNeeds msel) = true → s.active g msel ≠ 0 →
      let r := TRec.ofBits e.bits.toNat
      let d := s.rselAddr g b
      let n := r.esize * r.tileElems
      let loc := s.scratchAt (s.grp g).blk d
      let org := (List.range r.rank).map fun k => (s.sreg g (c.toNat + k)).toInt
      s.cached (s.coreOf g) (s.jobOf g) (s.rsel64 g a).toNat = some e → e.ok = true →
      c.toNat + r.rank ≤ (s.blockOf g).record.scalars → c.toNat + r.rank ≤ 256 →
      d.toNat % (if r.swz = 0 then r.esize else 128) = 0 → d.toNat < 2 ^ 26 →
      s.scratchBad (s.grp g).blk n 0 d = false → s.hasRoom g tok = true →
      (out = true → s.copyOutOk g r org = .ok () ∧ ∀ l ∈ r.lines (locOff loc), Tbl.find (s.blk (locBlock loc)).absent l = none) →
      ∃ t k, exec (i a b (.s c) tok msel) s = .next t ∧ t.copies = s.copies ++ [k] ∧
        k.id = s.nextId ∧ k.out = out ∧ k.gid = g ∧ k.slice = false ∧ k.record = r ∧ k.org = org ∧ k.blk = locBlock loc ∧
        k.off = locOff loc ∧ k.tok = tok ∧ k.lines = r.lines (locOff loc) ∧ t.nextId = s.nextId + 1 ∧
        (∀ m, (t.grp g).token m = (s.grp g).token m + if m ≠ 0 ∧ m = tok.toNat then 1 else 0) ∧
        { (t.grp g).still with tokens := [] } = { (s.grp g).still with tokens := [] } ∧ (s.grp g).WentOn (t.grp g) ∧
        s.SameElsewhere t g ∧ s.SameRegs t g ∧
        (out = false → (Tbl.find s.blocks (locBlock loc)).isSome = true →
          ∀ l ∈ r.lines (locOff loc), Tbl.find (t.blk (locBlock loc)).absent l = some k.id)
  issues .rcopy false ∧ issues .rcopyo true ∧
  ∀ (sl : Bool) (msel : BitVec 3) (s : State) (g : Nat), s.Issues g → s.needsOk g (mselNeeds msel) = true →
    s.active g msel ≠ 0 →
    ((∀ c ∈ s.copies, c.gid = g → sl = false ∧ c.slice = true) →
      ∃ t, exec (.rwait sl msel) s = .next t ∧ s.Did t g (s.grp g)) ∧
    (∀ c ∈ s.copies, c.gid = g → (sl = true ∨ c.slice = false) → ∃ t, exec (.rwait sl msel) s = .next t ∧ s.Holds t g)

/-- R146, R218 to R220: the arrival of an inward copy's line from local memory puts each of its elements in the scratchpad,
pad where an element is out of range, and memory stands. R224, R225, R227: the oldest reserved entry of a window becomes
complete with its 64 lanes' words, read from the scratchpad where the entry says so; every other entry stands. From
global memory of this device outside every graded and commutative range each lane's word is what memory holds there, unless the
core's L1 keeps an older copy of it, and no byte of memory or of a scratchpad changes. -/
def Obligations.CopiesAndWindowsComplete : Prop :=
  (∀ (s : State) (c : Copy) (line : Nat), s.copies.find? (fun x => x.id == c.id) = some c → c.out = false →
     c.lines.contains line = true → s.olderTouch c line = false → s.olderCopy c line = false →
     (s.blockOf c.gid).resident = true → s.jobRuns (s.jobOf c.gid) = true → s.copyFaulted c.id = false → s.storesDone c.gid c.id = true →
     (Tbl.find s.blocks c.blk).isSome = true →
     let job := s.jobOf c.gid
     let es := c.record.lineElems c.off line
     let n := c.record.esize
     ∀ p : Pte, p.r = true →
     (∀ e ∈ es, ∀ va, c.record.elemAt c.org e.2 = some va → s.pageEntry job va = some p ∧
       (∀ q ∈ (s.core (s.coreOf c.gid)).walkTlb, q.covers job va = true → q = p) ∧ isLocal (p.loc va) = true ∧
       s.heldByReset (dieOf (s.coreOf c.gid)) (p.loc va) = false ∧ s.gradedAt job va = none ∧ s.commAt job va = none ∧
       s.poison.contains (lineOf (p.loc va)) = false) →
     let value : Nat × Nat → Nat := fun e => match c.record.elemAt c.org e.2 with
       | none => c.record.pad.toNat % 256 ^ n
       | some va => Memory.read s.mem (p.loc va) n
     ∃ t, exec (.copyDataArrival c.id line) s = .next t ∧
       (t.blk c.blk).scratch = es.foldl (fun m e => Memory.write m e.1 n (value e)) (s.blk c.blk).scratch ∧
       (∀ b, b ≠ c.blk → (t.blk b).scratch = (s.blk b).scratch) ∧ t.mem = s.mem ∧
       (∀ x ∈ t.copies, x.id = c.id → x.lines.contains line = false) ∧ Tbl.find (t.blk c.blk).absent line ≠ some c.id) ∧
  (∀ (s : State) (g : Nat) (q : BitVec 3) (pre post : List QEntry) (e : QEntry),
     (Tbl.find s.groups g).isSome = true → (s.blockOf g).resident = true → s.jobRuns (s.jobOf g) = true →
     s.qputFaulted g = false →
     (s.grp g).queue q.toNat = pre ++ e :: post → (∀ x ∈ pre, x.full = true) → e.full = false →
     let read : Nat → Word := fun L =>
       let loc := s.scratchAt (s.grp g).blk (e.addr L)
       BitVec.ofNat 32 (Memory.read (s.blk (locBlock loc)).scratch (locOff loc) 4)
     (e.sp = true → (∀ L, L < 64 → s.absentAt (s.scratchAt (s.grp g).blk (e.addr L)) 4 = false) →
       ∃ t, exec (.qputEntryComplete g q) s = .next t ∧
         (t.grp g).queue q.toNat = pre ++ { e with full := true, lanes := Lanes.make read } :: post ∧
         { t with groups := [] } = { s with groups := [] } ∧ (∀ h, h ≠ g → t.grp h = s.grp h) ∧
         { t.grp g with queues := [] } = { s.grp g with queues := [] }) ∧
     (e.sp = false → (∀ L, L < 64 → ∃ loc, s.walkAhead (s.coreOf g) (s.jobOf g) (e.addr L).toNat .read = .ok loc ∧
         isLocal loc = true ∧ s.heldByReset (dieOf (s.coreOf g)) loc = false ∧
         s.gradedAt (s.jobOf g) (e.addr L).toNat = none) →
       ∃ t lanes, exec (.qputEntryComplete g q) s = .next t ∧
         (t.grp g).queue q.toNat = pre ++ { e with full := true, lanes := lanes } :: post ∧ lanes.length = 64 ∧
         (∀ b a, (t.blk b).scratch.byte a = (s.blk b).scratch.byte a) ∧
         ((∀ L, L < 64 → s.commAt (s.jobOf g) (e.addr L).toNat = none) →
           (∀ a, t.mem.byte a = s.mem.byte a) ∧
           ∀ loc : Nat → Nat,
             (∀ L, L < 64 → s.walkAhead (s.coreOf g) (s.jobOf g) (e.addr L).toNat .read = .ok (loc L) ∧ loc L % 4 = 0 ∧
               ∀ v, s.l1Read (s.coreOf g) (loc L) 4 = some v → v = Memory.read s.mem (loc L) 4) →
             ∀ L, L < 64 → lanes.at L = BitVec.ofNat 32 (Memory.read s.mem (loc L) 4))))

/-- R225, R226: queue and slice control act on the group alone: windows empty, `qstat` reports, and the slice ends, pauses or
goes on. -/
def Obligations.WindowAndSliceControl : Prop :=
  let code : SliceSt → Nat := fun
    | .none => 0
    | .running => 1
    | .paused => 2
    | .ended => 3
  let full : Group → Nat → Nat := fun x n => (x.queue n).countP fun e => e.full
  let ok : State → Nat → Prop := fun _ _ => True
  let empties : Instr → BitVec 3 → List Need → (Nat → Prop) → Prop := fun i msel ns gone =>
    ∀ (s : State) (g : Nat), s.Issues g → s.needsOk g (ns ++ mselNeeds msel) = true → s.active g msel ≠ 0 →
      ∃ t, exec i s = .next t ∧ (∀ q, (gone q → (t.grp g).queue q = []) ∧ (¬ gone q → (t.grp g).queue q = (s.grp g).queue q)) ∧
        { (t.grp g).still with queues := [], heads := [] } = { (s.grp g).still with queues := [], heads := [] } ∧
        (s.grp g).WentOn (t.grp g) ∧ s.SameElsewhere t g ∧ t.rest = s.rest ∧ t.cores = s.cores
  (∀ (n : BitVec 3) msel, empties (.qdrop n msel) msel [.q n.toNat] (· = n.toNat)) ∧
  (∀ msel, empties (.qdropAll msel) msel [] (· < 8)) ∧
  (∀ d msel, Leaves (.qstat false d msel) msel [.s d.toNat] ok fun s g => (s.grp g).setSreg d.toNat
    (BitVec.ofNat 32 (full (s.grp g) 0 + full (s.grp g) 1 * 16 + full (s.grp g) 2 * 16 ^ 2 + full (s.grp g) 3 * 16 ^ 3 +
      full (s.grp g) 4 * 16 ^ 4 + full (s.grp g) 5 * 16 ^ 5 + full (s.grp g) 6 * 16 ^ 6 + full (s.grp g) 7 * 16 ^ 7))) ∧
  (∀ d msel, Leaves (.qstat true d msel) msel [.s d.toNat] ok fun s g => (s.grp g).setSreg d.toNat
    (BitVec.ofNat 32 (code (s.grp g).slice.st + if (s.grp g).slice.faulted then 4 else 0))) ∧
  (∀ msel, Leaves (.slctlStop msel) msel [] (fun s g => (s.grp g).slice.st ≠ .none) fun s g => { s.grp g with
    slice := { (s.grp g).slice with st := .ended, held := false, clause := none },
    queues := (s.grp g).queues.map fun q => (q.1, q.2.filter fun e => e.full) }) ∧
  (∀ msel, Leaves (.slctlPause msel) msel [] (fun s g => (s.grp g).slice.st = .running) fun s g =>
    { s.grp g with slice := { (s.grp g).slice with st := .paused } }) ∧
  (∀ msel, Leaves (.slctlResume msel) msel [] (fun s g => (s.grp g).slice.st = .paused) fun s g =>
    { s.grp g with slice := { (s.grp g).slice with st := .running } }) ∧
  ∀ msel, Leaves (.slctlStop msel) msel [] (fun s g => (s.grp g).slice.st = .none) (fun s g => s.grp g) ∧
    Leaves (.slctlPause msel) msel [] (fun s g => (s.grp g).slice.st ≠ .running) (fun s g => s.grp g) ∧
    Leaves (.slctlResume msel) msel [] (fun s g => (s.grp g).slice.st ≠ .paused) fun s g => s.grp g

/-- R38, R222 to R224: the instructions of a slice: 64-bit sums and products, counted loops, a reserved window entry, and the
end; in a lane clause they are illegal-instruction. -/
def Obligations.SliceInstructions : Prop :=
  let always : State → Nat → Slice → Prop := fun _ _ _ => True
  let sum : BitVec 5 → (State → Nat → Dword) → State → Nat → Slice → Slice → Prop := fun d v s g x y =>
    y.x d.toNat = v s g ∧ (∀ n, n ≠ d.toNat → y.x n = x.x n) ∧ PastWord x.clause x.pc y.clause y.pc ∧ y.loops = x.loops ∧
      y.st = x.st ∧ y.faulted = x.faulted ∧ y.skip = x.skip
  (∀ d a b, SliceDoes (.xadd d a b) always (sum d fun s g =>
    BitVec.ofNat 64 ((s.rsel64 g a).toNat + (s.rsel64 g b).toNat))) ∧
  (∀ d a b, SliceDoes (.xmul d a b) always (sum d fun s g =>
    BitVec.ofNat 64 ((s.rsel64 g a).toNat * (s.rsel64 g b).toNat))) ∧
  (∀ a : BitVec 5, SliceDoes (.xloop a) (fun _ _ x => x.atLast = true ∧ x.loops.length < 5)
    fun _ _ x y => PastWord x.clause x.pc y.clause y.pc ∧ y.xs = x.xs ∧ y.st = x.st ∧
      (x.x a.toNat = 0 → y.skip = 1 ∧ y.loops = x.loops) ∧
      (x.x a.toNat ≠ 0 → y.skip = x.skip ∧ y.loops = (x.x a.toNat, y.pc) :: x.loops)) ∧
  (SliceDoes .xnext (fun _ _ x => x.atLast = true ∧ x.loops ≠ []) fun _ _ x y => y.xs = x.xs ∧ y.st = x.st ∧
    y.skip = x.skip ∧ ∀ n head t, x.loops = (n, head) :: t →
      (n = 1 → y.loops = t ∧ PastWord x.clause x.pc y.clause y.pc) ∧
      (n ≠ 1 → y.loops = (n - 1, head) :: t ∧ y.clause = none ∧ y.pc = head)) ∧
  (SliceDoes .xend always fun _ _ x y => y = { x with st := .ended, held := false, clause := none }) ∧
  (∀ (fmt : MFmt) (sp : Bool) (n : BitVec 3) (a : BitVec 5) (b : RSel) (s : State) (g : Nat), s.issuer = .slice g →
    (Tbl.find s.groups g).isSome = true → n.toNat < (s.blockOf g).record.qn →
    ((s.grp g).queue n.toNat).length < (s.blockOf g).record.qdepth →
    let base := (s.grp g).slice.x a.toNat
    let stride := s.rsel64 g b
    let addr : Nat → Dword := fun L => BitVec.ofNat 64 (base.toNat + L * stride.toNat)
    (∀ L, L < 64 → (addr L).toNat % 4 = 0 ∧ if sp then s.scratchBad (s.grp g).blk 4 0 (addr L) = false
      else canonical (addr L) = true) →
    ∃ t e, exec (.qput fmt sp n a b) s = .next t ∧ (t.grp g).queue n.toNat = (s.grp g).queue n.toNat ++ [e] ∧
      e.full = false ∧ e.tag = fmtTag fmt ∧ e.fmt = fmt ∧ e.sp = sp ∧ e.base = base ∧ e.stride = stride ∧
      (∀ q, q ≠ n.toNat → (t.grp g).queue q = (s.grp g).queue q) ∧
      PastWord (s.grp g).slice.clause (s.grp g).slice.pc (t.grp g).slice.clause (t.grp g).slice.pc ∧
      { t.grp g with queues := [], slice := Slice.absent } = { s.grp g with queues := [], slice := Slice.absent } ∧
      { t with groups := [] } = { s with groups := [] } ∧ ∀ h, h ≠ g → t.grp h = s.grp h) ∧
  ∀ (i : Instr) (d x : BitVec 5) (a b : RSel) (n : BitVec 3),
    i ∈ [Instr.xadd d a b, .xmul d a b, .xloop x, .xnext, .xend, .qput .b32 false n x b] →
    ∀ (s : State) (g : Nat), s.issuer = .lane g → exec i s = .next (s.faultHere g (Flt.bare 0x02 0 64))

/-! ### The Thresher -/

/-- R229 to R231, R242, R248 to R250: `thres` reserves a free Thresher, which then runs from the pair's address with k0 to
k31 from s32 to s63, and says whether it did; `threl` frees it; `orf` waits for the group's scratchpad writes and inward copies; a
group whose block does not hold the Thresher takes the thresher fault on the last two. That `threl` completes at once, whatever the
stream is doing (R249 holds it for the stream's issued work), is the model's choice of log entry 39: each stream instruction takes
effect whole as it issues. -/
def Obligations.ThresherReservation : Prop :=
  (∀ (d a : BitVec 8) (msel : BitVec 3) (s : State) (g : Nat), s.Issues g →
    s.needsOk g ([.s d.toNat, .s a.toNat, .s (a.toNat + 1)] ++ mselNeeds msel) = true → s.active g msel ≠ 0 →
    let r := (s.blockOf g).record
    let pc := s.spair g a.toNat
    let c := s.coreOf g
    let done : State → Word → Prop := fun t w => (t.grp g).still = ((s.grp g).setSreg d.toNat w).still ∧
      (s.grp g).WentOn (t.grp g) ∧ s.SameElsewhere t g ∧ t.rest = s.rest
    r.thr = true → pc.toNat % 8 = 0 → canonical pc = true → r.entry.toNat ≤ pc.toNat → pc.toNat < r.entry.toNat + r.csize →
    (s.thrHolder g = none → ∃ t y, exec (.thres d a msel) s = .next t ∧ done t 1 ∧
      t.cores = (s.setCore c { s.core c with thr := y }).cores ∧ y.holder = some (s.grp g).blk ∧ y.st = .running ∧
      y.pc = pc ∧ y.clause = none ∧ (∀ n, n < 32 → y.k n = s.sreg g (32 + n)) ∧ y.tiles = [] ∧ y.sets = [] ∧
      y.csets = []) ∧
    (s.thrHolder g = some (s.grp g).blk → ∃ t, exec (.thres d a msel) s = .next t ∧ done t 2 ∧ t.cores = s.cores) ∧
    (∀ b, s.thrHolder g = some b → b ≠ (s.grp g).blk →
      ∃ t, exec (.thres d a msel) s = .next t ∧ done t 0 ∧ t.cores = s.cores)) ∧
  ∀ (msel : BitVec 3) (s : State) (g : Nat), s.Issues g → s.needsOk g (mselNeeds msel) = true → s.active g msel ≠ 0 →
    (s.thrHolder g ≠ some (s.grp g).blk →
      exec (.threl msel) s = .next (s.faultHere g (Flt.bare 0x12 0 64)) ∧
      exec (.orf msel) s = .next (s.faultHere g (Flt.bare 0x12 0 64))) ∧
    (s.thrHolder g = some (s.grp g).blk →
      (∃ t, exec (.threl msel) s = .next t ∧ (t.grp g).still = (s.grp g).still ∧ (s.grp g).WentOn (t.grp g) ∧
        s.SameElsewhere t g ∧ t.rest = s.rest ∧
        t.cores = (s.setCore (s.coreOf g) { s.core (s.coreOf g) with thr := Thresher.free }).cores) ∧
      ((∀ x ∈ s.accsOf g, x.op ≠ .sstore) → (∀ c ∈ s.copies, c.gid = g → c.out = true ∨ c.lines = []) →
        ∃ t, exec (.orf msel) s = .next t ∧ s.Did t g { s.grp g with orfReady := true }) ∧
      (∀ x ∈ (s.grp g).out, x.op = .sstore → ∃ t, exec (.orf msel) s = .next t ∧ s.Holds t g) ∧
      ∀ c ∈ s.copies, c.gid = g → c.out = false → c.lines ≠ [] → ∃ t, exec (.orf msel) s = .next t ∧ s.Holds t g)

/-- R235, R238: the exponent of an entry is the least at which its value, once rounded, lies in 28 bits. What one output
becomes: a poisoned entry gives the canonical NaN, infinities their sum, and otherwise the entries' sum times the scale and
the set's power of two, rounded and added. -/
def Obligations.EntryExponentsAndOutputs : Prop :=
  (∀ x : Rat2, x.num ≠ 0 → 0 < x.den →
     (-(2 ^ 27) ≤ roundFix x (leastExp x) ∧ roundFix x (leastExp x) ≤ 2 ^ 27 - 1) ∧
     ∀ e : Int, e < leastExp x → roundFix x e < -(2 ^ 27) ∨ 2 ^ 27 - 1 < roundFix x e) ∧
  (∀ (acc : Word) (es : List Word) (e : Int) (scale : Byte),
     (∀ w ∈ es, w.getLsbD 30 = true → tmacOut acc es e scale = 0x7FC00000#32) ∧
     ((∀ w ∈ es, w.getLsbD 30 = false) → ∀ neg : Bool, (∃ w ∈ es, w.getLsbD 29 = true) →
       (∀ w ∈ es, w.getLsbD 29 = true → w.getLsbD 28 = neg) →
       tmacOut acc es e scale = f32Add .rn acc (if neg then 0xFF800000#32 else 0x7F800000#32)) ∧
     ((∀ w ∈ es, w.getLsbD 30 = false) → ∀ v ∈ es, ∀ w ∈ es, v.getLsbD 29 = true → w.getLsbD 29 = true →
       v.getLsbD 28 ≠ w.getLsbD 28 → tmacOut acc es e scale = 0x7FC00000#32) ∧
     ((∀ w ∈ es, w.getLsbD 30 = false ∧ w.getLsbD 29 = false) →
       let sum : Int := es.foldl (fun x w => x + (w.extractLsb' 0 28).toInt) 0
       let k := s8Value scale
       tmacOut acc es e scale = f32Add .rn acc (BitVec.ofNat 32 (BFmt.f32.round .rn (decide (sum < 0))
         (sum.natAbs * k.1 * 2 ^ e.toNat) (k.2 * 2 ^ (-e).toNat)))))

/-- R234 to R237, R240, R253, R254, R258: `tbuild` makes a set of tables with one exponent and ends the older sets it
overlaps. The entry of a code is, by the first case that applies, poisoned (by an activation or code value with no real value,
or an infinite code at an activation of 0), invalid, infinite with the product's sign, or the exact sum of the products of the
group's activations with the values of the code's sub-codes; the exponent is the greatest that a non-zero finite entry needs, and
0 with none; the entry's word holds what R235's table says; `tcode` loads a code set and makes the sets built from its number
stale; `tinv` makes sets stale. -/
def Obligations.TablesAndCodes : Prop :=
  let view : State → Nat → Memory := fun s c => (s.streamView (s.thrBlk c)).1
  let real : Rat2 → Rat := fun x => (x.num : Rat) / (x.den : Rat)
  ((∀ (acts : List (Option Rat2)) (vals : List CodeVal),
     let poisoned := none ∈ acts ∨ CodeVal.special ∈ vals ∨
       ∃ (a : Rat2) (neg : Bool), (some a, CodeVal.inf neg) ∈ acts.zip vals ∧ a.num = 0
     (poisoned → entryOf acts vals = .poison (decide (CodeVal.invalid ∈ vals))) ∧
     (¬ poisoned → CodeVal.invalid ∈ vals → entryOf acts vals = .invalid) ∧
     (¬ poisoned → CodeVal.invalid ∉ vals →
       (∀ (a : Rat2) (neg : Bool), acts = [some a] → vals = [.inf neg] → entryOf acts vals = .inf (neg != decide (a.num < 0))) ∧
       ((∀ neg, CodeVal.inf neg ∉ vals) → (∀ a, some a ∈ acts → 0 < a.den) → (∀ x, CodeVal.fin x ∈ vals → 0 < x.den) →
         ∃ v, entryOf acts vals = .fin v ∧ 0 < v.den ∧
           real v = ((acts.zip vals).map fun p => match p with
             | (some a, .fin x) => real a * real x
             | _ => 0).sum))) ∧
   (∀ (z : Shape) (v : Memory) (cs : CodeSet) (m i c : Nat), c < 256 → (z.entries v cs m i)[c]? = some (entryOf
     ((List.range z.g).map fun k => z.activation v m (z.g * i + k))
     ((List.range z.g).map fun k =>
       let sub := c / 2 ^ (k * (8 / z.g)) % 2 ^ (8 / z.g)
       if z.lg = 0 then d8Code z.inf sub else setCode cs sub))) ∧
   (∀ inf : Bool, d8Code inf 0x80 = .invalid ∧ d8Code inf 0x40 = (if inf then .inf false else .invalid) ∧
     d8Code inf 0xC0 = (if inf then .inf true else .invalid) ∧
     ∀ (c : Nat) (neg : Bool) (x y : Nat), d8Value (BitVec.ofNat 8 c) = .fin neg x y →
       d8Code inf c = .fin { num := if neg then -(x : Int) else x, den := y }) ∧
   (∀ (cs : CodeSet) (c : Nat), (cs.count ≤ c → setCode cs c = .invalid) ∧
     (c < cs.count → match BFmt.bf16.value (cs.vals.getD c 0).toNat with
       | .nan => setCode cs c = .special
       | .inf _ => setCode cs c = .special
       | .fin n m e => ∃ v, setCode cs c = .fin v ∧ 0 < v.den ∧
           real v = (if n then -1 else 1) * (m : Rat) * 2 ^ e.toNat / 2 ^ (-e).toNat)) ∧
   (∀ es : List Entry, ((∀ v, Entry.fin v ∈ es → v.num = 0) → setExp es = 0) ∧
     ∀ v, Entry.fin v ∈ es → v.num ≠ 0 →
       leastExp v ≤ setExp es ∧ ∃ w, Entry.fin w ∈ es ∧ w.num ≠ 0 ∧ setExp es = leastExp w) ∧
   ∀ e : Int, entryWord e .invalid = 0x80000000#32 ∧
     (∀ bad : Bool, entryWord e (.poison bad) = if bad then 0xC0000000#32 else 0x40000000#32) ∧
     (∀ neg : Bool, entryWord e (.inf neg) = if neg then 0x30000000#32 else 0x20000000#32) ∧
     ∀ v, ((entryWord e (.fin v)).toNat : Int) = roundFix v e % 2 ^ 28) ∧
  (∀ (lg : BitVec 2) (lm : BitVec 3) (d8 inf : Bool) (n : BitVec 3) (a b p : KSel),
    let shape : State → Nat → Shape := fun s c => {
      lg := lg.toNat, lm := lm.toNat, d8 := d8, inf := inf,
      cset := n.toNat, slot := (s.kval c a).toNat, base := (s.kval c b).toNat, pitch := (s.kval c p).toNat }
    StreamDoes (.tbuild lg lm d8 inf n a b p)
      (fun s c _ => (shape s c).slot < 512 ∧ (shape s c).slot % (shape s c).slots = 0 ∧ (shape s c).aligned = true ∧
        s.StreamReaches c (shape s c).pieces)
      fun s c x y =>
        let z := shape s c
        let cs := (Tbl.find x.csets n.toNat).getD CodeSet.zero
        let table : Nat → List Entry := fun i => z.entries (view s c) cs (i / z.tables) (i % z.tables)
        let e := setExp ((List.range z.slots).flatMap table)
        x.WentOn y [a, b] ∧ y.tiles = x.tiles ∧ y.csets = x.csets ∧
        (∃ r, Tbl.find y.sets z.slot = some r ∧ r.e = e ∧ r.lg = z.lg ∧ r.lm = z.lm ∧ r.slot = z.slot ∧ r.d8 = d8 ∧
          r.inf = inf ∧ r.len = z.len ∧ r.base = z.base % 2 ^ 26 ∧ r.cset = (if lg = 0 then 0 else n.toNat) ∧
          ((s.blk (s.thrBlk c)).late = [] → r.valid = true)) ∧
        (∀ k, k ≠ z.slot → Tbl.find y.sets k = (Tbl.find (x.sets.filter fun q => !(q.2.overlaps z.slot z.slots)) k)) ∧
        (∀ i, i < z.slots → Tbl.find y.slots (z.slot + i) = some ((table i).map (entryWord e))) ∧
        ∀ k, (k < z.slot ∨ z.slot + z.slots ≤ k) → Tbl.find y.slots k = Tbl.find x.slots k) ∧
  (∀ (w : BitVec 2) (n : BitVec 3) (a b : KSel),
    let addr : State → Nat → Nat := fun s c => (s.kval c a).toNat
    let k : Nat := 2 ^ 2 ^ w.toNat
    StreamDoes (.tcode w n a b) (fun s c _ => addr s c % 2 = 0 ∧ s.StreamReaches c [(addr s c, 2 * k)]) fun s c x y =>
      x.WentOn y [a] ∧ y.tiles = x.tiles ∧ y.slots = x.slots ∧
      (∃ cs, Tbl.find y.csets n.toNat = some cs ∧ cs.count = min (s.kval c b).toNat k ∧
        ∀ i, i < 16 → cs.vals.getD i 0 =
          if i < k then BitVec.ofNat 16 (Memory.read (view s c) (addr s c % 2 ^ 24 + 2 * i) 2) else 0) ∧
      (∀ m, m ≠ n.toNat → Tbl.find y.csets m = Tbl.find x.csets m) ∧
      ∀ m, Tbl.find y.sets m = (Tbl.find x.sets m).map fun r =>
        if r.cset = n.toNat ∧ r.lg ≠ 0 then { r with valid := false } else r) ∧
  (∀ a : KSel, StreamDoes (.tinv a) (fun s c _ => (s.kval c a).toNat < 512) fun s c x y =>
    x.WentOn y [a] ∧ y.tiles = x.tiles ∧ y.slots = x.slots ∧ y.csets = x.csets ∧
    ∀ m, Tbl.find y.sets m = (Tbl.find x.sets m).map fun r =>
      if m = (s.kval c a).toNat then { r with valid := false } else r) ∧
  StreamDoes .tinvAll (fun _ _ _ => True) fun _ _ x y =>
    x.WentOn y [] ∧ y.tiles = x.tiles ∧ y.slots = x.slots ∧ y.csets = x.csets ∧
    ∀ m, Tbl.find y.sets m = (Tbl.find x.sets m).map fun r => { r with valid := false }

/-- R238, R239, R241, R255, R256: `tmac` adds to every output of the step the sum of the entries it looks up, scaled, through
a valid set of the shape it names; a stale or missing set is stale-set and a lookup of an invalid entry is index; `taclr`
clears a tile and `tald` loads one. -/
def Obligations.TileArithmetic : Prop :=
  let view : State → Nat → Memory := fun s c => (s.streamView (s.thrBlk c)).1
  let clear : Thresher → Thresher → Prop := fun x y =>
    y.csets = x.csets ∧ y.sets = x.sets ∧ y.slots = x.slots
  (∀ (rb : Bool) (lg : BitVec 2) (lm : BitVec 3) (n : BitVec 2) (t : BitVec 4) (a b sc : KSel),
    let tables := 16 / 2 ^ lg.toNat
    let cols := 64 * 2 ^ n.toNat
    let reach : State → Nat → Prop := fun s c =>
      s.StreamReaches c [((s.kval c b).toNat, cols * tables), ((s.kval c sc).toNat, cols)]
    let look : State → Nat → Nat → Nat → List Word := fun s c m k =>
      lookups (s.thr c) (view s c) (s.kval c a).toNat tables ((s.kval c b).toNat % 2 ^ 24) m k
    let fits : State → Nat → SetRec → Prop := fun s c r => Tbl.find (s.thr c).sets (s.kval c a).toNat = some r ∧
      r.lg = lg.toNat ∧ r.lm = lm.toNat
    let bad : State → Nat → Prop := fun s c => ∃ m k, m < 2 ^ lm.toNat ∧ k < cols ∧ badLookup (look s c m k) = true
    lm.toNat ≤ 4 → n.toNat ≤ 2 → (∀ r : SetRec, StreamDoes (.tmac rb lg lm n t a b sc)
      (fun s c _ => reach s c ∧ fits s c r ∧ r.valid = true ∧ ¬ bad s c) fun s c x y =>
        x.WentOn y [a, b, sc] ∧ clear x y ∧
        (∀ m k, m < 2 ^ lm.toNat → k < cols → y.out t.toNat m k =
          tmacOut (x.out t.toNat m k) (look s c m k) r.e ((view s c).byte ((s.kval c sc).toNat % 2 ^ 24 + k))) ∧
        ∀ o, (∀ m k, m < 2 ^ lm.toNat → k < cols → o ≠ tileKey t.toNat m k) → Tbl.find y.tiles o = Tbl.find x.tiles o) ∧
    ∀ (s : State) (c : Nat), s.issuer = .stream c → reach s c →
      ((∀ r, Tbl.find (s.thr c).sets (s.kval c a).toNat = some r →
          r.lg ≠ lg.toNat ∨ r.lm ≠ lm.toNat ∨ (r.valid = false ∧ rb = false)) →
        exec (.tmac rb lg lm n t a b sc) s = .next (s.streamFault c 0x10 0)) ∧
      (∀ r, fits s c r → r.valid = true → bad s c →
        exec (.tmac rb lg lm n t a b sc) s = .next (s.streamFault c 0x11 0))) ∧
  (∀ t : BitVec 4, StreamDoes (.taclr t) (fun _ _ _ => True) fun _ _ x y => x.WentOn y [] ∧ clear x y ∧
    (∀ m k, m < 16 → k < 256 → y.out t.toNat m k = 0) ∧
    ∀ o, o / 4096 ≠ t.toNat → Tbl.find y.tiles o = Tbl.find x.tiles o) ∧
  ∀ (lm : BitVec 3) (n : BitVec 2) (t : BitVec 4) (a b : KSel),
    let cols := 64 * 2 ^ n.toNat
    let addr : State → Nat → Nat := fun s c => (s.kval c a).toNat
    let pitch : State → Nat → Nat := fun s c => (s.kval c b).toNat
    lm.toNat ≤ 4 → n.toNat ≤ 2 →
    StreamDoes (.tald lm n t a b)
      (fun s c _ => addr s c % 4 = 0 ∧ pitch s c % 4 = 0 ∧
        s.StreamReaches c ((List.range (2 ^ lm.toNat)).map fun m => (addr s c + m * pitch s c, 4 * cols)))
      fun s c x y => x.WentOn y [a] ∧ clear x y ∧
        (∀ m k, m < 2 ^ lm.toNat → k < cols → y.out t.toNat m k =
          BitVec.ofNat 32 (Memory.read (view s c) (addr s c % 2 ^ 24 + m * pitch s c + 4 * k) 4)) ∧
        ∀ o, (∀ m k, m < 2 ^ lm.toNat → k < cols → o ≠ tileKey t.toNat m k) → Tbl.find y.tiles o = Tbl.find x.tiles o

/-- R251, R252, R257: `tast` writes each output's stored form, and for D8 each scale byte, at its place in the scratchpad, and
no other byte. That the outputs stand where a D8 scale tile overlaps them is the model's choice of log entry 96, its order of the
writes: scales first. -/
def Obligations.TilesStored : Prop :=
  ∀ (fmt : BitVec 2) (lm : BitVec 3) (n : BitVec 2) (t : BitVec 4) (a b sc : KSel) (s : State) (c : Nat),
    s.issuer = .stream c →
    let blk := s.thrBlk c
    let addr := (s.kval c a).toNat
    let pitch := (s.kval c b).toNat
    let scale := (s.kval c sc).toNat
    let rows := 2 ^ lm.toNat
    let cols := 64 * 2 ^ n.toNat
    let size := if fmt = 0 then 4 else if fmt = 1 then 2 else 1
    let pieces := (List.range rows).map (fun m => (addr + m * pitch, size * cols)) ++
      if fmt = 2 then [(scale, rows * (cols / 16))] else []
    let tile := s.thr c
    (Tbl.find s.blocks blk).isSome = true → addr % size = 0 → pitch % size = 0 → s.StreamReaches c pieces →
    fmt ≠ 3 →
    ∃ u y, exec (.tast fmt lm n t a b sc) s = .next u ∧ u.thr c = y ∧ tile.WentOn y (if fmt = 2 then [a, sc] else [a]) ∧
      y.tiles = tile.tiles ∧ y.csets = tile.csets ∧ y.slots = tile.slots ∧ u.mem = s.mem ∧
      (∀ k, k ≠ blk → (u.blk k).scratch = (s.blk k).scratch) ∧
      (∀ x, (∀ p ∈ pieces, x < p.1 % 2 ^ 24 ∨ p.1 % 2 ^ 24 + p.2 ≤ x) →
        (u.blk blk).scratch.byte x = (s.blk blk).scratch.byte x) ∧
      ((rows = 1 ∨ size * cols ≤ pitch) → ∀ m k, m < rows → k < cols →
        Memory.read (u.blk blk).scratch (addr % 2 ^ 24 + m * pitch + size * k) size =
          tile.stored fmt t.toNat m k % 256 ^ size) ∧
      (fmt = 2 → (∀ m, m < rows → scale + rows * (cols / 16) ≤ addr + m * pitch ∨ addr + m * pitch + cols ≤ scale) →
        ∀ m j, m < rows → j < cols / 16 →
          (u.blk blk).scratch.byte (scale % 2 ^ 24 + m * (cols / 16) + j) = tile.rowScale t.toNat m j)

/-- R232, R258 to R260: `twait` goes on at once, for each stream instruction takes effect whole (the model's choice of log entry
39); `tend` ends the stream; `tloop`
counts down and jumps while the count is not 0; `tbar` arrives as one group and waits for the phase. -/
def Obligations.StreamControl : Prop :=
  let same : Thresher → Thresher → Prop := fun x y =>
    y.tiles = x.tiles ∧ y.csets = x.csets ∧ y.sets = x.sets ∧ y.slots = x.slots
  StreamDoes .twait (fun _ _ _ => True) (fun _ _ x y => x.WentOn y [] ∧ same x y) ∧
  StreamDoes .tend (fun _ _ _ => True) (fun _ _ x y => y = { x with st := .ended, clause := none }) ∧
  (∀ (k : BitVec 5) (d : BitVec 8), StreamDoes (.tloop k d)
    (fun s c x => ∃ q, x.clause = some q ∧ q.idx + 1 = headWords q.head ∧
      (x.k k.toNat ≠ 1 → s.checkTarget (s.thrBlk c) .stream false (q.hdr - BitVec.ofNat 64 (8 * d.toNat)) = .ok))
    fun _ _ x y => ∀ q, x.clause = some q → y.k k.toNat = x.k k.toNat - 1 ∧ (∀ n, n ≠ k.toNat → y.k n = x.k n) ∧
      y.clause = none ∧ y.st = x.st ∧ same x y ∧
      y.pc = if x.k k.toNat = 1 then nextHeader q.hdr q.head else q.hdr - BitVec.ofNat 64 (8 * d.toNat)) ∧
  ∀ (arr : Bool) (n : BitVec 4) (cnt : KSel) (s : State) (c : Nat), s.issuer = .stream c →
    let b := s.thrBlk c
    let x := s.bar b n.toNat
    let w := s.kval c cnt
    let y : State → Thresher := fun t => t.thr c
    (s.thr c).holder = some b → (s.blk b).core = c → (Tbl.find s.blocks b).isSome = true → (s.thr c).st = .running →
    1 ≤ w.toInt → w.toInt ≤ 65 → barRec (s.thr c).brec n.toNat ≠ 1 → (x.n ≠ 0 → (x.n : Int) = w.toInt) →
    (x.a + 1 ≠ w.toNat → ∃ t, exec (.tbar arr n cnt) s = .next t ∧
      t.bar b n.toNat = { x with n := w.toNat, a := x.a + 1 } ∧ barRec (y t).brec n.toNat = 1 ∧ same (s.thr c) (y t) ∧
      (arr = true → PastWord (s.thr c).clause (s.thr c).pc (y t).clause (y t).pc) ∧
      (arr = false → (y t).st = .waiting ∧ (y t).clause = (s.thr c).clause)) ∧
    (x.a + 1 = w.toNat → ∃ t, exec (.tbar arr n cnt) s = .next t ∧
      t.bar b n.toNat = { n := 0, a := 0, p := !x.p } ∧ same (s.thr c) (y t) ∧ (y t).st = .running ∧
      PastWord (s.thr c).clause (s.thr c).pc (y t).clause (y t).pc ∧
      barRec (y t).brec n.toNat = if arr then 2 else 0)

/-! ### Instructions with no active lane -/

/-- R82, R226, R291: an instruction that acts once for its group does nothing, and completes, when Active() is empty. That an
inactive `sysrd` or `syswr` of a register of R346 and R348 passes whatever the job's access right is the model's choice of log
entry 23. -/
def Obligations.InactiveInstructionsPass : Prop :=
  let base : BitVec 8 → List Need := fun a => [.s a.toNat, .s (a.toNat + 1)]
  let quad : BitVec 8 → List Need := fun b => [.s b.toNat, .s (b.toNat + 1), .s (b.toNat + 2), .s (b.toNat + 3)]
  (∀ op (len b : BitVec 8) fmt msel, PassesBy (.crdecl op len b fmt msel) msel (base b ++ [.s len.toNat])) ∧
  (∀ b msel, PassesBy (.crfree b msel) msel (base b)) ∧
  (∀ ord scope msel, PassesBy (.fence ord scope msel) msel []) ∧
  (∀ (len b : BitVec 8) scope tok msel, PassesBy (.flushr len b scope tok msel) msel (base b ++ [.s len.toNat]) ∧
    PassesBy (.invr len b scope tok msel) msel (base b ++ [.s len.toNat])) ∧
  (∀ n msel, PassesBy (.lease n msel) msel (SImm.needs n)) ∧
  (∀ n bar msel, PassesBy (.barar n bar msel) msel (SImm.needs n) ∧ PassesBy (.barwt bar msel) msel [] ∧
    PassesBy (.barsy n bar msel) msel (SImm.needs n)) ∧
  (∀ (d : BitVec 8) bar msel, PassesBy (.barq d bar msel) msel [.s d.toNat]) ∧
  (∀ sl msel, PassesBy (.rfence msel) msel [] ∧ PassesBy (.rwait sl msel) msel []) ∧
  (∀ a b c tok msel, PassesBy (.rrec a tok msel) msel (rselNeeds a 2) ∧
    PassesBy (.rcopy a b c tok msel) msel (rselNeeds a 2 ++ rselNeeds b 1 ++ rselNeeds c 1) ∧
    PassesBy (.rcopyo a b c tok msel) msel (rselNeeds a 2 ++ rselNeeds b 1 ++ rselNeeds c 1)) ∧
  (∀ (n : BitVec 3) sl (d : BitVec 8) msel, PassesBy (.qdrop n msel) msel [.q n.toNat] ∧ PassesBy (.qdropAll msel) msel [] ∧
    PassesBy (.qstat sl d msel) msel [.s d.toNat]) ∧
  (∀ msel, PassesBy (.slctlStop msel) msel [] ∧ PassesBy (.slctlPause msel) msel [] ∧
    PassesBy (.slctlResume msel) msel []) ∧
  (∀ (d a : BitVec 8) msel, PassesBy (.thres d a msel) msel (.s d.toNat :: base a) ∧ PassesBy (.threl msel) msel [] ∧
    PassesBy (.orf msel) msel []) ∧
  (∀ (d a : BitVec 8) tok msel, PassesBy (.tspawn d a tok msel) msel (.s d.toNat :: base a) ∧
    PassesBy (.tsig a tok msel) msel (base a) ∧ PassesBy (.tcont a msel) msel (base a) ∧
    PassesBy (.tkill a msel) msel (base a) ∧ PassesBy (.grel d a tok msel) msel (.s d.toNat :: base a) ∧
    PassesBy (.gstat d a tok msel) msel (.s d.toNat :: base a) ∧
    PassesBy (.launch d a tok msel) msel (.s d.toNat :: base a)) ∧
  (∀ (a : BitVec 8) n gr tok msel, PassesBy (.tjoin a n msel) msel (base a ++ SImm.needs n) ∧
    PassesBy (.promote gr a n tok msel) msel (base a ++ SImm.needs n) ∧
    PassesBy (.retract a n tok msel) msel (base a ++ SImm.needs n) ∧ PassesBy (.lwait n msel) msel (SImm.needs n)) ∧
  (∀ (d a b : BitVec 8) tok msel, PassesBy (.grange d a b tok msel) msel (.s d.toNat :: base a ++ [.s b.toNat]) ∧
    PassesBy (.qpush d a b tok msel) msel (.s d.toNat :: .s a.toNat :: quad b) ∧
    PassesBy (.qpop d a b tok msel) msel (quad d ++ [.s a.toNat, .s b.toNat]) ∧
    PassesBy (.qpopw d a tok msel) msel (quad d ++ [.s a.toNat])) ∧
  (∀ tok msel, PassesBy (.ffence tok msel) msel [] ∧ PassesBy (.fdrain tok msel) msel []) ∧
  (∀ n (d : BitVec 8) msel, PassesBy (.jobq n d msel) msel [.s d.toNat] ∧ PassesBy (.wcbq d msel) msel [.s d.toNat] ∧
    PassesBy (.clock d msel) msel (base d)) ∧
  (∀ (n d : BitVec 8) msel, n.toNat ≤ 0x25 → PassesBy (.sysrd n d msel) msel [.s d.toNat]) ∧
  (∀ (n : BitVec 8) a msel, n.toNat ≤ 0x25 → PassesBy (.syswr n a msel) msel (SImm.needs a)) ∧
  ∀ (n a : BitVec 8) msel, PassesBy (.abort n msel) msel [] ∧ PassesBy (.brk n msel) msel [] ∧
    PassesBy (.icinv msel) msel [] ∧ PassesBy (.tlbinv msel) msel [] ∧ PassesBy (.tlbinvVa a msel) msel (base a)

/-! ### Tasks, grades, queues and child grids -/

/-- R290 to R303, the moment of issue: each long-latency TASK instruction whose address passes its checks leaves itself
outstanding with what it names, or holds while a capacity is used up; an address outside the arena, a misaligned one and
work below final fault. That `promote` and `retract` ask only for a readable base line is the model's choice of log entry 47, and
that the room of an output list counts what is in flight to it that of log entry 92. -/
def Obligations.TaskInstructionsIssue : Prop :=
  let pair : BitVec 8 → List Need := fun a => [.s a.toNat, .s (a.toNat + 1)]
  let quad : BitVec 8 → List Need := fun b => [.s b.toNat, .s (b.toNat + 1), .s (b.toNat + 2), .s (b.toNat + 3)]
  let reach : State → Nat → BitVec 8 → Perm → Nat → Prop := fun s g a p n =>
    ∃ loc, s.Reaches g p (s.spair g a.toNat) n loc
  let inside : State → Nat → BitVec 8 → Prop := fun s g a =>
    (s.arena (s.jobOf g)).1 < (s.spair g a.toNat).toNat ∧
      (s.spair g a.toNat).toNat + 128 ≤ (s.arena (s.jobOf g)).1 + 128 * (s.arena (s.jobOf g)).2
  let names : BitVec 8 → Perm → Nat → (State → Nat → Nat) → State → Nat → Acc → Prop := fun a p k n s g x =>
    x.vaOf 0 = s.spair g a.toNat ∧ (∀ loc, s.Reaches g p (s.spair g a.toNat) k loc → x.addrOf 0 = loc) ∧ x.dataOf 0 = n s g
  let zero : State → Nat → Nat := fun _ _ => 0
  let final : State → Nat → Prop := fun s g => s.effGrade g = 3
  let promoting : State → Nat → BitVec 8 → SImm → Bool := fun s g a n =>
    (s.spanLines (s.jobOf g) (s.spair g a.toNat).toNat (s.simm g n).toNat).any fun l => s.listFull g [l.2 / 128]
  (∀ (d a : BitVec 8) tok msel, IssuesOp (.tspawn d a tok msel) (.tspawn d) tok msel (.s d.toNat :: pair a)
    (fun s g => reach s g a .write 128 ∧ inside s g a ∧ s.atLimit g true = false) (names a .write 128 zero)) ∧
  (∀ (d a : BitVec 8) tok msel, Waits (.tspawn d a tok msel) msel (.s d.toNat :: pair a)
    fun s g => reach s g a .write 128 ∧ inside s g a ∧ s.atLimit g true = true) ∧
  (∀ (a : BitVec 8) tok msel, IssuesOp (.tsig a tok msel) .tsig tok msel (pair a)
    (fun s g => reach s g a .write 128 ∧ inside s g a ∧ (s.roomWait g 1 = false ∨
      ∃ t, s.grpTask g = some t ∧ s.listed t (s.spair g a.toNat).toNat true ≠ none)) (names a .write 128 zero)) ∧
  (∀ (d a b : BitVec 8) tok msel, IssuesOp (.grange d a b tok msel) (.grange d) tok msel
    (.s d.toNat :: pair a ++ [.s b.toNat])
    (fun s g => reach s g a .write 128 ∧ s.sreg g b.toNat ≠ 0 ∧ (s.sreg g b.toNat).toNat ≤ 2 ^ 29 ∧
      s.allLocal (s.jobOf g) (s.spair g a.toNat).toNat (128 * (s.sreg g b.toNat).toNat) = true ∧ final s g)
    (names a .write 128 fun s g => (s.sreg g b.toNat).toNat)) ∧
  (∀ (d a : BitVec 8) tok msel, IssuesOp (.grel d a tok msel) (.grel d) tok msel (.s d.toNat :: pair a)
    (fun s g => reach s g a .write 128 ∧ final s g) (names a .write 128 zero)) ∧
  (∀ gr (a : BitVec 8) n tok msel, IssuesOp (.promote gr a n tok msel) (.promote gr) tok msel (pair a ++ SImm.needs n)
    (fun s g => reach s g a .read 128 ∧ promoting s g a n = false) (names a .read 128 fun s g => (s.simm g n).toNat)) ∧
  (∀ gr (a : BitVec 8) n tok msel, Waits (.promote gr a n tok msel) msel (pair a ++ SImm.needs n)
    fun s g => reach s g a .read 128 ∧ promoting s g a n = true) ∧
  (∀ (a : BitVec 8) n tok msel, IssuesOp (.retract a n tok msel) .retract tok msel (pair a ++ SImm.needs n)
    (fun s g => reach s g a .read 128) (names a .read 128 fun s g => (s.simm g n).toNat)) ∧
  (∀ (d a : BitVec 8) tok msel, IssuesOp (.gstat d a tok msel) (.gstat d) tok msel (.s d.toNat :: pair a)
    (fun s g => reach s g a .read 1) (names a .read 1 zero)) ∧
  (∀ (d a b : BitVec 8) tok msel, IssuesOp (.qpush d a b tok msel) (.qpush d) tok msel (.s d.toNat :: .s a.toNat :: quad b)
    final fun s g x => x.dataOf 0 = (s.sreg g a.toNat).toNat ∧
      ∀ k, k < 4 → (x.data2Of 0 / 2 ^ (32 * k)) % 2 ^ 32 = (s.sreg g (b.toNat + k)).toNat) ∧
  (∀ (d a b : BitVec 8) tok msel, IssuesOp (.qpop d a b tok msel) (.qpop d b) tok msel (quad d ++ [.s a.toNat, .s b.toNat])
    (fun _ _ => True) fun s g x => x.dataOf 0 = (s.sreg g a.toNat).toNat) ∧
  (∀ (d a : BitVec 8) tok msel, IssuesOp (.launch d a tok msel) (.launch d) tok msel (.s d.toNat :: pair a)
    (fun s g => reach s g a .read 256 ∧ (s.blockOf g).depth < 10 ∧ (s.childGrids (s.grp g).blk).length < 256)
    (names a .read 256 zero)) ∧
  ∀ (d a b : BitVec 8) tok msel (s : State) (g : Nat), s.Issues g →
    s.needsOk g (.s d.toNat :: pair a ++ [.s b.toNat] ++ mselNeeds msel) = true → s.active g msel ≠ 0 →
    let va := s.spair g a.toNat
    let faults : Instr → BitVec 8 → Prop := fun i code => exec i s = .next (s.faultHere g (Flt.ofLane code 64 va))
    (va.toNat % 128 ≠ 0 → faults (.tspawn d a tok msel) 0x08 ∧ faults (.tsig a tok msel) 0x08 ∧
      faults (.grel d a tok msel) 0x08 ∧ faults (.grange d a b tok msel) 0x08) ∧
    (reach s g a .write 128 → ¬ inside s g a → faults (.tspawn d a tok msel) 0x0A ∧ faults (.tsig a tok msel) 0x0A) ∧
    (reach s g a .write 128 → s.effGrade g ≠ 3 → faults (.grel d a tok msel) 0x16) ∧
    (reach s g a .read 256 → 10 ≤ (s.blockOf g).depth →
      exec (.launch d a tok msel) s = .next (s.faultHere g (Flt.bare 0x0F 0 64)))

/-- R294, R296, R297, R301, R303: the TASK instructions that hold until performed: each waits for the group's earlier stores,
and those that the Binder performs also while a die's warm reset holds the Binder: R387 holds accesses to the die's units and queues,
and that any task's record or output list in a held unit holds the whole Binder is the model's choice of log entry 87;
`tjoin` writes a pending task's join
and readies it at 0, `tcont` sets the continuation, `tkill` cancels and holds until every cancellation is done, `qpopw` takes
the queue's oldest entry, `lwait` goes on once no child it names is live. -/
def Obligations.TaskInstructionsHold : Prop :=
  let pair : BitVec 8 → List Need := fun a => [.s a.toNat, .s (a.toNat + 1)]
  let quad : BitVec 8 → List Need := fun b => [.s b.toNat, .s (b.toNat + 1), .s (b.toNat + 2), .s (b.toNat + 3)]
  let inArena : State → Nat → Dword → Perm → Prop := fun s g va p => (∃ loc, s.Reaches g p va 128 loc) ∧
    (s.arena (s.jobOf g)).1 < va.toNat ∧ va.toNat + 128 ≤ (s.arena (s.jobOf g)).1 + 128 * (s.arena (s.jobOf g)).2
  let task : State → Nat → BitVec 8 → TaskId := fun s g a => { job := s.jobOf g, rec' := (s.spair g a.toNat).toNat }
  let mine : State → Nat → TaskId → Prop := fun s g k => s.effGrade g = 3 ∨
    ∃ p, s.grpTask g = some p ∧ (s.taskRow k).isSome = true ∧ s.tParent k = p.rec'
  let stores : State → Nat → Prop := fun s g => s.storesDone g s.nextId = true
  let goes : State → State → Nat → Prop := fun s t g => (t.grp g).still = (s.grp g).still ∧ (s.grp g).WentOn (t.grp g) ∧
    (∀ h, h ≠ g → t.grp h = s.grp h) ∧ ∀ b a, (t.blk b).scratch.byte a = (s.blk b).scratch.byte a
  let live : State → TaskId → Prop := fun s k => (s.taskRow k).isSome = true ∧ s.tState k ≠ 4 ∧ s.tState k ≠ 7
  (∀ (a : BitVec 8) n msel (s : State) (g : Nat), s.Issues g → s.needsOk g (pair a ++ SImm.needs n ++ mselNeeds msel) = true →
    s.active g msel ≠ 0 → inArena s g (s.spair g a.toNat) .write → mine s g (task s g a) →
    (¬ stores s g ∨ s.binderHeld = true → ∃ t, exec (.tjoin a n msel) s = .next t ∧ s.Holds t g) ∧
    (stores s g → s.binderHeld = false → s.tState (task s g a) ≠ 0 ∨ ¬ live s (task s g a) →
      ∃ t, exec (.tjoin a n msel) s = .next t ∧ s.Did t g (s.grp g)) ∧
    (stores s g → s.binderHeld = false → s.commAt (s.jobOf g) (task s g a).rec' = none →
      s.tState (task s g a) = 0 → live s (task s g a) →
      ∃ t, exec (.tjoin a n msel) s = .next t ∧ goes s t g ∧ t.tJoin (task s g a) = (s.simm g n).toNat ∧
        t.tState (task s g a) = (if s.simm g n = 0 then 1 else 0) ∧
        (s.simm g n ≠ 0 → t.bqueues = s.bqueues) ∧
        (s.simm g n = 0 → ∃ e, (t.bq (s.tRunq (task s g a))).items = (s.bq (s.tRunq (task s g a))).items ++ [e] ∧
          e.bits = BitVec.ofNat 128 ((task s g a).rec' + 2 ^ 64 * s.tGen (task s g a))) ∧
        ∀ x, (x < s.place (s.jobOf g) (task s g a).rec' ∨ s.place (s.jobOf g) (task s g a).rec' + 128 ≤ x) →
          t.mem.byte x = s.mem.byte x)) ∧
  (∀ (a : BitVec 8) msel (s : State) (g : Nat), s.Issues g → s.needsOk g (pair a ++ mselNeeds msel) = true →
    s.active g msel ≠ 0 → (s.spair g a.toNat = 0 ∨ inArena s g (s.spair g a.toNat) .read) →
    (¬ stores s g ∨ s.binderHeld = true → ∃ t, exec (.tcont a msel) s = .next t ∧ s.Holds t g) ∧
    (stores s g → s.binderHeld = false → (∀ k, s.grpTask g = some k → ∃ t, exec (.tcont a msel) s = .next t ∧ goes s t g ∧
        t.tCont k = (s.spair g a.toNat).toNat) ∧
      (s.grpTask g = none → (Tbl.find s.grids (s.blockOf g).grid).isSome = true →
        ∃ t, exec (.tcont a msel) s = .next t ∧ goes s t g ∧ t.mem = s.mem ∧
          (t.grid (s.blockOf g).grid).cont = (s.spair g a.toNat).toNat))) ∧
  (∀ (a : BitVec 8) msel (s : State) (g : Nat) (w : TaskRow), s.Issues g →
    s.needsOk g (pair a ++ mselNeeds msel) = true → s.active g msel ≠ 0 → inArena s g (s.spair g a.toNat) .write →
    let k := task s g a
    mine s g k → stores s g → s.binderHeld = false → s.taskRow k = some w → w.counted = false → s.grpTask g ≠ some k →
    s.childTasks k = [] →
    s.taskGrids k = [] → s.bodyBlocks k = [] → s.ownLines k = [] → (∀ x ∈ s.handlerWait, x.handler ≠ k) → s.stops = [] →
    (s.grp g).partDone = false →
    (live s k → ∃ t, exec (.tkill a msel) s = .next t ∧ goes s t g ∧ t.tState k = 7) ∧
    (¬ live s k → ∃ t, exec (.tkill a msel) s = .next t ∧ s.Did t g (s.grp g))) ∧
  (∀ (a : BitVec 8) msel (s : State) (g : Nat), s.Issues g → s.needsOk g (pair a ++ mselNeeds msel) = true →
    s.active g msel ≠ 0 → inArena s g (s.spair g a.toNat) .write → mine s g (task s g a) ∨ s.grpTask g = some (task s g a) →
    ((s.grp g).partDone = false → ¬ stores s g ∨ s.binderHeld = true → ∃ t, exec (.tkill a msel) s = .next t ∧ s.Holds t g) ∧
    ((s.grp g).partDone = true → s.killing g (task s g a) = true →
      (s.killsOwn g (task s g a) = false → ∃ t, exec (.tkill a msel) s = .next t ∧ s.Holds t g) ∧
      (s.killsOwn g (task s g a) = true → ∃ t, exec (.tkill a msel) s = .next t ∧ s.OnlyGroup t g ∧
        t.grp g = { s.grp g with heldAt := false })) ∧
    ((s.grp g).partDone = true → s.killing g (task s g a) = false →
      ∃ t, exec (.tkill a msel) s = .next t ∧ s.Did t g (s.grp g))) ∧
  (∀ (d a : BitVec 8) (tok : BitVec 4) msel (s : State) (g : Nat), s.Issues g →
    s.needsOk g (quad d ++ [.s a.toNat] ++ mselNeeds msel) = true → s.active g msel ≠ 0 →
    let id := s.sreg g a.toNat
    let q := s.bq id.toNat
    (stores s g → s.hasRoom g tok = true → s.queueHeld id = false →
      (∀ e es, s.queueOk id = true → q.items = e :: es → ∃ t x, exec (.qpopw d a tok msel) s = .next t ∧
        (s.setBq id.toNat { q with items := es }).Launched t g x [] ∧ x.op = .qpopw d ∧ x.tok = tok ∧ x.data2 = [e.bits]) ∧
      (s.queueOk id = true → q.items = [] → ∃ t, exec (.qpopw d a tok msel) s = .next t ∧ s.Holds t g) ∧
      (s.queueOk id = false → ∃ t x, exec (.qpopw d a tok msel) s = .next t ∧ s.Launched t g x [] ∧ x.op = .qpopw d ∧
        x.tok = tok ∧ x.data2 = [])) ∧
    (¬ stores s g → ∃ t, exec (.qpopw d a tok msel) s = .next t ∧ s.Holds t g)) ∧
  ∀ h msel (s : State) (g : Nat), s.Issues g → s.needsOk g (SImm.needs h ++ mselNeeds msel) = true → s.active g msel ≠ 0 →
    let waits := ∃ c ∈ s.childGrids (s.grp g).blk, s.simm g h = 0 ∨ (s.grid c).handle = (s.simm g h).toNat
    (stores s g → ¬ waits → ∃ t, exec (.lwait h msel) s = .next t ∧ goes s t g ∧ t.rest = s.rest ∧
      s.Invalidated t (s.coreOf g)) ∧
    (¬ stores s g ∨ waits → ∃ t, exec (.lwait h msel) s = .next t ∧ s.Holds t g)

/-- R166, R178, R216, R293, R295, R298 to R301, R303, R376: what an outstanding instruction that is not lane by lane does when
it is performed, after the group's earlier stores and its threads' earlier loads, scratchpad stores and pops (R187, R188, R292):
the status or value it writes, and its effect. The scalars it writes land at once, or each of them later: till then a reader finds
the old bits (R40, R291). -/
def Obligations.OutstandingInstructionsPerform : Prop :=
  ∀ (s : State) (g : Nat) (a : Acc) (want : Dword), (Tbl.find s.groups g).isSome = true →
    (s.blockOf g).resident = true → s.jobRuns (s.jobOf g) = true →
    (s.grp g).out.find? (fun b => b.id == a.id) = some a →
    a.st ≠ .abandoned → (a.op.binder = true → s.binderHeld = false) →
    (∀ b ∈ s.accsBefore g a.id, b.op.storeLike = false ∧
      ((b.op.reads = true ∨ b.op = .sstore) → s.undone b &&& a.act = 0) ∧ (b.op.pops = true → b.act &&& a.act = 0)) →
    s.unsent g = [] → s.unclosed g = [] → s.resetHolds g a = false →
    let job := s.jobOf g
    let va := (a.vaOf 0).toNat
    let n := a.dataOf 0
    let k : TaskId := { job := job, rec' := va }
    let line := lineOf (a.addrOf 0)
    let id : Word := BitVec.ofNat 32 n
    let q := s.bq id.toNat
    let performs : (State → Prop) → Prop := fun p => ∃ t, exec (.accessCompletion g a.id want) s = .next t ∧
      s.Finished t g a ∧ (∀ r, t.vreg g r = s.vreg g r) ∧ p t
    let writes : BitVec 8 → Nat → State → Prop := fun d v t => t.sreg g d.toNat = BitVec.ofNat 32 v ∧
      ∀ r, r ≠ d.toNat → t.sreg g r = s.sreg g r
    let none' : State → Prop := fun t => ∀ r, t.sreg g r = s.sreg g r
    let readied : State → Prop := fun t => ∃ e, (t.bq (s.tRunq k)).items = (s.bq (s.tRunq k)).items ++ [e] ∧
      e.bits.toNat % 2 ^ 64 = va % 2 ^ 64
    let live := (s.taskRow k).isSome = true ∧ s.tState k ≠ 4 ∧ s.tState k ≠ 7
    let late : Nat → Word → State → Prop := fun n w t => t.sreg g n = w ∨ (t.sreg g n = s.sreg g n ∧
      ∃ b ∈ (t.grp g).out, b.id = a.id ∧ Tbl.find b.got n = some w)
    (a.got ≠ [] → a.op.perLane = false → (a.got.map (·.1)).Nodup →
      (want ≠ 0 → ∃ t, exec (.accessCompletion g a.id want) s = .next t ∧ s.Finished t g a ∧ t.rest = s.rest ∧
        (∀ x ∈ a.got, t.sreg g x.1 = x.2) ∧ ∀ r, r ∉ a.got.map (·.1) → t.sreg g r = s.sreg g r) ∧
      (want = 0 → ∃ t, exec (.accessCompletion g a.id want) s = .next t ∧ (∀ x ∈ a.got, late x.1 x.2 t) ∧
        ∀ r, r ∉ a.got.map (·.1) → t.sreg g r = s.sreg g r)) ∧
    (a.got = [] → want = 0 →
      (∀ d e, a.op = .qpopw d → a.data2 = [e] → ∃ t, exec (.accessCompletion g a.id want) s = .next t ∧
        ∀ i, i < 4 → late (d.toNat + i) (e.extractLsb' (32 * i) 32) t) ∧
      (∀ d st e es, a.op = .qpop d st → s.queueHeld id = false → s.queueOk id = true → q.items = e :: es →
        ∃ t, exec (.accessCompletion g a.id want) s = .next t ∧ late st.toNat 0 t ∧ (t.bq id.toNat).items = es ∧
          ∀ i, i < 4 → d.toNat + i ≠ st.toNat → late (d.toNat + i) (e.bits.extractLsb' (32 * i) 32) t) ∧
      (∀ d, a.op = .qpush d → s.queueHeld id = false → s.queueOk id = true → q.items.length < q.cap →
        ∃ t e, exec (.accessCompletion g a.id want) s = .next t ∧ late d.toNat 0 t ∧
          (t.bq id.toNat).items = q.items ++ [e] ∧ e.bits = a.data2.getD 0 0)) ∧
    (a.got = [] ∧ (want ≠ 0 ∨ a.op.scalars = []) →
    (∀ d, a.op = .gstat d → ∀ sub : Bool,
      (sub = true ↔ ∃ p, s.grpTask g = some p ∧ ((∃ x ∈ s.subs, x.task = p ∧ x.line = line ∧ x.chip = none) ∨
        ∃ x ∈ s.remoteSubs, x.1 = p ∧ x.2.1 = line)) →
      performs fun t => t.rest = s.rest ∧ t.cores = s.cores ∧ writes d ((if sub then 8 else 0) +
        if (s.gradedAt job va).isSome then 4 + (s.lineGrade line).toNat else 3) t) ∧
    (∀ d, a.op = .qpush d → s.queueHeld id = false →
      (s.queueOk id = false → performs fun t => writes d 2 t ∧ t.bqueues = s.bqueues) ∧
      (s.queueOk id = true → q.cap ≤ q.items.length → performs fun t => writes d 1 t ∧ t.bqueues = s.bqueues) ∧
      (s.queueOk id = true → q.items.length < q.cap → performs fun t => writes d 0 t ∧
        (∃ e, (t.bq id.toNat).items = q.items ++ [e] ∧ e.bits = a.data2.getD 0 0 ∧ e.job = job) ∧
        ∀ r, r ≠ id.toNat → t.bq r = s.bq r)) ∧
    (∀ d st, a.op = .qpop d st → s.queueHeld id = false →
      (s.queueOk id = false → performs fun t => writes st 2 t ∧ t.bqueues = s.bqueues) ∧
      (s.queueOk id = true → q.items = [] → performs fun t => writes st 1 t ∧ t.bqueues = s.bqueues) ∧
      (∀ e es, s.queueOk id = true → q.items = e :: es → performs fun t => t.sreg g st.toNat = 0 ∧
        (∀ i, i < 4 → d.toNat + i ≠ st.toNat → t.sreg g (d.toNat + i) = e.bits.extractLsb' (32 * i) 32) ∧
        (t.bq id.toNat).items = es ∧ s.Invalidated t (s.coreOf g))) ∧
    (∀ d e, a.op = .qpopw d → a.data2 = [e] → performs fun t => ∀ i, i < 4 →
      t.sreg g (d.toNat + i) = e.extractLsb' (32 * i) 32) ∧
    (∀ d, a.op = .grange d →
      let meets := ∃ r ∈ s.granges, r.job = job ∧ overlap r.va (128 * r.lines) va (128 * n) = true
      let meetsC := ∃ r ∈ s.cranges, r.job = job ∧ overlap r.va r.len va (128 * n) = true
      let count := (s.granges.filter fun r => r.job == job).length
      (meets → performs fun t => writes d 1 t ∧ t.granges = s.granges) ∧
      (¬ meets → meetsC → performs fun t => writes d 2 t ∧ t.granges = s.granges) ∧
      (¬ meets → ¬ meetsC → 256 ≤ count → performs fun t => writes d 3 t ∧ t.granges = s.granges) ∧
      (¬ meets → ¬ meetsC → count < 256 → s.mapRoom n = false → performs fun t => writes d 4 t ∧ t.granges = s.granges) ∧
      (¬ meets → ¬ meetsC → count < 256 → s.mapRoom n = true → performs fun t => writes d 0 t ∧
        t.granges = s.granges ++ [{ job := job, va := va, lines := n }] ∧
        ∀ l, s.rangeLine job va (128 * n) l = true →
          t.lineGrade l = 0 ∧ t.writer l = none ∧ ∀ c, Tbl.find (t.core c).l1 l = none)) ∧
    (∀ d, a.op = .grel d → s.subs = [] →
      ((∀ r ∈ s.granges, r.job ≠ job ∨ r.va ≠ va) → performs fun t => writes d 1 t ∧ t.granges = s.granges) ∧
      (∀ r, s.granges.find? (fun r => r.job == job && r.va == va) = some r → performs fun t => writes d 0 t ∧
        t.granges = s.granges.filter (· != r) ∧ t.mem = s.mem)) ∧
    (∀ gr, a.op = .promote gr → s.subs = [] → s.grpTask g = none → n < 2 ^ 32 →
      (∀ x ∈ s.spanLines job va n, ∀ y ∈ s.spanLines job va n, x.2 < y.2 + 128 → y.2 < x.2 + 128 → x = y) →
      performs fun t => none' t ∧ t.mem = s.mem ∧
      (∀ l ∈ s.spanLines job va n, t.lineGrade l.1 = gradeMax (s.lineGrade l.1) gr) ∧
      ∀ l, (∀ x ∈ s.spanLines job va n, x.1 ≠ l) → t.lineGrade l = s.lineGrade l) ∧
    (a.op = .retract → s.subs = [] → performs fun t => none' t ∧ t.mem = s.mem ∧
      (∀ l ∈ s.spanLines job va n, t.lineGrade l.1 = 0) ∧
      ∀ l, (∀ x ∈ s.spanLines job va n, x.1 ≠ l) → t.lineGrade l = s.lineGrade l) ∧
    (∀ d, a.op = .tspawn d → s.grpTask g = none → s.commAt job va = none →
      (live → performs fun t => writes d 0 t ∧ t.mem = s.mem ∧ t.tasks = s.tasks) ∧
      (¬ live → performs fun t => writes d ((va - (s.arena job).1) / 128) t ∧ (t.taskRow k).isSome = true ∧
        t.tState k = (if s.tJoin k = 0 then 1 else 0) ∧ t.tGen k = 0 ∧ t.tEff k = 3 ∧ t.tParent k = 0 ∧
        t.tChildren k = 0 ∧ t.tOuts k = 0 ∧ t.tJoin k = s.tJoin k ∧ t.tKernel k = s.tKernel k ∧ t.tArgs k = s.tArgs k ∧
        (s.tJoin k = 0 → readied t) ∧ (s.tJoin k ≠ 0 → t.bqueues = s.bqueues))) ∧
    (a.op = .tsig → s.grpTask g = none → s.commAt job va = none →
      (live → s.tState k = 0 → performs fun t => none' t ∧ t.tJoin k = (s.tJoin k + 2 ^ 32 - 1) % 2 ^ 32 ∧
        t.tState k = (if s.tJoin k = 1 then 1 else 0) ∧ (s.tJoin k = 1 → readied t) ∧
        (s.tJoin k ≠ 1 → t.bqueues = s.bqueues)) ∧
      (¬ live ∨ s.tState k ≠ 0 → performs fun t => none' t ∧ t.mem = s.mem ∧ t.bqueues = s.bqueues)) ∧
    (∀ d, a.op = .launch d → (s.childGrids (s.grp g).blk).length < 256 → s.commAt job va = none →
      s.commAt job (va + 128) = none → performs fun t => writes d s.freshHandle t ∧
      let x := t.grid s.nextId
      let z := 60 + s.coreOf g / 64
      x.job = job ∧ x.record = LRec.ofBits (Memory.read s.mem (s.place job va) 256) ∧ x.parent = some (s.grp g).blk ∧
        x.depth = (s.blockOf g).depth + 1 ∧ x.handle = s.freshHandle ∧ x.queue = z ∧
        (Tbl.find t.waiting z).getD [] = (Tbl.find s.waiting z).getD [] ++ [s.nextId]) ∧
    (a.op = .rrec → s.ownStoreAt g (some a.id) (a.addrOf 0) 64 = false → isRemote (a.addrOf 0) = false →
      s.commAt job va = none →
      performs fun t => none' t ∧ t.rest = s.rest ∧ ∃ e, (t.core (s.coreOf g)).rcache.head? = some e ∧ e.job = job ∧ e.va = va ∧
        e.bits = BitVec.ofNat 512 (Memory.read s.mem (a.addrOf 0) 64) ∧
        (e.ok = true ↔ recordValid (Memory.read s.mem (a.addrOf 0) 64) = true ∧ s.gradedAt job va = none)) ∧
    (a.op = .rrec → s.ownStoreAt g (some a.id) (a.addrOf 0) 64 = false → isRemote (a.addrOf 0) = false →
      s.commAt job va ≠ none → performs fun t => none' t ∧
      ∃ e, (t.core (s.coreOf g)).rcache.head? = some e ∧ e.job = job ∧ e.va = va ∧ e.ok = false) ∧
    (a.op = .flushr → performs fun t => none' t ∧ t.mem = s.mem ∧ ∀ l, Tbl.find (t.core (s.coreOf g)).l1 l =
      (Tbl.find (s.core (s.coreOf g)).l1 l).map fun x =>
        if a.scope.wide ∧ s.rangeLine job va n l = true then { x with reg := 0 } else x) ∧
    (a.op = .invr → performs fun t => none' t ∧ t.mem = s.mem ∧ ∀ l, Tbl.find (t.core (s.coreOf g)).l1 l =
      (Tbl.find (s.core (s.coreOf g)).l1 l).map fun x =>
        if a.scope.wide ∧ s.rangeLine job va n l = true then { x with valid := x.valid &&& x.reg } else x) ∧
    (a.op = .ffence → (∀ c ∈ s.copies, c.gid = g → c.out = true → a.id ≤ c.id) →
      (a.data = [] ∨ s.fencePassed g a = true) → performs fun t => none' t ∧ t.rest = s.rest ∧ ∀ c, t.core c = s.core c) ∧
    (a.op = .fdrain → performs fun t => none' t ∧ t.rest = s.rest ∧ t.cores = s.cores))

/-! ### The fabric -/

/-- R375 to R377: `ffence` and `fdrain` close entries and leave themselves outstanding; `jobq` writes the job's number named;
`wcbq` writes the group's unperformed remote writes, its open entries and the core's; how it counts them is the model's choice of
log entry 50. -/
def Obligations.FabricInstructions : Prop :=
  let ok : State → Nat → Prop := fun _ _ => True
  (∀ tok msel, IssuesOp (.ffence tok msel) .ffence tok msel [] ok fun _ _ _ => True) ∧
  (∀ tok msel (s : State) (g : Nat), s.Issues g → s.needsOk g (mselNeeds msel) = true → s.active g msel ≠ 0 →
    s.hasRoom g tok = true →
    (∃ t, exec (.ffence tok msel) s = .next t ∧
      (t.core (s.coreOf g)).wcb = (s.core (s.coreOf g)).wcb.filter fun e => !(e.threads.any (ofGroup g))) ∧
    ∃ t, exec (.fdrain tok msel) s = .next t ∧ (t.core (s.coreOf g)).wcb = []) ∧
  (∀ tok msel, IssuesOp (.fdrain tok msel) .fdrain tok msel [] ok fun _ _ _ => True) ∧
  (∀ (n : BitVec 3) (d : BitVec 8) msel, Leaves (.jobq n d msel) msel [.s d.toNat] ok fun s g => (s.grp g).setSreg d.toNat
    (match s.job? (s.jobOf g) with
      | none => 0
      | some j => BitVec.ofNat 32 (if n = 0 then j.spec.chips else if n = 1 then j.spec.panel
        else if n = 2 then j.lateLast else if n = 3 then j.lateDropped else j.switchIns))) ∧
  ∀ (d : BitVec 8) msel, Leaves (.wcbq d msel) msel [.s d.toNat] ok fun s g =>
    let entering := ((s.accsOf g).map fun a => if a.op.posts then
      ((lanesOf a.left).filter fun L => isRemote (a.addrOf L)).length else 0).sum +
      ((s.copies.filter fun c => c.out && c.gid == g).map fun c => (s.copyLeft c).length).sum
    let mine := (s.unclosed g).length
    (s.grp g).setSreg d.toNat (BitVec.ofNat 32 (min (entering + mine + (s.unsent g).length) 65535 * 65536 + mine * 256 +
      (s.core (s.coreOf g)).wcb.length))

/-! ### System registers and control -/

/-- R346, R348, R388, reads: each system register reads as what it names; the monitors' registers read what the core's monitors
measure, which no rule gives (the model's choice of log entry 16), and ALMSTAT says whether a plan change is pending and whether a
core's margin is negative. A read that only the firmware job may make and a write-only register are illegal-instruction, and so is
an index that names no register, whatever Active() says: the model's choice of log entry 23, which rests on it too that 0x26 to
0x3F, in R346's row for the Almanac but in none of R388's, are such indexes. -/
def Obligations.SystemRegistersRead : Prop :=
  let reads : BitVec 8 → Bool → (State → Nat → Word) → Prop := fun n firm v => ∀ (d : BitVec 8) msel,
    Leaves (.sysrd n d msel) msel [.s d.toNat] (fun s g => firm = true → s.jobOf g = 0) fun s g =>
      (s.grp g).setSreg d.toNat (v s g)
  let die : State → Nat → Die := fun s g => s.die (s.coreOf g / 64)
  let queue : State → BQueue := fun s => s.bq s.qsel.toNat
  let pool : State → Die := fun s => s.die s.fpsel.toNat
  (reads 0x00 false fun s g => (s.grp g).fcode.setWidth 32) ∧ (reads 0x01 false fun s g => (s.grp g).finfo.setWidth 32) ∧
  (reads 0x02 false fun s g => (s.grp g).flane.setWidth 32) ∧ (reads 0x03 false fun s g => lowWord (s.grp g).faddr) ∧
  (reads 0x04 false fun s g => highWord (s.grp g).faddr) ∧ (reads 0x05 false fun s g => lowWord (s.grp g).fpc) ∧
  (reads 0x06 false fun s g => highWord (s.grp g).fpc) ∧ (reads 0x07 false fun s g => lowWord (s.grp g).fhdr) ∧
  (reads 0x13 false fun s g => highWord (s.grp g).fhdr) ∧ (reads 0x08 false fun s _ => s.parkth) ∧
  (reads 0x09 false fun s _ => s.admitReg) ∧ (reads 0x0B false fun s _ => s.wdog) ∧
  (reads 0x0A false fun s g => BitVec.ofNat 32 (2100 - 25 * (s.core (s.coreOf g)).derate)) ∧
  (reads 0x0C true fun s g => BitVec.ofNat 32 (die s g).fqHead) ∧
  (reads 0x0D true fun s g => BitVec.ofNat 32 (die s g).fqTail) ∧
  (reads 0x0F true fun s g => lowWord (die s g).fqBase) ∧ (reads 0x10 true fun s g => highWord (die s g).fqBase) ∧
  (reads 0x12 true fun s _ => s.migr) ∧ (reads 0x14 true fun s _ => s.qsel) ∧
  (reads 0x15 true fun s _ => lowWord (queue s).base) ∧ (reads 0x16 true fun s _ => highWord (queue s).base) ∧
  (reads 0x17 true fun s _ => BitVec.ofNat 32 (queue s).cap) ∧ (reads 0x19 true fun s _ => s.fpsel) ∧
  (reads 0x1A true fun s _ => lowWord (pool s).fpBase) ∧ (reads 0x1B true fun s _ => highWord (pool s).fpBase) ∧
  (reads 0x1C true fun s _ => BitVec.ofNat 32 (pool s).fpSize) ∧
  (reads 0x1D false fun s g => BitVec.ofNat 32 (s.arena (s.jobOf g)).1) ∧
  (reads 0x1E false fun s g => BitVec.ofNat 32 ((s.arena (s.jobOf g)).1 / 2 ^ 32)) ∧
  (reads 0x1F false fun s g => BitVec.ofNat 32 (s.arena (s.jobOf g)).2) ∧ (reads 0x20 true fun s _ => s.almsel) ∧
  (reads 0x22 true fun s _ => BitVec.ofNat 32 (s.core s.almsel.toNat).voffNext) ∧
  (reads 0x23 true fun s _ => BitVec.ofNat 32 (s.core s.almsel.toNat).derateNext) ∧
  (∀ (n d : BitVec 8) msel (s : State) (g : Nat), n ∈ [0x21, 0x24, 0x25] → s.Issues g →
    s.needsOk g (.s d.toNat :: mselNeeds msel) = true → s.active g msel ≠ 0 →
    ∃ (t : State) (w : Word), exec (.sysrd n d msel) s = .next t ∧
      s.Did { t with freeCount := s.freeCount } g ((s.grp g).setSreg d.toNat w) ∧
      (n = 0x21 → w.toNat < 65536 ∧ w = (s.margin s.almsel.toNat).setWidth 32) ∧
      (n = 0x25 → w.toNat < 4 ∧ (w.getLsbD 1 = true ↔ ∃ c, c < 256 ∧ (s.margin c).msb = true) ∧
        (w.getLsbD 0 = true ↔ ∃ c ∈ s.cores, c.2.voff ≠ c.2.voffNext ∨ c.2.derate ≠ c.2.derateNext))) ∧
  ∀ (n d : BitVec 8) a msel (s : State) (g : Nat), s.Issues g →
    let refused : Instr → Prop := fun i => exec i s = .next (s.faultHere g (Flt.bare 0x02 0 64))
    (0x25 < n.toNat → refused (.sysrd n d msel) ∧ refused (.syswr n a msel)) ∧
    (s.active g msel ≠ 0 → n ∈ [0x0E, 0x11, 0x18] → refused (.sysrd n d msel)) ∧
    (s.active g msel ≠ 0 → s.jobOf g ≠ 0 →
      n ∈ [0x0C, 0x0D, 0x0F, 0x10, 0x12, 0x14, 0x15, 0x16, 0x17, 0x19, 0x1A, 0x1B, 0x1C, 0x20, 0x22, 0x23] →
      refused (.sysrd n d msel))

/-- R346, R348, R388, writes: FPC by a trap handler, every other register by the firmware job, within its limits and with its
effect; a register outside its limits stays (log entry 22); a write to a read-only register, of FPC with inh clear, or of
another job, is illegal-instruction. -/
def Obligations.SystemRegistersWritten : Prop :=
  let puts : BitVec 8 → (State → Word → Prop) → (State → Nat → Word → State) → Prop := fun n ok u =>
    ∀ a msel (s : State) (g : Nat), s.Issues g → s.needsOk g (SImm.needs a ++ mselNeeds msel) = true →
      s.active g msel ≠ 0 → s.jobOf g = 0 →
      (ok s (s.simm g a) → ∃ t, exec (.syswr n a msel) s = .next t ∧
        (u s (s.coreOf g) (s.simm g a)).Did t g (s.grp g)) ∧
      (¬ ok s (s.simm g a) → ∃ t, exec (.syswr n a msel) s = .next t ∧ s.Did t g (s.grp g))
  let any : State → Word → Prop := fun _ _ => True
  let line : State → Word → Prop := fun _ v => v.toNat % 128 = 0
  let die : State → Nat → (Die → Die) → State := fun s c f => s.setDie (c / 64) (f (s.die (c / 64)))
  let pool : State → (Die → Die) → State := fun s f => s.setDie s.fpsel.toNat (f (s.die s.fpsel.toNat))
  let queue : State → (BQueue → BQueue) → State := fun s f => s.setBq s.qsel.toNat (f (s.bq s.qsel.toNat))
  let empty : State → Prop := fun s => (s.bq s.qsel.toNat).items = []
  let plan : State → (Core → Core) → State := fun s f => s.setCore s.almsel.toNat (f (s.core s.almsel.toNat))
  let via : BitVec 8 → (Word → Prop) → (Nat → Word → Instr) → Prop := fun n ok e =>
    ∀ a msel (s : State) (g : Nat), s.Issues g → s.needsOk g (SImm.needs a ++ mselNeeds msel) = true →
      s.active g msel ≠ 0 → s.jobOf g = 0 → s.root.runs .field = true → ok (s.simm g a) →
      ∃ m, s.Did m g (s.grp g) ∧ exec (.syswr n a msel) s = exec (e (s.coreOf g / 64) (s.simm g a)) m
  (puts 0x08 (fun _ v => 1 ≤ v.toNat ∧ v.toNat ≤ 10000) fun s _ v => { s with parkth := v }) ∧
  (puts 0x09 (fun _ v => 8 ≤ v.toNat ∧ v.toNat ≤ 16) fun s _ v => { s with admitReg := v }) ∧
  (puts 0x0B any fun s _ v => { s with wdog := v }) ∧ (puts 0x12 any fun s _ v => { s with migr := v &&& 1 }) ∧
  (puts 0x0C (fun _ v => v.toNat < 4096) fun s c v => die s c fun d => { d with fqHead := v.toNat }) ∧
  (puts 0x0F line fun s c v => die s c fun d => { d with fqBase := highWord d.fqBase ++ v }) ∧
  (puts 0x10 any fun s c v => die s c fun d => { d with fqBase := v ++ lowWord d.fqBase }) ∧
  (puts 0x14 (fun _ v => v.toNat < 65536) fun s _ v => { s with qsel := v }) ∧
  (puts 0x15 (fun s v => v.toNat % 128 = 0 ∧ empty s) fun s _ v => queue s fun q => { q with base := highWord q.base ++ v }) ∧
  (puts 0x16 (fun s _ => empty s) fun s _ v => queue s fun q => { q with base := v ++ lowWord q.base }) ∧
  (puts 0x17 (fun s v => (v = 0 ∨ ∃ i, i < 16 ∧ v.toNat = 2 ^ (i + 1)) ∧ empty s) fun s _ v => queue s fun q =>
    { q with cap := v.toNat }) ∧
  (puts 0x19 (fun _ v => v.toNat < 4) fun s _ v => { s with fpsel := v }) ∧
  (puts 0x1A line fun s _ v => pool s fun d => { d with fpBase := highWord d.fpBase ++ v }) ∧
  (puts 0x1B any fun s _ v => pool s fun d => { d with fpBase := v ++ lowWord d.fpBase }) ∧
  (puts 0x1C (fun _ v => v.toNat < 65536) fun s _ v => pool s fun d => { d with fpSize := v.toNat }) ∧
  (puts 0x20 (fun _ v => v.toNat < 256) fun s _ v => { s with almsel := v }) ∧
  (puts 0x22 (fun _ v => v.toNat ≤ 40) fun s _ v => plan s fun c => { c with voffNext := v.toNat }) ∧
  (puts 0x23 (fun _ v => v.toNat ≤ 40) fun s _ v => plan s fun c => { c with derateNext := v.toNat }) ∧
  (via 0x0E (fun v => v.toNat / 2 ^ 30 = 1) fun d v => .fqcmdResolve d (BitVec.ofNat 12 v.toNat)) ∧
  (via 0x0E (fun v => v.toNat / 2 ^ 30 = 2) fun d v => .fqcmdCancel d (BitVec.ofNat 12 v.toNat)) ∧
  (via 0x11 (fun v => v.toNat / 2 ^ 30 = 1) fun _ v => .preemptJob (v.toNat % 2 ^ 30)) ∧
  (via 0x11 (fun v => v.toNat / 2 ^ 30 = 2) fun _ v => .preemptGrid (BitVec.ofNat 30 v.toNat)) ∧
  (via 0x11 (fun v => v.toNat / 2 ^ 30 = 3) fun _ v => .preemptCore (v.toNat % 2 ^ 30)) ∧
  (via 0x18 (fun v => v.toNat / 2 ^ 30 = 1) fun _ v => .rqregRegister (BitVec.ofNat 16 v.toNat)) ∧
  (via 0x18 (fun v => v.toNat / 2 ^ 30 = 2) fun _ v => .rqregDeregister (BitVec.ofNat 16 v.toNat)) ∧
  (∀ a msel, Leaves (.syswr 0x05 a msel) msel (SImm.needs a) (fun s g => (s.grp g).inh = true) fun s g =>
      { s.grp g with fpc := highWord (s.grp g).fpc ++ s.simm g a }) ∧
  (∀ a msel, Leaves (.syswr 0x06 a msel) msel (SImm.needs a) (fun s g => (s.grp g).inh = true) fun s g =>
      { s.grp g with fpc := s.simm g a ++ lowWord (s.grp g).fpc }) ∧
  ∀ (n : BitVec 8) a msel (s : State) (g : Nat), s.Issues g → s.active g msel ≠ 0 →
    (n ∈ [0x00, 0x01, 0x02, 0x03, 0x04, 0x07, 0x0A, 0x0D, 0x13, 0x1D, 0x1E, 0x1F, 0x21, 0x24, 0x25] ∨
      (n ∈ [0x05, 0x06] ∧ (s.grp g).inh = false) ∨
      (s.jobOf g ≠ 0 ∧ n ∈ [0x08, 0x09, 0x0B, 0x0C, 0x0E, 0x0F, 0x10, 0x11, 0x12, 0x14, 0x15, 0x16, 0x17, 0x18, 0x19, 0x1A,
        0x1B, 0x1C, 0x20, 0x22, 0x23])) →
      exec (.syswr n a msel) s = .next (s.faultHere g (Flt.bare 0x02 0 64))

/-- R344, R350 to R353: `clock` reads clk; `icinv` empties the core's instruction cache after the group's stores, `tlbinv`
drops its job's translations or those of an address; `park` parks the block's stook with a timer once every group has
halted; `abort` ends the group's grid with status 0x1D once its blocks have halted, the group's own at the `abort`. -/
def Obligations.SystemControl : Prop :=
  (∀ (d : BitVec 8) msel, Leaves (.clock d msel) msel [.s d.toNat, .s (d.toNat + 1)] (fun _ _ => True) fun s g =>
    let c : Dword := BitVec.ofNat 64 (s.clk (s.coreOf g))
    ((s.grp g).setSreg d.toNat (lowWord c)).setSreg (d.toNat + 1) (highWord c)) ∧
  (∀ (a : BitVec 8) msel (s : State) (g : Nat), s.Issues g → s.active g msel ≠ 0 →
    let core := s.core (s.coreOf g)
    let keep : List Pte → (Pte → Prop) → List Pte → Prop := fun new p old =>
      ∀ e, e ∈ new ↔ e ∈ old ∧ ¬ (e.job = s.jobOf g ∧ p e)
    let drops : Instr → (Pte → Prop) → Prop := fun i p => ∃ (t : State) (u w : List Pte), exec i s = .next t ∧
      keep u p core.tlb ∧ keep w p core.walkTlb ∧
      (s.setCore (s.coreOf g) { core with tlb := u, walkTlb := w }).Did t g (s.grp g)
    (s.needsOk g (mselNeeds msel) = true → drops (.tlbinv msel) fun _ => True) ∧
    (s.needsOk g (mselNeeds msel) = true → s.storesDone g s.nextId = true → ∃ t, exec (.icinv msel) s = .next t ∧
      (s.setCore (s.coreOf g) { core with icache := [] }).Did t g (s.grp g)) ∧
    (s.needsOk g (mselNeeds msel) = true → s.storesDone g s.nextId = false → ∃ t, exec (.icinv msel) s = .next t ∧
      s.Holds t g) ∧
    (s.needsOk g ([.s a.toNat, .s (a.toNat + 1)] ++ mselNeeds msel) = true →
      (canonical (s.spair g a.toNat) = true → drops (.tlbinvVa a msel) fun e =>
        e.va ≤ (s.spair g a.toNat).toNat ∧ (s.spair g a.toNat).toNat < e.va + e.size) ∧
      (canonical (s.spair g a.toNat) = false →
        exec (.tlbinvVa a msel) s = .next (s.faultHere g (Flt.ofLane 0x1A 64 (s.spair g a.toNat)))))) ∧
  (∀ a msel (s : State) (g : Nat), s.Issues g → (s.grp g).atLast = true →
    s.needsOk g (SImm.needs a ++ mselNeeds msel) = true → s.active g msel ≠ 0 →
    let ms := (s.stk (s.blockOf g).stook).members
    let timer := s.time + 1000 * min (s.simm g a).toNat 10000000
    let free := ∀ b ∈ ms, (s.blk b).resident = true ∧ (s.blk b).stop = false ∧ (s.blk b).parkReq = none
    let still := ∀ b ∈ ms, (∀ c ∈ s.copies, c.gid ∉ (s.blk b).gids) ∧ ∀ h ∈ (s.blk b).gids, (s.grp h).out = [] ∧
      (h = g ∨ (s.grp h).clause = none ∨ (s.grp h).heldAt = true) ∧
      ((s.grp h).slice.st ≠ .running ∨ (s.grp h).slice.clause = none ∨ (s.grp h).slice.held = true)
    (ms ≠ [] → free → still → ∃ t, exec (.park a msel) s = .next t ∧ s.Parked t (s.blockOf g).stook 2 timer) ∧
    (free → (∃ b ∈ ms, ∃ h ∈ (s.blk b).gids, h ≠ g ∧ (s.grp h).clause ≠ none ∧ (s.grp h).heldAt = false) →
      ∃ t, exec (.park a msel) s = .next t ∧ (s.grp g).WentOn (t.grp g) ∧ (∀ h, h ≠ g → t.grp h = s.grp h) ∧
        ∀ b ∈ ms, t.blk b = { s.blk b with parkReq := some { reason := 2, timer := timer, hold := 0 } })) ∧
  ∀ (n : BitVec 8) msel (s : State) (g : Nat), s.Issues g → s.needsOk g (mselNeeds msel) = true → s.active g msel ≠ 0 →
    s.grpTask g = none → (s.setGrp g { s.grp g with heldAt := true }).MayEnd (s.blockOf g).grid →
    ∃ t, exec (.abort n msel) s = .next t ∧ s.Ended t (s.blockOf g).grid 0x1D

/-! ### Device events -/

/-- R63, R77, R222, R325, R342: the event of an issue slot opens the clause of the ready group it served least recently;
that of the Reaper opens a slice's clause; a group retires once its threads have exited and nothing of it is left, and a
stook once all its groups have; of a block that has then left its core, what it still has to perform stays until that is done; a
pending fault enters the handler at a clause boundary. That a resume index beyond the clause that stands there stands at its last
word is the model's choice of log entry 56. -/
def Obligations.IssueAndRetireEvents : Prop :=
  (∀ (s : State) (core slot g : Nat) (c : Cluster) (loc : Nat) (w : Dword),
    let va := (s.grp g).header c
    Tbl.find (s.core core).serving slot = none → g ∈ s.slotReady core slot →
    (∀ h ∈ s.slotReady core slot, h ≠ g → s.turn core g < s.turn core h) → (s.grp g).cur = some c →
    s.cancelledOf g = none → s.fetch core (s.jobOf g) va = (.ok loc, w) → s.outsideJob (s.jobOf g) loc = false →
    s.commAt (s.jobOf g) va.toNat = none → (s.blockOf g).core = core → headerOk .lane (s.blockOf g).record.qn w = true →
    (s.readCode core (s.jobOf g) va loc w).earlyOk g va w = true →
    ∃ t, exec (.issueSlotChoice core slot) s = .next t ∧ Tbl.find (t.core core).serving slot = some g ∧
      (t.grp g).clause = some { hdr := va, head := w, idx := min c.word (headWords w - 1), latches := [], cap := none } ∧
      (t.grp g).pcs = (s.grp g).pcs ∧ t.mem = s.mem ∧ ∀ h, h ≠ g → t.grp h = s.grp h) ∧
  (∀ (s : State) (core slot g : Nat), (Tbl.find (s.core core).serving slot = some g ∨ s.slotReady core slot = []) →
    exec (.issueSlotChoice core slot) s = .next s) ∧
  (∀ (s : State) (core g loc : Nat) (w : Dword),
    let may : Nat → Prop := fun h => (s.blk (s.grp h).blk).core = core ∧ s.sliceRuns h = true ∧
      (s.grp h).slice.clause = none
    (∃ x, (g, x) ∈ s.groups) → (s.groups.map fun h => h.1).Nodup → may g → (∀ h ∈ s.groups, may h.1 → h.1 = g) →
    s.fetchHeld core (s.jobOf g) (s.grp g).slice.pc = false → s.outsideJob (s.jobOf g) loc = false →
    s.fetch core (s.jobOf g) (s.grp g).slice.pc = (.ok loc, w) → headerOk .slice (s.blockOf g).record.qn w = true →
    (s.grp g).slice.skip = 0 →
    ∃ t, exec (.sliceClauseIssue core) s = .next t ∧ (t.grp g).slice = { (s.grp g).slice with
      clause := some { hdr := (s.grp g).slice.pc, head := w, idx := 0, latches := [], cap := none } }) ∧
  (∀ (s : State) (g : Nat), (Tbl.find s.groups g).isSome = true →
    let gone := (s.blockOf g).resident = true ∧ (s.grp g).retired = false ∧ (s.grp g).clause = none ∧
      (s.grp g).exited = BitVec.allOnes 64 ∧ (s.grp g).allClear = true ∧ (s.grp g).bfault = none ∧
      s.gradedFlying g = false
    (gone → ∃ t, exec (.groupRetire g) s = .next t ∧ (t.grp g).retired = true ∧ (t.grp g).queues = [] ∧
      t.holdsLock g = false ∧ ((s.grp g).slice.st ≠ .none → (t.grp g).slice.st = .ended) ∧ t.mem = s.mem ∧
      ∀ n, t.sreg g n = s.sreg g n) ∧
    (¬ gone → exec (.groupRetire g) s = .next s)) ∧
  (∀ (s : State) (b : Nat),
    let ms := (s.stk (s.blk b).stook).members
    let left : State → Nat → Prop := fun t m => Tbl.find t.blocks m = none ∧ ∀ h ∈ (s.blk m).gids, Tbl.find t.groups h = none
    ((s.blk b).gone = false → (b ∈ ms ∧ ∀ m ∈ ms, s.blockOver m = true) →
      ∃ t, exec (.blockRetire b) s = .next t ∧ t.mem = s.mem ∧
        ∀ m ∈ ms, (t.blk m).resident = false ∧ (s.owes m = false → left t m)) ∧
    ((s.blk b).gone = false → ¬ (b ∈ ms ∧ ∀ m ∈ ms, s.blockOver m = true) → exec (.blockRetire b) s = .next s) ∧
    ((s.blk b).gone = true → s.owes b = true → exec (.blockRetire b) s = .next s) ∧
    ((s.blk b).gone = true → s.owes b = false → ∃ t, exec (.blockRetire b) s = .next t ∧ t.mem = s.mem ∧ left t b)) ∧
  ∀ (s : State) (g : Nat) (f : Flt), (Tbl.find s.groups g).isSome = true → (s.blockOf g).resident = true →
    (s.grp g).retired = false → (s.grp g).reo = none → (s.grp g).xreq = false → s.jobRuns (s.jobOf g) = true →
    (s.grp g).trapPend = none → (s.grp g).bfault = some f → (s.grp g).clause = none →
    s.trapCheck g = some .ok →
    ∃ t, exec (.boundaryFaultDelivery g) s = .next t ∧ (t.grp g).bfault = none ∧ (t.grp g).fcode = f.code ∧
      (t.grp g).finfo = f.info ∧ (t.grp g).flane = BitVec.ofNat 8 f.lane ∧ (t.grp g).faddr = f.addr ∧
      (t.grp g).fpc = (s.grp g).pc (lowestLane (s.grp g).curLanes) ∧ (t.grp g).inh = true ∧
      (t.grp g).fhdr = (match (s.grp g).cur with
        | some c => if c.res = 0 then 0 else (s.grp g).header c
        | none => 0) ∧
      ∀ L, L < 64 → (t.grp g).pc L =
        if inMask (s.grp g).curLanes L then (s.blockOf g).record.trap else (s.grp g).pc L

/-- R151, R152, R269 to R275, R285, R314, R318 to R320, R360, R369: what a graded store at its home, a task whose body is over, a
grid whose blocks are gone, a cancelled grid, a notice, an epoch, a dependence's re-read and a placement decision do; a notice
that earlier posted packets of its sender must precede waits behind them, and the Binder's work, TASK_COMPLETE of any task
too, waits while a die's
warm reset holds any task's record or output list: R387 holds accesses to units and queues of the die, and that the whole Binder
waits is the model's choice of log entry 87. That a dependence once found met stays met is the model's choice of log entry
53; how lines count in an epoch
and when it ends, that of log entry 58. -/
def Obligations.BinderAndReeveEvents : Prop :=
  (∀ (s : State) (n : Nat) (x : GStore), s.gstores[n]? = some x → (∀ y ∈ s.gstores.take n, y.line ≠ x.line) →
    x.task.rec' = 0 → s.subs = [] → s.dieReset = none → s.jobIn x.task.job .out = false → Tbl.rising x.bytes = true →
      (Tbl.find s.groups x.gid).isSome = true →
    let before := s.lineGrade x.line
    let equal := ∀ p ∈ x.bytes, s.mem.byte p.1 = p.2
    let becomes : (State → Prop) → Prop := fun p => ∃ t, exec (.gradedStoreClassify n) s = .next t ∧
      t.gstores = s.gstores.eraseIdx n ∧ p t
    let written : State → Prop := fun t => t.lineGrade x.line = x.stated ∧ (∀ p ∈ x.bytes, t.mem.byte p.1 = p.2) ∧
      ∀ a, (∀ p ∈ x.bytes, p.1 ≠ a) → t.mem.byte a = s.mem.byte a
    (before = 0 ∨ (before ≠ 3 ∧ ¬ equal) → becomes written) ∧
    (before ≠ 0 → before ≠ 3 → equal → becomes fun t => t.mem = s.mem ∧
      t.lineGrade x.line = if before.toNat < x.stated.toNat then x.stated else before) ∧
    (before = 3 → equal → becomes fun t => t.mem = s.mem ∧ t.lineGrade x.line = 3) ∧
    (before = 3 → ¬ equal → becomes fun t => t.mem = s.mem ∧ t.lineGrade x.line = 3 ∧
      ((s.grp x.gid).bfault = none → (t.grp x.gid).bfault = some (Flt.ofLane 0x16 64 x.va)))) ∧
  (∀ (s : State) (job rec' : Nat) (w : TaskRow),
    let k : TaskId := { job := job, rec' := rec' }
    let gone := s.tState k = 2 ∧ (∀ b ∈ s.bodyBlocks k, (s.blk b).gone = true) ∧ s.tChildren k = 0
    s.taskRow k = some w → (¬ gone ∨ s.binderHeld = true → exec (.taskComplete job rec') s = .next s) ∧
    (s.jobIn job .out = true → exec (.taskComplete job rec') s = .next s) ∧
    (gone → s.jobIn job .out = false → s.dieReset = none → w.counted = false → (w.contDone = true ∨ s.tCont k = 0) → s.tOuts k = 0 →
      (∀ y ∈ s.handlerWait, y.handler ≠ k) →
      ∃ t, exec (.taskComplete job rec') s = .next t ∧ t.tState k = if s.tEff k = 3 then 4 else 3)) ∧
  (∀ (s : State) (q g core frame : Nat), s.frameOffers = [] → s.runqs = [] → s.waiting = [(q, [g])] →
    (∀ l ∈ s.lqueues, (s.lq l.1).head = (s.lq l.1).tail) →
    let x := s.grid g
    let r := x.record
    (Tbl.find s.grids g).isSome = true → x.declared = true → x.isTask = false →
    (x.met = true ∨ (s.cranges = [] ∧ ∀ i d, r.deps[i]? = some d → i ∈ x.found ∨ s.depMet x.job d = true)) →
    s.mayPlace x.job = true → s.launchHeld x.job r = false → r.stook = 1 → s.assign r [false] none = some [(core, frame)] →
    let b := s.nextId + 1
    ∃ t, exec .placementDecision s = .next t ∧ (t.grid g).next = x.next + 1 ∧ (t.blk b).resident = true ∧
      (t.blk b).core = core ∧ (t.blk b).fAddr = frame ∧ (t.blk b).record = r ∧ (t.blk b).grid = g ∧
      (t.blk b).lin = x.next ∧ (t.blk b).gids = (List.range r.groups).map (fun i => b + 1 + i) ∧
      (∀ i, i < r.groups → (t.grp (b + 1 + i)).blk = b ∧ (t.grp (b + 1 + i)).idx = i ∧
        (t.grp (b + 1 + i)).exited = 0 ∧ (t.grp (b + 1 + i)).inh = false ∧
        (t.grp (b + 1 + i)).curLanes = BitVec.allOnes 64 ∧ ∀ L, L < 64 → (t.grp (b + 1 + i)).pc L = r.entry)) ∧
  (∀ (s : State) (q : Nat),
    ((Tbl.find s.waiting q).getD [] = [] → exec (.dependenceReread q) s = .next s) ∧
    ∀ g gs, (Tbl.find s.waiting q).getD [] = g :: gs → (Tbl.find s.grids g).isSome = true →
      let x := s.grid g
      ∃ t, exec (.dependenceReread q) s = .next t ∧
        (x.met = true → t = s) ∧
        (x.met = false →
          (∀ i, i ∈ (t.grid g).found ↔ i ∈ x.found ∨ ∃ d, x.record.deps[i]? = some d ∧ s.depMet x.job d = true) ∧
          ((t.grid g).met = true ↔ ∀ i d, x.record.deps[i]? = some d → i ∈ (t.grid g).found)) ∧
        (s.cranges = [] → t.mem = s.mem) ∧
        (s.cranges = [] → s.dieReset = none → ∀ d, s.depMet x.job d = true ↔
          d.1 = 0 ∨ d.2.toNat ≤ Memory.read s.mem (s.place x.job d.1.toNat) 4)) ∧
  (∀ (s : State) (g : Nat),
    let x := s.grid g
    let gone := (Tbl.find s.grids g).isSome = true ∧ x.isTask = false ∧ x.ended = false ∧ x.next = x.record.stooks ∧
      s.blocksOf g = []
    (¬ gone → s.gridEnded g = false → exec (.gridCompletion g) s = .next s) ∧
    (gone → x.done = false → x.parent = none → x.cont = 0 → s.dieReset = none →
      s.commAt x.job x.record.caddr.toNat = none → ∃ t, exec (.gridCompletion g) s = .next t ∧ s.Ended t g 0 ∧
      let a := s.place x.job x.record.caddr.toNat
      (x.record.caddr = 0 → t.mem = s.mem) ∧
      (x.record.caddr ≠ 0 → Memory.read t.mem a 8 = x.record.cvalue.toNat ∧
        ∀ i, (i < a ∨ a + 8 ≤ i) → t.mem.byte i = s.mem.byte i))) ∧
  (∀ (s : State) (g : Nat), s.MayEnd g → (s.grid g).isTask = false → s.jobIn (s.grid g).job .out = false →
    ∃ t, exec (.gridCancel g) s = .next t ∧ s.Ended t g 0x101) ∧
  (∀ (s : State) (n : Notice) (j : Job), s.job? n.job = some j → s.tagJob j.spec.jtag = some n.job →
    isRemote (128 * n.line) = true → s.dieReset = none →
    let k : TaskId := { job := n.job, rec' := n.task }
    let rest := s.remoteSubs.filter fun x => !(x.1 == k && x.2.1 == n.line)
    let ahead : Packet → Prop := fun q => q.jtag = j.spec.jtag ∧ q.src = chipOf (128 * n.line) ∧ q.dst = s.chip n.job ∧
      q.posted = true
    ((∃ q ∈ s.fabric.inward, ahead q) → ∃ p : Packet, p.kind = 4 ∧ p.src = chipOf (128 * n.line) ∧ p.task = n.task ∧
      p.grade = n.grade ∧ (p.redOp = 1 ↔ n.refire = true) ∧
      exec (.gradeNotice n) s = .next { s with fabric := { s.fabric with inward := s.fabric.inward ++ [p] } }) ∧
    ((∀ q ∈ s.fabric.inward, ¬ ahead q) →
    (j.sw ≠ .running → ∃ t, exec (.gradeNotice n) s = .next t ∧ t.remoteSubs = s.remoteSubs) ∧
    (j.sw = .running → (∀ x ∈ s.remoteSubs, x.1 ≠ k ∨ x.2.1 ≠ n.line) → exec (.gradeNotice n) s = .next s) ∧
    (j.sw = .running → (∃ x ∈ s.remoteSubs, x.1 = k ∧ x.2.1 = n.line) → s.tState k ≠ 2 → s.tState k ≠ 3 →
      ∃ t, exec (.gradeNotice n) s = .next t ∧
        t.remoteSubs = if n.refire = false ∧ n.grade ≠ 3 then rest ++ [(k, n.line, n.grade)] else rest))) ∧
  ∀ (s : State) (u : Nat) (w : Tbl (List Nat)),
    let wrote := fun d => writtenBy w d
    let home := s.homeDie (65536 * u)
    let moves := fun d => d < 4 ∧ d ≠ home ∧ s.running d = true ∧ 2 * wrote home ≤ wrote d ∧ 64 ≤ wrote d
    let due := s.epochAt + 100000 ≤ s.time
    let again := { s with epoch := [], epochAt := s.epochAt + (s.time - s.epochAt) / 100000 * 100000 }
    (¬ due → exec .homeMigrationEpoch s = .next s) ∧
    (due → s.migr.getLsbD 0 = true → exec .homeMigrationEpoch s = .next again) ∧
    (due → s.migr.getLsbD 0 = false → s.epoch = [(u, w)] → Tbl.find s.moves u = none → (∀ d, wrote d ≤ 512) →
      (∀ d, moves d → (∀ e, e < 4 → e ≠ home → e ≠ d → wrote e < wrote d) →
        exec .homeMigrationEpoch s = .next { again with moves := Tbl.put s.moves u { dst := d, held := [] } }) ∧
      ((∀ d, ¬ moves d) → exec .homeMigrationEpoch s = .next again))

/-- R321 to R324, R328 to R336, R346 to R348, R382: lease windows and their checks; the clock, the timer, the watchdog and the
awaited event; fault entries and their answers; pre-emption; run queues; configuration registers; doorbells. What field
firmware does has an effect only while an accepted image of it runs (R384). The model's own choices: the free-running indexes of a
launch ring and its address in HBM (log entry 51), a written value outside a register's limits (log entry 22), WCBAGE as one
value of the device (log entry 62), and the instants at which a lease window's plan takes effect (log entry 63). -/
def Obligations.ManagementEvents : Prop :=
  (∀ (s : State) (core : Nat),
    let c := s.core core
    let due := 4096 * c.windows ≤ s.clk core
    (¬ due → exec (.leaseWindow core) s = .next s) ∧
    (due → ∃ t, exec (.leaseWindow core) s = .next t ∧
      { t.core core with admitted := [] } = { c with
        admitted := [], voff := c.voffNext, derate := c.derateNext,
        windows := c.windows + 1, checks := 0, winHits := 0, winMisses := 0 } ∧
      (∀ g, g ∉ s.coreGroups core → t.grp g = s.grp g) ∧
      ∀ g ∈ s.coreGroups core, (Tbl.find s.groups g).isSome = true →
        let x := s.grp g
        let n := if (s.blockOf g).record.meas then max x.leaseNext ((x.touched.length * 2048 + 4095) / 4096) else x.leaseNext
        (t.grp g).lease = (if x.misses < 16 * x.hits then max (n + 1) ((5 * n + 3) / 4) else n) ∧ (t.grp g).hits = 0 ∧
          (t.grp g).misses = 0 ∧ (t.grp g).touched = [] ∧ ((t.grp g).admitted = true ↔ g ∈ (t.core core).admitted) ∧
          (63 ≤ x.skipped → (t.grp g).admitted = true))) ∧
  (∀ (s : State) (core : Nat),
    let c := s.core core
    let due := c.windows ≠ 0 ∧ 4096 * (c.windows - 1) + 256 * (c.checks + 1) ≤ s.clk core
    (¬ due → exec (.victimHitCheck core) s = .next s) ∧
    (due → (c.winMisses < 8 * c.winHits → ∀ l g, c.admitted = l ++ [g] → l ≠ [] → (Tbl.find s.groups g).isSome = true →
        ∃ t, exec (.victimHitCheck core) s = .next t ∧ (t.core core).admitted = l ∧ (t.core core).checks = c.checks + 1 ∧
          (t.grp g).admitted = false) ∧
      ((8 * c.winHits ≤ c.winMisses ∨ c.admitted.length ≤ 1) →
        exec (.victimHitCheck core) s = .next (s.setCore core { c with checks := c.checks + 1 })))) ∧
  (∀ (s : State) (k : Nat),
    let passed := 1000 * s.parkth.toNat ≤ (s.stk k).clock ∧ s.clockRuns k = true
    (¬ passed → exec (.parkingThreshold k) s = .next s) ∧
    (passed → s.MayPark k → ∃ t, exec (.parkingThreshold k) s = .next t ∧ s.Parked t k 1 0)) ∧
  (∀ (s : State) (d : Nat) (e : FqEntry) (es : List FqEntry),
    let x := s.die d
    let a := x.fqBase.toNat + 32 * x.fqTail
    (x.fqWait = [] ∨ x.fqRoom = false ∨ s.unitHeld a = true → exec (.faultQueueAppend d) s = .next s) ∧
    (x.fqWait = e :: es → x.fqRoom = true → s.unitHeld a = false → s.cranges = [] → ∃ t, exec (.faultQueueAppend d) s = .next t ∧
      t.die d = { x with fqWait := es, fq := Tbl.put x.fq x.fqTail e, fqTail := (x.fqTail + 1) % 4096 } ∧
      Memory.read t.mem a 32 = e.image % 256 ^ 32 ∧ ∀ i, (i < a ∨ a + 32 ≤ i) → t.mem.byte i = s.mem.byte i)) ∧
  (∀ (s : State) (k : Nat),
    let ms := (s.stk k).members
    let clear := ∀ b ∈ ms, s.pendOf b = 0
    let met := ∃ b ∈ ms, s.blockMet b = true
    let gone := ∃ b ∈ ms, ∃ f, (s.blk b).frame = some f ∧ f.reason = 2 ∧ f.timer ≤ s.time
    (met → clear → ∃ t, exec (.relaunchSignal k) s = .next t ∧ s.FramesReady t k) ∧
    (¬ met ∨ ¬ clear → exec (.relaunchSignal k) s = .next s) ∧
    (gone → clear → ∃ t, exec (.parkTimerExpiry k) s = .next t ∧ s.FramesReady t k) ∧
    (¬ gone ∨ ¬ clear → exec (.parkTimerExpiry k) s = .next s)) ∧
  (∀ (s : State) (b : Nat),
    let passed := s.wdog ≠ 0 ∧ 1000000 * s.wdog.toNat < (s.blk b).wdog
    (¬ passed → exec (.watchdogExpiry b) s = .next s) ∧
    (passed → s.blkTask b = none → s.MayEnd (s.blk b).grid →
      ∃ t, exec (.watchdogExpiry b) s = .next t ∧ s.Ended t (s.blk b).grid 0x1C)) ∧
  (∀ (s : State) (d : Nat) (idx : BitVec 12),
    let e? := Tbl.find (s.die d).fq idx.toNat
    (s.root.runs .field = false → exec (.fqcmdResolve d idx) s = .next s ∧ exec (.fqcmdCancel d idx) s = .next s) ∧
    (e? = none → exec (.fqcmdResolve d idx) s = .next s ∧ exec (.fqcmdCancel d idx) s = .next s) ∧
    ∀ e, e? = some e → (Tbl.find s.blocks e.blk).isSome = true → s.root.runs .field = true →
      (∃ t, exec (.fqcmdResolve d idx) s = .next t ∧ Tbl.find (t.die d).fq idx.toNat = none ∧
        (t.blk e.blk).cancelled = (s.blk e.blk).cancelled ∧
        ((∀ m ∈ (s.stk (s.blk e.blk).stook).members, t.pendOf m = 0) →
          ∀ m ∈ (s.stk (s.blk e.blk).stook).members, ∀ f, (t.blk m).frame = some f → 3 ≤ f.reason → f.ready = true)) ∧
      ((e.copy = 0 ∨ e.halt = .again) → e.kind ≠ 8 → e.halt ≠ .other →
        ∃ t, exec (.fqcmdCancel d idx) s = .next t ∧ Tbl.find (t.die d).fq idx.toNat = none ∧
          (t.blk e.blk).cancelled = (s.blk e.blk).cancelled ++
            [{ gid := e.gid, acc := if e.halt = .again then e.copy else 0, addr := e.va, lane := e.lane,
               trap := e.halt == .trap }])) ∧
  (∀ (s : State) (k : Nat) (i : Instr) (p : Block → Prop),
    ((∃ job, i = .preemptJob job ∧ p = fun b => b.job = job) ∨ (∃ core, i = .preemptCore core ∧ p = fun b => b.core = core) ∨
      (∃ num g, i = .preemptGrid num ∧ s.gridNumbered num = some g ∧ s.blocksOf g ≠ [] ∧
        (∀ b ∈ s.blocksOf g, s.childGrids b = []) ∧ p = fun b => b.grid = g)) →
    ((s.root.runs .field = false ∨ ∀ b ∈ s.blocks, ¬ (b.2.resident = true ∧ p b.2)) → exec i s = .next s) ∧
    (s.root.runs .field = true → (∃ b ∈ s.blocks, b.2.resident = true ∧ p b.2) →
      (∀ b ∈ s.blocks, b.2.resident = true → p b.2 → b.2.stook = k) →
      s.MayPark k → ∃ t, exec i s = .next t ∧ s.Parked t k 4 0)) ∧
  (∀ (s : State) (q : BitVec 16),
    (s.root.runs .field = false → exec (.rqregRegister q) s = .next s ∧ exec (.rqregDeregister q) s = .next s) ∧
    ((q.toNat ∈ s.runqs ∨ 64 ≤ s.runqs.length) → exec (.rqregRegister q) s = .next s) ∧
    (s.root.runs .field = true → q.toNat ∉ s.runqs → s.runqs.length < 64 →
      exec (.rqregRegister q) s = .next { s with runqs := s.runqs ++ [q.toNat] }) ∧
    (s.root.runs .field = true → ∃ t, exec (.rqregDeregister q) s = .next t ∧ { t with runqs := [] } = { s with runqs := [] } ∧
      ∀ n, n ∈ t.runqs ↔ n ∈ s.runqs ∧ n ≠ q.toNat)) ∧
  (∀ (s : State) (body : Body) (v q core : Nat),
    let runs := s.root.booted = true ∧ (body = .field → s.root.fieldImg ≠ none)
    let at' := fun (r : ConfigReg) (ok : Prop) (u : State) => runs →
      (ok → exec (.registerWrite body r v) s = .next u) ∧ (¬ ok → exec (.registerWrite body r v) s = .next s)
    let rooted := fun (r : ConfigReg) (ok : Prop) (u : State) =>
      (body = .root → at' r ok u) ∧
      (body = .field → runs → exec (.registerWrite body r v) s = .next { s with root := { s.root with refusals := s.root.refusals + 1 } })
    (∀ r, ¬ runs → exec (.registerWrite body r v) s = .next s) ∧
    rooted (.lqBase q) (v % 256 = 0 ∧ q < 60) (s.setLq q { s.lq q with base := v }) ∧
    rooted (.lqSize q) ((∃ i, i < 16 ∧ v = 2 ^ (i + 1)) ∧ q < 60) (s.setLq q { s.lq q with size := v }) ∧
    rooted (.lqJob q) (q < 60) (s.setLq q { s.lq q with job := BitVec.ofNat 32 v }) ∧
    at' .wcbAge (1 ≤ v ∧ v ≤ 256) { s with fabric := { s.fabric with wcbAge := v } } ∧
    (v < 2 ^ 32 → core < 256 → at' (.sys 0 core 0x08) (1 ≤ v ∧ v ≤ 10000) { s with parkth := BitVec.ofNat 32 v } ∧
      at' (.sys 1 core 0x08) False s)) ∧
  ∀ (s : State) (q v : Nat),
    let l := s.lq q
    let a := l.base + 256 * (l.head % l.size)
    ((s.root.booted = false ∨ 60 ≤ q ∨ 2 ^ 32 ≤ v ∨ l.size < (v + 2 ^ 32 - l.head) % 2 ^ 32) → exec (.lqtail q v) s = .next s) ∧
    (s.root.booted = true → s.unitHeld a = false → s.cranges = [] → q < 60 → l.head < 2 ^ 32 → v = (l.head + 1) % 2 ^ 32 →
      1 ≤ l.size → l.size ≤ 65536 → l.job ≠ 0xFFFFFFFF →
      ∃ t, exec (.lqtail q v) s = .next t ∧ t.lq q = { l with head := v, tail := v } ∧
        (Tbl.find t.waiting q).getD [] = (Tbl.find s.waiting q).getD [] ++ [s.nextId] ∧
        (t.grid s.nextId).record = LRec.ofBits (Memory.read s.mem a 256) ∧ (t.grid s.nextId).job = l.job.toNat ∧
        (t.grid s.nextId).queue = q)

/-- R355 to R374, R385: packets that reach their target, entries that age, routes, links, and a job's switch out and in. The
model's own choices: a link that stops to carry a channel starts a table update (log entry 89), a halted job's packets on their
way out are performed and those of one that is out are not (log entry 60), and the overflow zone with the drop of a late packet
(log entry 59). -/
def Obligations.FabricEvents : Prop :=
  (∀ (s : State) (inward : Bool) (n : Nat) (p : Packet),
    let ps := if inward then s.fabric.inward else s.fabric.outward
    let gone : State → Prop := fun t => (if inward then t.fabric.inward else t.fabric.outward) = ps.eraseIdx n
    (ps[n]? = none → exec (.remotePacketReceive inward n) s = .next s) ∧
    (ps[n]? = some p →
      ((∃ q ∈ ps.take n, mayPass p q = false) → exec (.remotePacketReceive inward n) s = .next s) ∧
      ((∀ q ∈ ps.take n, mayPass p q = true) → inward = false →
        (s.jobIn (s.jobOfPacket p) .out = true → exec (.remotePacketReceive inward n) s = .next s) ∧
        (s.jobIn (s.jobOfPacket p) .out = false → p.kind.toNat ≤ 1 → Tbl.rising p.bytes = true →
          ∃ t, exec (.remotePacketReceive inward n) s = .next t ∧ gone t ∧
            (∀ b ∈ p.bytes, t.mem.byte (chipBase (s.jobOfPacket p) p.dst + b.1) = b.2) ∧
            ∀ x, (∀ b ∈ p.bytes, x ≠ chipBase (s.jobOfPacket p) p.dst + b.1) → t.mem.byte x = s.mem.byte x)) ∧
      ((∀ q ∈ ps.take n, mayPass p q = true) → inward = true →
        ((s.tagJob p.jtag = none ∨ knownKind p.kind = false) → ∃ t, exec (.remotePacketReceive inward n) s = .next t ∧
          gone t ∧ t.fabric.dropCnt = s.fabric.dropCnt + 1 ∧ t.mem = s.mem ∧ t.jobs = s.jobs) ∧
        ∀ job j, s.tagJob p.jtag = some job → s.job? job = some j →
          (j.sw ≠ .halted → s.inwardHeld p = true → exec (.remotePacketReceive inward n) s = .next s) ∧
          (j.sw = .running → s.inwardHeld p = false → p.kind.toNat ≤ 1 → Tbl.rising p.bytes = true →
            s.commAt job p.addr.toNat = none →
            (∀ b ∈ p.bytes, ∀ c ∈ p.bytes, ∀ x, s.homeLoc job b.1 = some x → s.homeLoc job c.1 = some x → b = c) →
            ∃ t, exec (.remotePacketReceive inward n) s = .next t ∧ gone t ∧
              (∀ b ∈ p.bytes, ∀ x, s.homeLoc job b.1 = some x → t.mem.byte x = b.2) ∧
              ∀ x, (∀ b ∈ p.bytes, s.homeLoc job b.1 ≠ some x) → t.mem.byte x = s.mem.byte x) ∧
          (j.sw ≠ .running → (j.sw = .out → s.inwardHeld p = false) → knownKind p.kind = true →
            ∃ t, exec (.remotePacketReceive inward n) s = .next t ∧ gone t ∧
            s.Swept t job (j.sw == .out) p)))) ∧
  (∀ (s : State) (core n : Nat) (e : WcbEntry),
    ((s.core core).wcb[n]? = none → exec (.wcbAgeExpiry core n) s = .next s) ∧
    ((s.core core).wcb[n]? = some e → s.time < e.opened + 250 * s.fabric.wcbAge →
      exec (.wcbAgeExpiry core n) s = .next s) ∧
    ((s.core core).wcb[n]? = some e → e.opened + 250 * s.fabric.wcbAge ≤ s.time →
      ∃ t, exec (.wcbAgeExpiry core n) s = .next t ∧ (∀ x, x ∈ (t.core core).wcb ↔ x ∈ (s.core core).wcb ∧ x ≠ e) ∧
        t.mem = s.mem ∧ ∃ qs, t.fabric.outward = s.fabric.outward ++ qs ∧ ∀ q ∈ qs, q.dst = e.chip ∧ q.jtag = s.jtag e.job)) ∧
  (∀ s : State,
    let begun : Fabric := { s.fabric with colour := !s.fabric.colour, retiring := true, updateDue := false }
    let left := ∃ p ∈ s.fabric.outward, p.colour ≠ s.fabric.colour
    (s.fabric.retiring = true → exec .routeTableUpdate s = .next { s with fabric := { s.fabric with updateDue := true } }) ∧
    (s.fabric.retiring = false → exec .routeTableUpdate s = .next { s with fabric := begun }) ∧
    (s.fabric.retiring = false ∨ left → exec .routeColourRetire s = .next s) ∧
    (s.fabric.retiring = true → ¬ left → s.fabric.updateDue = false →
      exec .routeColourRetire s = .next { s with fabric := { s.fabric with retiring := false } }) ∧
    (s.fabric.retiring = true → ¬ left → s.fabric.updateDue = true → exec .routeColourRetire s = .next { s with fabric := begun })) ∧
  (∀ (s : State) (link cells : Nat),
    let old := (Tbl.find s.fabric.links link).getD 8
    let now := min old cells
    let less : Fabric := { s.fabric with links := Tbl.put s.fabric.links link now }
    let same := (8 ≤ now ↔ 8 ≤ old) ∧ (4 ≤ now ↔ 4 ≤ old)
    (same → exec (.linkBufferDegrade link cells) s = .next { s with fabric := less }) ∧
    (¬ same → s.fabric.retiring = true → exec (.linkBufferDegrade link cells) s =
      .next { s with fabric := { less with updateDue := true } }) ∧
    (¬ same → s.fabric.retiring = false → exec (.linkBufferDegrade link cells) s =
      .next { s with fabric := { less with colour := !s.fabric.colour, retiring := true, updateDue := false } })) ∧
  (∀ (s : State) (job panel : Nat) (out : Bool) (stamp : Nat) (j : Job),
    s.job? job = some j →
    let fit := j.spec.panel = panel ∧ s.time + 2000 ≤ stamp ∧ j.outStamp = none ∧ j.inStamp = none ∧ s.dieReset = none
    (fit → out = true → j.sw = .running →
      exec (.jobSwitchCommand job panel out stamp) s = .next (s.setJob job { j with outStamp := some stamp })) ∧
    (fit → out = false → j.sw = .out →
      exec (.jobSwitchCommand job panel out stamp) s = .next (s.setJob job { j with inStamp := some stamp })) ∧
    ((¬ fit ∨ (out = true ∧ j.sw ≠ .running) ∨ (out = false ∧ j.sw ≠ .out)) →
      exec (.jobSwitchCommand job panel out stamp) s = .next s)) ∧
  (∀ (s : State) (job : Nat) (j : Job), s.job? job = some j →
    ((∀ stamp, j.outStamp = some stamp → s.time < stamp) → exec (.switchOutStamp job) s = .next s) ∧
    (∀ stamp, j.outStamp = some stamp → stamp ≤ s.time →
      ∃ t, exec (.switchOutStamp job) s = .next t ∧ t.job? job = some { j with sw := .halted, outStamp := none, seq := 0 } ∧
        (∀ c x, x ∈ (t.core c).wcb ↔ x ∈ (s.core c).wcb ∧ x.job ≠ job) ∧ t.mem = s.mem ∧ t.groups = s.groups ∧
        t.blocks = s.blocks ∧ ∃ qs, t.fabric.outward = s.fabric.outward ++ qs ∧ ∀ q ∈ qs, q.jtag = j.spec.jtag) ∧
    (∀ k, j.sw = .halted → s.jobHalted job = true → (∀ p ∈ s.fabric.inward, s.jobOfPacket p ≠ job) →
      (∀ x ∈ s.gstores, x.task.job ≠ job) → (∀ b ∈ s.blocks, b.2.job = job → b.2.resident = true → b.1 ∈ (s.stk k).members) →
      (s.jobStooks job = [] ∨ (s.jobStooks job = [k] ∧ s.MayPark k)) →
      ∃ t, exec (.switchSeal job) s = .next t ∧ t.jobIn job .out = true ∧ (s.jobStooks job = [k] → s.Parked t k 5 0) ∧
        (∀ q ∈ t.runqs, ∀ e ∈ (t.bq q).items, e.job ≠ job) ∧ ∀ x ∈ t.subs, x.task.job ≠ job) ∧
    ((j.sw ≠ .halted ∨ s.jobHalted job = false) → exec (.switchSeal job) s = .next s) ∧
    (∀ stamp, j.inStamp = some stamp → stamp ≤ s.time → j.sw = .out → j.sealedRecs = [] → j.overflow = [] →
      j.dropPending = false → j.ready = [] → (∀ g ∈ s.groups, s.jobOf g.1 = job → ∀ a ∈ g.2.out, a.st ≠ .kept) →
      ∃ t, exec (.switchInStamp job) s = .next t ∧
        t.job? job = some { j with
          sw := .running, inStamp := none, lateLast := 0, switchIns := j.switchIns + 1, subs := [], writers := [] } ∧
        t.subs = s.subs ++ j.subs ∧ t.mem = s.mem ∧
        ∀ b f, (s.blk b).job = job → (Tbl.find s.blocks b).isSome = true → (s.blk b).frame = some f → f.hold = 5 →
          ∃ f', (t.blk b).frame = some f' ∧ f'.hold = 0 ∧
            ((∀ m ∈ (s.stk (s.blk b).stook).members, s.pendOf m = 0) → b ∈ (s.stk (s.blk b).stook).members →
              4 ≤ f.reason → f'.ready = true)) ∧
    ((∀ stamp, j.inStamp = some stamp → s.time < stamp ∨ j.sw ≠ .out) → exec (.switchInStamp job) s = .next s)) ∧
  ∀ (s : State) (p : Packet),
    (∀ job, s.tagJob p.jtag = some job → s.jobIn job .out = true →
      (knownKind p.kind = false → exec (.latePacket p) s =
        .next { s with fabric := { s.fabric with dropCnt := s.fabric.dropCnt + 1 } }) ∧
      (knownKind p.kind = true → s.inwardHeld p = false → ∃ t, exec (.latePacket p) s = .next t ∧ s.Swept t job true p)) ∧
    ((s.tagJob p.jtag = none ∨ s.jobIn (s.jobOfPacket p) .out = false ∨ s.inwardHeld p = true) →
      exec (.latePacket p) s = .next { s with fabric := { s.fabric with inward := s.fabric.inward ++ [p] } })

/-- R342, R350, R381, R383 to R389: the events of a die's warm reset, the power limiter, firmware and identity, jobs, the host
and the module. The model's own choices: a device reset returns all state and memory to that of State.reset (log entry 20), the
six firings of a die's warm reset and what its last step clears (log entry 21), and what JOB_CREATE asks and JOB_END discards
(log entry 61). -/
def Obligations.ModuleEvents : Prop :=
  (∀ (s : State) (die : Nat),
    let switching := ∃ j ∈ s.jobs, j.2.outStamp ≠ none ∨ j.2.sw = .halted
    (s.dieReset = none → (4 ≤ die ∨ s.root.booted = false ∨ switching) → exec (.dieWarmReset die) s = .next s) ∧
    (s.dieReset = none → die < 4 → s.root.booted = true → ¬ switching →
      (∀ b ∈ s.blocks, b.2.resident = true → b.2.core / 64 ≠ die) →
      exec (.dieWarmReset die) s = .next { s with dieReset := some { die := die, step := 1, homes := [], sent := [], sentQ := [] } }) ∧
    (∀ r, s.dieReset = some r → r.die ≠ die → exec (.dieWarmReset die) s = .next s) ∧
    (∀ r, s.dieReset = some r → r.die = die →
      (r.step = 1 → (∃ b ∈ s.blocks, b.2.resident = true ∧ b.2.core / 64 = die) → exec (.dieWarmReset die) s = .next s) ∧
      (r.step = 1 → (∀ b ∈ s.blocks, b.2.resident = true → b.2.core / 64 ≠ die) → ∃ t x,
        exec (.dieWarmReset die) s = .next t ∧ t.dieReset = some x ∧ x.die = die ∧ x.step = 2 ∧
        { t with dieReset := none } = { s with dieReset := none }) ∧
      (r.step = 2 → s.moves = [] → ∃ t, exec (.dieWarmReset die) s = .next t ∧ t.dieReset = some { r with step := 3, homes := s.homes } ∧
        t.mem = s.mem ∧ (∀ b, b ∈ t.hbmOld ↔ b ∈ s.hbmOld ∧ (s.homeDie b.1 ≠ die ∨ s.registered b.1 = true)) ∧
        ∀ u, s.homeDie (65536 * u) = die → t.homeDie (65536 * u) =
          if owner u ≠ die then owner u else if die = 0 then 1 else 0) ∧
      (r.step = 3 → r.sent = [] → r.sentQ = [] → exec (.dieWarmReset die) s = .next { s with dieReset := some { r with step := 4 } }) ∧
      (r.step = 4 → ∃ t, exec (.dieWarmReset die) s = .next t ∧ t.dieReset = some { r with step := 5 } ∧
        ∀ b f, (Tbl.find s.blocks b).isSome = true → (s.blk b).frame = some f → f.hold = 6 → (s.blk b).core / 64 = die →
          ∃ f', (t.blk b).frame = some f' ∧ f'.hold = 0) ∧
      (5 ≤ r.step → ∃ t, exec (.dieWarmReset die) s = .next t ∧ t.dieReset = none ∧
        ∀ c, (c / 64 = die → (t.core c).l1 = [] ∧ (t.core c).ldc = [] ∧ (t.core c).wcb = [] ∧ (t.core c).tlb = [] ∧
          (t.core c).icache = [] ∧ (t.core c).thr = Thresher.free) ∧ (c / 64 ≠ die → t.core c = s.core c)))) ∧
  (∀ s : State, ∃ t u, exec (.powerLimiter true) s = .next t ∧ exec (.powerLimiter false) s = .next u ∧
    t.root.spaceTmac = true ∧ (t.root.spaceLane = true ↔ s.root.spaceTmac = true ∨ s.root.spaceLane = true) ∧
    u.root.spaceLane = false ∧ (u.root.spaceTmac = true ↔ s.root.spaceTmac = true ∧ s.root.spaceLane = true)) ∧
  (∀ (s : State) (nonce : BitVec 256),
    let imgs := s.root.rootImg.toList ++ s.root.fieldImg.toList
    (s.root.booted = false → exec (.identityStatement nonce) s = .next s) ∧
    let measures := imgs.map fun i => i.measure
    let versions := imgs.map fun i => i.keyVersion
    let parts := s.jobs.map fun j => (j.1, (List.range j.2.spec.chips).map fun c => j.2.spec.partitions.getD c j.2.spec.partition)
    let fields := statementFields Config.serial measures versions parts nonce
    (s.root.booted = true → exec (.identityStatement nonce) s = .next { s with root := { s.root with statement := some {
      serial := Config.serial, measures := measures, keyVersions := versions, partitions := parts, nonce := nonce,
      rsa := Config.rsaSign fields, slh := Config.slhSign fields } } })) ∧
  (∀ (s : State) (img : FwImage),
    let accepted := img.rsaOk = true ∧ img.slhOk = true ∧ s.root.fuses ≤ img.keyVersion
    (¬ accepted → exec (.firmwareImageVerify img) s = .next s) ∧
    (accepted → img.root = true → exec (.firmwareImageVerify img) s =
      .next { s with root := { s.root with rootImg := some img, booted := true, recovery := false } }) ∧
    (accepted → img.root = false → s.root.booted = true → exec (.firmwareImageVerify img) s =
      .next { s with root := { s.root with fieldImg := some img } }) ∧
    (img.root = false → s.root.booted = false → exec (.firmwareImageVerify img) s = .next s)) ∧
  (∀ (s : State) (j : JobSpec),
    let ok := s.root.booted = true ∧ s.job? j.job = none ∧ 1 ≤ j.chips ∧ j.chips ≤ 2048 ∧ j.chip < j.chips ∧ j.panel < 32 ∧
      j.jtag < 4096 ∧ j.arenaBase.toNat % 128 = 0 ∧ j.arenaSize ≤ 2 ^ 32 ∧ j.job < 2 ^ 32 - 1
    (ok → ∃ t x, exec (.jobCreate j) s = .next t ∧ t = s.setJob j.job x ∧ x.spec = j ∧ x.sw = .running ∧
      x.sealedRecs = [] ∧ x.overflow = [] ∧ x.lateLast = 0 ∧ x.lateDropped = 0 ∧ x.switchIns = 0) ∧
    (¬ ok → exec (.jobCreate j) s = .next s)) ∧
  (∀ (s : State) (job : Nat) (rest : List Action),
    let quiet := s.binderHeld = false ∧ (∀ g ∈ s.grids, g.2.job = job → g.2.isTask = true ∨ g.2.ended = true) ∧
      ∀ r ∈ s.tasks, r.id.job ≠ job
    (s.job? job = none → exec (.jobEnd job) s = .next s) ∧
    (∀ j, s.job? job = some j → quiet → exec (.jobEnd job) s = .next (s.setJob job { j with ending := true })) ∧
    (s.schedule = .event (.jobEnd job) :: rest → s.job? job ≠ none → quiet → s.stops = [] → s.todoHeld = [] →
      (∀ b ∈ s.blocks, b.2.parkReq = none) → (∀ j ∈ s.jobs, j.2.ending = false) →
      ∃ t, step s = .next t ∧ t.job? job = none ∧ t.mem = s.mem ∧ (∀ r ∈ t.cranges, r.job ≠ job) ∧
        (∀ r ∈ t.granges, r.job ≠ job) ∧ (∀ g ∈ t.grids, g.2.job ≠ job) ∧ (∀ r ∈ t.tasks, r.id.job ≠ job) ∧
        ∀ b ∈ t.blocks, b.2.job ≠ job)) ∧
  (∀ (s : State) (addr n : Nat),
    (s.spanHeld addr n = true → exec (.hostCxlRead addr n) s = .next s) ∧
    (s.spanHeld addr n = false → Config.hbmBytes < addr + n → exec (.hostCxlRead addr n) s = .fault (.cxlOutsideHbm addr)) ∧
    (s.spanHeld addr n = false → addr + n ≤ Config.hbmBytes →
      let u := s.combineOver addr n
      (s.cranges = [] → u = s) ∧ ∃ t, exec (.hostCxlRead addr n) s = .next t ∧ t.cxlData.length = n ∧
      { t with cxlData := [], freeCount := 0 } = { u with cxlData := [], freeCount := 0 } ∧
      ∀ i, i < n → (Tbl.find u.hbmOld (addr + i) = none → t.cxlData[i]? = some (u.mem.byte (addr + i))) ∧
        (t.cxlData[i]? = some (u.mem.byte (addr + i)) ∨ t.cxlData[i]? = Tbl.find u.hbmOld (addr + i)))) ∧
  (∀ (s : State) (addr : Nat) (bs : List (BitVec 8)),
    (s.spanHeld addr bs.length = true → exec (.hostCxlWrite addr bs) s = .next s) ∧
    (s.spanHeld addr bs.length = false → Config.hbmBytes < addr + bs.length →
      exec (.hostCxlWrite addr bs) s = .fault (.cxlOutsideHbm addr)) ∧
    (s.spanHeld addr bs.length = false → addr + bs.length ≤ Config.hbmBytes → s.cranges = [] →
      ∃ t, exec (.hostCxlWrite addr bs) s = .next t ∧
      (∀ i, i < bs.length → t.mem.byte (addr + i) = bs.getD i 0 ∧ Tbl.find t.hbmOld (addr + i) = none) ∧
      (∀ x, (x < addr ∨ addr + bs.length ≤ x) → t.mem.byte x = s.mem.byte x) ∧ t.groups = s.groups)) ∧
  (∀ (s : State) (addr : Nat), ∃ t, exec (.eccUncorrectableError addr) s = .next t ∧
    { t with poison := [] } = { s with poison := [] } ∧ ∀ l, l ∈ t.poison ↔ l = addr / 128 ∨ l ∈ s.poison) ∧
  ∀ (s : State) (img : FwImage), ∃ t, exec (.deviceReset img) s = .next t ∧
    { t with root := Root.off, schedule := [], freeCount := 0, time := 0, resetAt := 0, epochAt := 0 } =
      { State.reset with root := Root.off, schedule := [], freeCount := 0, time := 0, resetAt := 0, epochAt := 0 } ∧
    t.schedule = s.schedule ∧ t.time = s.time ∧ t.resetAt = s.time ∧ t.epochAt = s.time ∧ t.freeCount = s.freeCount ∧
    t.root.fuses = s.root.fuses ∧ (t.root.booted = true ↔ img.root = true ∧ img.rsaOk = true ∧ img.slhOk = true ∧
      s.root.fuses ≤ img.keyVersion) ∧ t.root.recovery = !t.root.booted ∧ ∀ c, t.clk c = 0

/-! ### Encoding, stepping, reset and the invariant -/

/-- R33, R41 to R58, on words the spec writes out: each decodes, in its class, to the instruction it stands for. -/
def Obligations.SpecWordsDecode : Prop :=
  decodeWord .alu false 0x0001208008000000 = .ok (.iadd ⟨.v 4, .q 0, .v 2, false, 0⟩) ∧
  decodeWord .alu false 0x0A01600C08000000 = .ok (.shl ⟨.v 5, .y 0, .imm 2, false, 0⟩) ∧
  decodeWord .alu false 0x13024010080300E8 = .ok (.tri 0xE8 ⟨.v 9, .v 1, .v 2, .v 3, false, 0⟩) ∧
  decodeWord .alu false 0x43030040140C0000 = .ok (.ffma .rn ⟨.v 12, .v 4, .v 5, .v 12, false, 0⟩) ∧
  decodeWord .alu false 0xA44780C47C000000 = .ok (.samplecat ⟨.s 30, .v 12, .s 31, false, 0⟩) ∧
  decodeWord .flow false 0x0000000FFFFFFF70 = .ok (.jmp 0xFFFFFFF7) ∧
  decodeWord .mem false 0x00020040026B8D00 = .ok (.ld ⟨.v 8, .v 4, .acq, .dev, 3, .f32, 0, false, .vec⟩ 2 3 2) ∧
  decodeWord .reap false 0x02001144611A1000 = .ok (.rcopy (.s 20) (.s 24) (.s 26) 2 0) ∧
  decodeWord .reap true 0x1400014C10000004 = .ok (.qput .f32 false 0 20 (.imm 4)) ∧
  decodeWord .table false 0x1800302000000001 = .ok (.tbar false 1 (.imm 2)) ∧
  decodeWord .task false 0x004A114000000800 = .ok (.tspawn 40 20 1 0) ∧
  decodeWord .fab false 0x0243000000000004 = .ok (.jobq 4 12 0) ∧
  decodeWord .sys false 0x0200000000000001 = .ok (.eret true 0)

/-- R41 to R58: the word that encodes a well-formed instruction decodes to it, with every operand, so no two well-formed
instructions share a word of one class; every well-formed instruction but the table's events has its word; and what decodes is well
formed. -/
def Obligations.EncodeDecodeRoundTrip : Prop :=
  (∀ (i : Instr) c sh w, encode i = some (c, sh, w) → i.wf = true → decodeWord c sh w = .ok i) ∧
  (∀ (i j : Instr) c sh w, encode i = some (c, sh, w) → encode j = some (c, sh, w) → i.wf = true → j.wf = true → i = j) ∧
  (∀ i : Instr, i.wf = true → i.fromSchedule = false → ∃ c sh w, encode i = some (c, sh, w) ∧ decodeWord c sh w = .ok i) ∧
  ∀ (i : Instr) c sh w, decodeWord c sh w = .ok i → i.wf = true ∧ i.fromSchedule = false

/-- R32 to R38, R58, R325: when the word at which a context stands is fetched and decodes, the step is that instruction's
meaning in the state that has read it, followed for a lane group by what the end of a word leads to; an event taken from the
schedule is its meaning. -/
def Obligations.StepRunsDecodedWord : Prop :=
  (∀ (s s0 : State) (g : Nat) (c : Clause) (loc : Nat) (w : Dword) (cl : Cls) (i : Instr),
    (s.schedule = [] ∧ s.issuer = .lane g ∧ (s.grp g).heldAt = false ∧ s0 = s) ∨
      (∃ core slot rest, s.schedule = .word core slot :: rest ∧ s0 = { s with schedule := rest } ∧
        Tbl.find (s.core core).serving slot = some g) →
    (s0.grp g).clause = some c → s0.stopped g = false → s0.cancelledOf g = none → (s0.grp g).resumed = false →
    s0.fetchHeld (s0.coreOf g) (s0.jobOf g) c.pc = false → s0.outsideJob (s0.jobOf g) loc = false →
    s0.fetch (s0.coreOf g) (s0.jobOf g) c.pc = (.ok loc, w) → (Header.unpack c.head).wordClass c.idx = some cl →
    decodeWord cl false w = .ok i → c.earlyBad w = false →
    let r := (s0.readCode (s0.coreOf g) (s0.jobOf g) c.pc loc w).setGrp g (s0.grp g)
    let t : State := { r with issuer := .lane g }
    (∀ u, exec i t = .next u → step s = .next (t.after g u).quiesce) ∧
    (∀ f, exec i t = .fault f → step s = .fault f) ∧ ∀ f, exec i t = .refused f → step s = .refused f) ∧
  (∀ (s : State) (g : Nat) (c : Clause) (loc : Nat) (w : Dword) (i : Instr), s.schedule = [] → s.issuer = .slice g →
    s.sliceRuns g = true → (s.grp g).slice.clause = some c →
    s.fetchHeld (s.coreOf g) (s.jobOf g) c.pc = false → s.outsideJob (s.jobOf g) loc = false →
    s.fetch (s.coreOf g) (s.jobOf g) c.pc = (.ok loc, w) → decodeWord .reap true w = .ok i →
    StepsAs s i (s.readCode (s.coreOf g) (s.jobOf g) c.pc loc w)) ∧
  (∀ (s : State) (core : Nat) (c : Clause) (loc : Nat) (w : Dword) (i : Instr), s.schedule = [] → s.issuer = .stream core →
    s.streamRuns core = true → (s.thr core).clause = some c →
    s.fetchHeld core (s.blk (s.thrBlk core)).job c.pc = false → s.outsideJob (s.blk (s.thrBlk core)).job loc = false →
    s.fetch core (s.blk (s.thrBlk core)).job c.pc = (.ok loc, w) → decodeWord .table false w = .ok i →
    StepsAs s i (s.readCode core (s.blk (s.thrBlk core)).job c.pc loc w)) ∧
  ∀ (s : State) (e : Instr) (rest : List Action), s.schedule = .event e :: rest → e.isEvent = true →
    StepsAs s e { s with schedule := rest }

/-- R321, R329, R350, R357: what the spec states of the device after reset: clk counts from 0, PARKTH is 20, ADMIT 12 and
WCBAGE 2 µs. Beside it, the model's own choice of what the spec leaves out (log entries 1 and 17): no block is resident,
no launch queue has a job, every byte reads as an unlisted one does, and the invariant of StepKeepsInvariant holds. -/
def Obligations.ResetState : Prop :=
  (∀ c, State.reset.clk c = 0) ∧ State.reset.parkth = 20 ∧ State.reset.admitReg = 12 ∧
  250 * State.reset.fabric.wcbAge = 2000 ∧
  (∀ c, State.reset.thr c = Thresher.free ∧ State.reset.residents c = []) ∧
  (∀ q, (State.reset.lq q).job = 0xFFFFFFFF) ∧ (∀ a, State.reset.mem.byte a = Memory.blank) ∧ State.reset.Inv

/-- Every step keeps memory and every scratchpad in their one canonical form, whichever context or event moves. -/
def Obligations.StepKeepsInvariant : Prop :=
  ∀ s t : State, s.Inv → step s = .next t → t.Inv

end
end

