-- ==== Sys2Proof/Laws/Table.lean ====
section
/-!
SUPPORT. Keyed tables, byte memory and lanes: what a read gives after a write, and that memory keeps its canonical form.
-/
namespace Sys2Proof.Machine

/-! ### Tables -/

@[simp] theorem Tbl.find_nil {α : Type} (k : Nat) : Tbl.find ([] : Tbl α) k = none := rfl

@[simp] theorem Tbl.find_put_self {α : Type} (t : Tbl α) (k : Nat) (v : α) : Tbl.find (Tbl.put t k v) k = some v := by
  induction t with
  | nil => simp [Tbl.put, Tbl.find]
  | cons h t ih =>
    obtain ⟨j, w⟩ := h
    by_cases hk : k < j
    · simp [Tbl.put, hk, Tbl.find]
    · by_cases he : k = j
      · simp [Tbl.put, he, Tbl.find]
      · simp [Tbl.put, hk, he, Tbl.find, Ne.symm he, ih]

theorem Tbl.find_put_ne {α : Type} (t : Tbl α) {k i : Nat} (v : α) (h : i ≠ k) :
    Tbl.find (Tbl.put t k v) i = Tbl.find t i := by
  induction t with
  | nil => simp [Tbl.put, Tbl.find, Ne.symm h]
  | cons x t ih =>
    obtain ⟨j, w⟩ := x
    by_cases hk : k < j
    · simp [Tbl.put, hk, Tbl.find, Ne.symm h]
    · by_cases he : k = j
      · subst he; simp [Tbl.put, Tbl.find, Ne.symm h]
      · simp only [Tbl.put, hk, he, if_false, Tbl.find]; rw [ih]

theorem Tbl.find_put {α : Type} (t : Tbl α) (k i : Nat) (v : α) :
    Tbl.find (Tbl.put t k v) i = if i = k then some v else Tbl.find t i := by
  by_cases h : i = k
  · subst h; simp
  · simp [h, Tbl.find_put_ne t v h]

@[simp] theorem Tbl.find_del_self {α : Type} (t : Tbl α) (k : Nat) : Tbl.find (Tbl.del t k) k = none := by
  induction t with
  | nil => rfl
  | cons x t ih =>
    obtain ⟨j, w⟩ := x
    by_cases h : j = k
    · simp [Tbl.del, h, ih]
    · simp [Tbl.del, h, Tbl.find, ih]

theorem Tbl.find_del_ne {α : Type} (t : Tbl α) {k i : Nat} (h : i ≠ k) : Tbl.find (Tbl.del t k) i = Tbl.find t i := by
  induction t with
  | nil => rfl
  | cons x t ih =>
    obtain ⟨j, w⟩ := x
    by_cases hj : j = k
    · subst hj; simp [Tbl.del, Tbl.find, Ne.symm h, ih]
    · simp [Tbl.del, hj, Tbl.find, ih]

/-- Every key is above a bound. -/
def Tbl.above {α : Type} : Option Nat → Tbl α → Prop
  | none, _ => True
  | some lo, t => ∀ x ∈ t, lo < x.1

theorem Tbl.risingFrom_cons {α : Type} (lo : Option Nat) (j : Nat) (w : α) (t : Tbl α) :
    Tbl.risingFrom lo ((j, w) :: t) = true ↔ (∀ l, lo = some l → l < j) ∧ Tbl.risingFrom (some j) t = true := by
  cases lo <;> simp [Tbl.risingFrom]

theorem Tbl.rising_weaken {α : Type} (t : Tbl α) : ∀ {lo lo' : Option Nat},
    (∀ l, lo = some l → ∃ l', lo' = some l' ∧ l ≤ l') → Tbl.risingFrom lo' t = true → Tbl.risingFrom lo t = true := by
  cases t with
  | nil => intros; simp [Tbl.risingFrom]
  | cons x t =>
    obtain ⟨j, w⟩ := x
    intro lo lo' h hr
    rw [Tbl.risingFrom_cons] at hr ⊢
    refine ⟨fun l hl => ?_, hr.2⟩
    obtain ⟨l', hl', hle⟩ := h l hl
    exact Nat.lt_of_le_of_lt hle (hr.1 l' hl')

theorem Tbl.rising_put {α : Type} (t : Tbl α) (k : Nat) (v : α) : ∀ {lo : Option Nat},
    (∀ l, lo = some l → l < k) → Tbl.risingFrom lo t = true → Tbl.risingFrom lo (Tbl.put t k v) = true := by
  induction t with
  | nil => intro lo h _; simp only [Tbl.put]; rw [Tbl.risingFrom_cons]; exact ⟨h, by simp [Tbl.risingFrom]⟩
  | cons x t ih =>
    obtain ⟨j, w⟩ := x
    intro lo h hr
    have hc := (Tbl.risingFrom_cons lo j w t).1 hr
    by_cases hk : k < j
    · simp only [Tbl.put, hk, if_true]
      rw [Tbl.risingFrom_cons]
      refine ⟨h, ?_⟩
      rw [Tbl.risingFrom_cons]
      exact ⟨fun l hl => by cases hl; exact hk, hc.2⟩
    · by_cases he : k = j
      · subst he
        simp only [Tbl.put, Nat.lt_irrefl, if_false, if_true]
        rw [Tbl.risingFrom_cons]
        exact ⟨h, hc.2⟩
      · simp only [Tbl.put, hk, he, if_false]
        rw [Tbl.risingFrom_cons]
        exact ⟨hc.1, ih (fun l hl => by cases hl; omega) hc.2⟩

theorem Tbl.rising_filter {α : Type} (p : Nat × α → Bool) (t : Tbl α) : ∀ {lo : Option Nat},
    Tbl.risingFrom lo t = true → Tbl.risingFrom lo (t.filter p) = true := by
  induction t with
  | nil => intro lo h; exact h
  | cons x t ih =>
    obtain ⟨j, w⟩ := x
    intro lo h
    have hc := (Tbl.risingFrom_cons lo j w t).1 h
    by_cases hp : p (j, w)
    · rw [List.filter_cons_of_pos hp, Tbl.risingFrom_cons]; exact ⟨hc.1, ih hc.2⟩
    · rw [List.filter_cons_of_neg hp]
      exact ih (Tbl.rising_weaken t (fun l hl => ⟨j, rfl, Nat.le_of_lt (hc.1 l hl)⟩) hc.2)

theorem Tbl.del_eq_filter {α : Type} (t : Tbl α) (k : Nat) : Tbl.del t k = t.filter fun x => x.1 != k := by
  induction t with
  | nil => rfl
  | cons x t ih =>
    obtain ⟨j, w⟩ := x
    by_cases h : j = k
    · simp [Tbl.del, h, ih]
    · simp [Tbl.del, h, ih]

theorem Tbl.mem_put {α : Type} (t : Tbl α) (k : Nat) (v : α) : ∀ x ∈ Tbl.put t k v, x = (k, v) ∨ x ∈ t := by
  induction t with
  | nil => intro x hx; simp [Tbl.put] at hx; exact .inl hx
  | cons y t ih =>
    obtain ⟨j, w⟩ := y
    intro x hx
    by_cases hk : k < j
    · simp only [Tbl.put, hk, if_true, List.mem_cons] at hx ⊢
      exact hx
    · by_cases he : k = j
      · subst he
        simp only [Tbl.put, Nat.lt_irrefl, if_false, if_true, List.mem_cons] at hx ⊢
        rcases hx with hx | hx
        · exact .inl hx
        · exact .inr (.inr hx)
      · simp only [Tbl.put, hk, he, if_false, List.mem_cons] at hx ⊢
        rcases hx with hx | hx
        · exact .inr (.inl hx)
        · rcases ih x hx with h | h
          · exact .inl h
          · exact .inr (.inr h)

/-! ### Memory -/

theorem Memory.wf_iff (m : Memory) : m.wf = true ↔ Tbl.risingFrom none m = true ∧ ∀ c ∈ m, c.2 ≠ Memory.blank := by
  simp [Memory.wf, Tbl.rising]

theorem Memory.wf_filter (p : Host.Cell → Bool) {m : Memory} (h : m.wf = true) : Memory.wf (m.filter p) = true := by
  rw [Memory.wf_iff] at h ⊢
  exact ⟨Tbl.rising_filter p m h.1, fun c hc => h.2 c (List.mem_filter.1 hc).1⟩

/-- A byte write keeps the canonical form. -/
theorem Memory.wf_setByte {m : Memory} (a : Nat) (b : Byte) (h : m.wf = true) : (m.setByte a b).wf = true := by
  unfold Memory.setByte
  split
  · rw [Tbl.del_eq_filter]; exact Memory.wf_filter _ h
  · rename_i hb
    rw [Memory.wf_iff] at h ⊢
    refine ⟨Tbl.rising_put m a b (fun l hl => nomatch hl) h.1, fun c hc => ?_⟩
    rcases Tbl.mem_put m a b c hc with rfl | hc
    · exact hb
    · exact h.2 c hc

theorem Memory.wf_write (n : Nat) : ∀ {m : Memory} (a v : Nat), m.wf = true → (m.write a n v).wf = true := by
  induction n with
  | zero => intro m a v h; exact h
  | succ n ih => intro m a v h; exact ih _ _ (Memory.wf_setByte _ _ h)

theorem Memory.wf_writeList (l : List Byte) : ∀ {m : Memory} (a : Nat), m.wf = true → (m.writeList a l).wf = true := by
  induction l with
  | nil => intro m a h; exact h
  | cons b t ih => intro m a h; exact ih _ (Memory.wf_setByte _ _ h)

theorem Memory.wf_fill (n : Nat) : ∀ {m : Memory} (a : Nat) (b : Byte), m.wf = true → (m.fill a b n).wf = true := by
  induction n with
  | zero => intro m a b h; exact h
  | succ n ih => intro m a b h; exact ih _ _ (Memory.wf_setByte _ _ h)

theorem Memory.wf_clear {m : Memory} (a n : Nat) (h : m.wf = true) : (m.clear a n).wf = true := Memory.wf_filter _ h

theorem Memory.wf_nil : Memory.wf [] = true := rfl

/-- A byte reads as what was last written there. -/
@[simp] theorem Memory.byte_setByte_self (m : Memory) (a : Nat) (b : Byte) : (m.setByte a b).byte a = b := by
  unfold Memory.setByte Memory.byte
  split
  · rename_i h; simp [h]
  · simp

/-- A byte write leaves every other byte alone. -/
theorem Memory.byte_setByte_ne (m : Memory) {a i : Nat} (b : Byte) (h : i ≠ a) : (m.setByte a b).byte i = m.byte i := by
  unfold Memory.setByte Memory.byte
  split
  · rw [Tbl.find_del_ne _ h]
  · rw [Tbl.find_put_ne _ _ h]

/-- A write leaves every byte outside it alone. -/
theorem Memory.byte_write_outside (n : Nat) : ∀ (m : Memory) (a v i : Nat), (i < a ∨ a + n ≤ i) →
    (m.write a n v).byte i = m.byte i := by
  induction n with
  | zero => intros; rfl
  | succ n ih =>
    intro m a v i h
    have hn : (m.write a (n + 1) v) = ((m.setByte a (BitVec.ofNat 8 v)).write (a + 1) n (v / 256)) := rfl
    rw [hn, ih _ _ _ _ (by omega), Memory.byte_setByte_ne _ _ (by omega)]

theorem Memory.read_congr (n : Nat) : ∀ {m m' : Memory} (a : Nat), (∀ i, i < n → m'.byte (a + i) = m.byte (a + i)) →
    Memory.read m' a n = Memory.read m a n := by
  induction n with
  | zero => intros; rfl
  | succ n ih =>
    intro m m' a h
    have h0 := h 0 (by omega)
    simp only [Nat.add_zero] at h0
    simp only [Memory.read, h0]
    have e : Memory.read m' (a + 1) n = Memory.read m (a + 1) n := by
      refine ih (a + 1) fun i hi => ?_
      rw [show a + 1 + i = a + (i + 1) by omega]
      exact h (i + 1) (by omega)
    rw [e]

/-- A read of exactly the bytes written gives the value written. -/
theorem Memory.read_write (n : Nat) : ∀ (m : Memory) (a v : Nat), Memory.read (m.write a n v) a n = v % 256 ^ n := by
  induction n with
  | zero => intro m a v; simp [Memory.read, Nat.mod_one]
  | succ n ih =>
    intro m a v
    have hn : (m.write a (n + 1) v) = ((m.setByte a (BitVec.ofNat 8 v)).write (a + 1) n (v / 256)) := rfl
    rw [hn]
    simp only [Memory.read]
    rw [ih, Memory.byte_write_outside n _ _ _ _ (by omega), Memory.byte_setByte_self]
    have e : (BitVec.ofNat 8 v).toNat = v % 256 := by simp
    rw [e, Nat.pow_succ, Nat.mul_comm (256 ^ n) 256, Nat.mod_mul]

/-- A read apart from the bytes written reads as before. -/
theorem Memory.read_write_apart (m : Memory) (a n v b k : Nat) (h : b + k ≤ a ∨ a + n ≤ b) :
    Memory.read (m.write a n v) b k = Memory.read m b k :=
  Memory.read_congr k b fun i hi => Memory.byte_write_outside n _ _ _ _ (by omega)

/-! ### Lanes -/

theorem Lanes.at_make (f : Nat → Word) {L : Nat} (h : L < 64) : (Lanes.make f).at L = f L := by
  simp [Lanes.at, Lanes.make, List.getD, h]

theorem Lanes.at_splat (w : Word) {L : Nat} (h : L < 64) : (Lanes.splat w).at L = w := by
  unfold Lanes.at Lanes.splat List.getD
  rw [List.getElem?_replicate]
  simp [h]

theorem Lanes.at_merge (m : Dword) (a b : Lanes) {L : Nat} (h : L < 64) :
    (Lanes.merge m a b).at L = if inMask m L then b.at L else a.at L := by
  simp only [Lanes.merge, Lanes.at_make _ h]

theorem mem_lanesOf {m : Dword} {L : Nat} : L ∈ lanesOf m ↔ L < 64 ∧ inMask m L = true := by
  simp [lanesOf]

theorem lowestLane_mem {m : Dword} (h : m ≠ 0) : lowestLane m ∈ lanesOf m := by
  unfold lowestLane
  cases hl : lanesOf m with
  | cons a t => simp
  | nil =>
    exfalso
    apply h
    apply BitVec.eq_of_getLsbD_eq
    intro i hi
    have : i ∉ lanesOf m := by rw [hl]; simp
    rw [mem_lanesOf] at this
    simp only [not_and, hi, forall_const] at this
    simpa [inMask] using this

theorem lowestLane_lt {m : Dword} (h : m ≠ 0) : lowestLane m < 64 := (mem_lanesOf.1 (lowestLane_mem h)).1
theorem inMask_lowestLane {m : Dword} (h : m ≠ 0) : inMask m (lowestLane m) = true := (mem_lanesOf.1 (lowestLane_mem h)).2

@[simp] theorem lanesOf_zero : lanesOf 0 = [] := by decide

/-! ### Lane masks -/

/-- The number that `maskOf` builds from the lanes below `n`. -/
theorem maskSum (p : Nat → Bool) (n : Nat) :
    ((List.range n).foldl (fun m L => if p L then m + 2 ^ L else m) 0) < 2 ^ n ∧
    ∀ L, ((List.range n).foldl (fun m L => if p L then m + 2 ^ L else m) 0).testBit L = (decide (L < n) && p L) := by
  induction n with
  | zero => simp
  | succ n ih =>
    rw [List.range_succ, List.foldl_append]
    simp only [List.foldl_cons, List.foldl_nil]
    generalize ((List.range n).foldl (fun m L => if p L then m + 2 ^ L else m) 0) = m at ih ⊢
    refine ⟨by split <;> (have := ih.1; rw [Nat.pow_succ]; omega), fun L => ?_⟩
    rcases Nat.lt_trichotomy L n with h | h | h
    · have e : (decide (L < n + 1)) = decide (L < n) := by simp [h]; omega
      split
      · rw [Nat.add_comm, Nat.testBit_two_pow_add_gt h, ih.2, e]
      · rw [ih.2, e]
    · subst h
      split
      · rename_i hp; rw [Nat.add_comm, Nat.testBit_two_pow_add_eq, ih.2]; simp [hp]
      · rename_i hp; rw [ih.2]; simp [hp]
    · have hb : ∀ x, x < 2 ^ (n + 1) → x.testBit L = false := fun x hx =>
        Nat.testBit_lt_two_pow (Nat.lt_of_lt_of_le hx (Nat.pow_le_pow_right (by omega) h))
      rw [hb _ (by split <;> (have := ih.1; rw [Nat.pow_succ]; omega))]
      simp; omega

/-- A lane is in the mask of the lanes that satisfy `p` if it satisfies `p`. -/
@[simp] theorem inMask_maskOf (p : Nat → Bool) {L : Nat} (h : L < 64) : inMask (maskOf p) L = p L := by
  unfold inMask maskOf
  rw [BitVec.getLsbD_ofNat, (maskSum p 64).2]
  simp [h]
end Sys2Proof.Machine
end

