-- ==== Sys2Proof/Laws/State.lean ====
section
/-!
SUPPORT. One lemma per field per update of the state: an update leaves every other field as it was. After them, what each
reader of a part gives after each update of one.
-/
namespace Sys2Proof.Machine


/-! ### `setGrp` -/

@[simp] theorem State.setGrp_issuer (s : State) (g : Nat) (x : Group) : (s.setGrp g x).issuer = s.issuer := rfl
@[simp] theorem State.setGrp_schedule (s : State) (g : Nat) (x : Group) : (s.setGrp g x).schedule = s.schedule := rfl
@[simp] theorem State.setGrp_time (s : State) (g : Nat) (x : Group) : (s.setGrp g x).time = s.time := rfl
@[simp] theorem State.setGrp_resetAt (s : State) (g : Nat) (x : Group) : (s.setGrp g x).resetAt = s.resetAt := rfl
@[simp] theorem State.setGrp_mem (s : State) (g : Nat) (x : Group) : (s.setGrp g x).mem = s.mem := rfl
@[simp] theorem State.setGrp_hbmOld (s : State) (g : Nat) (x : Group) : (s.setGrp g x).hbmOld = s.hbmOld := rfl
@[simp] theorem State.setGrp_blocks (s : State) (g : Nat) (x : Group) : (s.setGrp g x).blocks = s.blocks := rfl
@[simp] theorem State.setGrp_stooks (s : State) (g : Nat) (x : Group) : (s.setGrp g x).stooks = s.stooks := rfl
@[simp] theorem State.setGrp_grids (s : State) (g : Nat) (x : Group) : (s.setGrp g x).grids = s.grids := rfl
@[simp] theorem State.setGrp_cores (s : State) (g : Nat) (x : Group) : (s.setGrp g x).cores = s.cores := rfl
@[simp] theorem State.setGrp_dies (s : State) (g : Nat) (x : Group) : (s.setGrp g x).dies = s.dies := rfl
@[simp] theorem State.setGrp_jobs (s : State) (g : Nat) (x : Group) : (s.setGrp g x).jobs = s.jobs := rfl
@[simp] theorem State.setGrp_ptes (s : State) (g : Nat) (x : Group) : (s.setGrp g x).ptes = s.ptes := rfl
@[simp] theorem State.setGrp_lqueues (s : State) (g : Nat) (x : Group) : (s.setGrp g x).lqueues = s.lqueues := rfl
@[simp] theorem State.setGrp_waiting (s : State) (g : Nat) (x : Group) : (s.setGrp g x).waiting = s.waiting := rfl
@[simp] theorem State.setGrp_bqueues (s : State) (g : Nat) (x : Group) : (s.setGrp g x).bqueues = s.bqueues := rfl
@[simp] theorem State.setGrp_runqs (s : State) (g : Nat) (x : Group) : (s.setGrp g x).runqs = s.runqs := rfl
@[simp] theorem State.setGrp_taskPassed (s : State) (g : Nat) (x : Group) : (s.setGrp g x).taskPassed = s.taskPassed := rfl
@[simp] theorem State.setGrp_subs (s : State) (g : Nat) (x : Group) : (s.setGrp g x).subs = s.subs := rfl
@[simp] theorem State.setGrp_lastWriter (s : State) (g : Nat) (x : Group) : (s.setGrp g x).lastWriter = s.lastWriter := rfl
@[simp] theorem State.setGrp_gstores (s : State) (g : Nat) (x : Group) : (s.setGrp g x).gstores = s.gstores := rfl
@[simp] theorem State.setGrp_grades (s : State) (g : Nat) (x : Group) : (s.setGrp g x).grades = s.grades := rfl
@[simp] theorem State.setGrp_granges (s : State) (g : Nat) (x : Group) : (s.setGrp g x).granges = s.granges := rfl
@[simp] theorem State.setGrp_cranges (s : State) (g : Nat) (x : Group) : (s.setGrp g x).cranges = s.cranges := rfl
@[simp] theorem State.setGrp_partials (s : State) (g : Nat) (x : Group) : (s.setGrp g x).partials = s.partials := rfl
@[simp] theorem State.setGrp_spilled (s : State) (g : Nat) (x : Group) : (s.setGrp g x).spilled = s.spilled := rfl
@[simp] theorem State.setGrp_copies (s : State) (g : Nat) (x : Group) : (s.setGrp g x).copies = s.copies := rfl
@[simp] theorem State.setGrp_homes (s : State) (g : Nat) (x : Group) : (s.setGrp g x).homes = s.homes := rfl
@[simp] theorem State.setGrp_epoch (s : State) (g : Nat) (x : Group) : (s.setGrp g x).epoch = s.epoch := rfl
@[simp] theorem State.setGrp_epochAt (s : State) (g : Nat) (x : Group) : (s.setGrp g x).epochAt = s.epochAt := rfl
@[simp] theorem State.setGrp_moves (s : State) (g : Nat) (x : Group) : (s.setGrp g x).moves = s.moves := rfl
@[simp] theorem State.setGrp_handlerWait (s : State) (g : Nat) (x : Group) : (s.setGrp g x).handlerWait = s.handlerWait := rfl
@[simp] theorem State.setGrp_stops (s : State) (g : Nat) (x : Group) : (s.setGrp g x).stops = s.stops := rfl
@[simp] theorem State.setGrp_todoHeld (s : State) (g : Nat) (x : Group) : (s.setGrp g x).todoHeld = s.todoHeld := rfl
@[simp] theorem State.setGrp_tasks (s : State) (g : Nat) (x : Group) : (s.setGrp g x).tasks = s.tasks := rfl
@[simp] theorem State.setGrp_remoteSubs (s : State) (g : Nat) (x : Group) : (s.setGrp g x).remoteSubs = s.remoteSubs := rfl
@[simp] theorem State.setGrp_fabric (s : State) (g : Nat) (x : Group) : (s.setGrp g x).fabric = s.fabric := rfl
@[simp] theorem State.setGrp_root (s : State) (g : Nat) (x : Group) : (s.setGrp g x).root = s.root := rfl
@[simp] theorem State.setGrp_dieReset (s : State) (g : Nat) (x : Group) : (s.setGrp g x).dieReset = s.dieReset := rfl
@[simp] theorem State.setGrp_resets (s : State) (g : Nat) (x : Group) : (s.setGrp g x).resets = s.resets := rfl
@[simp] theorem State.setGrp_poison (s : State) (g : Nat) (x : Group) : (s.setGrp g x).poison = s.poison := rfl
@[simp] theorem State.setGrp_cxlData (s : State) (g : Nat) (x : Group) : (s.setGrp g x).cxlData = s.cxlData := rfl
@[simp] theorem State.setGrp_parkth (s : State) (g : Nat) (x : Group) : (s.setGrp g x).parkth = s.parkth := rfl
@[simp] theorem State.setGrp_admitReg (s : State) (g : Nat) (x : Group) : (s.setGrp g x).admitReg = s.admitReg := rfl
@[simp] theorem State.setGrp_wdog (s : State) (g : Nat) (x : Group) : (s.setGrp g x).wdog = s.wdog := rfl
@[simp] theorem State.setGrp_migr (s : State) (g : Nat) (x : Group) : (s.setGrp g x).migr = s.migr := rfl
@[simp] theorem State.setGrp_qsel (s : State) (g : Nat) (x : Group) : (s.setGrp g x).qsel = s.qsel := rfl
@[simp] theorem State.setGrp_fpsel (s : State) (g : Nat) (x : Group) : (s.setGrp g x).fpsel = s.fpsel := rfl
@[simp] theorem State.setGrp_almsel (s : State) (g : Nat) (x : Group) : (s.setGrp g x).almsel = s.almsel := rfl
@[simp] theorem State.setGrp_nextId (s : State) (g : Nat) (x : Group) : (s.setGrp g x).nextId = s.nextId := rfl
@[simp] theorem State.setGrp_nextAge (s : State) (g : Nat) (x : Group) : (s.setGrp g x).nextAge = s.nextAge := rfl
@[simp] theorem State.setGrp_nextHandle (s : State) (g : Nat) (x : Group) : (s.setGrp g x).nextHandle = s.nextHandle := rfl
@[simp] theorem State.setGrp_freeCount (s : State) (g : Nat) (x : Group) : (s.setGrp g x).freeCount = s.freeCount := rfl

/-! ### `setBlk` -/

@[simp] theorem State.setBlk_issuer (s : State) (b : Nat) (x : Block) : (s.setBlk b x).issuer = s.issuer := rfl
@[simp] theorem State.setBlk_schedule (s : State) (b : Nat) (x : Block) : (s.setBlk b x).schedule = s.schedule := rfl
@[simp] theorem State.setBlk_time (s : State) (b : Nat) (x : Block) : (s.setBlk b x).time = s.time := rfl
@[simp] theorem State.setBlk_resetAt (s : State) (b : Nat) (x : Block) : (s.setBlk b x).resetAt = s.resetAt := rfl
@[simp] theorem State.setBlk_mem (s : State) (b : Nat) (x : Block) : (s.setBlk b x).mem = s.mem := rfl
@[simp] theorem State.setBlk_hbmOld (s : State) (b : Nat) (x : Block) : (s.setBlk b x).hbmOld = s.hbmOld := rfl
@[simp] theorem State.setBlk_groups (s : State) (b : Nat) (x : Block) : (s.setBlk b x).groups = s.groups := rfl
@[simp] theorem State.setBlk_stooks (s : State) (b : Nat) (x : Block) : (s.setBlk b x).stooks = s.stooks := rfl
@[simp] theorem State.setBlk_grids (s : State) (b : Nat) (x : Block) : (s.setBlk b x).grids = s.grids := rfl
@[simp] theorem State.setBlk_cores (s : State) (b : Nat) (x : Block) : (s.setBlk b x).cores = s.cores := rfl
@[simp] theorem State.setBlk_dies (s : State) (b : Nat) (x : Block) : (s.setBlk b x).dies = s.dies := rfl
@[simp] theorem State.setBlk_jobs (s : State) (b : Nat) (x : Block) : (s.setBlk b x).jobs = s.jobs := rfl
@[simp] theorem State.setBlk_ptes (s : State) (b : Nat) (x : Block) : (s.setBlk b x).ptes = s.ptes := rfl
@[simp] theorem State.setBlk_lqueues (s : State) (b : Nat) (x : Block) : (s.setBlk b x).lqueues = s.lqueues := rfl
@[simp] theorem State.setBlk_waiting (s : State) (b : Nat) (x : Block) : (s.setBlk b x).waiting = s.waiting := rfl
@[simp] theorem State.setBlk_bqueues (s : State) (b : Nat) (x : Block) : (s.setBlk b x).bqueues = s.bqueues := rfl
@[simp] theorem State.setBlk_runqs (s : State) (b : Nat) (x : Block) : (s.setBlk b x).runqs = s.runqs := rfl
@[simp] theorem State.setBlk_taskPassed (s : State) (b : Nat) (x : Block) : (s.setBlk b x).taskPassed = s.taskPassed := rfl
@[simp] theorem State.setBlk_subs (s : State) (b : Nat) (x : Block) : (s.setBlk b x).subs = s.subs := rfl
@[simp] theorem State.setBlk_lastWriter (s : State) (b : Nat) (x : Block) : (s.setBlk b x).lastWriter = s.lastWriter := rfl
@[simp] theorem State.setBlk_gstores (s : State) (b : Nat) (x : Block) : (s.setBlk b x).gstores = s.gstores := rfl
@[simp] theorem State.setBlk_grades (s : State) (b : Nat) (x : Block) : (s.setBlk b x).grades = s.grades := rfl
@[simp] theorem State.setBlk_granges (s : State) (b : Nat) (x : Block) : (s.setBlk b x).granges = s.granges := rfl
@[simp] theorem State.setBlk_cranges (s : State) (b : Nat) (x : Block) : (s.setBlk b x).cranges = s.cranges := rfl
@[simp] theorem State.setBlk_partials (s : State) (b : Nat) (x : Block) : (s.setBlk b x).partials = s.partials := rfl
@[simp] theorem State.setBlk_spilled (s : State) (b : Nat) (x : Block) : (s.setBlk b x).spilled = s.spilled := rfl
@[simp] theorem State.setBlk_copies (s : State) (b : Nat) (x : Block) : (s.setBlk b x).copies = s.copies := rfl
@[simp] theorem State.setBlk_homes (s : State) (b : Nat) (x : Block) : (s.setBlk b x).homes = s.homes := rfl
@[simp] theorem State.setBlk_epoch (s : State) (b : Nat) (x : Block) : (s.setBlk b x).epoch = s.epoch := rfl
@[simp] theorem State.setBlk_epochAt (s : State) (b : Nat) (x : Block) : (s.setBlk b x).epochAt = s.epochAt := rfl
@[simp] theorem State.setBlk_moves (s : State) (b : Nat) (x : Block) : (s.setBlk b x).moves = s.moves := rfl
@[simp] theorem State.setBlk_handlerWait (s : State) (b : Nat) (x : Block) : (s.setBlk b x).handlerWait = s.handlerWait := rfl
@[simp] theorem State.setBlk_stops (s : State) (b : Nat) (x : Block) : (s.setBlk b x).stops = s.stops := rfl
@[simp] theorem State.setBlk_todoHeld (s : State) (b : Nat) (x : Block) : (s.setBlk b x).todoHeld = s.todoHeld := rfl
@[simp] theorem State.setBlk_tasks (s : State) (b : Nat) (x : Block) : (s.setBlk b x).tasks = s.tasks := rfl
@[simp] theorem State.setBlk_remoteSubs (s : State) (b : Nat) (x : Block) : (s.setBlk b x).remoteSubs = s.remoteSubs := rfl
@[simp] theorem State.setBlk_fabric (s : State) (b : Nat) (x : Block) : (s.setBlk b x).fabric = s.fabric := rfl
@[simp] theorem State.setBlk_root (s : State) (b : Nat) (x : Block) : (s.setBlk b x).root = s.root := rfl
@[simp] theorem State.setBlk_dieReset (s : State) (b : Nat) (x : Block) : (s.setBlk b x).dieReset = s.dieReset := rfl
@[simp] theorem State.setBlk_resets (s : State) (b : Nat) (x : Block) : (s.setBlk b x).resets = s.resets := rfl
@[simp] theorem State.setBlk_poison (s : State) (b : Nat) (x : Block) : (s.setBlk b x).poison = s.poison := rfl
@[simp] theorem State.setBlk_cxlData (s : State) (b : Nat) (x : Block) : (s.setBlk b x).cxlData = s.cxlData := rfl
@[simp] theorem State.setBlk_parkth (s : State) (b : Nat) (x : Block) : (s.setBlk b x).parkth = s.parkth := rfl
@[simp] theorem State.setBlk_admitReg (s : State) (b : Nat) (x : Block) : (s.setBlk b x).admitReg = s.admitReg := rfl
@[simp] theorem State.setBlk_wdog (s : State) (b : Nat) (x : Block) : (s.setBlk b x).wdog = s.wdog := rfl
@[simp] theorem State.setBlk_migr (s : State) (b : Nat) (x : Block) : (s.setBlk b x).migr = s.migr := rfl
@[simp] theorem State.setBlk_qsel (s : State) (b : Nat) (x : Block) : (s.setBlk b x).qsel = s.qsel := rfl
@[simp] theorem State.setBlk_fpsel (s : State) (b : Nat) (x : Block) : (s.setBlk b x).fpsel = s.fpsel := rfl
@[simp] theorem State.setBlk_almsel (s : State) (b : Nat) (x : Block) : (s.setBlk b x).almsel = s.almsel := rfl
@[simp] theorem State.setBlk_nextId (s : State) (b : Nat) (x : Block) : (s.setBlk b x).nextId = s.nextId := rfl
@[simp] theorem State.setBlk_nextAge (s : State) (b : Nat) (x : Block) : (s.setBlk b x).nextAge = s.nextAge := rfl
@[simp] theorem State.setBlk_nextHandle (s : State) (b : Nat) (x : Block) : (s.setBlk b x).nextHandle = s.nextHandle := rfl
@[simp] theorem State.setBlk_freeCount (s : State) (b : Nat) (x : Block) : (s.setBlk b x).freeCount = s.freeCount := rfl

/-! ### `setStk` -/

@[simp] theorem State.setStk_issuer (s : State) (b : Nat) (x : Stook) : (s.setStk b x).issuer = s.issuer := rfl
@[simp] theorem State.setStk_schedule (s : State) (b : Nat) (x : Stook) : (s.setStk b x).schedule = s.schedule := rfl
@[simp] theorem State.setStk_time (s : State) (b : Nat) (x : Stook) : (s.setStk b x).time = s.time := rfl
@[simp] theorem State.setStk_resetAt (s : State) (b : Nat) (x : Stook) : (s.setStk b x).resetAt = s.resetAt := rfl
@[simp] theorem State.setStk_mem (s : State) (b : Nat) (x : Stook) : (s.setStk b x).mem = s.mem := rfl
@[simp] theorem State.setStk_hbmOld (s : State) (b : Nat) (x : Stook) : (s.setStk b x).hbmOld = s.hbmOld := rfl
@[simp] theorem State.setStk_groups (s : State) (b : Nat) (x : Stook) : (s.setStk b x).groups = s.groups := rfl
@[simp] theorem State.setStk_blocks (s : State) (b : Nat) (x : Stook) : (s.setStk b x).blocks = s.blocks := rfl
@[simp] theorem State.setStk_grids (s : State) (b : Nat) (x : Stook) : (s.setStk b x).grids = s.grids := rfl
@[simp] theorem State.setStk_cores (s : State) (b : Nat) (x : Stook) : (s.setStk b x).cores = s.cores := rfl
@[simp] theorem State.setStk_dies (s : State) (b : Nat) (x : Stook) : (s.setStk b x).dies = s.dies := rfl
@[simp] theorem State.setStk_jobs (s : State) (b : Nat) (x : Stook) : (s.setStk b x).jobs = s.jobs := rfl
@[simp] theorem State.setStk_ptes (s : State) (b : Nat) (x : Stook) : (s.setStk b x).ptes = s.ptes := rfl
@[simp] theorem State.setStk_lqueues (s : State) (b : Nat) (x : Stook) : (s.setStk b x).lqueues = s.lqueues := rfl
@[simp] theorem State.setStk_waiting (s : State) (b : Nat) (x : Stook) : (s.setStk b x).waiting = s.waiting := rfl
@[simp] theorem State.setStk_bqueues (s : State) (b : Nat) (x : Stook) : (s.setStk b x).bqueues = s.bqueues := rfl
@[simp] theorem State.setStk_runqs (s : State) (b : Nat) (x : Stook) : (s.setStk b x).runqs = s.runqs := rfl
@[simp] theorem State.setStk_taskPassed (s : State) (b : Nat) (x : Stook) : (s.setStk b x).taskPassed = s.taskPassed := rfl
@[simp] theorem State.setStk_subs (s : State) (b : Nat) (x : Stook) : (s.setStk b x).subs = s.subs := rfl
@[simp] theorem State.setStk_lastWriter (s : State) (b : Nat) (x : Stook) : (s.setStk b x).lastWriter = s.lastWriter := rfl
@[simp] theorem State.setStk_gstores (s : State) (b : Nat) (x : Stook) : (s.setStk b x).gstores = s.gstores := rfl
@[simp] theorem State.setStk_grades (s : State) (b : Nat) (x : Stook) : (s.setStk b x).grades = s.grades := rfl
@[simp] theorem State.setStk_granges (s : State) (b : Nat) (x : Stook) : (s.setStk b x).granges = s.granges := rfl
@[simp] theorem State.setStk_cranges (s : State) (b : Nat) (x : Stook) : (s.setStk b x).cranges = s.cranges := rfl
@[simp] theorem State.setStk_partials (s : State) (b : Nat) (x : Stook) : (s.setStk b x).partials = s.partials := rfl
@[simp] theorem State.setStk_spilled (s : State) (b : Nat) (x : Stook) : (s.setStk b x).spilled = s.spilled := rfl
@[simp] theorem State.setStk_copies (s : State) (b : Nat) (x : Stook) : (s.setStk b x).copies = s.copies := rfl
@[simp] theorem State.setStk_homes (s : State) (b : Nat) (x : Stook) : (s.setStk b x).homes = s.homes := rfl
@[simp] theorem State.setStk_epoch (s : State) (b : Nat) (x : Stook) : (s.setStk b x).epoch = s.epoch := rfl
@[simp] theorem State.setStk_epochAt (s : State) (b : Nat) (x : Stook) : (s.setStk b x).epochAt = s.epochAt := rfl
@[simp] theorem State.setStk_moves (s : State) (b : Nat) (x : Stook) : (s.setStk b x).moves = s.moves := rfl
@[simp] theorem State.setStk_handlerWait (s : State) (b : Nat) (x : Stook) : (s.setStk b x).handlerWait = s.handlerWait := rfl
@[simp] theorem State.setStk_stops (s : State) (b : Nat) (x : Stook) : (s.setStk b x).stops = s.stops := rfl
@[simp] theorem State.setStk_todoHeld (s : State) (b : Nat) (x : Stook) : (s.setStk b x).todoHeld = s.todoHeld := rfl
@[simp] theorem State.setStk_tasks (s : State) (b : Nat) (x : Stook) : (s.setStk b x).tasks = s.tasks := rfl
@[simp] theorem State.setStk_remoteSubs (s : State) (b : Nat) (x : Stook) : (s.setStk b x).remoteSubs = s.remoteSubs := rfl
@[simp] theorem State.setStk_fabric (s : State) (b : Nat) (x : Stook) : (s.setStk b x).fabric = s.fabric := rfl
@[simp] theorem State.setStk_root (s : State) (b : Nat) (x : Stook) : (s.setStk b x).root = s.root := rfl
@[simp] theorem State.setStk_dieReset (s : State) (b : Nat) (x : Stook) : (s.setStk b x).dieReset = s.dieReset := rfl
@[simp] theorem State.setStk_resets (s : State) (b : Nat) (x : Stook) : (s.setStk b x).resets = s.resets := rfl
@[simp] theorem State.setStk_poison (s : State) (b : Nat) (x : Stook) : (s.setStk b x).poison = s.poison := rfl
@[simp] theorem State.setStk_cxlData (s : State) (b : Nat) (x : Stook) : (s.setStk b x).cxlData = s.cxlData := rfl
@[simp] theorem State.setStk_parkth (s : State) (b : Nat) (x : Stook) : (s.setStk b x).parkth = s.parkth := rfl
@[simp] theorem State.setStk_admitReg (s : State) (b : Nat) (x : Stook) : (s.setStk b x).admitReg = s.admitReg := rfl
@[simp] theorem State.setStk_wdog (s : State) (b : Nat) (x : Stook) : (s.setStk b x).wdog = s.wdog := rfl
@[simp] theorem State.setStk_migr (s : State) (b : Nat) (x : Stook) : (s.setStk b x).migr = s.migr := rfl
@[simp] theorem State.setStk_qsel (s : State) (b : Nat) (x : Stook) : (s.setStk b x).qsel = s.qsel := rfl
@[simp] theorem State.setStk_fpsel (s : State) (b : Nat) (x : Stook) : (s.setStk b x).fpsel = s.fpsel := rfl
@[simp] theorem State.setStk_almsel (s : State) (b : Nat) (x : Stook) : (s.setStk b x).almsel = s.almsel := rfl
@[simp] theorem State.setStk_nextId (s : State) (b : Nat) (x : Stook) : (s.setStk b x).nextId = s.nextId := rfl
@[simp] theorem State.setStk_nextAge (s : State) (b : Nat) (x : Stook) : (s.setStk b x).nextAge = s.nextAge := rfl
@[simp] theorem State.setStk_nextHandle (s : State) (b : Nat) (x : Stook) : (s.setStk b x).nextHandle = s.nextHandle := rfl
@[simp] theorem State.setStk_freeCount (s : State) (b : Nat) (x : Stook) : (s.setStk b x).freeCount = s.freeCount := rfl

/-! ### `setGrid` -/

@[simp] theorem State.setGrid_issuer (s : State) (b : Nat) (x : Grid) : (s.setGrid b x).issuer = s.issuer := rfl
@[simp] theorem State.setGrid_schedule (s : State) (b : Nat) (x : Grid) : (s.setGrid b x).schedule = s.schedule := rfl
@[simp] theorem State.setGrid_time (s : State) (b : Nat) (x : Grid) : (s.setGrid b x).time = s.time := rfl
@[simp] theorem State.setGrid_resetAt (s : State) (b : Nat) (x : Grid) : (s.setGrid b x).resetAt = s.resetAt := rfl
@[simp] theorem State.setGrid_mem (s : State) (b : Nat) (x : Grid) : (s.setGrid b x).mem = s.mem := rfl
@[simp] theorem State.setGrid_hbmOld (s : State) (b : Nat) (x : Grid) : (s.setGrid b x).hbmOld = s.hbmOld := rfl
@[simp] theorem State.setGrid_groups (s : State) (b : Nat) (x : Grid) : (s.setGrid b x).groups = s.groups := rfl
@[simp] theorem State.setGrid_blocks (s : State) (b : Nat) (x : Grid) : (s.setGrid b x).blocks = s.blocks := rfl
@[simp] theorem State.setGrid_stooks (s : State) (b : Nat) (x : Grid) : (s.setGrid b x).stooks = s.stooks := rfl
@[simp] theorem State.setGrid_cores (s : State) (b : Nat) (x : Grid) : (s.setGrid b x).cores = s.cores := rfl
@[simp] theorem State.setGrid_dies (s : State) (b : Nat) (x : Grid) : (s.setGrid b x).dies = s.dies := rfl
@[simp] theorem State.setGrid_jobs (s : State) (b : Nat) (x : Grid) : (s.setGrid b x).jobs = s.jobs := rfl
@[simp] theorem State.setGrid_ptes (s : State) (b : Nat) (x : Grid) : (s.setGrid b x).ptes = s.ptes := rfl
@[simp] theorem State.setGrid_lqueues (s : State) (b : Nat) (x : Grid) : (s.setGrid b x).lqueues = s.lqueues := rfl
@[simp] theorem State.setGrid_waiting (s : State) (b : Nat) (x : Grid) : (s.setGrid b x).waiting = s.waiting := rfl
@[simp] theorem State.setGrid_bqueues (s : State) (b : Nat) (x : Grid) : (s.setGrid b x).bqueues = s.bqueues := rfl
@[simp] theorem State.setGrid_runqs (s : State) (b : Nat) (x : Grid) : (s.setGrid b x).runqs = s.runqs := rfl
@[simp] theorem State.setGrid_taskPassed (s : State) (b : Nat) (x : Grid) : (s.setGrid b x).taskPassed = s.taskPassed := rfl
@[simp] theorem State.setGrid_subs (s : State) (b : Nat) (x : Grid) : (s.setGrid b x).subs = s.subs := rfl
@[simp] theorem State.setGrid_lastWriter (s : State) (b : Nat) (x : Grid) : (s.setGrid b x).lastWriter = s.lastWriter := rfl
@[simp] theorem State.setGrid_gstores (s : State) (b : Nat) (x : Grid) : (s.setGrid b x).gstores = s.gstores := rfl
@[simp] theorem State.setGrid_grades (s : State) (b : Nat) (x : Grid) : (s.setGrid b x).grades = s.grades := rfl
@[simp] theorem State.setGrid_granges (s : State) (b : Nat) (x : Grid) : (s.setGrid b x).granges = s.granges := rfl
@[simp] theorem State.setGrid_cranges (s : State) (b : Nat) (x : Grid) : (s.setGrid b x).cranges = s.cranges := rfl
@[simp] theorem State.setGrid_partials (s : State) (b : Nat) (x : Grid) : (s.setGrid b x).partials = s.partials := rfl
@[simp] theorem State.setGrid_spilled (s : State) (b : Nat) (x : Grid) : (s.setGrid b x).spilled = s.spilled := rfl
@[simp] theorem State.setGrid_copies (s : State) (b : Nat) (x : Grid) : (s.setGrid b x).copies = s.copies := rfl
@[simp] theorem State.setGrid_homes (s : State) (b : Nat) (x : Grid) : (s.setGrid b x).homes = s.homes := rfl
@[simp] theorem State.setGrid_epoch (s : State) (b : Nat) (x : Grid) : (s.setGrid b x).epoch = s.epoch := rfl
@[simp] theorem State.setGrid_epochAt (s : State) (b : Nat) (x : Grid) : (s.setGrid b x).epochAt = s.epochAt := rfl
@[simp] theorem State.setGrid_moves (s : State) (b : Nat) (x : Grid) : (s.setGrid b x).moves = s.moves := rfl
@[simp] theorem State.setGrid_handlerWait (s : State) (b : Nat) (x : Grid) : (s.setGrid b x).handlerWait = s.handlerWait := rfl
@[simp] theorem State.setGrid_stops (s : State) (b : Nat) (x : Grid) : (s.setGrid b x).stops = s.stops := rfl
@[simp] theorem State.setGrid_todoHeld (s : State) (b : Nat) (x : Grid) : (s.setGrid b x).todoHeld = s.todoHeld := rfl
@[simp] theorem State.setGrid_tasks (s : State) (b : Nat) (x : Grid) : (s.setGrid b x).tasks = s.tasks := rfl
@[simp] theorem State.setGrid_remoteSubs (s : State) (b : Nat) (x : Grid) : (s.setGrid b x).remoteSubs = s.remoteSubs := rfl
@[simp] theorem State.setGrid_fabric (s : State) (b : Nat) (x : Grid) : (s.setGrid b x).fabric = s.fabric := rfl
@[simp] theorem State.setGrid_root (s : State) (b : Nat) (x : Grid) : (s.setGrid b x).root = s.root := rfl
@[simp] theorem State.setGrid_dieReset (s : State) (b : Nat) (x : Grid) : (s.setGrid b x).dieReset = s.dieReset := rfl
@[simp] theorem State.setGrid_resets (s : State) (b : Nat) (x : Grid) : (s.setGrid b x).resets = s.resets := rfl
@[simp] theorem State.setGrid_poison (s : State) (b : Nat) (x : Grid) : (s.setGrid b x).poison = s.poison := rfl
@[simp] theorem State.setGrid_cxlData (s : State) (b : Nat) (x : Grid) : (s.setGrid b x).cxlData = s.cxlData := rfl
@[simp] theorem State.setGrid_parkth (s : State) (b : Nat) (x : Grid) : (s.setGrid b x).parkth = s.parkth := rfl
@[simp] theorem State.setGrid_admitReg (s : State) (b : Nat) (x : Grid) : (s.setGrid b x).admitReg = s.admitReg := rfl
@[simp] theorem State.setGrid_wdog (s : State) (b : Nat) (x : Grid) : (s.setGrid b x).wdog = s.wdog := rfl
@[simp] theorem State.setGrid_migr (s : State) (b : Nat) (x : Grid) : (s.setGrid b x).migr = s.migr := rfl
@[simp] theorem State.setGrid_qsel (s : State) (b : Nat) (x : Grid) : (s.setGrid b x).qsel = s.qsel := rfl
@[simp] theorem State.setGrid_fpsel (s : State) (b : Nat) (x : Grid) : (s.setGrid b x).fpsel = s.fpsel := rfl
@[simp] theorem State.setGrid_almsel (s : State) (b : Nat) (x : Grid) : (s.setGrid b x).almsel = s.almsel := rfl
@[simp] theorem State.setGrid_nextId (s : State) (b : Nat) (x : Grid) : (s.setGrid b x).nextId = s.nextId := rfl
@[simp] theorem State.setGrid_nextAge (s : State) (b : Nat) (x : Grid) : (s.setGrid b x).nextAge = s.nextAge := rfl
@[simp] theorem State.setGrid_nextHandle (s : State) (b : Nat) (x : Grid) : (s.setGrid b x).nextHandle = s.nextHandle := rfl
@[simp] theorem State.setGrid_freeCount (s : State) (b : Nat) (x : Grid) : (s.setGrid b x).freeCount = s.freeCount := rfl

/-! ### `setCore` -/

@[simp] theorem State.setCore_issuer (s : State) (c : Nat) (x : Core) : (s.setCore c x).issuer = s.issuer := rfl
@[simp] theorem State.setCore_schedule (s : State) (c : Nat) (x : Core) : (s.setCore c x).schedule = s.schedule := rfl
@[simp] theorem State.setCore_time (s : State) (c : Nat) (x : Core) : (s.setCore c x).time = s.time := rfl
@[simp] theorem State.setCore_resetAt (s : State) (c : Nat) (x : Core) : (s.setCore c x).resetAt = s.resetAt := rfl
@[simp] theorem State.setCore_mem (s : State) (c : Nat) (x : Core) : (s.setCore c x).mem = s.mem := rfl
@[simp] theorem State.setCore_hbmOld (s : State) (c : Nat) (x : Core) : (s.setCore c x).hbmOld = s.hbmOld := rfl
@[simp] theorem State.setCore_groups (s : State) (c : Nat) (x : Core) : (s.setCore c x).groups = s.groups := rfl
@[simp] theorem State.setCore_blocks (s : State) (c : Nat) (x : Core) : (s.setCore c x).blocks = s.blocks := rfl
@[simp] theorem State.setCore_stooks (s : State) (c : Nat) (x : Core) : (s.setCore c x).stooks = s.stooks := rfl
@[simp] theorem State.setCore_grids (s : State) (c : Nat) (x : Core) : (s.setCore c x).grids = s.grids := rfl
@[simp] theorem State.setCore_dies (s : State) (c : Nat) (x : Core) : (s.setCore c x).dies = s.dies := rfl
@[simp] theorem State.setCore_jobs (s : State) (c : Nat) (x : Core) : (s.setCore c x).jobs = s.jobs := rfl
@[simp] theorem State.setCore_ptes (s : State) (c : Nat) (x : Core) : (s.setCore c x).ptes = s.ptes := rfl
@[simp] theorem State.setCore_lqueues (s : State) (c : Nat) (x : Core) : (s.setCore c x).lqueues = s.lqueues := rfl
@[simp] theorem State.setCore_waiting (s : State) (c : Nat) (x : Core) : (s.setCore c x).waiting = s.waiting := rfl
@[simp] theorem State.setCore_bqueues (s : State) (c : Nat) (x : Core) : (s.setCore c x).bqueues = s.bqueues := rfl
@[simp] theorem State.setCore_runqs (s : State) (c : Nat) (x : Core) : (s.setCore c x).runqs = s.runqs := rfl
@[simp] theorem State.setCore_taskPassed (s : State) (c : Nat) (x : Core) : (s.setCore c x).taskPassed = s.taskPassed := rfl
@[simp] theorem State.setCore_subs (s : State) (c : Nat) (x : Core) : (s.setCore c x).subs = s.subs := rfl
@[simp] theorem State.setCore_lastWriter (s : State) (c : Nat) (x : Core) : (s.setCore c x).lastWriter = s.lastWriter := rfl
@[simp] theorem State.setCore_gstores (s : State) (c : Nat) (x : Core) : (s.setCore c x).gstores = s.gstores := rfl
@[simp] theorem State.setCore_grades (s : State) (c : Nat) (x : Core) : (s.setCore c x).grades = s.grades := rfl
@[simp] theorem State.setCore_granges (s : State) (c : Nat) (x : Core) : (s.setCore c x).granges = s.granges := rfl
@[simp] theorem State.setCore_cranges (s : State) (c : Nat) (x : Core) : (s.setCore c x).cranges = s.cranges := rfl
@[simp] theorem State.setCore_partials (s : State) (c : Nat) (x : Core) : (s.setCore c x).partials = s.partials := rfl
@[simp] theorem State.setCore_spilled (s : State) (c : Nat) (x : Core) : (s.setCore c x).spilled = s.spilled := rfl
@[simp] theorem State.setCore_copies (s : State) (c : Nat) (x : Core) : (s.setCore c x).copies = s.copies := rfl
@[simp] theorem State.setCore_homes (s : State) (c : Nat) (x : Core) : (s.setCore c x).homes = s.homes := rfl
@[simp] theorem State.setCore_epoch (s : State) (c : Nat) (x : Core) : (s.setCore c x).epoch = s.epoch := rfl
@[simp] theorem State.setCore_epochAt (s : State) (c : Nat) (x : Core) : (s.setCore c x).epochAt = s.epochAt := rfl
@[simp] theorem State.setCore_moves (s : State) (c : Nat) (x : Core) : (s.setCore c x).moves = s.moves := rfl
@[simp] theorem State.setCore_handlerWait (s : State) (c : Nat) (x : Core) : (s.setCore c x).handlerWait = s.handlerWait := rfl
@[simp] theorem State.setCore_stops (s : State) (c : Nat) (x : Core) : (s.setCore c x).stops = s.stops := rfl
@[simp] theorem State.setCore_todoHeld (s : State) (c : Nat) (x : Core) : (s.setCore c x).todoHeld = s.todoHeld := rfl
@[simp] theorem State.setCore_tasks (s : State) (c : Nat) (x : Core) : (s.setCore c x).tasks = s.tasks := rfl
@[simp] theorem State.setCore_remoteSubs (s : State) (c : Nat) (x : Core) : (s.setCore c x).remoteSubs = s.remoteSubs := rfl
@[simp] theorem State.setCore_fabric (s : State) (c : Nat) (x : Core) : (s.setCore c x).fabric = s.fabric := rfl
@[simp] theorem State.setCore_root (s : State) (c : Nat) (x : Core) : (s.setCore c x).root = s.root := rfl
@[simp] theorem State.setCore_dieReset (s : State) (c : Nat) (x : Core) : (s.setCore c x).dieReset = s.dieReset := rfl
@[simp] theorem State.setCore_resets (s : State) (c : Nat) (x : Core) : (s.setCore c x).resets = s.resets := rfl
@[simp] theorem State.setCore_poison (s : State) (c : Nat) (x : Core) : (s.setCore c x).poison = s.poison := rfl
@[simp] theorem State.setCore_cxlData (s : State) (c : Nat) (x : Core) : (s.setCore c x).cxlData = s.cxlData := rfl
@[simp] theorem State.setCore_parkth (s : State) (c : Nat) (x : Core) : (s.setCore c x).parkth = s.parkth := rfl
@[simp] theorem State.setCore_admitReg (s : State) (c : Nat) (x : Core) : (s.setCore c x).admitReg = s.admitReg := rfl
@[simp] theorem State.setCore_wdog (s : State) (c : Nat) (x : Core) : (s.setCore c x).wdog = s.wdog := rfl
@[simp] theorem State.setCore_migr (s : State) (c : Nat) (x : Core) : (s.setCore c x).migr = s.migr := rfl
@[simp] theorem State.setCore_qsel (s : State) (c : Nat) (x : Core) : (s.setCore c x).qsel = s.qsel := rfl
@[simp] theorem State.setCore_fpsel (s : State) (c : Nat) (x : Core) : (s.setCore c x).fpsel = s.fpsel := rfl
@[simp] theorem State.setCore_almsel (s : State) (c : Nat) (x : Core) : (s.setCore c x).almsel = s.almsel := rfl
@[simp] theorem State.setCore_nextId (s : State) (c : Nat) (x : Core) : (s.setCore c x).nextId = s.nextId := rfl
@[simp] theorem State.setCore_nextAge (s : State) (c : Nat) (x : Core) : (s.setCore c x).nextAge = s.nextAge := rfl
@[simp] theorem State.setCore_nextHandle (s : State) (c : Nat) (x : Core) : (s.setCore c x).nextHandle = s.nextHandle := rfl
@[simp] theorem State.setCore_freeCount (s : State) (c : Nat) (x : Core) : (s.setCore c x).freeCount = s.freeCount := rfl

/-! ### `setDie` -/

@[simp] theorem State.setDie_issuer (s : State) (d : Nat) (x : Die) : (s.setDie d x).issuer = s.issuer := rfl
@[simp] theorem State.setDie_schedule (s : State) (d : Nat) (x : Die) : (s.setDie d x).schedule = s.schedule := rfl
@[simp] theorem State.setDie_time (s : State) (d : Nat) (x : Die) : (s.setDie d x).time = s.time := rfl
@[simp] theorem State.setDie_resetAt (s : State) (d : Nat) (x : Die) : (s.setDie d x).resetAt = s.resetAt := rfl
@[simp] theorem State.setDie_mem (s : State) (d : Nat) (x : Die) : (s.setDie d x).mem = s.mem := rfl
@[simp] theorem State.setDie_hbmOld (s : State) (d : Nat) (x : Die) : (s.setDie d x).hbmOld = s.hbmOld := rfl
@[simp] theorem State.setDie_groups (s : State) (d : Nat) (x : Die) : (s.setDie d x).groups = s.groups := rfl
@[simp] theorem State.setDie_blocks (s : State) (d : Nat) (x : Die) : (s.setDie d x).blocks = s.blocks := rfl
@[simp] theorem State.setDie_stooks (s : State) (d : Nat) (x : Die) : (s.setDie d x).stooks = s.stooks := rfl
@[simp] theorem State.setDie_grids (s : State) (d : Nat) (x : Die) : (s.setDie d x).grids = s.grids := rfl
@[simp] theorem State.setDie_cores (s : State) (d : Nat) (x : Die) : (s.setDie d x).cores = s.cores := rfl
@[simp] theorem State.setDie_jobs (s : State) (d : Nat) (x : Die) : (s.setDie d x).jobs = s.jobs := rfl
@[simp] theorem State.setDie_ptes (s : State) (d : Nat) (x : Die) : (s.setDie d x).ptes = s.ptes := rfl
@[simp] theorem State.setDie_lqueues (s : State) (d : Nat) (x : Die) : (s.setDie d x).lqueues = s.lqueues := rfl
@[simp] theorem State.setDie_waiting (s : State) (d : Nat) (x : Die) : (s.setDie d x).waiting = s.waiting := rfl
@[simp] theorem State.setDie_bqueues (s : State) (d : Nat) (x : Die) : (s.setDie d x).bqueues = s.bqueues := rfl
@[simp] theorem State.setDie_runqs (s : State) (d : Nat) (x : Die) : (s.setDie d x).runqs = s.runqs := rfl
@[simp] theorem State.setDie_taskPassed (s : State) (d : Nat) (x : Die) : (s.setDie d x).taskPassed = s.taskPassed := rfl
@[simp] theorem State.setDie_subs (s : State) (d : Nat) (x : Die) : (s.setDie d x).subs = s.subs := rfl
@[simp] theorem State.setDie_lastWriter (s : State) (d : Nat) (x : Die) : (s.setDie d x).lastWriter = s.lastWriter := rfl
@[simp] theorem State.setDie_gstores (s : State) (d : Nat) (x : Die) : (s.setDie d x).gstores = s.gstores := rfl
@[simp] theorem State.setDie_grades (s : State) (d : Nat) (x : Die) : (s.setDie d x).grades = s.grades := rfl
@[simp] theorem State.setDie_granges (s : State) (d : Nat) (x : Die) : (s.setDie d x).granges = s.granges := rfl
@[simp] theorem State.setDie_cranges (s : State) (d : Nat) (x : Die) : (s.setDie d x).cranges = s.cranges := rfl
@[simp] theorem State.setDie_partials (s : State) (d : Nat) (x : Die) : (s.setDie d x).partials = s.partials := rfl
@[simp] theorem State.setDie_spilled (s : State) (d : Nat) (x : Die) : (s.setDie d x).spilled = s.spilled := rfl
@[simp] theorem State.setDie_copies (s : State) (d : Nat) (x : Die) : (s.setDie d x).copies = s.copies := rfl
@[simp] theorem State.setDie_homes (s : State) (d : Nat) (x : Die) : (s.setDie d x).homes = s.homes := rfl
@[simp] theorem State.setDie_epoch (s : State) (d : Nat) (x : Die) : (s.setDie d x).epoch = s.epoch := rfl
@[simp] theorem State.setDie_epochAt (s : State) (d : Nat) (x : Die) : (s.setDie d x).epochAt = s.epochAt := rfl
@[simp] theorem State.setDie_moves (s : State) (d : Nat) (x : Die) : (s.setDie d x).moves = s.moves := rfl
@[simp] theorem State.setDie_handlerWait (s : State) (d : Nat) (x : Die) : (s.setDie d x).handlerWait = s.handlerWait := rfl
@[simp] theorem State.setDie_stops (s : State) (d : Nat) (x : Die) : (s.setDie d x).stops = s.stops := rfl
@[simp] theorem State.setDie_todoHeld (s : State) (d : Nat) (x : Die) : (s.setDie d x).todoHeld = s.todoHeld := rfl
@[simp] theorem State.setDie_tasks (s : State) (d : Nat) (x : Die) : (s.setDie d x).tasks = s.tasks := rfl
@[simp] theorem State.setDie_remoteSubs (s : State) (d : Nat) (x : Die) : (s.setDie d x).remoteSubs = s.remoteSubs := rfl
@[simp] theorem State.setDie_fabric (s : State) (d : Nat) (x : Die) : (s.setDie d x).fabric = s.fabric := rfl
@[simp] theorem State.setDie_root (s : State) (d : Nat) (x : Die) : (s.setDie d x).root = s.root := rfl
@[simp] theorem State.setDie_dieReset (s : State) (d : Nat) (x : Die) : (s.setDie d x).dieReset = s.dieReset := rfl
@[simp] theorem State.setDie_resets (s : State) (d : Nat) (x : Die) : (s.setDie d x).resets = s.resets := rfl
@[simp] theorem State.setDie_poison (s : State) (d : Nat) (x : Die) : (s.setDie d x).poison = s.poison := rfl
@[simp] theorem State.setDie_cxlData (s : State) (d : Nat) (x : Die) : (s.setDie d x).cxlData = s.cxlData := rfl
@[simp] theorem State.setDie_parkth (s : State) (d : Nat) (x : Die) : (s.setDie d x).parkth = s.parkth := rfl
@[simp] theorem State.setDie_admitReg (s : State) (d : Nat) (x : Die) : (s.setDie d x).admitReg = s.admitReg := rfl
@[simp] theorem State.setDie_wdog (s : State) (d : Nat) (x : Die) : (s.setDie d x).wdog = s.wdog := rfl
@[simp] theorem State.setDie_migr (s : State) (d : Nat) (x : Die) : (s.setDie d x).migr = s.migr := rfl
@[simp] theorem State.setDie_qsel (s : State) (d : Nat) (x : Die) : (s.setDie d x).qsel = s.qsel := rfl
@[simp] theorem State.setDie_fpsel (s : State) (d : Nat) (x : Die) : (s.setDie d x).fpsel = s.fpsel := rfl
@[simp] theorem State.setDie_almsel (s : State) (d : Nat) (x : Die) : (s.setDie d x).almsel = s.almsel := rfl
@[simp] theorem State.setDie_nextId (s : State) (d : Nat) (x : Die) : (s.setDie d x).nextId = s.nextId := rfl
@[simp] theorem State.setDie_nextAge (s : State) (d : Nat) (x : Die) : (s.setDie d x).nextAge = s.nextAge := rfl
@[simp] theorem State.setDie_nextHandle (s : State) (d : Nat) (x : Die) : (s.setDie d x).nextHandle = s.nextHandle := rfl
@[simp] theorem State.setDie_freeCount (s : State) (d : Nat) (x : Die) : (s.setDie d x).freeCount = s.freeCount := rfl

/-! ### `setJob` -/

@[simp] theorem State.setJob_issuer (s : State) (j : Nat) (x : Job) : (s.setJob j x).issuer = s.issuer := rfl
@[simp] theorem State.setJob_schedule (s : State) (j : Nat) (x : Job) : (s.setJob j x).schedule = s.schedule := rfl
@[simp] theorem State.setJob_time (s : State) (j : Nat) (x : Job) : (s.setJob j x).time = s.time := rfl
@[simp] theorem State.setJob_resetAt (s : State) (j : Nat) (x : Job) : (s.setJob j x).resetAt = s.resetAt := rfl
@[simp] theorem State.setJob_mem (s : State) (j : Nat) (x : Job) : (s.setJob j x).mem = s.mem := rfl
@[simp] theorem State.setJob_hbmOld (s : State) (j : Nat) (x : Job) : (s.setJob j x).hbmOld = s.hbmOld := rfl
@[simp] theorem State.setJob_groups (s : State) (j : Nat) (x : Job) : (s.setJob j x).groups = s.groups := rfl
@[simp] theorem State.setJob_blocks (s : State) (j : Nat) (x : Job) : (s.setJob j x).blocks = s.blocks := rfl
@[simp] theorem State.setJob_stooks (s : State) (j : Nat) (x : Job) : (s.setJob j x).stooks = s.stooks := rfl
@[simp] theorem State.setJob_grids (s : State) (j : Nat) (x : Job) : (s.setJob j x).grids = s.grids := rfl
@[simp] theorem State.setJob_cores (s : State) (j : Nat) (x : Job) : (s.setJob j x).cores = s.cores := rfl
@[simp] theorem State.setJob_dies (s : State) (j : Nat) (x : Job) : (s.setJob j x).dies = s.dies := rfl
@[simp] theorem State.setJob_ptes (s : State) (j : Nat) (x : Job) : (s.setJob j x).ptes = s.ptes := rfl
@[simp] theorem State.setJob_lqueues (s : State) (j : Nat) (x : Job) : (s.setJob j x).lqueues = s.lqueues := rfl
@[simp] theorem State.setJob_waiting (s : State) (j : Nat) (x : Job) : (s.setJob j x).waiting = s.waiting := rfl
@[simp] theorem State.setJob_bqueues (s : State) (j : Nat) (x : Job) : (s.setJob j x).bqueues = s.bqueues := rfl
@[simp] theorem State.setJob_runqs (s : State) (j : Nat) (x : Job) : (s.setJob j x).runqs = s.runqs := rfl
@[simp] theorem State.setJob_taskPassed (s : State) (j : Nat) (x : Job) : (s.setJob j x).taskPassed = s.taskPassed := rfl
@[simp] theorem State.setJob_subs (s : State) (j : Nat) (x : Job) : (s.setJob j x).subs = s.subs := rfl
@[simp] theorem State.setJob_lastWriter (s : State) (j : Nat) (x : Job) : (s.setJob j x).lastWriter = s.lastWriter := rfl
@[simp] theorem State.setJob_gstores (s : State) (j : Nat) (x : Job) : (s.setJob j x).gstores = s.gstores := rfl
@[simp] theorem State.setJob_grades (s : State) (j : Nat) (x : Job) : (s.setJob j x).grades = s.grades := rfl
@[simp] theorem State.setJob_granges (s : State) (j : Nat) (x : Job) : (s.setJob j x).granges = s.granges := rfl
@[simp] theorem State.setJob_cranges (s : State) (j : Nat) (x : Job) : (s.setJob j x).cranges = s.cranges := rfl
@[simp] theorem State.setJob_partials (s : State) (j : Nat) (x : Job) : (s.setJob j x).partials = s.partials := rfl
@[simp] theorem State.setJob_spilled (s : State) (j : Nat) (x : Job) : (s.setJob j x).spilled = s.spilled := rfl
@[simp] theorem State.setJob_copies (s : State) (j : Nat) (x : Job) : (s.setJob j x).copies = s.copies := rfl
@[simp] theorem State.setJob_homes (s : State) (j : Nat) (x : Job) : (s.setJob j x).homes = s.homes := rfl
@[simp] theorem State.setJob_epoch (s : State) (j : Nat) (x : Job) : (s.setJob j x).epoch = s.epoch := rfl
@[simp] theorem State.setJob_epochAt (s : State) (j : Nat) (x : Job) : (s.setJob j x).epochAt = s.epochAt := rfl
@[simp] theorem State.setJob_moves (s : State) (j : Nat) (x : Job) : (s.setJob j x).moves = s.moves := rfl
@[simp] theorem State.setJob_handlerWait (s : State) (j : Nat) (x : Job) : (s.setJob j x).handlerWait = s.handlerWait := rfl
@[simp] theorem State.setJob_stops (s : State) (j : Nat) (x : Job) : (s.setJob j x).stops = s.stops := rfl
@[simp] theorem State.setJob_todoHeld (s : State) (j : Nat) (x : Job) : (s.setJob j x).todoHeld = s.todoHeld := rfl
@[simp] theorem State.setJob_tasks (s : State) (j : Nat) (x : Job) : (s.setJob j x).tasks = s.tasks := rfl
@[simp] theorem State.setJob_remoteSubs (s : State) (j : Nat) (x : Job) : (s.setJob j x).remoteSubs = s.remoteSubs := rfl
@[simp] theorem State.setJob_fabric (s : State) (j : Nat) (x : Job) : (s.setJob j x).fabric = s.fabric := rfl
@[simp] theorem State.setJob_root (s : State) (j : Nat) (x : Job) : (s.setJob j x).root = s.root := rfl
@[simp] theorem State.setJob_dieReset (s : State) (j : Nat) (x : Job) : (s.setJob j x).dieReset = s.dieReset := rfl
@[simp] theorem State.setJob_resets (s : State) (j : Nat) (x : Job) : (s.setJob j x).resets = s.resets := rfl
@[simp] theorem State.setJob_poison (s : State) (j : Nat) (x : Job) : (s.setJob j x).poison = s.poison := rfl
@[simp] theorem State.setJob_cxlData (s : State) (j : Nat) (x : Job) : (s.setJob j x).cxlData = s.cxlData := rfl
@[simp] theorem State.setJob_parkth (s : State) (j : Nat) (x : Job) : (s.setJob j x).parkth = s.parkth := rfl
@[simp] theorem State.setJob_admitReg (s : State) (j : Nat) (x : Job) : (s.setJob j x).admitReg = s.admitReg := rfl
@[simp] theorem State.setJob_wdog (s : State) (j : Nat) (x : Job) : (s.setJob j x).wdog = s.wdog := rfl
@[simp] theorem State.setJob_migr (s : State) (j : Nat) (x : Job) : (s.setJob j x).migr = s.migr := rfl
@[simp] theorem State.setJob_qsel (s : State) (j : Nat) (x : Job) : (s.setJob j x).qsel = s.qsel := rfl
@[simp] theorem State.setJob_fpsel (s : State) (j : Nat) (x : Job) : (s.setJob j x).fpsel = s.fpsel := rfl
@[simp] theorem State.setJob_almsel (s : State) (j : Nat) (x : Job) : (s.setJob j x).almsel = s.almsel := rfl
@[simp] theorem State.setJob_nextId (s : State) (j : Nat) (x : Job) : (s.setJob j x).nextId = s.nextId := rfl
@[simp] theorem State.setJob_nextAge (s : State) (j : Nat) (x : Job) : (s.setJob j x).nextAge = s.nextAge := rfl
@[simp] theorem State.setJob_nextHandle (s : State) (j : Nat) (x : Job) : (s.setJob j x).nextHandle = s.nextHandle := rfl
@[simp] theorem State.setJob_freeCount (s : State) (j : Nat) (x : Job) : (s.setJob j x).freeCount = s.freeCount := rfl

/-! ### `setLq` -/

@[simp] theorem State.setLq_issuer (s : State) (q : Nat) (x : LQueue) : (s.setLq q x).issuer = s.issuer := rfl
@[simp] theorem State.setLq_schedule (s : State) (q : Nat) (x : LQueue) : (s.setLq q x).schedule = s.schedule := rfl
@[simp] theorem State.setLq_time (s : State) (q : Nat) (x : LQueue) : (s.setLq q x).time = s.time := rfl
@[simp] theorem State.setLq_resetAt (s : State) (q : Nat) (x : LQueue) : (s.setLq q x).resetAt = s.resetAt := rfl
@[simp] theorem State.setLq_mem (s : State) (q : Nat) (x : LQueue) : (s.setLq q x).mem = s.mem := rfl
@[simp] theorem State.setLq_hbmOld (s : State) (q : Nat) (x : LQueue) : (s.setLq q x).hbmOld = s.hbmOld := rfl
@[simp] theorem State.setLq_groups (s : State) (q : Nat) (x : LQueue) : (s.setLq q x).groups = s.groups := rfl
@[simp] theorem State.setLq_blocks (s : State) (q : Nat) (x : LQueue) : (s.setLq q x).blocks = s.blocks := rfl
@[simp] theorem State.setLq_stooks (s : State) (q : Nat) (x : LQueue) : (s.setLq q x).stooks = s.stooks := rfl
@[simp] theorem State.setLq_grids (s : State) (q : Nat) (x : LQueue) : (s.setLq q x).grids = s.grids := rfl
@[simp] theorem State.setLq_cores (s : State) (q : Nat) (x : LQueue) : (s.setLq q x).cores = s.cores := rfl
@[simp] theorem State.setLq_dies (s : State) (q : Nat) (x : LQueue) : (s.setLq q x).dies = s.dies := rfl
@[simp] theorem State.setLq_jobs (s : State) (q : Nat) (x : LQueue) : (s.setLq q x).jobs = s.jobs := rfl
@[simp] theorem State.setLq_ptes (s : State) (q : Nat) (x : LQueue) : (s.setLq q x).ptes = s.ptes := rfl
@[simp] theorem State.setLq_waiting (s : State) (q : Nat) (x : LQueue) : (s.setLq q x).waiting = s.waiting := rfl
@[simp] theorem State.setLq_bqueues (s : State) (q : Nat) (x : LQueue) : (s.setLq q x).bqueues = s.bqueues := rfl
@[simp] theorem State.setLq_runqs (s : State) (q : Nat) (x : LQueue) : (s.setLq q x).runqs = s.runqs := rfl
@[simp] theorem State.setLq_taskPassed (s : State) (q : Nat) (x : LQueue) : (s.setLq q x).taskPassed = s.taskPassed := rfl
@[simp] theorem State.setLq_subs (s : State) (q : Nat) (x : LQueue) : (s.setLq q x).subs = s.subs := rfl
@[simp] theorem State.setLq_lastWriter (s : State) (q : Nat) (x : LQueue) : (s.setLq q x).lastWriter = s.lastWriter := rfl
@[simp] theorem State.setLq_gstores (s : State) (q : Nat) (x : LQueue) : (s.setLq q x).gstores = s.gstores := rfl
@[simp] theorem State.setLq_grades (s : State) (q : Nat) (x : LQueue) : (s.setLq q x).grades = s.grades := rfl
@[simp] theorem State.setLq_granges (s : State) (q : Nat) (x : LQueue) : (s.setLq q x).granges = s.granges := rfl
@[simp] theorem State.setLq_cranges (s : State) (q : Nat) (x : LQueue) : (s.setLq q x).cranges = s.cranges := rfl
@[simp] theorem State.setLq_partials (s : State) (q : Nat) (x : LQueue) : (s.setLq q x).partials = s.partials := rfl
@[simp] theorem State.setLq_spilled (s : State) (q : Nat) (x : LQueue) : (s.setLq q x).spilled = s.spilled := rfl
@[simp] theorem State.setLq_copies (s : State) (q : Nat) (x : LQueue) : (s.setLq q x).copies = s.copies := rfl
@[simp] theorem State.setLq_homes (s : State) (q : Nat) (x : LQueue) : (s.setLq q x).homes = s.homes := rfl
@[simp] theorem State.setLq_epoch (s : State) (q : Nat) (x : LQueue) : (s.setLq q x).epoch = s.epoch := rfl
@[simp] theorem State.setLq_epochAt (s : State) (q : Nat) (x : LQueue) : (s.setLq q x).epochAt = s.epochAt := rfl
@[simp] theorem State.setLq_moves (s : State) (q : Nat) (x : LQueue) : (s.setLq q x).moves = s.moves := rfl
@[simp] theorem State.setLq_handlerWait (s : State) (q : Nat) (x : LQueue) : (s.setLq q x).handlerWait = s.handlerWait := rfl
@[simp] theorem State.setLq_stops (s : State) (q : Nat) (x : LQueue) : (s.setLq q x).stops = s.stops := rfl
@[simp] theorem State.setLq_todoHeld (s : State) (q : Nat) (x : LQueue) : (s.setLq q x).todoHeld = s.todoHeld := rfl
@[simp] theorem State.setLq_tasks (s : State) (q : Nat) (x : LQueue) : (s.setLq q x).tasks = s.tasks := rfl
@[simp] theorem State.setLq_remoteSubs (s : State) (q : Nat) (x : LQueue) : (s.setLq q x).remoteSubs = s.remoteSubs := rfl
@[simp] theorem State.setLq_fabric (s : State) (q : Nat) (x : LQueue) : (s.setLq q x).fabric = s.fabric := rfl
@[simp] theorem State.setLq_root (s : State) (q : Nat) (x : LQueue) : (s.setLq q x).root = s.root := rfl
@[simp] theorem State.setLq_dieReset (s : State) (q : Nat) (x : LQueue) : (s.setLq q x).dieReset = s.dieReset := rfl
@[simp] theorem State.setLq_resets (s : State) (q : Nat) (x : LQueue) : (s.setLq q x).resets = s.resets := rfl
@[simp] theorem State.setLq_poison (s : State) (q : Nat) (x : LQueue) : (s.setLq q x).poison = s.poison := rfl
@[simp] theorem State.setLq_cxlData (s : State) (q : Nat) (x : LQueue) : (s.setLq q x).cxlData = s.cxlData := rfl
@[simp] theorem State.setLq_parkth (s : State) (q : Nat) (x : LQueue) : (s.setLq q x).parkth = s.parkth := rfl
@[simp] theorem State.setLq_admitReg (s : State) (q : Nat) (x : LQueue) : (s.setLq q x).admitReg = s.admitReg := rfl
@[simp] theorem State.setLq_wdog (s : State) (q : Nat) (x : LQueue) : (s.setLq q x).wdog = s.wdog := rfl
@[simp] theorem State.setLq_migr (s : State) (q : Nat) (x : LQueue) : (s.setLq q x).migr = s.migr := rfl
@[simp] theorem State.setLq_qsel (s : State) (q : Nat) (x : LQueue) : (s.setLq q x).qsel = s.qsel := rfl
@[simp] theorem State.setLq_fpsel (s : State) (q : Nat) (x : LQueue) : (s.setLq q x).fpsel = s.fpsel := rfl
@[simp] theorem State.setLq_almsel (s : State) (q : Nat) (x : LQueue) : (s.setLq q x).almsel = s.almsel := rfl
@[simp] theorem State.setLq_nextId (s : State) (q : Nat) (x : LQueue) : (s.setLq q x).nextId = s.nextId := rfl
@[simp] theorem State.setLq_nextAge (s : State) (q : Nat) (x : LQueue) : (s.setLq q x).nextAge = s.nextAge := rfl
@[simp] theorem State.setLq_nextHandle (s : State) (q : Nat) (x : LQueue) : (s.setLq q x).nextHandle = s.nextHandle := rfl
@[simp] theorem State.setLq_freeCount (s : State) (q : Nat) (x : LQueue) : (s.setLq q x).freeCount = s.freeCount := rfl

/-! ### `setBq` -/

@[simp] theorem State.setBq_issuer (s : State) (q : Nat) (x : BQueue) : (s.setBq q x).issuer = s.issuer := rfl
@[simp] theorem State.setBq_schedule (s : State) (q : Nat) (x : BQueue) : (s.setBq q x).schedule = s.schedule := rfl
@[simp] theorem State.setBq_time (s : State) (q : Nat) (x : BQueue) : (s.setBq q x).time = s.time := rfl
@[simp] theorem State.setBq_resetAt (s : State) (q : Nat) (x : BQueue) : (s.setBq q x).resetAt = s.resetAt := rfl
@[simp] theorem State.setBq_mem (s : State) (q : Nat) (x : BQueue) : (s.setBq q x).mem = s.mem := rfl
@[simp] theorem State.setBq_hbmOld (s : State) (q : Nat) (x : BQueue) : (s.setBq q x).hbmOld = s.hbmOld := rfl
@[simp] theorem State.setBq_groups (s : State) (q : Nat) (x : BQueue) : (s.setBq q x).groups = s.groups := rfl
@[simp] theorem State.setBq_blocks (s : State) (q : Nat) (x : BQueue) : (s.setBq q x).blocks = s.blocks := rfl
@[simp] theorem State.setBq_stooks (s : State) (q : Nat) (x : BQueue) : (s.setBq q x).stooks = s.stooks := rfl
@[simp] theorem State.setBq_grids (s : State) (q : Nat) (x : BQueue) : (s.setBq q x).grids = s.grids := rfl
@[simp] theorem State.setBq_cores (s : State) (q : Nat) (x : BQueue) : (s.setBq q x).cores = s.cores := rfl
@[simp] theorem State.setBq_dies (s : State) (q : Nat) (x : BQueue) : (s.setBq q x).dies = s.dies := rfl
@[simp] theorem State.setBq_jobs (s : State) (q : Nat) (x : BQueue) : (s.setBq q x).jobs = s.jobs := rfl
@[simp] theorem State.setBq_ptes (s : State) (q : Nat) (x : BQueue) : (s.setBq q x).ptes = s.ptes := rfl
@[simp] theorem State.setBq_lqueues (s : State) (q : Nat) (x : BQueue) : (s.setBq q x).lqueues = s.lqueues := rfl
@[simp] theorem State.setBq_waiting (s : State) (q : Nat) (x : BQueue) : (s.setBq q x).waiting = s.waiting := rfl
@[simp] theorem State.setBq_runqs (s : State) (q : Nat) (x : BQueue) : (s.setBq q x).runqs = s.runqs := rfl
@[simp] theorem State.setBq_taskPassed (s : State) (q : Nat) (x : BQueue) : (s.setBq q x).taskPassed = s.taskPassed := rfl
@[simp] theorem State.setBq_subs (s : State) (q : Nat) (x : BQueue) : (s.setBq q x).subs = s.subs := rfl
@[simp] theorem State.setBq_lastWriter (s : State) (q : Nat) (x : BQueue) : (s.setBq q x).lastWriter = s.lastWriter := rfl
@[simp] theorem State.setBq_gstores (s : State) (q : Nat) (x : BQueue) : (s.setBq q x).gstores = s.gstores := rfl
@[simp] theorem State.setBq_grades (s : State) (q : Nat) (x : BQueue) : (s.setBq q x).grades = s.grades := rfl
@[simp] theorem State.setBq_granges (s : State) (q : Nat) (x : BQueue) : (s.setBq q x).granges = s.granges := rfl
@[simp] theorem State.setBq_cranges (s : State) (q : Nat) (x : BQueue) : (s.setBq q x).cranges = s.cranges := rfl
@[simp] theorem State.setBq_partials (s : State) (q : Nat) (x : BQueue) : (s.setBq q x).partials = s.partials := rfl
@[simp] theorem State.setBq_spilled (s : State) (q : Nat) (x : BQueue) : (s.setBq q x).spilled = s.spilled := rfl
@[simp] theorem State.setBq_copies (s : State) (q : Nat) (x : BQueue) : (s.setBq q x).copies = s.copies := rfl
@[simp] theorem State.setBq_homes (s : State) (q : Nat) (x : BQueue) : (s.setBq q x).homes = s.homes := rfl
@[simp] theorem State.setBq_epoch (s : State) (q : Nat) (x : BQueue) : (s.setBq q x).epoch = s.epoch := rfl
@[simp] theorem State.setBq_epochAt (s : State) (q : Nat) (x : BQueue) : (s.setBq q x).epochAt = s.epochAt := rfl
@[simp] theorem State.setBq_moves (s : State) (q : Nat) (x : BQueue) : (s.setBq q x).moves = s.moves := rfl
@[simp] theorem State.setBq_handlerWait (s : State) (q : Nat) (x : BQueue) : (s.setBq q x).handlerWait = s.handlerWait := rfl
@[simp] theorem State.setBq_stops (s : State) (q : Nat) (x : BQueue) : (s.setBq q x).stops = s.stops := rfl
@[simp] theorem State.setBq_todoHeld (s : State) (q : Nat) (x : BQueue) : (s.setBq q x).todoHeld = s.todoHeld := rfl
@[simp] theorem State.setBq_tasks (s : State) (q : Nat) (x : BQueue) : (s.setBq q x).tasks = s.tasks := rfl
@[simp] theorem State.setBq_remoteSubs (s : State) (q : Nat) (x : BQueue) : (s.setBq q x).remoteSubs = s.remoteSubs := rfl
@[simp] theorem State.setBq_fabric (s : State) (q : Nat) (x : BQueue) : (s.setBq q x).fabric = s.fabric := rfl
@[simp] theorem State.setBq_root (s : State) (q : Nat) (x : BQueue) : (s.setBq q x).root = s.root := rfl
@[simp] theorem State.setBq_dieReset (s : State) (q : Nat) (x : BQueue) : (s.setBq q x).dieReset = s.dieReset := rfl
@[simp] theorem State.setBq_resets (s : State) (q : Nat) (x : BQueue) : (s.setBq q x).resets = s.resets := rfl
@[simp] theorem State.setBq_poison (s : State) (q : Nat) (x : BQueue) : (s.setBq q x).poison = s.poison := rfl
@[simp] theorem State.setBq_cxlData (s : State) (q : Nat) (x : BQueue) : (s.setBq q x).cxlData = s.cxlData := rfl
@[simp] theorem State.setBq_parkth (s : State) (q : Nat) (x : BQueue) : (s.setBq q x).parkth = s.parkth := rfl
@[simp] theorem State.setBq_admitReg (s : State) (q : Nat) (x : BQueue) : (s.setBq q x).admitReg = s.admitReg := rfl
@[simp] theorem State.setBq_wdog (s : State) (q : Nat) (x : BQueue) : (s.setBq q x).wdog = s.wdog := rfl
@[simp] theorem State.setBq_migr (s : State) (q : Nat) (x : BQueue) : (s.setBq q x).migr = s.migr := rfl
@[simp] theorem State.setBq_qsel (s : State) (q : Nat) (x : BQueue) : (s.setBq q x).qsel = s.qsel := rfl
@[simp] theorem State.setBq_fpsel (s : State) (q : Nat) (x : BQueue) : (s.setBq q x).fpsel = s.fpsel := rfl
@[simp] theorem State.setBq_almsel (s : State) (q : Nat) (x : BQueue) : (s.setBq q x).almsel = s.almsel := rfl
@[simp] theorem State.setBq_nextId (s : State) (q : Nat) (x : BQueue) : (s.setBq q x).nextId = s.nextId := rfl
@[simp] theorem State.setBq_nextAge (s : State) (q : Nat) (x : BQueue) : (s.setBq q x).nextAge = s.nextAge := rfl
@[simp] theorem State.setBq_nextHandle (s : State) (q : Nat) (x : BQueue) : (s.setBq q x).nextHandle = s.nextHandle := rfl
@[simp] theorem State.setBq_freeCount (s : State) (q : Nat) (x : BQueue) : (s.setBq q x).freeCount = s.freeCount := rfl

/-! ### `setGrade` -/

@[simp] theorem State.setGrade_issuer (s : State) (line : Nat) (g : Grade) : (s.setGrade line g).issuer = s.issuer := rfl
@[simp] theorem State.setGrade_schedule (s : State) (line : Nat) (g : Grade) : (s.setGrade line g).schedule = s.schedule := rfl
@[simp] theorem State.setGrade_time (s : State) (line : Nat) (g : Grade) : (s.setGrade line g).time = s.time := rfl
@[simp] theorem State.setGrade_resetAt (s : State) (line : Nat) (g : Grade) : (s.setGrade line g).resetAt = s.resetAt := rfl
@[simp] theorem State.setGrade_mem (s : State) (line : Nat) (g : Grade) : (s.setGrade line g).mem = s.mem := rfl
@[simp] theorem State.setGrade_hbmOld (s : State) (line : Nat) (g : Grade) : (s.setGrade line g).hbmOld = s.hbmOld := rfl
@[simp] theorem State.setGrade_groups (s : State) (line : Nat) (g : Grade) : (s.setGrade line g).groups = s.groups := rfl
@[simp] theorem State.setGrade_blocks (s : State) (line : Nat) (g : Grade) : (s.setGrade line g).blocks = s.blocks := rfl
@[simp] theorem State.setGrade_stooks (s : State) (line : Nat) (g : Grade) : (s.setGrade line g).stooks = s.stooks := rfl
@[simp] theorem State.setGrade_grids (s : State) (line : Nat) (g : Grade) : (s.setGrade line g).grids = s.grids := rfl
@[simp] theorem State.setGrade_cores (s : State) (line : Nat) (g : Grade) : (s.setGrade line g).cores = s.cores := rfl
@[simp] theorem State.setGrade_dies (s : State) (line : Nat) (g : Grade) : (s.setGrade line g).dies = s.dies := rfl
@[simp] theorem State.setGrade_jobs (s : State) (line : Nat) (g : Grade) : (s.setGrade line g).jobs = s.jobs := rfl
@[simp] theorem State.setGrade_ptes (s : State) (line : Nat) (g : Grade) : (s.setGrade line g).ptes = s.ptes := rfl
@[simp] theorem State.setGrade_lqueues (s : State) (line : Nat) (g : Grade) : (s.setGrade line g).lqueues = s.lqueues := rfl
@[simp] theorem State.setGrade_waiting (s : State) (line : Nat) (g : Grade) : (s.setGrade line g).waiting = s.waiting := rfl
@[simp] theorem State.setGrade_bqueues (s : State) (line : Nat) (g : Grade) : (s.setGrade line g).bqueues = s.bqueues := rfl
@[simp] theorem State.setGrade_runqs (s : State) (line : Nat) (g : Grade) : (s.setGrade line g).runqs = s.runqs := rfl
@[simp] theorem State.setGrade_taskPassed (s : State) (line : Nat) (g : Grade) : (s.setGrade line g).taskPassed = s.taskPassed := rfl
@[simp] theorem State.setGrade_subs (s : State) (line : Nat) (g : Grade) : (s.setGrade line g).subs = s.subs := rfl
@[simp] theorem State.setGrade_lastWriter (s : State) (line : Nat) (g : Grade) : (s.setGrade line g).lastWriter = s.lastWriter := rfl
@[simp] theorem State.setGrade_gstores (s : State) (line : Nat) (g : Grade) : (s.setGrade line g).gstores = s.gstores := rfl
@[simp] theorem State.setGrade_granges (s : State) (line : Nat) (g : Grade) : (s.setGrade line g).granges = s.granges := rfl
@[simp] theorem State.setGrade_cranges (s : State) (line : Nat) (g : Grade) : (s.setGrade line g).cranges = s.cranges := rfl
@[simp] theorem State.setGrade_partials (s : State) (line : Nat) (g : Grade) : (s.setGrade line g).partials = s.partials := rfl
@[simp] theorem State.setGrade_spilled (s : State) (line : Nat) (g : Grade) : (s.setGrade line g).spilled = s.spilled := rfl
@[simp] theorem State.setGrade_copies (s : State) (line : Nat) (g : Grade) : (s.setGrade line g).copies = s.copies := rfl
@[simp] theorem State.setGrade_homes (s : State) (line : Nat) (g : Grade) : (s.setGrade line g).homes = s.homes := rfl
@[simp] theorem State.setGrade_epoch (s : State) (line : Nat) (g : Grade) : (s.setGrade line g).epoch = s.epoch := rfl
@[simp] theorem State.setGrade_epochAt (s : State) (line : Nat) (g : Grade) : (s.setGrade line g).epochAt = s.epochAt := rfl
@[simp] theorem State.setGrade_moves (s : State) (line : Nat) (g : Grade) : (s.setGrade line g).moves = s.moves := rfl
@[simp] theorem State.setGrade_handlerWait (s : State) (line : Nat) (g : Grade) : (s.setGrade line g).handlerWait = s.handlerWait := rfl
@[simp] theorem State.setGrade_stops (s : State) (line : Nat) (g : Grade) : (s.setGrade line g).stops = s.stops := rfl
@[simp] theorem State.setGrade_todoHeld (s : State) (line : Nat) (g : Grade) : (s.setGrade line g).todoHeld = s.todoHeld := rfl
@[simp] theorem State.setGrade_tasks (s : State) (line : Nat) (g : Grade) : (s.setGrade line g).tasks = s.tasks := rfl
@[simp] theorem State.setGrade_remoteSubs (s : State) (line : Nat) (g : Grade) : (s.setGrade line g).remoteSubs = s.remoteSubs := rfl
@[simp] theorem State.setGrade_fabric (s : State) (line : Nat) (g : Grade) : (s.setGrade line g).fabric = s.fabric := rfl
@[simp] theorem State.setGrade_root (s : State) (line : Nat) (g : Grade) : (s.setGrade line g).root = s.root := rfl
@[simp] theorem State.setGrade_dieReset (s : State) (line : Nat) (g : Grade) : (s.setGrade line g).dieReset = s.dieReset := rfl
@[simp] theorem State.setGrade_resets (s : State) (line : Nat) (g : Grade) : (s.setGrade line g).resets = s.resets := rfl
@[simp] theorem State.setGrade_poison (s : State) (line : Nat) (g : Grade) : (s.setGrade line g).poison = s.poison := rfl
@[simp] theorem State.setGrade_cxlData (s : State) (line : Nat) (g : Grade) : (s.setGrade line g).cxlData = s.cxlData := rfl
@[simp] theorem State.setGrade_parkth (s : State) (line : Nat) (g : Grade) : (s.setGrade line g).parkth = s.parkth := rfl
@[simp] theorem State.setGrade_admitReg (s : State) (line : Nat) (g : Grade) : (s.setGrade line g).admitReg = s.admitReg := rfl
@[simp] theorem State.setGrade_wdog (s : State) (line : Nat) (g : Grade) : (s.setGrade line g).wdog = s.wdog := rfl
@[simp] theorem State.setGrade_migr (s : State) (line : Nat) (g : Grade) : (s.setGrade line g).migr = s.migr := rfl
@[simp] theorem State.setGrade_qsel (s : State) (line : Nat) (g : Grade) : (s.setGrade line g).qsel = s.qsel := rfl
@[simp] theorem State.setGrade_fpsel (s : State) (line : Nat) (g : Grade) : (s.setGrade line g).fpsel = s.fpsel := rfl
@[simp] theorem State.setGrade_almsel (s : State) (line : Nat) (g : Grade) : (s.setGrade line g).almsel = s.almsel := rfl
@[simp] theorem State.setGrade_nextId (s : State) (line : Nat) (g : Grade) : (s.setGrade line g).nextId = s.nextId := rfl
@[simp] theorem State.setGrade_nextAge (s : State) (line : Nat) (g : Grade) : (s.setGrade line g).nextAge = s.nextAge := rfl
@[simp] theorem State.setGrade_nextHandle (s : State) (line : Nat) (g : Grade) : (s.setGrade line g).nextHandle = s.nextHandle := rfl
@[simp] theorem State.setGrade_freeCount (s : State) (line : Nat) (g : Grade) : (s.setGrade line g).freeCount = s.freeCount := rfl

/-! ### `useFree` -/

@[simp] theorem State.useFree_issuer (s : State) (n : Nat) : (s.useFree n).issuer = s.issuer := rfl
@[simp] theorem State.useFree_schedule (s : State) (n : Nat) : (s.useFree n).schedule = s.schedule := rfl
@[simp] theorem State.useFree_time (s : State) (n : Nat) : (s.useFree n).time = s.time := rfl
@[simp] theorem State.useFree_resetAt (s : State) (n : Nat) : (s.useFree n).resetAt = s.resetAt := rfl
@[simp] theorem State.useFree_mem (s : State) (n : Nat) : (s.useFree n).mem = s.mem := rfl
@[simp] theorem State.useFree_hbmOld (s : State) (n : Nat) : (s.useFree n).hbmOld = s.hbmOld := rfl
@[simp] theorem State.useFree_groups (s : State) (n : Nat) : (s.useFree n).groups = s.groups := rfl
@[simp] theorem State.useFree_blocks (s : State) (n : Nat) : (s.useFree n).blocks = s.blocks := rfl
@[simp] theorem State.useFree_stooks (s : State) (n : Nat) : (s.useFree n).stooks = s.stooks := rfl
@[simp] theorem State.useFree_grids (s : State) (n : Nat) : (s.useFree n).grids = s.grids := rfl
@[simp] theorem State.useFree_cores (s : State) (n : Nat) : (s.useFree n).cores = s.cores := rfl
@[simp] theorem State.useFree_dies (s : State) (n : Nat) : (s.useFree n).dies = s.dies := rfl
@[simp] theorem State.useFree_jobs (s : State) (n : Nat) : (s.useFree n).jobs = s.jobs := rfl
@[simp] theorem State.useFree_ptes (s : State) (n : Nat) : (s.useFree n).ptes = s.ptes := rfl
@[simp] theorem State.useFree_lqueues (s : State) (n : Nat) : (s.useFree n).lqueues = s.lqueues := rfl
@[simp] theorem State.useFree_waiting (s : State) (n : Nat) : (s.useFree n).waiting = s.waiting := rfl
@[simp] theorem State.useFree_bqueues (s : State) (n : Nat) : (s.useFree n).bqueues = s.bqueues := rfl
@[simp] theorem State.useFree_runqs (s : State) (n : Nat) : (s.useFree n).runqs = s.runqs := rfl
@[simp] theorem State.useFree_taskPassed (s : State) (n : Nat) : (s.useFree n).taskPassed = s.taskPassed := rfl
@[simp] theorem State.useFree_subs (s : State) (n : Nat) : (s.useFree n).subs = s.subs := rfl
@[simp] theorem State.useFree_lastWriter (s : State) (n : Nat) : (s.useFree n).lastWriter = s.lastWriter := rfl
@[simp] theorem State.useFree_gstores (s : State) (n : Nat) : (s.useFree n).gstores = s.gstores := rfl
@[simp] theorem State.useFree_grades (s : State) (n : Nat) : (s.useFree n).grades = s.grades := rfl
@[simp] theorem State.useFree_granges (s : State) (n : Nat) : (s.useFree n).granges = s.granges := rfl
@[simp] theorem State.useFree_cranges (s : State) (n : Nat) : (s.useFree n).cranges = s.cranges := rfl
@[simp] theorem State.useFree_partials (s : State) (n : Nat) : (s.useFree n).partials = s.partials := rfl
@[simp] theorem State.useFree_spilled (s : State) (n : Nat) : (s.useFree n).spilled = s.spilled := rfl
@[simp] theorem State.useFree_copies (s : State) (n : Nat) : (s.useFree n).copies = s.copies := rfl
@[simp] theorem State.useFree_homes (s : State) (n : Nat) : (s.useFree n).homes = s.homes := rfl
@[simp] theorem State.useFree_epoch (s : State) (n : Nat) : (s.useFree n).epoch = s.epoch := rfl
@[simp] theorem State.useFree_epochAt (s : State) (n : Nat) : (s.useFree n).epochAt = s.epochAt := rfl
@[simp] theorem State.useFree_moves (s : State) (n : Nat) : (s.useFree n).moves = s.moves := rfl
@[simp] theorem State.useFree_handlerWait (s : State) (n : Nat) : (s.useFree n).handlerWait = s.handlerWait := rfl
@[simp] theorem State.useFree_stops (s : State) (n : Nat) : (s.useFree n).stops = s.stops := rfl
@[simp] theorem State.useFree_todoHeld (s : State) (n : Nat) : (s.useFree n).todoHeld = s.todoHeld := rfl
@[simp] theorem State.useFree_tasks (s : State) (n : Nat) : (s.useFree n).tasks = s.tasks := rfl
@[simp] theorem State.useFree_remoteSubs (s : State) (n : Nat) : (s.useFree n).remoteSubs = s.remoteSubs := rfl
@[simp] theorem State.useFree_fabric (s : State) (n : Nat) : (s.useFree n).fabric = s.fabric := rfl
@[simp] theorem State.useFree_root (s : State) (n : Nat) : (s.useFree n).root = s.root := rfl
@[simp] theorem State.useFree_dieReset (s : State) (n : Nat) : (s.useFree n).dieReset = s.dieReset := rfl
@[simp] theorem State.useFree_resets (s : State) (n : Nat) : (s.useFree n).resets = s.resets := rfl
@[simp] theorem State.useFree_poison (s : State) (n : Nat) : (s.useFree n).poison = s.poison := rfl
@[simp] theorem State.useFree_cxlData (s : State) (n : Nat) : (s.useFree n).cxlData = s.cxlData := rfl
@[simp] theorem State.useFree_parkth (s : State) (n : Nat) : (s.useFree n).parkth = s.parkth := rfl
@[simp] theorem State.useFree_admitReg (s : State) (n : Nat) : (s.useFree n).admitReg = s.admitReg := rfl
@[simp] theorem State.useFree_wdog (s : State) (n : Nat) : (s.useFree n).wdog = s.wdog := rfl
@[simp] theorem State.useFree_migr (s : State) (n : Nat) : (s.useFree n).migr = s.migr := rfl
@[simp] theorem State.useFree_qsel (s : State) (n : Nat) : (s.useFree n).qsel = s.qsel := rfl
@[simp] theorem State.useFree_fpsel (s : State) (n : Nat) : (s.useFree n).fpsel = s.fpsel := rfl
@[simp] theorem State.useFree_almsel (s : State) (n : Nat) : (s.useFree n).almsel = s.almsel := rfl
@[simp] theorem State.useFree_nextId (s : State) (n : Nat) : (s.useFree n).nextId = s.nextId := rfl
@[simp] theorem State.useFree_nextAge (s : State) (n : Nat) : (s.useFree n).nextAge = s.nextAge := rfl
@[simp] theorem State.useFree_nextHandle (s : State) (n : Nat) : (s.useFree n).nextHandle = s.nextHandle := rfl

/-! ### `modGrp` -/

@[simp] theorem State.modGrp_issuer (s : State) (g : Nat) (f : Group → Group) : (s.modGrp g f).issuer = s.issuer := by unfold State.modGrp; split <;> rfl
@[simp] theorem State.modGrp_schedule (s : State) (g : Nat) (f : Group → Group) : (s.modGrp g f).schedule = s.schedule := by unfold State.modGrp; split <;> rfl
@[simp] theorem State.modGrp_time (s : State) (g : Nat) (f : Group → Group) : (s.modGrp g f).time = s.time := by unfold State.modGrp; split <;> rfl
@[simp] theorem State.modGrp_resetAt (s : State) (g : Nat) (f : Group → Group) : (s.modGrp g f).resetAt = s.resetAt := by unfold State.modGrp; split <;> rfl
@[simp] theorem State.modGrp_mem (s : State) (g : Nat) (f : Group → Group) : (s.modGrp g f).mem = s.mem := by unfold State.modGrp; split <;> rfl
@[simp] theorem State.modGrp_hbmOld (s : State) (g : Nat) (f : Group → Group) : (s.modGrp g f).hbmOld = s.hbmOld := by unfold State.modGrp; split <;> rfl
@[simp] theorem State.modGrp_blocks (s : State) (g : Nat) (f : Group → Group) : (s.modGrp g f).blocks = s.blocks := by unfold State.modGrp; split <;> rfl
@[simp] theorem State.modGrp_stooks (s : State) (g : Nat) (f : Group → Group) : (s.modGrp g f).stooks = s.stooks := by unfold State.modGrp; split <;> rfl
@[simp] theorem State.modGrp_grids (s : State) (g : Nat) (f : Group → Group) : (s.modGrp g f).grids = s.grids := by unfold State.modGrp; split <;> rfl
@[simp] theorem State.modGrp_cores (s : State) (g : Nat) (f : Group → Group) : (s.modGrp g f).cores = s.cores := by unfold State.modGrp; split <;> rfl
@[simp] theorem State.modGrp_dies (s : State) (g : Nat) (f : Group → Group) : (s.modGrp g f).dies = s.dies := by unfold State.modGrp; split <;> rfl
@[simp] theorem State.modGrp_jobs (s : State) (g : Nat) (f : Group → Group) : (s.modGrp g f).jobs = s.jobs := by unfold State.modGrp; split <;> rfl
@[simp] theorem State.modGrp_ptes (s : State) (g : Nat) (f : Group → Group) : (s.modGrp g f).ptes = s.ptes := by unfold State.modGrp; split <;> rfl
@[simp] theorem State.modGrp_lqueues (s : State) (g : Nat) (f : Group → Group) : (s.modGrp g f).lqueues = s.lqueues := by unfold State.modGrp; split <;> rfl
@[simp] theorem State.modGrp_waiting (s : State) (g : Nat) (f : Group → Group) : (s.modGrp g f).waiting = s.waiting := by unfold State.modGrp; split <;> rfl
@[simp] theorem State.modGrp_bqueues (s : State) (g : Nat) (f : Group → Group) : (s.modGrp g f).bqueues = s.bqueues := by unfold State.modGrp; split <;> rfl
@[simp] theorem State.modGrp_runqs (s : State) (g : Nat) (f : Group → Group) : (s.modGrp g f).runqs = s.runqs := by unfold State.modGrp; split <;> rfl
@[simp] theorem State.modGrp_taskPassed (s : State) (g : Nat) (f : Group → Group) : (s.modGrp g f).taskPassed = s.taskPassed := by unfold State.modGrp; split <;> rfl
@[simp] theorem State.modGrp_subs (s : State) (g : Nat) (f : Group → Group) : (s.modGrp g f).subs = s.subs := by unfold State.modGrp; split <;> rfl
@[simp] theorem State.modGrp_lastWriter (s : State) (g : Nat) (f : Group → Group) : (s.modGrp g f).lastWriter = s.lastWriter := by unfold State.modGrp; split <;> rfl
@[simp] theorem State.modGrp_gstores (s : State) (g : Nat) (f : Group → Group) : (s.modGrp g f).gstores = s.gstores := by unfold State.modGrp; split <;> rfl
@[simp] theorem State.modGrp_grades (s : State) (g : Nat) (f : Group → Group) : (s.modGrp g f).grades = s.grades := by unfold State.modGrp; split <;> rfl
@[simp] theorem State.modGrp_granges (s : State) (g : Nat) (f : Group → Group) : (s.modGrp g f).granges = s.granges := by unfold State.modGrp; split <;> rfl
@[simp] theorem State.modGrp_cranges (s : State) (g : Nat) (f : Group → Group) : (s.modGrp g f).cranges = s.cranges := by unfold State.modGrp; split <;> rfl
@[simp] theorem State.modGrp_partials (s : State) (g : Nat) (f : Group → Group) : (s.modGrp g f).partials = s.partials := by unfold State.modGrp; split <;> rfl
@[simp] theorem State.modGrp_spilled (s : State) (g : Nat) (f : Group → Group) : (s.modGrp g f).spilled = s.spilled := by unfold State.modGrp; split <;> rfl
@[simp] theorem State.modGrp_copies (s : State) (g : Nat) (f : Group → Group) : (s.modGrp g f).copies = s.copies := by unfold State.modGrp; split <;> rfl
@[simp] theorem State.modGrp_homes (s : State) (g : Nat) (f : Group → Group) : (s.modGrp g f).homes = s.homes := by unfold State.modGrp; split <;> rfl
@[simp] theorem State.modGrp_epoch (s : State) (g : Nat) (f : Group → Group) : (s.modGrp g f).epoch = s.epoch := by unfold State.modGrp; split <;> rfl
@[simp] theorem State.modGrp_epochAt (s : State) (g : Nat) (f : Group → Group) : (s.modGrp g f).epochAt = s.epochAt := by unfold State.modGrp; split <;> rfl
@[simp] theorem State.modGrp_moves (s : State) (g : Nat) (f : Group → Group) : (s.modGrp g f).moves = s.moves := by unfold State.modGrp; split <;> rfl
@[simp] theorem State.modGrp_handlerWait (s : State) (g : Nat) (f : Group → Group) : (s.modGrp g f).handlerWait = s.handlerWait := by unfold State.modGrp; split <;> rfl
@[simp] theorem State.modGrp_stops (s : State) (g : Nat) (f : Group → Group) : (s.modGrp g f).stops = s.stops := by unfold State.modGrp; split <;> rfl
@[simp] theorem State.modGrp_todoHeld (s : State) (g : Nat) (f : Group → Group) : (s.modGrp g f).todoHeld = s.todoHeld := by unfold State.modGrp; split <;> rfl
@[simp] theorem State.modGrp_tasks (s : State) (g : Nat) (f : Group → Group) : (s.modGrp g f).tasks = s.tasks := by unfold State.modGrp; split <;> rfl
@[simp] theorem State.modGrp_remoteSubs (s : State) (g : Nat) (f : Group → Group) : (s.modGrp g f).remoteSubs = s.remoteSubs := by unfold State.modGrp; split <;> rfl
@[simp] theorem State.modGrp_fabric (s : State) (g : Nat) (f : Group → Group) : (s.modGrp g f).fabric = s.fabric := by unfold State.modGrp; split <;> rfl
@[simp] theorem State.modGrp_root (s : State) (g : Nat) (f : Group → Group) : (s.modGrp g f).root = s.root := by unfold State.modGrp; split <;> rfl
@[simp] theorem State.modGrp_dieReset (s : State) (g : Nat) (f : Group → Group) : (s.modGrp g f).dieReset = s.dieReset := by unfold State.modGrp; split <;> rfl
@[simp] theorem State.modGrp_resets (s : State) (g : Nat) (f : Group → Group) : (s.modGrp g f).resets = s.resets := by unfold State.modGrp; split <;> rfl
@[simp] theorem State.modGrp_poison (s : State) (g : Nat) (f : Group → Group) : (s.modGrp g f).poison = s.poison := by unfold State.modGrp; split <;> rfl
@[simp] theorem State.modGrp_cxlData (s : State) (g : Nat) (f : Group → Group) : (s.modGrp g f).cxlData = s.cxlData := by unfold State.modGrp; split <;> rfl
@[simp] theorem State.modGrp_parkth (s : State) (g : Nat) (f : Group → Group) : (s.modGrp g f).parkth = s.parkth := by unfold State.modGrp; split <;> rfl
@[simp] theorem State.modGrp_admitReg (s : State) (g : Nat) (f : Group → Group) : (s.modGrp g f).admitReg = s.admitReg := by unfold State.modGrp; split <;> rfl
@[simp] theorem State.modGrp_wdog (s : State) (g : Nat) (f : Group → Group) : (s.modGrp g f).wdog = s.wdog := by unfold State.modGrp; split <;> rfl
@[simp] theorem State.modGrp_migr (s : State) (g : Nat) (f : Group → Group) : (s.modGrp g f).migr = s.migr := by unfold State.modGrp; split <;> rfl
@[simp] theorem State.modGrp_qsel (s : State) (g : Nat) (f : Group → Group) : (s.modGrp g f).qsel = s.qsel := by unfold State.modGrp; split <;> rfl
@[simp] theorem State.modGrp_fpsel (s : State) (g : Nat) (f : Group → Group) : (s.modGrp g f).fpsel = s.fpsel := by unfold State.modGrp; split <;> rfl
@[simp] theorem State.modGrp_almsel (s : State) (g : Nat) (f : Group → Group) : (s.modGrp g f).almsel = s.almsel := by unfold State.modGrp; split <;> rfl
@[simp] theorem State.modGrp_nextId (s : State) (g : Nat) (f : Group → Group) : (s.modGrp g f).nextId = s.nextId := by unfold State.modGrp; split <;> rfl
@[simp] theorem State.modGrp_nextAge (s : State) (g : Nat) (f : Group → Group) : (s.modGrp g f).nextAge = s.nextAge := by unfold State.modGrp; split <;> rfl
@[simp] theorem State.modGrp_nextHandle (s : State) (g : Nat) (f : Group → Group) : (s.modGrp g f).nextHandle = s.nextHandle := by unfold State.modGrp; split <;> rfl
@[simp] theorem State.modGrp_freeCount (s : State) (g : Nat) (f : Group → Group) : (s.modGrp g f).freeCount = s.freeCount := by unfold State.modGrp; split <;> rfl

/-! ### `modBlk` -/

@[simp] theorem State.modBlk_issuer (s : State) (b : Nat) (f : Block → Block) : (s.modBlk b f).issuer = s.issuer := by unfold State.modBlk; split <;> rfl
@[simp] theorem State.modBlk_schedule (s : State) (b : Nat) (f : Block → Block) : (s.modBlk b f).schedule = s.schedule := by unfold State.modBlk; split <;> rfl
@[simp] theorem State.modBlk_time (s : State) (b : Nat) (f : Block → Block) : (s.modBlk b f).time = s.time := by unfold State.modBlk; split <;> rfl
@[simp] theorem State.modBlk_resetAt (s : State) (b : Nat) (f : Block → Block) : (s.modBlk b f).resetAt = s.resetAt := by unfold State.modBlk; split <;> rfl
@[simp] theorem State.modBlk_mem (s : State) (b : Nat) (f : Block → Block) : (s.modBlk b f).mem = s.mem := by unfold State.modBlk; split <;> rfl
@[simp] theorem State.modBlk_hbmOld (s : State) (b : Nat) (f : Block → Block) : (s.modBlk b f).hbmOld = s.hbmOld := by unfold State.modBlk; split <;> rfl
@[simp] theorem State.modBlk_groups (s : State) (b : Nat) (f : Block → Block) : (s.modBlk b f).groups = s.groups := by unfold State.modBlk; split <;> rfl
@[simp] theorem State.modBlk_stooks (s : State) (b : Nat) (f : Block → Block) : (s.modBlk b f).stooks = s.stooks := by unfold State.modBlk; split <;> rfl
@[simp] theorem State.modBlk_grids (s : State) (b : Nat) (f : Block → Block) : (s.modBlk b f).grids = s.grids := by unfold State.modBlk; split <;> rfl
@[simp] theorem State.modBlk_cores (s : State) (b : Nat) (f : Block → Block) : (s.modBlk b f).cores = s.cores := by unfold State.modBlk; split <;> rfl
@[simp] theorem State.modBlk_dies (s : State) (b : Nat) (f : Block → Block) : (s.modBlk b f).dies = s.dies := by unfold State.modBlk; split <;> rfl
@[simp] theorem State.modBlk_jobs (s : State) (b : Nat) (f : Block → Block) : (s.modBlk b f).jobs = s.jobs := by unfold State.modBlk; split <;> rfl
@[simp] theorem State.modBlk_ptes (s : State) (b : Nat) (f : Block → Block) : (s.modBlk b f).ptes = s.ptes := by unfold State.modBlk; split <;> rfl
@[simp] theorem State.modBlk_lqueues (s : State) (b : Nat) (f : Block → Block) : (s.modBlk b f).lqueues = s.lqueues := by unfold State.modBlk; split <;> rfl
@[simp] theorem State.modBlk_waiting (s : State) (b : Nat) (f : Block → Block) : (s.modBlk b f).waiting = s.waiting := by unfold State.modBlk; split <;> rfl
@[simp] theorem State.modBlk_bqueues (s : State) (b : Nat) (f : Block → Block) : (s.modBlk b f).bqueues = s.bqueues := by unfold State.modBlk; split <;> rfl
@[simp] theorem State.modBlk_runqs (s : State) (b : Nat) (f : Block → Block) : (s.modBlk b f).runqs = s.runqs := by unfold State.modBlk; split <;> rfl
@[simp] theorem State.modBlk_taskPassed (s : State) (b : Nat) (f : Block → Block) : (s.modBlk b f).taskPassed = s.taskPassed := by unfold State.modBlk; split <;> rfl
@[simp] theorem State.modBlk_subs (s : State) (b : Nat) (f : Block → Block) : (s.modBlk b f).subs = s.subs := by unfold State.modBlk; split <;> rfl
@[simp] theorem State.modBlk_lastWriter (s : State) (b : Nat) (f : Block → Block) : (s.modBlk b f).lastWriter = s.lastWriter := by unfold State.modBlk; split <;> rfl
@[simp] theorem State.modBlk_gstores (s : State) (b : Nat) (f : Block → Block) : (s.modBlk b f).gstores = s.gstores := by unfold State.modBlk; split <;> rfl
@[simp] theorem State.modBlk_grades (s : State) (b : Nat) (f : Block → Block) : (s.modBlk b f).grades = s.grades := by unfold State.modBlk; split <;> rfl
@[simp] theorem State.modBlk_granges (s : State) (b : Nat) (f : Block → Block) : (s.modBlk b f).granges = s.granges := by unfold State.modBlk; split <;> rfl
@[simp] theorem State.modBlk_cranges (s : State) (b : Nat) (f : Block → Block) : (s.modBlk b f).cranges = s.cranges := by unfold State.modBlk; split <;> rfl
@[simp] theorem State.modBlk_partials (s : State) (b : Nat) (f : Block → Block) : (s.modBlk b f).partials = s.partials := by unfold State.modBlk; split <;> rfl
@[simp] theorem State.modBlk_spilled (s : State) (b : Nat) (f : Block → Block) : (s.modBlk b f).spilled = s.spilled := by unfold State.modBlk; split <;> rfl
@[simp] theorem State.modBlk_copies (s : State) (b : Nat) (f : Block → Block) : (s.modBlk b f).copies = s.copies := by unfold State.modBlk; split <;> rfl
@[simp] theorem State.modBlk_homes (s : State) (b : Nat) (f : Block → Block) : (s.modBlk b f).homes = s.homes := by unfold State.modBlk; split <;> rfl
@[simp] theorem State.modBlk_epoch (s : State) (b : Nat) (f : Block → Block) : (s.modBlk b f).epoch = s.epoch := by unfold State.modBlk; split <;> rfl
@[simp] theorem State.modBlk_epochAt (s : State) (b : Nat) (f : Block → Block) : (s.modBlk b f).epochAt = s.epochAt := by unfold State.modBlk; split <;> rfl
@[simp] theorem State.modBlk_moves (s : State) (b : Nat) (f : Block → Block) : (s.modBlk b f).moves = s.moves := by unfold State.modBlk; split <;> rfl
@[simp] theorem State.modBlk_handlerWait (s : State) (b : Nat) (f : Block → Block) : (s.modBlk b f).handlerWait = s.handlerWait := by unfold State.modBlk; split <;> rfl
@[simp] theorem State.modBlk_stops (s : State) (b : Nat) (f : Block → Block) : (s.modBlk b f).stops = s.stops := by unfold State.modBlk; split <;> rfl
@[simp] theorem State.modBlk_todoHeld (s : State) (b : Nat) (f : Block → Block) : (s.modBlk b f).todoHeld = s.todoHeld := by unfold State.modBlk; split <;> rfl
@[simp] theorem State.modBlk_tasks (s : State) (b : Nat) (f : Block → Block) : (s.modBlk b f).tasks = s.tasks := by unfold State.modBlk; split <;> rfl
@[simp] theorem State.modBlk_remoteSubs (s : State) (b : Nat) (f : Block → Block) : (s.modBlk b f).remoteSubs = s.remoteSubs := by unfold State.modBlk; split <;> rfl
@[simp] theorem State.modBlk_fabric (s : State) (b : Nat) (f : Block → Block) : (s.modBlk b f).fabric = s.fabric := by unfold State.modBlk; split <;> rfl
@[simp] theorem State.modBlk_root (s : State) (b : Nat) (f : Block → Block) : (s.modBlk b f).root = s.root := by unfold State.modBlk; split <;> rfl
@[simp] theorem State.modBlk_dieReset (s : State) (b : Nat) (f : Block → Block) : (s.modBlk b f).dieReset = s.dieReset := by unfold State.modBlk; split <;> rfl
@[simp] theorem State.modBlk_resets (s : State) (b : Nat) (f : Block → Block) : (s.modBlk b f).resets = s.resets := by unfold State.modBlk; split <;> rfl
@[simp] theorem State.modBlk_poison (s : State) (b : Nat) (f : Block → Block) : (s.modBlk b f).poison = s.poison := by unfold State.modBlk; split <;> rfl
@[simp] theorem State.modBlk_cxlData (s : State) (b : Nat) (f : Block → Block) : (s.modBlk b f).cxlData = s.cxlData := by unfold State.modBlk; split <;> rfl
@[simp] theorem State.modBlk_parkth (s : State) (b : Nat) (f : Block → Block) : (s.modBlk b f).parkth = s.parkth := by unfold State.modBlk; split <;> rfl
@[simp] theorem State.modBlk_admitReg (s : State) (b : Nat) (f : Block → Block) : (s.modBlk b f).admitReg = s.admitReg := by unfold State.modBlk; split <;> rfl
@[simp] theorem State.modBlk_wdog (s : State) (b : Nat) (f : Block → Block) : (s.modBlk b f).wdog = s.wdog := by unfold State.modBlk; split <;> rfl
@[simp] theorem State.modBlk_migr (s : State) (b : Nat) (f : Block → Block) : (s.modBlk b f).migr = s.migr := by unfold State.modBlk; split <;> rfl
@[simp] theorem State.modBlk_qsel (s : State) (b : Nat) (f : Block → Block) : (s.modBlk b f).qsel = s.qsel := by unfold State.modBlk; split <;> rfl
@[simp] theorem State.modBlk_fpsel (s : State) (b : Nat) (f : Block → Block) : (s.modBlk b f).fpsel = s.fpsel := by unfold State.modBlk; split <;> rfl
@[simp] theorem State.modBlk_almsel (s : State) (b : Nat) (f : Block → Block) : (s.modBlk b f).almsel = s.almsel := by unfold State.modBlk; split <;> rfl
@[simp] theorem State.modBlk_nextId (s : State) (b : Nat) (f : Block → Block) : (s.modBlk b f).nextId = s.nextId := by unfold State.modBlk; split <;> rfl
@[simp] theorem State.modBlk_nextAge (s : State) (b : Nat) (f : Block → Block) : (s.modBlk b f).nextAge = s.nextAge := by unfold State.modBlk; split <;> rfl
@[simp] theorem State.modBlk_nextHandle (s : State) (b : Nat) (f : Block → Block) : (s.modBlk b f).nextHandle = s.nextHandle := by unfold State.modBlk; split <;> rfl
@[simp] theorem State.modBlk_freeCount (s : State) (b : Nat) (f : Block → Block) : (s.modBlk b f).freeCount = s.freeCount := by unfold State.modBlk; split <;> rfl

/-! ### `modStk` -/

@[simp] theorem State.modStk_issuer (s : State) (b : Nat) (f : Stook → Stook) : (s.modStk b f).issuer = s.issuer := by unfold State.modStk; split <;> rfl
@[simp] theorem State.modStk_schedule (s : State) (b : Nat) (f : Stook → Stook) : (s.modStk b f).schedule = s.schedule := by unfold State.modStk; split <;> rfl
@[simp] theorem State.modStk_time (s : State) (b : Nat) (f : Stook → Stook) : (s.modStk b f).time = s.time := by unfold State.modStk; split <;> rfl
@[simp] theorem State.modStk_resetAt (s : State) (b : Nat) (f : Stook → Stook) : (s.modStk b f).resetAt = s.resetAt := by unfold State.modStk; split <;> rfl
@[simp] theorem State.modStk_mem (s : State) (b : Nat) (f : Stook → Stook) : (s.modStk b f).mem = s.mem := by unfold State.modStk; split <;> rfl
@[simp] theorem State.modStk_hbmOld (s : State) (b : Nat) (f : Stook → Stook) : (s.modStk b f).hbmOld = s.hbmOld := by unfold State.modStk; split <;> rfl
@[simp] theorem State.modStk_groups (s : State) (b : Nat) (f : Stook → Stook) : (s.modStk b f).groups = s.groups := by unfold State.modStk; split <;> rfl
@[simp] theorem State.modStk_blocks (s : State) (b : Nat) (f : Stook → Stook) : (s.modStk b f).blocks = s.blocks := by unfold State.modStk; split <;> rfl
@[simp] theorem State.modStk_grids (s : State) (b : Nat) (f : Stook → Stook) : (s.modStk b f).grids = s.grids := by unfold State.modStk; split <;> rfl
@[simp] theorem State.modStk_cores (s : State) (b : Nat) (f : Stook → Stook) : (s.modStk b f).cores = s.cores := by unfold State.modStk; split <;> rfl
@[simp] theorem State.modStk_dies (s : State) (b : Nat) (f : Stook → Stook) : (s.modStk b f).dies = s.dies := by unfold State.modStk; split <;> rfl
@[simp] theorem State.modStk_jobs (s : State) (b : Nat) (f : Stook → Stook) : (s.modStk b f).jobs = s.jobs := by unfold State.modStk; split <;> rfl
@[simp] theorem State.modStk_ptes (s : State) (b : Nat) (f : Stook → Stook) : (s.modStk b f).ptes = s.ptes := by unfold State.modStk; split <;> rfl
@[simp] theorem State.modStk_lqueues (s : State) (b : Nat) (f : Stook → Stook) : (s.modStk b f).lqueues = s.lqueues := by unfold State.modStk; split <;> rfl
@[simp] theorem State.modStk_waiting (s : State) (b : Nat) (f : Stook → Stook) : (s.modStk b f).waiting = s.waiting := by unfold State.modStk; split <;> rfl
@[simp] theorem State.modStk_bqueues (s : State) (b : Nat) (f : Stook → Stook) : (s.modStk b f).bqueues = s.bqueues := by unfold State.modStk; split <;> rfl
@[simp] theorem State.modStk_runqs (s : State) (b : Nat) (f : Stook → Stook) : (s.modStk b f).runqs = s.runqs := by unfold State.modStk; split <;> rfl
@[simp] theorem State.modStk_taskPassed (s : State) (b : Nat) (f : Stook → Stook) : (s.modStk b f).taskPassed = s.taskPassed := by unfold State.modStk; split <;> rfl
@[simp] theorem State.modStk_subs (s : State) (b : Nat) (f : Stook → Stook) : (s.modStk b f).subs = s.subs := by unfold State.modStk; split <;> rfl
@[simp] theorem State.modStk_lastWriter (s : State) (b : Nat) (f : Stook → Stook) : (s.modStk b f).lastWriter = s.lastWriter := by unfold State.modStk; split <;> rfl
@[simp] theorem State.modStk_gstores (s : State) (b : Nat) (f : Stook → Stook) : (s.modStk b f).gstores = s.gstores := by unfold State.modStk; split <;> rfl
@[simp] theorem State.modStk_grades (s : State) (b : Nat) (f : Stook → Stook) : (s.modStk b f).grades = s.grades := by unfold State.modStk; split <;> rfl
@[simp] theorem State.modStk_granges (s : State) (b : Nat) (f : Stook → Stook) : (s.modStk b f).granges = s.granges := by unfold State.modStk; split <;> rfl
@[simp] theorem State.modStk_cranges (s : State) (b : Nat) (f : Stook → Stook) : (s.modStk b f).cranges = s.cranges := by unfold State.modStk; split <;> rfl
@[simp] theorem State.modStk_partials (s : State) (b : Nat) (f : Stook → Stook) : (s.modStk b f).partials = s.partials := by unfold State.modStk; split <;> rfl
@[simp] theorem State.modStk_spilled (s : State) (b : Nat) (f : Stook → Stook) : (s.modStk b f).spilled = s.spilled := by unfold State.modStk; split <;> rfl
@[simp] theorem State.modStk_copies (s : State) (b : Nat) (f : Stook → Stook) : (s.modStk b f).copies = s.copies := by unfold State.modStk; split <;> rfl
@[simp] theorem State.modStk_homes (s : State) (b : Nat) (f : Stook → Stook) : (s.modStk b f).homes = s.homes := by unfold State.modStk; split <;> rfl
@[simp] theorem State.modStk_epoch (s : State) (b : Nat) (f : Stook → Stook) : (s.modStk b f).epoch = s.epoch := by unfold State.modStk; split <;> rfl
@[simp] theorem State.modStk_epochAt (s : State) (b : Nat) (f : Stook → Stook) : (s.modStk b f).epochAt = s.epochAt := by unfold State.modStk; split <;> rfl
@[simp] theorem State.modStk_moves (s : State) (b : Nat) (f : Stook → Stook) : (s.modStk b f).moves = s.moves := by unfold State.modStk; split <;> rfl
@[simp] theorem State.modStk_handlerWait (s : State) (b : Nat) (f : Stook → Stook) : (s.modStk b f).handlerWait = s.handlerWait := by unfold State.modStk; split <;> rfl
@[simp] theorem State.modStk_stops (s : State) (b : Nat) (f : Stook → Stook) : (s.modStk b f).stops = s.stops := by unfold State.modStk; split <;> rfl
@[simp] theorem State.modStk_todoHeld (s : State) (b : Nat) (f : Stook → Stook) : (s.modStk b f).todoHeld = s.todoHeld := by unfold State.modStk; split <;> rfl
@[simp] theorem State.modStk_tasks (s : State) (b : Nat) (f : Stook → Stook) : (s.modStk b f).tasks = s.tasks := by unfold State.modStk; split <;> rfl
@[simp] theorem State.modStk_remoteSubs (s : State) (b : Nat) (f : Stook → Stook) : (s.modStk b f).remoteSubs = s.remoteSubs := by unfold State.modStk; split <;> rfl
@[simp] theorem State.modStk_fabric (s : State) (b : Nat) (f : Stook → Stook) : (s.modStk b f).fabric = s.fabric := by unfold State.modStk; split <;> rfl
@[simp] theorem State.modStk_root (s : State) (b : Nat) (f : Stook → Stook) : (s.modStk b f).root = s.root := by unfold State.modStk; split <;> rfl
@[simp] theorem State.modStk_dieReset (s : State) (b : Nat) (f : Stook → Stook) : (s.modStk b f).dieReset = s.dieReset := by unfold State.modStk; split <;> rfl
@[simp] theorem State.modStk_resets (s : State) (b : Nat) (f : Stook → Stook) : (s.modStk b f).resets = s.resets := by unfold State.modStk; split <;> rfl
@[simp] theorem State.modStk_poison (s : State) (b : Nat) (f : Stook → Stook) : (s.modStk b f).poison = s.poison := by unfold State.modStk; split <;> rfl
@[simp] theorem State.modStk_cxlData (s : State) (b : Nat) (f : Stook → Stook) : (s.modStk b f).cxlData = s.cxlData := by unfold State.modStk; split <;> rfl
@[simp] theorem State.modStk_parkth (s : State) (b : Nat) (f : Stook → Stook) : (s.modStk b f).parkth = s.parkth := by unfold State.modStk; split <;> rfl
@[simp] theorem State.modStk_admitReg (s : State) (b : Nat) (f : Stook → Stook) : (s.modStk b f).admitReg = s.admitReg := by unfold State.modStk; split <;> rfl
@[simp] theorem State.modStk_wdog (s : State) (b : Nat) (f : Stook → Stook) : (s.modStk b f).wdog = s.wdog := by unfold State.modStk; split <;> rfl
@[simp] theorem State.modStk_migr (s : State) (b : Nat) (f : Stook → Stook) : (s.modStk b f).migr = s.migr := by unfold State.modStk; split <;> rfl
@[simp] theorem State.modStk_qsel (s : State) (b : Nat) (f : Stook → Stook) : (s.modStk b f).qsel = s.qsel := by unfold State.modStk; split <;> rfl
@[simp] theorem State.modStk_fpsel (s : State) (b : Nat) (f : Stook → Stook) : (s.modStk b f).fpsel = s.fpsel := by unfold State.modStk; split <;> rfl
@[simp] theorem State.modStk_almsel (s : State) (b : Nat) (f : Stook → Stook) : (s.modStk b f).almsel = s.almsel := by unfold State.modStk; split <;> rfl
@[simp] theorem State.modStk_nextId (s : State) (b : Nat) (f : Stook → Stook) : (s.modStk b f).nextId = s.nextId := by unfold State.modStk; split <;> rfl
@[simp] theorem State.modStk_nextAge (s : State) (b : Nat) (f : Stook → Stook) : (s.modStk b f).nextAge = s.nextAge := by unfold State.modStk; split <;> rfl
@[simp] theorem State.modStk_nextHandle (s : State) (b : Nat) (f : Stook → Stook) : (s.modStk b f).nextHandle = s.nextHandle := by unfold State.modStk; split <;> rfl
@[simp] theorem State.modStk_freeCount (s : State) (b : Nat) (f : Stook → Stook) : (s.modStk b f).freeCount = s.freeCount := by unfold State.modStk; split <;> rfl

/-! ### `modGrid` -/

@[simp] theorem State.modGrid_issuer (s : State) (b : Nat) (f : Grid → Grid) : (s.modGrid b f).issuer = s.issuer := by unfold State.modGrid; split <;> rfl
@[simp] theorem State.modGrid_schedule (s : State) (b : Nat) (f : Grid → Grid) : (s.modGrid b f).schedule = s.schedule := by unfold State.modGrid; split <;> rfl
@[simp] theorem State.modGrid_time (s : State) (b : Nat) (f : Grid → Grid) : (s.modGrid b f).time = s.time := by unfold State.modGrid; split <;> rfl
@[simp] theorem State.modGrid_resetAt (s : State) (b : Nat) (f : Grid → Grid) : (s.modGrid b f).resetAt = s.resetAt := by unfold State.modGrid; split <;> rfl
@[simp] theorem State.modGrid_mem (s : State) (b : Nat) (f : Grid → Grid) : (s.modGrid b f).mem = s.mem := by unfold State.modGrid; split <;> rfl
@[simp] theorem State.modGrid_hbmOld (s : State) (b : Nat) (f : Grid → Grid) : (s.modGrid b f).hbmOld = s.hbmOld := by unfold State.modGrid; split <;> rfl
@[simp] theorem State.modGrid_groups (s : State) (b : Nat) (f : Grid → Grid) : (s.modGrid b f).groups = s.groups := by unfold State.modGrid; split <;> rfl
@[simp] theorem State.modGrid_blocks (s : State) (b : Nat) (f : Grid → Grid) : (s.modGrid b f).blocks = s.blocks := by unfold State.modGrid; split <;> rfl
@[simp] theorem State.modGrid_stooks (s : State) (b : Nat) (f : Grid → Grid) : (s.modGrid b f).stooks = s.stooks := by unfold State.modGrid; split <;> rfl
@[simp] theorem State.modGrid_cores (s : State) (b : Nat) (f : Grid → Grid) : (s.modGrid b f).cores = s.cores := by unfold State.modGrid; split <;> rfl
@[simp] theorem State.modGrid_dies (s : State) (b : Nat) (f : Grid → Grid) : (s.modGrid b f).dies = s.dies := by unfold State.modGrid; split <;> rfl
@[simp] theorem State.modGrid_jobs (s : State) (b : Nat) (f : Grid → Grid) : (s.modGrid b f).jobs = s.jobs := by unfold State.modGrid; split <;> rfl
@[simp] theorem State.modGrid_ptes (s : State) (b : Nat) (f : Grid → Grid) : (s.modGrid b f).ptes = s.ptes := by unfold State.modGrid; split <;> rfl
@[simp] theorem State.modGrid_lqueues (s : State) (b : Nat) (f : Grid → Grid) : (s.modGrid b f).lqueues = s.lqueues := by unfold State.modGrid; split <;> rfl
@[simp] theorem State.modGrid_waiting (s : State) (b : Nat) (f : Grid → Grid) : (s.modGrid b f).waiting = s.waiting := by unfold State.modGrid; split <;> rfl
@[simp] theorem State.modGrid_bqueues (s : State) (b : Nat) (f : Grid → Grid) : (s.modGrid b f).bqueues = s.bqueues := by unfold State.modGrid; split <;> rfl
@[simp] theorem State.modGrid_runqs (s : State) (b : Nat) (f : Grid → Grid) : (s.modGrid b f).runqs = s.runqs := by unfold State.modGrid; split <;> rfl
@[simp] theorem State.modGrid_taskPassed (s : State) (b : Nat) (f : Grid → Grid) : (s.modGrid b f).taskPassed = s.taskPassed := by unfold State.modGrid; split <;> rfl
@[simp] theorem State.modGrid_subs (s : State) (b : Nat) (f : Grid → Grid) : (s.modGrid b f).subs = s.subs := by unfold State.modGrid; split <;> rfl
@[simp] theorem State.modGrid_lastWriter (s : State) (b : Nat) (f : Grid → Grid) : (s.modGrid b f).lastWriter = s.lastWriter := by unfold State.modGrid; split <;> rfl
@[simp] theorem State.modGrid_gstores (s : State) (b : Nat) (f : Grid → Grid) : (s.modGrid b f).gstores = s.gstores := by unfold State.modGrid; split <;> rfl
@[simp] theorem State.modGrid_grades (s : State) (b : Nat) (f : Grid → Grid) : (s.modGrid b f).grades = s.grades := by unfold State.modGrid; split <;> rfl
@[simp] theorem State.modGrid_granges (s : State) (b : Nat) (f : Grid → Grid) : (s.modGrid b f).granges = s.granges := by unfold State.modGrid; split <;> rfl
@[simp] theorem State.modGrid_cranges (s : State) (b : Nat) (f : Grid → Grid) : (s.modGrid b f).cranges = s.cranges := by unfold State.modGrid; split <;> rfl
@[simp] theorem State.modGrid_partials (s : State) (b : Nat) (f : Grid → Grid) : (s.modGrid b f).partials = s.partials := by unfold State.modGrid; split <;> rfl
@[simp] theorem State.modGrid_spilled (s : State) (b : Nat) (f : Grid → Grid) : (s.modGrid b f).spilled = s.spilled := by unfold State.modGrid; split <;> rfl
@[simp] theorem State.modGrid_copies (s : State) (b : Nat) (f : Grid → Grid) : (s.modGrid b f).copies = s.copies := by unfold State.modGrid; split <;> rfl
@[simp] theorem State.modGrid_homes (s : State) (b : Nat) (f : Grid → Grid) : (s.modGrid b f).homes = s.homes := by unfold State.modGrid; split <;> rfl
@[simp] theorem State.modGrid_epoch (s : State) (b : Nat) (f : Grid → Grid) : (s.modGrid b f).epoch = s.epoch := by unfold State.modGrid; split <;> rfl
@[simp] theorem State.modGrid_epochAt (s : State) (b : Nat) (f : Grid → Grid) : (s.modGrid b f).epochAt = s.epochAt := by unfold State.modGrid; split <;> rfl
@[simp] theorem State.modGrid_moves (s : State) (b : Nat) (f : Grid → Grid) : (s.modGrid b f).moves = s.moves := by unfold State.modGrid; split <;> rfl
@[simp] theorem State.modGrid_handlerWait (s : State) (b : Nat) (f : Grid → Grid) : (s.modGrid b f).handlerWait = s.handlerWait := by unfold State.modGrid; split <;> rfl
@[simp] theorem State.modGrid_stops (s : State) (b : Nat) (f : Grid → Grid) : (s.modGrid b f).stops = s.stops := by unfold State.modGrid; split <;> rfl
@[simp] theorem State.modGrid_todoHeld (s : State) (b : Nat) (f : Grid → Grid) : (s.modGrid b f).todoHeld = s.todoHeld := by unfold State.modGrid; split <;> rfl
@[simp] theorem State.modGrid_tasks (s : State) (b : Nat) (f : Grid → Grid) : (s.modGrid b f).tasks = s.tasks := by unfold State.modGrid; split <;> rfl
@[simp] theorem State.modGrid_remoteSubs (s : State) (b : Nat) (f : Grid → Grid) : (s.modGrid b f).remoteSubs = s.remoteSubs := by unfold State.modGrid; split <;> rfl
@[simp] theorem State.modGrid_fabric (s : State) (b : Nat) (f : Grid → Grid) : (s.modGrid b f).fabric = s.fabric := by unfold State.modGrid; split <;> rfl
@[simp] theorem State.modGrid_root (s : State) (b : Nat) (f : Grid → Grid) : (s.modGrid b f).root = s.root := by unfold State.modGrid; split <;> rfl
@[simp] theorem State.modGrid_dieReset (s : State) (b : Nat) (f : Grid → Grid) : (s.modGrid b f).dieReset = s.dieReset := by unfold State.modGrid; split <;> rfl
@[simp] theorem State.modGrid_resets (s : State) (b : Nat) (f : Grid → Grid) : (s.modGrid b f).resets = s.resets := by unfold State.modGrid; split <;> rfl
@[simp] theorem State.modGrid_poison (s : State) (b : Nat) (f : Grid → Grid) : (s.modGrid b f).poison = s.poison := by unfold State.modGrid; split <;> rfl
@[simp] theorem State.modGrid_cxlData (s : State) (b : Nat) (f : Grid → Grid) : (s.modGrid b f).cxlData = s.cxlData := by unfold State.modGrid; split <;> rfl
@[simp] theorem State.modGrid_parkth (s : State) (b : Nat) (f : Grid → Grid) : (s.modGrid b f).parkth = s.parkth := by unfold State.modGrid; split <;> rfl
@[simp] theorem State.modGrid_admitReg (s : State) (b : Nat) (f : Grid → Grid) : (s.modGrid b f).admitReg = s.admitReg := by unfold State.modGrid; split <;> rfl
@[simp] theorem State.modGrid_wdog (s : State) (b : Nat) (f : Grid → Grid) : (s.modGrid b f).wdog = s.wdog := by unfold State.modGrid; split <;> rfl
@[simp] theorem State.modGrid_migr (s : State) (b : Nat) (f : Grid → Grid) : (s.modGrid b f).migr = s.migr := by unfold State.modGrid; split <;> rfl
@[simp] theorem State.modGrid_qsel (s : State) (b : Nat) (f : Grid → Grid) : (s.modGrid b f).qsel = s.qsel := by unfold State.modGrid; split <;> rfl
@[simp] theorem State.modGrid_fpsel (s : State) (b : Nat) (f : Grid → Grid) : (s.modGrid b f).fpsel = s.fpsel := by unfold State.modGrid; split <;> rfl
@[simp] theorem State.modGrid_almsel (s : State) (b : Nat) (f : Grid → Grid) : (s.modGrid b f).almsel = s.almsel := by unfold State.modGrid; split <;> rfl
@[simp] theorem State.modGrid_nextId (s : State) (b : Nat) (f : Grid → Grid) : (s.modGrid b f).nextId = s.nextId := by unfold State.modGrid; split <;> rfl
@[simp] theorem State.modGrid_nextAge (s : State) (b : Nat) (f : Grid → Grid) : (s.modGrid b f).nextAge = s.nextAge := by unfold State.modGrid; split <;> rfl
@[simp] theorem State.modGrid_nextHandle (s : State) (b : Nat) (f : Grid → Grid) : (s.modGrid b f).nextHandle = s.nextHandle := by unfold State.modGrid; split <;> rfl
@[simp] theorem State.modGrid_freeCount (s : State) (b : Nat) (f : Grid → Grid) : (s.modGrid b f).freeCount = s.freeCount := by unfold State.modGrid; split <;> rfl

/-! ### `modCore` -/

@[simp] theorem State.modCore_issuer (s : State) (c : Nat) (f : Core → Core) : (s.modCore c f).issuer = s.issuer := rfl
@[simp] theorem State.modCore_schedule (s : State) (c : Nat) (f : Core → Core) : (s.modCore c f).schedule = s.schedule := rfl
@[simp] theorem State.modCore_time (s : State) (c : Nat) (f : Core → Core) : (s.modCore c f).time = s.time := rfl
@[simp] theorem State.modCore_resetAt (s : State) (c : Nat) (f : Core → Core) : (s.modCore c f).resetAt = s.resetAt := rfl
@[simp] theorem State.modCore_mem (s : State) (c : Nat) (f : Core → Core) : (s.modCore c f).mem = s.mem := rfl
@[simp] theorem State.modCore_hbmOld (s : State) (c : Nat) (f : Core → Core) : (s.modCore c f).hbmOld = s.hbmOld := rfl
@[simp] theorem State.modCore_groups (s : State) (c : Nat) (f : Core → Core) : (s.modCore c f).groups = s.groups := rfl
@[simp] theorem State.modCore_blocks (s : State) (c : Nat) (f : Core → Core) : (s.modCore c f).blocks = s.blocks := rfl
@[simp] theorem State.modCore_stooks (s : State) (c : Nat) (f : Core → Core) : (s.modCore c f).stooks = s.stooks := rfl
@[simp] theorem State.modCore_grids (s : State) (c : Nat) (f : Core → Core) : (s.modCore c f).grids = s.grids := rfl
@[simp] theorem State.modCore_dies (s : State) (c : Nat) (f : Core → Core) : (s.modCore c f).dies = s.dies := rfl
@[simp] theorem State.modCore_jobs (s : State) (c : Nat) (f : Core → Core) : (s.modCore c f).jobs = s.jobs := rfl
@[simp] theorem State.modCore_ptes (s : State) (c : Nat) (f : Core → Core) : (s.modCore c f).ptes = s.ptes := rfl
@[simp] theorem State.modCore_lqueues (s : State) (c : Nat) (f : Core → Core) : (s.modCore c f).lqueues = s.lqueues := rfl
@[simp] theorem State.modCore_waiting (s : State) (c : Nat) (f : Core → Core) : (s.modCore c f).waiting = s.waiting := rfl
@[simp] theorem State.modCore_bqueues (s : State) (c : Nat) (f : Core → Core) : (s.modCore c f).bqueues = s.bqueues := rfl
@[simp] theorem State.modCore_runqs (s : State) (c : Nat) (f : Core → Core) : (s.modCore c f).runqs = s.runqs := rfl
@[simp] theorem State.modCore_taskPassed (s : State) (c : Nat) (f : Core → Core) : (s.modCore c f).taskPassed = s.taskPassed := rfl
@[simp] theorem State.modCore_subs (s : State) (c : Nat) (f : Core → Core) : (s.modCore c f).subs = s.subs := rfl
@[simp] theorem State.modCore_lastWriter (s : State) (c : Nat) (f : Core → Core) : (s.modCore c f).lastWriter = s.lastWriter := rfl
@[simp] theorem State.modCore_gstores (s : State) (c : Nat) (f : Core → Core) : (s.modCore c f).gstores = s.gstores := rfl
@[simp] theorem State.modCore_grades (s : State) (c : Nat) (f : Core → Core) : (s.modCore c f).grades = s.grades := rfl
@[simp] theorem State.modCore_granges (s : State) (c : Nat) (f : Core → Core) : (s.modCore c f).granges = s.granges := rfl
@[simp] theorem State.modCore_cranges (s : State) (c : Nat) (f : Core → Core) : (s.modCore c f).cranges = s.cranges := rfl
@[simp] theorem State.modCore_partials (s : State) (c : Nat) (f : Core → Core) : (s.modCore c f).partials = s.partials := rfl
@[simp] theorem State.modCore_spilled (s : State) (c : Nat) (f : Core → Core) : (s.modCore c f).spilled = s.spilled := rfl
@[simp] theorem State.modCore_copies (s : State) (c : Nat) (f : Core → Core) : (s.modCore c f).copies = s.copies := rfl
@[simp] theorem State.modCore_homes (s : State) (c : Nat) (f : Core → Core) : (s.modCore c f).homes = s.homes := rfl
@[simp] theorem State.modCore_epoch (s : State) (c : Nat) (f : Core → Core) : (s.modCore c f).epoch = s.epoch := rfl
@[simp] theorem State.modCore_epochAt (s : State) (c : Nat) (f : Core → Core) : (s.modCore c f).epochAt = s.epochAt := rfl
@[simp] theorem State.modCore_moves (s : State) (c : Nat) (f : Core → Core) : (s.modCore c f).moves = s.moves := rfl
@[simp] theorem State.modCore_handlerWait (s : State) (c : Nat) (f : Core → Core) : (s.modCore c f).handlerWait = s.handlerWait := rfl
@[simp] theorem State.modCore_stops (s : State) (c : Nat) (f : Core → Core) : (s.modCore c f).stops = s.stops := rfl
@[simp] theorem State.modCore_todoHeld (s : State) (c : Nat) (f : Core → Core) : (s.modCore c f).todoHeld = s.todoHeld := rfl
@[simp] theorem State.modCore_tasks (s : State) (c : Nat) (f : Core → Core) : (s.modCore c f).tasks = s.tasks := rfl
@[simp] theorem State.modCore_remoteSubs (s : State) (c : Nat) (f : Core → Core) : (s.modCore c f).remoteSubs = s.remoteSubs := rfl
@[simp] theorem State.modCore_fabric (s : State) (c : Nat) (f : Core → Core) : (s.modCore c f).fabric = s.fabric := rfl
@[simp] theorem State.modCore_root (s : State) (c : Nat) (f : Core → Core) : (s.modCore c f).root = s.root := rfl
@[simp] theorem State.modCore_dieReset (s : State) (c : Nat) (f : Core → Core) : (s.modCore c f).dieReset = s.dieReset := rfl
@[simp] theorem State.modCore_resets (s : State) (c : Nat) (f : Core → Core) : (s.modCore c f).resets = s.resets := rfl
@[simp] theorem State.modCore_poison (s : State) (c : Nat) (f : Core → Core) : (s.modCore c f).poison = s.poison := rfl
@[simp] theorem State.modCore_cxlData (s : State) (c : Nat) (f : Core → Core) : (s.modCore c f).cxlData = s.cxlData := rfl
@[simp] theorem State.modCore_parkth (s : State) (c : Nat) (f : Core → Core) : (s.modCore c f).parkth = s.parkth := rfl
@[simp] theorem State.modCore_admitReg (s : State) (c : Nat) (f : Core → Core) : (s.modCore c f).admitReg = s.admitReg := rfl
@[simp] theorem State.modCore_wdog (s : State) (c : Nat) (f : Core → Core) : (s.modCore c f).wdog = s.wdog := rfl
@[simp] theorem State.modCore_migr (s : State) (c : Nat) (f : Core → Core) : (s.modCore c f).migr = s.migr := rfl
@[simp] theorem State.modCore_qsel (s : State) (c : Nat) (f : Core → Core) : (s.modCore c f).qsel = s.qsel := rfl
@[simp] theorem State.modCore_fpsel (s : State) (c : Nat) (f : Core → Core) : (s.modCore c f).fpsel = s.fpsel := rfl
@[simp] theorem State.modCore_almsel (s : State) (c : Nat) (f : Core → Core) : (s.modCore c f).almsel = s.almsel := rfl
@[simp] theorem State.modCore_nextId (s : State) (c : Nat) (f : Core → Core) : (s.modCore c f).nextId = s.nextId := rfl
@[simp] theorem State.modCore_nextAge (s : State) (c : Nat) (f : Core → Core) : (s.modCore c f).nextAge = s.nextAge := rfl
@[simp] theorem State.modCore_nextHandle (s : State) (c : Nat) (f : Core → Core) : (s.modCore c f).nextHandle = s.nextHandle := rfl
@[simp] theorem State.modCore_freeCount (s : State) (c : Nat) (f : Core → Core) : (s.modCore c f).freeCount = s.freeCount := rfl

/-! ### `modDie` -/

@[simp] theorem State.modDie_issuer (s : State) (d : Nat) (f : Die → Die) : (s.modDie d f).issuer = s.issuer := rfl
@[simp] theorem State.modDie_schedule (s : State) (d : Nat) (f : Die → Die) : (s.modDie d f).schedule = s.schedule := rfl
@[simp] theorem State.modDie_time (s : State) (d : Nat) (f : Die → Die) : (s.modDie d f).time = s.time := rfl
@[simp] theorem State.modDie_resetAt (s : State) (d : Nat) (f : Die → Die) : (s.modDie d f).resetAt = s.resetAt := rfl
@[simp] theorem State.modDie_mem (s : State) (d : Nat) (f : Die → Die) : (s.modDie d f).mem = s.mem := rfl
@[simp] theorem State.modDie_hbmOld (s : State) (d : Nat) (f : Die → Die) : (s.modDie d f).hbmOld = s.hbmOld := rfl
@[simp] theorem State.modDie_groups (s : State) (d : Nat) (f : Die → Die) : (s.modDie d f).groups = s.groups := rfl
@[simp] theorem State.modDie_blocks (s : State) (d : Nat) (f : Die → Die) : (s.modDie d f).blocks = s.blocks := rfl
@[simp] theorem State.modDie_stooks (s : State) (d : Nat) (f : Die → Die) : (s.modDie d f).stooks = s.stooks := rfl
@[simp] theorem State.modDie_grids (s : State) (d : Nat) (f : Die → Die) : (s.modDie d f).grids = s.grids := rfl
@[simp] theorem State.modDie_cores (s : State) (d : Nat) (f : Die → Die) : (s.modDie d f).cores = s.cores := rfl
@[simp] theorem State.modDie_jobs (s : State) (d : Nat) (f : Die → Die) : (s.modDie d f).jobs = s.jobs := rfl
@[simp] theorem State.modDie_ptes (s : State) (d : Nat) (f : Die → Die) : (s.modDie d f).ptes = s.ptes := rfl
@[simp] theorem State.modDie_lqueues (s : State) (d : Nat) (f : Die → Die) : (s.modDie d f).lqueues = s.lqueues := rfl
@[simp] theorem State.modDie_waiting (s : State) (d : Nat) (f : Die → Die) : (s.modDie d f).waiting = s.waiting := rfl
@[simp] theorem State.modDie_bqueues (s : State) (d : Nat) (f : Die → Die) : (s.modDie d f).bqueues = s.bqueues := rfl
@[simp] theorem State.modDie_runqs (s : State) (d : Nat) (f : Die → Die) : (s.modDie d f).runqs = s.runqs := rfl
@[simp] theorem State.modDie_taskPassed (s : State) (d : Nat) (f : Die → Die) : (s.modDie d f).taskPassed = s.taskPassed := rfl
@[simp] theorem State.modDie_subs (s : State) (d : Nat) (f : Die → Die) : (s.modDie d f).subs = s.subs := rfl
@[simp] theorem State.modDie_lastWriter (s : State) (d : Nat) (f : Die → Die) : (s.modDie d f).lastWriter = s.lastWriter := rfl
@[simp] theorem State.modDie_gstores (s : State) (d : Nat) (f : Die → Die) : (s.modDie d f).gstores = s.gstores := rfl
@[simp] theorem State.modDie_grades (s : State) (d : Nat) (f : Die → Die) : (s.modDie d f).grades = s.grades := rfl
@[simp] theorem State.modDie_granges (s : State) (d : Nat) (f : Die → Die) : (s.modDie d f).granges = s.granges := rfl
@[simp] theorem State.modDie_cranges (s : State) (d : Nat) (f : Die → Die) : (s.modDie d f).cranges = s.cranges := rfl
@[simp] theorem State.modDie_partials (s : State) (d : Nat) (f : Die → Die) : (s.modDie d f).partials = s.partials := rfl
@[simp] theorem State.modDie_spilled (s : State) (d : Nat) (f : Die → Die) : (s.modDie d f).spilled = s.spilled := rfl
@[simp] theorem State.modDie_copies (s : State) (d : Nat) (f : Die → Die) : (s.modDie d f).copies = s.copies := rfl
@[simp] theorem State.modDie_homes (s : State) (d : Nat) (f : Die → Die) : (s.modDie d f).homes = s.homes := rfl
@[simp] theorem State.modDie_epoch (s : State) (d : Nat) (f : Die → Die) : (s.modDie d f).epoch = s.epoch := rfl
@[simp] theorem State.modDie_epochAt (s : State) (d : Nat) (f : Die → Die) : (s.modDie d f).epochAt = s.epochAt := rfl
@[simp] theorem State.modDie_moves (s : State) (d : Nat) (f : Die → Die) : (s.modDie d f).moves = s.moves := rfl
@[simp] theorem State.modDie_handlerWait (s : State) (d : Nat) (f : Die → Die) : (s.modDie d f).handlerWait = s.handlerWait := rfl
@[simp] theorem State.modDie_stops (s : State) (d : Nat) (f : Die → Die) : (s.modDie d f).stops = s.stops := rfl
@[simp] theorem State.modDie_todoHeld (s : State) (d : Nat) (f : Die → Die) : (s.modDie d f).todoHeld = s.todoHeld := rfl
@[simp] theorem State.modDie_tasks (s : State) (d : Nat) (f : Die → Die) : (s.modDie d f).tasks = s.tasks := rfl
@[simp] theorem State.modDie_remoteSubs (s : State) (d : Nat) (f : Die → Die) : (s.modDie d f).remoteSubs = s.remoteSubs := rfl
@[simp] theorem State.modDie_fabric (s : State) (d : Nat) (f : Die → Die) : (s.modDie d f).fabric = s.fabric := rfl
@[simp] theorem State.modDie_root (s : State) (d : Nat) (f : Die → Die) : (s.modDie d f).root = s.root := rfl
@[simp] theorem State.modDie_dieReset (s : State) (d : Nat) (f : Die → Die) : (s.modDie d f).dieReset = s.dieReset := rfl
@[simp] theorem State.modDie_resets (s : State) (d : Nat) (f : Die → Die) : (s.modDie d f).resets = s.resets := rfl
@[simp] theorem State.modDie_poison (s : State) (d : Nat) (f : Die → Die) : (s.modDie d f).poison = s.poison := rfl
@[simp] theorem State.modDie_cxlData (s : State) (d : Nat) (f : Die → Die) : (s.modDie d f).cxlData = s.cxlData := rfl
@[simp] theorem State.modDie_parkth (s : State) (d : Nat) (f : Die → Die) : (s.modDie d f).parkth = s.parkth := rfl
@[simp] theorem State.modDie_admitReg (s : State) (d : Nat) (f : Die → Die) : (s.modDie d f).admitReg = s.admitReg := rfl
@[simp] theorem State.modDie_wdog (s : State) (d : Nat) (f : Die → Die) : (s.modDie d f).wdog = s.wdog := rfl
@[simp] theorem State.modDie_migr (s : State) (d : Nat) (f : Die → Die) : (s.modDie d f).migr = s.migr := rfl
@[simp] theorem State.modDie_qsel (s : State) (d : Nat) (f : Die → Die) : (s.modDie d f).qsel = s.qsel := rfl
@[simp] theorem State.modDie_fpsel (s : State) (d : Nat) (f : Die → Die) : (s.modDie d f).fpsel = s.fpsel := rfl
@[simp] theorem State.modDie_almsel (s : State) (d : Nat) (f : Die → Die) : (s.modDie d f).almsel = s.almsel := rfl
@[simp] theorem State.modDie_nextId (s : State) (d : Nat) (f : Die → Die) : (s.modDie d f).nextId = s.nextId := rfl
@[simp] theorem State.modDie_nextAge (s : State) (d : Nat) (f : Die → Die) : (s.modDie d f).nextAge = s.nextAge := rfl
@[simp] theorem State.modDie_nextHandle (s : State) (d : Nat) (f : Die → Die) : (s.modDie d f).nextHandle = s.nextHandle := rfl
@[simp] theorem State.modDie_freeCount (s : State) (d : Nat) (f : Die → Die) : (s.modDie d f).freeCount = s.freeCount := rfl

/-! ### `modJob` -/

@[simp] theorem State.modJob_issuer (s : State) (j : Nat) (f : Job → Job) : (s.modJob j f).issuer = s.issuer := by unfold State.modJob; split <;> rfl
@[simp] theorem State.modJob_schedule (s : State) (j : Nat) (f : Job → Job) : (s.modJob j f).schedule = s.schedule := by unfold State.modJob; split <;> rfl
@[simp] theorem State.modJob_time (s : State) (j : Nat) (f : Job → Job) : (s.modJob j f).time = s.time := by unfold State.modJob; split <;> rfl
@[simp] theorem State.modJob_resetAt (s : State) (j : Nat) (f : Job → Job) : (s.modJob j f).resetAt = s.resetAt := by unfold State.modJob; split <;> rfl
@[simp] theorem State.modJob_mem (s : State) (j : Nat) (f : Job → Job) : (s.modJob j f).mem = s.mem := by unfold State.modJob; split <;> rfl
@[simp] theorem State.modJob_hbmOld (s : State) (j : Nat) (f : Job → Job) : (s.modJob j f).hbmOld = s.hbmOld := by unfold State.modJob; split <;> rfl
@[simp] theorem State.modJob_groups (s : State) (j : Nat) (f : Job → Job) : (s.modJob j f).groups = s.groups := by unfold State.modJob; split <;> rfl
@[simp] theorem State.modJob_blocks (s : State) (j : Nat) (f : Job → Job) : (s.modJob j f).blocks = s.blocks := by unfold State.modJob; split <;> rfl
@[simp] theorem State.modJob_stooks (s : State) (j : Nat) (f : Job → Job) : (s.modJob j f).stooks = s.stooks := by unfold State.modJob; split <;> rfl
@[simp] theorem State.modJob_grids (s : State) (j : Nat) (f : Job → Job) : (s.modJob j f).grids = s.grids := by unfold State.modJob; split <;> rfl
@[simp] theorem State.modJob_cores (s : State) (j : Nat) (f : Job → Job) : (s.modJob j f).cores = s.cores := by unfold State.modJob; split <;> rfl
@[simp] theorem State.modJob_dies (s : State) (j : Nat) (f : Job → Job) : (s.modJob j f).dies = s.dies := by unfold State.modJob; split <;> rfl
@[simp] theorem State.modJob_ptes (s : State) (j : Nat) (f : Job → Job) : (s.modJob j f).ptes = s.ptes := by unfold State.modJob; split <;> rfl
@[simp] theorem State.modJob_lqueues (s : State) (j : Nat) (f : Job → Job) : (s.modJob j f).lqueues = s.lqueues := by unfold State.modJob; split <;> rfl
@[simp] theorem State.modJob_waiting (s : State) (j : Nat) (f : Job → Job) : (s.modJob j f).waiting = s.waiting := by unfold State.modJob; split <;> rfl
@[simp] theorem State.modJob_bqueues (s : State) (j : Nat) (f : Job → Job) : (s.modJob j f).bqueues = s.bqueues := by unfold State.modJob; split <;> rfl
@[simp] theorem State.modJob_runqs (s : State) (j : Nat) (f : Job → Job) : (s.modJob j f).runqs = s.runqs := by unfold State.modJob; split <;> rfl
@[simp] theorem State.modJob_taskPassed (s : State) (j : Nat) (f : Job → Job) : (s.modJob j f).taskPassed = s.taskPassed := by unfold State.modJob; split <;> rfl
@[simp] theorem State.modJob_subs (s : State) (j : Nat) (f : Job → Job) : (s.modJob j f).subs = s.subs := by unfold State.modJob; split <;> rfl
@[simp] theorem State.modJob_lastWriter (s : State) (j : Nat) (f : Job → Job) : (s.modJob j f).lastWriter = s.lastWriter := by unfold State.modJob; split <;> rfl
@[simp] theorem State.modJob_gstores (s : State) (j : Nat) (f : Job → Job) : (s.modJob j f).gstores = s.gstores := by unfold State.modJob; split <;> rfl
@[simp] theorem State.modJob_grades (s : State) (j : Nat) (f : Job → Job) : (s.modJob j f).grades = s.grades := by unfold State.modJob; split <;> rfl
@[simp] theorem State.modJob_granges (s : State) (j : Nat) (f : Job → Job) : (s.modJob j f).granges = s.granges := by unfold State.modJob; split <;> rfl
@[simp] theorem State.modJob_cranges (s : State) (j : Nat) (f : Job → Job) : (s.modJob j f).cranges = s.cranges := by unfold State.modJob; split <;> rfl
@[simp] theorem State.modJob_partials (s : State) (j : Nat) (f : Job → Job) : (s.modJob j f).partials = s.partials := by unfold State.modJob; split <;> rfl
@[simp] theorem State.modJob_spilled (s : State) (j : Nat) (f : Job → Job) : (s.modJob j f).spilled = s.spilled := by unfold State.modJob; split <;> rfl
@[simp] theorem State.modJob_copies (s : State) (j : Nat) (f : Job → Job) : (s.modJob j f).copies = s.copies := by unfold State.modJob; split <;> rfl
@[simp] theorem State.modJob_homes (s : State) (j : Nat) (f : Job → Job) : (s.modJob j f).homes = s.homes := by unfold State.modJob; split <;> rfl
@[simp] theorem State.modJob_epoch (s : State) (j : Nat) (f : Job → Job) : (s.modJob j f).epoch = s.epoch := by unfold State.modJob; split <;> rfl
@[simp] theorem State.modJob_epochAt (s : State) (j : Nat) (f : Job → Job) : (s.modJob j f).epochAt = s.epochAt := by unfold State.modJob; split <;> rfl
@[simp] theorem State.modJob_moves (s : State) (j : Nat) (f : Job → Job) : (s.modJob j f).moves = s.moves := by unfold State.modJob; split <;> rfl
@[simp] theorem State.modJob_handlerWait (s : State) (j : Nat) (f : Job → Job) : (s.modJob j f).handlerWait = s.handlerWait := by unfold State.modJob; split <;> rfl
@[simp] theorem State.modJob_stops (s : State) (j : Nat) (f : Job → Job) : (s.modJob j f).stops = s.stops := by unfold State.modJob; split <;> rfl
@[simp] theorem State.modJob_todoHeld (s : State) (j : Nat) (f : Job → Job) : (s.modJob j f).todoHeld = s.todoHeld := by unfold State.modJob; split <;> rfl
@[simp] theorem State.modJob_tasks (s : State) (j : Nat) (f : Job → Job) : (s.modJob j f).tasks = s.tasks := by unfold State.modJob; split <;> rfl
@[simp] theorem State.modJob_remoteSubs (s : State) (j : Nat) (f : Job → Job) : (s.modJob j f).remoteSubs = s.remoteSubs := by unfold State.modJob; split <;> rfl
@[simp] theorem State.modJob_fabric (s : State) (j : Nat) (f : Job → Job) : (s.modJob j f).fabric = s.fabric := by unfold State.modJob; split <;> rfl
@[simp] theorem State.modJob_root (s : State) (j : Nat) (f : Job → Job) : (s.modJob j f).root = s.root := by unfold State.modJob; split <;> rfl
@[simp] theorem State.modJob_dieReset (s : State) (j : Nat) (f : Job → Job) : (s.modJob j f).dieReset = s.dieReset := by unfold State.modJob; split <;> rfl
@[simp] theorem State.modJob_resets (s : State) (j : Nat) (f : Job → Job) : (s.modJob j f).resets = s.resets := by unfold State.modJob; split <;> rfl
@[simp] theorem State.modJob_poison (s : State) (j : Nat) (f : Job → Job) : (s.modJob j f).poison = s.poison := by unfold State.modJob; split <;> rfl
@[simp] theorem State.modJob_cxlData (s : State) (j : Nat) (f : Job → Job) : (s.modJob j f).cxlData = s.cxlData := by unfold State.modJob; split <;> rfl
@[simp] theorem State.modJob_parkth (s : State) (j : Nat) (f : Job → Job) : (s.modJob j f).parkth = s.parkth := by unfold State.modJob; split <;> rfl
@[simp] theorem State.modJob_admitReg (s : State) (j : Nat) (f : Job → Job) : (s.modJob j f).admitReg = s.admitReg := by unfold State.modJob; split <;> rfl
@[simp] theorem State.modJob_wdog (s : State) (j : Nat) (f : Job → Job) : (s.modJob j f).wdog = s.wdog := by unfold State.modJob; split <;> rfl
@[simp] theorem State.modJob_migr (s : State) (j : Nat) (f : Job → Job) : (s.modJob j f).migr = s.migr := by unfold State.modJob; split <;> rfl
@[simp] theorem State.modJob_qsel (s : State) (j : Nat) (f : Job → Job) : (s.modJob j f).qsel = s.qsel := by unfold State.modJob; split <;> rfl
@[simp] theorem State.modJob_fpsel (s : State) (j : Nat) (f : Job → Job) : (s.modJob j f).fpsel = s.fpsel := by unfold State.modJob; split <;> rfl
@[simp] theorem State.modJob_almsel (s : State) (j : Nat) (f : Job → Job) : (s.modJob j f).almsel = s.almsel := by unfold State.modJob; split <;> rfl
@[simp] theorem State.modJob_nextId (s : State) (j : Nat) (f : Job → Job) : (s.modJob j f).nextId = s.nextId := by unfold State.modJob; split <;> rfl
@[simp] theorem State.modJob_nextAge (s : State) (j : Nat) (f : Job → Job) : (s.modJob j f).nextAge = s.nextAge := by unfold State.modJob; split <;> rfl
@[simp] theorem State.modJob_nextHandle (s : State) (j : Nat) (f : Job → Job) : (s.modJob j f).nextHandle = s.nextHandle := by unfold State.modJob; split <;> rfl
@[simp] theorem State.modJob_freeCount (s : State) (j : Nat) (f : Job → Job) : (s.modJob j f).freeCount = s.freeCount := by unfold State.modJob; split <;> rfl

/-! ### Parts by number after an update -/

@[simp] theorem State.grp_setBlk (s : State) (k : Nat) (x : Block) (i : Nat) : (s.setBlk k x).grp i = s.grp i := rfl
@[simp] theorem State.grp_setStk (s : State) (k : Nat) (x : Stook) (i : Nat) : (s.setStk k x).grp i = s.grp i := rfl
@[simp] theorem State.grp_setGrid (s : State) (k : Nat) (x : Grid) (i : Nat) : (s.setGrid k x).grp i = s.grp i := rfl
@[simp] theorem State.grp_setCore (s : State) (k : Nat) (x : Core) (i : Nat) : (s.setCore k x).grp i = s.grp i := rfl
@[simp] theorem State.grp_setDie (s : State) (k : Nat) (x : Die) (i : Nat) : (s.setDie k x).grp i = s.grp i := rfl
@[simp] theorem State.grp_setJob (s : State) (k : Nat) (x : Job) (i : Nat) : (s.setJob k x).grp i = s.grp i := rfl
@[simp] theorem State.grp_setLq (s : State) (k : Nat) (x : LQueue) (i : Nat) : (s.setLq k x).grp i = s.grp i := rfl
@[simp] theorem State.grp_setBq (s : State) (k : Nat) (x : BQueue) (i : Nat) : (s.setBq k x).grp i = s.grp i := rfl
@[simp] theorem State.grp_setGrade (s : State) (line : Nat) (g : Grade) (i : Nat) : (s.setGrade line g).grp i = s.grp i := rfl
@[simp] theorem State.grp_useFree (s : State) (n : Nat) (i : Nat) : (s.useFree n).grp i = s.grp i := rfl
@[simp] theorem State.grp_modBlk (s : State) (k : Nat) (f : Block → Block) (i : Nat) : (s.modBlk k f).grp i = s.grp i := by unfold State.modBlk; split <;> rfl
@[simp] theorem State.grp_modStk (s : State) (k : Nat) (f : Stook → Stook) (i : Nat) : (s.modStk k f).grp i = s.grp i := by unfold State.modStk; split <;> rfl
@[simp] theorem State.grp_modGrid (s : State) (k : Nat) (f : Grid → Grid) (i : Nat) : (s.modGrid k f).grp i = s.grp i := by unfold State.modGrid; split <;> rfl
@[simp] theorem State.grp_modCore (s : State) (k : Nat) (f : Core → Core) (i : Nat) : (s.modCore k f).grp i = s.grp i := rfl
@[simp] theorem State.grp_modDie (s : State) (k : Nat) (f : Die → Die) (i : Nat) : (s.modDie k f).grp i = s.grp i := rfl
@[simp] theorem State.grp_modJob (s : State) (k : Nat) (f : Job → Job) (i : Nat) : (s.modJob k f).grp i = s.grp i := by unfold State.modJob; split <;> rfl
@[simp] theorem State.blk_setGrp (s : State) (k : Nat) (x : Group) (i : Nat) : (s.setGrp k x).blk i = s.blk i := rfl
@[simp] theorem State.blk_setStk (s : State) (k : Nat) (x : Stook) (i : Nat) : (s.setStk k x).blk i = s.blk i := rfl
@[simp] theorem State.blk_setGrid (s : State) (k : Nat) (x : Grid) (i : Nat) : (s.setGrid k x).blk i = s.blk i := rfl
@[simp] theorem State.blk_setCore (s : State) (k : Nat) (x : Core) (i : Nat) : (s.setCore k x).blk i = s.blk i := rfl
@[simp] theorem State.blk_setDie (s : State) (k : Nat) (x : Die) (i : Nat) : (s.setDie k x).blk i = s.blk i := rfl
@[simp] theorem State.blk_setJob (s : State) (k : Nat) (x : Job) (i : Nat) : (s.setJob k x).blk i = s.blk i := rfl
@[simp] theorem State.blk_setLq (s : State) (k : Nat) (x : LQueue) (i : Nat) : (s.setLq k x).blk i = s.blk i := rfl
@[simp] theorem State.blk_setBq (s : State) (k : Nat) (x : BQueue) (i : Nat) : (s.setBq k x).blk i = s.blk i := rfl
@[simp] theorem State.blk_setGrade (s : State) (line : Nat) (g : Grade) (i : Nat) : (s.setGrade line g).blk i = s.blk i := rfl
@[simp] theorem State.blk_useFree (s : State) (n : Nat) (i : Nat) : (s.useFree n).blk i = s.blk i := rfl
@[simp] theorem State.blk_modGrp (s : State) (k : Nat) (f : Group → Group) (i : Nat) : (s.modGrp k f).blk i = s.blk i := by unfold State.modGrp; split <;> rfl
@[simp] theorem State.blk_modStk (s : State) (k : Nat) (f : Stook → Stook) (i : Nat) : (s.modStk k f).blk i = s.blk i := by unfold State.modStk; split <;> rfl
@[simp] theorem State.blk_modGrid (s : State) (k : Nat) (f : Grid → Grid) (i : Nat) : (s.modGrid k f).blk i = s.blk i := by unfold State.modGrid; split <;> rfl
@[simp] theorem State.blk_modCore (s : State) (k : Nat) (f : Core → Core) (i : Nat) : (s.modCore k f).blk i = s.blk i := rfl
@[simp] theorem State.blk_modDie (s : State) (k : Nat) (f : Die → Die) (i : Nat) : (s.modDie k f).blk i = s.blk i := rfl
@[simp] theorem State.blk_modJob (s : State) (k : Nat) (f : Job → Job) (i : Nat) : (s.modJob k f).blk i = s.blk i := by unfold State.modJob; split <;> rfl
@[simp] theorem State.stk_setGrp (s : State) (k : Nat) (x : Group) (i : Nat) : (s.setGrp k x).stk i = s.stk i := rfl
@[simp] theorem State.stk_setBlk (s : State) (k : Nat) (x : Block) (i : Nat) : (s.setBlk k x).stk i = s.stk i := rfl
@[simp] theorem State.stk_setGrid (s : State) (k : Nat) (x : Grid) (i : Nat) : (s.setGrid k x).stk i = s.stk i := rfl
@[simp] theorem State.stk_setCore (s : State) (k : Nat) (x : Core) (i : Nat) : (s.setCore k x).stk i = s.stk i := rfl
@[simp] theorem State.stk_setDie (s : State) (k : Nat) (x : Die) (i : Nat) : (s.setDie k x).stk i = s.stk i := rfl
@[simp] theorem State.stk_setJob (s : State) (k : Nat) (x : Job) (i : Nat) : (s.setJob k x).stk i = s.stk i := rfl
@[simp] theorem State.stk_setLq (s : State) (k : Nat) (x : LQueue) (i : Nat) : (s.setLq k x).stk i = s.stk i := rfl
@[simp] theorem State.stk_setBq (s : State) (k : Nat) (x : BQueue) (i : Nat) : (s.setBq k x).stk i = s.stk i := rfl
@[simp] theorem State.stk_setGrade (s : State) (line : Nat) (g : Grade) (i : Nat) : (s.setGrade line g).stk i = s.stk i := rfl
@[simp] theorem State.stk_useFree (s : State) (n : Nat) (i : Nat) : (s.useFree n).stk i = s.stk i := rfl
@[simp] theorem State.stk_modGrp (s : State) (k : Nat) (f : Group → Group) (i : Nat) : (s.modGrp k f).stk i = s.stk i := by unfold State.modGrp; split <;> rfl
@[simp] theorem State.stk_modBlk (s : State) (k : Nat) (f : Block → Block) (i : Nat) : (s.modBlk k f).stk i = s.stk i := by unfold State.modBlk; split <;> rfl
@[simp] theorem State.stk_modGrid (s : State) (k : Nat) (f : Grid → Grid) (i : Nat) : (s.modGrid k f).stk i = s.stk i := by unfold State.modGrid; split <;> rfl
@[simp] theorem State.stk_modCore (s : State) (k : Nat) (f : Core → Core) (i : Nat) : (s.modCore k f).stk i = s.stk i := rfl
@[simp] theorem State.stk_modDie (s : State) (k : Nat) (f : Die → Die) (i : Nat) : (s.modDie k f).stk i = s.stk i := rfl
@[simp] theorem State.stk_modJob (s : State) (k : Nat) (f : Job → Job) (i : Nat) : (s.modJob k f).stk i = s.stk i := by unfold State.modJob; split <;> rfl
@[simp] theorem State.grid_setGrp (s : State) (k : Nat) (x : Group) (i : Nat) : (s.setGrp k x).grid i = s.grid i := rfl
@[simp] theorem State.grid_setBlk (s : State) (k : Nat) (x : Block) (i : Nat) : (s.setBlk k x).grid i = s.grid i := rfl
@[simp] theorem State.grid_setStk (s : State) (k : Nat) (x : Stook) (i : Nat) : (s.setStk k x).grid i = s.grid i := rfl
@[simp] theorem State.grid_setCore (s : State) (k : Nat) (x : Core) (i : Nat) : (s.setCore k x).grid i = s.grid i := rfl
@[simp] theorem State.grid_setDie (s : State) (k : Nat) (x : Die) (i : Nat) : (s.setDie k x).grid i = s.grid i := rfl
@[simp] theorem State.grid_setJob (s : State) (k : Nat) (x : Job) (i : Nat) : (s.setJob k x).grid i = s.grid i := rfl
@[simp] theorem State.grid_setLq (s : State) (k : Nat) (x : LQueue) (i : Nat) : (s.setLq k x).grid i = s.grid i := rfl
@[simp] theorem State.grid_setBq (s : State) (k : Nat) (x : BQueue) (i : Nat) : (s.setBq k x).grid i = s.grid i := rfl
@[simp] theorem State.grid_setGrade (s : State) (line : Nat) (g : Grade) (i : Nat) : (s.setGrade line g).grid i = s.grid i := rfl
@[simp] theorem State.grid_useFree (s : State) (n : Nat) (i : Nat) : (s.useFree n).grid i = s.grid i := rfl
@[simp] theorem State.grid_modGrp (s : State) (k : Nat) (f : Group → Group) (i : Nat) : (s.modGrp k f).grid i = s.grid i := by unfold State.modGrp; split <;> rfl
@[simp] theorem State.grid_modBlk (s : State) (k : Nat) (f : Block → Block) (i : Nat) : (s.modBlk k f).grid i = s.grid i := by unfold State.modBlk; split <;> rfl
@[simp] theorem State.grid_modStk (s : State) (k : Nat) (f : Stook → Stook) (i : Nat) : (s.modStk k f).grid i = s.grid i := by unfold State.modStk; split <;> rfl
@[simp] theorem State.grid_modCore (s : State) (k : Nat) (f : Core → Core) (i : Nat) : (s.modCore k f).grid i = s.grid i := rfl
@[simp] theorem State.grid_modDie (s : State) (k : Nat) (f : Die → Die) (i : Nat) : (s.modDie k f).grid i = s.grid i := rfl
@[simp] theorem State.grid_modJob (s : State) (k : Nat) (f : Job → Job) (i : Nat) : (s.modJob k f).grid i = s.grid i := by unfold State.modJob; split <;> rfl
@[simp] theorem State.core_setGrp (s : State) (k : Nat) (x : Group) (i : Nat) : (s.setGrp k x).core i = s.core i := rfl
@[simp] theorem State.core_setBlk (s : State) (k : Nat) (x : Block) (i : Nat) : (s.setBlk k x).core i = s.core i := rfl
@[simp] theorem State.core_setStk (s : State) (k : Nat) (x : Stook) (i : Nat) : (s.setStk k x).core i = s.core i := rfl
@[simp] theorem State.core_setGrid (s : State) (k : Nat) (x : Grid) (i : Nat) : (s.setGrid k x).core i = s.core i := rfl
@[simp] theorem State.core_setDie (s : State) (k : Nat) (x : Die) (i : Nat) : (s.setDie k x).core i = s.core i := rfl
@[simp] theorem State.core_setJob (s : State) (k : Nat) (x : Job) (i : Nat) : (s.setJob k x).core i = s.core i := rfl
@[simp] theorem State.core_setLq (s : State) (k : Nat) (x : LQueue) (i : Nat) : (s.setLq k x).core i = s.core i := rfl
@[simp] theorem State.core_setBq (s : State) (k : Nat) (x : BQueue) (i : Nat) : (s.setBq k x).core i = s.core i := rfl
@[simp] theorem State.core_setGrade (s : State) (line : Nat) (g : Grade) (i : Nat) : (s.setGrade line g).core i = s.core i := rfl
@[simp] theorem State.core_useFree (s : State) (n : Nat) (i : Nat) : (s.useFree n).core i = s.core i := rfl
@[simp] theorem State.core_modGrp (s : State) (k : Nat) (f : Group → Group) (i : Nat) : (s.modGrp k f).core i = s.core i := by unfold State.modGrp; split <;> rfl
@[simp] theorem State.core_modBlk (s : State) (k : Nat) (f : Block → Block) (i : Nat) : (s.modBlk k f).core i = s.core i := by unfold State.modBlk; split <;> rfl
@[simp] theorem State.core_modStk (s : State) (k : Nat) (f : Stook → Stook) (i : Nat) : (s.modStk k f).core i = s.core i := by unfold State.modStk; split <;> rfl
@[simp] theorem State.core_modGrid (s : State) (k : Nat) (f : Grid → Grid) (i : Nat) : (s.modGrid k f).core i = s.core i := by unfold State.modGrid; split <;> rfl
@[simp] theorem State.core_modDie (s : State) (k : Nat) (f : Die → Die) (i : Nat) : (s.modDie k f).core i = s.core i := rfl
@[simp] theorem State.core_modJob (s : State) (k : Nat) (f : Job → Job) (i : Nat) : (s.modJob k f).core i = s.core i := by unfold State.modJob; split <;> rfl
@[simp] theorem State.die_setGrp (s : State) (k : Nat) (x : Group) (i : Nat) : (s.setGrp k x).die i = s.die i := rfl
@[simp] theorem State.die_setBlk (s : State) (k : Nat) (x : Block) (i : Nat) : (s.setBlk k x).die i = s.die i := rfl
@[simp] theorem State.die_setStk (s : State) (k : Nat) (x : Stook) (i : Nat) : (s.setStk k x).die i = s.die i := rfl
@[simp] theorem State.die_setGrid (s : State) (k : Nat) (x : Grid) (i : Nat) : (s.setGrid k x).die i = s.die i := rfl
@[simp] theorem State.die_setCore (s : State) (k : Nat) (x : Core) (i : Nat) : (s.setCore k x).die i = s.die i := rfl
@[simp] theorem State.die_setJob (s : State) (k : Nat) (x : Job) (i : Nat) : (s.setJob k x).die i = s.die i := rfl
@[simp] theorem State.die_setLq (s : State) (k : Nat) (x : LQueue) (i : Nat) : (s.setLq k x).die i = s.die i := rfl
@[simp] theorem State.die_setBq (s : State) (k : Nat) (x : BQueue) (i : Nat) : (s.setBq k x).die i = s.die i := rfl
@[simp] theorem State.die_setGrade (s : State) (line : Nat) (g : Grade) (i : Nat) : (s.setGrade line g).die i = s.die i := rfl
@[simp] theorem State.die_useFree (s : State) (n : Nat) (i : Nat) : (s.useFree n).die i = s.die i := rfl
@[simp] theorem State.die_modGrp (s : State) (k : Nat) (f : Group → Group) (i : Nat) : (s.modGrp k f).die i = s.die i := by unfold State.modGrp; split <;> rfl
@[simp] theorem State.die_modBlk (s : State) (k : Nat) (f : Block → Block) (i : Nat) : (s.modBlk k f).die i = s.die i := by unfold State.modBlk; split <;> rfl
@[simp] theorem State.die_modStk (s : State) (k : Nat) (f : Stook → Stook) (i : Nat) : (s.modStk k f).die i = s.die i := by unfold State.modStk; split <;> rfl
@[simp] theorem State.die_modGrid (s : State) (k : Nat) (f : Grid → Grid) (i : Nat) : (s.modGrid k f).die i = s.die i := by unfold State.modGrid; split <;> rfl
@[simp] theorem State.die_modCore (s : State) (k : Nat) (f : Core → Core) (i : Nat) : (s.modCore k f).die i = s.die i := rfl
@[simp] theorem State.die_modJob (s : State) (k : Nat) (f : Job → Job) (i : Nat) : (s.modJob k f).die i = s.die i := by unfold State.modJob; split <;> rfl
@[simp] theorem State.job_setGrp (s : State) (k : Nat) (x : Group) (i : Nat) : (s.setGrp k x).job? i = s.job? i := rfl
@[simp] theorem State.job_setBlk (s : State) (k : Nat) (x : Block) (i : Nat) : (s.setBlk k x).job? i = s.job? i := rfl
@[simp] theorem State.job_setStk (s : State) (k : Nat) (x : Stook) (i : Nat) : (s.setStk k x).job? i = s.job? i := rfl
@[simp] theorem State.job_setGrid (s : State) (k : Nat) (x : Grid) (i : Nat) : (s.setGrid k x).job? i = s.job? i := rfl
@[simp] theorem State.job_setCore (s : State) (k : Nat) (x : Core) (i : Nat) : (s.setCore k x).job? i = s.job? i := rfl
@[simp] theorem State.job_setDie (s : State) (k : Nat) (x : Die) (i : Nat) : (s.setDie k x).job? i = s.job? i := rfl
@[simp] theorem State.job_setLq (s : State) (k : Nat) (x : LQueue) (i : Nat) : (s.setLq k x).job? i = s.job? i := rfl
@[simp] theorem State.job_setBq (s : State) (k : Nat) (x : BQueue) (i : Nat) : (s.setBq k x).job? i = s.job? i := rfl
@[simp] theorem State.job_setGrade (s : State) (line : Nat) (g : Grade) (i : Nat) : (s.setGrade line g).job? i = s.job? i := rfl
@[simp] theorem State.job_useFree (s : State) (n : Nat) (i : Nat) : (s.useFree n).job? i = s.job? i := rfl
@[simp] theorem State.job_modGrp (s : State) (k : Nat) (f : Group → Group) (i : Nat) : (s.modGrp k f).job? i = s.job? i := by unfold State.modGrp; split <;> rfl
@[simp] theorem State.job_modBlk (s : State) (k : Nat) (f : Block → Block) (i : Nat) : (s.modBlk k f).job? i = s.job? i := by unfold State.modBlk; split <;> rfl
@[simp] theorem State.job_modStk (s : State) (k : Nat) (f : Stook → Stook) (i : Nat) : (s.modStk k f).job? i = s.job? i := by unfold State.modStk; split <;> rfl
@[simp] theorem State.job_modGrid (s : State) (k : Nat) (f : Grid → Grid) (i : Nat) : (s.modGrid k f).job? i = s.job? i := by unfold State.modGrid; split <;> rfl
@[simp] theorem State.job_modCore (s : State) (k : Nat) (f : Core → Core) (i : Nat) : (s.modCore k f).job? i = s.job? i := rfl
@[simp] theorem State.job_modDie (s : State) (k : Nat) (f : Die → Die) (i : Nat) : (s.modDie k f).job? i = s.job? i := rfl
@[simp] theorem State.lq_setGrp (s : State) (k : Nat) (x : Group) (i : Nat) : (s.setGrp k x).lq i = s.lq i := rfl
@[simp] theorem State.lq_setBlk (s : State) (k : Nat) (x : Block) (i : Nat) : (s.setBlk k x).lq i = s.lq i := rfl
@[simp] theorem State.lq_setStk (s : State) (k : Nat) (x : Stook) (i : Nat) : (s.setStk k x).lq i = s.lq i := rfl
@[simp] theorem State.lq_setGrid (s : State) (k : Nat) (x : Grid) (i : Nat) : (s.setGrid k x).lq i = s.lq i := rfl
@[simp] theorem State.lq_setCore (s : State) (k : Nat) (x : Core) (i : Nat) : (s.setCore k x).lq i = s.lq i := rfl
@[simp] theorem State.lq_setDie (s : State) (k : Nat) (x : Die) (i : Nat) : (s.setDie k x).lq i = s.lq i := rfl
@[simp] theorem State.lq_setJob (s : State) (k : Nat) (x : Job) (i : Nat) : (s.setJob k x).lq i = s.lq i := rfl
@[simp] theorem State.lq_setBq (s : State) (k : Nat) (x : BQueue) (i : Nat) : (s.setBq k x).lq i = s.lq i := rfl
@[simp] theorem State.lq_setGrade (s : State) (line : Nat) (g : Grade) (i : Nat) : (s.setGrade line g).lq i = s.lq i := rfl
@[simp] theorem State.lq_useFree (s : State) (n : Nat) (i : Nat) : (s.useFree n).lq i = s.lq i := rfl
@[simp] theorem State.lq_modGrp (s : State) (k : Nat) (f : Group → Group) (i : Nat) : (s.modGrp k f).lq i = s.lq i := by unfold State.modGrp; split <;> rfl
@[simp] theorem State.lq_modBlk (s : State) (k : Nat) (f : Block → Block) (i : Nat) : (s.modBlk k f).lq i = s.lq i := by unfold State.modBlk; split <;> rfl
@[simp] theorem State.lq_modStk (s : State) (k : Nat) (f : Stook → Stook) (i : Nat) : (s.modStk k f).lq i = s.lq i := by unfold State.modStk; split <;> rfl
@[simp] theorem State.lq_modGrid (s : State) (k : Nat) (f : Grid → Grid) (i : Nat) : (s.modGrid k f).lq i = s.lq i := by unfold State.modGrid; split <;> rfl
@[simp] theorem State.lq_modCore (s : State) (k : Nat) (f : Core → Core) (i : Nat) : (s.modCore k f).lq i = s.lq i := rfl
@[simp] theorem State.lq_modDie (s : State) (k : Nat) (f : Die → Die) (i : Nat) : (s.modDie k f).lq i = s.lq i := rfl
@[simp] theorem State.lq_modJob (s : State) (k : Nat) (f : Job → Job) (i : Nat) : (s.modJob k f).lq i = s.lq i := by unfold State.modJob; split <;> rfl
@[simp] theorem State.bq_setGrp (s : State) (k : Nat) (x : Group) (i : Nat) : (s.setGrp k x).bq i = s.bq i := rfl
@[simp] theorem State.bq_setBlk (s : State) (k : Nat) (x : Block) (i : Nat) : (s.setBlk k x).bq i = s.bq i := rfl
@[simp] theorem State.bq_setStk (s : State) (k : Nat) (x : Stook) (i : Nat) : (s.setStk k x).bq i = s.bq i := rfl
@[simp] theorem State.bq_setGrid (s : State) (k : Nat) (x : Grid) (i : Nat) : (s.setGrid k x).bq i = s.bq i := rfl
@[simp] theorem State.bq_setCore (s : State) (k : Nat) (x : Core) (i : Nat) : (s.setCore k x).bq i = s.bq i := rfl
@[simp] theorem State.bq_setDie (s : State) (k : Nat) (x : Die) (i : Nat) : (s.setDie k x).bq i = s.bq i := rfl
@[simp] theorem State.bq_setJob (s : State) (k : Nat) (x : Job) (i : Nat) : (s.setJob k x).bq i = s.bq i := rfl
@[simp] theorem State.bq_setLq (s : State) (k : Nat) (x : LQueue) (i : Nat) : (s.setLq k x).bq i = s.bq i := rfl
@[simp] theorem State.bq_setGrade (s : State) (line : Nat) (g : Grade) (i : Nat) : (s.setGrade line g).bq i = s.bq i := rfl
@[simp] theorem State.bq_useFree (s : State) (n : Nat) (i : Nat) : (s.useFree n).bq i = s.bq i := rfl
@[simp] theorem State.bq_modGrp (s : State) (k : Nat) (f : Group → Group) (i : Nat) : (s.modGrp k f).bq i = s.bq i := by unfold State.modGrp; split <;> rfl
@[simp] theorem State.bq_modBlk (s : State) (k : Nat) (f : Block → Block) (i : Nat) : (s.modBlk k f).bq i = s.bq i := by unfold State.modBlk; split <;> rfl
@[simp] theorem State.bq_modStk (s : State) (k : Nat) (f : Stook → Stook) (i : Nat) : (s.modStk k f).bq i = s.bq i := by unfold State.modStk; split <;> rfl
@[simp] theorem State.bq_modGrid (s : State) (k : Nat) (f : Grid → Grid) (i : Nat) : (s.modGrid k f).bq i = s.bq i := by unfold State.modGrid; split <;> rfl
@[simp] theorem State.bq_modCore (s : State) (k : Nat) (f : Core → Core) (i : Nat) : (s.modCore k f).bq i = s.bq i := rfl
@[simp] theorem State.bq_modDie (s : State) (k : Nat) (f : Die → Die) (i : Nat) : (s.modDie k f).bq i = s.bq i := rfl
@[simp] theorem State.bq_modJob (s : State) (k : Nat) (f : Job → Job) (i : Nat) : (s.modJob k f).bq i = s.bq i := by unfold State.modJob; split <;> rfl

theorem State.grp_setGrp (s : State) (k i : Nat) (x : Group) : (s.setGrp k x).grp i = if i = k then x else s.grp i := by
  unfold State.grp State.setGrp
  simp only [Tbl.find_put]
  split <;> rfl
@[simp] theorem State.grp_setGrp_self (s : State) (k : Nat) (x : Group) : (s.setGrp k x).grp k = x := by
  rw [State.grp_setGrp]; simp
theorem State.blk_setBlk (s : State) (k i : Nat) (x : Block) : (s.setBlk k x).blk i = if i = k then x else s.blk i := by
  unfold State.blk State.setBlk
  simp only [Tbl.find_put]
  split <;> rfl
@[simp] theorem State.blk_setBlk_self (s : State) (k : Nat) (x : Block) : (s.setBlk k x).blk k = x := by
  rw [State.blk_setBlk]; simp
theorem State.stk_setStk (s : State) (k i : Nat) (x : Stook) : (s.setStk k x).stk i = if i = k then x else s.stk i := by
  unfold State.stk State.setStk
  simp only [Tbl.find_put]
  split <;> rfl
@[simp] theorem State.stk_setStk_self (s : State) (k : Nat) (x : Stook) : (s.setStk k x).stk k = x := by
  rw [State.stk_setStk]; simp
theorem State.grid_setGrid (s : State) (k i : Nat) (x : Grid) : (s.setGrid k x).grid i = if i = k then x else s.grid i := by
  unfold State.grid State.setGrid
  simp only [Tbl.find_put]
  split <;> rfl
@[simp] theorem State.grid_setGrid_self (s : State) (k : Nat) (x : Grid) : (s.setGrid k x).grid k = x := by
  rw [State.grid_setGrid]; simp
theorem State.core_setCore (s : State) (k i : Nat) (x : Core) : (s.setCore k x).core i = if i = k then x else s.core i := by
  unfold State.core State.setCore
  simp only [Tbl.find_put]
  split <;> rfl
@[simp] theorem State.core_setCore_self (s : State) (k : Nat) (x : Core) : (s.setCore k x).core k = x := by
  rw [State.core_setCore]; simp
theorem State.die_setDie (s : State) (k i : Nat) (x : Die) : (s.setDie k x).die i = if i = k then x else s.die i := by
  unfold State.die State.setDie
  simp only [Tbl.find_put]
  split <;> rfl
@[simp] theorem State.die_setDie_self (s : State) (k : Nat) (x : Die) : (s.setDie k x).die k = x := by
  rw [State.die_setDie]; simp
theorem State.job_setJob (s : State) (k i : Nat) (x : Job) : (s.setJob k x).job? i = if i = k then some x else s.job? i :=
  Tbl.find_put _ _ _ _
theorem State.lq_setLq (s : State) (k i : Nat) (x : LQueue) : (s.setLq k x).lq i = if i = k then x else s.lq i := by
  unfold State.lq State.setLq
  simp only [Tbl.find_put]
  split <;> rfl
@[simp] theorem State.lq_setLq_self (s : State) (k : Nat) (x : LQueue) : (s.setLq k x).lq k = x := by
  rw [State.lq_setLq]; simp
theorem State.bq_setBq (s : State) (k i : Nat) (x : BQueue) : (s.setBq k x).bq i = if i = k then x else s.bq i := by
  unfold State.bq State.setBq
  simp only [Tbl.find_put]
  split <;> rfl
@[simp] theorem State.bq_setBq_self (s : State) (k : Nat) (x : BQueue) : (s.setBq k x).bq k = x := by
  rw [State.bq_setBq]; simp
/-- A part that is there is changed as asked. -/
theorem State.modGrp_of_some (s : State) (k : Nat) (f : Group → Group) (h : (Tbl.find s.groups k).isSome = true) :
    s.modGrp k f = s.setGrp k (f (s.grp k)) := by
  unfold State.modGrp State.grp
  cases hf : Tbl.find s.groups k with
  | none => rw [hf] at h; cases h
  | some x => rfl
theorem State.grp_modGrp_ne (s : State) {k i : Nat} (f : Group → Group) (h : i ≠ k) : (s.modGrp k f).grp i = s.grp i := by
  unfold State.modGrp
  split
  · rw [State.grp_setGrp, if_neg h]
  · rfl
theorem State.grp_modGrp_self (s : State) (k : Nat) (f : Group → Group) (h : (Tbl.find s.groups k).isSome = true) :
    (s.modGrp k f).grp k = f (s.grp k) := by
  rw [State.modGrp_of_some s k f h, State.grp_setGrp_self]
/-- A part that is there is changed as asked. -/
theorem State.modBlk_of_some (s : State) (k : Nat) (f : Block → Block) (h : (Tbl.find s.blocks k).isSome = true) :
    s.modBlk k f = s.setBlk k (f (s.blk k)) := by
  unfold State.modBlk State.blk
  cases hf : Tbl.find s.blocks k with
  | none => rw [hf] at h; cases h
  | some x => rfl
theorem State.blk_modBlk_ne (s : State) {k i : Nat} (f : Block → Block) (h : i ≠ k) : (s.modBlk k f).blk i = s.blk i := by
  unfold State.modBlk
  split
  · rw [State.blk_setBlk, if_neg h]
  · rfl
theorem State.blk_modBlk_self (s : State) (k : Nat) (f : Block → Block) (h : (Tbl.find s.blocks k).isSome = true) :
    (s.modBlk k f).blk k = f (s.blk k) := by
  rw [State.modBlk_of_some s k f h, State.blk_setBlk_self]
/-- A part that is there is changed as asked. -/
theorem State.modStk_of_some (s : State) (k : Nat) (f : Stook → Stook) (h : (Tbl.find s.stooks k).isSome = true) :
    s.modStk k f = s.setStk k (f (s.stk k)) := by
  unfold State.modStk State.stk
  cases hf : Tbl.find s.stooks k with
  | none => rw [hf] at h; cases h
  | some x => rfl
theorem State.stk_modStk_ne (s : State) {k i : Nat} (f : Stook → Stook) (h : i ≠ k) : (s.modStk k f).stk i = s.stk i := by
  unfold State.modStk
  split
  · rw [State.stk_setStk, if_neg h]
  · rfl
theorem State.stk_modStk_self (s : State) (k : Nat) (f : Stook → Stook) (h : (Tbl.find s.stooks k).isSome = true) :
    (s.modStk k f).stk k = f (s.stk k) := by
  rw [State.modStk_of_some s k f h, State.stk_setStk_self]
/-- A part that is there is changed as asked. -/
theorem State.modGrid_of_some (s : State) (k : Nat) (f : Grid → Grid) (h : (Tbl.find s.grids k).isSome = true) :
    s.modGrid k f = s.setGrid k (f (s.grid k)) := by
  unfold State.modGrid State.grid
  cases hf : Tbl.find s.grids k with
  | none => rw [hf] at h; cases h
  | some x => rfl
theorem State.grid_modGrid_ne (s : State) {k i : Nat} (f : Grid → Grid) (h : i ≠ k) : (s.modGrid k f).grid i = s.grid i := by
  unfold State.modGrid
  split
  · rw [State.grid_setGrid, if_neg h]
  · rfl
theorem State.grid_modGrid_self (s : State) (k : Nat) (f : Grid → Grid) (h : (Tbl.find s.grids k).isSome = true) :
    (s.modGrid k f).grid k = f (s.grid k) := by
  rw [State.modGrid_of_some s k f h, State.grid_setGrid_self]
theorem State.core_modCore (s : State) (k i : Nat) (f : Core → Core) :
    (s.modCore k f).core i = if i = k then f (s.core k) else s.core i := State.core_setCore _ _ _ _
@[simp] theorem State.core_modCore_self (s : State) (k : Nat) (f : Core → Core) : (s.modCore k f).core k = f (s.core k) :=
  State.core_setCore_self _ _ _
theorem State.die_modDie (s : State) (k i : Nat) (f : Die → Die) :
    (s.modDie k f).die i = if i = k then f (s.die k) else s.die i := State.die_setDie _ _ _ _
@[simp] theorem State.die_modDie_self (s : State) (k : Nat) (f : Die → Die) : (s.modDie k f).die k = f (s.die k) :=
  State.die_setDie_self _ _ _

end Sys2Proof.Machine
end

