-- ==== Sys2Proof/Laws/Group.lean ====
section
/-!
SUPPORT. What moving the threads of a group leaves of it: merging and choosing clusters, and the end of a word or clause,
change nothing a group holds but its clause, MRs and clusters (R60 to R65).
-/
namespace Sys2Proof.Machine

/-! ### A group's updates apart from its threads -/

@[simp] theorem Group.still_setPcs (g : Group) (m : Dword) (f : Nat → Dword) : (g.setPcs m f).still = g.still := rfl
@[simp] theorem Group.still_setMrs (g : Group) (m : Dword) (f : Nat → Dword) : (g.setMrs m f).still = g.still := rfl
@[simp] theorem Group.still_still (g : Group) : g.still.still = g.still := rfl

theorem Group.still_addPending (g : Group) (c : Cluster) : (g.addPending c).still = g.still := by
  unfold Group.addPending
  split <;> rfl

theorem Group.still_foldl {α : Type} (f : Group → α → Group) (h : ∀ g a, (f g a).still = g.still) (l : List α) :
    ∀ g : Group, (l.foldl f g).still = g.still := by
  induction l with
  | nil => intro g; rfl
  | cons a t ih => intro g; rw [List.foldl_cons, ih, h]

theorem Group.still_meetAt (g : Group) (a : Dword) : (g.meetAt a).still = g.still := by
  unfold Group.meetAt
  dsimp only
  split
  · rw [Group.still_addPending]; rfl
  · rfl

theorem Group.still_meetAll (g : Group) : g.meetAll.still = g.still :=
  Group.still_foldl _ Group.still_meetAt _ _

theorem Group.still_absorb (g : Group) : g.absorb.still = g.still := by
  unfold Group.absorb
  split <;> rfl

theorem Group.still_rotate (g : Group) : g.rotate.still = g.still := by
  unfold Group.rotate
  split
  · rfl
  · rename_i c _
    split
    · dsimp only
      split
      · exact Group.still_addPending _ c
      · exact Group.still_addPending _ c
    · rfl

theorem Group.still_pickNext (g : Group) (pass : Dword) : (g.pickNext pass).still = g.still := by
  unfold Group.pickNext
  split
  · rfl
  · split <;> rfl

/-- The end of a clause changes nothing of a group but where its threads stand. -/
theorem Group.still_endClause (g : Group) (ends : Bool) (pass : Dword) (res : Nat) (part : Bool) :
    (g.endClause ends pass res part).still = g.still := by
  unfold Group.endClause
  dsimp only
  rw [Group.still_pickNext, Group.still_rotate, Group.still_absorb, Group.still_meetAll]
  split
  · rw [Group.still_foldl _ (fun g m => Group.still_addPending g _)]; rfl
  · rfl

theorem Group.still_advance (g : Group) : g.advance.still = g.still := by
  unfold Group.advance
  dsimp only
  split
  · rw [Group.still_endClause]; rfl
  · rfl

theorem Group.still_branch (g : Group) (f : Nat → Dword) : (g.branch f).still = g.still := by
  unfold Group.branch
  rw [Group.still_endClause]; rfl

/-! ### PCs and the clause after the end of a clause -/

theorem Group.spots_addPending (g : Group) (c : Cluster) : (g.addPending c).pcs = g.pcs ∧ (g.addPending c).clause = g.clause := by
  unfold Group.addPending
  split <;> exact ⟨rfl, rfl⟩

theorem Group.spots_foldl {α : Type} (f : Group → α → Group)
    (h : ∀ g a, (f g a).pcs = g.pcs ∧ (f g a).clause = g.clause) (l : List α) :
    ∀ g : Group, (l.foldl f g).pcs = g.pcs ∧ (l.foldl f g).clause = g.clause := by
  induction l with
  | nil => intro g; exact ⟨rfl, rfl⟩
  | cons a t ih => intro g; rw [List.foldl_cons]; exact ⟨(ih _).1.trans (h g a).1, (ih _).2.trans (h g a).2⟩

theorem Group.spots_meetAt (g : Group) (a : Dword) : (g.meetAt a).pcs = g.pcs ∧ (g.meetAt a).clause = g.clause := by
  unfold Group.meetAt
  dsimp only
  split
  · exact ⟨(Group.spots_addPending _ _).1.trans rfl, (Group.spots_addPending _ _).2.trans rfl⟩
  · exact ⟨rfl, rfl⟩

theorem Group.spots_meetAll (g : Group) : g.meetAll.pcs = g.pcs ∧ g.meetAll.clause = g.clause :=
  Group.spots_foldl _ Group.spots_meetAt _ _

theorem Group.spots_absorb (g : Group) : g.absorb.pcs = g.pcs ∧ g.absorb.clause = g.clause := by
  unfold Group.absorb
  split <;> exact ⟨rfl, rfl⟩

theorem Group.spots_rotate (g : Group) : g.rotate.pcs = g.pcs ∧ g.rotate.clause = g.clause := by
  unfold Group.rotate
  split
  · exact ⟨rfl, rfl⟩
  · rename_i c _
    split
    · dsimp only
      split
      · exact Group.spots_addPending _ c
      · exact Group.spots_addPending _ c
    · exact ⟨rfl, rfl⟩

theorem Group.spots_pickNext (g : Group) (pass : Dword) : (g.pickNext pass).pcs = g.pcs ∧ (g.pickNext pass).clause = g.clause := by
  unfold Group.pickNext
  split
  · exact ⟨rfl, rfl⟩
  · split <;> exact ⟨rfl, rfl⟩

/-- The end of a clause moves no thread, and leaves no clause open. -/
theorem Group.spots_endClause (g : Group) (ends : Bool) (pass : Dword) (res : Nat) (part : Bool) :
    (g.endClause ends pass res part).pcs = g.pcs ∧ (g.endClause ends pass res part).clause = none := by
  unfold Group.endClause
  dsimp only
  have h : ∀ x y : Group, x.pcs = y.pcs ∧ x.clause = y.clause →
      ((x.meetAll.absorb.rotate).pickNext pass).pcs = y.pcs ∧ ((x.meetAll.absorb.rotate).pickNext pass).clause = y.clause := by
    intro x y hx
    have h1 := Group.spots_meetAll x
    have h2 := Group.spots_absorb x.meetAll
    have h3 := Group.spots_rotate x.meetAll.absorb
    have h4 := Group.spots_pickNext x.meetAll.absorb.rotate pass
    exact ⟨h4.1.trans (h3.1.trans (h2.1.trans (h1.1.trans hx.1))), h4.2.trans (h3.2.trans (h2.2.trans (h1.2.trans hx.2)))⟩
  split
  · exact h _ { g with clause := none } ((Group.spots_foldl _ (fun g m => Group.spots_addPending g _) _ _))
  · exact h _ { g with clause := none } ⟨rfl, rfl⟩

@[simp] theorem Group.pc_setPcs (g : Group) (m : Dword) (f : Nat → Dword) {L : Nat} (h : L < 64) :
    (g.setPcs m f).pc L = if inMask m L then f L else g.pc L := by
  simp only [Group.pc, Group.setPcs, List.getD]
  rw [List.getElem?_map, List.getElem?_range h]
  rfl

@[simp] theorem Group.mr_setMrs (g : Group) (m : Dword) (f : Nat → Dword) {L : Nat} (h : L < 64) :
    (g.setMrs m f).mr L = if inMask m L then f L else g.mr L := by
  simp only [Group.mr, Group.setMrs, List.getD]
  rw [List.getElem?_map, List.getElem?_range h]
  rfl

theorem Group.pc_endClause (g : Group) (ends : Bool) (pass : Dword) (res : Nat) (part : Bool) (L : Nat) :
    (g.endClause ends pass res part).pc L = g.pc L := by
  unfold Group.pc; rw [(Group.spots_endClause g ends pass res part).1]

/-! ### The end of a word -/

/-- After an instruction that moves no thread, the group has gone on. -/
theorem Group.wentOn_advance (x y : Group) (hp : y.pcs = x.pcs) (hm : y.mrs = x.mrs) (hc : y.cur = x.cur)
    (hd : y.pend = x.pend)
    (hk : (x.clause = none ∧ y.clause = none) ∨
      ∃ c k, x.clause = some c ∧ y.clause = some k ∧ k.hdr = c.hdr ∧ k.head = c.head ∧ k.idx = c.idx) :
    x.WentOn y.advance := by
  have hl : y.curLanes = x.curLanes := by unfold Group.curLanes; rw [hc]
  have hh : y.clause!.hdr = x.clause!.hdr ∧ y.clause!.head = x.clause!.head ∧ y.clause!.idx = x.clause!.idx := by
    rcases hk with ⟨h1, h2⟩ | ⟨c, k, h1, h2, h3⟩
    · unfold Group.clause!; rw [h1, h2]; exact ⟨rfl, rfl, rfl⟩
    · unfold Group.clause!; rw [h1, h2]; exact h3
  have ha : y.atLast = x.atLast := by unfold Group.atLast; rw [hh.2.1, hh.2.2]
  have hpc : ∀ L, y.pc L = x.pc L := fun L => by unfold Group.pc; rw [hp]
  constructor
  · intro c hx hn
    rcases hk with ⟨h1, _⟩ | ⟨c', k, h1, h2, h3, h4, h5⟩
    · rw [h1] at hx; cases hx
    · rw [h1] at hx; cases hx
      refine ⟨{ k with idx := k.idx + 1 }, ?_, h3, h4, by simp [h5]⟩
      unfold Group.advance
      simp only [ha, hn]
      simp [Group.clause!, h2]
  · intro hn
    unfold Group.advance
    simp only [ha, hn]
    exact ⟨hp, hm, hc, hd⟩
  · intro hn
    unfold Group.advance
    simp only [ha, hn, if_true]
    exact (Group.spots_endClause _ _ _ _ _).2
  · intro hn L hL
    unfold Group.advance
    simp only [ha, hn, if_true]
    rw [Group.pc_endClause, Group.pc_setPcs _ _ _ hL, hl, hh.1, hh.2.1, hpc]

theorem Group.wentOn_advance_self (x : Group) : x.WentOn x.advance := by
  refine Group.wentOn_advance x x rfl rfl rfl rfl ?_
  cases h : x.clause with
  | none => exact .inl ⟨rfl, rfl⟩
  | some c => exact .inr ⟨c, c, rfl, rfl, rfl, rfl, rfl⟩

/-- Groups that differ only in registers and the like go on alike. -/
theorem Group.WentOn.of_eq {x x' y : Group} (h : x.WentOn y) (hp : x'.pcs = x.pcs) (hm : x'.mrs = x.mrs) (hc : x'.cur = x.cur)
    (hd : x'.pend = x.pend) (hk : x'.clause = x.clause) : x'.WentOn y := by
  have ha : x'.atLast = x.atLast := by unfold Group.atLast Group.clause!; rw [hk]
  have hl : x'.curLanes = x.curLanes := by unfold Group.curLanes; rw [hc]
  have hb : x'.clause! = x.clause! := by unfold Group.clause!; rw [hk]
  have hpc : ∀ L, x'.pc L = x.pc L := fun L => by unfold Group.pc; rw [hp]
  constructor
  · intro c hx; rw [hk] at hx; rw [ha]; exact h.word c hx
  · rw [ha, hp, hm, hc, hd]; exact h.threads
  · rw [ha]; exact h.ended
  · rw [ha, hl, hb]; intro hn L hL; rw [hpc]; exact h.next hn L hL

end Sys2Proof.Machine
end

