-- ==== Sys2Proof/Laws/Regs.lean ====
section
/-!
SUPPORT. Registers: what a register reads after a write of another or of itself (R11 to R16), and that a write of a
register changes nothing else.
-/
namespace Sys2Proof.Machine

/-! ### Congruence: what a register read depends on -/

theorem State.blk_of_rest {s t : State} (h : t.rest = s.rest) (b : Nat) : t.blk b = s.blk b := by
  have : t.blocks = s.blocks := show t.rest.blocks = s.rest.blocks by rw [h]
  unfold State.blk; rw [this]

theorem State.stk_of_rest {s t : State} (h : t.rest = s.rest) (b : Nat) : t.stk b = s.stk b := by
  have : t.stooks = s.stooks := show t.rest.stooks = s.rest.stooks by rw [h]
  unfold State.stk; rw [this]

theorem Group.kept_of_still {x y : Group} (h : x.still = y.still) : x.kept = y.kept := by
  unfold Group.kept; rw [h]
theorem Group.blk_of_kept {x y : Group} (h : x.kept = y.kept) : x.blk = y.blk := show x.kept.blk = y.kept.blk by rw [h]
theorem Group.slot_of_kept {x y : Group} (h : x.kept = y.kept) : x.slot = y.slot := show x.kept.slot = y.kept.slot by rw [h]
theorem Group.pair_of_kept {x y : Group} (h : x.kept = y.kept) : x.pair = y.pair := by
  unfold Group.pair; rw [Group.slot_of_kept h]

theorem State.vreg_congr {s t : State} {g : Nat} (n : Nat) (hr : t.rest = s.rest) (hk : (t.grp g).kept = (s.grp g).kept)
    (hv : (t.grp g).vregs = (s.grp g).vregs)
    (hc : Tbl.find (t.core (s.coreOf g)).ext (s.grp g).pair = Tbl.find (s.core (s.coreOf g)).ext (s.grp g).pair) :
    t.vreg g n = s.vreg g n := by
  have hc' : Tbl.find (t.core (s.blk (s.grp g).blk).core).ext (s.grp g).pair =
      Tbl.find (s.core (s.blk (s.grp g).blk).core).ext (s.grp g).pair := hc
  unfold State.vreg
  dsimp only
  rw [hv, Group.blk_of_kept hk, Group.pair_of_kept hk, State.blk_of_rest hr, hc']

/-! ### Vector registers -/

theorem State.setVreg_low (s : State) (g : Nat) {n : Nat} (v : VReg) (h : n < 64) :
    s.setVreg g n v = s.setGrp g { s.grp g with vregs := Tbl.put (s.grp g).vregs n v } := by
  unfold State.setVreg; simp [h]

/-- The extension set of a group's slot pair. -/
theorem State.setVreg_high (s : State) (g : Nat) {n : Nat} (v : VReg) (h : ¬ n < 64) :
    s.setVreg g n v = s.modCore (s.coreOf g) fun k =>
      let e := (Tbl.find (s.core (s.coreOf g)).ext (s.grp g).pair).getD ExtPair.zero
      { k with ext := Tbl.put k.ext (s.grp g).pair { e with regs := Tbl.put e.regs n v } } := by
  unfold State.setVreg; simp only [h, if_false]; rfl

/-- A vector register reads as what was written to it, and every other one of the group as before. -/
theorem State.vreg_setVreg (s : State) (g k n : Nat) (v : VReg) :
    (s.setVreg g k v).vreg g n = if n = k then v else s.vreg g n := by
  by_cases hk : k < 64
  · rw [State.setVreg_low s g v hk]
    unfold State.vreg
    simp only [State.grp_setGrp_self, State.core_setGrp, State.blk_setGrp]
    by_cases hn : n < 64
    · simp only [hn, if_true, Tbl.find_put]
      split <;> rfl
    · have : n ≠ k := by omega
      simp only [hn, if_false, this]
      rfl
  · rw [State.setVreg_high s g v hk]
    unfold State.vreg
    dsimp only
    rw [State.grp_modCore, State.blk_modCore]
    by_cases hn : n < 64
    · have : n ≠ k := by omega
      simp only [hn, this, if_true, if_false]
    · show (if n < 64 then _ else (Tbl.find (Option.getD (Tbl.find (State.core _ (s.coreOf g)).ext _) _).regs n).getD _) = _
      rw [State.core_modCore_self]
      simp only [hn, if_false, Tbl.find_put_self, Option.getD_some, Tbl.find_put]
      split <;> rfl

/-- What a write of a vector register leaves. -/
theorem State.setVreg_frame (s : State) (g k : Nat) (v : VReg) :
    ((s.setVreg g k v).grp g) = { s.grp g with vregs := ((s.setVreg g k v).grp g).vregs } ∧
    s.OnlyGroup (s.setVreg g k v) g := by
  by_cases hk : k < 64
  · rw [State.setVreg_low s g v hk]
    refine ⟨by rw [State.grp_setGrp_self], ⟨fun _ => rfl, fun _ _ => rfl, fun h hh => ?_⟩, rfl, fun _ => rfl, fun _ _ _ => rfl, ?_⟩
    · rw [State.grp_setGrp, if_neg hh]
    · unfold State.lockHolder State.coreOf State.blockOf
      rw [State.grp_setGrp_self]; rfl
  · rw [State.setVreg_high s g v hk]
    refine ⟨rfl, ⟨fun _ => rfl, fun _ _ => rfl, fun _ _ => rfl⟩, rfl, fun c => ?_, fun c p hcp => ?_, ?_⟩
    · rw [State.core_modCore]; split
      · rename_i h; rw [h]
      · rfl
    · rw [State.core_modCore]; split
      · rename_i h; subst h
        rcases hcp with h | h
        · exact absurd rfl h
        · exact Tbl.find_put_ne _ _ h
      · rfl
    · unfold State.lockHolder
      show (Option.getD (Tbl.find (State.core _ (s.coreOf g)).ext (s.grp g).pair) ExtPair.zero).holder = _
      rw [State.core_modCore_self]
      simp

end Sys2Proof.Machine
end

