-- ==== Sys2Proof/Laws/Alu.lean ====
section
/-!
SUPPORT. Operand checks and the end of an ALU instruction, once for all of them: an instruction whose operands are in
order completes, and `State.Wrote` says all it leaves (R24, R27, R28, R42, R44, R59, R82, R83).
-/
namespace Sys2Proof.Machine

/-! ### One group changed -/

/-- Only group `g` changed, and of it no more than registers, windows and where its threads stand. -/
structure State.Near (s t : State) (g : Nat) : Prop where
  kept : (t.grp g).kept = (s.grp g).kept
  only : s.OnlyGroup t g

theorem State.OnlyGroup.refl (s : State) (g : Nat) : s.OnlyGroup s g :=
  ⟨⟨fun _ => rfl, fun _ _ => rfl, fun _ _ => rfl⟩, rfl, fun _ => rfl, fun _ _ _ => rfl, rfl⟩

theorem State.Near.refl (s : State) (g : Nat) : s.Near s g := ⟨rfl, State.OnlyGroup.refl s g⟩

theorem State.coreOf_near {s t : State} {g : Nat} (h : s.Near t g) : t.coreOf g = s.coreOf g := by
  unfold State.coreOf State.blockOf
  rw [Group.blk_of_kept h.kept, State.blk_of_rest h.only.device]

theorem State.Near.trans {s t u : State} {g : Nat} (h : s.Near t g) (k : t.Near u g) : s.Near u g := by
  refine ⟨k.kept.trans h.kept, ⟨fun a => ?_, fun b a => ?_, fun x hx => ?_⟩, ?_, fun c => ?_, fun c p hcp => ?_, ?_⟩
  · rw [k.only.elsewhere.memory, h.only.elsewhere.memory]
  · rw [k.only.elsewhere.scratch, h.only.elsewhere.scratch]
  · rw [k.only.elsewhere.groups x hx, h.only.elsewhere.groups x hx]
  · rw [k.only.device, h.only.device]
  · rw [k.only.cores, h.only.cores]
  · rw [k.only.ext c p, h.only.ext c p hcp]
    rw [State.coreOf_near h, Group.pair_of_kept h.kept]; exact hcp
  · rw [k.only.lock, h.only.lock]

theorem State.lockHolder_congr {s t : State} {g : Nat} (hc : t.cores = s.cores) (hr : t.rest = s.rest)
    (hk : (t.grp g).kept = (s.grp g).kept) : t.lockHolder g = s.lockHolder g := by
  unfold State.lockHolder State.coreOf State.blockOf State.core
  rw [hc, Group.blk_of_kept hk, Group.pair_of_kept hk, State.blk_of_rest hr]

/-- A change of one group's registers, windows or threads. -/
theorem State.near_setGrp (s : State) (g : Nat) (x : Group) (h : x.kept = (s.grp g).kept) : s.Near (s.setGrp g x) g := by
  have hk : ((s.setGrp g x).grp g).kept = (s.grp g).kept := by rw [State.grp_setGrp_self]; exact h
  exact ⟨hk, ⟨fun _ => rfl, fun _ _ => rfl, fun i hi => by rw [State.grp_setGrp, if_neg hi]⟩, rfl, fun _ => rfl,
    fun _ _ _ => rfl, State.lockHolder_congr rfl rfl hk⟩

theorem State.near_setVreg (s : State) (g n : Nat) (v : VReg) : s.Near (s.setVreg g n v) g := by
  have h := State.setVreg_frame s g n v
  exact ⟨by rw [h.1]; rfl, h.2⟩

/-! ### Writing a destination -/

/-- Groups equal but for their registers. -/
def Group.bare (g : Group) : Group := { g with vregs := [], sregs := [] }

theorem Group.kept_of_bare {x y : Group} (h : x.bare = y.bare) : x.kept = y.kept := by
  have : x.bare.kept = y.bare.kept := by rw [h]
  exact this

/-- `m` vector registers written one after another. -/
def State.writeVs (s : State) (g : Nat) (act : Dword) (t : Tag) (k : Nat) (res : List Lanes) (m : Nat) : State :=
  (List.range m).foldl (fun s i => s.writeV g (k + i) act t (res.getD i [])) s

theorem State.writeVs_succ (s : State) (g : Nat) (act : Dword) (t : Tag) (k : Nat) (res : List Lanes) (m : Nat) :
    s.writeVs g act t k res (m + 1) = (s.writeVs g act t k res m).writeV g (k + m) act t (res.getD m []) := by
  unfold State.writeVs
  rw [List.range_succ, List.foldl_append]; rfl

theorem State.sreg_setVreg (s : State) (g k n : Nat) (v : VReg) : (s.setVreg g k v).sreg g n = s.sreg g n := by
  unfold State.sreg
  rw [(State.setVreg_frame s g k v).1]; rfl

theorem State.writeVs_spec (s : State) (g : Nat) (act : Dword) (t : Tag) (k : Nat) (res : List Lanes) (m : Nat) :
    (∀ n, (s.writeVs g act t k res m).vreg g n = if k ≤ n ∧ n < k + m then
        { lanes := Lanes.merge act (s.vreg g n).lanes (res.getD (n - k) []), tag := t } else s.vreg g n) ∧
    (∀ n, (s.writeVs g act t k res m).sreg g n = s.sreg g n) ∧
    ((s.writeVs g act t k res m).grp g).bare = (s.grp g).bare ∧ s.Near (s.writeVs g act t k res m) g := by
  induction m with
  | zero => exact ⟨fun n => by rw [if_neg (by omega)]; rfl, fun _ => rfl, rfl, State.Near.refl s g⟩
  | succ m ih =>
    obtain ⟨h1, h2, h3, h4⟩ := ih
    rw [State.writeVs_succ]
    unfold State.writeV
    refine ⟨fun n => ?_, fun n => ?_, ?_, h4.trans (State.near_setVreg _ _ _ _)⟩
    · rw [State.vreg_setVreg]
      by_cases hn : n = k + m
      · subst hn
        rw [if_pos rfl, if_pos (by omega), h1, if_neg (by omega), Nat.add_sub_cancel_left]
      · rw [if_neg hn, h1]
        by_cases hr : k ≤ n ∧ n < k + m
        · rw [if_pos hr, if_pos (by omega)]
        · rw [if_neg hr, if_neg (by omega)]
    · rw [State.sreg_setVreg, h2]
    · rw [(State.setVreg_frame _ _ _ _).1]; exact h3

/-- `m` scalars written one after another. -/
def State.writeSs (s : State) (g : Nat) (k : Nat) (w : Nat → Word) (m : Nat) : State :=
  (List.range m).foldl (fun s i => s.setSreg g (k + i) (w i)) s

theorem State.writeSs_succ (s : State) (g : Nat) (k : Nat) (w : Nat → Word) (m : Nat) :
    s.writeSs g k w (m + 1) = (s.writeSs g k w m).setSreg g (k + m) (w m) := by
  unfold State.writeSs
  rw [List.range_succ, List.foldl_append]; rfl

theorem State.sreg_setSreg (s : State) (g k n : Nat) (w : Word) :
    (s.setSreg g k w).sreg g n = if n = k then w else s.sreg g n := by
  unfold State.sreg State.setSreg
  rw [State.grp_setGrp_self]
  unfold Group.sreg Group.setSreg
  dsimp only
  rw [Tbl.find_put]; split <;> rfl

theorem State.near_setSreg (s : State) (g n : Nat) (w : Word) : s.Near (s.setSreg g n w) g :=
  State.near_setGrp _ _ _ rfl

theorem State.vreg_setSreg (s : State) (g k n : Nat) (w : Word) : (s.setSreg g k w).vreg g n = s.vreg g n := by
  refine State.vreg_congr n rfl (State.near_setSreg s g k w).kept ?_ rfl
  unfold State.setSreg; rw [State.grp_setGrp_self]; rfl

theorem State.writeSs_spec (s : State) (g : Nat) (k : Nat) (w : Nat → Word) (m : Nat) :
    (∀ n, (s.writeSs g k w m).sreg g n = if k ≤ n ∧ n < k + m then w (n - k) else s.sreg g n) ∧
    (∀ n, (s.writeSs g k w m).vreg g n = s.vreg g n) ∧
    ((s.writeSs g k w m).grp g).bare = (s.grp g).bare ∧ s.Near (s.writeSs g k w m) g := by
  induction m with
  | zero => exact ⟨fun n => by rw [if_neg (by omega)]; rfl, fun _ => rfl, rfl, State.Near.refl s g⟩
  | succ m ih =>
    obtain ⟨h1, h2, h3, h4⟩ := ih
    rw [State.writeSs_succ]
    refine ⟨fun n => ?_, fun n => ?_, ?_, h4.trans (State.near_setSreg _ _ _ _)⟩
    · rw [State.sreg_setSreg]
      by_cases hn : n = k + m
      · subst hn
        rw [if_pos rfl, if_pos (by omega), Nat.add_sub_cancel_left]
      · rw [if_neg hn, h1]
        by_cases hr : k ≤ n ∧ n < k + m
        · rw [if_pos hr, if_pos (by omega)]
        · rw [if_neg hr, if_neg (by omega)]
    · rw [State.vreg_setSreg, h2]
    · unfold State.setSreg; rw [State.grp_setGrp_self]; exact h3

theorem State.writeDst_eq (s : State) (g : Nat) (act : Dword) (d : Dst) (nw : Bool) (t : Tag) (res : List Lanes) :
    s.writeDst g act d nw t res = if nw = true then s else match d with
      | .v n => s.writeVs g act t n.toNat res res.length
      | .s n => if act = 0 then s else s.writeSs g n.toNat (fun i => (res.getD i []).at (lowestLane act)) res.length := by
  unfold State.writeDst
  cases nw
  · cases d
    · rfl
    · by_cases h : act = 0
      · simp [h]
      · simp only [Bool.false_eq_true, if_false, h, beq_iff_eq]; rfl
  · rfl

/-! ### Reading operands -/

/-- Popping changes nothing of a group but its windows and where their heads stand. -/
theorem Group.popAll_frame (qs : List Nat) :
    ∀ g : Group, (g.popAll qs) = { g with queues := (g.popAll qs).queues, heads := (g.popAll qs).heads } := by
  induction qs with
  | nil => intro g; rfl
  | cons q t ih => intro g; exact ih _

theorem Group.queue_popAll (qs : List Nat) : ∀ (g : Group) (q : Nat), qs.Nodup →
    (g.popAll qs).queue q = if qs.contains q then (g.queue q).tail else g.queue q := by
  induction qs with
  | nil => intro g q _; rfl
  | cons a t ih =>
    intro g q hn
    rw [List.nodup_cons] at hn
    have e : (g.popAll (a :: t)) = Group.popAll (g.takeFrom a 1 (g.queue a).tail) t := rfl
    rw [e, ih _ _ hn.2]
    have hq : Group.queue (g.takeFrom a 1 (g.queue a).tail) q = if q = a then (g.queue a).tail else g.queue q := by
      unfold Group.queue Group.takeFrom
      dsimp only
      rw [Tbl.find_put]; split <;> rfl
    rw [hq, List.contains_cons]
    by_cases hqa : q = a
    · subst hqa
      have : t.contains q = false := by simpa using hn.1
      simp [hn.1]
    · simp [hqa]

theorem nodup_eraseDups {α : Type} [BEq α] [LawfulBEq α] (n : Nat) : ∀ l : List α, l.length ≤ n → l.eraseDups.Nodup := by
  induction n with
  | zero =>
    intro l h
    cases l with
    | nil => simp
    | cons a t => simp at h
  | succ n ih =>
    intro l h
    cases l with
    | nil => simp
    | cons a t =>
      rw [List.eraseDups_cons, List.nodup_cons]
      refine ⟨by rw [List.mem_eraseDups]; simp, ih _ ?_⟩
      have := List.length_filter_le (fun b => !b == a) t
      simp at h
      omega

theorem queuesNamed_nodup (srcs : List Src) : (queuesNamed srcs).Nodup := by
  unfold queuesNamed
  exact nodup_eraseDups _ _ (Nat.le_refl _)

/-- The clause with the timebase captured (R20). -/
theorem State.afterReads_spec (s : State) (g : Nat) (srcs : List Src) (hg : (Tbl.find s.groups g).isSome = true) :
    ∃ k, s.afterReads g srcs = s.setGrp g { (s.grp g).popAll (queuesNamed srcs) with clause := k } ∧
      (((s.grp g).clause = none ∧ k = none) ∨ ∃ c c', (s.grp g).clause = some c ∧ k = some c' ∧ c'.hdr = c.hdr ∧
        c'.head = c.head ∧ c'.idx = c.idx ∧ c'.latches = c.latches) := by
  have hc : ((s.grp g).popAll (queuesNamed srcs)).clause = (s.grp g).clause := by rw [Group.popAll_frame]
  unfold State.afterReads
  rw [State.modGrp_of_some _ _ _ hg]
  dsimp only
  by_cases h : srcs.contains (.sp .clocklo) = true
  · rw [if_pos h]
    refine ⟨_, rfl, ?_⟩
    rw [hc]
    cases hk : (s.grp g).clause with
    | none => exact .inl ⟨rfl, rfl⟩
    | some c => exact .inr ⟨c, _, rfl, rfl, rfl, rfl, rfl, rfl⟩
  · rw [if_neg h]
    refine ⟨(s.grp g).clause, ?_, ?_⟩
    · congr 1
      rw [← hc]
    · cases hk : (s.grp g).clause with
      | none => exact .inl ⟨rfl, rfl⟩
      | some c => exact .inr ⟨c, c, rfl, rfl, rfl, rfl, rfl, rfl⟩

/-! ### A group that is there stays there -/

theorem State.has_setGrp (s : State) (g : Nat) (x : Group) : (Tbl.find (s.setGrp g x).groups g).isSome = true := by
  unfold State.setGrp; simp

theorem State.has_setVreg (s : State) (g n : Nat) (v : VReg) (h : (Tbl.find s.groups g).isSome = true) :
    (Tbl.find (s.setVreg g n v).groups g).isSome = true := by
  by_cases hn : n < 64
  · rw [State.setVreg_low s g v hn]; exact State.has_setGrp _ _ _
  · rw [State.setVreg_high s g v hn]; exact h

theorem State.has_writeDst (s : State) (g : Nat) (act : Dword) (d : Dst) (nw : Bool) (t : Tag) (res : List Lanes)
    (h : (Tbl.find s.groups g).isSome = true) : (Tbl.find (s.writeDst g act d nw t res).groups g).isSome = true := by
  have hv : ∀ n m, (Tbl.find (s.writeVs g act t n res m).groups g).isSome = true := by
    intro n m
    induction m with
    | zero => exact h
    | succ m ih => rw [State.writeVs_succ]; exact State.has_setVreg _ _ _ _ ih
  have hs : ∀ n w m, (Tbl.find (s.writeSs g n w m).groups g).isSome = true := by
    intro n w m
    induction m with
    | zero => exact h
    | succ m ih => rw [State.writeSs_succ]; exact State.has_setGrp _ _ _
  rw [State.writeDst_eq]
  split
  · exact h
  · cases d
    · exact hv _ _
    · dsimp only; split
      · exact h
      · exact hs _ _ _

theorem State.writeDst_spec (s : State) (g : Nat) (act : Dword) (d : Dst) (nw : Bool) (t : Tag) (res : List Lanes) :
    (∀ n, (s.writeDst g act d nw t res).vreg g n =
      match d with
      | .v k => if nw = false ∧ k.toNat ≤ n ∧ n < k.toNat + res.length then
          { lanes := Lanes.merge act (s.vreg g n).lanes (res.getD (n - k.toNat) []), tag := t } else s.vreg g n
      | .s _ => s.vreg g n) ∧
    (∀ n, (s.writeDst g act d nw t res).sreg g n =
      match d with
      | .v _ => s.sreg g n
      | .s k => if nw = false ∧ act ≠ 0 ∧ k.toNat ≤ n ∧ n < k.toNat + res.length then
          (res.getD (n - k.toNat) []).at (lowestLane act) else s.sreg g n) ∧
    ((s.writeDst g act d nw t res).grp g).bare = (s.grp g).bare ∧ s.Near (s.writeDst g act d nw t res) g := by
  rw [State.writeDst_eq]
  cases nw
  · cases d with
    | v k =>
      have h := State.writeVs_spec s g act t k.toNat res res.length
      simp only [Bool.false_eq_true, if_false, true_and]
      exact ⟨h.1, h.2.1, h.2.2.1, h.2.2.2⟩
    | s k =>
      by_cases ha : act = 0
      · subst ha
        simp [State.Near.refl]
      · have h := State.writeSs_spec s g k.toNat (fun i => (res.getD i []).at (lowestLane act)) res.length
        simp only [Bool.false_eq_true, if_false, true_and, ha, ne_eq, not_false_eq_true]
        exact ⟨h.2.1, h.1, h.2.2.1, h.2.2.2⟩
  · cases d <;> simp [State.Near.refl]

/-! ### An ALU instruction is done -/

/-- Everything the end of an ALU instruction leaves, register by register and lane by lane. -/
theorem State.aluDone_wrote (s : State) (g : Nat) (srcs : List Src) (act : Dword) (d : Dst) (nw : Bool) (t : Tag)
    (res : List Lanes) (hg : (Tbl.find s.groups g).isSome = true) :
    s.Wrote (s.aluDone g srcs act d nw t res) g act d res.length nw (fun _ => t) (fun i L => (res.getD i []).at L) srcs := by
  obtain ⟨k, hr, hk⟩ := State.afterReads_spec s g srcs hg
  have hpop := Group.popAll_frame (queuesNamed srcs) (s.grp g)
  have hqueue := fun q => Group.queue_popAll (queuesNamed srcs) (s.grp g) q (queuesNamed_nodup srcs)
  generalize hx : (s.grp g).popAll (queuesNamed srcs) = x at hr hpop hqueue
  -- after the operands are read
  have h1k : Group.kept { x with clause := k } = (s.grp g).kept := by rw [hpop]; rfl
  have n1 : s.Near (s.setGrp g { x with clause := k }) g := State.near_setGrp _ _ _ h1k
  have v1 : ∀ n, (s.setGrp g { x with clause := k }).vreg g n = s.vreg g n := fun n =>
    State.vreg_congr n rfl n1.kept (by rw [State.grp_setGrp_self, hpop]) rfl
  have s1 : ∀ n, (s.setGrp g { x with clause := k }).sreg g n = s.sreg g n := fun n => by
    unfold State.sreg; rw [State.grp_setGrp_self, hpop]; rfl
  -- after the destination is written
  have w := State.writeDst_spec (s.setGrp g { x with clause := k }) g act d nw t res
  have hw := State.has_writeDst (s.setGrp g { x with clause := k }) g act d nw t res (State.has_setGrp _ _ _)
  have heq : s.aluDone g srcs act d nw t res =
      ((((s.setGrp g { x with clause := k }).writeDst g act d nw t res).modGrp g fun y =>
        y.shiftLatch (s.latchOf g act d res)).modGrp g Group.advance) := by
    unfold State.aluDone State.advance
    rw [hr]
  generalize hu : (s.setGrp g { x with clause := k }).writeDst g act d nw t res = u at w hw heq
  obtain ⟨wv, ws, wb, wn⟩ := w
  rw [heq, State.modGrp_of_some _ _ _ hw, State.modGrp_of_some _ _ _ (State.has_setGrp _ _ _), State.grp_setGrp_self]
  rw [State.grp_setGrp_self] at wb
  have hub : ∀ y : Group, y.bare = Group.bare { x with clause := k } →
      y.pcs = (s.grp g).pcs ∧ y.mrs = (s.grp g).mrs ∧ y.cur = (s.grp g).cur ∧ y.pend = (s.grp g).pend ∧
      y.clause = k ∧ y.queues = x.queues := by
    intro y hy
    have e : ∀ {α : Type} (f : Group → α), f y.bare = f (Group.bare { x with clause := k }) := fun f => by rw [hy]
    refine ⟨?_, ?_, ?_, ?_, e Group.clause, e Group.queues⟩
    · exact (e Group.pcs).trans (by show x.pcs = _; rw [hpop])
    · exact (e Group.mrs).trans (by show x.mrs = _; rw [hpop])
    · exact (e Group.cur).trans (by show x.cur = _; rw [hpop])
    · exact (e Group.pend).trans (by show x.pend = _; rw [hpop])
  obtain ⟨f1, f2, f3, f4, f5, f6⟩ := hub _ wb
  generalize hz : (u.grp g).shiftLatch (s.latchOf g act d res) = z
  have hzs : z.advance.still = Group.still { u.grp g with clause := none } := by
    rw [Group.still_advance, ← hz]; rfl
  have hzk : z.advance.kept = (u.grp g).kept := by unfold Group.kept; rw [hzs]; rfl
  have nz : u.Near ((u.setGrp g z).setGrp g z.advance) g := by
    refine (State.near_setGrp u g z (by rw [← hz]; rfl)).trans (State.near_setGrp _ g _ ?_)
    rw [State.grp_setGrp_self, Group.kept_of_still (Group.still_advance z)]
  have nall := (n1.trans wn).trans nz
  have vz : ∀ n, ((u.setGrp g z).setGrp g z.advance).vreg g n = u.vreg g n := fun n =>
    State.vreg_congr n rfl nz.kept (by
      rw [State.grp_setGrp_self]
      show z.advance.still.vregs = _
      rw [hzs]; rfl) rfl
  have sz : ∀ n, ((u.setGrp g z).setGrp g z.advance).sreg g n = u.sreg g n := fun n => by
    unfold State.sreg Group.sreg
    rw [State.grp_setGrp_self]
    have : z.advance.sregs = (u.grp g).sregs := by
      show z.advance.still.sregs = _
      rw [hzs]; rfl
    rw [this]
  have hwent : (s.grp g).WentOn z.advance := by
    refine Group.wentOn_advance _ _ (by rw [← hz]; exact f1) (by rw [← hz]; exact f2) (by rw [← hz]; exact f3)
      (by rw [← hz]; exact f4) ?_
    rcases hk with ⟨h, h'⟩ | ⟨c, c', h, h', h3, h4, h5, _⟩
    · refine .inl ⟨h, ?_⟩
      rw [← hz]
      show Option.map _ _ = none
      rw [f5, h']; rfl
    · refine .inr ⟨c, { c' with latches := (s.latchOf g act d res :: c'.latches).take 4 }, h, ?_, h3, h4, h5⟩
      rw [← hz]
      show Option.map _ _ = some _
      rw [f5, h']; rfl
  refine ⟨?_, ?_, ?_, ?_, ?_, ?_, ?_, ?_, ?_, ?_⟩
  · intro n i hd hi hn L hL
    subst hd hn
    rw [vz, wv]
    simp only [true_and]
    rw [if_pos ⟨Nat.le_add_right _ _, by omega⟩, Nat.add_sub_cancel_left]
    dsimp only
    rw [Lanes.at_merge _ _ _ hL, v1]
  · intro n i hd hi hn
    subst hd hn
    rw [vz, wv]
    simp only [true_and]
    rw [if_pos ⟨Nat.le_add_right _ _, by omega⟩]
  · intro n i hd hi hn ha
    subst hd hn
    rw [sz, ws]
    simp only [true_and]
    rw [if_pos ⟨ha, Nat.le_add_right _ _, by omega⟩, Nat.add_sub_cancel_left]
  · intro n hn
    rw [vz, wv]
    cases d with
    | s k => exact v1 n
    | v k =>
      dsimp only
      rw [if_neg, v1]
      rintro ⟨h1, h2, h3⟩
      rcases hn with hn | hn
      · rw [hn] at h1; cases h1
      · simp only [dstNamesV, h2, h3, decide_true, Bool.and_self] at hn; cases hn
  · intro n hn
    rw [sz, ws]
    cases d with
    | v k => exact s1 n
    | s k =>
      dsimp only
      rw [if_neg, s1]
      rintro ⟨h1, ha, h2, h3⟩
      rcases hn with hn | hn | hn
      · rw [hn] at h1; cases h1
      · exact ha hn
      · simp only [dstNamesS, h2, h3, decide_true, Bool.and_self] at hn; cases hn
  · intro c hc hl
    rcases hk with ⟨h, _⟩ | ⟨c0, c', h, h', h3, h4, h5, h6⟩
    · rw [h] at hc; cases hc
    · rw [h] at hc; cases hc
      have hzc : z.clause = some { c' with latches := (s.latchOf g act d res :: c'.latches).take 4 } := by
        rw [← hz]
        show Option.map _ _ = some _
        rw [f5, h']; rfl
      have hzl : z.atLast = false := by
        have e1 : z.clause!.idx = c.idx := by unfold Group.clause!; rw [hzc]; exact h5
        have e2 : z.clause!.head = c.head := by unfold Group.clause!; rw [hzc]; exact h4
        have e3 : (s.grp g).clause! = c := by unfold Group.clause!; rw [h]; rfl
        unfold Group.atLast at hl ⊢
        rw [e1, e2, ← e3]; exact hl
      refine ⟨{ c' with latches := (s.latchOf g act d res :: c'.latches).take 4, idx := c'.idx + 1 }, s.latchOf g act d res,
        ?_, by rw [h6], fun L hL => ?_⟩
      · rw [State.grp_setGrp_self]
        unfold Group.advance
        rw [if_neg (by rw [hzl]; simp)]
        simp [Group.clause!, hzc]
      · unfold State.latchOf
        cases d with
        | v n => dsimp only; rw [Lanes.at_merge _ _ _ hL]
        | s n =>
          dsimp only
          rw [Lanes.at_splat _ hL]
          by_cases ha : act = 0
          · simp [ha]
          · rw [if_neg ha, if_neg (by simpa using ha)]
  · intro q
    rw [State.grp_setGrp_self]
    have : z.advance.queues = x.queues := by
      show z.advance.still.queues = _
      rw [hzs]
      exact f6
    have e : z.advance.queue q = x.queue q := by unfold Group.queue; rw [this]
    rw [e, hqueue]
  · exact nall.kept
  · rw [State.grp_setGrp_self]; exact hwent
  · exact nall.only

/-- What a result is said to be matters only in the lanes and registers there are. -/
theorem State.Wrote.congr {s t : State} {g : Nat} {act : Dword} {d : Dst} {dn : Nat} {nw : Bool} {tag tag' : Nat → Tag}
    {val val' : Nat → Nat → Word} {srcs : List Src} (h : s.Wrote t g act d dn nw tag val srcs) (h0 : 0 < dn)
    (ht : ∀ i, i < dn → tag' i = tag i)
    (hv : ∀ i L, i < dn → L < 64 → inMask act L = true → ((∃ n, d = .v n) ∨ L = lowestLane act) → val' i L = val i L) :
    s.Wrote t g act d dn nw tag' val' srcs := by
  refine ⟨fun n i hd hi hn L hL => ?_, fun n i hd hi hn => ?_, fun n i hd hi hn ha => ?_, h.vregs, h.sregs,
    fun c hc hl => ?_, h.windows, h.kept, h.went, h.only⟩
  · rw [h.lanes n i hd hi hn L hL]
    by_cases ha : inMask act L = true
    · rw [if_pos ha, if_pos ha, hv i L hi hL ha (.inl ⟨n, hd⟩)]
    · rw [if_neg ha, if_neg ha]
  · rw [h.tag n i hd hi hn, ht i hi]
  · rw [h.scalar n i hd hi hn ha, hv i _ hi (lowestLane_lt ha) (inMask_lowestLane ha) (.inr rfl)]
  · obtain ⟨k, y, h1, h2, h3⟩ := h.latch c hc hl
    refine ⟨k, y, h1, h2, fun L hL => ?_⟩
    rw [h3 L hL]
    cases d with
    | v n =>
      dsimp only
      by_cases ha : inMask act L = true
      · rw [if_pos ha, if_pos ha, hv 0 L h0 hL ha (.inl ⟨n, rfl⟩)]
      · rw [if_neg ha, if_neg ha]
    | s n =>
      dsimp only
      by_cases ha : act = 0
      · rw [if_pos ha, if_pos ha]
      · rw [if_neg ha, if_neg ha, hv 0 _ h0 (lowestLane_lt ha) (inMask_lowestLane ha) (.inr rfl)]

/-! ### Operand checks -/

theorem Need.ok_iff (l : Limits) (n : Need) : Need.ok l n = true ↔
    n.illegal l = false ∧ n.extension l = false ∧ n.range l = false ∧ n.latch l = false := by
  cases n with
  | v n =>
    cases hl : l.lock
    · simp [Need.ok, Need.illegal, Need.extension, Need.range, Need.latch, hl]; omega
    · simp [Need.ok, Need.illegal, Need.extension, Need.range, Need.latch, hl]; omega
  | s n => simp [Need.ok, Need.illegal, Need.extension, Need.range, Need.latch]
  | y k => simp [Need.ok, Need.illegal, Need.extension, Need.range, Need.latch]
  | q n => simp [Need.ok, Need.illegal, Need.extension, Need.range, Need.latch]

/-- Operand checks pass exactly when everything named is there (R59). -/
theorem operandFault_none_iff (l : Limits) (ns : List Need) : operandFault l ns = none ↔ ns.all (Need.ok l) = true := by
  have h : ∀ p : Need → Bool, ns.any p = true ∨ ns.any p = false := fun p => by cases ns.any p <;> simp
  unfold operandFault
  rw [List.all_eq_true]
  simp only [Need.ok_iff]
  constructor
  · intro hf n hn
    split at hf
    · cases hf
    · split at hf
      · cases hf
      · split at hf
        · cases hf
        · split at hf
          · cases hf
          · rename_i h1 h2 h3 h4
            simp only [List.any_eq_true, not_exists, not_and, Bool.not_eq_true] at h1 h2 h3 h4
            exact ⟨h1 n hn, h2 n hn, h3 n hn, h4 n hn⟩
  · intro hf
    have k : ∀ p : Need → Bool, (∀ n ∈ ns, p n = false) → ns.any p = false := fun p hp => by
      rw [List.any_eq_false]; exact fun n hn => by rw [hp n hn]; simp
    rw [k _ fun n hn => (hf n hn).1, k _ fun n hn => (hf n hn).2.1, k _ fun n hn => (hf n hn).2.2.1,
      k _ fun n hn => (hf n hn).2.2.2]
    rfl

theorem State.checkNeeds_ok {s : State} {g : Nat} {ns : List Need} (h : s.needsOk g ns = true) :
    s.checkNeeds g ns = .ok () := by
  unfold State.checkNeeds
  rw [(operandFault_none_iff _ _).2 h]

/-- An instruction whose operands are in order passes its operand checks. -/
theorem State.checkOperands_ok {s : State} {g : Nat} {msel : BitVec 3} {dst : List Need} {os : List Opnd}
    (h : s.operandsOk g msel dst os = true) : s.checkOperands g msel dst os = .ok () := by
  unfold State.operandsOk at h
  simp only [Bool.and_eq_true] at h
  have e2 : s.checkTags g os = .ok () := by unfold State.checkTags; rw [if_pos h.1.2]
  have e3 : s.checkQueues g (os.map fun o => o.src) = .ok () := by unfold State.checkQueues; rw [if_pos h.2]
  unfold State.checkOperands
  rw [State.checkNeeds_ok h.1.1, e2, e3]
  rfl

theorem laneRun_ok {s t : State} {g : Nat} {f : Nat → R State} (hs : s.issuer = .lane g) (h : f g = .ok t) :
    laneRun s f = .next t := by
  unfold laneRun; rw [hs]; simp only [h]; rfl

theorem laneRun_error {s : State} {g : Nat} {f : Nat → R State} {e : Exn} (hs : s.issuer = .lane g) (h : f g = .error e) :
    laneRun s f = .next (s.endBy g e) := by
  unfold laneRun; rw [hs]; simp only [h]; rfl

theorem State.alu_ok {s : State} {g : Nat} {d : Dst} {dn : Nat} {nw : Bool} {msel : BitVec 3} {os : List Opnd}
    {f : Env → R (Tag × List Lanes)} {t : Tag} {res : List Lanes} (h : s.operandsOk g msel (dstNeeds d dn) os = true)
    (hf : f (s.env g msel os) = .ok (t, res)) :
    s.alu g d dn nw msel os f = .ok (s.aluDone g (os.map fun o => o.src) (s.active g msel) d nw t res) := by
  unfold State.alu
  rw [State.checkOperands_ok h]
  show (do let r ← f (s.env g msel os); pure _) = _
  rw [hf]; rfl

/-- An ALU instruction computes what its function says, whenever its operands are in order. -/
theorem computes_alu {i : Instr} {d : Dst} {dn : Nat} {nw : Bool} {msel : BitVec 3} {os : List Opnd}
    {tag : State → Nat → Nat → Tag} {val : State → Nat → Nat → Nat → Word} (f : State → Nat → Env → R (Tag × List Lanes))
    (h0 : 0 < dn) (hi : ∀ s, exec i s = laneRun s fun g => s.alu g d dn nw msel os (f s g))
    (hf : ∀ s g, ∃ t res, f s g (s.env g msel os) = .ok (t, res) ∧ res.length = dn ∧ (∀ i, i < dn → tag s g i = t) ∧
      ∀ i L, i < dn → L < 64 → inMask (s.active g msel) L = true → ((∃ n, d = .v n) ∨ L = lowestLane (s.active g msel)) →
        val s g i L = (res.getD i []).at L) : Computes i d dn nw msel os tag val := by
  intro s g hs ho
  obtain ⟨t, res, h1, h2, h3, h4⟩ := hf s g
  refine ⟨_, (hi s).trans (laneRun_ok hs.1 (State.alu_ok ho h1)), ?_⟩
  subst h2
  exact (State.aluDone_wrote s g _ _ d nw t res hs.2).congr h0 h3 h4

theorem Env.v_of (s : State) (g : Nat) (msel : BitVec 3) (os : List Opnd) (i L : Nat) :
    (s.env g msel os).v i L = ((s.values g os).getD i []).at L := rfl

theorem computes1 {i : Ops1 → Instr} {k : Kind} {tag : Tag} {f h : Word → Word}
    (hi : ∀ o s, exec (i o) s = laneRun s fun g => s.alu1 g o k tag h) (hf : ∀ a, f a = h a) : Computes1 i k tag f := by
  intro o
  refine computes_alu (fun s g => lanewise tag fun e L => h (e.v 0 L)) (by decide) (hi o) fun s g => ?_
  refine ⟨_, _, rfl, rfl, fun _ _ => rfl, fun j L hj hL _ _ => ?_⟩
  have : j = 0 := by omega
  subst this
  rw [List.getD_cons_zero, Lanes.at_make _ hL, hf]; rfl

theorem computes2 {i : Ops2 → Instr} {k : Kind} {tag : Tag} {f h : Word → Word → Word}
    (hi : ∀ o s, exec (i o) s = laneRun s fun g => s.alu2 g o k tag h) (hf : ∀ a b, f a b = h a b) : Computes2 i k tag f := by
  intro o
  refine computes_alu (fun s g => lanewise tag fun e L => h (e.v 0 L) (e.v 1 L)) (by decide) (hi o) fun s g => ?_
  refine ⟨_, _, rfl, rfl, fun _ _ => rfl, fun j L hj hL _ _ => ?_⟩
  have : j = 0 := by omega
  subst this
  rw [List.getD_cons_zero, Lanes.at_make _ hL, hf]; rfl

theorem computes3 {i : Ops3 → Instr} {k : Kind} {tag : Tag} {f h : Word → Word → Word → Word}
    (hi : ∀ o s, exec (i o) s = laneRun s fun g => s.alu3 g o k tag h) (hf : ∀ a b c, f a b c = h a b c) :
    Computes3 i k tag f := by
  intro o
  refine computes_alu (fun s g => lanewise tag fun e L => h (e.v 0 L) (e.v 1 L) (e.v 2 L)) (by decide) (hi o) fun s g => ?_
  refine ⟨_, _, rfl, rfl, fun _ _ => rfl, fun j L hj hL _ _ => ?_⟩
  have : j = 0 := by omega
  subst this
  rw [List.getD_cons_zero, Lanes.at_make _ hL, hf]; rfl

/-- A test of two sources holds as its function says (R90, R111). -/
theorem tests2 {i : Ops2 → Instr} {k : Kind} {p q : Word → Word → Bool}
    (hi : ∀ o s, exec (i o) s = laneRun s fun g => s.aluTest g o k q) (hf : ∀ a b, p a b = q a b) : Tests2 i k p := by
  have hpq : p = q := funext fun a => funext fun b => hf a b
  subst hpq
  intro o
  refine ⟨fun n hd => ?_, fun n hd => ?_⟩
  · refine computes_alu (fun s g => lanewise .b32 fun e L => if p (e.v 0 L) (e.v 1 L) then BitVec.allOnes 32 else 0)
      (by decide) (fun s => ?_) fun s g => ?_
    · rw [hi]; unfold State.aluTest; rw [hd]
    · refine ⟨_, _, rfl, rfl, fun _ _ => rfl, fun j L hj hL _ _ => ?_⟩
      have : j = 0 := by omega
      subst this
      rw [List.getD_cons_zero, Lanes.at_make _ hL]; rfl
  · refine computes_alu (fun s g => fun e => uniform2 .b32 (maskOf fun L => inMask e.act L && p (e.v 0 L) (e.v 1 L)))
      (by decide) (fun s => ?_) fun s g => ?_
    · rw [hi]; unfold State.aluTest; rw [hd]
    · refine ⟨_, _, rfl, rfl, fun _ _ => rfl, fun j L hj hL _ _ => ?_⟩
      have : j = 0 ∨ j = 1 := by omega
      rcases this with rfl | rfl
      · rw [List.getD_cons_zero, Lanes.at_splat _ hL]; rfl
      · rw [List.getD_cons_succ, List.getD_cons_zero, Lanes.at_splat _ hL]; rfl

end Sys2Proof.Machine
end

