-- ==== Sys2Proof/Laws/Bits.lean ====
section
/-!
SUPPORT. Words given bit by bit: the bits of `bitsOf`, and the bits of a sum of powers of two.
-/
namespace Sys2Proof.Machine

@[simp] theorem getLsbD_bitsOf (w : Nat) (f : Nat → Bool) (i : Nat) : (bitsOf w f).getLsbD i = (decide (i < w) && f i) := by
  induction w with
  | zero => simp [bitsOf]
  | succ w ih =>
    unfold bitsOf
    rw [BitVec.getLsbD_cons]
    by_cases h : i = w
    · subst h; simp
    · simp only [h, if_false, ih]
      have : (i < w) ↔ (i < w + 1) := by omega
      simp [this]

/-- A word is `bitsOf` of its bits. -/
theorem eq_bitsOf {w : Nat} {x : BitVec w} {f : Nat → Bool} (h : ∀ i, i < w → x.getLsbD i = f i) : x = bitsOf w f := by
  apply BitVec.eq_of_getLsbD_eq
  intro i hi
  rw [h i hi, getLsbD_bitsOf]; simp [hi]

/-- The number whose first `n` bits are `f`'s. -/
theorem sum_bits (f : Nat → Bool) (n : Nat) :
    ((List.range n).foldl (fun r i => r + (f i).toNat * 2 ^ i) 0) < 2 ^ n ∧
    ∀ i, ((List.range n).foldl (fun r i => r + (f i).toNat * 2 ^ i) 0).testBit i = (decide (i < n) && f i) := by
  induction n with
  | zero => simp
  | succ n ih =>
    rw [List.range_succ, List.foldl_append]
    simp only [List.foldl_cons, List.foldl_nil]
    generalize hx : ((List.range n).foldl (fun r i => r + (f i).toNat * 2 ^ i) 0) = x at ih
    obtain ⟨h1, h2⟩ := ih
    have h3 : (f n).toNat ≤ 1 := by cases f n <;> simp
    refine ⟨?_, fun i => ?_⟩
    · have : (f n).toNat * 2 ^ n ≤ 1 * 2 ^ n := Nat.mul_le_mul_right _ h3
      rw [Nat.pow_succ]; omega
    · have e : x + (f n).toNat * 2 ^ n = 2 ^ n * (f n).toNat + x := by rw [Nat.mul_comm]; omega
      rw [e, Nat.testBit_two_pow_mul_add _ h1]
      by_cases hi : i < n
      · simp [hi, h2, Nat.lt_succ_of_lt hi]
      · simp only [hi, if_false]
        by_cases he : i = n
        · subst he; cases f i <;> simp
        · have : ¬ i < n + 1 := by omega
          have hh : i - n = (i - n - 1) + 1 := by omega
          simp only [this, decide_false, Bool.false_and]
          rw [hh]; cases f n <;> simp [Nat.testBit_succ]

theorem getLsbD_ofNat_sum_bits (w : Nat) (f : Nat → Bool) (i : Nat) :
    (BitVec.ofNat w ((List.range w).foldl (fun r i => r + (f i).toNat * 2 ^ i) 0)).getLsbD i = (decide (i < w) && f i) := by
  rw [BitVec.getLsbD_ofNat, (sum_bits f w).2]
  cases decide (i < w) <;> simp

end Sys2Proof.Machine
end

