-- ==== Sys2Proof/Laws/Decode.lean ====
section
/-!
SUPPORT. Laws of the decoder: unpacking a packed word gives its fields back (R46 to R50), and each selector and enumerated
field decodes to what it encodes (R41, R51 to R54).
-/
namespace Sys2Proof

/-! ### Bit fields of a concatenation -/

theorem app_hi {v w a k : Nat} (x : BitVec v) (y : BitVec w) (h : w ≤ a) :
    (x ++ y).extractLsb' a k = x.extractLsb' (a - w) k := BitVec.extractLsb'_append_eq_of_le h
theorem app_lo {v w a k : Nat} (x : BitVec v) (y : BitVec w) (h : a + k ≤ w) :
    (x ++ y).extractLsb' a k = y.extractLsb' a k := BitVec.extractLsb'_append_eq_of_add_le h
theorem app_all {w : Nat} {x : BitVec w} : x.extractLsb' 0 w = x := BitVec.extractLsb'_eq_self

/-! ### Formats -/

theorem FmtA.unpack_pack (f : FmtA) : FmtA.unpack f.pack = f := by
  cases f
  simp only [FmtA.unpack, FmtA.pack, FmtA.mk.injEq]
  exact ⟨(app_hi _ _ (by decide)).trans <| (app_hi _ _ (by decide)).trans <| (app_hi _ _ (by decide)).trans <| (app_hi _ _ (by decide)).trans <| (app_hi _ _ (by decide)).trans <| (app_hi _ _ (by decide)).trans <| (app_hi _ _ (by decide)).trans <| (app_hi _ _ (by decide)).trans <| app_all,
    (app_hi _ _ (by decide)).trans <| (app_hi _ _ (by decide)).trans <| (app_hi _ _ (by decide)).trans <| (app_hi _ _ (by decide)).trans <| (app_hi _ _ (by decide)).trans <| (app_hi _ _ (by decide)).trans <| (app_hi _ _ (by decide)).trans <| (app_lo _ _ (by decide)).trans app_all,
    (app_hi _ _ (by decide)).trans <| (app_hi _ _ (by decide)).trans <| (app_hi _ _ (by decide)).trans <| (app_hi _ _ (by decide)).trans <| (app_hi _ _ (by decide)).trans <| (app_hi _ _ (by decide)).trans <| (app_lo _ _ (by decide)).trans app_all,
    (app_hi _ _ (by decide)).trans <| (app_hi _ _ (by decide)).trans <| (app_hi _ _ (by decide)).trans <| (app_hi _ _ (by decide)).trans <| (app_hi _ _ (by decide)).trans <| (app_lo _ _ (by decide)).trans app_all,
    (app_hi _ _ (by decide)).trans <| (app_hi _ _ (by decide)).trans <| (app_hi _ _ (by decide)).trans <| (app_hi _ _ (by decide)).trans <| (app_lo _ _ (by decide)).trans app_all,
    (app_hi _ _ (by decide)).trans <| (app_hi _ _ (by decide)).trans <| (app_hi _ _ (by decide)).trans <| (app_lo _ _ (by decide)).trans app_all,
    (app_hi _ _ (by decide)).trans <| (app_hi _ _ (by decide)).trans <| (app_lo _ _ (by decide)).trans app_all,
    (app_hi _ _ (by decide)).trans <| (app_lo _ _ (by decide)).trans app_all,
    (app_lo _ _ (by decide)).trans app_all⟩

theorem FmtI.unpack_pack (f : FmtI) : FmtI.unpack f.pack = f := by
  cases f
  simp only [FmtI.unpack, FmtI.pack, FmtI.mk.injEq]
  exact ⟨(app_hi _ _ (by decide)).trans <| (app_hi _ _ (by decide)).trans <| (app_hi _ _ (by decide)).trans <| (app_hi _ _ (by decide)).trans <| (app_hi _ _ (by decide)).trans <| app_all,
    (app_hi _ _ (by decide)).trans <| (app_hi _ _ (by decide)).trans <| (app_hi _ _ (by decide)).trans <| (app_hi _ _ (by decide)).trans <| (app_lo _ _ (by decide)).trans app_all,
    (app_hi _ _ (by decide)).trans <| (app_hi _ _ (by decide)).trans <| (app_hi _ _ (by decide)).trans <| (app_lo _ _ (by decide)).trans app_all,
    (app_hi _ _ (by decide)).trans <| (app_hi _ _ (by decide)).trans <| (app_lo _ _ (by decide)).trans app_all,
    (app_hi _ _ (by decide)).trans <| (app_lo _ _ (by decide)).trans app_all,
    (app_lo _ _ (by decide)).trans app_all⟩

theorem FmtJ.unpack_pack (f : FmtJ) : FmtJ.unpack f.pack = f := by
  cases f
  simp only [FmtJ.unpack, FmtJ.pack, FmtJ.mk.injEq]
  exact ⟨(app_hi _ _ (by decide)).trans <| (app_hi _ _ (by decide)).trans <| (app_hi _ _ (by decide)).trans <| (app_hi _ _ (by decide)).trans <| app_all,
    (app_hi _ _ (by decide)).trans <| (app_hi _ _ (by decide)).trans <| (app_hi _ _ (by decide)).trans <| (app_lo _ _ (by decide)).trans app_all,
    (app_hi _ _ (by decide)).trans <| (app_hi _ _ (by decide)).trans <| (app_lo _ _ (by decide)).trans app_all,
    (app_hi _ _ (by decide)).trans <| (app_lo _ _ (by decide)).trans app_all,
    (app_lo _ _ (by decide)).trans app_all⟩

theorem FmtM.unpack_pack (f : FmtM) : FmtM.unpack f.pack = f := by
  cases f
  simp only [FmtM.unpack, FmtM.pack, FmtM.mk.injEq]
  exact ⟨(app_hi _ _ (by decide)).trans <| (app_hi _ _ (by decide)).trans <| (app_hi _ _ (by decide)).trans <| (app_hi _ _ (by decide)).trans <| (app_hi _ _ (by decide)).trans <| (app_hi _ _ (by decide)).trans <| (app_hi _ _ (by decide)).trans <| (app_hi _ _ (by decide)).trans <| (app_hi _ _ (by decide)).trans <| (app_hi _ _ (by decide)).trans <| (app_hi _ _ (by decide)).trans <| (app_hi _ _ (by decide)).trans <| app_all,
    (app_hi _ _ (by decide)).trans <| (app_hi _ _ (by decide)).trans <| (app_hi _ _ (by decide)).trans <| (app_hi _ _ (by decide)).trans <| (app_hi _ _ (by decide)).trans <| (app_hi _ _ (by decide)).trans <| (app_hi _ _ (by decide)).trans <| (app_hi _ _ (by decide)).trans <| (app_hi _ _ (by decide)).trans <| (app_hi _ _ (by decide)).trans <| (app_hi _ _ (by decide)).trans <| (app_lo _ _ (by decide)).trans app_all,
    (app_hi _ _ (by decide)).trans <| (app_hi _ _ (by decide)).trans <| (app_hi _ _ (by decide)).trans <| (app_hi _ _ (by decide)).trans <| (app_hi _ _ (by decide)).trans <| (app_hi _ _ (by decide)).trans <| (app_hi _ _ (by decide)).trans <| (app_hi _ _ (by decide)).trans <| (app_hi _ _ (by decide)).trans <| (app_hi _ _ (by decide)).trans <| (app_lo _ _ (by decide)).trans app_all,
    (app_hi _ _ (by decide)).trans <| (app_hi _ _ (by decide)).trans <| (app_hi _ _ (by decide)).trans <| (app_hi _ _ (by decide)).trans <| (app_hi _ _ (by decide)).trans <| (app_hi _ _ (by decide)).trans <| (app_hi _ _ (by decide)).trans <| (app_hi _ _ (by decide)).trans <| (app_hi _ _ (by decide)).trans <| (app_lo _ _ (by decide)).trans app_all,
    (app_hi _ _ (by decide)).trans <| (app_hi _ _ (by decide)).trans <| (app_hi _ _ (by decide)).trans <| (app_hi _ _ (by decide)).trans <| (app_hi _ _ (by decide)).trans <| (app_hi _ _ (by decide)).trans <| (app_hi _ _ (by decide)).trans <| (app_hi _ _ (by decide)).trans <| (app_lo _ _ (by decide)).trans app_all,
    (app_hi _ _ (by decide)).trans <| (app_hi _ _ (by decide)).trans <| (app_hi _ _ (by decide)).trans <| (app_hi _ _ (by decide)).trans <| (app_hi _ _ (by decide)).trans <| (app_hi _ _ (by decide)).trans <| (app_hi _ _ (by decide)).trans <| (app_lo _ _ (by decide)).trans app_all,
    (app_hi _ _ (by decide)).trans <| (app_hi _ _ (by decide)).trans <| (app_hi _ _ (by decide)).trans <| (app_hi _ _ (by decide)).trans <| (app_hi _ _ (by decide)).trans <| (app_hi _ _ (by decide)).trans <| (app_lo _ _ (by decide)).trans app_all,
    (app_hi _ _ (by decide)).trans <| (app_hi _ _ (by decide)).trans <| (app_hi _ _ (by decide)).trans <| (app_hi _ _ (by decide)).trans <| (app_hi _ _ (by decide)).trans <| (app_lo _ _ (by decide)).trans app_all,
    (app_hi _ _ (by decide)).trans <| (app_hi _ _ (by decide)).trans <| (app_hi _ _ (by decide)).trans <| (app_hi _ _ (by decide)).trans <| (app_lo _ _ (by decide)).trans app_all,
    (app_hi _ _ (by decide)).trans <| (app_hi _ _ (by decide)).trans <| (app_hi _ _ (by decide)).trans <| (app_lo _ _ (by decide)).trans app_all,
    (app_hi _ _ (by decide)).trans <| (app_hi _ _ (by decide)).trans <| (app_lo _ _ (by decide)).trans app_all,
    (app_hi _ _ (by decide)).trans <| (app_lo _ _ (by decide)).trans app_all,
    (app_lo _ _ (by decide)).trans app_all⟩

/-! ### Selectors -/

theorem sel_space (p : BitVec 2) (n : BitVec 8) : (p ++ n : BitVec 10).extractLsb' 8 2 = p :=
  (app_hi _ _ (by decide)).trans app_all
theorem sel_number (p : BitVec 2) (n : BitVec 8) : (p ++ n : BitVec 10).extractLsb' 0 8 = n :=
  (app_lo _ _ (by decide)).trans app_all
theorem five_zero (n : BitVec 5) : ((0#5) ++ n : BitVec 10).extractLsb' 5 5 = 0 := (app_hi _ _ (by decide)).trans app_all
theorem five_number (n : BitVec 5) : ((0#5) ++ n : BitVec 10).extractLsb' 0 5 = n := (app_lo _ _ (by decide)).trans app_all
theorem five_space (n : BitVec 5) : ((0#5) ++ n : BitVec 10).extractLsb' 8 2 = 0 := by
  revert n; decide
theorem five_top (n : BitVec 5) : ((0#5) ++ n : BitVec 10).extractLsb' 5 3 = 0 := by
  revert n; decide

theorem decSrc_enc (x : Src) : decSrc (encSrc x) = .ok x := by
  cases x with
  | sp r => cases r <;> rfl
  | y k =>
    have h : k = 0 ∨ k = 1 ∨ k = 2 ∨ k = 3 := by revert k; decide
    rcases h with rfl | rfl | rfl | rfl <;> rfl
  | q n =>
    have h : n = 0 ∨ n = 1 ∨ n = 2 ∨ n = 3 ∨ n = 4 ∨ n = 5 ∨ n = 6 ∨ n = 7 := by revert n; decide
    rcases h with rfl | rfl | rfl | rfl | rfl | rfl | rfl | rfl <;> rfl
  | v n => rw [decSrc, encSrc, sel_space, sel_number]; rfl
  | s n => rw [decSrc, encSrc, sel_space, sel_number]; rfl
  | imm n => rw [decSrc, encSrc, sel_space, sel_number]; rfl
theorem decDst_enc (x : Dst) : decDst (encDst x) = .ok x := by
  cases x <;> (rw [decDst, encDst, sel_space, sel_number]; rfl)
theorem decS_enc (n : BitVec 8) : decS (encS n) = .ok n := by rw [decS, encS, sel_space, sel_number]; rfl
theorem decV_enc (n : BitVec 8) : decV (encV n) = .ok n := by rw [decV, encV, sel_space, sel_number]; rfl
theorem decSImm_enc (x : SImm) : decSImm (encSImm x) = .ok x := by
  cases x <;> (rw [decSImm, encSImm, sel_space, sel_number]; rfl)
theorem dec5_enc (n : BitVec 5) : dec5 (enc5 n) = .ok n := by rw [dec5, enc5, five_zero, five_number]; rfl
theorem decKSel_enc (x : KSel) : decKSel (encKSel x) = .ok x := by
  cases x with
  | k n => rw [decKSel, encKSel, five_space]; exact congrArg (Except.map KSel.k) (dec5_enc n)
  | imm b => rw [decKSel, encKSel, sel_space, sel_number]; rfl
/-- A lane form has scalars and immediates, a slice form x registers and immediates (R212). -/
theorem decRSel_enc (sh : Bool) (x : RSel) (h : (match x with | .s _ => !sh | .x _ => sh | .imm _ => true) = true) :
    decRSel sh (encRSel x) = .ok x := by
  cases x with
  | s n => simp at h; subst h; rw [decRSel, encRSel, sel_space, sel_number]; rfl
  | x n => simp at h; subst h; rw [decRSel, encRSel, five_space, five_top, five_number]; rfl
  | imm b => rw [decRSel, encRSel, sel_space, sel_number]; rfl

theorem decRSel_slice {x : RSel} (h : x.sliceOk = true) : decRSel true (encRSel x) = .ok x :=
  decRSel_enc true x (by cases x <;> first | rfl | cases h)
theorem recOk_sel {a : RSel} {tok msel} (h : recOk a tok msel = true) : decRSel a.isX (encRSel a) = .ok a :=
  decRSel_enc _ a (by cases a <;> rfl)
theorem recOk_slice {a : RSel} {tok msel} (h : recOk a tok msel = true) : (!a.isX || (tok == 0 && msel == 0)) = true := by
  cases a <;> first | rfl | exact h
/-- The operands of a copy are all of the lane form or all of the slice form (R212). -/
theorem copyOk_sel {a b c : RSel} {tok msel} (h : copyOk a b c tok msel = true) :
    decRSel a.isX (encRSel a) = .ok a ∧ decRSel a.isX (encRSel b) = .ok b ∧ decRSel a.isX (encRSel c) = .ok c ∧
      (!a.isX || (tok == 0 && msel == 0)) = true := by
  cases a <;> cases b <;> cases c <;> first | cases h |
    exact ⟨decRSel_enc _ _ rfl, decRSel_enc _ _ rfl, decRSel_enc _ _ rfl, by first | rfl | exact h⟩

/-! ### Enumerated fields -/

theorem nwBit_bb (b : Bool) : nwBit (bb b) = b := by cases b <;> rfl
theorem decTag_bits (x : Tag) : decTag x.bits = .ok x := by cases x <;> rfl
theorem decCmp_bits (x : Cmp) : decCmp x.bits = .ok x := by cases x <;> rfl
theorem decFCmp_bits (x : FCmp) : decFCmp x.bits = .ok x := by cases x <;> rfl
theorem decMaskOp_bits (x : MaskOp) : decMaskOp x.bits = .ok x := by cases x <;> rfl
theorem decRm_bits (x : Rm) : decRm x.bits = .ok x := by cases x <;> rfl
theorem decCvt_bits (x : CvtForm) : decCvt x.bits = .ok x := by cases x <;> rfl
theorem decHalf_bits (x : Half) : decHalf x.bits = .ok x := by cases x <;> rfl
theorem decSeg6_bits (x : Seg6) : decSeg6 x.bits = .ok x := by cases x <;> rfl
theorem decSeg4_bits (x : Seg4) : decSeg4 x.bits = .ok x := by cases x <;> rfl
theorem decRTy_bits (x : RTy) : decRTy x.bits = .ok x := by cases x <;> rfl
theorem decScanOp_bits (x : ScanOp) : decScanOp x.bits = .ok x := by cases x <;> rfl
theorem decMFmt_bits (x : MFmt) : decMFmt x.bits = .ok x := by cases x <;> rfl
theorem decOrd_bits (x : Ord) : decOrd x.bits = .ok x := by cases x <;> rfl
theorem decScope_bits (x : Scope) : decScope x.bits = .ok x := by cases x <;> rfl
theorem decMode_bits (x : Mode) : decMode x.bits = .ok x := by cases x <;> rfl
theorem decAtom_bits (x : AtomOp) : decAtom x.bits = .ok x := by cases x <;> rfl
theorem decPlace_bits (x : Place) : decPlace x.bits = .ok x := by cases x <;> rfl

/-! ### Operand groups -/

theorem bind_ok {α β : Type} {x : Except Reject α} {v : α} {k : α → Except Reject β} (h : x = .ok v) : (x >>= k) = k v := by
  subst h; rfl
theorem eq_zero {n : Nat} {x : BitVec n} (h : x = 0) : (x == 0) = true := by subst h; exact beq_self_eq_true _
theorem and_ok {a b : Bool} (h : a = true) (h' : b = true) : (a && b) = true := by subst h; exact h'
theorem need_ok {b : Bool} (h : b = true) : need b = .ok () := by subst h; rfl

theorem only_ok {op : BitVec 8} {dst a b c nw tok msel mod mask} (h : (mod &&& ~~~mask == 0) = true) :
    FmtA.only ⟨op, dst, a, b, c, nw, tok, msel, mod⟩ mask = .ok () := need_ok h

theorem m_ok {op : BitVec 8} {dst a b c nw tok msel mod lo n v} (h : mod.extractLsb' lo n = v) :
    FmtA.m ⟨op, dst, a, b, c, nw, tok, msel, mod⟩ lo n = v := h
theorem mb_ok {op : BitVec 8} {dst a b c nw tok msel mod i v} (h : mod.getLsbD i = v) :
    FmtA.mb ⟨op, dst, a, b, c, nw, tok, msel, mod⟩ i = v := h

theorem ops0_enc (o : Ops0) (op : BitVec 8) (tok mod) :
    FmtA.ops0 ⟨op, encDst o.d, 0, 0, 0, bb o.nw, tok, o.msel, mod⟩ = .ok o := by
  simp only [FmtA.ops0, decDst_enc, nwBit_bb]; rfl
theorem ops1_enc (o : Ops1) (op : BitVec 8) (tok mod) :
    FmtA.ops1 ⟨op, encDst o.d, encSrc o.a, 0, 0, bb o.nw, tok, o.msel, mod⟩ = .ok o := by
  simp only [FmtA.ops1, decDst_enc, decSrc_enc, nwBit_bb]; rfl
theorem ops2_enc (o : Ops2) (op : BitVec 8) (tok mod) :
    FmtA.ops2 ⟨op, encDst o.d, encSrc o.a, encSrc o.b, 0, bb o.nw, tok, o.msel, mod⟩ = .ok o := by
  simp only [FmtA.ops2, decDst_enc, decSrc_enc, nwBit_bb]; rfl
theorem ops3_enc (o : Ops3) (op : BitVec 8) (tok mod) :
    FmtA.ops3 ⟨op, encDst o.d, encSrc o.a, encSrc o.b, encSrc o.c, bb o.nw, tok, o.msel, mod⟩ = .ok o := by
  simp only [FmtA.ops3, decDst_enc, decSrc_enc, nwBit_bb]; rfl
theorem opsI_enc (o : OpsI) (op : BitVec 8) : FmtI.ops ⟨op, encDst o.d, encSrc o.a, o.imm, bb o.nw, o.msel⟩ = .ok o := by
  simp only [FmtI.ops, decDst_enc, decSrc_enc, nwBit_bb]; rfl
theorem memF_enc (f : MemF) (op : BitVec 8) (off evict grade) :
    FmtM.memF ⟨op, encSrc f.data, encSrc f.base, off, f.ord.bits, f.scope.bits, evict, grade, f.tok, f.fmt.bits, f.msel,
      bb f.nw, f.mode.bits⟩ = .ok f := by
  simp only [FmtM.memF, decSrc_enc, decOrd_bits, decScope_bits, decMFmt_bits, decMode_bits, nwBit_bb]; rfl
theorem data2_enc (x : Src) (op data base ord scope evict grade tok fmt msel nw mode) :
    FmtM.data2 ⟨op, data, base, encSrc x ++ (0#2), ord, scope, evict, grade, tok, fmt, msel, nw, mode⟩ = .ok x := by
  have h0 : (encSrc x ++ (0#2) : BitVec 12).extractLsb' 0 2 = 0 := (app_lo _ _ (by decide)).trans app_all
  have h1 : (encSrc x ++ (0#2) : BitVec 12).extractLsb' 2 10 = encSrc x := (app_hi _ _ (by decide)).trans app_all
  rw [FmtM.data2, h0, h1, decSrc_enc]; rfl
theorem bar_enc (b : BitVec 5) (op data base ord scope evict grade tok fmt msel nw mode) :
    FmtM.bar ⟨op, data, base, encBar b, ord, scope, evict, grade, tok, fmt, msel, nw, mode⟩ = .ok b := by
  have h0 : ((0#7) ++ b : BitVec 12).extractLsb' 5 7 = 0 := (app_hi _ _ (by decide)).trans app_all
  have h1 : ((0#7) ++ b : BitVec 12).extractLsb' 0 5 = b := (app_lo _ _ (by decide)).trans app_all
  rw [FmtM.bar, encBar, h0, h1]; rfl

/-! ### Format A words of class ALU -/

/-- `movi` and `lea` apart, an ALU word is read in format A (R56). -/
theorem decAlu_pack {op : BitVec 8} {dst a b c nw tok msel mod} (h : op ≠ 0x1E) (h' : op ≠ 0x25) :
    decAlu (FmtA.pack ⟨op, dst, a, b, c, nw, tok, msel, mod⟩) = decAluA ⟨op, dst, a, b, c, nw, tok, msel, mod⟩ := by
  have e : (FmtA.pack ⟨op, dst, a, b, c, nw, tok, msel, mod⟩).extractLsb' 56 8 = op := congrArg FmtA.op (FmtA.unpack_pack _)
  rw [decAlu, e, if_neg h, if_neg h', FmtA.unpack_pack]

/-- A word whose fields decode to a well-formed instruction decodes to it. -/
theorem decodeWord_of_raw {c : Cls} {sh : Bool} {w : Dword} {i : Instr} (h : decRaw c sh w = .ok i) (hw : i.wf = true) :
    decodeWord c sh w = .ok i := by
  rw [decodeWord, h]
  show (if i.wf then _ else _) = _
  rw [if_pos hw]; rfl

end Sys2Proof
end

