-- ==== Sys2Proof/Laws/Lane.lean ====
section
/-!
SUPPORT. How a lane instruction ends, once for all of them: it goes on with its group changed, it branches, it holds, or it
takes a fault (R35, R61 to R65, R71, R337, R342, R343).
-/
namespace Sys2Proof.Machine

/-! ### Going on -/

/-- The clause of a group after an update that keeps its place: its header, first word and index stand. -/
def SamePlace (x y : Option Clause) : Prop :=
  (x = none ∧ y = none) ∨ ∃ c k, x = some c ∧ y = some k ∧ k.hdr = c.hdr ∧ k.head = c.head ∧ k.idx = c.idx

theorem SamePlace.refl (x : Option Clause) : SamePlace x x := by
  cases x with
  | none => exact .inl ⟨rfl, rfl⟩
  | some c => exact .inr ⟨c, c, rfl, rfl, rfl, rfl, rfl⟩

theorem State.has_modGrp (s : State) (g : Nat) (f : Group → Group) (h : (Tbl.find s.groups g).isSome = true) :
    (Tbl.find (s.modGrp g f).groups g).isSome = true := by
  rw [State.modGrp_of_some _ _ _ h]; exact State.has_setGrp _ _ _

/-- A group set to `y`, with nothing else changed. -/
theorem State.sameElsewhere_setGrp (s : State) (g : Nat) (y : Group) : s.SameElsewhere (s.setGrp g y) g :=
  ⟨fun _ => rfl, fun _ _ => rfl, fun i hi => by rw [State.grp_setGrp, if_neg hi]⟩

/-- Setting a group twice. -/
theorem Tbl.put_put {α : Type} (t : Tbl α) (k : Nat) (v w : α) : Tbl.put (Tbl.put t k v) k w = Tbl.put t k w := by
  induction t with
  | nil => simp [Tbl.put]
  | cons x t ih =>
    obtain ⟨j, u⟩ := x
    by_cases h1 : k < j
    · simp [Tbl.put, h1]
    · by_cases h2 : k = j
      · simp [Tbl.put, h2]
      · simp [Tbl.put, h1, h2, ih]

theorem State.setGrp_setGrp (s : State) (g : Nat) (x y : Group) : (s.setGrp g x).setGrp g y = s.setGrp g y := by
  unfold State.setGrp; rw [Tbl.put_put]

/-- The instruction is done: its group is as `x` says, and goes on (R35). -/
theorem State.did_setGrp (s : State) (g : Nat) (x : Group) (hp : x.pcs = (s.grp g).pcs) (hm : x.mrs = (s.grp g).mrs)
    (hc : x.cur = (s.grp g).cur) (hd : x.pend = (s.grp g).pend) (hk : SamePlace (s.grp g).clause x.clause) :
    s.Did ((s.setGrp g x).advance g) g x := by
  unfold State.advance
  rw [State.modGrp_of_some _ _ _ (State.has_setGrp _ _ _), State.setGrp_setGrp, State.grp_setGrp_self]
  exact ⟨State.sameElsewhere_setGrp _ _ _, rfl, rfl, by rw [State.grp_setGrp_self, Group.still_advance],
    by rw [State.grp_setGrp_self]; exact Group.wentOn_advance _ _ hp hm hc hd hk⟩

/-- The instruction is done, its group changed by `f`, which moves no thread. -/
theorem State.did_modGrp (s : State) (g : Nat) (f : Group → Group) (h : (Tbl.find s.groups g).isSome = true)
    (hp : (f (s.grp g)).pcs = (s.grp g).pcs) (hm : (f (s.grp g)).mrs = (s.grp g).mrs)
    (hc : (f (s.grp g)).cur = (s.grp g).cur) (hd : (f (s.grp g)).pend = (s.grp g).pend)
    (hk : SamePlace (s.grp g).clause (f (s.grp g)).clause) : s.Did ((s.modGrp g f).advance g) g (f (s.grp g)) := by
  rw [State.modGrp_of_some _ _ _ h]; exact State.did_setGrp s g _ hp hm hc hd hk

/-- The instruction is done and has no effect. -/
theorem State.did_advance (s : State) (g : Nat) (h : (Tbl.find s.groups g).isSome = true) :
    s.Did (s.advance g) g (s.grp g) := by
  unfold State.advance
  rw [State.modGrp_of_some _ _ _ h]
  exact ⟨State.sameElsewhere_setGrp _ _ _, rfl, rfl, by rw [State.grp_setGrp_self, Group.still_advance],
    by rw [State.grp_setGrp_self]; exact Group.wentOn_advance_self _⟩

/-- With no lane active an instruction that only checks its operands passes by. -/
theorem passesBy {i : Instr} {msel : BitVec 3} {ns : List Need} (f : State → Nat → R State)
    (hi : ∀ s, exec i s = laneRun s fun g => do
      s.checkNeeds g (ns ++ mselNeeds msel)
      if s.active g msel == 0 then pure (s.advance g) else f s g) : PassesBy i msel ns := by
  intro s g hs hn ha
  refine ⟨_, (hi s).trans (laneRun_ok hs.1 (t := s.advance g) ?_), State.did_advance s g hs.2⟩
  rw [State.checkNeeds_ok hn, ha]; rfl

/-! ### Registers and windows -/

/-- A group that keeps its registers, windows, block and slot reads as before while its pair's extension set stands. -/
theorem State.sameRegs_of {s t : State} {g : Nat} (hv : (t.grp g).vregs = (s.grp g).vregs)
    (hs : (t.grp g).sregs = (s.grp g).sregs) (hq : (t.grp g).queues = (s.grp g).queues) (hb : (t.grp g).blk = (s.grp g).blk)
    (hl : (t.grp g).slot = (s.grp g).slot) (hk : (t.blk (s.grp g).blk).core = (s.blk (s.grp g).blk).core)
    (he : (t.core (s.blk (s.grp g).blk).core).ext = (s.core (s.blk (s.grp g).blk).core).ext) : s.SameRegs t g := by
  refine ⟨fun n => ?_, fun n => ?_, fun q => ?_⟩
  · unfold State.vreg Group.pair
    dsimp only
    rw [hv, hb, hl, hk, he]
  · unfold State.sreg Group.sreg; rw [hs]
  · unfold Group.queue; rw [hq]

/-- The same, where the group stands still. -/
theorem State.sameRegs_still {s t : State} {g : Nat} (h : (t.grp g).still = (s.grp g).still)
    (hk : (t.blk (s.grp g).blk).core = (s.blk (s.grp g).blk).core)
    (he : (t.core (s.blk (s.grp g).blk).core).ext = (s.core (s.blk (s.grp g).blk).core).ext) : s.SameRegs t g := by
  have e : ∀ {α : Type} (f : Group → α), f (t.grp g).still = f (s.grp g).still := fun f => by rw [h]
  exact State.sameRegs_of (e Group.vregs) (e Group.sregs) (e Group.queues) (e Group.blk) (e Group.slot) hk he

/-- The operands are read: windows pop, and the clause may capture the timebase (R20, R42). -/
theorem State.afterReads_popped (s : State) (g : Nat) (srcs : List Src) (hg : (Tbl.find s.groups g).isSome = true) :
    s.Near (s.afterReads g srcs) g ∧ s.Popped (s.afterReads g srcs) g srcs ∧
    ((s.afterReads g srcs).grp g).pcs = (s.grp g).pcs ∧ ((s.afterReads g srcs).grp g).mrs = (s.grp g).mrs ∧
    ((s.afterReads g srcs).grp g).cur = (s.grp g).cur ∧ ((s.afterReads g srcs).grp g).pend = (s.grp g).pend ∧
    SamePlace (s.grp g).clause ((s.afterReads g srcs).grp g).clause ∧
    (Tbl.find (s.afterReads g srcs).groups g).isSome = true := by
  obtain ⟨k, hr, hk⟩ := State.afterReads_spec s g srcs hg
  have hpop := Group.popAll_frame (queuesNamed srcs) (s.grp g)
  have hqueue := fun q => Group.queue_popAll (queuesNamed srcs) (s.grp g) q (queuesNamed_nodup srcs)
  generalize (s.grp g).popAll (queuesNamed srcs) = x at hr hpop hqueue
  rw [hr]
  have hkept : Group.kept { x with clause := k } = (s.grp g).kept := by rw [hpop]; rfl
  have hn : s.Near (s.setGrp g { x with clause := k }) g := State.near_setGrp _ _ _ hkept
  refine ⟨hn, ⟨fun n => State.vreg_congr n rfl hn.kept ?_ rfl, fun n => ?_, fun q => ?_⟩, ?_, ?_, ?_, ?_, ?_,
    State.has_setGrp _ _ _⟩
  · rw [State.grp_setGrp_self, hpop]
  · unfold State.sreg; rw [State.grp_setGrp_self, hpop]; rfl
  · rw [State.grp_setGrp_self]; exact hqueue q
  · rw [State.grp_setGrp_self, hpop]
  · rw [State.grp_setGrp_self, hpop]
  · rw [State.grp_setGrp_self, hpop]
  · rw [State.grp_setGrp_self, hpop]
  · rw [State.grp_setGrp_self]
    rcases hk with h | ⟨c, c', h1, h2, h3, h4, h5, _⟩
    · exact .inl h
    · exact .inr ⟨c, c', h1, h2, h3, h4, h5⟩

/-! ### Branching -/

/-- The threads of the cluster have moved and the clause has ended; registers, windows and all else the group holds stand. -/
theorem State.branch_spec {s u : State} {g : Nat} (f : Nat → Dword) (hu : (Tbl.find u.groups g).isSome = true)
    (hn : s.Near u g) (hp : (u.grp g).pcs = (s.grp g).pcs) (hc : (u.grp g).cur = (s.grp g).cur) :
    s.Branched (u.branch g f) g f ∧ u.SameRegs (u.branch g f) g := by
  have hb : u.branch g f = u.setGrp g ((u.grp g).branch f) := State.modGrp_of_some _ _ _ hu
  have hs : ((u.grp g).branch f).still = (u.grp g).still := Group.still_branch _ _
  have hk : u.Near (u.branch g f) g := by rw [hb]; exact State.near_setGrp _ _ _ (Group.kept_of_still hs)
  have hl : (u.grp g).curLanes = (s.grp g).curLanes := by unfold Group.curLanes; rw [hc]
  have ht := hn.trans hk
  refine ⟨⟨fun L hL => ?_, ?_, ht.kept, ht.only⟩, State.sameRegs_still ?_ ?_ ?_⟩
  · rw [hb, State.grp_setGrp_self]
    unfold Group.branch
    rw [Group.pc_endClause, Group.pc_setPcs _ _ _ hL, hl]
    unfold Group.pc; rw [hp]
  · rw [hb, State.grp_setGrp_self]; exact (Group.spots_endClause _ _ _ _ _).2
  · rw [hb, State.grp_setGrp_self]; exact hs
  · rw [hb]; rfl
  · rw [hb]; rfl

/-! ### Holding and faults -/

/-- The group holds at its instruction (R337). -/
theorem State.holds_endBy (s : State) (g : Nat) (row : Option HeldFor) (h : (Tbl.find s.groups g).isSome = true) :
    s.Holds (s.endBy g (.hold false row)) g := by
  have e : s.endBy g (.hold false row) =
      s.setGrp g { s.grp g with heldAt := true, partDone := false, heldRow := row } := State.modGrp_of_some _ _ _ h
  rw [e]
  exact ⟨by rw [State.grp_setGrp_self], by rw [State.grp_setGrp_self]; rfl, by rw [State.grp_setGrp_self],
    by rw [State.grp_setGrp_self]; exact ⟨rfl, rfl⟩, State.sameElsewhere_setGrp _ _ _, rfl, rfl⟩

/-- The lanes of a cluster stay in it when others join. -/
theorem Cluster.inMask_join (ps : List Cluster) : ∀ (c : Cluster) (L : Nat), inMask c.lanes L = true →
    inMask (c.join ps).lanes L = true := by
  induction ps with
  | nil => intro c L h; exact h
  | cons p t ih =>
    intro c L h
    refine ih _ L ?_
    unfold inMask at h ⊢
    dsimp only
    rw [BitVec.getLsbD_or, h]; rfl

/-- The lanes of the current cluster stay in it when it takes in a pending cluster (R61). -/
theorem Group.inMask_absorb (x : Group) (L : Nat) (h : inMask x.curLanes L = true) : inMask x.absorb.curLanes L = true := by
  unfold Group.absorb
  split
  · exact h
  · rename_i c hc
    unfold Group.curLanes at h ⊢
    rw [hc] at h
    exact Cluster.inMask_join _ c L h

theorem Group.mrs_absorb (x : Group) : x.absorb.mrs = x.mrs := by
  unfold Group.absorb
  split <;> rfl

theorem Group.cur_addPending (x : Group) (c : Cluster) : (x.addPending c).cur = x.cur ∧ (x.addPending c).mrs = x.mrs := by
  unfold Group.addPending
  split <;> exact ⟨rfl, rfl⟩

/-- A meeting changes neither the current cluster nor the MR of a thread of it (R65). -/
theorem Group.cur_meetAt (x : Group) (a : Dword) : (x.meetAt a).cur = x.cur ∧
    ∀ L, L < 64 → inMask x.curLanes L = true → (x.meetAt a).mr L = x.mr L := by
  unfold Group.meetAt
  dsimp only
  split
  · rename_i h
    refine ⟨(Group.cur_addPending _ _).1.trans rfl, fun L hL hm => ?_⟩
    unfold Group.mr
    rw [(Group.cur_addPending _ _).2]
    refine Eq.trans (b := Group.mr (x.setMrs _ _) L) rfl ?_
    rw [Group.mr_setMrs _ _ _ hL]
    have : inMask (maskOf fun L => ((List.range 64).filter fun L => x.live L && x.mr L == a).contains L) L = false := by
      rw [inMask_maskOf _ hL, Bool.eq_false_iff]
      intro hc
      have hw := List.all_eq_true.mp h L (by simpa using hc)
      simp [hm] at hw
    rw [if_neg (by rw [Bool.not_eq_true]; exact this)]
    rfl
  · exact ⟨rfl, fun _ _ _ => rfl⟩

theorem Group.cur_meets (as : List Dword) : ∀ x : Group, (as.foldl Group.meetAt x).cur = x.cur ∧
    ∀ L, L < 64 → inMask x.curLanes L = true → (as.foldl Group.meetAt x).mr L = x.mr L := by
  induction as with
  | nil => intro x; exact ⟨rfl, fun _ _ _ => rfl⟩
  | cons a t ih =>
    intro x
    have h := Group.cur_meetAt x a
    rw [List.foldl_cons]
    refine ⟨(ih _).1.trans h.1, fun L hL hm => ((ih _).2 L hL ?_).trans (h.2 L hL hm)⟩
    unfold Group.curLanes at hm ⊢
    rw [h.1]; exact hm

/-- A fault that ends a clause leaves the current cluster, its MRs and every PC as they were, and the group apart from where its
threads stand (R37). -/
theorem Group.faultEnds_spec (x : Group) : x.faultEnds.still = x.still ∧ x.faultEnds.pcs = x.pcs ∧ x.faultEnds.cur = x.cur ∧
    ∀ L, L < 64 → inMask x.curLanes L = true → x.faultEnds.mr L = x.mr L := by
  unfold Group.faultEnds
  split
  · have h := Group.cur_meets (Group.meetings { x with pend := x.pend.map fun p => { p with age := p.age + 1 } })
      { x with pend := x.pend.map fun p => { p with age := p.age + 1 } }
    exact ⟨(Group.still_meetAll _).trans rfl, (Group.spots_meetAll _).1.trans rfl, h.1, h.2⟩
  · exact ⟨rfl, rfl, rfl, fun _ _ _ => rfl⟩

/-- A group that may enter its handler has a cluster (R343, R344). -/
theorem State.trapCheck_lanes {s : State} {g : Nat} {t : Target} (h : s.trapCheck g = some t) : (s.grp g).curLanes ≠ 0 := by
  unfold State.trapCheck at h
  dsimp only at h
  split at h
  · cases h
  · rename_i hn
    intro hc
    rw [hc] at hn
    simp at hn

/-- A fault whose handler may be entered enters it (R343). -/
theorem State.trapped_takeFault (s : State) (g : Nat) (f : Flt) (pc hdr : Dword)
    (hc : s.trapCheck g = some .ok) : s.Trapped (s.takeFault g f pc hdr) g f pc hdr := by
  have hl := State.trapCheck_lanes hc
  unfold State.takeFault
  rw [hc]
  dsimp only
  have hf := Group.faultEnds_spec (s.grp g)
  let x : Group := { s.grp g with
    fcode := f.code, finfo := f.info, flane := BitVec.ofNat 8 f.lane, faddr := f.addr, fpc := pc, fhdr := hdr,
    fpcEntry := pc, fpart := (s.grp g).partAt, inh := true, trapPend := none }
  have hst : ((s.grp g).enterTrap f pc hdr (s.blockOf g).record.trap).still = x.still := by
    unfold Group.enterTrap; rw [Group.still_absorb]
    exact congrArg (fun y : Group => { y with
      fcode := f.code, finfo := f.info, flane := BitVec.ofNat 8 f.lane, faddr := f.addr, fpc := pc, fhdr := hdr,
      fpcEntry := pc, fpart := (s.grp g).partAt, inh := true, trapPend := none }) hf.1
  have e : ∀ {α : Type} (p : Group → α), p ((s.grp g).enterTrap f pc hdr (s.blockOf g).record.trap).still = p x.still :=
    fun p => by rw [hst]
  have hcur : ∀ y : Group, y.cur = (s.grp g).faultEnds.cur.map (fun c => { c with res := 0, part := false }) →
      y.curLanes = (s.grp g).curLanes := by
    intro y hy; unfold Group.curLanes; rw [hy, hf.2.2.1]; cases (s.grp g).cur <;> rfl
  refine ⟨?_, ?_, ?_, fun L hL => ?_, ?_, ?_, State.sameRegs_of ?_ ?_ ?_ ?_ ?_ rfl rfl, ?_, fun L hL hm => ?_,
    State.sameElsewhere_setGrp _ _ _, rfl, rfl⟩ <;> rw [State.grp_setGrp_self]
  · exact ⟨e Group.fcode, e Group.finfo, e Group.flane, e Group.faddr⟩
  · exact ⟨e Group.fpc, e Group.fhdr⟩
  · exact e Group.inh
  · unfold Group.enterTrap
    dsimp only
    unfold Group.pc
    rw [(Group.spots_absorb _).1]
    refine (Group.pc_setPcs _ _ _ hL).trans ?_
    rw [hcur _ rfl]
    unfold Group.pc
    dsimp only
    rw [hf.2.1]
  · unfold Group.enterTrap
    refine Group.inMask_absorb _ _ ?_
    rw [show ∀ (x : Group) m f, (x.setPcs m f).curLanes = x.curLanes from fun _ _ _ => rfl, hcur _ rfl]
    exact inMask_lowestLane hl
  · unfold Group.enterTrap
    dsimp only
    rw [(Group.spots_absorb _).2]; rfl
  · exact e Group.vregs
  · exact e Group.sregs
  · exact e Group.queues
  · exact e Group.blk
  · exact e Group.slot
  · exact ⟨e Group.exited, e Group.tokens, e Group.out⟩
  · refine Eq.trans ?_ (hf.2.2.2 L hL hm)
    unfold Group.enterTrap Group.mr
    rw [Group.mrs_absorb]; rfl

end Sys2Proof.Machine
end

