-- ==== Sys2Proof/Laws/PerInstr.lean ====
section
/-!
SUPPORT. The round trip of every constructor: decoding the word of a well-formed instruction gives it back, with every
operand (R41 to R58). An event has no word.
-/
namespace Sys2Proof.Laws

/-- Decoding the word that encodes a well-formed instruction gives the instruction. -/
def Enc.Statement (i : Instr) : Prop :=
  ∀ c sh w, encode i = some (c, sh, w) → i.wf = true → decodeWord c sh w = .ok i

theorem Enc.iadd (o : Ops2) : Enc.Statement (.iadd o) := by
  intro k sh w h hw
  cases h
  refine decodeWord_of_raw ?_ hw
  clear hw
  refine (decAlu_pack (by decide) (by decide)).trans ?_
  unfold decAluA
  exact (bind_ok (x := need _) (by with_unfolding_all rfl)).trans <| (bind_ok (only_ok (by decide))).trans <|
    (bind_ok (ops2_enc o _ _ _)).trans <| (by with_unfolding_all rfl)
theorem Enc.isub (o : Ops2) : Enc.Statement (.isub o) := by
  intro k sh w h hw
  cases h
  refine decodeWord_of_raw ?_ hw
  clear hw
  refine (decAlu_pack (by decide) (by decide)).trans ?_
  unfold decAluA
  exact (bind_ok (x := need _) (by with_unfolding_all rfl)).trans <| (bind_ok (only_ok (by decide))).trans <|
    (bind_ok (ops2_enc o _ _ _)).trans <| (by with_unfolding_all rfl)
theorem Enc.iaddc (co : Bool) (o : Ops3) : Enc.Statement (.iaddc co o) := by
  intro k sh w h hw
  cases h
  refine decodeWord_of_raw ?_ hw
  clear hw
  refine (decAlu_pack (by decide) (by decide)).trans ?_
  unfold decAluA
  exact (bind_ok (x := need _) (by with_unfolding_all rfl)).trans <|
    (bind_ok (only_ok (by cases co <;> decide))).trans <| (bind_ok (ops3_enc o _ _ _)).trans <|
    (by show Except.ok (Instr.iaddc (BitVec.getLsbD ((0#7) ++ (BitVec.ofBool co) : BitVec 8) 0) o) = _; rw [show BitVec.getLsbD ((0#7) ++ (BitVec.ofBool co) : BitVec 8) 0 = co from (by cases co <;> rfl)])
theorem Enc.imul (o : Ops2) : Enc.Statement (.imul o) := by
  intro k sh w h hw
  cases h
  refine decodeWord_of_raw ?_ hw
  clear hw
  refine (decAlu_pack (by decide) (by decide)).trans ?_
  unfold decAluA
  exact (bind_ok (x := need _) (by with_unfolding_all rfl)).trans <| (bind_ok (only_ok (by decide))).trans <|
    (bind_ok (ops2_enc o _ _ _)).trans <| (by with_unfolding_all rfl)
theorem Enc.imulh (sg : Bool) (o : Ops2) : Enc.Statement (.imulh sg o) := by
  intro k sh w h hw
  cases h
  refine decodeWord_of_raw ?_ hw
  clear hw
  refine (decAlu_pack (by decide) (by decide)).trans ?_
  unfold decAluA
  exact (bind_ok (x := need _) (by with_unfolding_all rfl)).trans <|
    (bind_ok (only_ok (by cases sg <;> decide))).trans <| (bind_ok (ops2_enc o _ _ _)).trans <|
    (by show Except.ok (Instr.imulh (BitVec.getLsbD ((0#7) ++ (BitVec.ofBool sg) : BitVec 8) 0) o) = _; rw [show BitVec.getLsbD ((0#7) ++ (BitVec.ofBool sg) : BitVec 8) 0 = sg from (by cases sg <;> rfl)])
theorem Enc.imad (o : Ops3) : Enc.Statement (.imad o) := by
  intro k sh w h hw
  cases h
  refine decodeWord_of_raw ?_ hw
  clear hw
  refine (decAlu_pack (by decide) (by decide)).trans ?_
  unfold decAluA
  exact (bind_ok (x := need _) (by with_unfolding_all rfl)).trans <| (bind_ok (only_ok (by decide))).trans <|
    (bind_ok (ops3_enc o _ _ _)).trans <| (by with_unfolding_all rfl)
theorem Enc.iabs (o : Ops1) : Enc.Statement (.iabs o) := by
  intro k sh w h hw
  cases h
  refine decodeWord_of_raw ?_ hw
  clear hw
  refine (decAlu_pack (by decide) (by decide)).trans ?_
  unfold decAluA
  exact (bind_ok (x := need _) (by with_unfolding_all rfl)).trans <| (bind_ok (only_ok (by decide))).trans <|
    (bind_ok (ops1_enc o _ _ _)).trans <| (by with_unfolding_all rfl)
theorem Enc.ineg (o : Ops1) : Enc.Statement (.ineg o) := by
  intro k sh w h hw
  cases h
  refine decodeWord_of_raw ?_ hw
  clear hw
  refine (decAlu_pack (by decide) (by decide)).trans ?_
  unfold decAluA
  exact (bind_ok (x := need _) (by with_unfolding_all rfl)).trans <| (bind_ok (only_ok (by decide))).trans <|
    (bind_ok (ops1_enc o _ _ _)).trans <| (by with_unfolding_all rfl)
theorem Enc.imin (sg : Bool) (o : Ops2) : Enc.Statement (.imin sg o) := by
  intro k sh w h hw
  cases h
  refine decodeWord_of_raw ?_ hw
  clear hw
  refine (decAlu_pack (by decide) (by decide)).trans ?_
  unfold decAluA
  exact (bind_ok (x := need _) (by with_unfolding_all rfl)).trans <|
    (bind_ok (only_ok (by cases sg <;> decide))).trans <| (bind_ok (ops2_enc o _ _ _)).trans <|
    (by show Except.ok (Instr.imin (BitVec.getLsbD ((0#7) ++ (BitVec.ofBool sg) : BitVec 8) 0) o) = _; rw [show BitVec.getLsbD ((0#7) ++ (BitVec.ofBool sg) : BitVec 8) 0 = sg from (by cases sg <;> rfl)])
theorem Enc.imax (sg : Bool) (o : Ops2) : Enc.Statement (.imax sg o) := by
  intro k sh w h hw
  cases h
  refine decodeWord_of_raw ?_ hw
  clear hw
  refine (decAlu_pack (by decide) (by decide)).trans ?_
  unfold decAluA
  exact (bind_ok (x := need _) (by with_unfolding_all rfl)).trans <|
    (bind_ok (only_ok (by cases sg <;> decide))).trans <| (bind_ok (ops2_enc o _ _ _)).trans <|
    (by show Except.ok (Instr.imax (BitVec.getLsbD ((0#7) ++ (BitVec.ofBool sg) : BitVec 8) 0) o) = _; rw [show BitVec.getLsbD ((0#7) ++ (BitVec.ofBool sg) : BitVec 8) 0 = sg from (by cases sg <;> rfl)])
theorem Enc.shl (o : Ops2) : Enc.Statement (.shl o) := by
  intro k sh w h hw
  cases h
  refine decodeWord_of_raw ?_ hw
  clear hw
  refine (decAlu_pack (by decide) (by decide)).trans ?_
  unfold decAluA
  exact (bind_ok (x := need _) (by with_unfolding_all rfl)).trans <| (bind_ok (only_ok (by decide))).trans <|
    (bind_ok (ops2_enc o _ _ _)).trans <| (by with_unfolding_all rfl)
theorem Enc.shr (sg : Bool) (o : Ops2) : Enc.Statement (.shr sg o) := by
  intro k sh w h hw
  cases h
  refine decodeWord_of_raw ?_ hw
  clear hw
  refine (decAlu_pack (by decide) (by decide)).trans ?_
  unfold decAluA
  exact (bind_ok (x := need _) (by with_unfolding_all rfl)).trans <|
    (bind_ok (only_ok (by cases sg <;> decide))).trans <| (bind_ok (ops2_enc o _ _ _)).trans <|
    (by show Except.ok (Instr.shr (BitVec.getLsbD ((0#7) ++ (BitVec.ofBool sg) : BitVec 8) 0) o) = _; rw [show BitVec.getLsbD ((0#7) ++ (BitVec.ofBool sg) : BitVec 8) 0 = sg from (by cases sg <;> rfl)])
theorem Enc.rot (o : Ops2) : Enc.Statement (.rot o) := by
  intro k sh w h hw
  cases h
  refine decodeWord_of_raw ?_ hw
  clear hw
  refine (decAlu_pack (by decide) (by decide)).trans ?_
  unfold decAluA
  exact (bind_ok (x := need _) (by with_unfolding_all rfl)).trans <| (bind_ok (only_ok (by decide))).trans <|
    (bind_ok (ops2_enc o _ _ _)).trans <| (by with_unfolding_all rfl)
theorem Enc.fsh (l : Bool) (o : Ops3) : Enc.Statement (.fsh l o) := by
  intro k sh w h hw
  cases h
  refine decodeWord_of_raw ?_ hw
  clear hw
  refine (decAlu_pack (by decide) (by decide)).trans ?_
  unfold decAluA
  exact (bind_ok (x := need _) (by with_unfolding_all rfl)).trans <|
    (bind_ok (only_ok (by cases l <;> decide))).trans <| (bind_ok (ops3_enc o _ _ _)).trans <|
    (by show Except.ok (Instr.fsh (BitVec.getLsbD ((0#7) ++ (BitVec.ofBool l) : BitVec 8) 0) o) = _; rw [show BitVec.getLsbD ((0#7) ++ (BitVec.ofBool l) : BitVec 8) 0 = l from (by cases l <;> rfl)])
theorem Enc.and (o : Ops2) : Enc.Statement (.and o) := by
  intro k sh w h hw
  cases h
  refine decodeWord_of_raw ?_ hw
  clear hw
  refine (decAlu_pack (by decide) (by decide)).trans ?_
  unfold decAluA
  exact (bind_ok (x := need _) (by with_unfolding_all rfl)).trans <| (bind_ok (only_ok (by decide))).trans <|
    (bind_ok (ops2_enc o _ _ _)).trans <| (by with_unfolding_all rfl)
theorem Enc.or (o : Ops2) : Enc.Statement (.or o) := by
  intro k sh w h hw
  cases h
  refine decodeWord_of_raw ?_ hw
  clear hw
  refine (decAlu_pack (by decide) (by decide)).trans ?_
  unfold decAluA
  exact (bind_ok (x := need _) (by with_unfolding_all rfl)).trans <| (bind_ok (only_ok (by decide))).trans <|
    (bind_ok (ops2_enc o _ _ _)).trans <| (by with_unfolding_all rfl)
theorem Enc.xor (o : Ops2) : Enc.Statement (.xor o) := by
  intro k sh w h hw
  cases h
  refine decodeWord_of_raw ?_ hw
  clear hw
  refine (decAlu_pack (by decide) (by decide)).trans ?_
  unfold decAluA
  exact (bind_ok (x := need _) (by with_unfolding_all rfl)).trans <| (bind_ok (only_ok (by decide))).trans <|
    (bind_ok (ops2_enc o _ _ _)).trans <| (by with_unfolding_all rfl)
theorem Enc.andn (o : Ops2) : Enc.Statement (.andn o) := by
  intro k sh w h hw
  cases h
  refine decodeWord_of_raw ?_ hw
  clear hw
  refine (decAlu_pack (by decide) (by decide)).trans ?_
  unfold decAluA
  exact (bind_ok (x := need _) (by with_unfolding_all rfl)).trans <| (bind_ok (only_ok (by decide))).trans <|
    (bind_ok (ops2_enc o _ _ _)).trans <| (by with_unfolding_all rfl)
theorem Enc.not (o : Ops1) : Enc.Statement (.not o) := by
  intro k sh w h hw
  cases h
  refine decodeWord_of_raw ?_ hw
  clear hw
  refine (decAlu_pack (by decide) (by decide)).trans ?_
  unfold decAluA
  exact (bind_ok (x := need _) (by with_unfolding_all rfl)).trans <| (bind_ok (only_ok (by decide))).trans <|
    (bind_ok (ops1_enc o _ _ _)).trans <| (by with_unfolding_all rfl)
theorem Enc.tri (table : BitVec 8) (o : Ops3) : Enc.Statement (.tri table o) := by
  intro k sh w h hw
  cases h
  refine decodeWord_of_raw ?_ hw
  clear hw
  refine (decAlu_pack (by decide) (by decide)).trans ?_
  unfold decAluA
  exact (bind_ok (x := need _) (by with_unfolding_all rfl)).trans <|
    (bind_ok (only_ok (by revert table; decide))).trans <| (bind_ok (ops3_enc o _ _ _)).trans <|
    congrArg (fun x => (Except.ok (Instr.tri x o) : Except Reject Instr)) (m_ok app_all)
theorem Enc.popc (o : Ops1) : Enc.Statement (.popc o) := by
  intro k sh w h hw
  cases h
  refine decodeWord_of_raw ?_ hw
  clear hw
  refine (decAlu_pack (by decide) (by decide)).trans ?_
  unfold decAluA
  exact (bind_ok (x := need _) (by with_unfolding_all rfl)).trans <| (bind_ok (only_ok (by decide))).trans <|
    (bind_ok (ops1_enc o _ _ _)).trans <| (by with_unfolding_all rfl)
theorem Enc.clz (o : Ops1) : Enc.Statement (.clz o) := by
  intro k sh w h hw
  cases h
  refine decodeWord_of_raw ?_ hw
  clear hw
  refine (decAlu_pack (by decide) (by decide)).trans ?_
  unfold decAluA
  exact (bind_ok (x := need _) (by with_unfolding_all rfl)).trans <| (bind_ok (only_ok (by decide))).trans <|
    (bind_ok (ops1_enc o _ _ _)).trans <| (by with_unfolding_all rfl)
theorem Enc.ctz (o : Ops1) : Enc.Statement (.ctz o) := by
  intro k sh w h hw
  cases h
  refine decodeWord_of_raw ?_ hw
  clear hw
  refine (decAlu_pack (by decide) (by decide)).trans ?_
  unfold decAluA
  exact (bind_ok (x := need _) (by with_unfolding_all rfl)).trans <| (bind_ok (only_ok (by decide))).trans <|
    (bind_ok (ops1_enc o _ _ _)).trans <| (by with_unfolding_all rfl)
theorem Enc.brev (o : Ops1) : Enc.Statement (.brev o) := by
  intro k sh w h hw
  cases h
  refine decodeWord_of_raw ?_ hw
  clear hw
  refine (decAlu_pack (by decide) (by decide)).trans ?_
  unfold decAluA
  exact (bind_ok (x := need _) (by with_unfolding_all rfl)).trans <| (bind_ok (only_ok (by decide))).trans <|
    (bind_ok (ops1_enc o _ _ _)).trans <| (by with_unfolding_all rfl)
theorem Enc.bfx (sg : Bool) (o : Ops2) : Enc.Statement (.bfx sg o) := by
  intro k sh w h hw
  cases h
  refine decodeWord_of_raw ?_ hw
  clear hw
  refine (decAlu_pack (by decide) (by decide)).trans ?_
  unfold decAluA
  exact (bind_ok (x := need _) (by with_unfolding_all rfl)).trans <|
    (bind_ok (only_ok (by cases sg <;> decide))).trans <| (bind_ok (ops2_enc o _ _ _)).trans <|
    (by show Except.ok (Instr.bfx (BitVec.getLsbD ((0#7) ++ (BitVec.ofBool sg) : BitVec 8) 0) o) = _; rw [show BitVec.getLsbD ((0#7) ++ (BitVec.ofBool sg) : BitVec 8) 0 = sg from (by cases sg <;> rfl)])
theorem Enc.bfi (o : Ops3) : Enc.Statement (.bfi o) := by
  intro k sh w h hw
  cases h
  refine decodeWord_of_raw ?_ hw
  clear hw
  refine (decAlu_pack (by decide) (by decide)).trans ?_
  unfold decAluA
  exact (bind_ok (x := need _) (by with_unfolding_all rfl)).trans <| (bind_ok (only_ok (by decide))).trans <|
    (bind_ok (ops3_enc o _ _ _)).trans <| (by with_unfolding_all rfl)
theorem Enc.bperm (o : Ops3) : Enc.Statement (.bperm o) := by
  intro k sh w h hw
  cases h
  refine decodeWord_of_raw ?_ hw
  clear hw
  refine (decAlu_pack (by decide) (by decide)).trans ?_
  unfold decAluA
  exact (bind_ok (x := need _) (by with_unfolding_all rfl)).trans <| (bind_ok (only_ok (by decide))).trans <|
    (bind_ok (ops3_enc o _ _ _)).trans <| (by with_unfolding_all rfl)
theorem Enc.icmp (cc : Cmp) (sg : Bool) (o : Ops2) : Enc.Statement (.icmp cc sg o) := by
  intro k sh w h hw
  cases h
  refine decodeWord_of_raw ?_ hw
  clear hw
  refine (decAlu_pack (by decide) (by decide)).trans ?_
  unfold decAluA
  exact (bind_ok (x := need _) (by with_unfolding_all rfl)).trans <|
    (bind_ok (only_ok (by cases sg <;> cases cc <;> decide))).trans <|
    (bind_ok ((congrArg decCmp (m_ok ((app_lo _ _ (by decide)).trans app_all))).trans (decCmp_bits _))).trans <|
    (bind_ok (ops2_enc o _ _ _)).trans <|
    (by show Except.ok (Instr.icmp cc (BitVec.getLsbD ((0#4) ++ (BitVec.ofBool sg) ++ cc.bits : BitVec 8) 3) o) = _; rw [show BitVec.getLsbD ((0#4) ++ (BitVec.ofBool sg) ++ cc.bits : BitVec 8) 3 = sg from (by cases sg <;> cases cc <;> rfl)])
theorem Enc.sel (m : Bool) (o : Ops3) : Enc.Statement (.sel m o) := by
  intro k sh w h hw
  cases h
  refine decodeWord_of_raw ?_ hw
  clear hw
  refine (decAlu_pack (by decide) (by decide)).trans ?_
  unfold decAluA
  exact (bind_ok (x := need _) (by with_unfolding_all rfl)).trans <|
    (bind_ok (only_ok (by cases m <;> decide))).trans <| (bind_ok (ops3_enc o _ _ _)).trans <|
    (by show Except.ok (Instr.sel (BitVec.getLsbD ((0#7) ++ (BitVec.ofBool m) : BitVec 8) 0) o) = _; rw [show BitVec.getLsbD ((0#7) ++ (BitVec.ofBool m) : BitVec 8) 0 = m from (by cases m <;> rfl)])
theorem Enc.mov (o : Ops1) : Enc.Statement (.mov o) := by
  intro k sh w h hw
  cases h
  refine decodeWord_of_raw ?_ hw
  clear hw
  refine (decAlu_pack (by decide) (by decide)).trans ?_
  unfold decAluA
  exact (bind_ok (x := need _) (by with_unfolding_all rfl)).trans <| (bind_ok (only_ok (by decide))).trans <|
    (bind_ok (ops1_enc o _ _ _)).trans <| (by with_unfolding_all rfl)
theorem Enc.movi (o : OpsI) : Enc.Statement (.movi o) := by
  intro k sh w h hw
  cases h
  refine decodeWord_of_raw ?_ hw
  clear hw
  have e : (OpsI.enc o 0x1E).extractLsb' 56 8 = 0x1E := congrArg FmtI.op (FmtI.unpack_pack _)
  show decAlu _ = _
  rw [decAlu, if_pos e, OpsI.enc, FmtI.unpack_pack, opsI_enc]
  rfl
theorem Enc.vfill (o : Ops2) : Enc.Statement (.vfill o) := by
  intro k sh w h hw
  cases h
  refine decodeWord_of_raw ?_ hw
  clear hw
  refine (decAlu_pack (by decide) (by decide)).trans ?_
  unfold decAluA
  exact (bind_ok (x := need _) (by with_unfolding_all rfl)).trans <| (bind_ok (only_ok (by decide))).trans <|
    (bind_ok (ops2_enc o _ _ _)).trans <| (by with_unfolding_all rfl)
theorem Enc.vpick (o : Ops2) : Enc.Statement (.vpick o) := by
  intro k sh w h hw
  cases h
  refine decodeWord_of_raw ?_ hw
  clear hw
  refine (decAlu_pack (by decide) (by decide)).trans ?_
  unfold decAluA
  exact (bind_ok (x := need _) (by with_unfolding_all rfl)).trans <| (bind_ok (only_ok (by decide))).trans <|
    (bind_ok (ops2_enc o _ _ _)).trans <| (by with_unfolding_all rfl)
theorem Enc.ridx (o : Ops2) : Enc.Statement (.ridx o) := by
  intro k sh w h hw
  cases h
  refine decodeWord_of_raw ?_ hw
  clear hw
  refine (decAlu_pack (by decide) (by decide)).trans ?_
  unfold decAluA
  exact (bind_ok (x := need _) (by with_unfolding_all rfl)).trans <| (bind_ok (only_ok (by decide))).trans <|
    (bind_ok (ops2_enc o _ _ _)).trans <| (by with_unfolding_all rfl)
theorem Enc.widx (o : Ops2) : Enc.Statement (.widx o) := by
  intro k sh w h hw
  cases h
  refine decodeWord_of_raw ?_ hw
  clear hw
  refine (decAlu_pack (by decide) (by decide)).trans ?_
  unfold decAluA
  exact (bind_ok (x := need _) (by with_unfolding_all rfl)).trans <| (bind_ok (only_ok (by decide))).trans <|
    (bind_ok (ops2_enc o _ _ _)).trans <| (by with_unfolding_all rfl)
theorem Enc.tag (t : Tag) (o : Ops1) : Enc.Statement (.tag t o) := by
  intro k sh w h hw
  cases h
  refine decodeWord_of_raw ?_ hw
  clear hw
  refine (decAlu_pack (by decide) (by decide)).trans ?_
  unfold decAluA
  exact (bind_ok (x := need _) (by with_unfolding_all rfl)).trans <|
    (bind_ok (only_ok (by cases t <;> decide))).trans <|
    (bind_ok ((congrArg decTag (m_ok ((app_lo _ _ (by decide)).trans app_all))).trans (decTag_bits _))).trans <|
    (bind_ok (ops1_enc o _ _ _)).trans <| (by with_unfolding_all rfl)
theorem Enc.tagq (o : Ops1) : Enc.Statement (.tagq o) := by
  intro k sh w h hw
  cases h
  refine decodeWord_of_raw ?_ hw
  clear hw
  refine (decAlu_pack (by decide) (by decide)).trans ?_
  unfold decAluA
  exact (bind_ok (x := need _) (by with_unfolding_all rfl)).trans <| (bind_ok (only_ok (by decide))).trans <|
    (bind_ok (ops1_enc o _ _ _)).trans <| (by with_unfolding_all rfl)
theorem Enc.lea (o : OpsI) : Enc.Statement (.lea o) := by
  intro k sh w h hw
  cases h
  refine decodeWord_of_raw ?_ hw
  clear hw
  have e : (OpsI.enc o 0x25).extractLsb' 56 8 = 0x25 := congrArg FmtI.op (FmtI.unpack_pack _)
  show decAlu _ = _
  rw [decAlu, if_neg (by rw [e]; decide), if_pos e, OpsI.enc, FmtI.unpack_pack, opsI_enc]
  rfl
theorem Enc.add64 (w : Bool) (u : Bool) (sh : BitVec 3) (o : Ops2) : Enc.Statement (.add64 w u sh o) := by
  intro k sh w h hw
  cases h
  refine decodeWord_of_raw ?_ hw
  clear hw
  refine (decAlu_pack (by decide) (by decide)).trans ?_
  unfold decAluA
  exact (bind_ok (x := need _) (by with_unfolding_all rfl)).trans <|
    (bind_ok (only_ok (by cases u <;> cases w <;> (revert sh; decide)))).trans <|
    (bind_ok (ops2_enc o _ _ _)).trans <|
    (by show Except.ok (Instr.add64 (BitVec.getLsbD ((0#3) ++ sh ++ (BitVec.ofBool u) ++ (BitVec.ofBool w) : BitVec 8) 0) (BitVec.getLsbD ((0#3) ++ sh ++ (BitVec.ofBool u) ++ (BitVec.ofBool w) : BitVec 8) 1) (BitVec.extractLsb' 2 3 ((0#3) ++ sh ++ (BitVec.ofBool u) ++ (BitVec.ofBool w) : BitVec 8)) o) = _; rw [show BitVec.getLsbD ((0#3) ++ sh ++ (BitVec.ofBool u) ++ (BitVec.ofBool w) : BitVec 8) 0 = w from (by cases u <;> cases w <;> (revert sh; decide)), show BitVec.getLsbD ((0#3) ++ sh ++ (BitVec.ofBool u) ++ (BitVec.ofBool w) : BitVec 8) 1 = u from (by cases u <;> cases w <;> (revert sh; decide)), show BitVec.extractLsb' 2 3 ((0#3) ++ sh ++ (BitVec.ofBool u) ++ (BitVec.ofBool w) : BitVec 8) = sh from ((app_hi _ _ (by decide)).trans <|
    (app_hi _ _ (by decide)).trans <| (app_lo _ _ (by decide)).trans app_all)])
theorem Enc.mlop (op : MaskOp) (o : Ops2) : Enc.Statement (.mlop op o) := by
  intro k sh w h hw
  cases h
  refine decodeWord_of_raw ?_ hw
  clear hw
  refine (decAlu_pack (by decide) (by decide)).trans ?_
  unfold decAluA
  exact (bind_ok (x := need _) (by with_unfolding_all rfl)).trans <|
    (bind_ok (only_ok (by cases op <;> decide))).trans <|
    (bind_ok ((congrArg decMaskOp (m_ok ((app_lo _ _ (by decide)).trans app_all))).trans (decMaskOp_bits _))).trans <|
    (bind_ok (ops2_enc o _ _ _)).trans <| (by with_unfolding_all rfl)
theorem Enc.mcnt (o : Ops1) : Enc.Statement (.mcnt o) := by
  intro k sh w h hw
  cases h
  refine decodeWord_of_raw ?_ hw
  clear hw
  refine (decAlu_pack (by decide) (by decide)).trans ?_
  unfold decAluA
  exact (bind_ok (x := need _) (by with_unfolding_all rfl)).trans <| (bind_ok (only_ok (by decide))).trans <|
    (bind_ok (ops1_enc o _ _ _)).trans <| (by with_unfolding_all rfl)
theorem Enc.mfirst (o : Ops1) : Enc.Statement (.mfirst o) := by
  intro k sh w h hw
  cases h
  refine decodeWord_of_raw ?_ hw
  clear hw
  refine (decAlu_pack (by decide) (by decide)).trans ?_
  unfold decAluA
  exact (bind_ok (x := need _) (by with_unfolding_all rfl)).trans <| (bind_ok (only_ok (by decide))).trans <|
    (bind_ok (ops1_enc o _ _ _)).trans <| (by with_unfolding_all rfl)
theorem Enc.fadd (rm : Rm) (o : Ops2) : Enc.Statement (.fadd rm o) := by
  intro k sh w h hw
  cases h
  refine decodeWord_of_raw ?_ hw
  clear hw
  refine (decAlu_pack (by decide) (by decide)).trans ?_
  unfold decAluA
  exact (bind_ok (x := need _) (by with_unfolding_all rfl)).trans <|
    (bind_ok (only_ok (by cases rm <;> decide))).trans <|
    (bind_ok ((congrArg decRm (m_ok ((app_hi _ _ (by decide)).trans <|
    (app_lo _ _ (by decide)).trans app_all))).trans (decRm_bits _))).trans <| (bind_ok (ops2_enc o _ _ _)).trans <|
    (by with_unfolding_all rfl)
theorem Enc.fsub (rm : Rm) (o : Ops2) : Enc.Statement (.fsub rm o) := by
  intro k sh w h hw
  cases h
  refine decodeWord_of_raw ?_ hw
  clear hw
  refine (decAlu_pack (by decide) (by decide)).trans ?_
  unfold decAluA
  exact (bind_ok (x := need _) (by with_unfolding_all rfl)).trans <|
    (bind_ok (only_ok (by cases rm <;> decide))).trans <|
    (bind_ok ((congrArg decRm (m_ok ((app_hi _ _ (by decide)).trans <|
    (app_lo _ _ (by decide)).trans app_all))).trans (decRm_bits _))).trans <| (bind_ok (ops2_enc o _ _ _)).trans <|
    (by with_unfolding_all rfl)
theorem Enc.fmul (rm : Rm) (o : Ops2) : Enc.Statement (.fmul rm o) := by
  intro k sh w h hw
  cases h
  refine decodeWord_of_raw ?_ hw
  clear hw
  refine (decAlu_pack (by decide) (by decide)).trans ?_
  unfold decAluA
  exact (bind_ok (x := need _) (by with_unfolding_all rfl)).trans <|
    (bind_ok (only_ok (by cases rm <;> decide))).trans <|
    (bind_ok ((congrArg decRm (m_ok ((app_hi _ _ (by decide)).trans <|
    (app_lo _ _ (by decide)).trans app_all))).trans (decRm_bits _))).trans <| (bind_ok (ops2_enc o _ _ _)).trans <|
    (by with_unfolding_all rfl)
theorem Enc.ffma (rm : Rm) (o : Ops3) : Enc.Statement (.ffma rm o) := by
  intro k sh w h hw
  cases h
  refine decodeWord_of_raw ?_ hw
  clear hw
  refine (decAlu_pack (by decide) (by decide)).trans ?_
  unfold decAluA
  exact (bind_ok (x := need _) (by with_unfolding_all rfl)).trans <|
    (bind_ok (only_ok (by cases rm <;> decide))).trans <|
    (bind_ok ((congrArg decRm (m_ok ((app_hi _ _ (by decide)).trans <|
    (app_lo _ _ (by decide)).trans app_all))).trans (decRm_bits _))).trans <| (bind_ok (ops3_enc o _ _ _)).trans <|
    (by with_unfolding_all rfl)
theorem Enc.fmin (o : Ops2) : Enc.Statement (.fmin o) := by
  intro k sh w h hw
  cases h
  refine decodeWord_of_raw ?_ hw
  clear hw
  refine (decAlu_pack (by decide) (by decide)).trans ?_
  unfold decAluA
  exact (bind_ok (x := need _) (by with_unfolding_all rfl)).trans <| (bind_ok (only_ok (by decide))).trans <|
    (bind_ok (ops2_enc o _ _ _)).trans <| (by with_unfolding_all rfl)
theorem Enc.fmax (o : Ops2) : Enc.Statement (.fmax o) := by
  intro k sh w h hw
  cases h
  refine decodeWord_of_raw ?_ hw
  clear hw
  refine (decAlu_pack (by decide) (by decide)).trans ?_
  unfold decAluA
  exact (bind_ok (x := need _) (by with_unfolding_all rfl)).trans <| (bind_ok (only_ok (by decide))).trans <|
    (bind_ok (ops2_enc o _ _ _)).trans <| (by with_unfolding_all rfl)
theorem Enc.fabs (o : Ops1) : Enc.Statement (.fabs o) := by
  intro k sh w h hw
  cases h
  refine decodeWord_of_raw ?_ hw
  clear hw
  refine (decAlu_pack (by decide) (by decide)).trans ?_
  unfold decAluA
  exact (bind_ok (x := need _) (by with_unfolding_all rfl)).trans <| (bind_ok (only_ok (by decide))).trans <|
    (bind_ok (ops1_enc o _ _ _)).trans <| (by with_unfolding_all rfl)
theorem Enc.fneg (o : Ops1) : Enc.Statement (.fneg o) := by
  intro k sh w h hw
  cases h
  refine decodeWord_of_raw ?_ hw
  clear hw
  refine (decAlu_pack (by decide) (by decide)).trans ?_
  unfold decAluA
  exact (bind_ok (x := need _) (by with_unfolding_all rfl)).trans <| (bind_ok (only_ok (by decide))).trans <|
    (bind_ok (ops1_enc o _ _ _)).trans <| (by with_unfolding_all rfl)
theorem Enc.fcmp (cc : FCmp) (o : Ops2) : Enc.Statement (.fcmp cc o) := by
  intro k sh w h hw
  cases h
  refine decodeWord_of_raw ?_ hw
  clear hw
  refine (decAlu_pack (by decide) (by decide)).trans ?_
  unfold decAluA
  exact (bind_ok (x := need _) (by with_unfolding_all rfl)).trans <|
    (bind_ok (only_ok (by cases cc <;> decide))).trans <|
    (bind_ok ((congrArg decFCmp (m_ok ((app_lo _ _ (by decide)).trans app_all))).trans (decFCmp_bits _))).trans <|
    (bind_ok (ops2_enc o _ _ _)).trans <| (by with_unfolding_all rfl)
theorem Enc.fclass (o : Ops1) : Enc.Statement (.fclass o) := by
  intro k sh w h hw
  cases h
  refine decodeWord_of_raw ?_ hw
  clear hw
  refine (decAlu_pack (by decide) (by decide)).trans ?_
  unfold decAluA
  exact (bind_ok (x := need _) (by with_unfolding_all rfl)).trans <| (bind_ok (only_ok (by decide))).trans <|
    (bind_ok (ops1_enc o _ _ _)).trans <| (by with_unfolding_all rfl)
theorem Enc.frcp (rm : Rm) (o : Ops1) : Enc.Statement (.frcp rm o) := by
  intro k sh w h hw
  cases h
  refine decodeWord_of_raw ?_ hw
  clear hw
  refine (decAlu_pack (by decide) (by decide)).trans ?_
  unfold decAluA
  exact (bind_ok (x := need _) (by with_unfolding_all rfl)).trans <|
    (bind_ok (only_ok (by cases rm <;> decide))).trans <|
    (bind_ok ((congrArg decRm (m_ok ((app_hi _ _ (by decide)).trans <|
    (app_lo _ _ (by decide)).trans app_all))).trans (decRm_bits _))).trans <| (bind_ok (ops1_enc o _ _ _)).trans <|
    (by with_unfolding_all rfl)
theorem Enc.frsq (rm : Rm) (o : Ops1) : Enc.Statement (.frsq rm o) := by
  intro k sh w h hw
  cases h
  refine decodeWord_of_raw ?_ hw
  clear hw
  refine (decAlu_pack (by decide) (by decide)).trans ?_
  unfold decAluA
  exact (bind_ok (x := need _) (by with_unfolding_all rfl)).trans <|
    (bind_ok (only_ok (by cases rm <;> decide))).trans <|
    (bind_ok ((congrArg decRm (m_ok ((app_hi _ _ (by decide)).trans <|
    (app_lo _ _ (by decide)).trans app_all))).trans (decRm_bits _))).trans <| (bind_ok (ops1_enc o _ _ _)).trans <|
    (by with_unfolding_all rfl)
theorem Enc.fsqrt (rm : Rm) (o : Ops1) : Enc.Statement (.fsqrt rm o) := by
  intro k sh w h hw
  cases h
  refine decodeWord_of_raw ?_ hw
  clear hw
  refine (decAlu_pack (by decide) (by decide)).trans ?_
  unfold decAluA
  exact (bind_ok (x := need _) (by with_unfolding_all rfl)).trans <|
    (bind_ok (only_ok (by cases rm <;> decide))).trans <|
    (bind_ok ((congrArg decRm (m_ok ((app_hi _ _ (by decide)).trans <|
    (app_lo _ _ (by decide)).trans app_all))).trans (decRm_bits _))).trans <| (bind_ok (ops1_enc o _ _ _)).trans <|
    (by with_unfolding_all rfl)
theorem Enc.fexp2 (rm : Rm) (o : Ops1) : Enc.Statement (.fexp2 rm o) := by
  intro k sh w h hw
  cases h
  refine decodeWord_of_raw ?_ hw
  clear hw
  refine (decAlu_pack (by decide) (by decide)).trans ?_
  unfold decAluA
  exact (bind_ok (x := need _) (by with_unfolding_all rfl)).trans <|
    (bind_ok (only_ok (by cases rm <;> decide))).trans <|
    (bind_ok ((congrArg decRm (m_ok ((app_hi _ _ (by decide)).trans <|
    (app_lo _ _ (by decide)).trans app_all))).trans (decRm_bits _))).trans <| (bind_ok (ops1_enc o _ _ _)).trans <|
    (by with_unfolding_all rfl)
theorem Enc.flog2 (rm : Rm) (o : Ops1) : Enc.Statement (.flog2 rm o) := by
  intro k sh w h hw
  cases h
  refine decodeWord_of_raw ?_ hw
  clear hw
  refine (decAlu_pack (by decide) (by decide)).trans ?_
  unfold decAluA
  exact (bind_ok (x := need _) (by with_unfolding_all rfl)).trans <|
    (bind_ok (only_ok (by cases rm <;> decide))).trans <|
    (bind_ok ((congrArg decRm (m_ok ((app_hi _ _ (by decide)).trans <|
    (app_lo _ _ (by decide)).trans app_all))).trans (decRm_bits _))).trans <| (bind_ok (ops1_enc o _ _ _)).trans <|
    (by with_unfolding_all rfl)
theorem Enc.ftanh (rm : Rm) (o : Ops1) : Enc.Statement (.ftanh rm o) := by
  intro k sh w h hw
  cases h
  refine decodeWord_of_raw ?_ hw
  clear hw
  refine (decAlu_pack (by decide) (by decide)).trans ?_
  unfold decAluA
  exact (bind_ok (x := need _) (by with_unfolding_all rfl)).trans <|
    (bind_ok (only_ok (by cases rm <;> decide))).trans <|
    (bind_ok ((congrArg decRm (m_ok ((app_hi _ _ (by decide)).trans <|
    (app_lo _ _ (by decide)).trans app_all))).trans (decRm_bits _))).trans <| (bind_ok (ops1_enc o _ _ _)).trans <|
    (by with_unfolding_all rfl)
theorem Enc.fsig (rm : Rm) (o : Ops1) : Enc.Statement (.fsig rm o) := by
  intro k sh w h hw
  cases h
  refine decodeWord_of_raw ?_ hw
  clear hw
  refine (decAlu_pack (by decide) (by decide)).trans ?_
  unfold decAluA
  exact (bind_ok (x := need _) (by with_unfolding_all rfl)).trans <|
    (bind_ok (only_ok (by cases rm <;> decide))).trans <|
    (bind_ok ((congrArg decRm (m_ok ((app_hi _ _ (by decide)).trans <|
    (app_lo _ _ (by decide)).trans app_all))).trans (decRm_bits _))).trans <| (bind_ok (ops1_enc o _ _ _)).trans <|
    (by with_unfolding_all rfl)
theorem Enc.fscale (rm : Rm) (o : Ops2) : Enc.Statement (.fscale rm o) := by
  intro k sh w h hw
  cases h
  refine decodeWord_of_raw ?_ hw
  clear hw
  refine (decAlu_pack (by decide) (by decide)).trans ?_
  unfold decAluA
  exact (bind_ok (x := need _) (by with_unfolding_all rfl)).trans <|
    (bind_ok (only_ok (by cases rm <;> decide))).trans <|
    (bind_ok ((congrArg decRm (m_ok ((app_hi _ _ (by decide)).trans <|
    (app_lo _ _ (by decide)).trans app_all))).trans (decRm_bits _))).trans <| (bind_ok (ops2_enc o _ _ _)).trans <|
    (by with_unfolding_all rfl)
theorem Enc.frnd (rm : Rm) (o : Ops1) : Enc.Statement (.frnd rm o) := by
  intro k sh w h hw
  cases h
  refine decodeWord_of_raw ?_ hw
  clear hw
  refine (decAlu_pack (by decide) (by decide)).trans ?_
  unfold decAluA
  exact (bind_ok (x := need _) (by with_unfolding_all rfl)).trans <|
    (bind_ok (only_ok (by cases rm <;> decide))).trans <|
    (bind_ok ((congrArg decRm (m_ok ((app_hi _ _ (by decide)).trans <|
    (app_lo _ _ (by decide)).trans app_all))).trans (decRm_bits _))).trans <| (bind_ok (ops1_enc o _ _ _)).trans <|
    (by with_unfolding_all rfl)
theorem Enc.f2i (rm : Rm) (sg : Bool) (o : Ops1) : Enc.Statement (.f2i rm sg o) := by
  intro k sh w h hw
  cases h
  refine decodeWord_of_raw ?_ hw
  clear hw
  refine (decAlu_pack (by decide) (by decide)).trans ?_
  unfold decAluA
  exact (bind_ok (x := need _) (by with_unfolding_all rfl)).trans <|
    (bind_ok (only_ok (by cases rm <;> cases sg <;> decide))).trans <|
    (bind_ok ((congrArg decRm (m_ok ((app_hi _ _ (by decide)).trans <| (app_hi _ _ (by decide)).trans <|
    (app_lo _ _ (by decide)).trans app_all))).trans (decRm_bits _))).trans <| (bind_ok (ops1_enc o _ _ _)).trans <|
    (by show Except.ok (Instr.f2i rm (BitVec.getLsbD ((0#2) ++ rm.bits ++ (0#3) ++ (BitVec.ofBool sg) : BitVec 8) 0) o) = _; rw [show BitVec.getLsbD ((0#2) ++ rm.bits ++ (0#3) ++ (BitVec.ofBool sg) : BitVec 8) 0 = sg from (by cases rm <;> cases sg <;> rfl)])
theorem Enc.i2f (rm : Rm) (sg : Bool) (o : Ops1) : Enc.Statement (.i2f rm sg o) := by
  intro k sh w h hw
  cases h
  refine decodeWord_of_raw ?_ hw
  clear hw
  refine (decAlu_pack (by decide) (by decide)).trans ?_
  unfold decAluA
  exact (bind_ok (x := need _) (by with_unfolding_all rfl)).trans <|
    (bind_ok (only_ok (by cases rm <;> cases sg <;> decide))).trans <|
    (bind_ok ((congrArg decRm (m_ok ((app_hi _ _ (by decide)).trans <| (app_hi _ _ (by decide)).trans <|
    (app_lo _ _ (by decide)).trans app_all))).trans (decRm_bits _))).trans <| (bind_ok (ops1_enc o _ _ _)).trans <|
    (by show Except.ok (Instr.i2f rm (BitVec.getLsbD ((0#2) ++ rm.bits ++ (0#3) ++ (BitVec.ofBool sg) : BitVec 8) 0) o) = _; rw [show BitVec.getLsbD ((0#2) ++ rm.bits ++ (0#3) ++ (BitVec.ofBool sg) : BitVec 8) 0 = sg from (by cases rm <;> cases sg <;> rfl)])
theorem Enc.cvt (form : CvtForm) (e1 : Bool) (rm : Rm) (o : Ops2) : Enc.Statement (.cvt form e1 rm o) := by
  intro k sh w h hw
  cases h
  refine decodeWord_of_raw ?_ hw
  clear hw
  refine (decAlu_pack (by decide) (by decide)).trans ?_
  unfold decAluA
  exact (bind_ok (x := need _) (by with_unfolding_all rfl)).trans <|
    (bind_ok (only_ok (by cases rm <;> cases e1 <;> cases form <;> decide))).trans <|
    (bind_ok ((congrArg decCvt (m_ok ((app_lo _ _ (by decide)).trans app_all))).trans (decCvt_bits _))).trans <|
    (bind_ok ((congrArg decRm (m_ok ((app_hi _ _ (by decide)).trans <| (app_hi _ _ (by decide)).trans <|
    (app_lo _ _ (by decide)).trans app_all))).trans (decRm_bits _))).trans <| (bind_ok (ops2_enc o _ _ _)).trans <|
    (by show Except.ok (Instr.cvt form (BitVec.getLsbD ((0#2) ++ rm.bits ++ (BitVec.ofBool e1) ++ form.bits : BitVec 8) 3) rm o) = _; rw [show BitVec.getLsbD ((0#2) ++ rm.bits ++ (BitVec.ofBool e1) ++ form.bits : BitVec 8) 3 = e1 from (by cases rm <;> cases e1 <;> cases form <;> rfl)])
theorem Enc.hadd2 (t : Half) (rm : Rm) (o : Ops2) : Enc.Statement (.hadd2 t rm o) := by
  intro k sh w h hw
  cases h
  refine decodeWord_of_raw ?_ hw
  clear hw
  refine (decAlu_pack (by decide) (by decide)).trans ?_
  unfold decAluA
  exact (bind_ok (x := need _) (by with_unfolding_all rfl)).trans <|
    (bind_ok (only_ok (by cases rm <;> cases t <;> decide))).trans <|
    (bind_ok ((congrArg decHalf (m_ok ((app_lo _ _ (by decide)).trans app_all))).trans (decHalf_bits _))).trans <|
    (bind_ok ((congrArg decRm (m_ok ((app_hi _ _ (by decide)).trans <| (app_hi _ _ (by decide)).trans <|
    (app_lo _ _ (by decide)).trans app_all))).trans (decRm_bits _))).trans <| (bind_ok (ops2_enc o _ _ _)).trans <|
    (by with_unfolding_all rfl)
theorem Enc.hmul2 (t : Half) (rm : Rm) (o : Ops2) : Enc.Statement (.hmul2 t rm o) := by
  intro k sh w h hw
  cases h
  refine decodeWord_of_raw ?_ hw
  clear hw
  refine (decAlu_pack (by decide) (by decide)).trans ?_
  unfold decAluA
  exact (bind_ok (x := need _) (by with_unfolding_all rfl)).trans <|
    (bind_ok (only_ok (by cases rm <;> cases t <;> decide))).trans <|
    (bind_ok ((congrArg decHalf (m_ok ((app_lo _ _ (by decide)).trans app_all))).trans (decHalf_bits _))).trans <|
    (bind_ok ((congrArg decRm (m_ok ((app_hi _ _ (by decide)).trans <| (app_hi _ _ (by decide)).trans <|
    (app_lo _ _ (by decide)).trans app_all))).trans (decRm_bits _))).trans <| (bind_ok (ops2_enc o _ _ _)).trans <|
    (by with_unfolding_all rfl)
theorem Enc.hfma2 (t : Half) (rm : Rm) (o : Ops3) : Enc.Statement (.hfma2 t rm o) := by
  intro k sh w h hw
  cases h
  refine decodeWord_of_raw ?_ hw
  clear hw
  refine (decAlu_pack (by decide) (by decide)).trans ?_
  unfold decAluA
  exact (bind_ok (x := need _) (by with_unfolding_all rfl)).trans <|
    (bind_ok (only_ok (by cases rm <;> cases t <;> decide))).trans <|
    (bind_ok ((congrArg decHalf (m_ok ((app_lo _ _ (by decide)).trans app_all))).trans (decHalf_bits _))).trans <|
    (bind_ok ((congrArg decRm (m_ok ((app_hi _ _ (by decide)).trans <| (app_hi _ _ (by decide)).trans <|
    (app_lo _ _ (by decide)).trans app_all))).trans (decRm_bits _))).trans <| (bind_ok (ops3_enc o _ _ _)).trans <|
    (by with_unfolding_all rfl)
theorem Enc.fdot2 (t : Half) (rm : Rm) (o : Ops3) : Enc.Statement (.fdot2 t rm o) := by
  intro k sh w h hw
  cases h
  refine decodeWord_of_raw ?_ hw
  clear hw
  refine (decAlu_pack (by decide) (by decide)).trans ?_
  unfold decAluA
  exact (bind_ok (x := need _) (by with_unfolding_all rfl)).trans <|
    (bind_ok (only_ok (by cases rm <;> cases t <;> decide))).trans <|
    (bind_ok ((congrArg decHalf (m_ok ((app_lo _ _ (by decide)).trans app_all))).trans (decHalf_bits _))).trans <|
    (bind_ok ((congrArg decRm (m_ok ((app_hi _ _ (by decide)).trans <| (app_hi _ _ (by decide)).trans <|
    (app_lo _ _ (by decide)).trans app_all))).trans (decRm_bits _))).trans <| (bind_ok (ops3_enc o _ _ _)).trans <|
    (by with_unfolding_all rfl)
theorem Enc.d8pack (n : BitVec 2) (inf : Bool) (sc : Bool) (o : Ops2) : Enc.Statement (.d8pack n inf sc o) := by
  intro k sh w h hw
  cases h
  refine decodeWord_of_raw ?_ hw
  clear hw
  refine (decAlu_pack (by decide) (by decide)).trans ?_
  unfold decAluA
  exact (bind_ok (x := need _) (by with_unfolding_all rfl)).trans <|
    (bind_ok (only_ok (by cases sc <;> cases inf <;> (revert n; decide)))).trans <|
    (bind_ok (ops2_enc o _ _ _)).trans <|
    (by show Except.ok (Instr.d8pack (BitVec.extractLsb' 0 2 ((0#4) ++ (BitVec.ofBool sc) ++ (BitVec.ofBool inf) ++ n : BitVec 8)) (BitVec.getLsbD ((0#4) ++ (BitVec.ofBool sc) ++ (BitVec.ofBool inf) ++ n : BitVec 8) 2) (BitVec.getLsbD ((0#4) ++ (BitVec.ofBool sc) ++ (BitVec.ofBool inf) ++ n : BitVec 8) 3) o) = _; rw [show BitVec.extractLsb' 0 2 ((0#4) ++ (BitVec.ofBool sc) ++ (BitVec.ofBool inf) ++ n : BitVec 8) = n from ((app_lo _ _ (by decide)).trans app_all), show BitVec.getLsbD ((0#4) ++ (BitVec.ofBool sc) ++ (BitVec.ofBool inf) ++ n : BitVec 8) 2 = inf from (by cases sc <;> cases inf <;> (revert n; decide)), show BitVec.getLsbD ((0#4) ++ (BitVec.ofBool sc) ++ (BitVec.ofBool inf) ++ n : BitVec 8) 3 = sc from (by cases sc <;> cases inf <;> (revert n; decide))])
theorem Enc.d8unpk (n : BitVec 2) (sc : Bool) (o : Ops2) : Enc.Statement (.d8unpk n sc o) := by
  intro k sh w h hw
  cases h
  refine decodeWord_of_raw ?_ hw
  clear hw
  refine (decAlu_pack (by decide) (by decide)).trans ?_
  unfold decAluA
  exact (bind_ok (x := need _) (by with_unfolding_all rfl)).trans <|
    (bind_ok (only_ok (by cases sc <;> (revert n; decide)))).trans <| (bind_ok (ops2_enc o _ _ _)).trans <|
    (by show Except.ok (Instr.d8unpk (BitVec.extractLsb' 0 2 ((0#4) ++ (BitVec.ofBool sc) ++ (0#1) ++ n : BitVec 8)) (BitVec.getLsbD ((0#4) ++ (BitVec.ofBool sc) ++ (0#1) ++ n : BitVec 8) 3) o) = _; rw [show BitVec.extractLsb' 0 2 ((0#4) ++ (BitVec.ofBool sc) ++ (0#1) ++ n : BitVec 8) = n from ((app_lo _ _ (by decide)).trans app_all), show BitVec.getLsbD ((0#4) ++ (BitVec.ofBool sc) ++ (0#1) ++ n : BitVec 8) 3 = sc from (by cases sc <;> (revert n; decide))])
theorem Enc.s8scale (o : Ops1) : Enc.Statement (.s8scale o) := by
  intro k sh w h hw
  cases h
  refine decodeWord_of_raw ?_ hw
  clear hw
  refine (decAlu_pack (by decide) (by decide)).trans ?_
  unfold decAluA
  exact (bind_ok (x := need _) (by with_unfolding_all rfl)).trans <| (bind_ok (only_ok (by decide))).trans <|
    (bind_ok (ops1_enc o _ _ _)).trans <| (by with_unfolding_all rfl)
theorem Enc.i8pack (n : BitVec 2) (rm : Rm) (o : Ops1) : Enc.Statement (.i8pack n rm o) := by
  intro k sh w h hw
  cases h
  refine decodeWord_of_raw ?_ hw
  clear hw
  refine (decAlu_pack (by decide) (by decide)).trans ?_
  unfold decAluA
  exact (bind_ok (x := need _) (by with_unfolding_all rfl)).trans <|
    (bind_ok (only_ok (by cases rm <;> (revert n; decide)))).trans <|
    (bind_ok ((congrArg decRm (m_ok ((app_hi _ _ (by decide)).trans <| (app_hi _ _ (by decide)).trans <|
    (app_lo _ _ (by decide)).trans app_all))).trans (decRm_bits _))).trans <| (bind_ok (ops1_enc o _ _ _)).trans <|
    (by show Except.ok (Instr.i8pack (BitVec.extractLsb' 0 2 ((0#2) ++ rm.bits ++ (0#2) ++ n : BitVec 8)) rm o) = _; rw [show BitVec.extractLsb' 0 2 ((0#2) ++ rm.bits ++ (0#2) ++ n : BitVec 8) = n from ((app_lo _ _ (by decide)).trans app_all)])
theorem Enc.i8unpk (n : BitVec 2) (i : Bool) (o : Ops1) : Enc.Statement (.i8unpk n i o) := by
  intro k sh w h hw
  cases h
  refine decodeWord_of_raw ?_ hw
  clear hw
  refine (decAlu_pack (by decide) (by decide)).trans ?_
  unfold decAluA
  exact (bind_ok (x := need _) (by with_unfolding_all rfl)).trans <|
    (bind_ok (only_ok (by cases i <;> (revert n; decide)))).trans <| (bind_ok (ops1_enc o _ _ _)).trans <|
    (by show Except.ok (Instr.i8unpk (BitVec.extractLsb' 0 2 ((0#5) ++ (BitVec.ofBool i) ++ n : BitVec 8)) (BitVec.getLsbD ((0#5) ++ (BitVec.ofBool i) ++ n : BitVec 8) 2) o) = _; rw [show BitVec.extractLsb' 0 2 ((0#5) ++ (BitVec.ofBool i) ++ n : BitVec 8) = n from ((app_lo _ _ (by decide)).trans app_all), show BitVec.getLsbD ((0#5) ++ (BitVec.ofBool i) ++ n : BitVec 8) 2 = i from (by cases i <;> (revert n; decide))])
theorem Enc.shfl (seg : Seg6) (o : Ops2) : Enc.Statement (.shfl seg o) := by
  intro k sh w h hw
  cases h
  refine decodeWord_of_raw ?_ hw
  clear hw
  refine (decAlu_pack (by decide) (by decide)).trans ?_
  unfold decAluA
  exact (bind_ok (x := need _) (by with_unfolding_all rfl)).trans <|
    (bind_ok (only_ok (by cases seg <;> decide))).trans <|
    (bind_ok ((congrArg decSeg6 (m_ok ((app_lo _ _ (by decide)).trans app_all))).trans (decSeg6_bits _))).trans <|
    (bind_ok (ops2_enc o _ _ _)).trans <| (by with_unfolding_all rfl)
theorem Enc.shup (seg : Seg6) (o : Ops2) : Enc.Statement (.shup seg o) := by
  intro k sh w h hw
  cases h
  refine decodeWord_of_raw ?_ hw
  clear hw
  refine (decAlu_pack (by decide) (by decide)).trans ?_
  unfold decAluA
  exact (bind_ok (x := need _) (by with_unfolding_all rfl)).trans <|
    (bind_ok (only_ok (by cases seg <;> decide))).trans <|
    (bind_ok ((congrArg decSeg6 (m_ok ((app_lo _ _ (by decide)).trans app_all))).trans (decSeg6_bits _))).trans <|
    (bind_ok (ops2_enc o _ _ _)).trans <| (by with_unfolding_all rfl)
theorem Enc.shdn (seg : Seg6) (o : Ops2) : Enc.Statement (.shdn seg o) := by
  intro k sh w h hw
  cases h
  refine decodeWord_of_raw ?_ hw
  clear hw
  refine (decAlu_pack (by decide) (by decide)).trans ?_
  unfold decAluA
  exact (bind_ok (x := need _) (by with_unfolding_all rfl)).trans <|
    (bind_ok (only_ok (by cases seg <;> decide))).trans <|
    (bind_ok ((congrArg decSeg6 (m_ok ((app_lo _ _ (by decide)).trans app_all))).trans (decSeg6_bits _))).trans <|
    (bind_ok (ops2_enc o _ _ _)).trans <| (by with_unfolding_all rfl)
theorem Enc.shx (seg : Seg6) (o : Ops2) : Enc.Statement (.shx seg o) := by
  intro k sh w h hw
  cases h
  refine decodeWord_of_raw ?_ hw
  clear hw
  refine (decAlu_pack (by decide) (by decide)).trans ?_
  unfold decAluA
  exact (bind_ok (x := need _) (by with_unfolding_all rfl)).trans <|
    (bind_ok (only_ok (by cases seg <;> decide))).trans <|
    (bind_ok ((congrArg decSeg6 (m_ok ((app_lo _ _ (by decide)).trans app_all))).trans (decSeg6_bits _))).trans <|
    (bind_ok (ops2_enc o _ _ _)).trans <| (by with_unfolding_all rfl)
theorem Enc.bcast (o : Ops2) : Enc.Statement (.bcast o) := by
  intro k sh w h hw
  cases h
  refine decodeWord_of_raw ?_ hw
  clear hw
  refine (decAlu_pack (by decide) (by decide)).trans ?_
  unfold decAluA
  exact (bind_ok (x := need _) (by with_unfolding_all rfl)).trans <| (bind_ok (only_ok (by decide))).trans <|
    (bind_ok (ops2_enc o _ _ _)).trans <| (by with_unfolding_all rfl)
theorem Enc.redadd (ty : RTy) (seg : Seg4) (rm : Rm) (o : Ops1) : Enc.Statement (.redadd ty seg rm o) := by
  intro k sh w h hw
  cases h
  refine decodeWord_of_raw ?_ hw
  clear hw
  refine (decAlu_pack (by decide) (by decide)).trans ?_
  unfold decAluA
  exact (bind_ok (x := need _) (by with_unfolding_all rfl)).trans <|
    (bind_ok (only_ok (by cases rm <;> cases seg <;> cases ty <;> decide))).trans <|
    (bind_ok ((congrArg decRTy (m_ok ((app_lo _ _ (by decide)).trans app_all))).trans (decRTy_bits _))).trans <|
    (bind_ok ((congrArg decSeg4 (m_ok ((app_hi _ _ (by decide)).trans <|
    (app_lo _ _ (by decide)).trans app_all))).trans (decSeg4_bits _))).trans <|
    (bind_ok ((congrArg decRm (m_ok ((app_hi _ _ (by decide)).trans <| (app_hi _ _ (by decide)).trans <|
    (app_lo _ _ (by decide)).trans app_all))).trans (decRm_bits _))).trans <| (bind_ok (ops1_enc o _ _ _)).trans <|
    (by with_unfolding_all rfl)
theorem Enc.redmin (ty : RTy) (seg : Seg4) (o : Ops1) : Enc.Statement (.redmin ty seg o) := by
  intro k sh w h hw
  cases h
  refine decodeWord_of_raw ?_ hw
  clear hw
  refine (decAlu_pack (by decide) (by decide)).trans ?_
  unfold decAluA
  exact (bind_ok (x := need _) (by with_unfolding_all rfl)).trans <|
    (bind_ok (only_ok (by cases seg <;> cases ty <;> decide))).trans <|
    (bind_ok ((congrArg decRTy (m_ok ((app_lo _ _ (by decide)).trans app_all))).trans (decRTy_bits _))).trans <|
    (bind_ok ((congrArg decSeg4 (m_ok ((app_hi _ _ (by decide)).trans <|
    (app_lo _ _ (by decide)).trans app_all))).trans (decSeg4_bits _))).trans <| (bind_ok (ops1_enc o _ _ _)).trans <|
    (by with_unfolding_all rfl)
theorem Enc.redmax (ty : RTy) (seg : Seg4) (o : Ops1) : Enc.Statement (.redmax ty seg o) := by
  intro k sh w h hw
  cases h
  refine decodeWord_of_raw ?_ hw
  clear hw
  refine (decAlu_pack (by decide) (by decide)).trans ?_
  unfold decAluA
  exact (bind_ok (x := need _) (by with_unfolding_all rfl)).trans <|
    (bind_ok (only_ok (by cases seg <;> cases ty <;> decide))).trans <|
    (bind_ok ((congrArg decRTy (m_ok ((app_lo _ _ (by decide)).trans app_all))).trans (decRTy_bits _))).trans <|
    (bind_ok ((congrArg decSeg4 (m_ok ((app_hi _ _ (by decide)).trans <|
    (app_lo _ _ (by decide)).trans app_all))).trans (decSeg4_bits _))).trans <| (bind_ok (ops1_enc o _ _ _)).trans <|
    (by with_unfolding_all rfl)
theorem Enc.redmini (ty : RTy) (seg : Seg4) (o : Ops1) : Enc.Statement (.redmini ty seg o) := by
  intro k sh w h hw
  cases h
  refine decodeWord_of_raw ?_ hw
  clear hw
  refine (decAlu_pack (by decide) (by decide)).trans ?_
  unfold decAluA
  exact (bind_ok (x := need _) (by with_unfolding_all rfl)).trans <|
    (bind_ok (only_ok (by cases seg <;> cases ty <;> decide))).trans <|
    (bind_ok ((congrArg decRTy (m_ok ((app_lo _ _ (by decide)).trans app_all))).trans (decRTy_bits _))).trans <|
    (bind_ok ((congrArg decSeg4 (m_ok ((app_hi _ _ (by decide)).trans <|
    (app_lo _ _ (by decide)).trans app_all))).trans (decSeg4_bits _))).trans <| (bind_ok (ops1_enc o _ _ _)).trans <|
    (by with_unfolding_all rfl)
theorem Enc.redmaxi (ty : RTy) (seg : Seg4) (o : Ops1) : Enc.Statement (.redmaxi ty seg o) := by
  intro k sh w h hw
  cases h
  refine decodeWord_of_raw ?_ hw
  clear hw
  refine (decAlu_pack (by decide) (by decide)).trans ?_
  unfold decAluA
  exact (bind_ok (x := need _) (by with_unfolding_all rfl)).trans <|
    (bind_ok (only_ok (by cases seg <;> cases ty <;> decide))).trans <|
    (bind_ok ((congrArg decRTy (m_ok ((app_lo _ _ (by decide)).trans app_all))).trans (decRTy_bits _))).trans <|
    (bind_ok ((congrArg decSeg4 (m_ok ((app_hi _ _ (by decide)).trans <|
    (app_lo _ _ (by decide)).trans app_all))).trans (decSeg4_bits _))).trans <| (bind_ok (ops1_enc o _ _ _)).trans <|
    (by with_unfolding_all rfl)
theorem Enc.scan (op : ScanOp) (ty : RTy) (seg : Seg4) (rm : Rm) (o : Ops1) : Enc.Statement (.scan op ty seg rm o) := by
  intro k sh w h hw
  cases h
  refine decodeWord_of_raw ?_ hw
  clear hw
  refine (decAlu_pack (by decide) (by decide)).trans ?_
  unfold decAluA
  exact (bind_ok (x := need _) (by with_unfolding_all rfl)).trans <|
    (bind_ok (only_ok (by cases op <;> cases rm <;> cases seg <;> cases ty <;> decide))).trans <|
    (bind_ok ((congrArg decScanOp (m_ok ((app_hi _ _ (by decide)).trans <| (app_hi _ _ (by decide)).trans <|
    (app_hi _ _ (by decide)).trans <| app_all))).trans (decScanOp_bits _))).trans <|
    (bind_ok ((congrArg decRTy (m_ok ((app_lo _ _ (by decide)).trans app_all))).trans (decRTy_bits _))).trans <|
    (bind_ok ((congrArg decSeg4 (m_ok ((app_hi _ _ (by decide)).trans <|
    (app_lo _ _ (by decide)).trans app_all))).trans (decSeg4_bits _))).trans <|
    (bind_ok ((congrArg decRm (m_ok ((app_hi _ _ (by decide)).trans <| (app_hi _ _ (by decide)).trans <|
    (app_lo _ _ (by decide)).trans app_all))).trans (decRm_bits _))).trans <| (bind_ok (ops1_enc o _ _ _)).trans <|
    (by with_unfolding_all rfl)
theorem Enc.ballot (o : Ops1) : Enc.Statement (.ballot o) := by
  intro k sh w h hw
  cases h
  refine decodeWord_of_raw ?_ hw
  clear hw
  refine (decAlu_pack (by decide) (by decide)).trans ?_
  unfold decAluA
  exact (bind_ok (x := need _) (by with_unfolding_all rfl)).trans <| (bind_ok (only_ok (by decide))).trans <|
    (bind_ok (ops1_enc o _ _ _)).trans <| (by with_unfolding_all rfl)
theorem Enc.matchLanes (o : Ops1) : Enc.Statement (.matchLanes o) := by
  intro k sh w h hw
  cases h
  refine decodeWord_of_raw ?_ hw
  clear hw
  refine (decAlu_pack (by decide) (by decide)).trans ?_
  unfold decAluA
  exact (bind_ok (x := need _) (by with_unfolding_all rfl)).trans <| (bind_ok (only_ok (by decide))).trans <|
    (bind_ok (ops1_enc o _ _ _)).trans <| (by with_unfolding_all rfl)
theorem Enc.reorder (sg : Bool) (a : Src) (b : Src) (m : BitVec 3) : Enc.Statement (.reorder sg a b m) := by
  intro k sh w h hw
  cases h
  refine decodeWord_of_raw ?_ hw
  clear hw
  refine (decAlu_pack (by decide) (by decide)).trans ?_
  unfold decAluA
  exact (bind_ok (x := need _) (by with_unfolding_all rfl)).trans <|
    (bind_ok (only_ok (by cases sg <;> decide))).trans <|
    (bind_ok (x := need _) (by with_unfolding_all rfl)).trans <| (bind_ok (decSrc_enc _)).trans <|
    (bind_ok (decSrc_enc _)).trans <|
    (by show Except.ok (Instr.reorder (BitVec.getLsbD ((0#7) ++ bb sg : BitVec 8) 0) a b m) = _; rw [show BitVec.getLsbD ((0#7) ++ bb sg : BitVec 8) 0 = sg from (by cases sg <;> rfl)])
theorem Enc.reorderMove (blk : Nat) : Enc.Statement (.reorderMove blk) := fun _ _ _ h => nomatch h
theorem Enc.xlock (m : BitVec 3) : Enc.Statement (.xlock m) := by
  intro k sh w h hw
  cases h
  refine decodeWord_of_raw ?_ hw
  clear hw
  refine (decAlu_pack (by decide) (by decide)).trans ?_
  unfold decAluA
  exact (bind_ok (x := need _) (by with_unfolding_all rfl)).trans <| (bind_ok (only_ok (by decide))).trans <|
    (bind_ok (x := need _) (by with_unfolding_all rfl)).trans <|
    (if_neg (show ¬ BitVec.getLsbD (0 : BitVec 8) 0 = true by decide)).trans <|
    (bind_ok (x := need _) (by with_unfolding_all rfl)).trans <| (by with_unfolding_all rfl)
theorem Enc.xlockTry (d : BitVec 8) (m : BitVec 3) : Enc.Statement (.xlockTry d m) := by
  intro k sh w h hw
  cases h
  refine decodeWord_of_raw ?_ hw
  clear hw
  refine (decAlu_pack (by decide) (by decide)).trans ?_
  unfold decAluA
  exact (bind_ok (x := need _) (by with_unfolding_all rfl)).trans <| (bind_ok (only_ok (by decide))).trans <|
    (bind_ok (x := need _) (by with_unfolding_all rfl)).trans <|
    (if_pos (show BitVec.getLsbD (1 : BitVec 8) 0 = true by decide)).trans <| (bind_ok (decS_enc _)).trans <|
    (by with_unfolding_all rfl)
theorem Enc.xfree (m : BitVec 3) : Enc.Statement (.xfree m) := by
  intro k sh w h hw
  cases h
  refine decodeWord_of_raw ?_ hw
  clear hw
  refine (decAlu_pack (by decide) (by decide)).trans ?_
  unfold decAluA
  exact (bind_ok (x := need _) (by with_unfolding_all rfl)).trans <| (bind_ok (only_ok (by decide))).trans <|
    (bind_ok (x := need _) (by with_unfolding_all rfl)).trans <| (by with_unfolding_all rfl)
theorem Enc.rngkey (a : SImm) (b : SImm) (m : BitVec 3) : Enc.Statement (.rngkey a b m) := by
  intro k sh w h hw
  cases h
  refine decodeWord_of_raw ?_ hw
  clear hw
  refine (decAlu_pack (by decide) (by decide)).trans ?_
  unfold decAluA
  exact (bind_ok (x := need _) (by with_unfolding_all rfl)).trans <| (bind_ok (only_ok (by decide))).trans <|
    (bind_ok (x := need _) (by with_unfolding_all rfl)).trans <|
    (bind_ok (x := need _) (by with_unfolding_all rfl)).trans <| (bind_ok (decSImm_enc _)).trans <|
    (bind_ok (decSImm_enc _)).trans <| (by with_unfolding_all rfl)
theorem Enc.rngkeyGet (d : BitVec 8) (m : BitVec 3) : Enc.Statement (.rngkeyGet d m) := by
  intro k sh w h hw
  cases h
  refine decodeWord_of_raw ?_ hw
  clear hw
  refine (decAlu_pack (by decide) (by decide)).trans ?_
  unfold decAluA
  exact (bind_ok (x := need _) (by with_unfolding_all rfl)).trans <| (bind_ok (only_ok (by decide))).trans <|
    (bind_ok (x := need _) (by with_unfolding_all rfl)).trans <|
    (bind_ok (x := need _) (by with_unfolding_all rfl)).trans <| (bind_ok (decS_enc _)).trans <|
    (by with_unfolding_all rfl)
theorem Enc.rngkeyGetk (d : BitVec 8) (m : BitVec 3) : Enc.Statement (.rngkeyGetk d m) := by
  intro k sh w h hw
  cases h
  refine decodeWord_of_raw ?_ hw
  clear hw
  refine (decAlu_pack (by decide) (by decide)).trans ?_
  unfold decAluA
  exact (bind_ok (x := need _) (by with_unfolding_all rfl)).trans <| (bind_ok (only_ok (by decide))).trans <|
    (bind_ok (x := need _) (by with_unfolding_all rfl)).trans <|
    (bind_ok (x := need _) (by with_unfolding_all rfl)).trans <| (bind_ok (decS_enc _)).trans <|
    (by with_unfolding_all rfl)
theorem Enc.rngnext (o : Ops0) : Enc.Statement (.rngnext o) := by
  intro k sh w h hw
  cases h
  refine decodeWord_of_raw ?_ hw
  clear hw
  refine (decAlu_pack (by decide) (by decide)).trans ?_
  unfold decAluA
  exact (bind_ok (x := need _) (by with_unfolding_all rfl)).trans <| (bind_ok (only_ok (by decide))).trans <|
    (bind_ok (ops0_enc o _ _ _)).trans <| (by with_unfolding_all rfl)
theorem Enc.rngunif (o : Ops0) : Enc.Statement (.rngunif o) := by
  intro k sh w h hw
  cases h
  refine decodeWord_of_raw ?_ hw
  clear hw
  refine (decAlu_pack (by decide) (by decide)).trans ?_
  unfold decAluA
  exact (bind_ok (x := need _) (by with_unfolding_all rfl)).trans <| (bind_ok (only_ok (by decide))).trans <|
    (bind_ok (ops0_enc o _ _ _)).trans <| (by with_unfolding_all rfl)
theorem Enc.gumbel (rm : Rm) (o : Ops0) : Enc.Statement (.gumbel rm o) := by
  intro k sh w h hw
  cases h
  refine decodeWord_of_raw ?_ hw
  clear hw
  refine (decAlu_pack (by decide) (by decide)).trans ?_
  unfold decAluA
  exact (bind_ok (x := need _) (by with_unfolding_all rfl)).trans <|
    (bind_ok (only_ok (by cases rm <;> decide))).trans <|
    (bind_ok ((congrArg decRm (m_ok ((app_hi _ _ (by decide)).trans <|
    (app_lo _ _ (by decide)).trans app_all))).trans (decRm_bits _))).trans <| (bind_ok (ops0_enc o _ _ _)).trans <|
    (by with_unfolding_all rfl)
theorem Enc.samplecat (o : Ops2) : Enc.Statement (.samplecat o) := by
  intro k sh w h hw
  cases h
  refine decodeWord_of_raw ?_ hw
  clear hw
  refine (decAlu_pack (by decide) (by decide)).trans ?_
  unfold decAluA
  exact (bind_ok (x := need _) (by with_unfolding_all rfl)).trans <| (bind_ok (only_ok (by decide))).trans <|
    (bind_ok (ops2_enc o _ _ _)).trans <| (by with_unfolding_all rfl)
theorem Enc.topkthr (o : Ops2) : Enc.Statement (.topkthr o) := by
  intro k sh w h hw
  cases h
  refine decodeWord_of_raw ?_ hw
  clear hw
  refine (decAlu_pack (by decide) (by decide)).trans ?_
  unfold decAluA
  exact (bind_ok (x := need _) (by with_unfolding_all rfl)).trans <| (bind_ok (only_ok (by decide))).trans <|
    (bind_ok (ops2_enc o _ _ _)).trans <| (by with_unfolding_all rfl)
theorem Enc.jmp (off : BitVec 32) : Enc.Statement (.jmp off) := by
  intro k sh w h hw
  cases h
  refine decodeWord_of_raw ?_ hw
  clear hw
  show decFlow _ = _
  unfold decFlow encJ
  rw [FmtJ.unpack_pack]
  exact (bind_ok (x := need _) (by with_unfolding_all rfl)).trans <| (by with_unfolding_all rfl)
theorem Enc.jsc (z : Bool) (c : Src) (off : BitVec 32) : Enc.Statement (.jsc z c off) := by
  intro k sh w h hw
  cases h
  refine decodeWord_of_raw ?_ hw
  clear hw
  show decFlow _ = _
  unfold decFlow encJ
  rw [FmtJ.unpack_pack]
  exact (bind_ok (need_ok (by cases z <;> with_unfolding_all rfl))).trans <| (bind_ok (decSrc_enc _)).trans <|
    (by show Except.ok (Instr.jsc (BitVec.getLsbD ((0#3) ++ bb z : BitVec 4) 0) c off) = _; rw [show BitVec.getLsbD ((0#3) ++ bb z : BitVec 4) 0 = z from (by cases z <;> rfl)])
theorem Enc.jv (z : Bool) (c : Src) (off : BitVec 32) : Enc.Statement (.jv z c off) := by
  intro k sh w h hw
  cases h
  refine decodeWord_of_raw ?_ hw
  clear hw
  show decFlow _ = _
  unfold decFlow encJ
  rw [FmtJ.unpack_pack]
  exact (bind_ok (need_ok (by cases z <;> with_unfolding_all rfl))).trans <| (bind_ok (decSrc_enc _)).trans <|
    (by show Except.ok (Instr.jv (BitVec.getLsbD ((0#3) ++ bb z : BitVec 4) 0) c off) = _; rw [show BitVec.getLsbD ((0#3) ++ bb z : BitVec 4) 0 = z from (by cases z <;> rfl)])
theorem Enc.jany (z : Bool) (c : Src) (off : BitVec 32) : Enc.Statement (.jany z c off) := by
  intro k sh w h hw
  cases h
  refine decodeWord_of_raw ?_ hw
  clear hw
  show decFlow _ = _
  unfold decFlow encJ
  rw [FmtJ.unpack_pack]
  exact (bind_ok (need_ok (by cases z <;> with_unfolding_all rfl))).trans <| (bind_ok (decSrc_enc _)).trans <|
    (by show Except.ok (Instr.jany (BitVec.getLsbD ((0#3) ++ bb z : BitVec 4) 0) c off) = _; rw [show BitVec.getLsbD ((0#3) ++ bb z : BitVec 4) 0 = z from (by cases z <;> rfl)])
theorem Enc.jall (z : Bool) (c : Src) (off : BitVec 32) : Enc.Statement (.jall z c off) := by
  intro k sh w h hw
  cases h
  refine decodeWord_of_raw ?_ hw
  clear hw
  show decFlow _ = _
  unfold decFlow encJ
  rw [FmtJ.unpack_pack]
  exact (bind_ok (need_ok (by cases z <;> with_unfolding_all rfl))).trans <| (bind_ok (decSrc_enc _)).trans <|
    (by show Except.ok (Instr.jall (BitVec.getLsbD ((0#3) ++ bb z : BitVec 4) 0) c off) = _; rw [show BitVec.getLsbD ((0#3) ++ bb z : BitVec 4) 0 = z from (by cases z <;> rfl)])
theorem Enc.jind (p : Dst) : Enc.Statement (.jind p) := by
  intro k sh w h hw
  cases h
  refine decodeWord_of_raw ?_ hw
  clear hw
  show decFlow _ = _
  unfold decFlow encJ
  rw [FmtJ.unpack_pack]
  exact (bind_ok (x := need _) (by with_unfolding_all rfl)).trans <| (bind_ok (decDst_enc _)).trans <|
    (by with_unfolding_all rfl)
theorem Enc.call (l : BitVec 8) (off : BitVec 32) : Enc.Statement (.call l off) := by
  intro k sh w h hw
  cases h
  refine decodeWord_of_raw ?_ hw
  clear hw
  show decFlow _ = _
  unfold decFlow encJ
  rw [FmtJ.unpack_pack]
  exact (bind_ok (x := need _) (by with_unfolding_all rfl)).trans <| (bind_ok (decV_enc _)).trans <|
    (by with_unfolding_all rfl)
theorem Enc.calli (p : Dst) (l : BitVec 8) : Enc.Statement (.calli p l) := by
  intro k sh w h hw
  cases h
  refine decodeWord_of_raw ?_ hw
  clear hw
  show decFlow _ = _
  unfold decFlow encJ
  rw [FmtJ.unpack_pack]
  exact (bind_ok (x := need _) (by with_unfolding_all rfl)).trans <| (bind_ok (decDst_enc _)).trans <|
    (bind_ok (decV_enc _)).trans <| (by with_unfolding_all rfl)
theorem Enc.ret (p : Dst) : Enc.Statement (.ret p) := by
  intro k sh w h hw
  cases h
  refine decodeWord_of_raw ?_ hw
  clear hw
  show decFlow _ = _
  unfold decFlow encJ
  rw [FmtJ.unpack_pack]
  exact (bind_ok (x := need _) (by with_unfolding_all rfl)).trans <| (bind_ok (decDst_enc _)).trans <|
    (by with_unfolding_all rfl)
theorem Enc.meet (l : BitVec 8) (off : BitVec 32) : Enc.Statement (.meet l off) := by
  intro k sh w h hw
  cases h
  refine decodeWord_of_raw ?_ hw
  clear hw
  show decFlow _ = _
  unfold decFlow encJ
  rw [FmtJ.unpack_pack]
  exact (bind_ok (x := need _) (by with_unfolding_all rfl)).trans <| (bind_ok (decV_enc _)).trans <|
    (if_neg (show ¬ BitVec.getLsbD (0 : BitVec 4) 0 = true by decide)).trans <| (by with_unfolding_all rfl)
theorem Enc.meetPop (l : BitVec 8) : Enc.Statement (.meetPop l) := by
  intro k sh w h hw
  cases h
  refine decodeWord_of_raw ?_ hw
  clear hw
  show decFlow _ = _
  unfold decFlow encJ
  rw [FmtJ.unpack_pack]
  exact (bind_ok (x := need _) (by with_unfolding_all rfl)).trans <| (bind_ok (decV_enc _)).trans <|
    (if_pos (show BitVec.getLsbD (1 : BitVec 4) 0 = true by decide)).trans <|
    (bind_ok (x := need _) (by with_unfolding_all rfl)).trans <| (by with_unfolding_all rfl)
theorem Enc.yield : Enc.Statement (.yield) := by
  intro k sh w h hw
  cases h
  refine decodeWord_of_raw ?_ hw
  clear hw
  with_unfolding_all rfl
theorem Enc.exit : Enc.Statement (.exit) := by
  intro k sh w h hw
  cases h
  refine decodeWord_of_raw ?_ hw
  clear hw
  with_unfolding_all rfl
theorem Enc.wait (mask : BitVec 15) : Enc.Statement (.wait mask) := by
  intro k sh w h hw
  cases h
  refine decodeWord_of_raw ?_ hw
  clear hw
  have h0 : ((0#17) ++ mask : BitVec 32).extractLsb' 15 17 = 0 := (app_hi _ _ (by decide)).trans app_all
  have h1 : ((0#17) ++ mask : BitVec 32).extractLsb' 0 15 = mask := (app_lo _ _ (by decide)).trans app_all
  show decFlow _ = _
  unfold decFlow encJ
  rw [FmtJ.unpack_pack]
  exact (bind_ok (need_ok (and_ok (and_ok (and_ok (by with_unfolding_all rfl) (by with_unfolding_all rfl)) (eq_zero h0))
    (by with_unfolding_all rfl)))).trans <| congrArg (fun x => (Except.ok (Instr.wait x) : Except Reject Instr)) h1
theorem Enc.nop : Enc.Statement (.nop) := by
  intro k sh w h hw
  cases h
  refine decodeWord_of_raw ?_ hw
  clear hw
  with_unfolding_all rfl
theorem Enc.trap (n : BitVec 8) : Enc.Statement (.trap n) := by
  intro k sh w h hw
  cases h
  refine decodeWord_of_raw ?_ hw
  clear hw
  have h0 : ((0#24) ++ n : BitVec 32).extractLsb' 8 24 = 0 := (app_hi _ _ (by decide)).trans app_all
  have h1 : ((0#24) ++ n : BitVec 32).extractLsb' 0 8 = n := (app_lo _ _ (by decide)).trans app_all
  show decFlow _ = _
  unfold decFlow encJ
  rw [FmtJ.unpack_pack]
  exact (bind_ok (need_ok (and_ok (and_ok (and_ok (by with_unfolding_all rfl) (by with_unfolding_all rfl)) (eq_zero h0))
    (by with_unfolding_all rfl)))).trans <| congrArg (fun x => (Except.ok (Instr.trap x) : Except Reject Instr)) h1
theorem Enc.loop (n : BitVec 8) (off : BitVec 32) : Enc.Statement (.loop n off) := by
  intro k sh w h hw
  cases h
  refine decodeWord_of_raw ?_ hw
  clear hw
  show decFlow _ = _
  unfold decFlow encJ
  rw [FmtJ.unpack_pack]
  exact (bind_ok (x := need _) (by with_unfolding_all rfl)).trans <| (bind_ok (decS_enc _)).trans <|
    (by with_unfolding_all rfl)
theorem Enc.ld (f : MemF) (off : BitVec 12) (e : BitVec 3) (g : BitVec 2) : Enc.Statement (.ld f off e g) := by
  intro k sh w h hw
  cases h
  refine decodeWord_of_raw ?_ hw
  clear hw
  show decMem _ = _
  unfold decMem MemF.enc
  rw [FmtM.unpack_pack]
  exact (bind_ok (memF_enc f _ _ _ _)).trans <| (by with_unfolding_all rfl)
theorem Enc.st (f : MemF) (off : BitVec 12) (e : BitVec 3) (g : BitVec 2) : Enc.Statement (.st f off e g) := by
  intro k sh w h hw
  cases h
  refine decodeWord_of_raw ?_ hw
  clear hw
  show decMem _ = _
  unfold decMem MemF.enc
  rw [FmtM.unpack_pack]
  exact (bind_ok (memF_enc f _ _ _ _)).trans <| (by with_unfolding_all rfl)
theorem Enc.lds (f : MemF) (off : BitVec 12) : Enc.Statement (.lds f off) := by
  intro k sh w h hw
  cases h
  refine decodeWord_of_raw ?_ hw
  clear hw
  show decMem _ = _
  unfold decMem MemF.enc
  rw [FmtM.unpack_pack]
  exact (bind_ok (x := need _) (by with_unfolding_all rfl)).trans <| (bind_ok (memF_enc f _ _ _ _)).trans <|
    (by with_unfolding_all rfl)
theorem Enc.sts (f : MemF) (off : BitVec 12) : Enc.Statement (.sts f off) := by
  intro k sh w h hw
  cases h
  refine decodeWord_of_raw ?_ hw
  clear hw
  show decMem _ = _
  unfold decMem MemF.enc
  rw [FmtM.unpack_pack]
  exact (bind_ok (x := need _) (by with_unfolding_all rfl)).trans <| (bind_ok (memF_enc f _ _ _ _)).trans <|
    (by with_unfolding_all rfl)
theorem Enc.ldc (f : MemF) (off : BitVec 12) (e : BitVec 3) : Enc.Statement (.ldc f off e) := by
  intro k sh w h hw
  cases h
  refine decodeWord_of_raw ?_ hw
  clear hw
  show decMem _ = _
  unfold decMem MemF.enc
  rw [FmtM.unpack_pack]
  exact (bind_ok (x := need _) (by with_unfolding_all rfl)).trans <| (bind_ok (memF_enc f _ _ _ _)).trans <|
    (by with_unfolding_all rfl)
theorem Enc.ldw (f : MemF) (c : Src) (e : BitVec 3) (g : BitVec 2) : Enc.Statement (.ldw f c e g) := by
  intro k sh w h hw
  cases h
  refine decodeWord_of_raw ?_ hw
  clear hw
  show decMem _ = _
  unfold decMem MemF.enc
  rw [FmtM.unpack_pack]
  exact (bind_ok (memF_enc f _ _ _ _)).trans <| (bind_ok (data2_enc _ _ _ _ _ _ _ _ _ _ _ _ _)).trans <|
    (by with_unfolding_all rfl)
theorem Enc.atom (op : AtomOp) (pl : Place) (f : MemF) (a : Src) : Enc.Statement (.atom op pl f a) := by
  intro k sh w h hw
  cases h
  refine decodeWord_of_raw ?_ hw
  clear hw
  show decMem _ = _
  unfold decMem MemF.enc
  rw [FmtM.unpack_pack]
  exact (bind_ok (memF_enc f _ _ _ _)).trans <| (bind_ok (data2_enc _ _ _ _ _ _ _ _ _ _ _ _ _)).trans <|
    (bind_ok (decAtom_bits _)).trans <| (bind_ok (decPlace_bits _)).trans <| (by with_unfolding_all rfl)
theorem Enc.atomcas (f : MemF) (n : Src) : Enc.Statement (.atomcas f n) := by
  intro k sh w h hw
  cases h
  refine decodeWord_of_raw ?_ hw
  clear hw
  show decMem _ = _
  unfold decMem MemF.enc
  rw [FmtM.unpack_pack]
  exact (bind_ok (x := need _) (by with_unfolding_all rfl)).trans <| (bind_ok (memF_enc f _ _ _ _)).trans <|
    (bind_ok (data2_enc _ _ _ _ _ _ _ _ _ _ _ _ _)).trans <| (by with_unfolding_all rfl)
theorem Enc.red (op : AtomOp) (pl : Place) (f : MemF) (off : BitVec 12) : Enc.Statement (.red op pl f off) := by
  intro k sh w h hw
  cases h
  refine decodeWord_of_raw ?_ hw
  clear hw
  show decMem _ = _
  unfold decMem MemF.enc
  rw [FmtM.unpack_pack]
  exact (bind_ok (memF_enc f _ _ _ _)).trans <| (bind_ok (decAtom_bits _)).trans <|
    (bind_ok (decPlace_bits _)).trans <| (by with_unfolding_all rfl)
theorem Enc.cred (f : MemF) (off : BitVec 12) : Enc.Statement (.cred f off) := by
  intro k sh w h hw
  cases h
  refine decodeWord_of_raw ?_ hw
  clear hw
  show decMem _ = _
  unfold decMem MemF.enc
  rw [FmtM.unpack_pack]
  exact (bind_ok (x := need _) (by with_unfolding_all rfl)).trans <| (bind_ok (memF_enc f _ _ _ _)).trans <|
    (by with_unfolding_all rfl)
theorem Enc.crdecl (op : AtomOp) (len : BitVec 8) (base : BitVec 8) (fmt : MFmt) (m : BitVec 3) : Enc.Statement (.crdecl op len base fmt m) := by
  intro k sh w h hw
  cases h
  refine decodeWord_of_raw ?_ hw
  clear hw
  show decMem _ = _
  unfold decMem
  rw [FmtM.unpack_pack]
  exact (bind_ok (x := need _) (by with_unfolding_all rfl)).trans <| (bind_ok (decS_enc _)).trans <|
    (bind_ok (decS_enc _)).trans <| (bind_ok (decAtom_bits _)).trans <| (bind_ok (decMFmt_bits _)).trans <|
    (by with_unfolding_all rfl)
theorem Enc.crfree (base : BitVec 8) (m : BitVec 3) : Enc.Statement (.crfree base m) := by
  intro k sh w h hw
  cases h
  refine decodeWord_of_raw ?_ hw
  clear hw
  show decMem _ = _
  unfold decMem
  rw [FmtM.unpack_pack]
  exact (bind_ok (x := need _) (by with_unfolding_all rfl)).trans <| (bind_ok (decS_enc _)).trans <|
    (by with_unfolding_all rfl)
theorem Enc.fence (ord : Ord) (scope : Scope) (m : BitVec 3) : Enc.Statement (.fence ord scope m) := by
  intro k sh w h hw
  cases h
  refine decodeWord_of_raw ?_ hw
  clear hw
  show decMem _ = _
  unfold decMem
  rw [FmtM.unpack_pack]
  exact (bind_ok (x := need _) (by with_unfolding_all rfl)).trans <| (bind_ok (decOrd_bits _)).trans <|
    (bind_ok (decScope_bits _)).trans <| (by with_unfolding_all rfl)
theorem Enc.flushr (len : BitVec 8) (base : BitVec 8) (scope : Scope) (tok : BitVec 4) (m : BitVec 3) : Enc.Statement (.flushr len base scope tok m) := by
  intro k sh w h hw
  cases h
  refine decodeWord_of_raw ?_ hw
  clear hw
  show decMem _ = _
  unfold decMem
  rw [FmtM.unpack_pack]
  exact (bind_ok (x := need _) (by with_unfolding_all rfl)).trans <| (bind_ok (decS_enc _)).trans <|
    (bind_ok (decS_enc _)).trans <| (bind_ok (decScope_bits _)).trans <| (by with_unfolding_all rfl)
theorem Enc.invr (len : BitVec 8) (base : BitVec 8) (scope : Scope) (tok : BitVec 4) (m : BitVec 3) : Enc.Statement (.invr len base scope tok m) := by
  intro k sh w h hw
  cases h
  refine decodeWord_of_raw ?_ hw
  clear hw
  show decMem _ = _
  unfold decMem
  rw [FmtM.unpack_pack]
  exact (bind_ok (x := need _) (by with_unfolding_all rfl)).trans <| (bind_ok (decS_enc _)).trans <|
    (bind_ok (decS_enc _)).trans <| (bind_ok (decScope_bits _)).trans <| (by with_unfolding_all rfl)
theorem Enc.pref (base : Src) (off : BitVec 12) (e : BitVec 3) (fmt : MFmt) (m : BitVec 3) (mode : Mode) : Enc.Statement (.pref base off e fmt m mode) := by
  intro k sh w h hw
  cases h
  refine decodeWord_of_raw ?_ hw
  clear hw
  show decMem _ = _
  unfold decMem
  rw [FmtM.unpack_pack]
  exact (bind_ok (x := need _) (by with_unfolding_all rfl)).trans <| (bind_ok (decSrc_enc _)).trans <|
    (bind_ok (decMFmt_bits _)).trans <| (bind_ok (decMode_bits _)).trans <| (by with_unfolding_all rfl)
theorem Enc.lease (n : SImm) (m : BitVec 3) : Enc.Statement (.lease n m) := by
  intro k sh w h hw
  cases h
  refine decodeWord_of_raw ?_ hw
  clear hw
  show decMem _ = _
  unfold decMem
  rw [FmtM.unpack_pack]
  exact (bind_ok (x := FmtM.barZeros _) (by with_unfolding_all rfl)).trans <|
    (bind_ok (x := need _) (by with_unfolding_all rfl)).trans <| (bind_ok (decSImm_enc _)).trans <|
    (by with_unfolding_all rfl)
theorem Enc.barar (n : SImm) (b : BitVec 5) (m : BitVec 3) : Enc.Statement (.barar n b m) := by
  intro k sh w h hw
  cases h
  refine decodeWord_of_raw ?_ hw
  clear hw
  show decMem _ = _
  unfold decMem
  rw [FmtM.unpack_pack]
  exact (bind_ok (x := FmtM.barZeros _) (by with_unfolding_all rfl)).trans <| (bind_ok (decSImm_enc _)).trans <|
    (bind_ok (bar_enc _ _ _ _ _ _ _ _ _ _ _ _ _)).trans <| (by with_unfolding_all rfl)
theorem Enc.barwt (b : BitVec 5) (m : BitVec 3) : Enc.Statement (.barwt b m) := by
  intro k sh w h hw
  cases h
  refine decodeWord_of_raw ?_ hw
  clear hw
  show decMem _ = _
  unfold decMem
  rw [FmtM.unpack_pack]
  exact (bind_ok (x := FmtM.barZeros _) (by with_unfolding_all rfl)).trans <|
    (bind_ok (x := need _) (by with_unfolding_all rfl)).trans <|
    (bind_ok (bar_enc _ _ _ _ _ _ _ _ _ _ _ _ _)).trans <| (by with_unfolding_all rfl)
theorem Enc.barsy (n : SImm) (b : BitVec 5) (m : BitVec 3) : Enc.Statement (.barsy n b m) := by
  intro k sh w h hw
  cases h
  refine decodeWord_of_raw ?_ hw
  clear hw
  show decMem _ = _
  unfold decMem
  rw [FmtM.unpack_pack]
  exact (bind_ok (x := FmtM.barZeros _) (by with_unfolding_all rfl)).trans <| (bind_ok (decSImm_enc _)).trans <|
    (bind_ok (bar_enc _ _ _ _ _ _ _ _ _ _ _ _ _)).trans <| (by with_unfolding_all rfl)
theorem Enc.barq (d : BitVec 8) (b : BitVec 5) (m : BitVec 3) : Enc.Statement (.barq d b m) := by
  intro k sh w h hw
  cases h
  refine decodeWord_of_raw ?_ hw
  clear hw
  show decMem _ = _
  unfold decMem
  rw [FmtM.unpack_pack]
  exact (bind_ok (x := FmtM.barZeros _) (by with_unfolding_all rfl)).trans <| (bind_ok (decS_enc _)).trans <|
    (bind_ok (bar_enc _ _ _ _ _ _ _ _ _ _ _ _ _)).trans <| (by with_unfolding_all rfl)
theorem Enc.rrec (a : RSel) (tok : BitVec 4) (m : BitVec 3) : Enc.Statement (.rrec a tok m) := by
  intro k sh w h hw
  cases h
  refine decodeWord_of_raw ?_ hw
  have h2 : (!a.isX || (tok == 0 && m == 0)) = true := recOk_slice hw
  have h1 : decRSel a.isX (encRSel a) = .ok a := recOk_sel hw
  clear hw
  show decReap _ _ = _
  unfold decReap encA
  rw [FmtA.unpack_pack]
  exact (bind_ok (x := need _) (by with_unfolding_all rfl)).trans <| (bind_ok (need_ok h2)).trans <|
    (bind_ok (only_ok (by decide))).trans <| (bind_ok (x := need _) (by with_unfolding_all rfl)).trans <|
    (bind_ok h1).trans <| rfl
theorem Enc.rfence (m : BitVec 3) : Enc.Statement (.rfence m) := by
  intro k sh w h hw
  cases h
  refine decodeWord_of_raw ?_ hw
  clear hw
  show decReap _ _ = _
  unfold decReap encA
  rw [FmtA.unpack_pack]
  exact (bind_ok (x := need _) (by with_unfolding_all rfl)).trans <|
    (bind_ok (x := need _) (by with_unfolding_all rfl)).trans <|
    (bind_ok (x := need _) (by with_unfolding_all rfl)).trans <|
    (bind_ok (x := need _) (by with_unfolding_all rfl)).trans <| (bind_ok (only_ok (by decide))).trans <|
    (bind_ok (x := need _) (by with_unfolding_all rfl)).trans <| (by with_unfolding_all rfl)
theorem Enc.rcopy (a : RSel) (b : RSel) (c : RSel) (tok : BitVec 4) (m : BitVec 3) : Enc.Statement (.rcopy a b c tok m) := by
  intro k sh w h hw
  cases h
  refine decodeWord_of_raw ?_ hw
  obtain ⟨h1, h2, h3, h4⟩ := copyOk_sel hw
  clear hw
  show decReap _ _ = _
  unfold decReap encA
  rw [FmtA.unpack_pack]
  exact (bind_ok (x := need _) (by with_unfolding_all rfl)).trans <| (bind_ok (need_ok h4)).trans <|
    (bind_ok (only_ok (by decide))).trans <| (bind_ok (x := need _) (by with_unfolding_all rfl)).trans <|
    (bind_ok h1).trans <| (bind_ok h2).trans <| (bind_ok h3).trans <| rfl
theorem Enc.rcopyo (a : RSel) (b : RSel) (c : RSel) (tok : BitVec 4) (m : BitVec 3) : Enc.Statement (.rcopyo a b c tok m) := by
  intro k sh w h hw
  cases h
  refine decodeWord_of_raw ?_ hw
  obtain ⟨h1, h2, h3, h4⟩ := copyOk_sel hw
  clear hw
  show decReap _ _ = _
  unfold decReap encA
  rw [FmtA.unpack_pack]
  exact (bind_ok (x := need _) (by with_unfolding_all rfl)).trans <| (bind_ok (need_ok h4)).trans <|
    (bind_ok (only_ok (by decide))).trans <| (bind_ok (x := need _) (by with_unfolding_all rfl)).trans <|
    (bind_ok h1).trans <| (bind_ok h2).trans <| (bind_ok h3).trans <| rfl
theorem Enc.rwait (sl : Bool) (m : BitVec 3) : Enc.Statement (.rwait sl m) := by
  intro k sh w h hw
  cases h
  refine decodeWord_of_raw ?_ hw
  clear hw
  show decReap _ _ = _
  unfold decReap encA
  rw [FmtA.unpack_pack]
  exact (bind_ok (x := need _) (by with_unfolding_all rfl)).trans <|
    (bind_ok (x := need _) (by with_unfolding_all rfl)).trans <|
    (bind_ok (x := need _) (by with_unfolding_all rfl)).trans <|
    (bind_ok (x := need _) (by with_unfolding_all rfl)).trans <|
    (bind_ok (only_ok (by cases sl <;> decide))).trans <|
    (bind_ok (x := need _) (by with_unfolding_all rfl)).trans <|
    (by show Except.ok (Instr.rwait (BitVec.getLsbD ((0#7) ++ bb sl : BitVec 8) 0) m) = _; rw [show BitVec.getLsbD ((0#7) ++ bb sl : BitVec 8) 0 = sl from (by cases sl <;> rfl)])
theorem Enc.qdrop (n : BitVec 3) (m : BitVec 3) : Enc.Statement (.qdrop n m) := by
  intro k sh w h hw
  cases h
  refine decodeWord_of_raw ?_ hw
  clear hw
  show decReap _ _ = _
  unfold decReap encA
  rw [FmtA.unpack_pack]
  exact (bind_ok (x := need _) (by with_unfolding_all rfl)).trans <|
    (bind_ok (x := need _) (by with_unfolding_all rfl)).trans <|
    (bind_ok (x := need _) (by with_unfolding_all rfl)).trans <|
    (bind_ok (x := need _) (by with_unfolding_all rfl)).trans <| (bind_ok (only_ok (by (revert n; decide)))).trans <|
    (bind_ok (x := need _) (by with_unfolding_all rfl)).trans <|
    (if_neg (show ¬ BitVec.getLsbD ((0#5) ++ n : BitVec 8) 3 = true by revert n; decide)).trans <|
    (by show Except.ok (Instr.qdrop (BitVec.extractLsb' 0 3 ((0#5) ++ n : BitVec 8)) m) = _; rw [show BitVec.extractLsb' 0 3 ((0#5) ++ n : BitVec 8) = n from ((app_lo _ _ (by decide)).trans app_all)])
theorem Enc.qdropAll (m : BitVec 3) : Enc.Statement (.qdropAll m) := by
  intro k sh w h hw
  cases h
  refine decodeWord_of_raw ?_ hw
  clear hw
  show decReap _ _ = _
  unfold decReap encA
  rw [FmtA.unpack_pack]
  exact (bind_ok (x := need _) (by with_unfolding_all rfl)).trans <|
    (bind_ok (x := need _) (by with_unfolding_all rfl)).trans <|
    (bind_ok (x := need _) (by with_unfolding_all rfl)).trans <|
    (bind_ok (x := need _) (by with_unfolding_all rfl)).trans <| (bind_ok (only_ok (by decide))).trans <|
    (bind_ok (x := need _) (by with_unfolding_all rfl)).trans <|
    (if_pos (show BitVec.getLsbD (8 : BitVec 8) 3 = true by decide)).trans <|
    (bind_ok (x := need _) (by with_unfolding_all rfl)).trans <| (by with_unfolding_all rfl)
theorem Enc.qstat (sl : Bool) (d : BitVec 8) (m : BitVec 3) : Enc.Statement (.qstat sl d m) := by
  intro k sh w h hw
  cases h
  refine decodeWord_of_raw ?_ hw
  clear hw
  show decReap _ _ = _
  unfold decReap encA
  rw [FmtA.unpack_pack]
  exact (bind_ok (x := need _) (by with_unfolding_all rfl)).trans <|
    (bind_ok (x := need _) (by with_unfolding_all rfl)).trans <|
    (bind_ok (x := need _) (by with_unfolding_all rfl)).trans <|
    (bind_ok (x := need _) (by with_unfolding_all rfl)).trans <|
    (bind_ok (only_ok (by cases sl <;> decide))).trans <| (bind_ok (decS_enc _)).trans <|
    (by show Except.ok (Instr.qstat (BitVec.getLsbD ((0#7) ++ bb sl : BitVec 8) 0) d m) = _; rw [show BitVec.getLsbD ((0#7) ++ bb sl : BitVec 8) 0 = sl from (by cases sl <;> rfl)])
theorem Enc.slctlStop (m : BitVec 3) : Enc.Statement (.slctlStop m) := by
  intro k sh w h hw
  cases h
  refine decodeWord_of_raw ?_ hw
  clear hw
  show decReap _ _ = _
  unfold decReap encA
  rw [FmtA.unpack_pack]
  exact (bind_ok (x := need _) (by with_unfolding_all rfl)).trans <|
    (bind_ok (x := need _) (by with_unfolding_all rfl)).trans <|
    (bind_ok (x := need _) (by with_unfolding_all rfl)).trans <|
    (bind_ok (x := need _) (by with_unfolding_all rfl)).trans <| (bind_ok (only_ok (by decide))).trans <|
    (bind_ok (x := need _) (by with_unfolding_all rfl)).trans <| (by with_unfolding_all rfl)
theorem Enc.slctlPause (m : BitVec 3) : Enc.Statement (.slctlPause m) := by
  intro k sh w h hw
  cases h
  refine decodeWord_of_raw ?_ hw
  clear hw
  show decReap _ _ = _
  unfold decReap encA
  rw [FmtA.unpack_pack]
  exact (bind_ok (x := need _) (by with_unfolding_all rfl)).trans <|
    (bind_ok (x := need _) (by with_unfolding_all rfl)).trans <|
    (bind_ok (x := need _) (by with_unfolding_all rfl)).trans <|
    (bind_ok (x := need _) (by with_unfolding_all rfl)).trans <| (bind_ok (only_ok (by decide))).trans <|
    (bind_ok (x := need _) (by with_unfolding_all rfl)).trans <| (by with_unfolding_all rfl)
theorem Enc.slctlResume (m : BitVec 3) : Enc.Statement (.slctlResume m) := by
  intro k sh w h hw
  cases h
  refine decodeWord_of_raw ?_ hw
  clear hw
  show decReap _ _ = _
  unfold decReap encA
  rw [FmtA.unpack_pack]
  exact (bind_ok (x := need _) (by with_unfolding_all rfl)).trans <|
    (bind_ok (x := need _) (by with_unfolding_all rfl)).trans <|
    (bind_ok (x := need _) (by with_unfolding_all rfl)).trans <|
    (bind_ok (x := need _) (by with_unfolding_all rfl)).trans <| (bind_ok (only_ok (by decide))).trans <|
    (bind_ok (x := need _) (by with_unfolding_all rfl)).trans <| (by with_unfolding_all rfl)
theorem Enc.xadd (d : BitVec 5) (a : RSel) (b : RSel) : Enc.Statement (.xadd d a b) := by
  intro k sh w h hw
  cases h
  refine decodeWord_of_raw ?_ hw
  obtain ⟨ha, hb⟩ := Bool.and_eq_true_iff.mp hw
  show decReap _ _ = _
  unfold decReap encA
  rw [FmtA.unpack_pack]
  exact (bind_ok (x := need _) (by with_unfolding_all rfl)).trans <|
    (bind_ok (x := need _) (by with_unfolding_all rfl)).trans <|
    (bind_ok (x := need _) (by with_unfolding_all rfl)).trans <| (bind_ok (only_ok (by decide))).trans <|
    (bind_ok (dec5_enc _)).trans <| (bind_ok (decRSel_slice ha)).trans <| (bind_ok (decRSel_slice hb)).trans <| rfl
theorem Enc.xmul (d : BitVec 5) (a : RSel) (b : RSel) : Enc.Statement (.xmul d a b) := by
  intro k sh w h hw
  cases h
  refine decodeWord_of_raw ?_ hw
  obtain ⟨ha, hb⟩ := Bool.and_eq_true_iff.mp hw
  show decReap _ _ = _
  unfold decReap encA
  rw [FmtA.unpack_pack]
  exact (bind_ok (x := need _) (by with_unfolding_all rfl)).trans <|
    (bind_ok (x := need _) (by with_unfolding_all rfl)).trans <|
    (bind_ok (x := need _) (by with_unfolding_all rfl)).trans <| (bind_ok (only_ok (by decide))).trans <|
    (bind_ok (dec5_enc _)).trans <| (bind_ok (decRSel_slice ha)).trans <| (bind_ok (decRSel_slice hb)).trans <| rfl
theorem Enc.xloop (a : BitVec 5) : Enc.Statement (.xloop a) := by
  intro k sh w h hw
  cases h
  refine decodeWord_of_raw ?_ hw
  clear hw
  show decReap _ _ = _
  unfold decReap encA
  rw [FmtA.unpack_pack]
  exact (bind_ok (x := need _) (by with_unfolding_all rfl)).trans <|
    (bind_ok (x := need _) (by with_unfolding_all rfl)).trans <|
    (bind_ok (x := need _) (by with_unfolding_all rfl)).trans <| (bind_ok (only_ok (by decide))).trans <|
    (bind_ok (x := need _) (by with_unfolding_all rfl)).trans <| (bind_ok (dec5_enc _)).trans <|
    (by with_unfolding_all rfl)
theorem Enc.xnext : Enc.Statement (.xnext) := by
  intro k sh w h hw
  cases h
  refine decodeWord_of_raw ?_ hw
  clear hw
  with_unfolding_all rfl
theorem Enc.qput (fmt : MFmt) (sp : Bool) (n : BitVec 3) (a : BitVec 5) (b : RSel) : Enc.Statement (.qput fmt sp n a b) := by
  intro k sh w h hw
  cases h
  refine decodeWord_of_raw ?_ hw
  have hb : b.sliceOk = true := (Bool.and_eq_true_iff.mp hw).2
  clear hw
  have hm : ((0#3) ++ bb sp ++ fmt.bits : BitVec 8).extractLsb' 0 4 = fmt.bits := (app_lo _ _ (by decide)).trans app_all
  have h4 : ((0#3) ++ bb sp ++ fmt.bits : BitVec 8).getLsbD 4 = sp := by cases sp <;> cases fmt <;> rfl
  have hn : ((0#7) ++ n : BitVec 10).extractLsb' 0 3 = n := (app_lo _ _ (by decide)).trans app_all
  show decReap _ _ = _
  unfold decReap encA
  rw [FmtA.unpack_pack]
  exact (bind_ok (x := need _) (by with_unfolding_all rfl)).trans <|
    (bind_ok (x := need _) (by with_unfolding_all rfl)).trans <|
    (bind_ok (x := need _) (by with_unfolding_all rfl)).trans <|
    (bind_ok (only_ok (by cases sp <;> cases fmt <;> decide))).trans <|
    (bind_ok (need_ok (eq_zero ((app_hi _ _ (by decide)).trans app_all)))).trans <|
    (bind_ok (dec5_enc _)).trans <| (bind_ok (decRSel_slice hb)).trans <|
    (bind_ok ((congrArg decMFmt (m_ok hm)).trans (decMFmt_bits _))).trans <|
    (by show Except.ok (Instr.qput fmt (BitVec.getLsbD ((0#3) ++ bb sp ++ fmt.bits : BitVec 8) 4)
          (BitVec.extractLsb' 0 3 ((0#7) ++ n : BitVec 10)) a b) = _
        rw [h4, hn])
theorem Enc.xend : Enc.Statement (.xend) := by
  intro k sh w h hw
  cases h
  refine decodeWord_of_raw ?_ hw
  clear hw
  with_unfolding_all rfl
theorem Enc.thres (d : BitVec 8) (a : BitVec 8) (m : BitVec 3) : Enc.Statement (.thres d a m) := by
  intro k sh w h hw
  cases h
  refine decodeWord_of_raw ?_ hw
  clear hw
  show decTable _ = _
  unfold decTable encA
  rw [FmtA.unpack_pack]
  exact (bind_ok (x := need _) (by with_unfolding_all rfl)).trans <| (bind_ok (only_ok (by decide))).trans <|
    (bind_ok (x := need _) (by with_unfolding_all rfl)).trans <| (bind_ok (decS_enc _)).trans <|
    (bind_ok (decS_enc _)).trans <| (by with_unfolding_all rfl)
theorem Enc.threl (m : BitVec 3) : Enc.Statement (.threl m) := by
  intro k sh w h hw
  cases h
  refine decodeWord_of_raw ?_ hw
  clear hw
  show decTable _ = _
  unfold decTable encA
  rw [FmtA.unpack_pack]
  exact (bind_ok (x := need _) (by with_unfolding_all rfl)).trans <| (bind_ok (only_ok (by decide))).trans <|
    (bind_ok (x := need _) (by with_unfolding_all rfl)).trans <| (by with_unfolding_all rfl)
theorem Enc.orf (m : BitVec 3) : Enc.Statement (.orf m) := by
  intro k sh w h hw
  cases h
  refine decodeWord_of_raw ?_ hw
  clear hw
  show decTable _ = _
  unfold decTable encA
  rw [FmtA.unpack_pack]
  exact (bind_ok (x := need _) (by with_unfolding_all rfl)).trans <| (bind_ok (only_ok (by decide))).trans <|
    (bind_ok (x := need _) (by with_unfolding_all rfl)).trans <| (by with_unfolding_all rfl)
theorem Enc.tbuild (lg : BitVec 2) (lm : BitVec 3) (d8 : Bool) (inf : Bool) (n : BitVec 3) (a : KSel) (b : KSel) (c : KSel) : Enc.Statement (.tbuild lg lm d8 inf n a b c) := by
  intro k sh w h hw
  cases h
  refine decodeWord_of_raw ?_ hw
  clear hw
  show decTable _ = _
  unfold decTable encA
  rw [FmtA.unpack_pack]
  exact (bind_ok (x := need _) (by with_unfolding_all rfl)).trans <|
    (bind_ok (x := need _) (by with_unfolding_all rfl)).trans <|
    (bind_ok (only_ok (by cases inf <;> cases d8 <;> (revert lm lg; decide)))).trans <|
    (bind_ok (need_ok (eq_zero ((app_hi _ _ (by decide)).trans <| app_all)))).trans <|
    (bind_ok (decKSel_enc _)).trans <| (bind_ok (decKSel_enc _)).trans <| (bind_ok (decKSel_enc _)).trans <|
    (by show Except.ok (Instr.tbuild (BitVec.extractLsb' 0 2 ((0#1) ++ bb inf ++ bb d8 ++ lm ++ lg : BitVec 8)) (BitVec.extractLsb' 2 3 ((0#1) ++ bb inf ++ bb d8 ++ lm ++ lg : BitVec 8)) (BitVec.getLsbD ((0#1) ++ bb inf ++ bb d8 ++ lm ++ lg : BitVec 8) 5) (BitVec.getLsbD ((0#1) ++ bb inf ++ bb d8 ++ lm ++ lg : BitVec 8) 6) (BitVec.extractLsb' 0 3 ((0#7) ++ n : BitVec 10)) a b c) = _; rw [show BitVec.extractLsb' 0 2 ((0#1) ++ bb inf ++ bb d8 ++ lm ++ lg : BitVec 8) = lg from ((app_lo _ _ (by decide)).trans app_all), show BitVec.extractLsb' 2 3 ((0#1) ++ bb inf ++ bb d8 ++ lm ++ lg : BitVec 8) = lm from ((app_hi _ _ (by decide)).trans <|
    (app_lo _ _ (by decide)).trans app_all), show BitVec.getLsbD ((0#1) ++ bb inf ++ bb d8 ++ lm ++ lg : BitVec 8) 5 = d8 from (by cases inf <;> cases d8 <;> (revert lm lg; decide)), show BitVec.getLsbD ((0#1) ++ bb inf ++ bb d8 ++ lm ++ lg : BitVec 8) 6 = inf from (by cases inf <;> cases d8 <;> (revert lm lg; decide)), show BitVec.extractLsb' 0 3 ((0#7) ++ n : BitVec 10) = n from ((app_lo _ _ (by decide)).trans app_all)])
theorem Enc.tcode (wd : BitVec 2) (n : BitVec 3) (a : KSel) (b : KSel) : Enc.Statement (.tcode wd n a b) := by
  intro k sh w h hw
  cases h
  refine decodeWord_of_raw ?_ hw
  clear hw
  show decTable _ = _
  unfold decTable encA
  rw [FmtA.unpack_pack]
  exact (bind_ok (x := need _) (by with_unfolding_all rfl)).trans <|
    (bind_ok (x := need _) (by with_unfolding_all rfl)).trans <|
    (bind_ok (only_ok (by (revert wd; decide)))).trans <|
    (bind_ok (need_ok (and_ok (eq_zero ((app_hi _ _ (by decide)).trans <|
    app_all)) (by with_unfolding_all rfl)))).trans <| (bind_ok (decKSel_enc _)).trans <|
    (bind_ok (decKSel_enc _)).trans <|
    (by show Except.ok (Instr.tcode (BitVec.extractLsb' 0 2 ((0#6) ++ wd : BitVec 8)) (BitVec.extractLsb' 0 3 ((0#7) ++ n : BitVec 10)) a b) = _; rw [show BitVec.extractLsb' 0 2 ((0#6) ++ wd : BitVec 8) = wd from ((app_lo _ _ (by decide)).trans app_all), show BitVec.extractLsb' 0 3 ((0#7) ++ n : BitVec 10) = n from ((app_lo _ _ (by decide)).trans app_all)])
theorem Enc.tmac (rb : Bool) (lg : BitVec 2) (lm : BitVec 3) (n : BitVec 2) (t : BitVec 4) (a : KSel) (b : KSel) (c : KSel) : Enc.Statement (.tmac rb lg lm n t a b c) := by
  intro k sh w h hw
  cases h
  refine decodeWord_of_raw ?_ hw
  clear hw
  show decTable _ = _
  unfold decTable encA
  rw [FmtA.unpack_pack]
  exact (bind_ok (x := need _) (by with_unfolding_all rfl)).trans <|
    (bind_ok (x := need _) (by with_unfolding_all rfl)).trans <|
    (bind_ok (need_ok (eq_zero ((app_hi _ _ (by decide)).trans <| app_all)))).trans <|
    (bind_ok (decKSel_enc _)).trans <| (bind_ok (decKSel_enc _)).trans <| (bind_ok (decKSel_enc _)).trans <|
    (by show Except.ok (Instr.tmac (BitVec.getLsbD (bb rb ++ n ++ lm ++ lg : BitVec 8) 7) (BitVec.extractLsb' 0 2 (bb rb ++ n ++ lm ++ lg : BitVec 8)) (BitVec.extractLsb' 2 3 (bb rb ++ n ++ lm ++ lg : BitVec 8)) (BitVec.extractLsb' 5 2 (bb rb ++ n ++ lm ++ lg : BitVec 8)) (BitVec.extractLsb' 0 4 ((0#6) ++ t : BitVec 10)) a b c) = _; rw [show BitVec.getLsbD (bb rb ++ n ++ lm ++ lg : BitVec 8) 7 = rb from (by cases rb <;> (revert n lm lg; decide)), show BitVec.extractLsb' 0 2 (bb rb ++ n ++ lm ++ lg : BitVec 8) = lg from ((app_lo _ _ (by decide)).trans app_all), show BitVec.extractLsb' 2 3 (bb rb ++ n ++ lm ++ lg : BitVec 8) = lm from ((app_hi _ _ (by decide)).trans <|
    (app_lo _ _ (by decide)).trans app_all), show BitVec.extractLsb' 5 2 (bb rb ++ n ++ lm ++ lg : BitVec 8) = n from ((app_hi _ _ (by decide)).trans <|
    (app_hi _ _ (by decide)).trans <|
    (app_lo _ _ (by decide)).trans app_all), show BitVec.extractLsb' 0 4 ((0#6) ++ t : BitVec 10) = t from ((app_lo _ _ (by decide)).trans app_all)])
theorem Enc.taclr (t : BitVec 4) : Enc.Statement (.taclr t) := by
  intro k sh w h hw
  cases h
  refine decodeWord_of_raw ?_ hw
  clear hw
  show decTable _ = _
  unfold decTable encA
  rw [FmtA.unpack_pack]
  exact (bind_ok (x := need _) (by with_unfolding_all rfl)).trans <|
    (bind_ok (x := need _) (by with_unfolding_all rfl)).trans <| (bind_ok (only_ok (by decide))).trans <|
    (bind_ok (need_ok (and_ok (and_ok (and_ok (eq_zero ((app_hi _ _ (by decide)).trans <|
    app_all)) (by with_unfolding_all rfl)) (by with_unfolding_all rfl)) (by with_unfolding_all rfl)))).trans <|
    (by show Except.ok (Instr.taclr (BitVec.extractLsb' 0 4 ((0#6) ++ t : BitVec 10))) = _; rw [show BitVec.extractLsb' 0 4 ((0#6) ++ t : BitVec 10) = t from ((app_lo _ _ (by decide)).trans app_all)])
theorem Enc.tald (lm : BitVec 3) (n : BitVec 2) (t : BitVec 4) (a : KSel) (b : KSel) : Enc.Statement (.tald lm n t a b) := by
  intro k sh w h hw
  cases h
  refine decodeWord_of_raw ?_ hw
  clear hw
  show decTable _ = _
  unfold decTable encA
  rw [FmtA.unpack_pack]
  exact (bind_ok (x := need _) (by with_unfolding_all rfl)).trans <|
    (bind_ok (x := need _) (by with_unfolding_all rfl)).trans <|
    (bind_ok (only_ok (by (revert n lm; decide)))).trans <|
    (bind_ok (need_ok (and_ok (eq_zero ((app_hi _ _ (by decide)).trans <|
    app_all)) (by with_unfolding_all rfl)))).trans <| (bind_ok (decKSel_enc _)).trans <|
    (bind_ok (decKSel_enc _)).trans <|
    (by show Except.ok (Instr.tald (BitVec.extractLsb' 2 3 ((0#1) ++ n ++ lm ++ (0#2) : BitVec 8)) (BitVec.extractLsb' 5 2 ((0#1) ++ n ++ lm ++ (0#2) : BitVec 8)) (BitVec.extractLsb' 0 4 ((0#6) ++ t : BitVec 10)) a b) = _; rw [show BitVec.extractLsb' 2 3 ((0#1) ++ n ++ lm ++ (0#2) : BitVec 8) = lm from ((app_hi _ _ (by decide)).trans <|
    (app_lo _ _ (by decide)).trans app_all), show BitVec.extractLsb' 5 2 ((0#1) ++ n ++ lm ++ (0#2) : BitVec 8) = n from ((app_hi _ _ (by decide)).trans <|
    (app_hi _ _ (by decide)).trans <|
    (app_lo _ _ (by decide)).trans app_all), show BitVec.extractLsb' 0 4 ((0#6) ++ t : BitVec 10) = t from ((app_lo _ _ (by decide)).trans app_all)])
theorem Enc.tast (fmt : BitVec 2) (lm : BitVec 3) (n : BitVec 2) (t : BitVec 4) (a : KSel) (b : KSel) (c : KSel) : Enc.Statement (.tast fmt lm n t a b c) := by
  intro k sh w h hw
  cases h
  refine decodeWord_of_raw ?_ hw
  clear hw
  show decTable _ = _
  unfold decTable encA
  rw [FmtA.unpack_pack]
  exact (bind_ok (x := need _) (by with_unfolding_all rfl)).trans <|
    (bind_ok (x := need _) (by with_unfolding_all rfl)).trans <|
    (bind_ok (only_ok (by (revert n lm fmt; decide)))).trans <|
    (bind_ok (need_ok (eq_zero ((app_hi _ _ (by decide)).trans <| app_all)))).trans <|
    (bind_ok (decKSel_enc _)).trans <| (bind_ok (decKSel_enc _)).trans <| (bind_ok (decKSel_enc _)).trans <|
    (by show Except.ok (Instr.tast (BitVec.extractLsb' 0 2 ((0#1) ++ n ++ lm ++ fmt : BitVec 8)) (BitVec.extractLsb' 2 3 ((0#1) ++ n ++ lm ++ fmt : BitVec 8)) (BitVec.extractLsb' 5 2 ((0#1) ++ n ++ lm ++ fmt : BitVec 8)) (BitVec.extractLsb' 0 4 ((0#6) ++ t : BitVec 10)) a b c) = _; rw [show BitVec.extractLsb' 0 2 ((0#1) ++ n ++ lm ++ fmt : BitVec 8) = fmt from ((app_lo _ _ (by decide)).trans app_all), show BitVec.extractLsb' 2 3 ((0#1) ++ n ++ lm ++ fmt : BitVec 8) = lm from ((app_hi _ _ (by decide)).trans <|
    (app_lo _ _ (by decide)).trans app_all), show BitVec.extractLsb' 5 2 ((0#1) ++ n ++ lm ++ fmt : BitVec 8) = n from ((app_hi _ _ (by decide)).trans <|
    (app_hi _ _ (by decide)).trans <|
    (app_lo _ _ (by decide)).trans app_all), show BitVec.extractLsb' 0 4 ((0#6) ++ t : BitVec 10) = t from ((app_lo _ _ (by decide)).trans app_all)])
theorem Enc.tinv (a : KSel) : Enc.Statement (.tinv a) := by
  intro k sh w h hw
  cases h
  refine decodeWord_of_raw ?_ hw
  clear hw
  show decTable _ = _
  unfold decTable encA
  rw [FmtA.unpack_pack]
  exact (bind_ok (x := need _) (by with_unfolding_all rfl)).trans <|
    (bind_ok (x := need _) (by with_unfolding_all rfl)).trans <| (bind_ok (only_ok (by decide))).trans <|
    (bind_ok (x := need _) (by with_unfolding_all rfl)).trans <|
    (if_neg (show ¬ BitVec.getLsbD (0 : BitVec 8) 0 = true by decide)).trans <| (bind_ok (decKSel_enc _)).trans <|
    (by with_unfolding_all rfl)
theorem Enc.tinvAll : Enc.Statement (.tinvAll) := by
  intro k sh w h hw
  cases h
  refine decodeWord_of_raw ?_ hw
  clear hw
  with_unfolding_all rfl
theorem Enc.twait : Enc.Statement (.twait) := by
  intro k sh w h hw
  cases h
  refine decodeWord_of_raw ?_ hw
  clear hw
  with_unfolding_all rfl
theorem Enc.tbar (arr : Bool) (n : BitVec 4) (cnt : KSel) : Enc.Statement (.tbar arr n cnt) := by
  intro k sh w h hw
  cases h
  refine decodeWord_of_raw ?_ hw
  clear hw
  show decTable _ = _
  unfold decTable encA
  rw [FmtA.unpack_pack]
  exact (bind_ok (x := need _) (by with_unfolding_all rfl)).trans <|
    (bind_ok (x := need _) (by with_unfolding_all rfl)).trans <|
    (bind_ok (only_ok (by cases arr <;> (revert n; decide)))).trans <|
    (bind_ok (x := need _) (by with_unfolding_all rfl)).trans <| (bind_ok (decKSel_enc _)).trans <|
    (by show Except.ok (Instr.tbar (BitVec.getLsbD ((0#3) ++ bb arr ++ n : BitVec 8) 4) (BitVec.extractLsb' 0 4 ((0#3) ++ bb arr ++ n : BitVec 8)) cnt) = _; rw [show BitVec.getLsbD ((0#3) ++ bb arr ++ n : BitVec 8) 4 = arr from (by cases arr <;> (revert n; decide)), show BitVec.extractLsb' 0 4 ((0#3) ++ bb arr ++ n : BitVec 8) = n from ((app_lo _ _ (by decide)).trans app_all)])
theorem Enc.tloop (k : BitVec 5) (d : BitVec 8) : Enc.Statement (.tloop k d) := by
  intro k sh w h hw
  cases h
  refine decodeWord_of_raw ?_ hw
  clear hw
  show decTable _ = _
  unfold decTable encA
  rw [FmtA.unpack_pack]
  exact (bind_ok (x := need _) (by with_unfolding_all rfl)).trans <|
    (bind_ok (x := need _) (by with_unfolding_all rfl)).trans <|
    (bind_ok (x := need _) (by with_unfolding_all rfl)).trans <| (bind_ok (dec5_enc _)).trans <|
    (by with_unfolding_all rfl)
theorem Enc.tend : Enc.Statement (.tend) := by
  intro k sh w h hw
  cases h
  refine decodeWord_of_raw ?_ hw
  clear hw
  with_unfolding_all rfl
theorem Enc.tspawn (d : BitVec 8) (a : BitVec 8) (tok : BitVec 4) (m : BitVec 3) : Enc.Statement (.tspawn d a tok m) := by
  intro k sh w h hw
  cases h
  refine decodeWord_of_raw ?_ hw
  clear hw
  show decTask _ = _
  unfold decTask encA
  rw [FmtA.unpack_pack]
  exact (bind_ok (x := need _) (by with_unfolding_all rfl)).trans <| (bind_ok (only_ok (by decide))).trans <|
    (bind_ok (x := need _) (by with_unfolding_all rfl)).trans <| (bind_ok (decS_enc _)).trans <|
    (bind_ok (decS_enc _)).trans <| (by with_unfolding_all rfl)
theorem Enc.tjoin (a : BitVec 8) (n : SImm) (m : BitVec 3) : Enc.Statement (.tjoin a n m) := by
  intro k sh w h hw
  cases h
  refine decodeWord_of_raw ?_ hw
  clear hw
  show decTask _ = _
  unfold decTask encA
  rw [FmtA.unpack_pack]
  exact (bind_ok (x := need _) (by with_unfolding_all rfl)).trans <| (bind_ok (only_ok (by decide))).trans <|
    (bind_ok (x := need _) (by with_unfolding_all rfl)).trans <| (bind_ok (decS_enc _)).trans <|
    (bind_ok (decSImm_enc _)).trans <| (by with_unfolding_all rfl)
theorem Enc.tsig (a : BitVec 8) (tok : BitVec 4) (m : BitVec 3) : Enc.Statement (.tsig a tok m) := by
  intro k sh w h hw
  cases h
  refine decodeWord_of_raw ?_ hw
  clear hw
  show decTask _ = _
  unfold decTask encA
  rw [FmtA.unpack_pack]
  exact (bind_ok (x := need _) (by with_unfolding_all rfl)).trans <| (bind_ok (only_ok (by decide))).trans <|
    (bind_ok (x := need _) (by with_unfolding_all rfl)).trans <| (bind_ok (decS_enc _)).trans <|
    (by with_unfolding_all rfl)
theorem Enc.tcont (a : BitVec 8) (m : BitVec 3) : Enc.Statement (.tcont a m) := by
  intro k sh w h hw
  cases h
  refine decodeWord_of_raw ?_ hw
  clear hw
  show decTask _ = _
  unfold decTask encA
  rw [FmtA.unpack_pack]
  exact (bind_ok (x := need _) (by with_unfolding_all rfl)).trans <| (bind_ok (only_ok (by decide))).trans <|
    (bind_ok (x := need _) (by with_unfolding_all rfl)).trans <| (bind_ok (decS_enc _)).trans <|
    (by with_unfolding_all rfl)
theorem Enc.tkill (a : BitVec 8) (m : BitVec 3) : Enc.Statement (.tkill a m) := by
  intro k sh w h hw
  cases h
  refine decodeWord_of_raw ?_ hw
  clear hw
  show decTask _ = _
  unfold decTask encA
  rw [FmtA.unpack_pack]
  exact (bind_ok (x := need _) (by with_unfolding_all rfl)).trans <| (bind_ok (only_ok (by decide))).trans <|
    (bind_ok (x := need _) (by with_unfolding_all rfl)).trans <| (bind_ok (decS_enc _)).trans <|
    (by with_unfolding_all rfl)
theorem Enc.grange (d : BitVec 8) (a : BitVec 8) (b : BitVec 8) (tok : BitVec 4) (m : BitVec 3) : Enc.Statement (.grange d a b tok m) := by
  intro k sh w h hw
  cases h
  refine decodeWord_of_raw ?_ hw
  clear hw
  show decTask _ = _
  unfold decTask encA
  rw [FmtA.unpack_pack]
  exact (bind_ok (x := need _) (by with_unfolding_all rfl)).trans <| (bind_ok (only_ok (by decide))).trans <|
    (bind_ok (decS_enc _)).trans <| (bind_ok (decS_enc _)).trans <| (bind_ok (decS_enc _)).trans <|
    (by with_unfolding_all rfl)
theorem Enc.grel (d : BitVec 8) (a : BitVec 8) (tok : BitVec 4) (m : BitVec 3) : Enc.Statement (.grel d a tok m) := by
  intro k sh w h hw
  cases h
  refine decodeWord_of_raw ?_ hw
  clear hw
  show decTask _ = _
  unfold decTask encA
  rw [FmtA.unpack_pack]
  exact (bind_ok (x := need _) (by with_unfolding_all rfl)).trans <| (bind_ok (only_ok (by decide))).trans <|
    (bind_ok (x := need _) (by with_unfolding_all rfl)).trans <| (bind_ok (decS_enc _)).trans <|
    (bind_ok (decS_enc _)).trans <| (by with_unfolding_all rfl)
theorem Enc.promote (gr : BitVec 2) (a : BitVec 8) (n : SImm) (tok : BitVec 4) (m : BitVec 3) : Enc.Statement (.promote gr a n tok m) := by
  intro k sh w h hw
  cases h
  refine decodeWord_of_raw ?_ hw
  clear hw
  show decTask _ = _
  unfold decTask encA
  rw [FmtA.unpack_pack]
  exact (bind_ok (x := need _) (by with_unfolding_all rfl)).trans <|
    (bind_ok (only_ok (by (revert gr; decide)))).trans <|
    (bind_ok (x := need _) (by with_unfolding_all rfl)).trans <| (bind_ok (decS_enc _)).trans <|
    (bind_ok (decSImm_enc _)).trans <|
    (by show Except.ok (Instr.promote (BitVec.extractLsb' 0 2 ((0#6) ++ gr : BitVec 8)) a n tok m) = _; rw [show BitVec.extractLsb' 0 2 ((0#6) ++ gr : BitVec 8) = gr from ((app_lo _ _ (by decide)).trans app_all)])
theorem Enc.retract (a : BitVec 8) (n : SImm) (tok : BitVec 4) (m : BitVec 3) : Enc.Statement (.retract a n tok m) := by
  intro k sh w h hw
  cases h
  refine decodeWord_of_raw ?_ hw
  clear hw
  show decTask _ = _
  unfold decTask encA
  rw [FmtA.unpack_pack]
  exact (bind_ok (x := need _) (by with_unfolding_all rfl)).trans <| (bind_ok (only_ok (by decide))).trans <|
    (bind_ok (x := need _) (by with_unfolding_all rfl)).trans <| (bind_ok (decS_enc _)).trans <|
    (bind_ok (decSImm_enc _)).trans <| (by with_unfolding_all rfl)
theorem Enc.gstat (d : BitVec 8) (a : BitVec 8) (tok : BitVec 4) (m : BitVec 3) : Enc.Statement (.gstat d a tok m) := by
  intro k sh w h hw
  cases h
  refine decodeWord_of_raw ?_ hw
  clear hw
  show decTask _ = _
  unfold decTask encA
  rw [FmtA.unpack_pack]
  exact (bind_ok (x := need _) (by with_unfolding_all rfl)).trans <| (bind_ok (only_ok (by decide))).trans <|
    (bind_ok (x := need _) (by with_unfolding_all rfl)).trans <| (bind_ok (decS_enc _)).trans <|
    (bind_ok (decS_enc _)).trans <| (by with_unfolding_all rfl)
theorem Enc.qpush (d : BitVec 8) (a : BitVec 8) (b : BitVec 8) (tok : BitVec 4) (m : BitVec 3) : Enc.Statement (.qpush d a b tok m) := by
  intro k sh w h hw
  cases h
  refine decodeWord_of_raw ?_ hw
  clear hw
  show decTask _ = _
  unfold decTask encA
  rw [FmtA.unpack_pack]
  exact (bind_ok (x := need _) (by with_unfolding_all rfl)).trans <| (bind_ok (only_ok (by decide))).trans <|
    (bind_ok (decS_enc _)).trans <| (bind_ok (decS_enc _)).trans <| (bind_ok (decS_enc _)).trans <|
    (by with_unfolding_all rfl)
theorem Enc.qpop (d : BitVec 8) (a : BitVec 8) (b : BitVec 8) (tok : BitVec 4) (m : BitVec 3) : Enc.Statement (.qpop d a b tok m) := by
  intro k sh w h hw
  cases h
  refine decodeWord_of_raw ?_ hw
  clear hw
  show decTask _ = _
  unfold decTask encA
  rw [FmtA.unpack_pack]
  exact (bind_ok (x := need _) (by with_unfolding_all rfl)).trans <| (bind_ok (only_ok (by decide))).trans <|
    (bind_ok (decS_enc _)).trans <| (bind_ok (decS_enc _)).trans <| (bind_ok (decS_enc _)).trans <|
    (by with_unfolding_all rfl)
theorem Enc.qpopw (d : BitVec 8) (a : BitVec 8) (tok : BitVec 4) (m : BitVec 3) : Enc.Statement (.qpopw d a tok m) := by
  intro k sh w h hw
  cases h
  refine decodeWord_of_raw ?_ hw
  clear hw
  show decTask _ = _
  unfold decTask encA
  rw [FmtA.unpack_pack]
  exact (bind_ok (x := need _) (by with_unfolding_all rfl)).trans <| (bind_ok (only_ok (by decide))).trans <|
    (bind_ok (x := need _) (by with_unfolding_all rfl)).trans <| (bind_ok (decS_enc _)).trans <|
    (bind_ok (decS_enc _)).trans <| (by with_unfolding_all rfl)
theorem Enc.launch (d : BitVec 8) (a : BitVec 8) (tok : BitVec 4) (m : BitVec 3) : Enc.Statement (.launch d a tok m) := by
  intro k sh w h hw
  cases h
  refine decodeWord_of_raw ?_ hw
  clear hw
  show decTask _ = _
  unfold decTask encA
  rw [FmtA.unpack_pack]
  exact (bind_ok (x := need _) (by with_unfolding_all rfl)).trans <| (bind_ok (only_ok (by decide))).trans <|
    (bind_ok (x := need _) (by with_unfolding_all rfl)).trans <| (bind_ok (decS_enc _)).trans <|
    (bind_ok (decS_enc _)).trans <| (by with_unfolding_all rfl)
theorem Enc.lwait (h : SImm) (m : BitVec 3) : Enc.Statement (.lwait h m) := by
  intro k sh w h hw
  cases h
  refine decodeWord_of_raw ?_ hw
  clear hw
  show decTask _ = _
  unfold decTask encA
  rw [FmtA.unpack_pack]
  exact (bind_ok (x := need _) (by with_unfolding_all rfl)).trans <| (bind_ok (only_ok (by decide))).trans <|
    (bind_ok (x := need _) (by with_unfolding_all rfl)).trans <| (bind_ok (decSImm_enc _)).trans <|
    (by with_unfolding_all rfl)
theorem Enc.ffence (tok : BitVec 4) (m : BitVec 3) : Enc.Statement (.ffence tok m) := by
  intro k sh w h hw
  cases h
  refine decodeWord_of_raw ?_ hw
  clear hw
  show decFab _ = _
  unfold decFab encA
  rw [FmtA.unpack_pack]
  exact (bind_ok (x := need _) (by with_unfolding_all rfl)).trans <| (bind_ok (only_ok (by decide))).trans <|
    (bind_ok (x := need _) (by with_unfolding_all rfl)).trans <| (by with_unfolding_all rfl)
theorem Enc.fdrain (tok : BitVec 4) (m : BitVec 3) : Enc.Statement (.fdrain tok m) := by
  intro k sh w h hw
  cases h
  refine decodeWord_of_raw ?_ hw
  clear hw
  show decFab _ = _
  unfold decFab encA
  rw [FmtA.unpack_pack]
  exact (bind_ok (x := need _) (by with_unfolding_all rfl)).trans <| (bind_ok (only_ok (by decide))).trans <|
    (bind_ok (x := need _) (by with_unfolding_all rfl)).trans <| (by with_unfolding_all rfl)
theorem Enc.jobq (n : BitVec 3) (d : BitVec 8) (m : BitVec 3) : Enc.Statement (.jobq n d m) := by
  intro k sh w h hw
  cases h
  refine decodeWord_of_raw ?_ hw
  clear hw
  show decFab _ = _
  unfold decFab encA
  rw [FmtA.unpack_pack]
  exact (bind_ok (x := need _) (by with_unfolding_all rfl)).trans <|
    (bind_ok (only_ok (by (revert n; decide)))).trans <| (bind_ok (x := need _) (by with_unfolding_all rfl)).trans <|
    (bind_ok (decS_enc _)).trans <|
    (by show Except.ok (Instr.jobq (BitVec.extractLsb' 0 3 ((0#5) ++ n : BitVec 8)) d m) = _; rw [show BitVec.extractLsb' 0 3 ((0#5) ++ n : BitVec 8) = n from ((app_lo _ _ (by decide)).trans app_all)])
theorem Enc.wcbq (d : BitVec 8) (m : BitVec 3) : Enc.Statement (.wcbq d m) := by
  intro k sh w h hw
  cases h
  refine decodeWord_of_raw ?_ hw
  clear hw
  show decFab _ = _
  unfold decFab encA
  rw [FmtA.unpack_pack]
  exact (bind_ok (x := need _) (by with_unfolding_all rfl)).trans <| (bind_ok (only_ok (by decide))).trans <|
    (bind_ok (x := need _) (by with_unfolding_all rfl)).trans <| (bind_ok (decS_enc _)).trans <|
    (by with_unfolding_all rfl)
theorem Enc.sysrd (n : BitVec 8) (d : BitVec 8) (m : BitVec 3) : Enc.Statement (.sysrd n d m) := by
  intro k sh w h hw
  cases h
  refine decodeWord_of_raw ?_ hw
  clear hw
  show decSys _ = _
  unfold decSys encA
  rw [FmtA.unpack_pack]
  exact (bind_ok (x := need _) (by with_unfolding_all rfl)).trans <|
    (bind_ok (x := need _) (by with_unfolding_all rfl)).trans <| (bind_ok (decS_enc _)).trans <|
    (by with_unfolding_all rfl)
theorem Enc.syswr (n : BitVec 8) (a : SImm) (m : BitVec 3) : Enc.Statement (.syswr n a m) := by
  intro k sh w h hw
  cases h
  refine decodeWord_of_raw ?_ hw
  clear hw
  show decSys _ = _
  unfold decSys encA
  rw [FmtA.unpack_pack]
  exact (bind_ok (x := need _) (by with_unfolding_all rfl)).trans <|
    (bind_ok (x := need _) (by with_unfolding_all rfl)).trans <| (bind_ok (decSImm_enc _)).trans <|
    (by with_unfolding_all rfl)
theorem Enc.eret (nxt : Bool) (m : BitVec 3) : Enc.Statement (.eret nxt m) := by
  intro k sh w h hw
  cases h
  refine decodeWord_of_raw ?_ hw
  clear hw
  show decSys _ = _
  unfold decSys encA
  rw [FmtA.unpack_pack]
  exact (bind_ok (x := need _) (by with_unfolding_all rfl)).trans <|
    (bind_ok (only_ok (by cases nxt <;> decide))).trans <|
    (bind_ok (x := need _) (by with_unfolding_all rfl)).trans <|
    (by show Except.ok (Instr.eret (BitVec.getLsbD ((0#7) ++ bb nxt : BitVec 8) 0) m) = _; rw [show BitVec.getLsbD ((0#7) ++ bb nxt : BitVec 8) 0 = nxt from (by cases nxt <;> rfl)])
theorem Enc.clock (d : BitVec 8) (m : BitVec 3) : Enc.Statement (.clock d m) := by
  intro k sh w h hw
  cases h
  refine decodeWord_of_raw ?_ hw
  clear hw
  show decSys _ = _
  unfold decSys encA
  rw [FmtA.unpack_pack]
  exact (bind_ok (x := need _) (by with_unfolding_all rfl)).trans <| (bind_ok (only_ok (by decide))).trans <|
    (bind_ok (x := need _) (by with_unfolding_all rfl)).trans <| (bind_ok (decS_enc _)).trans <|
    (by with_unfolding_all rfl)
theorem Enc.park (a : SImm) (m : BitVec 3) : Enc.Statement (.park a m) := by
  intro k sh w h hw
  cases h
  refine decodeWord_of_raw ?_ hw
  clear hw
  show decSys _ = _
  unfold decSys encA
  rw [FmtA.unpack_pack]
  exact (bind_ok (x := need _) (by with_unfolding_all rfl)).trans <| (bind_ok (only_ok (by decide))).trans <|
    (bind_ok (x := need _) (by with_unfolding_all rfl)).trans <| (bind_ok (decSImm_enc _)).trans <|
    (by with_unfolding_all rfl)
theorem Enc.abort (n : BitVec 8) (m : BitVec 3) : Enc.Statement (.abort n m) := by
  intro k sh w h hw
  cases h
  refine decodeWord_of_raw ?_ hw
  clear hw
  show decSys _ = _
  unfold decSys encA
  rw [FmtA.unpack_pack]
  exact (bind_ok (x := need _) (by with_unfolding_all rfl)).trans <|
    (bind_ok (x := need _) (by with_unfolding_all rfl)).trans <| (by with_unfolding_all rfl)
theorem Enc.brk (n : BitVec 8) (m : BitVec 3) : Enc.Statement (.brk n m) := by
  intro k sh w h hw
  cases h
  refine decodeWord_of_raw ?_ hw
  clear hw
  show decSys _ = _
  unfold decSys encA
  rw [FmtA.unpack_pack]
  exact (bind_ok (x := need _) (by with_unfolding_all rfl)).trans <|
    (bind_ok (x := need _) (by with_unfolding_all rfl)).trans <| (by with_unfolding_all rfl)
theorem Enc.icinv (m : BitVec 3) : Enc.Statement (.icinv m) := by
  intro k sh w h hw
  cases h
  refine decodeWord_of_raw ?_ hw
  clear hw
  show decSys _ = _
  unfold decSys encA
  rw [FmtA.unpack_pack]
  exact (bind_ok (x := need _) (by with_unfolding_all rfl)).trans <| (bind_ok (only_ok (by decide))).trans <|
    (bind_ok (x := need _) (by with_unfolding_all rfl)).trans <| (by with_unfolding_all rfl)
theorem Enc.tlbinv (m : BitVec 3) : Enc.Statement (.tlbinv m) := by
  intro k sh w h hw
  cases h
  refine decodeWord_of_raw ?_ hw
  clear hw
  show decSys _ = _
  unfold decSys encA
  rw [FmtA.unpack_pack]
  exact (bind_ok (x := need _) (by with_unfolding_all rfl)).trans <| (bind_ok (only_ok (by decide))).trans <|
    (bind_ok (x := need _) (by with_unfolding_all rfl)).trans <|
    (if_neg (show ¬ BitVec.getLsbD (0 : BitVec 8) 0 = true by decide)).trans <|
    (bind_ok (x := need _) (by with_unfolding_all rfl)).trans <| (by with_unfolding_all rfl)
theorem Enc.tlbinvVa (a : BitVec 8) (m : BitVec 3) : Enc.Statement (.tlbinvVa a m) := by
  intro k sh w h hw
  cases h
  refine decodeWord_of_raw ?_ hw
  clear hw
  show decSys _ = _
  unfold decSys encA
  rw [FmtA.unpack_pack]
  exact (bind_ok (x := need _) (by with_unfolding_all rfl)).trans <| (bind_ok (only_ok (by decide))).trans <|
    (bind_ok (x := need _) (by with_unfolding_all rfl)).trans <|
    (if_pos (show BitVec.getLsbD (1 : BitVec 8) 0 = true by decide)).trans <| (bind_ok (decS_enc _)).trans <|
    (by with_unfolding_all rfl)
theorem Enc.issueSlotChoice (core : Nat) (slot : Nat) : Enc.Statement (.issueSlotChoice core slot) := fun _ _ _ h => nomatch h
theorem Enc.groupRetire (gid : Nat) : Enc.Statement (.groupRetire gid) := fun _ _ _ h => nomatch h
theorem Enc.blockRetire (blk : Nat) : Enc.Statement (.blockRetire blk) := fun _ _ _ h => nomatch h
theorem Enc.accessCompletion (gid : Nat) (acc : Nat) (lanes : BitVec 64) : Enc.Statement (.accessCompletion gid acc lanes) := fun _ _ _ h => nomatch h
theorem Enc.copyDataArrival (copy : Nat) (line : Nat) : Enc.Statement (.copyDataArrival copy line) := fun _ _ _ h => nomatch h
theorem Enc.qputEntryComplete (gid : Nat) (q : BitVec 3) : Enc.Statement (.qputEntryComplete gid q) := fun _ _ _ h => nomatch h
theorem Enc.sliceClauseIssue (core : Nat) : Enc.Statement (.sliceClauseIssue core) := fun _ _ _ h => nomatch h
theorem Enc.boundaryFaultDelivery (gid : Nat) : Enc.Statement (.boundaryFaultDelivery gid) := fun _ _ _ h => nomatch h
theorem Enc.homeMigrationEpoch : Enc.Statement (.homeMigrationEpoch) := fun _ _ _ h => nomatch h
theorem Enc.gradedStoreClassify (n : Nat) : Enc.Statement (.gradedStoreClassify n) := fun _ _ _ h => nomatch h
theorem Enc.taskComplete (job : Nat) (rec : Nat) : Enc.Statement (.taskComplete job rec) := fun _ _ _ h => nomatch h
theorem Enc.placementDecision : Enc.Statement (.placementDecision) := fun _ _ _ h => nomatch h
theorem Enc.dependenceReread (queue : Nat) : Enc.Statement (.dependenceReread queue) := fun _ _ _ h => nomatch h
theorem Enc.gridCompletion (grid : Nat) : Enc.Statement (.gridCompletion grid) := fun _ _ _ h => nomatch h
theorem Enc.gridCancel (grid : Nat) : Enc.Statement (.gridCancel grid) := fun _ _ _ h => nomatch h
theorem Enc.leaseWindow (core : Nat) : Enc.Statement (.leaseWindow core) := fun _ _ _ h => nomatch h
theorem Enc.victimHitCheck (core : Nat) : Enc.Statement (.victimHitCheck core) := fun _ _ _ h => nomatch h
theorem Enc.parkingThreshold (stook : Nat) : Enc.Statement (.parkingThreshold stook) := fun _ _ _ h => nomatch h
theorem Enc.faultQueueAppend (die : Nat) : Enc.Statement (.faultQueueAppend die) := fun _ _ _ h => nomatch h
theorem Enc.relaunchSignal (stook : Nat) : Enc.Statement (.relaunchSignal stook) := fun _ _ _ h => nomatch h
theorem Enc.parkTimerExpiry (stook : Nat) : Enc.Statement (.parkTimerExpiry stook) := fun _ _ _ h => nomatch h
theorem Enc.watchdogExpiry (blk : Nat) : Enc.Statement (.watchdogExpiry blk) := fun _ _ _ h => nomatch h
theorem Enc.fqcmdResolve (die : Nat) (idx : BitVec 12) : Enc.Statement (.fqcmdResolve die idx) := fun _ _ _ h => nomatch h
theorem Enc.fqcmdCancel (die : Nat) (idx : BitVec 12) : Enc.Statement (.fqcmdCancel die idx) := fun _ _ _ h => nomatch h
theorem Enc.preemptJob (job : Nat) : Enc.Statement (.preemptJob job) := fun _ _ _ h => nomatch h
theorem Enc.preemptGrid (num : BitVec 30) : Enc.Statement (.preemptGrid num) := fun _ _ _ h => nomatch h
theorem Enc.preemptCore (core : Nat) : Enc.Statement (.preemptCore core) := fun _ _ _ h => nomatch h
theorem Enc.rqregRegister (q : BitVec 16) : Enc.Statement (.rqregRegister q) := fun _ _ _ h => nomatch h
theorem Enc.rqregDeregister (q : BitVec 16) : Enc.Statement (.rqregDeregister q) := fun _ _ _ h => nomatch h
theorem Enc.registerWrite (body : Body) (r : ConfigReg) (v : Nat) : Enc.Statement (.registerWrite body r v) := fun _ _ _ h => nomatch h
theorem Enc.lqtail (queue : Nat) (v : Nat) : Enc.Statement (.lqtail queue v) := fun _ _ _ h => nomatch h
theorem Enc.remotePacketReceive (inward : Bool) (n : Nat) : Enc.Statement (.remotePacketReceive inward n) := fun _ _ _ h => nomatch h
theorem Enc.gradeNotice (n : Notice) : Enc.Statement (.gradeNotice n) := fun _ _ _ h => nomatch h
theorem Enc.wcbAgeExpiry (core : Nat) (n : Nat) : Enc.Statement (.wcbAgeExpiry core n) := fun _ _ _ h => nomatch h
theorem Enc.routeTableUpdate : Enc.Statement (.routeTableUpdate) := fun _ _ _ h => nomatch h
theorem Enc.routeColourRetire : Enc.Statement (.routeColourRetire) := fun _ _ _ h => nomatch h
theorem Enc.linkBufferDegrade (link : Nat) (cells : Nat) : Enc.Statement (.linkBufferDegrade link cells) := fun _ _ _ h => nomatch h
theorem Enc.jobSwitchCommand (job : Nat) (panel : Nat) (out : Bool) (stamp : Nat) : Enc.Statement (.jobSwitchCommand job panel out stamp) := fun _ _ _ h => nomatch h
theorem Enc.switchOutStamp (job : Nat) : Enc.Statement (.switchOutStamp job) := fun _ _ _ h => nomatch h
theorem Enc.switchSeal (job : Nat) : Enc.Statement (.switchSeal job) := fun _ _ _ h => nomatch h
theorem Enc.switchInStamp (job : Nat) : Enc.Statement (.switchInStamp job) := fun _ _ _ h => nomatch h
theorem Enc.latePacket (p : Packet) : Enc.Statement (.latePacket p) := fun _ _ _ h => nomatch h
theorem Enc.dieWarmReset (die : Nat) : Enc.Statement (.dieWarmReset die) := fun _ _ _ h => nomatch h
theorem Enc.powerLimiter (above : Bool) : Enc.Statement (.powerLimiter above) := fun _ _ _ h => nomatch h
theorem Enc.identityStatement (nonce : BitVec 256) : Enc.Statement (.identityStatement nonce) := fun _ _ _ h => nomatch h
theorem Enc.firmwareImageVerify (img : FwImage) : Enc.Statement (.firmwareImageVerify img) := fun _ _ _ h => nomatch h
theorem Enc.jobCreate (j : JobSpec) : Enc.Statement (.jobCreate j) := fun _ _ _ h => nomatch h
theorem Enc.jobEnd (job : Nat) : Enc.Statement (.jobEnd job) := fun _ _ _ h => nomatch h
theorem Enc.hostCxlRead (addr : Nat) (n : Nat) : Enc.Statement (.hostCxlRead addr n) := fun _ _ _ h => nomatch h
theorem Enc.deviceReset (img : FwImage) : Enc.Statement (.deviceReset img) := fun _ _ _ h => nomatch h
theorem Enc.eccUncorrectableError (addr : Nat) : Enc.Statement (.eccUncorrectableError addr) := fun _ _ _ h => nomatch h
theorem Enc.hostCxlWrite (addr : Nat) (bytes : List (BitVec 8)) : Enc.Statement (.hostCxlWrite addr bytes) := fun _ _ _ h => nomatch h

end Sys2Proof.Laws
end

