-- ==== Sys2Proof/Tests/Slice0.lean ====
section
/-!
SUPPORT. Tests of the model: ill-formed instructions that WellFormed refuses, words of the manual and what they decode to,
single steps on small states with results from the manual's rules and examples, and for every statement a state and operands
that meet its hypotheses.
-/
namespace Sys2Proof.Tests

open Sys2Proof Sys2Proof.Machine

/-! ### Instructions that WellFormed refuses -/

/-- A scalar destination with a per-lane source (R81), for one, two and three sources. -/
theorem test_wf_any :
    Instr.wf (.iabs ⟨.s 0, .v 0, false, 0⟩) = false ∧ Instr.wf (.iadd ⟨.s 0, .imm 1, .v 0, false, 0⟩) = false ∧
      Instr.wf (.imad ⟨.s 0, .imm 1, .imm 1, .y 0, false, 0⟩) = false ∧
      Instr.wf (.iadd ⟨.s 0, .sp .lane, .imm 1, false, 0⟩) = false ∧
      Instr.wf (.imulh true ⟨.s 0, .q 0, .imm 1, false, 0⟩) = false ∧
      Instr.wf (.tri 0 ⟨.s 0, .v 0, .imm 1, .imm 1, false, 0⟩) = false := by decide

/-- Compares, selection, moves and computed indices (R90 to R93). -/
theorem test_wf_select :
    Instr.wf (.icmp .eq false ⟨.s 1, .v 0, .v 0, false, 0⟩) = false ∧
      Instr.wf (.sel true ⟨.v 0, .v 0, .v 0, .s 1, false, 0⟩) = false ∧
      Instr.wf (.movi ⟨.v 0, .v 1, 0, false, 0⟩) = false ∧ Instr.wf (.vfill ⟨.s 0, .imm 0, .imm 0, false, 0⟩) = false ∧
      Instr.wf (.vpick ⟨.v 0, .v 0, .imm 0, false, 0⟩) = false ∧ Instr.wf (.vpick ⟨.s 0, .v 0, .v 0, false, 0⟩) = false ∧
      Instr.wf (.ridx ⟨.v 0, .s 0, .v 0, false, 0⟩) = false ∧ Instr.wf (.ridx ⟨.s 0, .v 0, .v 0, false, 0⟩) = false ∧
      Instr.wf (.widx ⟨.s 0, .v 0, .v 0, false, 0⟩) = false := by decide

/-- Tags, addresses and masks (R94 to R96). -/
theorem test_wf_masks :
    Instr.wf (.tag .f32 ⟨.s 0, .v 0, false, 0⟩) = false ∧ Instr.wf (.tagq ⟨.s 0, .s 0, false, 0⟩) = false ∧
      Instr.wf (.lea ⟨.v 1, .v 0, 0, false, 0⟩) = false ∧ Instr.wf (.lea ⟨.v 0, .v 1, 0, false, 0⟩) = false ∧
      Instr.wf (.add64 true false 0 ⟨.v 0, .v 0, .v 1, false, 0⟩) = false ∧
      Instr.wf (.add64 true true 0 ⟨.v 0, .v 0, .v 2, false, 0⟩) = false ∧
      Instr.wf (.mlop .and ⟨.s 1, .s 0, .s 2, false, 0⟩) = false ∧
      Instr.wf (.mlop .not ⟨.s 0, .s 0, .s 2, false, 0⟩) = false ∧
      Instr.wf (.mlop .act ⟨.s 0, .s 0, .v 0, false, 0⟩) = false ∧
      Instr.wf (.mcnt ⟨.s 0, .v 0, false, 0⟩) = false ∧ Instr.wf (.mfirst ⟨.v 0, .s 0, false, 0⟩) = false := by decide

/-- Conversions and packing (R111, R116, R119, R121). -/
theorem test_wf_float :
    Instr.wf (.fcmp .lt ⟨.s 1, .v 0, .v 0, false, 0⟩) = false ∧ Instr.wf (.fadd .rn ⟨.s 0, .v 0, .imm 1, false, 0⟩) = false ∧
      Instr.wf (.cvt .bf16x2F32 true .rn ⟨.v 0, .v 0, .v 0, false, 0⟩) = false ∧
      Instr.wf (.cvt .f32Bf16 false .rz ⟨.v 0, .v 0, .v 0, false, 0⟩) = false ∧
      Instr.wf (.cvt .bf16x2F16x2 false .rn ⟨.v 0, .v 0, .v 1, false, 0⟩) = false ∧
      Instr.wf (.d8pack 0 false false ⟨.v 0, .v 0, .v 1, false, 0⟩) = false ∧
      Instr.wf (.d8unpk 0 true ⟨.s 0, .v 0, .v 1, false, 0⟩) = false ∧
      Instr.wf (.s8scale ⟨.s 0, .imm 1, false, 0⟩) = false := by decide

/-- Cross-lane and sampling instructions (R126 to R131, R203 to R206). -/
theorem test_wf_cross :
    Instr.wf (.shx .w64 ⟨.s 0, .imm 1, .imm 1, false, 0⟩) = false ∧
      Instr.wf (.shup .w64 ⟨.v 0, .v 0, .v 1, false, 0⟩) = false ∧ Instr.wf (.bcast ⟨.v 0, .v 0, .q 1, false, 0⟩) = false ∧
      Instr.wf (.redadd .i32 .w64 .rz ⟨.v 0, .v 0, false, 0⟩) = false ∧
      Instr.wf (.redmin .i32 .w16 ⟨.s 0, .v 0, false, 0⟩) = false ∧
      Instr.wf (.redmaxi .f32 .w64 ⟨.s 1, .v 0, false, 0⟩) = false ∧
      Instr.wf (.scan .min .f32 .w64 .ru ⟨.v 0, .v 0, false, 0⟩) = false ∧
      Instr.wf (.ballot ⟨.v 0, .v 0, false, 0⟩) = false ∧ Instr.wf (.matchLanes ⟨.v 1, .v 0, false, 0⟩) = false ∧
      Instr.wf (.reorder false (.v 0) (.s 3) 0) = false ∧ Instr.wf (.rngkey (.s 1) (.imm 0) 0) = false ∧
      Instr.wf (.rngkeyGet 3 0) = false ∧ Instr.wf (.rngnext ⟨.s 0, false, 0⟩) = false ∧
      Instr.wf (.samplecat ⟨.v 0, .v 0, .v 1, false, 0⟩) = false := by decide

/-- Control flow (R71). -/
theorem test_wf_flow :
    Instr.wf (.jsc false (.v 0) 0) = false ∧ Instr.wf (.jind (.v 1)) = false ∧ Instr.wf (.ret (.s 3)) = false ∧
      Instr.wf (.call 1 0) = false ∧ Instr.wf (.calli (.v 0) 3) = false ∧ Instr.wf (.meet 5 0) = false ∧
      Instr.wf (.meetPop 7) = false := by decide

/-- A memory instruction's fields in order, for the tests that spoil one of them. -/
def okF : MemF := { data := .v 2, base := .v 4, ord := .pl, scope := .thr, tok := 1, fmt := .b32, msel := 0, nw := false, mode := .vec }

/-- Memory accesses: mode, base, data, order, scope, format and no-write-back (R53 to R55, R162 to R175). -/
theorem test_wf_mem :
    Instr.wf (.ld { okF with base := .v 5 } 0 0 0) = false ∧ Instr.wf (.ld { okF with mode := .scratch } 0 0 0) = false ∧
      Instr.wf (.ld { okF with data := .s 2 } 0 0 0) = false ∧ Instr.wf (.ld { okF with ord := .rel } 0 0 0) = false ∧
      Instr.wf (.ld { okF with fmt := .b64, data := .v 3 } 0 0 0) = false ∧
      Instr.wf (.ld { okF with fmt := .b128, data := .v 6 } 0 0 0) = false ∧
      Instr.wf (.st { okF with nw := true } 0 0 0) = false ∧ Instr.wf (.st { okF with ord := .acq } 0 0 0) = false ∧
      Instr.wf (.lds { okF with base := .v 4 } 0) = false ∧
      Instr.wf (.lds { okF with mode := .scratch, scope := .dev } 0) = false ∧
      Instr.wf (.sts { okF with mode := .scratch, nw := true } 0) = false ∧
      Instr.wf (.ldc { okF with ord := .acq } 0 0) = false ∧ Instr.wf (.ldc { okF with scope := .blk } 0 0) = false ∧
      Instr.wf (.ldw { okF with fmt := .b16 } (.v 0) 0 0) = false ∧
      Instr.wf (.atom .add .pred { okF with data := .s 2, mode := .sca, base := .s 4 } (.v 0)) = false ∧
      Instr.wf (.atom .incw .pred { okF with fmt := .i32 } (.v 0)) = false ∧
      Instr.wf (.atom .add .pred { okF with nw := true } (.v 0)) = false ∧
      Instr.wf (.atomcas { okF with nw := true } (.v 0)) = false ∧ Instr.wf (.atomcas { okF with fmt := .b16 } (.v 0)) = false ∧ Instr.wf (.atomcas okF (.imm 0)) = false ∧
      Instr.wf (.red .exch .pred okF 0) = false ∧ Instr.wf (.red .add .pred { okF with ord := .acq } 0) = false ∧
      Instr.wf (.cred { okF with nw := true } 0) = false ∧ Instr.wf (.crdecl .add 0 3 .b32 0) = false ∧
      Instr.wf (.crdecl .exch 0 2 .b32 0) = false ∧ Instr.wf (.crfree 3 0) = false ∧ Instr.wf (.fence .pl .dev 0) = false ∧
      Instr.wf (.flushr 0 3 .dev 0 0) = false ∧ Instr.wf (.pref (.s 0) 0 0 .b32 0 .scratch) = false ∧
      Instr.wf (.lease (.imm 255) 0) = false ∧ Instr.wf (.barar (.imm 1) 24 0) = false ∧ Instr.wf (.barwt 31 0) = false ∧
      Instr.wf (.barq 0 24 0) = false := by decide

/-- The Reaper, the Thresher, tasks, the fabric and the SYS class (R212, R245, R248, R253 to R257, R291, R375, R345). -/
theorem test_wf_engines :
    Instr.wf (.rrec (.s 1) 0 0) = false ∧ Instr.wf (.rrec (.imm 0) 0 0) = false ∧ Instr.wf (.rrec (.x 0) 1 0) = false ∧
      Instr.wf (.rcopy (.s 0) (.x 0) (.s 2) 0 0) = false ∧ Instr.wf (.rcopyo (.x 0) (.x 1) (.x 2) 0 1) = false ∧
      Instr.wf (.xadd 0 (.s 0) (.x 0)) = false ∧ Instr.wf (.qput .b64 false 0 0 (.imm 4)) = false ∧
      Instr.wf (.qput .b32 false 0 0 (.s 0)) = false ∧ Instr.wf (.thres 0 1 0) = false ∧
      Instr.wf (.tbuild 0 5 false false 0 (.k 0) (.k 0) (.k 0)) = false ∧
      Instr.wf (.tbuild 0 0 false false 1 (.k 0) (.k 0) (.k 0)) = false ∧
      Instr.wf (.tbuild 1 0 false true 0 (.k 0) (.k 0) (.k 0)) = false ∧ Instr.wf (.tcode 3 0 (.k 0) (.k 0)) = false ∧
      Instr.wf (.tmac false 0 0 3 0 (.k 0) (.k 0) (.k 0)) = false ∧ Instr.wf (.tald 5 0 0 (.k 0) (.k 0)) = false ∧
      Instr.wf (.tast 3 0 0 0 (.k 0) (.k 0) (.k 0)) = false ∧ Instr.wf (.tast 0 0 0 0 (.k 0) (.k 0) (.k 1)) = false ∧
      Instr.wf (.tspawn 0 1 0 0) = false ∧ Instr.wf (.tjoin 0 (.imm 255) 0) = false ∧ Instr.wf (.promote 0 0 (.imm 1) 0 0) = false ∧
      Instr.wf (.qpush 0 0 2 0 0) = false ∧ Instr.wf (.qpop 2 0 0 0 0) = false ∧ Instr.wf (.qpopw 1 0 0 0) = false ∧
      Instr.wf (.lwait (.imm 128) 0) = true ∧ Instr.wf (.ffence 0 0) = false ∧ Instr.wf (.jobq 5 0 0) = false ∧
      Instr.wf (.clock 1 0) = false ∧ Instr.wf (.park (.imm 255) 0) = false ∧ Instr.wf (.tlbinvVa 1 0) = false := by decide

/-! ### Words of the manual -/

/-- The words that the manual writes out for the integer block. -/
theorem test_decode_integer :
    decodeWord .alu false 0x0001208008000000 = .ok (.iadd ⟨.v 4, .q 0, .v 2, false, 0⟩) ∧
      decodeWord .alu false 0x0A01600C08000000 = .ok (.shl ⟨.v 5, .y 0, .imm 2, false, 0⟩) ∧
      decodeWord .alu false 0x13024010080300E8 = .ok (.tri 0xE8 ⟨.v 9, .v 1, .v 2, .v 3, false, 0⟩) ∧
      decodeWord .alu false 0x2502804000000400 = .ok (.lea ⟨.v 10, .v 4, 64, false, 0⟩) ∧
      decodeWord .alu false 0x1C4611C4611A0001 = .ok (.sel true ⟨.s 24, .s 28, .s 24, .s 26, false, 0⟩) :=
  ⟨rfl, rfl, rfl, rfl, rfl⟩

/-- The float block. -/
theorem test_decode_float :
    decodeWord .alu false 0x43030040140C0000 = .ok (.ffma .rn ⟨.v 12, .v 4, .v 5, .v 12, false, 0⟩) ∧
      decodeWord .alu false 0x5501801008000010 = .ok (.cvt .bf16x2F32 false .rz ⟨.v 6, .v 1, .v 2, false, 0⟩) ∧
      decodeWord .alu false 0x5A02C0102800000A = .ok (.d8pack 2 false true ⟨.v 11, .v 1, .v 10, false, 0⟩) ∧
      decodeWord .alu false 0x484691C460000004 = .ok (.fcmp .gt ⟨.s 26, .s 28, .s 24, false, 0⟩) :=
  ⟨rfl, rfl, rfl, rfl⟩

/-- The cross-lane block and the Sieve. -/
theorem test_decode_cross :
    decodeWord .alu false 0x854A00C000000002 = .ok (.redadd .f32 .w64 .rn ⟨.s 40, .v 12, false, 0⟩) ∧
      decodeWord .alu false 0x8D000034A0000000 = .ok (.reorder false (.v 3) (.s 40) 0) ∧
      decodeWord .alu false 0x8E41C00000000001 = .ok (.xlockTry 7 0) ∧
      decodeWord .alu false 0xA000114458000000 = .ok (.rngkey (.s 20) (.s 22) 0) ∧
      decodeWord .alu false 0xA105000000000000 = .ok (.rngnext ⟨.v 20, false, 0⟩) ∧
      decodeWord .alu false 0xA44780C47C000000 = .ok (.samplecat ⟨.s 30, .v 12, .s 31, false, 0⟩) :=
  ⟨rfl, rfl, rfl, rfl, rfl, rfl⟩

/-- The FLOW and MEM classes. -/
theorem test_decode_flow_mem :
    decodeWord .flow false 0x0000000FFFFFFF70 = .ok (.jmp 0xFFFFFFF7) ∧
      decodeWord .flow false 0x0900014000000080 = .ok (.meet 20 8) ∧ decodeWord .flow false 0x0900014000000001 = .ok (.meetPop 20) ∧
      decodeWord .flow false 0x0200400000000060 = .ok (.jv false (.v 1) 6) ∧
      decodeWord .mem false 0x00020040026B8D00 = .ok (.ld ⟨.v 8, .v 4, .acq, .dev, 3, .f32, 0, false, .vec⟩ 2 3 2) ∧
      decodeWord .mem false 0x0602004024A808C0 = .ok (.atom .add .pred ⟨.v 8, .v 4, .rel, .dev, 2, .i32, 0, false, .vec⟩ (.v 9)) ∧
      decodeWord .mem false 0x0C00000000E80000 = .ok (.fence .ar .dev 0) ∧
      decodeWord .mem false 0x13C1000003000000 = .ok (.barsy (.imm 4) 3 0) ∧
      decodeWord .mem false 0x144C800003000000 = .ok (.barq 50 3 0) :=
  ⟨rfl, rfl, rfl, rfl, rfl, rfl, rfl, rfl, rfl⟩

/-- The REAP, TABLE, TASK, FAB and SYS classes. -/
theorem test_decode_engines :
    decodeWord .reap false 0x02001144611A1000 = .ok (.rcopy (.s 20) (.s 24) (.s 26) 2 0) ∧
      decodeWord .reap true 0x1400014C10000004 = .ok (.qput .f32 false 0 20 (.imm 4)) ∧
      decodeWord .table false 0x004A114000000000 = .ok (.thres 40 20 0) ∧
      decodeWord .table false 0x1800302000000001 = .ok (.tbar false 1 (.imm 2)) ∧
      decodeWord .table false 0x190000F000000000 = .ok (.tloop 15 0) ∧
      decodeWord .task false 0x004A114000000800 = .ok (.tspawn 40 20 1 0) ∧
      decodeWord .task false 0x0700114458001803 = .ok (.promote 3 20 (.s 22) 3 0) ∧
      decodeWord .task false 0x0E00300000000000 = .ok (.lwait (.imm 0) 0) ∧
      decodeWord .fab false 0x0243000000000004 = .ok (.jobq 4 12 0) ∧ decodeWord .fab false 0x0100000000001000 = .ok (.fdrain 2 0) ∧
      decodeWord .sys false 0x0041000000000000 = .ok (.sysrd 0 4 0) ∧ decodeWord .sys false 0x0200000000000001 = .ok (.eret true 0) ∧
      decodeWord .sys false 0x0600000000000007 = .ok (.brk 7 0) :=
  ⟨rfl, rfl, rfl, rfl, rfl, rfl, rfl, rfl, rfl, rfl, rfl, rfl, rfl⟩

/-! ### Single steps -/

/-- A device with one group, number 3, in a block alone on core 0, whose open clause has the given header. -/
def unit (hdr : Nat) : State := State.reset.placeWord hdr

/-- The state an instruction leaves. -/
def after (i : Instr) (s : State) : State :=
  match exec i s with
  | .next t => t
  | _ => State.reset

end Sys2Proof.Tests

namespace Sys2Proof.Machine

/-- The group's vector register `n` holds one word in every lane. -/
def State.withV (s : State) (n : Nat) (w : Word) (t : Tag) : State :=
  s.modGrp 3 fun g => { g with vregs := Tbl.put g.vregs n { lanes := List.replicate 64 w, tag := t } }

/-- The group's vector register `n` holds its lane's number times a factor. -/
def State.withLanes (s : State) (n k : Nat) : State :=
  s.modGrp 3 fun g => { g with vregs := Tbl.put g.vregs n { lanes := (List.range 64).map fun L => BitVec.ofNat 32 (k * L), tag := .b32 } }

/-- The group's scalar register `n` holds a word. -/
def State.withS (s : State) (n : Nat) (w : Word) : State := s.modGrp 3 fun g => g.setSreg n w

end Sys2Proof.Machine

namespace Sys2Proof.Tests

open Sys2Proof Sys2Proof.Machine

/-- A lane of a vector register, and a scalar, of the group. -/
def laneOf (s : State) (n L : Nat) : Word := (s.vreg 3 n).lanes.at L
def scalarOf (s : State) (n : Nat) : Word := s.sreg 3 n

set_option maxRecDepth 40000

/-- R85: sums wrap. -/
theorem test_iadd_wraps :
    laneOf (after (.iadd ⟨.v 4, .v 1, .imm 2, false, 0⟩) ((unit 0).withV 1 0xFFFFFFFF .b32)) 4 63 = 1 := by decide
/-- R85: `.co` gives the carry out of bit 31, with a carry in. -/
theorem test_iaddc_carry :
    laneOf (after (.iaddc true ⟨.v 4, .v 1, .imm 0, .imm 1, false, 0⟩) ((unit 0).withV 1 0xFFFFFFFF .b32)) 4 5 = 1 := by decide
/-- R85: the signed high half of −1 × 2. -/
theorem test_imulh_signed :
    laneOf (after (.imulh true ⟨.v 4, .v 1, .imm 2, false, 0⟩) ((unit 0).withV 1 0xFFFFFFFF .b32)) 4 0 = 0xFFFFFFFF := by decide
/-- R85: 0x8000_0000 is its own magnitude. -/
theorem test_iabs_least :
    laneOf (after (.iabs ⟨.v 4, .v 1, false, 0⟩) ((unit 0).withV 1 0x80000000 .b32)) 4 9 = 0x80000000 := by decide
/-- R86: a signed shift by 31 or more repeats the sign. -/
theorem test_shr_far :
    laneOf (after (.shr true ⟨.v 4, .v 1, .imm 40, false, 0⟩) ((unit 0).withV 1 0x80000000 .b32)) 4 9 = 0xFFFFFFFF := by decide
/-- R86: a rotation by 32 gives A. -/
theorem test_rot_none :
    laneOf (after (.rot ⟨.v 4, .v 1, .imm 32, false, 0⟩) ((unit 0).withV 1 0x80000001 .b32)) 4 9 = 0x80000001 := by decide
/-- R87: the table 0xE8 is the majority. -/
theorem test_tri_majority :
    laneOf (after (.tri 0xE8 ⟨.v 4, .v 1, .imm 6, .imm 5, false, 0⟩) ((unit 0).withV 1 3 .b32)) 4 9 = 7 := by decide
/-- R88: a field past bit 31 reads sign bits under `.s`. -/
theorem test_bfx_sign :
    laneOf (after (.bfx true ⟨.v 4, .v 1, .v 2, false, 0⟩) (((unit 0).withV 1 0xF0000000 .b32).withV 2 0x101C .b32)) 4 9 =
      0xFFFFFFFF := by decide
/-- R89: the selector 0x0123 reverses the bytes of A. -/
theorem test_bperm_reverse :
    laneOf (after (.bperm ⟨.v 4, .v 1, .imm 0, .v 2, false, 0⟩) (((unit 0).withV 1 0x11223344 .b32).withV 2 0x0123 .b32)) 4 1 =
      0x44332211 := by decide
/-- R90: a scalar pair holds the mask of the lanes whose test holds: lanes 0 to 4 are below 5. -/
theorem test_icmp_mask :
    scalarOf (after (.icmp .lt true ⟨.s 6, .v 1, .imm 5, false, 0⟩) ((unit 0).withLanes 1 1)) 6 = 0x1F := by decide
/-- R91: of two sources with one tagged, the result takes that tag. -/
theorem test_sel_tag :
    ((after (.sel false ⟨.v 4, .v 1, .imm 0, .imm 0, false, 0⟩) ((unit 0).withV 1 7 .f32)).vreg 3 4).tag = .f32 ∧
      laneOf (after (.sel false ⟨.v 4, .v 1, .imm 0, .imm 0, false, 0⟩) ((unit 0).withV 1 7 .f32)) 4 2 = 0 := by decide
/-- R92: `vfill v3, s4, 4` writes s4, s4 + 4 and so on. -/
theorem test_vfill :
    laneOf (after (.vfill ⟨.v 3, .s 4, .imm 4, false, 0⟩) ((unit 0).withS 4 100)) 3 5 = 120 := by decide
/-- R92: `vpick` reads lane n mod 64. -/
theorem test_vpick :
    scalarOf (after (.vpick ⟨.s 4, .v 1, .v 2, false, 0⟩) (((unit 0).withLanes 1 3).withV 2 65 .b32)) 4 = 3 := by decide
/-- R93: each lane reads the register it computes. -/
theorem test_ridx :
    laneOf (after (.ridx ⟨.v 4, .v 1, .v 3, false, 0⟩) (((unit 0).withV 2 9 .b32).withV 3 1 .b32)) 4 8 = 9 := by decide
/-- R93: 22 with 8 declared registers is a register-range fault, and the destination stands. -/
theorem test_widx_range :
    ((after (.widx ⟨.v 0, .imm 22, .imm 1, false, 0⟩) (unit 0)).vreg 3 0).lanes.at 0 = 0 := by decide
/-- R95: `add64.sh2` adds four times a signed index. -/
theorem test_add64 :
    scalarOf (after (.add64 false false 2 ⟨.s 6, .s 4, .imm 255, false, 0⟩) (((unit 0).withS 4 2).withS 5 1)) 6 = 0xFFFFFFFE := by
  decide
/-- R96: `mfirst` of 0 is 64. -/
theorem test_mfirst :
    scalarOf (after (.mfirst ⟨.s 6, .imm 0, false, 0⟩) (unit 0)) 6 = 64 := by decide
/-- R23: an F32 instruction refuses a source under another tag, and its destination stands. -/
theorem test_tag_fault :
    laneOf (after (.fadd .rn ⟨.v 4, .v 1, .v 1, false, 0⟩) ((unit 0).withV 1 0x3F800000 .i32)) 4 0 = 0 := by decide

/-- R108: 2 × 3 + 1 = 7. -/
theorem test_ffma :
    laneOf (after (.ffma .rn ⟨.v 4, .imm 2, .imm 3, .imm 1, false, 0⟩) (unit 0)) 4 7 = 0x40E00000 := by decide
/-- R109: −0 is below +0. -/
theorem test_fmin_zero :
    laneOf (after (.fmin ⟨.v 4, .v 1, .v 2, false, 0⟩) (((unit 0).withV 1 0 .f32).withV 2 0x80000000 .f32)) 4 7 = 0x80000000 := by
  decide
/-- R113: `frcp.rz` of the smallest subnormal is the largest finite value. -/
theorem test_frcp :
    laneOf (after (.frcp .rz ⟨.v 4, .v 1, false, 0⟩) ((unit 0).withV 1 1 .f32)) 4 7 = 0x7F7FFFFF := by decide
/-- R115: `f2i.u.rn` of −7.0 is 0. -/
theorem test_f2i :
    laneOf (after (.f2i .rn false ⟨.v 4, .v 1, false, 0⟩) ((unit 0).withV 1 0xC0E00000 .f32)) 4 7 = 0 := by decide
/-- R115: `i2f.s.rz` of 0x7FFF_FFFF is 2,147,483,520. -/
theorem test_i2f :
    laneOf (after (.i2f .rz true ⟨.v 4, .v 1, false, 0⟩) ((unit 0).withV 1 0x7FFFFFFF .b32)) 4 7 = 0x4EFFFFFF := by decide
/-- R114: `frnd.ru` of −0.5 is −0. -/
theorem test_frnd :
    laneOf (after (.frnd .ru ⟨.v 4, .v 1, false, 0⟩) ((unit 0).withV 1 0xBF000000 .f32)) 4 7 = 0x80000000 := by decide
/-- R116: `cvt.bf16x2` puts A in element 0 and B in element 1. -/
theorem test_cvt :
    laneOf (after (.cvt .bf16x2F32 false .rn ⟨.v 4, .imm 1, .imm 2, false, 0⟩) (unit 0)) 4 7 = 0x40003F80 := by decide
/-- R122: `i8pack` saturates and keeps the other bytes. -/
theorem test_i8pack :
    laneOf (after (.i8pack 1 .rn ⟨.v 4, .v 1, false, 0⟩) (((unit 0).withV 1 0x43800000 .f32).withV 4 0xAABBCCDD .b32)) 4 0 =
      0xAABB7FDD := by decide

/-- R126: `shx v7, v7, 1` swaps neighbours in place. -/
theorem test_shx :
    laneOf (after (.shx .w64 ⟨.v 7, .v 7, .imm 1, false, 0⟩) ((unit 0).withLanes 7 1)) 7 5 = 4 := by decide
/-- R127: the lanes of a segment of 16 sum to 120 for lanes 0 to 15. -/
theorem test_redadd :
    laneOf (after (.redadd .i32 .w16 .rn ⟨.v 4, .v 1, false, 0⟩) ((unit 0).withLanes 1 1)) 4 3 = 120 := by decide
/-- R129: `.exadd` gives the first lane 0 and lane 3 the sum of lanes 0 to 2. -/
theorem test_scan :
    laneOf (after (.scan .exadd .i32 .w64 .rn ⟨.v 4, .v 1, false, 0⟩) ((unit 0).withLanes 1 1)) 4 3 = 3 := by decide
/-- R204: with K = 0 and C = 0 lane 0 draws 0, and C becomes 1 (R201). -/
theorem test_rngnext :
    laneOf (after (.rngnext ⟨.v 4, false, 0⟩) (unit 0)) 4 0 = 0 ∧
      ((after (.rngnext ⟨.v 4, false, 0⟩) (unit 0)).grp 3).rngC = 1 := by decide
/-- R206: the largest value of lanes 0 to 63 is that of lane 63 for k = 1. -/
theorem test_topkthr :
    laneOf (after (.topkthr ⟨.v 4, .v 1, .imm 0, false, 0⟩) ((unit 0).withV 1 0x3F800000 .f32)) 4 0 = 0x7F800000 := by decide

/-- R72: a jump to its own clause moves every thread there. -/
theorem test_jmp : ((after (.jmp 0) (unit 0x1000000000000000)).grp 3).pc 5 = 65536 := by decide
/-- R72: a counter of 1 falls through: `Next` is the header plus 16. -/
theorem test_loop : ((after (.loop 4 0) ((unit 0x1000000000000000).withS 4 1)).grp 3).pc 5 = 65552 := by decide
/-- R77: `exit` marks every thread of the cluster. -/
theorem test_exit : ((after .exit (unit 0x1000000000000000)).grp 3).exited = BitVec.allOnes 64 := by decide
/-- R78: `wait` holds while a token it names is not clear. -/
theorem test_wait :
    ((after (.wait 1) ((unit 0x1000000000000000).modGrp 3 fun g => g.addToken 1)).grp 3).heldAt = true := by decide
/-- R343, R79: a trap with no handler ends the grid with the fault's code. -/
theorem test_trap_no_handler :
    ((after (.trap 5) (unit 0x1000000000000000)).grid 4).status = 0x1D := by decide

/-- R160, R166: a load of 4 bytes is left outstanding with each lane's address, and its token counts. -/
theorem test_ld_issues :
    let t := after (.ld { okF with base := .s 4, mode := .sca } 0 0 0) ((unit 0x2000000000000000).withS 4 65536)
    ((t.grp 3).out.map fun a => (a.addrOf 7, a.tok)) = [(0, 1)] ∧ (t.grp 3).token 1 = 1 := by decide
/-- R160: a misaligned address is an alignment fault, and nothing is left outstanding. -/
theorem test_ld_misaligned :
    ((after (.ld { okF with base := .s 4, mode := .sca } 0 0 0) ((unit 0x2000000000000000).withS 4 65538)).grid 4).status = 0x08 := by
  decide
/-- R193: the arrival that reaches the count completes the phase and flips the parity. -/
theorem test_barar :
    (after (.barar (.imm 1) 3 0) (unit 0x2000000000000000)).bar 2 3 = { n := 0, a := 0, p := true } := by decide
/-- R193: a count of 0 is a barrier-count fault. -/
theorem test_barar_count :
    ((after (.barar (.imm 0) 3 0) (unit 0x2000000000000000)).grid 4).status = 0x0C := by decide
/-- R180: a lease above 512 takes 512. -/
theorem test_lease :
    ((after (.lease (.s 4) 0) ((unit 0x2000000000000000).withS 4 0xFFFFFFFF)).grp 3).leaseNext = 512 := by decide
/-- R226: `qstat.sl` of a group with no slice is 0. -/
theorem test_qstat : scalarOf (after (.qstat true 4 0) ((unit 0x3000000000000000).withS 4 9)) 4 = 0 := by decide
/-- R223, R38: `xend` ends the slice of a shadow clause. -/
theorem test_xend : ((after .xend (unit 0x3000000040000000)).grp 3).slice.st = .ended := by decide
/-- R258: `tend` stops the sequencer, which keeps its reservation. -/
theorem test_tend :
    ((after .tend (unit (0x4000000000000000 + 0x1A00000000000000 * 2 ^ 64))).thr 0).st = .ended ∧
      ((after .tend (unit (0x4000000000000000 + 0x1A00000000000000 * 2 ^ 64))).thr 0).holder = some 2 := by decide
/-- R376: `jobq` names the job's chips. -/
theorem test_jobq : scalarOf (after (.jobq 0 4 0) (unit 0x6000000000000000)) 4 = 1 := by decide
/-- R346: PARKTH reads 20 after reset. -/
theorem test_sysrd : scalarOf (after (.sysrd 8 4 0) (unit 0x7000000000000000)) 4 = 20 := by decide
/-- R346: a write to a register of the firmware job from another job is illegal-instruction. -/
theorem test_syswr_refused :
    ((after (.syswr 8 (.imm 9) 0) (unit 0x7000000000000000)).grid 4).status = 0x02 := by decide
/-- R344: `abort` ends the grid with status 0x1D. -/
theorem test_abort : ((after (.abort 1 0) (unit 0x7000000000000000)).grid 4).status = 0x1D := by decide
/-- R388, R381: bytes that the host writes through CXL.mem are there. -/
theorem test_device_events :
    (after .routeTableUpdate State.reset).fabric.colour = true ∧ (after (.eccUncorrectableError 300) State.reset).poison = [2] := by
  decide

/-- A step runs the word that stands where the context does: the word of `iadd v4, 2, 3` under an ALU header. -/
theorem test_step : ∃ i, decodeTableWord 128 (((encode (.iadd ⟨.v 4, .imm 2, .imm 3, false, 0⟩)).elim 0 fun p => p.2.2.toNat) * 2 ^ 64) =
    some i ∧ i = .iadd ⟨.v 4, .imm 2, .imm 3, false, 0⟩ := ⟨_, rfl, rfl⟩

/-! ### For every statement, a state and operands that meet its hypotheses -/

/-- Group 3 issues, and the operands are in order. -/
abbrev okOps (s : State) (msel : BitVec 3) (dst : List Need) (os : List Opnd) : Prop :=
  s.Issues 3 ∧ s.operandsOk 3 msel dst os = true

/-- Group 3 issues with a lane active, and what the instruction names is there. -/
abbrev okNeeds (s : State) (ns : List Need) : Prop :=
  s.Issues 3 ∧ s.needsOk 3 (ns ++ mselNeeds 0) = true ∧ s.active 3 0 ≠ 0

/-- Two bit patterns of each window, so that a pop is possible: a complete entry in window 0 of a kernel with one queue. -/
def withQueue (s : State) : State :=
  (s.modBlk 2 fun k => { k with record := { k.record with qn := 1, qdepth := 2 } }).modGrp 3 fun g =>
    { g with queues := [(0, [{ full := true, lanes := List.replicate 64 7, tag := .b32, fmt := .b32, sp := false, base := 0, stride := 4 }])] }

theorem witness_IntegerArithmetic :
    okOps (unit 0) 0 [.v 4] [⟨.v 1, 1, .raw⟩, ⟨.imm 5, 1, .raw⟩, ⟨.s 3, 1, .raw⟩] ∧
      okOps (unit 0) 0 [.s 4] [⟨.imm 5, 1, .raw⟩, ⟨.sp .group, 1, .raw⟩] ∧
      okOps (withQueue (unit 0)) 0 [.v 4] [⟨.q 0, 1, .raw⟩] := by decide
theorem witness_ShiftsLogicAndBitFields :
    okOps (unit 0) 0 [.v 0] [⟨.v 7, 1, .raw⟩] ∧ okOps (unit 0) 0 [.s 31] [⟨.imm 255, 1, .raw⟩, ⟨.s 0, 1, .raw⟩] := by decide
theorem witness_CompareAndSelect :
    okOps (unit 0) 0 (dstNeeds (.s 6) 2) [.int (.v 1), .int (.v 2)] ∧
      okOps (unit 0) 0 (dstNeeds (.v 6) 1) [.int (.v 1), .int (.v 2), .pair (.s 4)] ∧
      okOps (unit 0) 0 (dstNeeds (.v 6) 1) [.int (.v 1), .int (.v 2), .int (.v 3)] := by decide
theorem witness_MovesAndBroadcasts :
    okOps (unit 0) 0 (dstNeeds (.v 6) 1) [] ∧ okOps (unit 0) 0 (dstNeeds (.s 6) 1) [.int (.v 1), .int (.imm 3)] := by decide
theorem witness_RegistersByIndex :
    okOps (unit 0) 0 (dstNeeds (.v 6) 1) [.int (.imm 1)] ∧ okOps (unit 0) 0 [] [.int (.imm 7), .int (.v 2)] ∧
      (∀ L ∈ lanesOf ((unit 0).active 3 0), Need.ok ((unit 0).limits 3)
        (.v ((0 : BitVec 8).toNat + ((unit 0).word 3 (.int (.imm 7)) L).toNat)) = true) ∧
      ¬ ((unit 0).limits 3).usable ≤ 7 ∧ ((unit 0).limits 3).usable ≤ 8 ∧ ((unit 0).limits 3).lock = false := by decide
/-- A sum in the extension set without the lock, and one of 2 ^ 32 that leaves the registers: both fault in lane 0. -/
theorem witness_RegistersByIndex_faults :
    (let n := fun L => 0 + ((unit 0).word 3 (.int (.imm 64)) L).toNat
     (lanesOf ((unit 0).active 3 0)).find? (fun L => decide (64 ≤ n L) && decide (n L < 192) && !((unit 0).limits 3).lock) =
       some 0) ∧
      (let s := (unit 0).withV 2 0xFFFFFFFF .b32
       let n := fun L => 1 + (s.word 3 (.int (.v 2)) L).toNat
       okOps s 0 (dstNeeds (.v 6) 1) [.int (.v 2)] ∧
         (lanesOf (s.active 3 0)).find? (fun L => decide (64 ≤ n L) && decide (n L < 192) && !(s.limits 3).lock) = none ∧
         (lanesOf (s.active 3 0)).find?
           (fun L => decide (192 ≤ n L) || (decide (n L < 64) && decide ((s.limits 3).usable ≤ n L))) = some 0) := by decide
theorem witness_TagsAddressesAndMasks :
    okOps (unit 0) 0 (dstNeeds (.v 6) 2) [.pair (.s 2)] ∧ okOps (unit 0) 0 (dstNeeds (.s 6) 2) [.pair (.s 2), .pair (.imm 255)] ∧
      okOps (unit 0) 0 (dstNeeds (.v 6) 2) [.pair (.v 2), .int (.v 0)] := by decide
/-- Each kind of operand fault, in the order of R59: a window not declared, an extension register, a scalar beyond the
declared count, a latch at the clause's first word, a tag, and an empty window. -/
theorem witness_OperandFaultOrder :
    (unit 0).operandsOk 3 0 (dstNeeds (.v 4) 1) [⟨.q 0, 1, .raw⟩, ⟨.v 64, 1, .raw⟩] = false ∧
      (unit 0).operandsOk 3 0 (dstNeeds (.v 4) 1) [⟨.v 64, 1, .raw⟩, ⟨.s 32, 1, .raw⟩] = false ∧
      (unit 0).operandsOk 3 0 (dstNeeds (.v 8) 1) [⟨.y 0, 1, .raw⟩, ⟨.v 0, 1, .raw⟩] = false ∧
      (unit 0).operandsOk 3 0 (dstNeeds (.v 4) 1) [⟨.y 0, 1, .raw⟩, ⟨.v 0, 1, .raw⟩] = false ∧
      ((unit 0).withV 1 0 .i32).operandsOk 3 0 (dstNeeds (.v 4) 1) [⟨.v 1, 1, .f32⟩, ⟨.v 0, 1, .f32⟩] = false ∧
      ((withQueue (unit 0)).modGrp 3 fun g => { g with queues := [] }).operandsOk 3 0 (dstNeeds (.v 4) 1)
        [⟨.q 0, 1, .raw⟩, ⟨.v 0, 1, .raw⟩] = false := by decide
/-- A latch shifted in, a window's complete entry, and a capture of the timebase. -/
theorem witness_OperandFaultOrder_selectors :
    (∃ c y, ((((unit 0).modGrp 3 fun g => { g with clause := g.clause.map fun c =>
        { c with latches := [Lanes.splat 7], cap := some 5 } }).grp 3).clause = some c ∧ c.latches[0]? = some y ∧ c.cap = some 5)) ∧
      (∃ e es, ((withQueue (unit 0)).grp 3).queue 0 = e :: es ∧ e.full = true) :=
  ⟨⟨_, _, rfl, rfl, rfl⟩, ⟨_, _, rfl, rfl⟩⟩

/-- Vector registers 1, 2 and 3 under a tag. -/
def tagged (t : Tag) : State := (((unit 0).withV 1 0x3F800000 t).withV 2 0x40000000 t).withV 3 0 t

theorem witness_FloatArithmetic :
    okOps (tagged .f32) 0 (dstNeeds (.v 4) 1) [⟨.v 1, 1, .f32⟩, ⟨.imm 2, 1, .f32⟩, ⟨.v 3, 1, .f32⟩] ∧
      okOps (tagged .f32) 0 (dstNeeds (.s 4) 2) [⟨.v 1, 1, .f32⟩, ⟨.v 3, 1, .f32⟩] := by decide
/-- Two NaNs, one NaN, a lesser and a greater real, equal words, and the two zeros; a subnormal, a normal and an infinity. -/
theorem witness_FloatArithmetic_values :
    ((f32 0x7F800001).isNan = true ∧ (f32 0xFFC00000).isNan = true ∧ (f32 0x3F800000).isNan = false) ∧
      f32 0x3F800000 = .fin false 0x800000 (-23) ∧ f32 0x80000000 = .fin true 0 (-149) ∧ f32 0 = .fin false 0 (-149) ∧
      f32 0xFF800000 = .inf true ∧ f32 1 = .fin false 1 (-149) ∧
      f32Min 0x80000000 0 = 0x80000000 ∧ f32Class 0x7F800001 = 0x100 ∧ f32Class 1 = 0x20 := by decide
theorem witness_FloatFunctions :
    okOps (tagged .f32) 0 (dstNeeds (.v 4) 1) [.fp (.v 1), .int (.v 2)] ∧
      f32Add .rn 0x7F800000 0xFF800000 ∈ [f32Add .rn 0x7F800000 0xFF800000] ∧
      (f32 (f32Add .rn 0x7F800000 0xFF800000)).isNan = true := by decide
theorem log2_bounds {q : ℕ} (hq : 0 < q) : 2 ^ Nat.log2 q ≤ q ∧ q < 2 ^ (Nat.log2 q + 1) :=
  ⟨Nat.log2_self_le (by omega), Nat.lt_log2_self⟩

/-- A fraction in [1, 2) has the floor of its base-2 logarithm 0. -/
theorem logFloor_unit {p q : ℕ} (hq : 0 < q) (h1 : q ≤ p) (h2 : p < 2 * q) : logFloor p q = 0 := by
  have hp := log2_bounds (Nat.lt_of_lt_of_le hq h1)
  have hq' := log2_bounds hq
  have l1 : Nat.log2 q ≤ Nat.log2 p := by
    by_contra h
    have : 2 ^ (Nat.log2 p + 1) ≤ 2 ^ Nat.log2 q := Nat.pow_le_pow_right (by omega) (by omega)
    omega
  have l2 : Nat.log2 p ≤ Nat.log2 q + 1 := by
    by_contra h
    have : 2 ^ (Nat.log2 q + 2) ≤ 2 ^ Nat.log2 p := Nat.pow_le_pow_right (by omega) (by omega)
    have e : 2 ^ (Nat.log2 q + 2) = 2 * 2 ^ (Nat.log2 q + 1) := by ring
    omega
  unfold logFloor
  rcases (by omega : Nat.log2 p = Nat.log2 q ∨ Nat.log2 p = Nat.log2 q + 1) with h | h <;> simp only [h]
  · simp; omega
  · simp
    omega

/-- A fraction near 3/2 times 2^23 is nearest to 12582912. -/
theorem roundInt_near {p q : ℕ} (h1 : 3221225471 * q ≤ 2147483648 * p) (h2 : 2147483648 * p ≤ 3221225473 * q) (hq : 0 < q) :
    roundInt .rn false (p * 8388608) q = 12582912 := by
  have r := Nat.div_add_mod (p * 8388608) q
  unfold roundInt roundsUp
  rcases Nat.lt_or_ge (2 * p) (3 * q) with c | c
  · have d : p * 8388608 / q = 12582911 := Nat.div_eq_of_lt_le (by omega) (by omega)
    rw [d] at r ⊢
    generalize p * 8388608 % q = m at r ⊢
    clear d
    have : q < 2 * m := by linarith
    simp [this]
  · have d : p * 8388608 / q = 12582912 := Nat.div_eq_of_lt_le (by omega) (by omega)
    rw [d] at r ⊢
    generalize p * 8388608 % q = m at r ⊢
    clear d
    have a : ¬ q < 2 * m := by intro h; linarith
    simp [a]

/-- The square root of 2.25 is the word of 1.5. -/
theorem roundsTo_sqrt : RoundsTo .rn (√(9437184 * (2 : ℝ) ^ (-22 : Int))) 0x3FC00000 := by
  have h : √(9437184 * (2 : ℝ) ^ (-22 : Int)) = 3 / 2 := by
    rw [show (9437184 * (2 : ℝ) ^ (-22 : Int)) = (3 / 2) ^ 2 by norm_num [zpow_neg]]
    exact Real.sqrt_sq (by norm_num)
  rw [h]
  intro neg p q hn hq hp
  obtain rfl : neg = false := by
    cases neg
    · rfl
    · exact absurd (hn.mp rfl) (by norm_num)
  have hq0 : (0 : ℝ) < q := by exact_mod_cast hq
  rw [abs_of_pos (by norm_num : (0 : ℝ) < 3 / 2), abs_le] at hp
  have h1 : 3221225471 * q ≤ 2147483648 * p := by
    have := hp.1
    rw [le_sub_iff_add_le, le_div_iff₀ hq0] at this
    have : (3221225471 * q : ℝ) ≤ 2147483648 * p := by norm_num at this; nlinarith
    exact_mod_cast this
  have h2 : 2147483648 * p ≤ 3221225473 * q := by
    have := hp.2
    rw [sub_le_iff_le_add, div_le_iff₀ hq0] at this
    have : (2147483648 * p : ℝ) ≤ 3221225473 * q := by norm_num at this; nlinarith
    exact_mod_cast this
  have e : logFloor p q = 0 := logFloor_unit hq (by omega) (by omega)
  have n := roundInt_near h1 h2 hq
  have p0 : p ≠ 0 := by omega
  simp [BFmt.round, BFmt.f32, e, n, p0, BFmt.signBit]

/-- `fsqrt` of 2.25; `flog2` of 1, the logarithm 0. Values within and past the ranges of the three functions that have one. -/
theorem witness_CorrectRounding :
    f32 0x40100000 = .fin false 9437184 (-22) ∧ RoundsTo .rn (√(9437184 * (2 : ℝ) ^ (-22 : Int))) 0x3FC00000 ∧
      RoundsTo .rn (Real.logb 2 (8388608 * (2 : ℝ) ^ (-23 : Int))) 0 ∧ f32 0x3F800000 = .fin false 8388608 (-23) ∧
      f32 0x43480000 = .fin false 13107200 (-16) ∧ (13107200 : ℝ) * 2 ^ (-16 : Int) = 200 ∧
      f32 0xC1F00000 = .fin true 15728640 (-19) ∧ (15728640 : ℝ) * 2 ^ (-19 : Int) = 30 ∧
      f32 0x42F00000 = .fin false 15728640 (-17) ∧ (15728640 : ℝ) * 2 ^ (-17 : Int) = 120 := by
  refine ⟨by decide, roundsTo_sqrt, ?_, by decide, by decide, by norm_num, by decide, by norm_num, by decide, by norm_num⟩
  rw [show (8388608 * (2 : ℝ) ^ (-23 : Int)) = 1 by norm_num, Real.logb_one]
  intro neg p q hn hq h
  have hq0 : (0 : ℝ) < q := by exact_mod_cast hq
  have : (p : ℝ) / q = 0 := by simpa using h
  have : p = 0 := by simpa [hq0.ne'] using this
  subst this
  cases neg
  · rfl
  · exact absurd (hn.mp rfl) (by norm_num)
theorem witness_ConversionAndPackedArithmetic :
    okOps ((tagged .bf16x2).withV 2 0 .f32) 0 (dstNeeds (.v 4) 1) [.packed .bf16 (.v 1), .packed .bf16 (.imm 1), .fp (.v 2)] ∧
      okOps (tagged .f32) 0 (dstNeeds (.v 4) 1) [.fp (.v 1), .fp (.v 2)] ∧
      okOps (tagged .f16x2) 0 (dstNeeds (.v 4) 1) [.packed .f16 (.v 1)] ∧
      okOps (tagged .f16x2) 0 (dstNeeds (.v 4) 1) [⟨.v 1, 1, .half .f16⟩, ⟨.v 2, 1, .half .f16⟩, ⟨.v 3, 1, .half .f16⟩] := by decide
theorem witness_BytePacking :
    okOps ((tagged .s8x4).withV 1 0 .f32) 0 (dstNeeds (.v 4) 1) [.fp (.v 1), .byte4 .s8x4 (.v 2)] ∧
      okOps (tagged .d8x4) 0 (dstNeeds (.v 4) 1) [.byte4 .d8x4 (.v 2)] ∧
      okOps ((tagged .d8x4).withV 2 0 .s8x4) 0 (dstNeeds (.v 4) 1) [.byte4 .d8x4 (.v 1), .byte4 .s8x4 (.v 2)] ∧
      okOps (tagged .i8x4) 0 (dstNeeds (.v 4) 1) [⟨.v 1, 1, .bytes .i8x4⟩] := by decide
theorem witness_ShufflesScansAndVotes :
    okOps (unit 0) 0 (dstNeeds (.v 4) 1) [.int (.v 1), .int (.imm 1)] ∧ okOps (unit 0) 0 (dstNeeds (.v 4) 2) [.int (.v 1)] ∧
      okOps (unit 0) 0 (dstNeeds (.s 4) 2) [.int (.v 1)] := by decide
theorem witness_Reductions :
    okOps (tagged .f32) 0 (dstNeeds (.v 4) 1) [⟨.v 1, 1, rtyKind .f32⟩] ∧ okOps (unit 0) 0 (dstNeeds (.v 4) 2) [⟨.v 1, 1, rtyKind .i32⟩] := by
  decide

/-- The group with the sixteenth thread at another PC, so that its cluster is not the whole group. -/
def split (s : State) : State :=
  s.modGrp 3 fun g => { g with cur := some { lanes := 0xFFFF, age := 0, res := 0 }, pend := [{ lanes := 0xFFFFFFFFFFFF0000, age := 1, res := 0 }] }

/-- A `reorder` in the middle of its clause, one of a divided group, and one of a whole group. -/
theorem witness_Reorder_arrival :
    (unit 0x0100000000000000).Issues 3 ∧ ((unit 0x0100000000000000).grp 3).atLast = false ∧
      (split (unit 0)).Issues 3 ∧ ((split (unit 0)).grp 3).atLast = true ∧
      (split (unit 0)).operandsOk 3 0 [] [.int (.v 1), .pair (.s 4)] = true ∧
      bitsOf 64 ((split (unit 0)).grp 3).live ≠ ((split (unit 0)).grp 3).curLanes ∧
      okOps (unit 0) 0 [] [.int (.v 1), .pair (.s 4)] ∧ bitsOf 64 ((unit 0).grp 3).live = ((unit 0).grp 3).curLanes := by
  decide

/-- An ordinary store to the page's byte 256 that names no token, outstanding. -/
def withOutTok (s : State) : State :=
  s.modGrp 3 fun g => { g with out := [{ g.newAcc 100 .store 0 1 with addr := List.replicate 64 256, va := List.replicate 64 65792 }] }
/-- The state in which the one group of a block has arrived at `reorder`. -/
def arrived : State := after (.reorder false (.v 1) (.s 4) 0) (unit 0)

theorem witness_Reorder_move :
    ∃ rs, arrived.arrivals 2 = some rs ∧ arrived.arrivalsAgree rs = true ∧ (rs.map fun r => r.1).Nodup ∧
      (∀ r ∈ rs, (arrived.grp r.1).allClear = true ∧ (∀ a ∈ (arrived.grp r.1).out, a.stays = false) ∧
        (arrived.grp r.1).retired = false ∧
        r.2.pops.Nodup) ∧ (arrived.blk 2).resident = true ∧ (arrived.blk 2).parkReq = none ∧
      arrived.jobRuns (arrived.blk 2).job = true ∧
      (arrived.modBlk 2 fun k => { k with resident := false }).blk 2 ≠ arrived.blk 2 := by
  refine ⟨(arrived.arrivals 2).getD [], ?_, ?_, ?_, ?_, ?_, ?_, ?_, ?_⟩ <;> decide

/-- The same with a store that names no token outstanding, for which the move does not wait. -/
theorem witness_Reorder_store :
    let s := withOutTok arrived
    s.arrivals 2 = arrived.arrivals 2 ∧ (s.grp 3).out ≠ [] ∧ (∀ a ∈ (s.grp 3).out, a.stays = false) ∧
      (s.grp 3).allClear = true := by decide

/-- A block that declares the extension set. -/
def withExt (s : State) : State := s.modBlk 2 fun k => { k with record := { k.record with ext := true } }

theorem witness_ExtensionLock :
    (withExt (unit 0)).Issues 3 ∧ (withExt (unit 0)).hasExt 3 = true ∧ ((withExt (unit 0)).grp 3).atLast = true ∧
      ((withExt (unit 0x0100000000000000)).grp 3).atLast = false ∧ (withExt (unit 0x0100000000000000)).hasExt 3 = true ∧
      (withExt (unit 0)).needsOk 3 (.s 7 :: mselNeeds 0) = true := by decide
theorem witness_RandomDrawsAndKeys :
    okOps (unit 0) 0 (dstNeeds (.v 4) 1) [] ∧ okOps (unit 0) 0 [] [SImm.opnd (.s 20), SImm.opnd (.imm 3)] ∧
      okOps (unit 0) 0 (dstNeeds (.s 4) 2) [] := by decide
theorem witness_Sampling :
    okOps (tagged .f32) 0 (dstNeeds (.v 4) 1) [.fp (.v 1), .fp (.s 2)] ∧ okOps (tagged .f32) 0 (dstNeeds (.v 4) 1) [.fp (.v 1), .int (.imm 2)] := by
  decide

/-- A FLOW clause of one word. -/
abbrev flow : State := unit 0x1000000000000000

/-- The clause's own header is a target. An offset of one word leads to a word that is no header: its class code names no class. -/
theorem witness_DirectJumps :
    okOps flow 0 [] [] ∧ okOps flow 0 [] [.int (.s 4)] ∧ okOps flow 0 [] [.int (.v 4)] ∧ flow.needsOk 3 [.s 4] = true ∧
      flow.targetOk 3 false ((flow.grp 3).clause!.hdr + 8 * (0 : BitVec 32).signExtend 64) ∧
      (unit (0x1000000000000000 + 0xF000000000000000 * 2 ^ 64)).checkTarget 2 .lane false
        ((flow.grp 3).clause!.hdr + 8 * (1 : BitVec 32).signExtend 64) = .illegal := by
  unfold State.targetOk; decide
/-- A pair that holds the header's address in every lane: scalar pair 4, and vector pair 2. -/
def aimed : State := ((flow.withS 4 65536).withV 2 65536 .b32).withV 3 0 .b32

theorem witness_IndirectJumpsAndCalls :
    okOps aimed 0 (vpairNeeds 6) [pairOpnd (.v 2)] ∧ aimed.needsOk 3 (vpairNeeds 6) = true ∧
      (∀ L ∈ lanesOf (aimed.grp 3).curLanes, aimed.targetOk 3 true (aimed.dword 3 (pairOpnd (.v 2)) L)) ∧
      aimed.targetOk 3 true (aimed.dword 3 (pairOpnd (.s 4)) 0) ∧
      aimed.targetOk 3 false ((aimed.grp 3).clause!.hdr + 8 * (0 : BitVec 32).signExtend 64) := by
  unfold State.targetOk; decide
theorem witness_IndirectJumpsAndCalls_meet :
    aimed.Issues 3 ∧ aimed.needsOk 3 (vpairNeeds 6) = true ∧
      aimed.targetOk 3 false ((aimed.grp 3).clause!.hdr + 8 * (0 : BitVec 32).signExtend 64) ∧
      aimed.operandsOk 3 0 [] [.pair (.v 2)] = true ∧
      (∀ L ∈ lanesOf (aimed.grp 3).curLanes, aimed.dword 3 (.pair (.v 2)) L ≠ Config.noMeeting →
        aimed.targetOk 3 true (aimed.dword 3 (.pair (.v 2)) L)) := by
  unfold State.targetOk; decide
/-- A group with token 1 counted: a mask that names it holds, and one that does not goes on. -/
theorem witness_YieldExitWait :
    flow.Issues 3 ∧ (∀ n, n < 16 → (flow.grp 3).token n = 0) ∧
      (flow.modGrp 3 fun g => g.addToken 1).Issues 3 ∧ (1 : BitVec 15).getLsbD 0 = true ∧
      ((flow.modGrp 3 fun g => g.addToken 1).grp 3).token 1 ≠ 0 ∧ (flow.grp 3).overdue = false ∧
      (let s := (split flow).modGrp 3 fun g => { g.addToken 1 with pend := [{ lanes := 0xFFFFFFFFFFFF0000, age := 192, res := 0 }] }
       s.Issues 3 ∧ (s.grp 3).token 1 ≠ 0 ∧ (s.grp 3).overdue = true ∧ (s.grp 3).cur ≠ none) := by decide

/-- A kernel whose trap handler is the clause itself. -/
def handled (hdr : Nat) : State := (unit hdr).modBlk 2 fun k => { k with record := { k.record with trap := 65536 } }

/-- The group inside its trap handler, with FPC at the start of its clause, at the word after it, or elsewhere. -/
def trapped (fpc fhdr : Dword) : State :=
  (handled 0x7000000000000000).modGrp 3 fun g => { g with inh := true, fpc := fpc, fpcEntry := 65536, fhdr := fhdr }

theorem witness_TrapEntryAndReturn :
    (handled 0x1000000000000000).Issues 3 ∧ (handled 0x1000000000000000).trapCheck 3 = some .ok ∧
      okNeeds (handled 0x7000000000000000) [] ∧ (handled 0x7000000000000000).trapCheck 3 = some .ok ∧
      ((handled 0x7000000000000000).grp 3).inh = false ∧ ((handled 0x7100000000000000).grp 3).atLast = false ∧
      okNeeds (trapped 65536 65536) [] ∧ ((trapped 65536 65536).grp 3).atLast = true ∧ ((trapped 65536 65536).grp 3).inh = true ∧
      okNeeds (trapped 65536 65528) [] ∧ (65528 : Dword) ≠ 0 ∧ (65528 : Dword) ≠ 65536 ∧
      okNeeds (trapped 65544 65536) [] ∧ ((trapped 65544 65536).grp 3).fpc ≠ ((trapped 65544 65536).grp 3).fpcEntry := by
  decide
/-- FPC at the clause's first word, whose header can be read; and FHDR at FPC, for a header's fault. -/
theorem witness_TrapEntryAndReturn_next :
    (let s := (trapped 65544 65536).modGrp 3 fun g => { g with fpcEntry := 65544 }
     okNeeds s [] ∧ (s.grp 3).atLast = true ∧ (s.grp 3).inh = true ∧ (s.grp 3).fpc = (s.grp 3).fpcEntry ∧
       (s.grp 3).fhdr ≠ 0 ∧ (s.grp 3).fhdr ≠ (s.grp 3).fpc ∧
       s.fetch (s.coreOf 3) (s.jobOf 3) (s.grp 3).fhdr = (.ok 0, 0x7000000000000000) ∧ s.outsideJob (s.jobOf 3) 0 = false) ∧
      ((trapped 65536 65536).grp 3).fpc = ((trapped 65536 65536).grp 3).fpcEntry ∧
      ((trapped 65536 65536).grp 3).fhdr = ((trapped 65536 65536).grp 3).fpc ∧
      ((trapped 65536 0).grp 3).fhdr = 0 := by decide
theorem witness_TrapEntryAndReturn_moved :
    ((handled 0x7000000000000000).modGrp 3 fun g => { g with inh := true, fpc := 65536, fpcEntry := 65544 }).targetOk 3 true 65536 := by
  unfold State.targetOk; decide

/-! ### Memory -/

theorem reaches_of {s : State} {g : Nat} {p : Perm} {va : Dword} {n loc : Nat}
    (h : (va.toNat % n == 0 && canonical va && decide (s.walk (s.coreOf g) (s.jobOf g) va.toNat p = .ok loc) &&
      !isRemote loc && !(s.heldByReset (dieOf (s.coreOf g)) loc)) = true) : s.Reaches g p va n loc := by
  simp only [Bool.and_eq_true, beq_iff_eq, decide_eq_true_eq, Bool.not_eq_true'] at h
  exact ⟨h.1.1.1.1, h.1.1.1.2, h.1.1.2, fun q => by rw [h.1.2] at q; exact absurd q (by decide), h.2⟩

/-- Scalar pair 4 holds the address of byte 256 of the one page, whose location is 256; scalar pair 6 that address too; the
other registers hold 0. The block has a scratchpad. -/
def based : State :=
  ((((unit 0).withS 4 65792).withS 6 65792).withS 9 256).modBlk 2 fun k =>
    { k with record := { k.record with carve := 1, carven := 16 } }

/-- A lane-mode F32 access, a B64 one of one address, and one of the scratchpad. -/
def accF : MemF := ⟨.v 2, .s 4, .pl, .blk, 3, .f32, 0, false, .lane⟩
def accB : MemF := ⟨.v 2, .s 4, .ar, .dev, 15, .b64, 0, true, .sca⟩
def accS : MemF := ⟨.v 2, .imm 8, .rel, .grp, 0, .b32, 0, false, .scratch⟩

/-- An access of the form issues: every clause of Issues' hypotheses. -/
abbrev okIssue (s : State) (f : MemF) (off : BitVec 12) (p : Perm) (dst : List Need) (os : List Opnd) (typed : List Src)
    (loc : Nat → Nat) : Prop :=
  s.Issues 3 ∧ s.memOk 3 f.msel dst os f.fmt typed = true ∧ s.active 3 f.msel ≠ 0 ∧ s.hasRoom 3 f.tok = true ∧
    ∀ L ∈ lanesOf (s.active 3 f.msel), s.Reaches 3 p (s.addrOf 3 f off L) (fmtSize f.fmt) (loc L)

theorem okIssue_of {s : State} {f : MemF} {off : BitVec 12} {p : Perm} {dst : List Need} {os : List Opnd} {typed : List Src}
    {loc : Nat → Nat} (h : s.Issues 3 ∧ s.memOk 3 f.msel dst os f.fmt typed = true ∧ s.active 3 f.msel ≠ 0 ∧
      s.hasRoom 3 f.tok = true)
    (k : ∀ L ∈ lanesOf (s.active 3 f.msel), ((s.addrOf 3 f off L).toNat % fmtSize f.fmt == 0 &&
      canonical (s.addrOf 3 f off L) &&
      decide (s.walk (s.coreOf 3) (s.jobOf 3) (s.addrOf 3 f off L).toNat p = .ok (loc L)) && !isRemote (loc L) &&
      !(s.heldByReset (dieOf (s.coreOf 3)) (loc L))) = true) :
    okIssue s f off p dst os typed loc :=
  ⟨h.1, h.2.1, h.2.2.1, h.2.2.2, fun L hL => reaches_of (k L hL)⟩

/-- The locations that the two forms reach. -/
def locF (L : Nat) : Nat := 256 + 4 * L
def locB (_ : Nat) : Nat := 264

theorem witness_LoadsIssue :
    okIssue based accF 0 .read (dstNeeds (srcDst accF.data) (fmtRegs accF.fmt)) [baseOpnd accF.mode accF.base] [] locF ∧
      okIssue based accB 1 .read (dstNeeds (srcDst accB.data) (fmtRegs accB.fmt)) [baseOpnd accB.mode accB.base] [] locB ∧
      okIssue based accF 0 .read (dstNeeds (srcDst accF.data) (fmtRegs accF.fmt))
        [baseOpnd accF.mode accF.base, dataOpnd (.imm 0) accF.fmt] [] locF ∧ accF.mode ≠ .scratch ∧
      ∀ L ∈ lanesOf (based.active 3 accF.msel), isRemote (locF L) = false :=
  ⟨okIssue_of (by decide) (by decide), okIssue_of (by decide) (by decide), okIssue_of (by decide) (by decide), by decide,
    by decide⟩
theorem witness_LoadsIssue_scratch :
    based.Issues 3 ∧
      based.memOk 3 0 (dstNeeds (srcDst accS.data) (fmtRegs accS.fmt)) [.int accS.base] accS.fmt [] = true ∧
      based.active 3 accS.msel ≠ 0 ∧ based.hasRoom 3 accS.tok = true ∧ accS.mode = .scratch ∧
      based.releaseReady 3 (based.active 3 accS.msel) (relOrd accS.ord) accS.scope false none = true ∧
      ∀ L ∈ lanesOf (based.active 3 accS.msel),
        (based.addrOf 3 accS 1 L).toNat % 4 = 0 ∧ (based.word 3 (.int accS.base) L).toNat < 2 ^ 26 ∧
          (based.addrOf 3 accS 1 L).toNat < 2 ^ 26 ∧
          (based.addrOf 3 accS 1 L).toNat / 2 ^ 24 < (based.blockOf 3).record.stook ∧
          (based.addrOf 3 accS 1 L).toNat % 2 ^ 24 + 4 ≤ (based.blockOf 3).record.scratchBytes ∧
          based.member (based.grp 3).blk ((based.addrOf 3 accS 1 L).toNat / 2 ^ 24) = some 2 ∧
          based.absentAt (scratchLoc 2 12) 4 = false ∧ scratchLoc 2 ((based.addrOf 3 accS 1 L).toNat % 2 ^ 24) = scratchLoc 2 12 := by
  decide
theorem witness_StoresIssue :
    okIssue based accF 0 .write [] [baseOpnd accF.mode accF.base, dataOpnd accF.data accF.fmt] [accF.data] locF ∧
      (∀ L ∈ lanesOf (based.active 3 accF.msel), based.commAt (based.jobOf 3) (based.addrOf 3 accF 0 L).toNat = none ∧
        based.storeEgress 3 0 4 (based.addrOf 3 accF 0 L).toNat = false ∧
        based.gradedAt (based.jobOf 3) (based.addrOf 3 accF 0 L).toNat = none) ∧
      based.listFull 3 [] = false ∧ based.releaseReady 3 (based.active 3 accF.msel) (relOrd accF.ord) accF.scope true
        (ownTarget (lanesOf (based.active 3 accF.msel)) locF) = true ∧
      based.memOk 3 0 [] [.int accS.base, dataOpnd accS.data accS.fmt] accS.fmt [accS.data] = true :=
  ⟨okIssue_of (by decide) (by decide), by decide, by decide, by decide, by decide⟩

/-- A commutative range of F32 sums over the page's second 128 bytes. -/
def ranged : State := { based with cranges := [{ job := 1, va := 65792, len := 128, op := .add, fmt := .f32 }] }

theorem witness_AtomicsIssue :
    okIssue based accB 1 .both (dstNeeds (srcDst accB.data) (fmtRegs accB.fmt))
        [baseOpnd accB.mode accB.base, dataOpnd (.s 6) accB.fmt] [.s 6] locB ∧
      okIssue based accB 1 .both (dstNeeds (srcDst accB.data) (fmtRegs accB.fmt))
        [baseOpnd accB.mode accB.base, dataOpnd accB.data accB.fmt, dataOpnd (.s 6) accB.fmt] [.s 6, accB.data] locB ∧
      okIssue based accF 0 .both [] [baseOpnd accF.mode accF.base, dataOpnd accF.data accF.fmt] [accF.data] locF ∧
      (∀ L ∈ lanesOf (based.active 3 accF.msel), based.commAt (based.jobOf 3) (based.addrOf 3 accF 0 L).toNat = none ∧
        based.gradedAt (based.jobOf 3) (based.addrOf 3 accF 0 L).toNat = none ∧
        based.belowFinal 3 (based.addrOf 3 accF 0 L).toNat 4 = false ∧ isHost (locF L) = false) ∧
      based.releaseReady 3 (based.active 3 accB.msel) (relOrd accB.ord) accB.scope false
        (ownTarget (lanesOf (based.active 3 accB.msel)) locB) = true :=
  ⟨okIssue_of (by decide) (by decide), okIssue_of (by decide) (by decide), okIssue_of (by decide) (by decide), by decide,
    by decide⟩
/-- A second page, whose bytes are the host's, and scalar pair 4 at its start. -/
def hosted : State :=
  let s := based.withS 4 131072
  { s with ptes := s.ptes ++ [{ job := 1, va := 131072, size := 65536, dst := .host 0, r := true, w := true, x := true }] }
theorem witness_AtomicsIssue_host :
    okIssue hosted { accF with mode := .sca, fmt := .b32 } 2 .both [] [baseOpnd .sca accF.base, dataOpnd accF.data .b32]
        [accF.data] (fun _ => hostBase + 8) ∧ isHost (hostBase + 8) = true ∧
      hosted.commAt (hosted.jobOf 3) 131080 = none ∧ hosted.gradedAt (hosted.jobOf 3) 131080 = none ∧
      hosted.belowFinal 3 131080 4 = false :=
  ⟨okIssue_of (by decide) (by decide), by decide, by decide, by decide, by decide⟩
/-- For `cred`: one scalar address inside the range. -/
theorem witness_AtomicsIssue_cred :
    okIssue ranged { accF with mode := .sca } 2 .both [] [baseOpnd .sca accF.base, dataOpnd accF.data accF.fmt] [accF.data]
        (fun _ => 264) ∧
      isLocal 264 = true ∧ ranged.belowFinal 3 (ranged.addrOf 3 { accF with mode := .sca } 2 0).toNat 4 = false ∧
      ∃ r, ranged.commAt (ranged.jobOf 3) (ranged.addrOf 3 { accF with mode := .sca } 2 0).toNat = some r ∧ r.fmt = .f32 :=
  ⟨okIssue_of (by decide) (by decide), by decide, by decide, _, rfl, rfl⟩

/-- Every scalar is declared, so that the mask alias pairs are there, and they hold empty masks. -/
def masked (s : State) : State := s.modBlk 2 fun k => { k with record := { k.record with scalars := 256 } }

/-- With the mask selector on an empty alias pair no lane is active; with an odd base, every lane is misaligned; with a
base beyond the canonical addresses, every lane is far. -/
theorem witness_AccessesThatDoNotIssue :
    ((masked based).Issues 3 ∧
      (masked based).memOk 3 1 [] [baseOpnd .lane (.s 4), dataOpnd (.v 2) .f32] .f32 [.v 2] = true ∧
      (masked based).active 3 1 = 0) ∧
      (let s := based.withS 4 65793
       s.issuer = .lane 3 ∧ s.memOk 3 0 (dstNeeds (.v 2) 1) [baseOpnd .lane (.s 4)] .f32 [] = true ∧
         (s.addrOf 3 accF 0 0).toNat % fmtSize accF.fmt ≠ 0 ∧ 0 ∈ lanesOf (s.active 3 accF.msel)) ∧
      (let s := based.withS 5 0x40000000
       s.memOk 3 0 (dstNeeds (.v 2) 1) [baseOpnd .lane (.s 4)] .f32 [] = true ∧
         (∀ M ∈ lanesOf (s.active 3 accF.msel), (s.addrOf 3 accF 0 M).toNat % fmtSize accF.fmt = 0) ∧
         canonical (s.addrOf 3 accF 0 0) = false) := by decide

/-- R194, R243: a change by group 4, outside the phase of barrier 1 with the sequencer, after which group 3 came at barrier 2. -/
theorem test_late_relayed :
    let x : Late := { no := 0, who := 512, off := 0, was := 0, known := [] }
    let y := Late.taken 3 (2, 2) (Late.completed [3, 4] (2, 2) false (Late.arrived 3 (2, 2) false (Late.arrived 4 (2, 2) false x)))
    (Late.completed [3] (2, 1) true (Late.arrived 3 (2, 1) true y)).known.contains (.streamDue (2, 1)) = true ∧
      (Late.completed [3, 4] (2, 1) true (Late.arrived 4 (2, 1) false (Late.arrived 3 (2, 1) true y))).known.contains
        (.streamDue (2, 1)) = false := by decide

/-- R242: a word is read with all of one access's bytes changed or none. -/
theorem test_late_words :
    let s := based.modBlk 2 fun k => { k with record := { k.record with thr := true } }
    let k := ((s.keepLate 384 (scratchLoc 2 0) 4).keepLate 385 (scratchLoc 2 2) 2).blk 2
    k.late.map (fun x => x.no) = [0, 0, 0, 0, 1, 1] ∧
      (k.orderAfter (fun off => off == 3) fun _ => false).late = [] ∧
      (k.orderAfter (fun _ => false) fun x => x.no == 0).late.map (fun x => x.no) = [1, 1] := by decide

/-- An outstanding access of lane 5 that does an operation. -/
def accOf (op : AccOp) (loc : Nat) : Acc :=
  { id := 100, op := op, tok := 3, act := 32, done := 0, addr := List.replicate 64 loc, va := List.replicate 64 65792,
    data := List.replicate 64 7, data2 := List.replicate 64 0, fmt := .f32, ord := .pl, scope := .blk, evict := 0,
    grade := 0, finalOnly := 0, nw := false, pc := 65544, hdr := 65536, st := .flying, got := [], who := [], waiting := false }

/-- The group has it outstanding. -/
def withOut (s : State) (a : Acc) : State := s.modGrp 3 fun g => { g with out := [a] }

theorem oneLane_of {s : State} {a : Acc} {L : Nat}
    (h : ((Tbl.find s.groups 3).isSome = true ∧ (s.blockOf 3).resident = true ∧ s.jobRuns (s.jobOf 3) = true ∧
      (s.grp 3).out.find? (fun b => b.id == a.id) = some a) ∧ (L < 64 ∧ a.act = 1#64 <<< L ∧ a.done = 0) ∧
      (s.mayPerform 3 a L = true ∧ s.gstores.all (fun x => !(x.gid == 3 && x.acc == a.id)) = true ∧ a.got = [] ∧
        s.fabric.outward.all (fun p => p.kind != 3 || p.acc != a.id) = true) ∧
      (a.op.scratch = false → s.gradedAt (s.jobOf 3) (a.vaOf L).toNat = none ∧
        s.commAt (s.jobOf 3) (a.vaOf L).toNat = none ∧ isRemote (a.addrOf L) = false ∧
        s.poison.contains (lineOf (a.addrOf L)) = false ∧ Tbl.find (s.core (s.coreOf 3)).l1 (lineOf (a.addrOf L)) = none ∧
        Tbl.find (s.core (s.coreOf 3)).ldc (lineOf (a.addrOf L)) = none) ∧
      a.addrOf L % 128 + fmtSize a.fmt ≤ 128) : s.OneLane 3 a L :=
  ⟨h.1.1, h.1.2.1, h.1.2.2.1, h.1.2.2.2, h.2.1, h.2.2.1.1, h.2.2.1.2.1, h.2.2.1.2.2.1, h.2.2.1.2.2.2, h.2.2.2.1, h.2.2.2.2⟩

/-- The widest place: the last four bytes of a line. -/
theorem witness_LoadsPerform :
    (withOut based (accOf (.load (.v 2)) 380)).OneLane 3 (accOf (.load (.v 2)) 380) 5 ∧
      (withOut based (accOf (.loadWait (.s 8)) 256)).OneLane 3 (accOf (.loadWait (.s 8)) 256) 5 ∧
      (withOut based (accOf (.sload (.v 2)) (scratchLoc 2 0))).OneLane 3 (accOf (.sload (.v 2)) (scratchLoc 2 0)) 5 ∧
      inMask (BitVec.allOnes 64) 5 = true :=
  ⟨oneLane_of (by decide), oneLane_of (by decide), oneLane_of (by decide), by decide⟩
theorem due_of {s : State} {a : Acc}
    (h : ((Tbl.find s.groups 3).isSome = true ∧ (s.blockOf 3).resident = true ∧ s.jobRuns (s.jobOf 3) = true ∧
      (s.grp 3).out.find? (fun b => b.id == a.id) = some a) ∧ (a.act ≠ 0 ∧ a.done = 0 ∧ a.got = []) ∧
      s.gstores.all (fun x => !(x.gid == 3 && x.acc == a.id)) = true ∧
      s.fabric.outward.all (fun p => p.kind != 3 || p.acc != a.id) = true ∧
      ∀ L ∈ lanesOf a.act, s.mayPerform 3 a L = true ∧ a.addrOf L % 128 + fmtSize a.fmt ≤ 128 ∧
        s.poison.contains (lineOf (a.addrOf L)) = false ∧ Tbl.find (s.core (s.coreOf 3)).l1 (lineOf (a.addrOf L)) = none ∧
        Tbl.find (s.core (s.coreOf 3)).ldc (lineOf (a.addrOf L)) = none) : s.Due 3 a :=
  ⟨h.1.1, h.1.2.1, h.1.2.2.1, h.1.2.2.2, h.2.1, h.2.2.1, h.2.2.2.1, h.2.2.2.2⟩

/-- A line of the job's memory at a grade, for a group whose block runs a task. -/
def gradedLoad (gr : Grade) : State :=
  ((withOut { based with granges := [{ job := 1, va := 65792, lines := 1 }] } (accOf (.load (.v 2)) 256)).setGrade 2 gr).modBlk 2
    fun k => { k with task := 2 }

/-- A peer's memory; a commutative range; a graded line below, at and above the least grade, with a task that reads it. -/
theorem witness_LoadsPerform_ranges :
    (let a := accOf (.load (.v 2)) (2 ^ 65 + 2 ^ 64 + 256)
     (withOut based a).Due 3 a ∧ (withOut based a).farLane 3 a 5) ∧
      (let a := accOf (.load (.v 2)) 256
       (withOut ranged a).Due 3 a ∧ ((withOut ranged a).commAt 1 65792).isSome = true ∧
         (withOut ranged a).gradedAt 1 65792 = none) ∧
      (∀ gr ∈ [(0 : Grade), 1, 2, 3], (gradedLoad gr).Due 3 (accOf (.load (.v 2)) 256)) ∧
      ((gradedLoad 1).gradedAt 1 65792).isSome = true ∧ (gradedLoad 1).lineGrade 2 = 1 ∧ (gradedLoad 3).lineGrade 2 = 3 ∧
      ((gradedLoad 1).grpTask 3).isSome = true ∧ (accOf (.load (.v 2)) 256).grade = 0 ∧ (gradedLoad 1).binderHeld = false := by
  refine ⟨⟨due_of (by decide), by unfold State.farLane; decide⟩, ⟨due_of (by decide), by decide, by decide⟩,
    fun gr _ => ?_, by decide, by decide, by decide, by decide, by decide, by decide⟩
  rcases (by decide +revert : gr = 0 ∨ gr = 1 ∨ gr = 2 ∨ gr = 3) with rfl | rfl | rfl | rfl <;> exact due_of (by decide)

/-- Lanes 4 and 5 of one access, to one word. -/
theorem witness_LoadsPerform_lanes :
    (let a := { accOf (.load (.v 2)) 256 with act := 48 }
     (withOut based a).Due 3 a ∧ ∀ L ∈ lanesOf a.act, inMask (BitVec.allOnes 64) L = true ∧ (withOut based a).plainLane 3 a L) ∧
      (let a := { accOf .store 256 with act := 48 }
       (withOut based a).Due 3 a ∧ ∀ L ∈ lanesOf a.act, inMask (BitVec.allOnes 64) L = true ∧ (withOut based a).plainLane 3 a L) := by
  refine ⟨⟨due_of (by decide), ?_⟩, due_of (by decide), ?_⟩ <;> unfold State.plainLane <;> decide

/-- A comparison operand that the bytes equal, and one that they do not. -/
theorem witness_LoadsPerform_wait :
    Memory.read (withOut based (accOf (.loadWait (.s 8)) 0)).mem 512 4 =
        (accOf (.loadWait (.s 8)) 512).data2Of 5 % 256 ^ 4 ∧
      Memory.read ((unit 5).mem) 0 4 ≠ (accOf (.loadWait (.s 8)) 0).data2Of 5 % 256 ^ 4 := by decide
theorem witness_StoresPerform :
    (withOut based (accOf .store 256)).OneLane 3 (accOf .store 256) 5 ∧
      (withOut based (accOf .sstore (scratchLoc 2 16))).OneLane 3 (accOf .sstore (scratchLoc 2 16)) 5 ∧
      (Tbl.find based.blocks (locBlock (scratchLoc 2 16))).isSome = true :=
  ⟨oneLane_of (by decide), oneLane_of (by decide), by decide⟩
theorem witness_AtomicsPerform_far :
    let a := accOf (.atom .add .near (.v 2)) (2 ^ 65 + 2 ^ 64 + 256)
    (withOut based a).Due 3 a ∧ (withOut based a).farLane 3 a 5 := ⟨due_of (by decide), by unfold State.farLane; decide⟩
theorem witness_AtomicsPerform :
    (withOut based (accOf (.atom .add .near (.v 2)) 256)).OneLane 3 (accOf (.atom .add .near (.v 2)) 256) 5 ∧
      (withOut based (accOf (.cas (.v 2)) 256)).OneLane 3 (accOf (.cas (.v 2)) 256) 5 ∧
      (withOut based (accOf (.red .exch .home) 256)).OneLane 3 (accOf (.red .exch .home) 256) 5 ∧
      MFmt.f32 ≠ .b64 ∧ (2 : Nat) ^ 32 - 1 < 2 ^ 32 ∧ (2 : Nat) ^ 64 - 1 < 2 ^ 64 :=
  ⟨oneLane_of (by decide), oneLane_of (by decide), oneLane_of (by decide), by decide, by decide, by decide⟩

/-- `crdecl` of one line at scalar pair 4 with its length in scalar 8; `crfree` of no range and of the one declared there; a
`cred` outstanding on it; the lease at its declared limit. -/
theorem witness_RangesAndHints :
    okNeeds (based.withS 8 128) (rangeNeeds 8 4 0) ∧ (based.spair 3 4).toNat % 128 = 0 ∧
      ((based.withS 8 128).sreg 3 8).toNat = 128 ∧ based.crRefused (based.jobOf 3) 65792 128 = false ∧
      (based.grp 3).out = [] ∧
      based.cranges.find? (fun r => r.job == based.jobOf 3 && r.va == (based.spair 3 4).toNat) = none ∧
      based.walk 0 1 65792 .read = .ok 256 ∧ isRemote 256 = false ∧
      okNeeds ranged [.s 4, .s 5] ∧
      (ranged.cranges.find? fun r => r.job == ranged.jobOf 3 && r.va == (ranged.spair 3 4).toNat) =
        some { job := 1, va := 65792, len := 128, op := .add, fmt := .f32 } ∧
      ranged.flying { job := 1, va := 65792, len := 128, op := .add, fmt := .f32 } (· == .cred) = false ∧
      (withOut ranged (accOf .cred 256)).flying { job := 1, va := 65792, len := 128, op := .add, fmt := .f32 } (· == .cred) =
        true ∧
      based.flying { job := 1, va := 65792, len := 128, op := .add, fmt := .f32 } AccOp.writes = false ∧
      (withOut based (accOf .store 256)).flying { job := 1, va := 65792, len := 128, op := .add, fmt := .f32 } AccOp.writes =
        true ∧
      (let s := withOut ranged (accOf .cred 256)
       (s.grp 3).out.find? (fun b => b.id == 100) = some (accOf .cred 256) ∧ s.mayPerform 3 (accOf .cred 256) 5 = true ∧
         (s.commAt (s.jobOf 3) ((accOf .cred 256).vaOf 5).toNat).isSome = true ∧ (s.blockOf 3).resident = true ∧
         s.jobRuns (s.jobOf 3) = true ∧ s.gstores = [] ∧ (accOf .cred 256).got = [] ∧
         s.fabric.outward.all (fun p => p.kind != 3 || p.acc != 100) = true) ∧
      based.memOk 3 0 [] [baseOpnd .sca (.s 4)] .b8 [] = true ∧ okNeeds based (SImm.needs (.imm 255)) ∧
      based.hasRoom 3 15 = true := by decide

/-- An address of a page that belongs to chip 1 of the job, in no range. -/
def afar : State :=
  { based.withS 4 131072 with ptes := [{ job := 1, va := 131072, size := 65536, dst := .chip 1, r := true, w := true, x := true }] }
/-- Partials of two dies, in the order of their cores; a `crdecl` of no bytes, one that is not all local, one that meets the
range in force, and one that meets a graded range. -/
theorem witness_RangesAndHints_combining :
    (([(3, 1), (64, 2), (70, 3)] : Tbl Word).map fun p => p.1).Pairwise (· < ·) ∧
      (∀ p ∈ ([(3, 1), (64, 2), (70, 3)] : Tbl Word), p.1 < 256) ∧
      combineAll .add .b32 10 [(3, 1), (64, 2), (70, 3)] = 16 ∧
      (okNeeds based (rangeNeeds 8 4 0) ∧ ¬ 0 < (based.sreg 3 8).toNat) ∧
      (okNeeds (afar.withS 8 128) (rangeNeeds 8 4 0) ∧ ((afar.withS 8 128).spair 3 4).toNat % 128 = 0 ∧
        (afar.withS 8 128).allLocal 1 131072 128 = false) ∧
      (okNeeds (ranged.withS 8 128) (rangeNeeds 8 4 0) ∧
        ∃ r ∈ (ranged.withS 8 128).cranges, r.job = 1 ∧ 65792 < r.va + r.len ∧ r.va < 65792 + 128) ∧
      (∃ r ∈ ({ based with granges := [{ job := 1, va := 65792, lines := 1 }] } : State).granges,
        r.job = 1 ∧ 65792 < r.va + 128 * r.lines ∧ r.va < 65792 + 128) :=
  ⟨by decide, by decide, by decide, by decide, by decide, ⟨by decide, ⟨_, List.mem_singleton.mpr rfl, by decide⟩⟩,
    ⟨_, List.mem_singleton.mpr rfl, by decide⟩⟩
theorem witness_RangesAndHints_remote :
    ((afar.coreEntry (afar.coreOf 3) (afar.jobOf 3) (afar.spair 3 4).toNat).any fun e =>
        isRemote (e.loc (afar.spair 3 4).toNat)) = true ∧
      ((based.coreEntry (based.coreOf 3) (based.jobOf 3) (based.spair 3 4).toNat).any fun e =>
        isRemote (e.loc (based.spair 3 4).toNat)) = false ∧
    okNeeds afar [.s 4, .s 5] ∧ afar.cranges = [] ∧
      afar.walk (afar.coreOf 3) (afar.jobOf 3) (afar.spair 3 4).toNat .read = .ok (chipBase 1 1 + 131072) ∧
      isRemote (chipBase 1 1 + 131072) = true := by decide

/-- A load still outstanding holds a fence. Barrier 16 counts up to 256 and barrier 0 up to 65; a group whose record is
waiting, and one whose record is complete. -/
theorem witness_FencesAndBarriers :
    okNeeds based [] ∧ (based.grp 3).out = [] ∧ based.unsent 3 = [] ∧ based.unclosed 3 = [] ∧
      ((withOut based (accOf (.load (.v 2)) 256)).Issues 3 ∧
        (accOf (.load (.v 2)) 256).op.reads = true ∧
        (withOut based (accOf (.load (.v 2)) 256)).undone (accOf (.load (.v 2)) 256) &&&
          (withOut based (accOf (.load (.v 2)) 256)).active 3 0 ≠ 0) ∧
      okNeeds (based.withS 8 256) (SImm.needs (.s 8)) ∧ (based.bar 2 16).n = 0 ∧ barRec (based.grp 3).brec 16 = 0 ∧
      3 ∈ ((based.barBlocks 2 16).flatMap fun m => (based.blk m).gids) ∧ (Tbl.find based.blocks 2).isSome = true ∧
      (Tbl.find based.stooks (based.blk 2).stook).isSome = true ∧
      (based.simm 3 (.imm 65)).toInt = 65 ∧ (based.simm 3 (.imm 1)).toInt = 1 ∧ (based.bar 2 0).a + 1 = 1 ∧
      ¬ (based.simm 3 (.imm 66)).toInt ≤ 65 ∧ ¬ 1 ≤ (based.simm 3 (.imm 0)).toInt ∧ (based.grp 3).partDone = false ∧
      (∀ r, r < 3 → barRec ((based.modGrp 3 fun g => { g with brec := Tbl.put g.brec 0 r }).grp 3).brec 0 = r) := by
  decide

/-- A load outstanding, which is not performed; and a group that has made `barsy`'s arrival and not yet its wait. -/
theorem witness_FencesAndBarriers_holds :
    (∃ a ∈ (withOut based (accOf (.load (.v 2)) 256)).accsOf 3, (a.op.reads || a.op.writes) = true ∧
      (withOut based (accOf (.load (.v 2)) 256)).undone a ≠ 0) ∧ (based.accsOf 3 = []) ∧
      (∀ k ∈ [0, 16], ∀ r ∈ [1, 2],
        let s := based.modGrp 3 fun g => { g with partDone := true, brec := Tbl.put g.brec k r }
        (s.grp 3).partDone = true ∧ barRec (s.grp 3).brec k = r) := by decide

/-! ### The Reaper and the Thresher -/

/-- A record of one dimension: 32 F32 elements from address 65792 on, in one tile, padded with 0. -/
def recBits : Nat := 65792 + (32 <<< 64) + (32 <<< 384) + (1 <<< 464)

/-- Its entry in a core's record cache, as of address 65792, which scalar pair 4 holds. -/
def recEntry : RecEntry := { job := 1, va := 65792, bits := BitVec.ofNat 512 recBits, ok := true }

/-- The core has the record cached. -/
def cachedRec : State := based.modCore 0 fun c => { c with rcache := [recEntry] }

theorem witness_TensorRecords :
    okNeeds based (rselNeeds (.s 4) 2) ∧ based.Reaches 3 .read (based.rsel64 3 (.s 4)) 64 256 ∧
      based.cached (based.coreOf 3) (based.jobOf 3) (based.rsel64 3 (.s 4)).toNat = none ∧
      cachedRec.Reaches 3 .read (cachedRec.rsel64 3 (.s 4)) 64 256 ∧
      cachedRec.cached (cachedRec.coreOf 3) (cachedRec.jobOf 3) (cachedRec.rsel64 3 (.s 4)).toNat = some recEntry :=
  ⟨by decide, reaches_of (by decide), by decide, reaches_of (by decide), by decide⟩
/-- An `rrec` outstanding, for its completion; and a store outstanding, for which `rfence` waits. -/
theorem witness_TensorRecords_performed :
    (let s := withOut based { accOf .rrec 256 with act := 1 }
     (Tbl.find s.groups 3).isSome = true ∧ (s.blockOf 3).resident = true ∧ s.jobRuns (s.jobOf 3) = true ∧
       s.ownStoreAt 3 (some 100) 256 64 = false ∧ s.resetHolds 3 { accOf .rrec 256 with act := 1 } = false ∧
       s.commAt (s.jobOf 3) 65792 = none ∧ (s.grp 3).bfault = none) ∧
      okNeeds cachedRec [] ∧ (cachedRec.grp 3).out = [] ∧ cachedRec.unsentBy (ofLanes 3 (BitVec.allOnes 64)) = [] ∧
      cachedRec.unclosedBy (cachedRec.coreOf 3) (ofLanes 3 (BitVec.allOnes 64)) = [] ∧
      (let s := withOut { based with nextId := 200 } (accOf .store 256)
       okNeeds s [] ∧ (accOf .store 256).op.storeLike = true ∧ (accOf .store 256).id < s.nextId) := by decide

/-- `rcopy` and `rcopyo` of the record: the destination is scratchpad byte 128 and the origin element 0. -/
theorem witness_BulkCopiesIssue :
    (let r := TRec.ofBits recEntry.bits.toNat
     okNeeds (cachedRec.withS 8 128) (rselNeeds (.s 4) 2 ++ rselNeeds (.s 8) 1 ++ [.s 12]) ∧
      recEntry.ok = true ∧ 12 + r.rank ≤ (cachedRec.blockOf 3).record.scalars ∧
      ((cachedRec.withS 8 128).rselAddr 3 (.s 8)).toNat = 128 ∧ r.swz = 0 ∧ r.esize * r.tileElems = 128 ∧
      cachedRec.scratchBad 2 128 0 128 = false ∧ cachedRec.hasRoom 3 15 = true ∧
      (∀ l ∈ r.lines 128, Tbl.find (cachedRec.blk 2).absent l = none)) ∧
      cachedRec.copyOutOk 3 (TRec.ofBits recEntry.bits.toNat) [0] = .ok () := ⟨by decide, rfl⟩

/-- A copy inwards in flight: the record's tile to scratchpad byte 0. -/
def copying : Copy :=
  { id := 100, out := false, gid := 3, slice := false, record := TRec.ofBits recBits, org := [0], blk := 2, off := 0, tok := 0,
    lines := [0], pc := 65544, waiting := false }
def flying : State := { based with copies := [copying], nextId := 200 }

/-- `rwait` goes on with none in flight, and holds with one. -/
theorem witness_BulkCopiesIssue_wait :
    okNeeds based [] ∧ based.copies = [] ∧ okNeeds flying [] ∧ copying ∈ flying.copies ∧ copying.gid = 3 ∧
      copying.slice = false := by decide

/-- The one page of the job. -/
def page : Pte := { job := 1, va := 65536, size := 65536, dst := .hbm 0, r := true, w := true, x := true }

theorem witness_CopiesAndWindowsComplete_line :
    flying.copies.find? (fun x => x.id == copying.id) = some copying ∧ copying.out = false ∧
      copying.lines.contains 0 = true ∧ flying.olderTouch copying 0 = false ∧ flying.olderCopy copying 0 = false ∧
      (flying.blockOf copying.gid).resident = true ∧ flying.jobRuns (flying.jobOf copying.gid) = true ∧ flying.copyFaulted copying.id = false ∧
      flying.storesDone copying.gid copying.id = true ∧ (Tbl.find flying.blocks copying.blk).isSome = true ∧ page.r = true ∧
      (∀ e ∈ copying.record.lineElems copying.off 0, ∀ va, copying.record.elemAt copying.org e.2 = some va →
        flying.pageEntry 1 va = some page ∧
        (∀ q ∈ (flying.core (flying.coreOf copying.gid)).walkTlb, q.covers 1 va = true → q = page) ∧
        isLocal (page.loc va) = true ∧ flying.heldByReset (dieOf (flying.coreOf copying.gid)) (page.loc va) = false ∧
        flying.gradedAt 1 va = none ∧ flying.commAt 1 va = none ∧ flying.poison.contains (lineOf (page.loc va)) = false) := by
  refine ⟨by decide, by decide, by decide, by decide, by decide, by decide, by decide, by decide, by decide, by decide,
    by decide, ?_⟩
  intro e he va h
  have k := (by decide : ∀ e ∈ copying.record.lineElems copying.off 0,
    ((copying.record.elemAt copying.org e.2).all fun va => decide (flying.pageEntry 1 va = some page) &&
      ((flying.core (flying.coreOf copying.gid)).walkTlb.isEmpty) && isLocal (page.loc va) &&
      !(flying.heldByReset (dieOf (flying.coreOf copying.gid)) (page.loc va)) && decide (flying.gradedAt 1 va = none) &&
      decide (flying.commAt 1 va = none) && !(flying.poison.contains (lineOf (page.loc va)))) = true) e he
  rw [h] at k
  simp only [Option.all_some, Bool.and_eq_true, decide_eq_true_eq, List.isEmpty_iff, Bool.not_eq_true'] at k
  exact ⟨k.1.1.1.1.1.1, fun q hq => by rw [k.1.1.1.1.1.2] at hq; exact absurd hq (by simp), k.1.1.1.1.2, k.1.1.1.2, k.1.1.2,
    k.1.2, k.2⟩

/-- A reserved entry behind a complete one, from the scratchpad or from memory. -/
def entryQ (sp : Bool) : QEntry :=
  { full := false, lanes := [], tag := .b32, fmt := .b32, sp := sp, base := if sp then 0 else 65792, stride := 4 }
def reservedQ (sp : Bool) : State := based.modGrp 3 fun g => { g with queues := [(0, [{ entryQ sp with full := true }, entryQ sp])] }

theorem witness_CopiesAndWindowsComplete_entry :
    (∀ sp, ((reservedQ sp).grp 3).queue 0 = [{ entryQ sp with full := true }] ++ entryQ sp :: []) ∧
      (∀ sp, (reservedQ sp).qputFaulted 3 = false ∧ ((reservedQ sp).blockOf 3).resident = true ∧
        (reservedQ sp).jobRuns ((reservedQ sp).jobOf 3) = true) ∧
      (∀ L, L < 64 → (reservedQ true).absentAt ((reservedQ true).scratchAt ((reservedQ true).grp 3).blk ((entryQ true).addr L)) 4 =
        false) ∧
      ∀ L, L < 64 → ∃ loc, (reservedQ false).walkAhead ((reservedQ false).coreOf 3) ((reservedQ false).jobOf 3)
          ((entryQ false).addr L).toNat .read = .ok loc ∧ isLocal loc = true ∧
        (reservedQ false).heldByReset (dieOf ((reservedQ false).coreOf 3)) loc = false ∧
        (reservedQ false).gradedAt ((reservedQ false).jobOf 3) ((entryQ false).addr L).toNat = none ∧
        (reservedQ false).commAt ((reservedQ false).jobOf 3) ((entryQ false).addr L).toNat = none ∧ loc % 4 = 0 ∧
        (reservedQ false).l1Read ((reservedQ false).coreOf 3) loc 4 = none := by
  refine ⟨by decide, by decide, by decide, fun L h => ⟨256 + 4 * L, ?_⟩⟩
  revert L
  decide

/-- The slice of the group in each of its states. -/
def sliced (st : SliceSt) : State := based.modGrp 3 fun g => { g with slice := { g.slice with st := st } }

theorem witness_WindowAndSliceControl :
    okNeeds (withQueue (unit 0)) [.q 0] ∧ okNeeds based [] ∧ okNeeds based [.s 8] ∧
      (∀ st ∈ [SliceSt.none, .running, .paused, .ended], okNeeds (sliced st) [] ∧ ((sliced st).grp 3).slice.st = st) := by
  decide

/-- A shadow clause of REAP words: its slice issues. -/
abbrev shadow : State := unit 0x3000000040000000

theorem witness_SliceInstructions :
    shadow.issuer = .slice 3 ∧ (Tbl.find shadow.groups 3).isSome = true ∧ (shadow.grp 3).slice.atLast = true ∧
      (shadow.grp 3).slice.x 0 = 0 ∧ (shadow.grp 3).slice.loops = [] ∧
      ((shadow.modGrp 3 fun g => { g with slice := { g.slice with loops := [(1, 65536)] } }).grp 3).slice.loops ≠ [] ∧
      (unit 0).issuer = .lane 3 := by decide
/-- A window of two entries, one of them taken, and a base in the scratchpad or in memory. -/
theorem witness_SliceInstructions_qput :
    let s := (withQueue shadow).modBlk 2 fun k => { k with record := { k.record with carve := 1, carven := 16 } }
    s.issuer = .slice 3 ∧ 0 < (s.blockOf 3).record.qn ∧ ((s.grp 3).queue 0).length < (s.blockOf 3).record.qdepth ∧
      (∀ L, L < 64 → (BitVec.ofNat 64 (0 + L * 4) : Dword).toNat % 4 = 0 ∧
        s.scratchBad (s.grp 3).blk 4 0 (BitVec.ofNat 64 (0 + L * 4)) = false) ∧
      s.rsel64 3 (.imm 4) = 4 ∧ (s.grp 3).slice.x 0 = 0 ∧
      ∀ L, L < 64 → canonical (BitVec.ofNat 64 (0 + L * 4)) = true := by decide

/-- A block that declares the Thresher, which another block, no block or it itself holds. -/
def threshing (holder : Option Nat) : State :=
  ((unit 0).withS 4 65536).modBlk 2 (fun k => { k with record := { k.record with thr := true } }) |>.modCore 0 fun c =>
    { c with thr := { c.thr with holder := holder } }

theorem witness_ThresherReservation :
    (∀ h ∈ [none, some 2, some 9], okNeeds (threshing h) [.s 3, .s 4, .s 5] ∧ (threshing h).thrHolder 3 = h) ∧
      ((threshing none).blockOf 3).record.thr = true ∧ ((threshing none).spair 3 4) = 65536 ∧
      (65536 : Dword).toNat % 8 = 0 ∧ canonical 65536 = true ∧ ((threshing none).blockOf 3).record.entry.toNat ≤ 65536 ∧
      65536 < ((threshing none).blockOf 3).record.entry.toNat + ((threshing none).blockOf 3).record.csize ∧
      (threshing none).copies = [] ∧ ((threshing (some 2)).grp 3).out = [] ∧
      (copying ∈ ({ threshing (some 2) with copies := [copying] } : State).copies ∧ copying.gid = 3 ∧ copying.out = false ∧
        copying.lines ≠ []) ∧
      (accOf .sstore (scratchLoc 2 0)).op = .sstore := by decide

/-- Poisoned, infinite and finite entries, and a value that is not zero. -/
theorem witness_EntryExponentsAndOutputs :
    ((⟨-1, 3⟩ : Rat2).num ≠ 0 ∧ 0 < (⟨-1, 3⟩ : Rat2).den) ∧ (0x40000000 : Word).getLsbD 30 = true ∧
      ((0x20000000 : Word).getLsbD 30 = false ∧ (0x20000000 : Word).getLsbD 29 = true ∧ (0x20000000 : Word).getLsbD 28 = false) ∧
      (0x20000000 : Word).getLsbD 28 ≠ (0x30000000 : Word).getLsbD 28 ∧
      ((0x0FFFFFFF : Word).getLsbD 30 = false ∧ (0x0FFFFFFF : Word).getLsbD 29 = false) := by decide

/-- A stream word of TABLE class: the sequencer that the block holds issues. -/
def streamed : State :=
  (unit (0x4000000000000000 + 0x1A00000000000000 * 2 ^ 64)).modBlk 2 fun k =>
    { k with record := { k.record with carve := 1, carven := 16 } }

theorem reach_of {s : State} {c : Nat} {ps : Pieces}
    (h : (ps.all fun x => decide (x.1 / 2 ^ 24 = (s.blk (s.thrBlk c)).sidx) &&
      decide (x.1 % 2 ^ 24 + x.2 ≤ (s.blk (s.thrBlk c)).record.scratchBytes) && (s.blk (s.thrBlk c)).absent.isEmpty) = true) :
    s.StreamReaches c ps := by
  intro x hx
  have k := List.all_eq_true.mp h x hx
  simp only [Bool.and_eq_true, decide_eq_true_eq, List.isEmpty_iff] at k
  exact ⟨k.1.1, k.1.2, fun a _ _ => by rw [k.2]; rfl⟩

/-- The smallest set and the largest, in slots 0 to 511. -/
theorem witness_TablesAndCodes :
    streamed.issuer = .stream 0 ∧
      (let z : Shape := { lg := 2, lm := 0, d8 := false, inf := false, cset := 0, slot := 0, base := 0, pitch := 0 }
       z.slot < 512 ∧ z.slot % z.slots = 0 ∧ z.aligned = true ∧ streamed.StreamReaches 0 z.pieces) ∧
      (let z : Shape := { lg := 0, lm := 4, d8 := true, inf := true, cset := 7, slot := 256, base := 1, pitch := 17 }
       z.slot < 512 ∧ z.slot % z.slots = 0 ∧ z.aligned = true ∧ streamed.StreamReaches 0 z.pieces) ∧
      streamed.StreamReaches 0 [(0, 2 * 2 ^ 2 ^ 2)] ∧ (streamed.kval 0 (.imm 0)).toNat = 0 ∧
      (streamed.blk (streamed.thrBlk 0)).late = [] :=
  ⟨by decide, ⟨by decide, by decide, by decide, reach_of (by decide)⟩, ⟨by decide, by decide, by decide, reach_of (by decide)⟩,
    reach_of (by decide), by decide, by decide⟩
/-- Entries of each case: a sum, an infinite code at −3 and at 0, an activation with no real value, and an invalid code; a code
below a set's count and one at it; an exponent's entries, all zero and not. -/
theorem witness_TablesAndCodes_entries :
    (match entryOf [some ⟨-3, 1⟩, some ⟨1, 2⟩] [.fin ⟨1, 2⟩, .fin ⟨3, 1⟩] with
      | .fin v => v.num == 0 && decide (0 < v.den)
      | _ => false) = true ∧
      entryOf [some ⟨-3, 1⟩] [.inf true] = .inf false ∧ entryOf [some ⟨0, 1⟩] [.inf false] = .poison false ∧
      entryOf [none, some ⟨1, 1⟩] [.fin ⟨1, 1⟩, .invalid] = .poison true ∧ entryOf [some ⟨1, 1⟩] [.invalid] = .invalid ∧
      setCode { count := 1, vals := [0x3F80] } 1 = .invalid ∧ setCode { count := 1, vals := [0x7F80] } 0 = .special ∧
      setExp [.fin ⟨0, 1⟩, .invalid] = 0 ∧ (⟨0, 1⟩ : Rat2).num = 0 ∧ (⟨-3, 2⟩ : Rat2).num ≠ 0 := by decide

/-- A valid set of one slot with group log 2, row log 0 at slot 0, and one that is stale. -/
def setAt (valid : Bool) : State :=
  streamed.modCore 0 fun c => { c with thr := { c.thr with sets := [(0,
    { valid := valid, e := 0, inf := false, cset := 0, d8 := false, lg := 2, lm := 0, slot := 0, len := 32, base := 0 })] } }

theorem witness_TileArithmetic :
    (setAt true).issuer = .stream 0 ∧
      (setAt true).StreamReaches 0 [(((setAt true).kval 0 (.imm 0)).toNat, 64 * 4), (((setAt true).kval 0 (.imm 64)).toNat, 64)] ∧
      (∀ v, (Tbl.find ((setAt v).thr 0).sets 0).map (fun r => (r.valid, r.lg, r.lm)) = some (v, 2, 0)) ∧
      streamed.StreamReaches 0 ((List.range (2 ^ 4)).map fun m => (0 + m * 1024, 4 * 256)) :=
  ⟨by decide, reach_of (by decide), by decide, reach_of (by decide)⟩
theorem witness_TilesStored :
    streamed.issuer = .stream 0 ∧ (Tbl.find streamed.blocks (streamed.thrBlk 0)).isSome = true ∧
      streamed.StreamReaches 0 ((List.range 1).map (fun m => (0 + m * 0, 1 * 64)) ++ [(64, 1 * (64 / 16))]) ∧
      (streamed.kval 0 (.imm 0)).toNat = 0 ∧ (streamed.kval 0 (.imm 64)).toNat = 64 :=
  ⟨by decide, by decide, reach_of (by decide), by decide, by decide⟩
/-- Barrier counts 1 and 65, a first arrival, and a `tloop` at its clause's last word whose target is the clause itself. -/
theorem witness_StreamControl :
    streamed.issuer = .stream 0 ∧ (streamed.thr 0).holder = some (streamed.thrBlk 0) ∧ (streamed.blk 2).core = 0 ∧
      (Tbl.find streamed.blocks 2).isSome = true ∧ (streamed.thr 0).st = .running ∧
      (1 ≤ (streamed.kval 0 (.imm 1)).toInt ∧ (streamed.kval 0 (.imm 65)).toInt ≤ 65) ∧
      barRec (streamed.thr 0).brec 0 ≠ 1 ∧ (streamed.bar 2 0).n = 0 ∧
      (streamed.bar 2 0).a + 1 = (streamed.kval 0 (.imm 1)).toNat ∧
      (streamed.thr 0).clause.isSome = true ∧
      ((streamed.thr 0).clause.all fun q => q.idx + 1 == headWords q.head &&
        decide (streamed.checkTarget (streamed.thrBlk 0) .stream false (q.hdr - BitVec.ofNat 64 (8 * 0)) = .ok)) = true := by
  decide

/-! ### Instructions with no active lane, tasks and the fabric -/

/-- A mask alias pair that is empty, every scalar there, a window, and each list of needs that the statement names. -/
theorem witness_InactiveInstructionsPass :
    let s := masked (withQueue (unit 0))
    s.Issues 3 ∧ s.active 3 1 = 0 ∧
      (∀ ns ∈ [[], [Need.s 4, .s 5, .s 8], SImm.needs (.imm 7), SImm.needs (.s 8), [.q 0], rselNeeds (.s 4) 2,
        rselNeeds (.s 4) 2 ++ rselNeeds (.s 8) 1 ++ rselNeeds (.s 9) 1, [.s 252, .s 253, .s 254, .s 255, .s 4, .s 5]],
        s.needsOk 3 (ns ++ mselNeeds 1) = true) ∧ (0x25 : BitVec 8).toNat ≤ 0x25 := by decide

/-- The job has an arena of eight records from the page's start on. -/
def arenaed (s : State) : State :=
  let spec : JobSpec := ⟨1, 1, 0, 0, 0, [], 1, 65536, 8⟩
  s.setJob 1 (Job.fresh spec)

/-- Its block runs as the task of record 3, which has as many children and outputs as a record can count, at grade 0. -/
def asTask : State :=
  let s := (arenaed based).modBlk 2 fun k => { k with task := 3 }
  { s with mem := Memory.write (Memory.write s.mem (384 + 64) 2 65535) (384 + 58) 2 1024 }

theorem witness_TaskInstructionsIssue :
    let s := arenaed (based.withS 8 2)
    okNeeds s [.s 2, .s 4, .s 5] ∧ okNeeds s [.s 2, .s 4, .s 5, .s 8] ∧ okNeeds s ([.s 4, .s 5] ++ SImm.needs (.imm 1)) ∧
      okNeeds s [.s 2, .s 3, .s 8, .s 9, .s 10, .s 11] ∧ okNeeds s [.s 8, .s 9, .s 10, .s 11, .s 2, .s 3] ∧
      s.hasRoom 3 15 = true ∧ (s.spair 3 4).toNat = 65792 ∧ (s.arena 1).1 < 65792 ∧
      65792 + 128 ≤ (s.arena 1).1 + 128 * (s.arena 1).2 ∧ s.atLimit 3 true = false ∧ s.roomWait 3 1 = false ∧
      s.sreg 3 8 ≠ 0 ∧ (s.sreg 3 8).toNat ≤ 2 ^ 29 ∧ s.allLocal 1 65792 (128 * 2) = true ∧ s.effGrade 3 = 3 ∧
      (s.blockOf 3).depth < 10 ∧ (s.childGrids (s.grp 3).blk).length < 256 := by decide
theorem witness_TaskInstructionsIssue_reach :
    let s := arenaed (based.withS 8 2)
    s.Reaches 3 .write (s.spair 3 4) 128 256 ∧ s.Reaches 3 .read (s.spair 3 4) 256 256 ∧ s.Reaches 3 .read (s.spair 3 4) 1 256 :=
  ⟨reaches_of (by decide), reaches_of (by decide), reaches_of (by decide)⟩
/-- A task at its limits waits or faults; a record outside the arena, a misaligned one, and a block ten deep fault. -/
theorem witness_TaskInstructionsIssue_stops :
    (asTask.atLimit 3 true = true ∧ asTask.effGrade 3 ≠ 3 ∧ asTask.Reaches 3 .write (asTask.spair 3 4) 128 256) ∧
      (let s := arenaed (based.withS 4 65536)
       s.Reaches 3 .write (s.spair 3 4) 128 0 ∧ ¬ (s.arena 1).1 < (s.spair 3 4).toNat) ∧
      ((based.withS 4 65793).spair 3 4).toNat % 128 ≠ 0 ∧
      10 ≤ ((based.modBlk 2 fun k => { k with depth := 10 }).blockOf 3).depth :=
  ⟨⟨by decide, by decide, reaches_of (by decide)⟩, ⟨reaches_of (by decide), by decide⟩, by decide, by decide⟩

/-- The task of record 2, at scalar pair 4, is spawned, with a state. -/
def spawned (st : Nat) : State :=
  let s := arenaed based
  { s with tasks := [{ id := { job := 1, rec' := 65792 }, counted := false, cont0 := 0, contDone := false, words := none, signals := [] }],
           mem := Memory.write s.mem (256 + 60) 1 st }
def taskTwo : TaskId := { job := 1, rec' := 65792 }

theorem witness_TaskInstructionsHold :
    (spawned 0).Reaches 3 .write ((spawned 0).spair 3 4) 128 256 ∧ okNeeds (spawned 0) ([.s 4, .s 5] ++ SImm.needs (.imm 2)) ∧
      (spawned 0).effGrade 3 = 3 ∧ (spawned 0).storesDone 3 (spawned 0).nextId = true ∧ (spawned 0).tState taskTwo = 0 ∧
      (spawned 4).tState taskTwo = 4 ∧ ((spawned 0).taskRow taskTwo).isSome = true ∧
      (let s := withOut { spawned 0 with nextId := 200 } (accOf .store 256)
       s.storesDone 3 s.nextId = false) ∧
      (spawned 0).grpTask 3 = none ∧ asTask.grpTask 3 = some { job := 1, rec' := 65920 } ∧
      (Tbl.find (spawned 0).grids ((spawned 0).blockOf 3).grid).isSome = true ∧
      (spawned 0).childTasks taskTwo = [] ∧ (spawned 0).taskGrids taskTwo = [] ∧ (spawned 0).bodyBlocks taskTwo = [] ∧
      (spawned 0).ownLines taskTwo = [] ∧ (spawned 0).handlerWait = [] ∧ (spawned 0).stops = [] ∧
      ((spawned 0).grp 3).partDone = false ∧
      (let s := (spawned 7).modGrp 3 fun g => { g with partDone := true }
       (s.grp 3).partDone = true ∧ s.killing 3 taskTwo = false) ∧
      (let s := { (spawned 0).modGrp 3 fun g => { g with partDone := true } with
         stops := [⟨[2], [], [.cancelEnd taskTwo]⟩] }
       s.killing 3 taskTwo = true) :=
  ⟨reaches_of (by decide), by decide⟩

/-- The Binder while no die is warm-reset, and while the die that holds the task's record is. -/
theorem witness_TaskInstructionsHold_binder :
    (spawned 0).binderHeld = false ∧ (spawned 0).commAt 1 65792 = none ∧
      ({ spawned 0 with dieReset := some ⟨owner 0, 4, [], [], []⟩ } : State).binderHeld = true := by
  refine ⟨by decide, by decide, ?_⟩
  have h : ({ spawned 0 with dieReset := some ⟨owner 0, 4, [], [], []⟩ } : State).unitHeld 256 = true := by
    simp [State.unitHeld, isLocal]
  have p : ({ spawned 0 with dieReset := some ⟨owner 0, 4, [], [], []⟩ } : State).place 1 65792 = 256 := by rfl
  simp only [State.binderHeld, spawned, List.any_cons, Option.isSome_some, Bool.true_and]
  simp only [spawned] at h p
  rw [p, h]
  rfl

/-- The group runs as the task of record 3, and waits in its `tkill` for the run of the task of record 2, which may be its child. -/
def killer (parent : Nat) : State :=
  let s := asTask.modGrp 3 fun g => { g with partDone := true }
  { s with stops := [⟨[2], [], [.cancelEnd taskTwo]⟩],
           tasks := [{ id := taskTwo, counted := false, cont0 := 0, contDone := false, words := none, signals := [] }],
           mem := Memory.write s.mem (256 + 40) 8 parent }

theorem witness_TaskInstructionsHold_own :
    ((killer 0).grp 3).partDone = true ∧ (killer 0).killing 3 taskTwo = true ∧ (killer 0).killsOwn 3 taskTwo = false ∧
      ((killer 65920).grp 3).partDone = true ∧ (killer 65920).killing 3 ⟨1, 65920⟩ = true ∧
      (killer 65920).killsOwn 3 ⟨1, 65920⟩ = true ∧ asTask.grpTask 3 = some ⟨1, 65920⟩ := by decide

/-- Binder queue 0 holds some entries of at most two. -/
def queued (es : List BItem) : State := { based with bqueues := Tbl.put based.bqueues 0 { base := 0, cap := 2, items := es } }
def item : BItem := { bits := 7, stamp := 0, job := 1 }

theorem witness_TaskInstructionsHold_queues :
    okNeeds (queued [item]) [.s 8, .s 9, .s 10, .s 11, .s 2] ∧ (queued [item]).storesDone 3 (queued [item]).nextId = true ∧
      (queued [item]).hasRoom 3 0 = true ∧ (queued [item]).queueHeld 0 = false ∧ (queued [item]).queueOk 0 = true ∧
      ((queued [item]).bq 0).items = [item] ∧ ((queued []).bq 0).items = [] ∧ based.queueOk 0 = false ∧
      okNeeds based (SImm.needs (.imm 0)) ∧ based.childGrids (based.grp 3).blk = [] ∧
      (({ based with grids := Tbl.put based.grids 50 { Grid.empty with parent := some 2, handle := 1 } } : State).childGrids
        (based.grp 3).blk) = [50] := by decide

/-- Every kind of instruction, outstanding alone, with nothing before it. -/
theorem witness_OutstandingInstructionsPerform :
    (∀ op ∈ [AccOp.gstat 8, .qpush 8, .qpop 8 12, .qpopw 8, .grange 8, .grel 8, .promote 2, .retract, .tspawn 8, .tsig,
        .launch 8, .rrec, .flushr, .invr, .ffence, .fdrain],
      let s := withOut (arenaed based) (accOf op 256)
      (Tbl.find s.groups 3).isSome = true ∧ (s.blockOf 3).resident = true ∧ s.jobRuns (s.jobOf 3) = true ∧
        (s.grp 3).out.find? (fun b => b.id == 100) = some (accOf op 256) ∧
        (s.grp 3).out.takeWhile (fun b => b.id != 100) = [] ∧ s.unsent 3 = [] ∧ s.unclosed 3 = [] ∧ s.subs = [] ∧
        (accOf op 256).st ≠ .abandoned ∧ s.binderHeld = false ∧ s.spanLines 1 65792 7 = [] ∧
        s.grpTask 3 = none ∧ s.granges = [] ∧ s.cranges = [] ∧ s.copies = [] ∧
        s.ownStoreAt 3 (some 100) 256 64 = false ∧ (s.childGrids (s.grp 3).blk).length < 256 ∧
        s.resetHolds 3 (accOf op 256) = false ∧ s.commAt 1 65792 = none ∧ s.commAt 1 65920 = none ∧
        s.fencePassed 3 (accOf op 256) = true) ∧
      (queued [item]).queueHeld 7 = false ∧ (queued [item]).queueOk 7 = false ∧ (queued [item]).queueOk 0 = true ∧
      (spawned 0).tState taskTwo = 0 ∧ (spawned 0).tJoin taskTwo = 0 ∧ ((spawned 0).taskRow taskTwo).isSome = true ∧
      ((queued [item, item]).bq 0).cap ≤ ((queued [item, item]).bq 0).items.length := by decide
theorem witness_OutstandingInstructionsPerform_before :
    (withOut (arenaed based) (accOf (.gstat 8) 256)).accsBefore 3 100 = [] ∧ isRemote ((accOf .rrec 256).addrOf 0) = false ∧
      (accOf (.qpop 8 12) 256).got = [] := by decide
/-- Ranges that meet the one declared, of each kind. -/
theorem witness_OutstandingInstructionsPerform_ranges :
    (∃ r ∈ ranged.cranges, r.job = 1 ∧ overlap r.va r.len 65792 (128 * 7) = true) ∧
      (withOut ranged (accOf .rrec 256)).commAt 1 65792 ≠ none ∧
      (∃ r ∈ ({ based with granges := [{ job := 1, va := 65792, lines := 1 }] } : State).granges,
        r.job = 1 ∧ overlap r.va (128 * r.lines) 65792 (128 * 7) = true) :=
  ⟨⟨_, List.mem_singleton.mpr rfl, by decide⟩, by decide, ⟨_, List.mem_singleton.mpr rfl, by decide⟩⟩

/-- Scalars of a popped entry that are still to land. -/
theorem witness_OutstandingInstructionsPerform_landing :
    let a := { accOf (.qpopw 8) 256 with got := [(8, 5), (11, 6)] }
    ((withOut based a).grp 3).out.find? (fun b => b.id == 100) = some a ∧ a.op.perLane = false ∧ (a.got.map (·.1)).Nodup ∧
      (withOut based a).resetHolds 3 a = false ∧ (accOf .retract 256).op.scalars = [] ∧
      ((withOut based a).accessCompletion 3 100 1).sreg 3 11 = 6 := by decide

theorem witness_FabricInstructions :
    okNeeds based [] ∧ okNeeds based [.s 8] ∧ based.hasRoom 3 15 = true := by decide

/-! ### System registers and control -/

/-- The block is of the firmware job. -/
def firm : State := based.modBlk 2 fun k => { k with job := 0 }

/-- Root and field firmware run. -/
def fielded : State :=
  { firm with root := { firm.root with booted := true, fieldImg := some ⟨false, true, true, 0, 1⟩ } }

theorem witness_SystemRegistersRead :
    okNeeds based [.s 31] ∧ okNeeds firm [.s 0] ∧ firm.jobOf 3 = 0 ∧ based.jobOf 3 ≠ 0 ∧ 0x25 < (0x26 : BitVec 8).toNat := by decide
/-- Values at the edges of each register's limits, and just past them. -/
theorem witness_SystemRegistersWritten :
    okNeeds firm (SImm.needs (.imm 8)) ∧ okNeeds firm (SImm.needs (.s 8)) ∧ firm.jobOf 3 = 0 ∧
      (1 ≤ (firm.simm 3 (.imm 1)).toNat ∧ ¬ 1 ≤ (firm.simm 3 (.imm 0)).toNat) ∧
      (8 ≤ (firm.simm 3 (.imm 8)).toNat ∧ ¬ 8 ≤ (firm.simm 3 (.imm 7)).toNat ∧ (firm.simm 3 (.imm 16)).toNat ≤ 16) ∧
      (firm.simm 3 (.imm 0)).toNat % 128 = 0 ∧ (firm.bq firm.qsel.toNat).items = [] ∧
      ((firm.withS 8 0x40000001).simm 3 (.s 8)).toNat / 2 ^ 30 = 1 ∧
      ((firm.withS 8 0x80000001).simm 3 (.s 8)).toNat / 2 ^ 30 = 2 ∧
      ((firm.withS 8 0xC0000001).simm 3 (.s 8)).toNat / 2 ^ 30 = 3 ∧
      fielded.root.runs .field = true ∧ fielded.jobOf 3 = 0 ∧
      okNeeds (trapped 65536 65536) (SImm.needs (.imm 0)) ∧ ((trapped 65536 65536).grp 3).inh = true ∧
      (firm.grp 3).inh = false ∧ based.jobOf 3 ≠ 0 := by decide

/-- A second group of the block, whose clause is open and not held. -/
def besides : State :=
  { (based.modBlk 2 fun k => { k with gids := [3, 4] }) with groups := Tbl.put based.groups 4 (based.grp 3) }

theorem witness_SystemControl :
    okNeeds based [.s 8, .s 9] ∧ okNeeds based [] ∧ based.storesDone 3 based.nextId = true ∧
      (let s := withOut { based with nextId := 200 } (accOf .store 256)
       okNeeds s [] ∧ s.storesDone 3 s.nextId = false) ∧
      okNeeds based [.s 4, .s 5] ∧ canonical (based.spair 3 4) = true ∧
      canonical ((based.withS 5 0x40000000).spair 3 4) = false := by decide
theorem witness_SystemControl_park :
    okNeeds based (SImm.needs (.imm 1)) ∧ (based.grp 3).atLast = true ∧
      (based.stk (based.blockOf 3).stook).members = [2] ∧ (based.blk 2).resident = true ∧ (based.blk 2).gids = [3] ∧
      (based.blk 2).stop = false ∧ (based.blk 2).parkReq = none ∧ based.copies = [] ∧
      (based.grp 3).slice.st ≠ .running ∧ (based.grp 3).out = [] ∧
      (besides.blk 2).gids = [3, 4] ∧ (besides.grp 4).clause ≠ none ∧ (besides.grp 4).heldAt = false ∧
      (besides.blk 2).resident = true ∧ (besides.blk 2).stop = false ∧ (besides.blk 2).parkReq = none ∧ (besides.stk (besides.blockOf 3).stook).members = [2] ∧ besides.Issues 3 := by decide
theorem mayEnd_of {s : State} {z : Nat}
    (h : (Tbl.find s.grids z).isSome = true ∧ (s.grid z).ended = false ∧ (s.blocksOf z).length < 4000 ∧
      (∀ b ∈ s.blocksOf z, s.childGrids b = [] ∧ ∀ h ∈ (s.blk b).gids, (s.grp h).out = [] ∧
        ((s.grp h).clause = none ∨ (s.grp h).heldAt = true) ∧
        ((s.grp h).slice.st ≠ .running ∨ (s.grp h).slice.clause = none ∨ (s.grp h).slice.held = true)) ∧
      s.dieReset = none) : s.MayEnd z :=
  ⟨h.1, h.2.1, h.2.2.1, fun b hb => ⟨(h.2.2.2.1 b hb).1, fun g hg => ((h.2.2.2.1 b hb).2 g hg).1⟩,
    fun b hb g hg => ((h.2.2.2.1 b hb).2 g hg).2, h.2.2.2.2⟩
/-- The group of the small device halts where it stands. -/
def halting (s : State) : State := s.setGrp 3 { s.grp 3 with heldAt := true }
theorem witness_SystemControl_abort :
    based.grpTask 3 = none ∧ (halting based).MayEnd (based.blockOf 3).grid ∧ okNeeds based [] :=
  ⟨by decide, mayEnd_of (by decide), by decide⟩

/-! ### Events -/

/-- The group between clauses, its slot serving none. -/
def between (s : State) : State :=
  (s.modGrp 3 fun g => { g with clause := none }).modCore 0 fun c => { c with serving := [] }

theorem witness_IssueAndRetireEvents_issue :
    let s := between (unit 0)
    Tbl.find (s.core 0).serving 0 = none ∧ s.slotReady 0 0 = [3] ∧ (s.grp 3).cur.isSome = true ∧ s.cancelledOf 3 = none ∧
      (s.fetch 0 (s.jobOf 3) 65536).1 = .ok 0 ∧ s.outsideJob (s.jobOf 3) 0 = false ∧ s.commAt (s.jobOf 3) 65536 = none ∧
      (s.grp 3).header { part := false, lanes := BitVec.allOnes 64, age := 0, res := 0 } = 65536 ∧ (s.blockOf 3).core = 0 ∧ headerOk .lane 0 0 = true ∧
      (s.readCode 0 1 65536 0 0).earlyOk 3 65536 0 = true ∧ Tbl.find ((unit 0).core 0).serving 0 = some 3 ∧
      s.slotReady 0 1 = [] := by decide
/-- The slice between clauses. -/
theorem witness_IssueAndRetireEvents_slice :
    let s := shadow.modGrp 3 fun g => { g with slice := { g.slice with clause := none } }
    (s.groups.map fun h => h.1) = [3] ∧ (s.blk (s.grp 3).blk).core = 0 ∧ s.sliceRuns 3 = true ∧
      (s.grp 3).slice.clause = none ∧ s.fetchHeld 0 (s.jobOf 3) (s.grp 3).slice.pc = false ∧
      s.outsideJob (s.jobOf 3) 0 = false ∧ (s.fetch 0 (s.jobOf 3) (s.grp 3).slice.pc).1 = .ok 0 ∧
      headerOk .slice (s.blockOf 3).record.qn (s.fetch 0 (s.jobOf 3) (s.grp 3).slice.pc).2 = true ∧
      (s.grp 3).slice.skip = 0 := by decide
/-- The group with every thread exited, and once it has retired. -/
def exited (retired : Bool) : State :=
  (between (unit 0)).modGrp 3 fun g => { g with exited := BitVec.allOnes 64, retired := retired, cur := none }
theorem witness_IssueAndRetireEvents_retire :
    ((exited false).blockOf 3).resident = true ∧ ((exited false).grp 3).retired = false ∧
      ((exited false).grp 3).clause = none ∧ ((exited false).grp 3).exited = BitVec.allOnes 64 ∧
      ((exited false).grp 3).allClear = true ∧ ((exited false).grp 3).bfault = none ∧ (exited false).gradedFlying 3 = false ∧
      ((unit 0).grp 3).clause ≠ none ∧
      ((exited true).stk ((exited true).blk 2).stook).members = [2] ∧ (exited true).blockOver 2 = true ∧
      (exited false).blockOver 2 = false ∧ ((exited true).blk 2).gone = false ∧ (exited true).owes 2 = false := by decide
/-- A block that has retired, with nothing left to perform, and with a store that still is. -/
theorem witness_IssueAndRetireEvents_gone :
    let s := (exited true).modBlk 2 fun k => { k with gone := true }
    (s.blk 2).gone = true ∧ s.owes 2 = false ∧
      (s.modGrp 3 fun g => { g with out := [g.newAcc 9 .store 0 1] }).owes 2 = true := by decide
/-- A fault waits for its group, between clauses, and the handler may be entered. -/
theorem witness_IssueAndRetireEvents_fault :
    let s := (between (handled 0)).modGrp 3 fun g => { g with bfault := some (Flt.ofLane 0x16 64 65792) }
    (s.blockOf 3).resident = true ∧ (s.grp 3).retired = false ∧ (s.grp 3).reo = none ∧ (s.grp 3).xreq = false ∧
      s.jobRuns (s.jobOf 3) = true ∧ (s.grp 3).trapPend = none ∧
      (s.grp 3).bfault = some (Flt.ofLane 0x16 64 65792) ∧ (s.grp 3).clause = none ∧ s.trapCheck 3 = some .ok := by decide

/-- A graded store of two bytes of line 2, over a line of a grade. -/
def storing (g : Grade) (b : Byte) : State :=
  let x : GStore := ⟨3, 100, ⟨1, 0⟩, 2, 65792, [(256, b), (257, b)], 2⟩
  { (unit 0).setGrade 2 g with gstores := [x] }

theorem witness_BinderAndReeveEvents_stores :
    (∀ g ∈ [(0 : Grade), 1, 2, 3], ∀ b ∈ [Memory.blank, 77], (storing g b).subs = [] ∧ (storing g b).gstores.length = 1 ∧
      ((storing g b).gstores.all fun x => Tbl.rising x.bytes && (Tbl.find (storing g b).groups x.gid).isSome) = true ∧
      (storing g b).lineGrade 2 = g) ∧
      (∀ g ∈ [(0 : Grade), 1, 2, 3], ∀ b ∈ [Memory.blank, 77], (storing g b).dieReset = none) ∧
      ((unit 0).mem.byte 256 = Memory.blank ∧ (unit 0).mem.byte 256 ≠ 77) := by decide
/-- A task whose body is over. -/
theorem witness_BinderAndReeveEvents_task :
    (spawned 2).tState taskTwo = 2 ∧ (spawned 2).bodyBlocks taskTwo = [] ∧ (spawned 2).tChildren taskTwo = 0 ∧
      (spawned 2).tCont taskTwo = 0 ∧ (spawned 2).tOuts taskTwo = 0 ∧ (spawned 2).handlerWait = [] ∧
      ((spawned 2).taskRow taskTwo).isSome = true ∧ (spawned 1).tState taskTwo ≠ 2 ∧ (spawned 2).dieReset = none ∧
      ((spawned 2).taskRow taskTwo).map (fun w => w.counted) = some false := by decide

/-- One grid of one block waits in queue 0, on a device with no other, whose die 0 has a frame pool. -/
def placing : State :=
  { State.reset with
    jobs := Tbl.put [] 1 (Job.fresh ⟨1, 1, 0, 0, 0, [], 1, 0, 0⟩)
    grids := Tbl.put [] 10 { Grid.empty with job := 1, record := placedRec, declared := true, met := true }
    waiting := [(0, [10])]
    dies := Tbl.put State.reset.dies 0 { Die.zero with fpBase := 0, fpSize := 8 }
    nextId := 20 }

theorem witness_BinderAndReeveEvents_place :
    placing.frameOffers = [] ∧ placing.runqs = [] ∧ placing.waiting = [(0, [10])] ∧
      (∀ l ∈ placing.lqueues, (placing.lq l.1).head = (placing.lq l.1).tail) ∧ (Tbl.find placing.grids 10).isSome = true ∧
      (placing.grid 10).declared = true ∧ (placing.grid 10).met = true ∧ placing.jobRuns 1 = true ∧
      (placing.grid 10).record.stook = 1 ∧
      ((placing.assign (placing.grid 10).record [false] none).map fun l => l.length) = some 1 ∧
      (placing.grid 10).isTask = false ∧ placing.launchHeld 1 (placing.grid 10).record = false ∧ placing.cranges = [] ∧
      (Tbl.find placing.waiting 1).getD [] = [] := by decide
/-- The task with its job switched out. -/
theorem witness_BinderAndReeveEvents_out :
    let s := (spawned 2).setJob 1 { Job.fresh ⟨1, 1, 0, 0, 0, [], 1, 65536, 8⟩ with sw := .out }
    s.jobIn 1 .out = true ∧ (s.taskRow taskTwo).isSome = true ∧ (spawned 2).jobIn 1 .out = false ∧
      (storing 0 77).jobIn 1 .out = false ∧ placing.mayPlace 1 = true ∧ placing.mayPlace 0 = false ∧
      (halting (unit 0)).jobIn ((halting (unit 0)).grid ((unit 0).blk 2).grid).job .out = false ∧
      ((halting (unit 0)).grid ((unit 0).blk 2).grid).isTask = false := by decide

/-- A head whose one dependence, of the value 5 at the page's first word, is not met, is met, and is not read any more. -/
theorem witness_BinderAndReeveEvents_dependence :
    let d : Dword × Word := (65792, 5)
    let waits : State := { unit 0 with
      grids := [(10, { Grid.empty with job := 1, record := { placedRec with deps := [d] }, declared := true })], waiting := [(0, [10])] }
    (Tbl.find waits.grids 10).isSome = true ∧ (waits.grid 10).met = false ∧ (waits.grid 10).record.deps[0]? = some d ∧
      waits.depMet 1 d = false ∧ ({ waits with mem := Memory.write waits.mem 256 4 5 } : State).depMet 1 d = true ∧
      waits.cranges = [] ∧ waits.dieReset = none ∧ (placing.grid 10).met = true := by decide
/-- A grid whose blocks are all gone, and one with a block. -/
theorem witness_BinderAndReeveEvents_grid :
    let s := { placing with grids := Tbl.put [] 10 { placing.grid 10 with next := 1 } }
    (Tbl.find s.grids 10).isSome = true ∧ (s.grid 10).isTask = false ∧ (s.grid 10).ended = false ∧
      (s.grid 10).next = (s.grid 10).record.stooks ∧ s.blocksOf 10 = [] ∧ (s.grid 10).parent = none ∧ (s.grid 10).cont = 0 ∧
      (s.grid 10).record.caddr = 0 ∧ (s.grid 10).done = false ∧ s.dieReset = none ∧ s.commAt 1 0 = none ∧
      (unit 0).gridEnded ((unit 0).blk 2).grid = false ∧ ((unit 0).blocksOf ((unit 0).blk 2).grid) = [2] ∧
      ((unit 0).grid ((unit 0).blk 2).grid).isTask = false := by decide
theorem witness_BinderAndReeveEvents_cancel : (halting (unit 0)).MayEnd ((unit 0).blk 2).grid := mayEnd_of (by decide)
theorem witness_BinderAndReeveEvents_notice :
    let s := { spawned 0 with remoteSubs := [(taskTwo, 9, 1)] }
    let far := chipBase 1 1 / 128 + 9
    (∃ x ∈ { s with remoteSubs := [(taskTwo, far, 1)] }.remoteSubs, x.1 = taskTwo ∧ x.2.1 = far) ∧
      isRemote (128 * far) = true ∧ s.tagJob 1 = some 1 ∧ (s.job? 1).map (fun j => (j.spec.jtag, j.sw)) = some (1, .running) ∧
      ((s.setJob 1 { Job.fresh ⟨1, 1, 0, 0, 0, [], 1, 0, 0⟩ with sw := .out }).job? 1).map (fun j => j.sw) = some .out ∧
      s.tState taskTwo ≠ 2 ∧ s.tState taskTwo ≠ 3 ∧
      (∀ x ∈ s.remoteSubs, x.1 ≠ taskTwo ∨ x.2.1 ≠ far) ∧ s.dieReset = none ∧ s.fabric.inward = [] ∧
      (let q : Packet :=
         { dst := 0, src := 1, jtag := 1, kind := 0, rlx := false, grade := 0, addr := 65792, bytes := [(65792, 1)],
           redOp := 0, redFmt := .b32, threads := [], acc := 0, task := 0 }
       q.jtag = 1 ∧ q.src = chipOf (128 * far) ∧ q.dst = s.chip 1 ∧ q.posted = true) :=
  ⟨⟨_, List.mem_singleton.mpr rfl, rfl, rfl⟩, by decide⟩
/-- An epoch that is over, with migration on and off, in which one die wrote 64 and 512 lines of one home unit. -/
theorem witness_BinderAndReeveEvents_epoch :
    let w : Tbl (List Nat) := [(1, List.range 64), (2, List.range 512)]
    let s : State := { unit 0 with time := 100000, epoch := [(0, w)] }
    s.epochAt + 100000 ≤ s.time ∧ ¬ (unit 0).epochAt + 100000 ≤ (unit 0).time ∧ s.migr.getLsbD 0 = false ∧
      ({ s with migr := 1 } : State).migr.getLsbD 0 = true ∧ Tbl.find s.moves 0 = none ∧ writtenBy w 1 = 64 ∧
      writtenBy w 2 = 512 ∧ (∀ d, d < 4 → writtenBy w d ≤ 512) ∧ s.running 1 = true ∧ s.running 2 = true ∧
      writtenBy [] 3 = 0 := by decide

/-! ### Management, the fabric and the module -/

theorem witness_ManagementEvents_leases :
    (∃ s : State, 4096 * (s.core 0).windows ≤ s.clk 0) ∧
      (let s := (unit 0).modCore 0 fun c => { c with windows := 1, winHits := 1, winMisses := 7, admitted := [9, 3] }
       ¬ 4096 * (s.core 0).windows ≤ s.clk 0) ∧
      (let s := { ((unit 0).modCore 0 fun c => { c with windows := 1, winHits := 1, winMisses := 7, admitted := [9, 3] }) with
         time := 1000 }
       (s.core 0).windows ≠ 0 ∧ 4096 * ((s.core 0).windows - 1) + 256 * ((s.core 0).checks + 1) ≤ s.clk 0 ∧
         (s.core 0).winMisses < 8 * (s.core 0).winHits ∧ (s.core 0).admitted = [9] ++ [3]) :=
  ⟨⟨unit 0, by decide⟩, by decide, by decide⟩
theorem mayPark_of {s : State} {k : Nat}
    (h : (s.stk k).members ≠ [] ∧ ∀ b ∈ (s.stk k).members, (s.blk b).resident = true ∧
      (s.blk b).stop = false ∧ (s.blk b).parkReq = none ∧ (∀ c ∈ s.copies, c.gid ∉ (s.blk b).gids) ∧
      ∀ h ∈ (s.blk b).gids, (s.grp h).out = [] ∧ ((s.grp h).clause = none ∨ (s.grp h).heldAt = true) ∧
        ((s.grp h).slice.st ≠ .running ∨ (s.grp h).slice.clause = none ∨ (s.grp h).slice.held = true))
    (r : s.framesHeld (s.stk k).members = false) : s.MayPark k :=
  ⟨h.1, fun b hb => ⟨(h.2 b hb).1, (h.2 b hb).2.1, (h.2 b hb).2.2.1⟩, fun b hb => (h.2 b hb).2.2.2.2,
    fun b hb => (h.2 b hb).2.2.2.1, r⟩
/-- The group alone holds at an instruction whose wait the parking clock counts, and the clock has passed 20 µs. -/
def held : State := ((unit 0).modGrp 3 fun g => { g with heldAt := true, heldRow := some (.row 3) }).modStk 1 fun k => { k with clock := 20000 }

/-- The same device with root and field firmware running. -/
def ruled : State := { held with root := { held.root with booted := true, fieldImg := some ⟨false, true, true, 0, 1⟩ } }

theorem witness_ManagementEvents_parking :
    held.MayPark 1 ∧ 1000 * held.parkth.toNat ≤ (held.stk 1).clock ∧ held.clockRuns 1 = true ∧
      (unit 0).clockRuns 1 = false ∧
      ((∀ b ∈ held.blocks, b.2.resident = true → b.2.job = 1 → b.2.stook = 1) ∧
        ∃ b ∈ held.blocks, b.2.resident = true ∧ b.2.job = 1) ∧
      (unit 0).gridNumbered 0 = some ((unit 0).blk 2).grid ∧
      (∀ b ∈ (unit 0).blocks, ¬ (b.2.resident = true ∧ b.2.job = 9)) ∧ ruled.MayPark 1 ∧ ruled.root.runs .field = true ∧
      (unit 0).root.runs .field = false :=
  ⟨mayPark_of (by decide) (by decide), by decide, by decide, by decide, ⟨by decide, by decide⟩, by decide, by decide,
    mayPark_of (by decide) (by decide), by decide, by decide⟩

/-- A fault entry, waiting for its queue or in it. -/
def fqEntry : FqEntry := ⟨0, 65792, 65544, 1, 0x18, 1, 0, 0, 2, 3, 5, 0, .own⟩
def faulting : State := (unit 0).setDie 0 { Die.zero with fqWait := [fqEntry] }
def inQueue : State := (unit 0).setDie 0 { Die.zero with fq := [(0, fqEntry)], fqTail := 1 }

theorem witness_ManagementEvents_faults :
    (faulting.die 0).fqWait = [fqEntry] ∧ (faulting.die 0).fqRoom = true ∧ ((unit 0).die 0).fqWait = [] ∧
      Tbl.find (inQueue.die 0).fq 0 = some fqEntry ∧ Tbl.find (inQueue.die 0).fq 1 = none ∧
      (Tbl.find inQueue.blocks fqEntry.blk).isSome = true ∧ fqEntry.copy = 0 ∧ fqEntry.kind ≠ 8 ∧ fqEntry.halt ≠ .other := by
  decide

theorem witness_ManagementEvents_append :
    let a := (faulting.die 0).fqBase.toNat + 32 * (faulting.die 0).fqTail
    faulting.unitHeld a = false ∧ faulting.cranges = [] ∧
      ({ faulting with dieReset := some ⟨owner 0, 4, [], [], []⟩ } : State).unitHeld a = true := by
  refine ⟨by decide, rfl, ?_⟩
  simp only [State.unitHeld, isLocal]
  exact Bool.and_eq_true_iff.mpr ⟨rfl, by simp; rfl⟩

/-- The block parked by `park` with a timer that has run out, and with nothing that it awaits. -/
def parked : State :=
  let f : Frame := ⟨0, 0, 2, 0, 0, 0, false, false, 0, 0⟩
  (unit 0).modBlk 2 fun k => { k with resident := false, frame := some f }

theorem witness_ManagementEvents_frames :
    (parked.stk 1).members = [2] ∧ parked.pendOf 2 = 0 ∧ (parked.blk 2).frame.isSome = true ∧
      ((parked.blk 2).frame.all fun f => f.reason == 2 && decide (f.timer ≤ parked.time)) = true ∧
      parked.blockMet 2 = false := by decide
/-- The watchdog of one millisecond is past; a run queue more or less; a doorbell for one record. -/
theorem witness_ManagementEvents_rest :
    ({ (unit 0).root with booted := true } : Root).booted = true ∧ (unit 0).root.booted = false ∧ (unit 0).root.fieldImg = none ∧
      ({ (unit 0).root with fieldImg := some ⟨false, true, true, 0, 1⟩ } : Root).fieldImg ≠ none ∧
      (let s := { (unit 0).modBlk 2 fun k => { k with wdog := 1000001 } with wdog := 1 }
     s.wdog ≠ 0 ∧ 1000000 * s.wdog.toNat < (s.blk 2).wdog ∧ s.blkTask 2 = none) ∧
      (7 ∉ (unit 0).runqs ∧ (unit 0).runqs.length < 64) ∧
      (let s := (unit 0).setLq 0 { base := 0, size := 65536, job := 1, head := 2 ^ 32 - 1, tail := 2 ^ 32 - 1 }
       (s.lq 0).head < 2 ^ 32 ∧ 0 = ((s.lq 0).head + 1) % 2 ^ 32 ∧ 1 ≤ (s.lq 0).size ∧ (s.lq 0).size ≤ 65536 ∧
         (s.lq 0).job ≠ 0xFFFFFFFF ∧ (s.lq 0).size < (65536 + 2 ^ 32 - (s.lq 0).head) % 2 ^ 32 ∧
         s.cranges = [] ∧ s.unitHeld 0 = false) ∧ (7 ∉ ruled.runqs ∧ ruled.runqs.length < 64) := by decide

/-- A write packet of two bytes for chip 0's job 1, at the page's byte 256. -/
def packet (jtag : Nat) : Packet :=
  { dst := 0, src := 5, jtag := jtag, kind := 0, rlx := false, grade := 0, addr := 65792, bytes := [(65792, 1), (65793, 2)],
    redOp := 0, redFmt := .b32, threads := [], acc := 0, task := 0 }
/-- It has arrived, its job in a state of its switch. -/
def arriving (sw : SwitchSt) : State :=
  let s := (unit 0).setJob 1 { Job.fresh ⟨1, 1, 0, 0, 0, [], 1, 0, 0⟩ with sw := sw }
  { s with fabric := { s.fabric with inward := [packet 1, packet 9], outward := [packet 1] } }

theorem witness_FabricEvents_packets :
    (∀ sw ∈ [SwitchSt.running, .halted, .out], (arriving sw).fabric.inward[0]? = some (packet 1) ∧
      (arriving sw).fabric.inward[2]? = none ∧ (arriving sw).job? 9 = none ∧
      ((arriving sw).job? 1).map (fun j => j.sw) = some sw) ∧
      (∀ sw ∈ [SwitchSt.running, .halted, .out], (arriving sw).tagJob 1 = some 1 ∧ (arriving sw).tagJob 9 = none) ∧
      mayPass (packet 9) (packet 1) = true ∧ Tbl.rising (packet 1).bytes = true ∧ (packet 1).kind.toNat ≤ 1 ∧
      mayPass (packet 1) { packet 1 with kind := 8 } = true ∧ mayPass { packet 1 with kind := 0 } (packet 1) = false ∧
      knownKind (packet 1).kind = true ∧ knownKind 5 = false ∧ (arriving .running).commAt 1 65792 = none ∧
      (arriving .running).jobOfPacket (packet 1) = 1 ∧ (arriving .out).jobIn 1 .out = true ∧
      (arriving .running).jobIn 1 .out = false ∧
      (∀ b ∈ (packet 1).bytes, ∀ c ∈ (packet 1).bytes,
        (arriving .running).homeLoc 1 b.1 = (arriving .running).homeLoc 1 c.1 → b = c) := by decide
/-- The packet's home, which no reset holds, and which the reset of its owning die holds from its fourth step on. -/
theorem witness_FabricEvents_held :
    (arriving .running).inwardHeld (packet 1) = false ∧
      ({ arriving .running with dieReset := some ⟨owner 0, 4, [], [], []⟩ } : State).inwardHeld (packet 1) = true := by
  refine ⟨by decide, ?_⟩
  have p : ({ arriving .running with dieReset := some ⟨owner 0, 4, [], [], []⟩ } : State).homeLoc
      (({ arriving .running with dieReset := some ⟨owner 0, 4, [], [], []⟩ } : State).jobOfPacket (packet 1))
      (packet 1).addr.toNat = some 256 := by decide
  have q : ({ arriving .running with dieReset := some ⟨owner 0, 4, [], [], []⟩ } : State).jobIn
      (({ arriving .running with dieReset := some ⟨owner 0, 4, [], [], []⟩ } : State).jobOfPacket (packet 1)) .out = false := by decide
  simp only [State.inwardHeld, State.homeHeld, p, q]
  simp [State.unitHeld, isLocal]
/-- A packet of a job that is switched out: its place in the sweep store, not held and held. -/
theorem witness_FabricEvents_sweepHeld :
    (arriving .out).inwardHeld (packet 1) = false ∧
      ({ arriving .out with dieReset := some ⟨owner 0, 4, [], [], []⟩ } : State).inwardHeld (packet 1) = true := by
  let s : State := { arriving .out with dieReset := some ⟨owner 0, 4, [], [], []⟩ }
  refine ⟨by decide, show s.inwardHeld (packet 1) = true from ?_⟩
  have q : s.jobOfPacket (packet 1) = 1 := by decide
  have o : s.jobIn 1 .out = true := by decide
  have t : (s.tagJob (packet 1).jtag).isSome = true := by decide
  have z : (s.job? 1).map (fun j => (j.overflowBase, zoneBytes j.overflow)) = some (0, 0) := by decide
  obtain ⟨j, h, k⟩ := Option.map_eq_some_iff.mp z
  obtain ⟨kb, kz⟩ := Prod.mk.inj k
  simp only [State.inwardHeld, q, o, h, t, kb, kz, if_true, Bool.true_and]
  simp [s, State.spanHeld, State.unitHeld, isLocal]
  exact ⟨rfl, by decide, 0, by decide, by decide, rfl⟩
/-- An open entry that is young, and one of 2 µs. -/
theorem witness_FabricEvents_entries :
    let e : WcbEntry := ⟨1, 3, 0, [(0, 1)], false, [3], 0⟩
    let s := (unit 0).modCore 0 fun c => { c with wcb := [e] }
    (s.core 0).wcb[0]? = some e ∧ (s.core 0).wcb[1]? = none ∧ s.time < e.opened + 250 * s.fabric.wcbAge ∧
      e.opened + 250 * s.fabric.wcbAge ≤ ({ s with time := 2000 } : State).time := by decide
/-- A route update that waits for its old colour, one whose old colour is gone, with and without a further update due; a
link that keeps its channels, and one that loses some. -/
theorem witness_FabricEvents_routes :
    (let s := arriving .running
     s.fabric.retiring = false ∧ (packet 1).colour = s.fabric.colour) ∧
      (∀ due ∈ [true, false], let s : State := { arriving .running with
          fabric := { (arriving .running).fabric with retiring := true, updateDue := due } }
       s.fabric.retiring = true ∧ s.fabric.updateDue = due ∧ ∀ p ∈ s.fabric.outward, p.colour = s.fabric.colour) ∧
      (∃ p ∈ ({ (arriving .running).fabric with colour := true } : Fabric).outward, p.colour ≠ true) ∧
      (let old := (Tbl.find (arriving .running).fabric.links 0).getD 8
       ((8 ≤ min old 9 ↔ 8 ≤ old) ∧ (4 ≤ min old 9 ↔ 4 ≤ old)) ∧ ¬ (8 ≤ min old 5 ↔ 8 ≤ old)) := by decide
/-- A job at each point of a switch. -/
theorem witness_FabricEvents_switch :
    (let j := Job.fresh ⟨1, 1, 0, 0, 0, [], 1, 0, 0⟩
     j.spec.panel = 0 ∧ (unit 0).time + 2000 ≤ 2000 ∧ j.outStamp = none ∧ j.inStamp = none ∧ (unit 0).dieReset = none ∧
       ¬ (unit 0).time + 2000 ≤ 1999 ∧ j.sealedRecs = [] ∧ j.overflow = [] ∧ j.dropPending = false ∧ j.ready = []) ∧
      (let s := held.setJob 1 { Job.fresh ⟨1, 1, 0, 0, 0, [], 1, 0, 0⟩ with sw := .halted }
       s.jobHalted 1 = true ∧ s.fabric.inward = [] ∧ s.gstores = [] ∧ s.jobStooks 1 = [1] ∧
         ∀ b ∈ s.blocks, b.2.job = 1 → b.2.resident = true → b.1 ∈ (s.stk 1).members) ∧
      (let f : Frame := ⟨0, 0, 4, 0, 0, 0, false, false, 5, 0⟩
       let s := (unit 0).modBlk 2 fun k => { k with resident := false, frame := some f }
       (s.blk 2).job = 1 ∧ (Tbl.find s.blocks 2).isSome = true ∧ (s.blk 2).frame = some f ∧ f.hold = 5 ∧ s.pendOf 2 = 0 ∧
         (s.stk (s.blk 2).stook).members = [2] ∧ 4 ≤ f.reason) ∧
      ({ Job.fresh ⟨1, 1, 0, 0, 0, [], 1, 0, 0⟩ with outStamp := some 0 } : Job).outStamp = some 0 ∧ 0 ≤ (unit 0).time ∧
      (∀ g ∈ (unit 0).groups, (unit 0).jobOf g.1 = 1 → ∀ a ∈ g.2.out, a.st ≠ .kept) ∧
      (exited true).jobStooks 9 = [] ∧ (arriving .halted).jobHalted 1 = false ∧
      packetRoom (packet 1) ≤ 4 * 2 ^ 20 := by decide

def rootImage : FwImage := ⟨true, true, true, 0, 1⟩
/-- A device whose die 0 is at a step of a warm reset, with nothing resident. -/
def resetting (n : Nat) : State := { State.reset with dieReset := some ⟨0, n, [], [], []⟩ }

theorem witness_ModuleEvents :
    (State.reset.dieReset = none ∧ State.reset.jobs = [] ∧ (∀ b ∈ State.reset.blocks, b.2.core / 64 ≠ 3)) ∧
      (∀ n ∈ [1, 2, 3, 4, 5], (resetting n).dieReset = some ⟨0, n, [], [], []⟩ ∧ (resetting n).blocks = []) ∧
      (∃ b ∈ (unit 0).blocks, b.2.resident = true ∧ b.2.core / 64 = 0) ∧
      (rootImage.rsaOk = true ∧ rootImage.slhOk = true ∧ State.reset.root.fuses ≤ rootImage.keyVersion ∧
        rootImage.root = true) ∧
      (({ State.reset.root with booted := true } : Root).booted = true ∧ State.reset.job? 5 = none) ∧
      State.reset.root.booted = false ∧
      (∃ j ∈ (arriving .halted).jobs, j.2.sw = .halted) ∧
      (∀ n ∈ [1, 2, 3, 4, 5], (resetting n).moves = []) ∧
      (∀ j ∈ (exited true).grids, j.2.job ≠ 9) ∧ State.reset.cranges = [] ∧ State.reset.binderHeld = false ∧ (unit 0).job? 1 ≠ none ∧ Config.hbmBytes < Config.hbmBytes + 1 ∧
      0 + 128 ≤ Config.hbmBytes := by decide

/-- A span of the module's memory that no reset holds, and the same while its die is at step 4. -/
theorem witness_ModuleEvents_span :
    (unit 0).spanHeld 0 128 = false ∧ ({ unit 0 with dieReset := some ⟨owner 0, 4, [], [], []⟩ } : State).spanHeld 0 128 = true := by
  refine ⟨by decide, ?_⟩
  simp only [State.spanHeld, State.unitHeld, isLocal]
  refine Bool.and_eq_true_iff.mpr ⟨rfl, List.any_eq_true.mpr ⟨0, by decide, ?_⟩⟩
  simp

/-- A job that ends, with no grid of its own, as the next action of the schedule; and one with a grid that has not ended. -/
theorem witness_ModuleEvents_jobEnd :
    (let s : State := { (unit 0).setJob 9 (Job.fresh ⟨9, 1, 0, 0, 0, [], 9, 0, 0⟩) with schedule := [.event (.jobEnd 9)] }
     s.schedule = .event (.jobEnd 9) :: [] ∧ s.job? 9 ≠ none ∧ (∀ g ∈ s.grids, g.2.job ≠ 9) ∧ s.stops = [] ∧ s.todoHeld = [] ∧
       s.binderHeld = false ∧ (∀ r ∈ s.tasks, r.id.job ≠ 9) ∧
       (∀ b ∈ s.blocks, b.2.parkReq = none) ∧ ∀ j ∈ s.jobs, j.2.ending = false) ∧
      (let f : Frame := ⟨0, 0, 6, 0, 0, 0, false, false, 6, 0⟩
       let s := (resetting 4).setBlk 2 { (unit 0).blk 2 with resident := false, frame := some f }
       (Tbl.find s.blocks 2).isSome = true ∧ (s.blk 2).frame = some f ∧ f.hold = 6 ∧ (s.blk 2).core / 64 = 0) := by decide

/-! ### Encoding, stepping and the invariant -/

theorem witness_EncodeDecodeRoundTrip :
    (Instr.iadd ⟨.v 4, .q 0, .v 2, false, 0⟩).wf = true ∧
      encode (.iadd ⟨.v 4, .q 0, .v 2, false, 0⟩) = some (.alu, false, 0x0001208008000000) ∧
      decodeWord .alu false 0x0001208008000000 = .ok (.iadd ⟨.v 4, .q 0, .v 2, false, 0⟩) := ⟨by decide, by decide, rfl⟩

/-- The first word of a clause of each kind: a lane's, a slice's and a stream's. -/
theorem witness_StepRunsDecodedWord :
    (let s := unit (0x1208008000000 * 2 ^ 64)
     s.schedule = [] ∧ s.issuer = .lane 3 ∧ (s.grp 3).heldAt = false ∧ (s.grp 3).clause.isSome = true ∧
       s.stopped 3 = false ∧ s.cancelledOf 3 = none ∧ (s.grp 3).resumed = false ∧
       s.fetchHeld (s.coreOf 3) (s.jobOf 3) 65544 = false ∧ s.outsideJob (s.jobOf 3) 8 = false ∧
       s.fetch (s.coreOf 3) (s.jobOf 3) 65544 = (.ok 8, 0x1208008000000) ∧
       ((s.grp 3).clause.map fun c => (c.pc, (Header.unpack c.head).wordClass c.idx)) = some (65544, some .alu) ∧
       ((s.grp 3).clause.map fun c => c.earlyBad 0x1208008000000) = some false) ∧
      (shadow.schedule = [] ∧ shadow.sliceRuns 3 = true ∧
        ((shadow.grp 3).slice.clause.map fun c => c.pc) = some 65544 ∧
        shadow.fetchHeld (shadow.coreOf 3) (shadow.jobOf 3) 65544 = false ∧ shadow.outsideJob (shadow.jobOf 3) 8 = false) ∧
      (streamed.schedule = [] ∧ streamed.issuer = .stream 0 ∧ streamed.streamRuns 0 = true ∧
        ((streamed.thr 0).clause.map fun c => c.pc) = some 65544 ∧
        streamed.fetchHeld 0 1 65544 = false ∧ streamed.outsideJob 1 8 = false) ∧
      streamed.fetch 0 1 65544 = (.ok 8, 0x1A00000000000000) ∧ decodeWord .table false 0x1A00000000000000 = .ok .tend ∧
      Instr.isEvent .routeTableUpdate = true :=
  ⟨by decide, by decide, by decide, by decide, rfl, by decide⟩

theorem witness_StepKeepsInvariant : State.reset.Inv :=
  ⟨by decide, fun _ => rfl⟩

end Sys2Proof.Tests
end

section
/-!
PROOFS. The integer, shift, logic and bit-field instructions (R85 to R89): what each value function of the model gives,
against the arithmetic or the bits the manual states. `computes1`, `computes2` and `computes3` carry the frame.
-/
namespace Sys2Proof.Machine

/-! ### Arithmetic (R85) -/

theorem ofInt_neg_toNat (a : Word) : BitVec.ofInt 32 (-(a.toNat : Int)) = -a := by
  rw [BitVec.ofInt_neg, BitVec.ofInt_natCast, BitVec.ofNat_toNat, BitVec.setWidth_eq]

theorem ofInt_toNat_sub (a b : Word) : BitVec.ofInt 32 ((a.toNat : Int) - b.toNat) = a - b := by
  rw [sub_eq_add_neg, BitVec.ofInt_add, ofInt_neg_toNat, BitVec.ofInt_natCast, BitVec.ofNat_toNat, BitVec.setWidth_eq,
    BitVec.sub_eq_add_neg]

theorem ofNat_toNat_mul (a b : Word) : BitVec.ofNat 32 (a.toNat * b.toNat) = a * b := by
  simp only [BitVec.ofNat_mul, BitVec.ofNat_toNat, BitVec.setWidth_eq]

theorem ofNat_toNat_mul_add (a b c : Word) : BitVec.ofNat 32 (a.toNat * b.toNat + c.toNat) = a * b + c := by
  rw [BitVec.ofNat_add, ofNat_toNat_mul, BitVec.ofNat_toNat, BitVec.setWidth_eq]

theorem iminVal_signed (a b : Word) : BitVec.ofInt 32 (min a.toInt b.toInt) = iminVal true a b := by
  unfold iminVal
  by_cases h : a.toInt < b.toInt
  · simp [BitVec.slt, h, min_eq_left h.le]
  · simp [BitVec.slt, h, min_eq_right (not_lt.mp h)]

theorem iminVal_unsigned (a b : Word) : BitVec.ofNat 32 (min a.toNat b.toNat) = iminVal false a b := by
  unfold iminVal
  by_cases h : a.toNat < b.toNat
  · simp [BitVec.ult, h, min_eq_left h.le]
  · simp [BitVec.ult, h, min_eq_right (not_lt.mp h)]

theorem imaxVal_signed (a b : Word) : BitVec.ofInt 32 (max a.toInt b.toInt) = imaxVal true a b := by
  unfold imaxVal
  by_cases h : a.toInt < b.toInt
  · simp [BitVec.slt, h, max_eq_right h.le]
  · simp [BitVec.slt, h, max_eq_left (not_lt.mp h)]

theorem imaxVal_unsigned (a b : Word) : BitVec.ofNat 32 (max a.toNat b.toNat) = imaxVal false a b := by
  unfold imaxVal
  by_cases h : a.toNat < b.toNat
  · simp [BitVec.ult, h, max_eq_right h.le]
  · simp [BitVec.ult, h, max_eq_left (not_lt.mp h)]

/-! ### Shifts (R86) -/

theorem shlVal_eq (a b : Word) :
    (if 32 ≤ b.toNat then 0 else BitVec.ofNat 32 (a.toNat * 2 ^ b.toNat)) = shlVal a b := by
  unfold shlVal
  split
  · rfl
  · exact BitVec.eq_of_toNat_eq (by simp [Nat.shiftLeft_eq])

theorem shrVal_signed (a b : Word) : BitVec.ofInt 32 (a.toInt / 2 ^ min b.toNat 31) = shrVal true a b := by
  show _ = BitVec.ofInt 32 (a.toInt >>> min b.toNat 31)
  rw [Int.shiftRight_eq_div_pow]
  norm_cast

theorem shrVal_unsigned (a b : Word) :
    (if 32 ≤ b.toNat then 0 else BitVec.ofNat 32 (a.toNat / 2 ^ b.toNat)) = shrVal false a b := by
  show _ = if 32 ≤ b.toNat then 0 else a >>> b.toNat
  split
  · rfl
  · refine BitVec.eq_of_toNat_eq ?_
    rw [BitVec.toNat_ushiftRight, Nat.shiftRight_eq_div_pow, BitVec.toNat_ofNat]
    exact Nat.mod_eq_of_lt ((Nat.div_le_self _ _).trans_lt a.isLt)

/-- The bits a rotation by `n` brings round lie below bit `n`, so its two parts add without a carry. -/
theorem ofNat_rotated (a : Word) {n : Nat} (hn : n < 32) :
    BitVec.ofNat 32 (a.toNat * 2 ^ n + a.toNat / 2 ^ (32 - n)) = a.rotateLeft n := by
  have hlow : a.toNat / 2 ^ (32 - n) < 2 ^ n := by
    rw [Nat.div_lt_iff_lt_mul (Nat.two_pow_pos _), ← Nat.pow_add, Nat.add_sub_cancel' hn.le]
    exact a.isLt
  have hsmall : a.toNat / 2 ^ (32 - n) < 2 ^ 32 := (Nat.div_le_self _ _).trans_lt a.isLt
  refine BitVec.eq_of_toNat_eq ?_
  rw [BitVec.toNat_rotateLeft, Nat.mod_eq_of_lt hn, BitVec.toNat_ofNat, ← Nat.shiftLeft_eq,
    Nat.shiftLeft_add_eq_or_of_lt hlow, Nat.or_mod_two_pow, Nat.mod_eq_of_lt hsmall, Nat.shiftRight_eq_div_pow]

theorem rotVal_eq (a b : Word) :
    BitVec.ofNat 32 (a.toNat * 2 ^ (b.toNat % 32) + a.toNat / 2 ^ (32 - b.toNat % 32)) = rotVal a b :=
  ofNat_rotated a (Nat.mod_lt _ (by decide))

theorem toNat_append_words (a b : Word) : (a ++ b : Dword).toNat = a.toNat * 2 ^ 32 + b.toNat := by
  rw [BitVec.toNat_append, ← Nat.shiftLeft_add_eq_or_of_lt b.isLt, Nat.shiftLeft_eq]

theorem fshVal_left (a b c : Word) :
    BitVec.ofNat 32 ((a.toNat * 2 ^ 32 + b.toNat) * 2 ^ (c.toNat % 64) % 2 ^ 64 / 2 ^ 32) = fshVal true a b c := by
  refine BitVec.eq_of_toNat_eq ?_
  simp [fshVal, highWord, Nat.shiftLeft_eq, Nat.shiftRight_eq_div_pow, toNat_append_words]

theorem fshVal_right (a b c : Word) :
    BitVec.ofNat 32 ((a.toNat * 2 ^ 32 + b.toNat) / 2 ^ (c.toNat % 64)) = fshVal false a b c := by
  refine BitVec.eq_of_toNat_eq ?_
  simp [fshVal, lowWord, Nat.shiftRight_eq_div_pow, toNat_append_words]

/-! ### Logic (R87) -/

theorem bitsOf_and (a b : Word) : (bitsOf 32 fun i => a.getLsbD i && b.getLsbD i) = a &&& b :=
  (eq_bitsOf fun _ _ => BitVec.getLsbD_and).symm

theorem bitsOf_or (a b : Word) : (bitsOf 32 fun i => a.getLsbD i || b.getLsbD i) = a ||| b :=
  (eq_bitsOf fun _ _ => BitVec.getLsbD_or).symm

theorem bitsOf_xor (a b : Word) : (bitsOf 32 fun i => a.getLsbD i != b.getLsbD i) = a ^^^ b :=
  (eq_bitsOf fun _ _ => BitVec.getLsbD_xor).symm

theorem bitsOf_not (a : Word) : (bitsOf 32 fun i => !a.getLsbD i) = ~~~a :=
  (eq_bitsOf fun i hi => by simp [hi]).symm

theorem bitsOf_andn (a b : Word) : (bitsOf 32 fun i => a.getLsbD i && !b.getLsbD i) = a &&& ~~~b :=
  (eq_bitsOf fun i hi => by simp [hi]).symm

/-- A word put together bit by bit from a sum of powers of two. -/
theorem bitsOf_eq_ofNat_sum (f : Nat → Bool) :
    bitsOf 32 f = BitVec.ofNat 32 ((List.range 32).foldl (fun r i => r + (f i).toNat * 2 ^ i) 0) :=
  (eq_bitsOf fun i hi => by rw [getLsbD_ofNat_sum_bits]; simp [hi]).symm

/-! ### Counting bits (R88) -/

theorem popcVal_eq (a : Word) : BitVec.ofNat 32 ((List.range 32).countP fun i => a.getLsbD i) = popcVal a := by
  unfold popcVal
  rw [List.countP_eq_length_filter]

theorem find?_range_eq_of_first {n k : Nat} {p : Nat → Bool} (hk : k < n) (hp : p k = true)
    (hfirst : ∀ j, j < k → p j = false) : (List.range n).find? p = some k :=
  List.find?_range_eq_some.mpr ⟨hp, List.mem_range.mpr hk, fun j hj => by simp [hfirst j hj]⟩

/-- The highest set bit of a word that is not 0 is bit `Nat.log2`. -/
theorem find?_highest_bit {a : Word} (ha : a ≠ 0) :
    (List.range 32).find? (fun i => a.getLsbD (31 - i)) = some (31 - Nat.log2 a.toNat) := by
  have h0 : a.toNat ≠ 0 := fun h => ha (BitVec.eq_of_toNat_eq h)
  have hlog : Nat.log2 a.toNat < 32 := (Nat.log2_lt h0).mpr a.isLt
  refine find?_range_eq_of_first (by omega) ?_ fun j hj => ?_
  · rw [Nat.sub_sub_self (by omega)]
    exact Nat.testBit_log2 h0
  · exact Nat.testBit_lt_two_pow ((Nat.log2_lt h0).mp (by omega))

theorem clzVal_eq (a : Word) : (if a = 0 then 32 else BitVec.ofNat 32 (31 - Nat.log2 a.toNat)) = clzVal a := by
  by_cases ha : a = 0
  · subst ha; decide
  · rw [if_neg ha, clzVal, find?_highest_bit ha]; rfl

/-- Counting the places up to which `p` fails throughout finds the first place where it holds. -/
theorem countP_range_before_first {p q : Nat → Bool} (hq : ∀ i, q i = true ↔ ∀ j, j ≤ i → p j = false) (n : Nat) :
    (List.range n).countP q = ((List.range n).find? p).getD n := by
  induction n with
  | zero => rfl
  | succ n ih =>
    rw [List.range_succ, List.countP_append, ih, List.find?_append, List.countP_singleton, List.find?_singleton]
    cases hf : (List.range n).find? p with
    | some k =>
      obtain ⟨hp, hk, -⟩ := List.find?_range_eq_some.mp hf
      have hqn : q n ≠ true := fun h => by
        rw [(hq n).mp h k (List.mem_range.mp hk).le] at hp; cases hp
      simp [hqn]
    | none =>
      have hnone : ∀ j, j < n → p j = false := fun j hj => by
        simpa using List.find?_eq_none.mp hf j (List.mem_range.mpr hj)
      cases hpn : p n with
      | true =>
        have hqn : q n ≠ true := fun h => by rw [(hq n).mp h n le_rfl] at hpn; cases hpn
        simp [hqn]
      | false =>
        have hqn : q n = true := (hq n).mpr fun j hj => by
          rcases hj.lt_or_eq with h | rfl
          · exact hnone j h
          · exact hpn
        simp [hqn]

theorem mod_two_pow_succ_eq_zero_iff (x i : Nat) : x % 2 ^ (i + 1) = 0 ↔ ∀ j, j ≤ i → x.testBit j = false := by
  constructor
  · intro h j hj
    have := Nat.testBit_mod_two_pow x (i + 1) j
    simpa [h, Nat.lt_succ_of_le hj] using this.symm
  · intro h
    refine Nat.eq_of_testBit_eq fun j => ?_
    rw [Nat.testBit_mod_two_pow, Nat.zero_testBit]
    by_cases hj : j ≤ i
    · simp [h j hj]
    · simp [show ¬ j < i + 1 by omega]

theorem ctzVal_eq (a : Word) :
    BitVec.ofNat 32 ((List.range 32).countP fun i => a.toNat % 2 ^ (i + 1) == 0) = ctzVal a := by
  unfold ctzVal
  rw [countP_range_before_first fun i => by rw [beq_iff_eq, mod_two_pow_succ_eq_zero_iff]]
  rfl

/-! ### Fields (R88) -/

theorem bfxVal_unsigned (a b : Word) :
    BitVec.ofNat 32 (a.toNat / 2 ^ (b.toNat % 256) % 2 ^ min (b.toNat / 256 % 256) 32) = bfxVal false a b := by
  rw [← BitVec.ofInt_natCast]
  simp [bfxVal, fieldPos, fieldWidth]

theorem bfxVal_signed (a b : Word) :
    (let w := min (b.toNat / 256 % 256) 32
     let f := a.toInt / 2 ^ (b.toNat % 256) % 2 ^ w
     BitVec.ofInt 32 (if 0 < w ∧ 2 ^ (w - 1) ≤ f then f - 2 ^ w else f)) = bfxVal true a b := by
  simp [bfxVal, fieldPos, fieldWidth]

/-- Bit `i` of `w` ones from bit `pos` up. -/
theorem testBit_ones_mul_two_pow (w pos i : Nat) :
    ((2 ^ w - 1) * 2 ^ pos).testBit i = decide (pos ≤ i ∧ i < pos + w) := by
  rw [Nat.testBit_mul_two_pow, Nat.testBit_two_pow_sub_one, Bool.decide_and]
  by_cases h : pos ≤ i
  · simp [h, Nat.sub_lt_iff_lt_add h, Nat.add_comm]
  · simp [h]

theorem bfiVal_eq (a b c : Word) :
    (let pos := c.toNat % 256
     let w := min (c.toNat / 256 % 256) 32
     bitsOf 32 fun i => if pos ≤ i ∧ i < pos + w then a.getLsbD (i - pos) else b.getLsbD i) = bfiVal a b c := by
  refine (eq_bitsOf fun i hi => ?_).symm
  change _ = if fieldPos c ≤ i ∧ i < fieldPos c + fieldWidth c then a.getLsbD (i - fieldPos c) else b.getLsbD i
  simp only [bfiVal, BitVec.getLsbD_or, BitVec.getLsbD_and, BitVec.getLsbD_not, BitVec.getLsbD_ofNat,
    testBit_ones_mul_two_pow, hi, decide_true, Bool.true_and]
  split
  next h =>
    rw [decide_eq_true h, Nat.testBit_mul_two_pow, decide_eq_true h.1]
    simp [BitVec.getLsbD]
  next h => rw [decide_eq_false h]; simp

/-! ### Byte permutation (R89) -/

/-- The number whose first `n` bytes are `f`'s. -/
theorem sum_bytes {f : Nat → Nat} (hf : ∀ j, f j < 256) (n : Nat) :
    ((List.range n).foldl (fun r j => r + f j * 256 ^ j) 0) < 2 ^ (8 * n) ∧
    ∀ i, i < 8 * n →
      ((List.range n).foldl (fun r j => r + f j * 256 ^ j) 0).testBit i = (f (i / 8)).testBit (i % 8) := by
  induction n with
  | zero => simp
  | succ n ih =>
    rw [List.range_succ, List.foldl_append, List.foldl_cons, List.foldl_nil]
    generalize (List.range n).foldl (fun r j => r + f j * 256 ^ j) 0 = x at ih ⊢
    obtain ⟨hlt, hbit⟩ := ih
    have hsum : x + f n * 256 ^ n = 2 ^ (8 * n) * f n + x := by
      rw [Nat.pow_mul, Nat.mul_comm, Nat.add_comm]
    have htop : 2 ^ (8 * n) * (f n + 1) ≤ 2 ^ (8 * n) * 256 := Nat.mul_le_mul_left _ (hf n)
    rw [hsum]
    refine ⟨?_, fun i hi => ?_⟩
    · calc 2 ^ (8 * n) * f n + x < 2 ^ (8 * n) * (f n + 1) := by rw [Nat.mul_succ]; omega
        _ ≤ 2 ^ (8 * n) * 256 := htop
        _ = 2 ^ (8 * (n + 1)) := by rw [Nat.mul_add, Nat.pow_add]
    · rw [Nat.testBit_two_pow_mul_add _ hlt]
      split
      next h => exact hbit i h
      next h => rw [show i / 8 = n by omega, show i % 8 = i - 8 * n by omega]

theorem bpermByte_lt (e : Dword) (nib : Nat) : bpermByte e nib < 256 := by
  unfold bpermByte
  dsimp only
  split
  · split <;> decide
  · exact (e.extractLsb' (8 * (nib % 8)) 8).isLt

/-- A byte of `bperm`'s result is a byte of `e`, or its bit 7 in every place (R89). -/
theorem testBit_bpermByte (e : Dword) (nib : Nat) {k : Nat} (hk : k < 8) :
    (bpermByte e nib).testBit k = if 8 ≤ nib then e.getLsbD (8 * (nib % 8) + 7) else e.getLsbD (8 * (nib % 8) + k) := by
  have hbyte : ∀ j, j < 8 → (e.extractLsb' (8 * (nib % 8)) 8).toNat.testBit j = e.getLsbD (8 * (nib % 8) + j) :=
    fun j hj => (BitVec.getLsbD_extractLsb' ..).trans (by simp [hj])
  have hsign : e.getLsbD (8 * (nib % 8) + 7) = decide (128 ≤ (e.extractLsb' (8 * (nib % 8)) 8).toNat) := by
    rw [← hbyte 7 (by decide)]
    exact (BitVec.msb_eq_getLsbD_last _).symm.trans (BitVec.msb_eq_decide _)
  have hones : (255 : Nat).testBit k = true := by
    rw [show (255 : Nat) = 2 ^ 8 - 1 from rfl, Nat.testBit_two_pow_sub_one, decide_eq_true hk]
  unfold bpermByte
  dsimp only
  rw [hsign]
  split
  · split
    next h => rw [hones, decide_eq_true h]
    next h => rw [Nat.zero_testBit, decide_eq_false h]
  · exact hbyte k hk

theorem bpermVal_eq (a b c : Word) :
    (bitsOf 32 fun i =>
      let nib := c.toNat / 16 ^ (i / 8) % 16
      let byte := 8 * (nib % 8)
      if 8 ≤ nib then (b ++ a : BitVec 64).getLsbD (byte + 7) else (b ++ a : BitVec 64).getLsbD (byte + i % 8)) =
      bpermVal a b c := by
  refine (eq_bitsOf fun i hi => ?_).symm
  unfold bpermVal
  dsimp only
  rw [BitVec.getLsbD_ofNat, decide_eq_true hi, Bool.true_and,
    (sum_bytes (fun j => bpermByte_lt (pairOf a b) (c.toNat / 16 ^ j % 16)) 4).2 i hi]
  exact testBit_bpermByte _ _ (Nat.mod_lt _ (by decide))

end Sys2Proof.Machine

/-! ### The statements -/

namespace Sys2Proof.Proofs

open Sys2Proof.Machine

/-- Settles O1: each value function of R85 is exact arithmetic brought into 32 bits, and `computes1` to `computes3` carry
the destination, its tag and the frame. -/
theorem integerArithmetic : Obligations.IntegerArithmetic :=
  ⟨computes2 (fun _ _ => rfl) fun a b => (BitVec.add_def a b).symm,
   computes2 (fun _ _ => rfl) ofInt_toNat_sub,
   computes3 (fun _ _ => rfl) fun _ _ _ => rfl,
   computes3 (fun _ _ => rfl) fun _ _ _ => rfl,
   computes2 (fun _ _ => rfl) ofNat_toNat_mul,
   computes2 (fun _ _ => rfl) fun _ _ => rfl,
   computes2 (fun _ _ => rfl) fun _ _ => rfl,
   computes3 (fun _ _ => rfl) ofNat_toNat_mul_add,
   computes1 (fun _ _ => rfl) fun _ => rfl,
   computes1 (fun _ _ => rfl) ofInt_neg_toNat,
   computes2 (fun _ _ => rfl) iminVal_signed,
   computes2 (fun _ _ => rfl) iminVal_unsigned,
   computes2 (fun _ _ => rfl) imaxVal_signed,
   computes2 (fun _ _ => rfl) imaxVal_unsigned⟩

/-- Settles O2: the value functions of R86 to R89 give the bits the statement names, each by its own lemma, and
`computes1` to `computes3` carry the destination, its tag and the frame. -/
theorem shiftsLogicAndBitFields : Obligations.ShiftsLogicAndBitFields :=
  ⟨⟨computes2 (fun _ _ => rfl) shlVal_eq,
    computes2 (fun _ _ => rfl) shrVal_signed,
    computes2 (fun _ _ => rfl) shrVal_unsigned,
    computes2 (fun _ _ => rfl) rotVal_eq,
    computes3 (fun _ _ => rfl) fshVal_left,
    computes3 (fun _ _ => rfl) fshVal_right,
    computes2 (fun _ _ => rfl) bitsOf_and,
    computes2 (fun _ _ => rfl) bitsOf_or,
    computes2 (fun _ _ => rfl) bitsOf_xor,
    computes2 (fun _ _ => rfl) bitsOf_andn,
    computes1 (fun _ _ => rfl) bitsOf_not,
    fun _ => computes3 (fun _ _ => rfl) fun _ _ _ => bitsOf_eq_ofNat_sum _⟩,
   computes1 (fun _ _ => rfl) popcVal_eq,
   computes1 (fun _ _ => rfl) clzVal_eq,
   computes1 (fun _ _ => rfl) ctzVal_eq,
   computes1 (fun _ _ => rfl) fun _ => bitsOf_eq_ofNat_sum _,
   computes2 (fun _ _ => rfl) bfxVal_unsigned,
   computes2 (fun _ _ => rfl) bfxVal_signed,
   computes3 (fun _ _ => rfl) bfiVal_eq,
   computes3 (fun _ _ => rfl) bpermVal_eq⟩

end Sys2Proof.Proofs
end

section
/-!
PROOFS. The F32 arithmetic, comparison and class instructions (R108 to R112), and conversion and packed arithmetic (R116 to
R118). A word that is no NaN is its sign and a magnitude of 31 bits, and the real a magnitude stands for grows with it; so the
order of the reals is the order of the bit patterns, but for the two zeros.
-/
namespace Sys2Proof.Machine

/-! ### The sign and the magnitude of an F32 word (R97) -/

/-- The bits of a word below its sign. -/
def f32Mag (w : Word) : Nat := w.toNat % 2 ^ 31

theorem toNat_eq_sign_add_mag (w : Word) : w.toNat = (if w.msb then 2 ^ 31 else 0) + f32Mag w := by
  have hw := w.isLt
  rw [BitVec.msb_eq_decide, f32Mag]
  simp only [decide_eq_true_eq]
  split <;> omega

theorem eq_iff_sign_mag {a b : Word} : a = b ↔ a.msb = b.msb ∧ f32Mag a = f32Mag b := by
  refine ⟨fun h => h ▸ ⟨rfl, rfl⟩, fun ⟨hs, hm⟩ => BitVec.eq_of_toNat_eq ?_⟩
  rw [toNat_eq_sign_add_mag a, toNat_eq_sign_add_mag b, hs, hm]

/-- The fields of a word, read off its sign and magnitude. -/
theorem f32_eq (w : Word) : f32 w =
    if f32Mag w / 2 ^ 23 = 255 then (if f32Mag w % 2 ^ 23 = 0 then .inf w.msb else .nan)
    else if f32Mag w / 2 ^ 23 = 0 then .fin w.msb (f32Mag w % 2 ^ 23) (-149)
    else .fin w.msb (2 ^ 23 + f32Mag w % 2 ^ 23) ((f32Mag w / 2 ^ 23 : Nat) - 150) := by
  have hw := w.isLt
  have hneg : (w.toNat / 2 ^ (23 + 8) % 2 == 1) = w.msb := by
    rw [BitVec.msb_eq_decide, Bool.eq_iff_iff, beq_iff_eq, decide_eq_true_eq]; omega
  have hexp : w.toNat / 2 ^ 23 % 2 ^ 8 = f32Mag w / 2 ^ 23 := by rw [f32Mag]; omega
  have hfrac : w.toNat % 2 ^ 23 = f32Mag w % 2 ^ 23 := by rw [f32Mag]; omega
  have hbias : ∀ e : Int, e - (127 : Nat) - (23 : Nat) = e - 150 := fun e => by omega
  simp only [f32, BFmt.value, BFmt.f32, hneg, hexp, hfrac, hbias, beq_iff_eq]
  rfl

theorem f32_isNan_iff (w : Word) : (f32 w).isNan = true ↔ 255 * 2 ^ 23 < f32Mag w := by
  have hw : f32Mag w < 2 ^ 31 := Nat.mod_lt _ (by decide)
  rw [f32_eq]
  split_ifs <;> simp only [Fpv.isNan, Bool.false_eq_true, false_iff, true_iff] <;> omega

theorem f32_isZero_iff (w : Word) : (f32 w).isZero = true ↔ f32Mag w = 0 := by
  rw [f32_eq]
  split_ifs <;> simp only [Fpv.isZero, Bool.false_eq_true, false_iff, beq_iff_eq] <;> omega

theorem f32Mag_le_of_not_nan {w : Word} (h : (f32 w).isNan = false) : f32Mag w ≤ 255 * 2 ^ 23 := by
  by_contra hlt
  rw [(f32_isNan_iff w).mpr (not_le.mp hlt)] at h
  cases h

theorem f32Key_eq (w : Word) : f32Key w = if w.msb then -(f32Mag w : Int) - 1 else f32Mag w := by
  have h := toNat_eq_sign_add_mag w
  unfold f32Key
  split
  next hs => rw [hs, if_pos rfl] at h; omega
  next hs => rw [if_neg hs] at h; omega

theorem f32Key_inj {a b : Word} : f32Key a = f32Key b ↔ a = b := by
  have ha := a.isLt
  have hb := b.isLt
  rw [← BitVec.toNat_inj]
  simp only [f32Key, BitVec.msb_eq_decide, decide_eq_true_eq]
  split_ifs <;> omega

/-! ### The real a word stands for, in units of the least subnormal -/

/-- The real of a value whose exponent is −149 or more; the infinities lie beyond every finite F32. -/
def Fpv.units : Fpv → Int
  | .nan => 0
  | .inf n => if n then -(2 ^ 300) else 2 ^ 300
  | .fin n m e => if n then -(m * 2 ^ (e + 149).toNat : Nat) else (m * 2 ^ (e + 149).toNat : Nat)

/-- The real a magnitude stands for. -/
def magUnits (k : Nat) : Nat :=
  if k / 2 ^ 23 = 255 then 2 ^ 300
  else if k / 2 ^ 23 = 0 then k % 2 ^ 23
  else (2 ^ 23 + k % 2 ^ 23) * 2 ^ (k / 2 ^ 23 - 1)

theorem units_eq {w : Word} (h : (f32 w).isNan = false) :
    (f32 w).units = if w.msb then -(magUnits (f32Mag w) : Int) else magUnits (f32Mag w) := by
  have hk := f32Mag_le_of_not_nan h
  rw [f32_eq, magUnits]
  by_cases hinf : f32Mag w / 2 ^ 23 = 255
  · rw [if_pos hinf, if_pos (by omega), if_pos hinf, Fpv.units, Nat.cast_pow, Nat.cast_ofNat]
  rw [if_neg hinf, if_neg hinf]
  by_cases hsub : f32Mag w / 2 ^ 23 = 0
  · rw [if_pos hsub, if_pos hsub]
    simp [Fpv.units]
  · have hexp : ((f32Mag w / 2 ^ 23 : Nat) - 150 + 149 : Int).toNat = f32Mag w / 2 ^ 23 - 1 := by omega
    rw [if_neg hsub, if_neg hsub, Fpv.units, hexp]

/-- A magnitude of exponent field `E` lies below the least one of field `E + 1`. -/
theorem magUnits_lt {k : Nat} (hk : k / 2 ^ 23 < 255) : magUnits k < 2 ^ 23 * 2 ^ (k / 2 ^ 23) := by
  have hf : k % 2 ^ 23 < 2 ^ 23 := Nat.mod_lt _ (by decide)
  rw [magUnits, if_neg hk.ne]
  split
  next h0 => rw [h0]; omega
  next h0 =>
    obtain ⟨e, he⟩ := Nat.exists_eq_succ_of_ne_zero h0
    rw [he, Nat.succ_sub_one]
    calc (2 ^ 23 + k % 2 ^ 23) * 2 ^ e < (2 ^ 23 + 2 ^ 23) * 2 ^ e :=
          Nat.mul_lt_mul_of_pos_right (Nat.add_lt_add_left hf _) (Nat.two_pow_pos e)
      _ = 2 ^ 23 * 2 ^ (e + 1) := by ring

/-- The least magnitude of its exponent field. -/
theorem le_magUnits {k e : Nat} (he : k / 2 ^ 23 = e + 1) (hk : k / 2 ^ 23 ≤ 255) : 2 ^ 23 * 2 ^ e ≤ magUnits k := by
  rw [magUnits]
  split
  next h => rw [← Nat.pow_add]; gcongr <;> omega
  next h =>
    rw [if_neg (by omega), he, Nat.add_sub_cancel]
    exact Nat.mul_le_mul_right _ (Nat.le_add_right _ _)

/-- Greater magnitudes stand for greater reals, up to the infinity. -/
theorem magUnits_strictMonoOn : StrictMonoOn magUnits (Set.Iic (255 * 2 ^ 23)) := by
  intro j hj k hk hjk
  rw [Set.mem_Iic] at hj hk
  rcases Nat.lt_or_ge (j / 2 ^ 23) (k / 2 ^ 23) with hlt | hge
  case inl =>
    obtain ⟨e, he⟩ := Nat.exists_eq_succ_of_ne_zero (Nat.ne_zero_of_lt hlt)
    calc magUnits j < 2 ^ 23 * 2 ^ (j / 2 ^ 23) := magUnits_lt (by omega)
      _ ≤ 2 ^ 23 * 2 ^ e := Nat.mul_le_mul_left _ (Nat.pow_le_pow_right (by decide) (by omega))
      _ ≤ magUnits k := le_magUnits he (by omega)
  case inr =>
    have heq : k / 2 ^ 23 = j / 2 ^ 23 := by omega
    have hfrac : j % 2 ^ 23 < k % 2 ^ 23 := by omega
    have hfin : j / 2 ^ 23 ≠ 255 := by omega
    rw [magUnits, magUnits, heq, if_neg hfin, if_neg hfin]
    split
    next => exact hfrac
    next => exact Nat.mul_lt_mul_of_pos_right (Nat.add_lt_add_left hfrac _) (Nat.two_pow_pos _)

theorem magUnits_lt_iff {j k : Nat} (hj : j ≤ 255 * 2 ^ 23) (hk : k ≤ 255 * 2 ^ 23) : magUnits j < magUnits k ↔ j < k :=
  magUnits_strictMonoOn.lt_iff_lt hj hk

theorem magUnits_eq_zero_iff {k : Nat} (hk : k ≤ 255 * 2 ^ 23) : magUnits k = 0 ↔ k = 0 := by
  have h := magUnits_lt_iff (Nat.zero_le _) hk
  rw [show magUnits 0 = 0 from rfl] at h
  omega

/-! ### Comparison (R109, R111) -/

theorem f32Eq_comm (a b : Word) : f32Eq a b = f32Eq b a := by
  unfold f32Eq
  rw [Bool.and_comm, Bool.beq_comm]

section
variable {a b : Word} (ha : (f32 a).isNan = false) (hb : (f32 b).isNan = false)
include ha hb

/-- The reals are in the order of the bit patterns, but for two zeros. -/
theorem units_lt_iff : (f32 a).units < (f32 b).units ↔ f32Key a < f32Key b ∧ ¬(f32Mag a = 0 ∧ f32Mag b = 0) := by
  have hka := f32Mag_le_of_not_nan ha
  have hkb := f32Mag_le_of_not_nan hb
  have hab := magUnits_lt_iff hka hkb
  have hba := magUnits_lt_iff hkb hka
  have ha0 := magUnits_eq_zero_iff hka
  have hb0 := magUnits_eq_zero_iff hkb
  rw [units_eq ha, units_eq hb, f32Key_eq, f32Key_eq]
  split_ifs <;> omega

/-- The reals are equal when the words are, and when both are zeros. -/
theorem units_eq_iff : (f32 a).units = (f32 b).units ↔ a = b ∨ f32Mag a = 0 ∧ f32Mag b = 0 := by
  have hlt := units_lt_iff ha hb
  have hgt := units_lt_iff hb ha
  rw [← f32Key_inj]
  omega

theorem f32Lt_eq_decide : f32Lt a b = decide ((f32 a).units < (f32 b).units) := by
  rw [Bool.eq_iff_iff, decide_eq_true_iff, units_lt_iff ha hb, f32Lt]
  simp only [Bool.and_eq_true, f32_isZero_iff]
  split
  next h => simp [h]
  next h => simp [h]

theorem f32Eq_eq_decide : f32Eq a b = decide ((f32 a).units = (f32 b).units) := by
  rw [Bool.eq_iff_iff, decide_eq_true_iff, units_eq_iff ha hb, f32Eq]
  simp only [Bool.or_eq_true, Bool.and_eq_true, f32_isZero_iff, beq_iff_eq]
  exact or_comm

theorem f32Le_eq_decide : (f32Lt a b || f32Eq a b) = decide ((f32 a).units ≤ (f32 b).units) := by
  rw [f32Lt_eq_decide ha hb, f32Eq_eq_decide ha hb, ← Bool.decide_or]
  exact decide_eq_decide.mpr le_iff_lt_or_eq.symm

theorem f32Min_of_not_nan : f32Min a b = if f32Key a ≤ f32Key b then a else b := by
  simp [f32Min, ha, hb]

theorem f32Max_of_not_nan : f32Max a b = if f32Key a ≤ f32Key b then b else a := by
  simp [f32Max, ha, hb]

theorem f32Min_f32Max_of_lt (h : (f32 a).units < (f32 b).units) : f32Min a b = a ∧ f32Max a b = b := by
  have hkey := ((units_lt_iff ha hb).mp h).1
  rw [f32Min_of_not_nan ha hb, f32Max_of_not_nan ha hb, if_pos hkey.le, if_pos hkey.le]
  exact ⟨rfl, rfl⟩

theorem f32Min_f32Max_of_gt (h : (f32 b).units < (f32 a).units) : f32Min a b = b ∧ f32Max a b = a := by
  have hkey := ((units_lt_iff hb ha).mp h).1
  rw [f32Min_of_not_nan ha hb, f32Max_of_not_nan ha hb, if_neg (not_le.mpr hkey), if_neg (not_le.mpr hkey)]
  exact ⟨rfl, rfl⟩

/-- Two words of one real are the two zeros, of which −0 is the lesser (R109). -/
theorem f32Min_f32Max_of_zeros (h : (f32 a).units = (f32 b).units) (hne : a ≠ b) :
    f32Min a b = 0x80000000#32 ∧ f32Max a b = 0 := by
  obtain ⟨hka, hkb⟩ := ((units_eq_iff ha hb).mp h).resolve_left hne
  have hzero : ∀ w : Word, f32Mag w = 0 → w = if w.msb then 0x80000000#32 else 0 := fun w hw => by
    rw [eq_iff_sign_mag, hw]
    cases w.msb <;> decide
  have hsign : a.msb ≠ b.msb := fun hs => hne (eq_iff_sign_mag.mpr ⟨hs, hka.trans hkb.symm⟩)
  rw [f32Min_of_not_nan ha hb, f32Max_of_not_nan ha hb, hzero a hka, hzero b hkb]
  revert hsign
  cases a.msb <;> cases b.msb <;> decide

end

theorem f32Min_f32Max_self {a : Word} (ha : (f32 a).isNan = false) : f32Min a a = a ∧ f32Max a a = a := by
  rw [f32Min_of_not_nan ha ha, f32Max_of_not_nan ha ha, ite_self]
  exact ⟨rfl, rfl⟩

theorem f32Min_f32Max_of_nans {a b : Word} (ha : (f32 a).isNan = true) (hb : (f32 b).isNan = true) :
    f32Min a b = 0x7FC00000#32 ∧ f32Max a b = 0x7FC00000#32 := by
  simp [f32Min, f32Max, ha, hb, qNaN]

theorem f32Min_f32Max_of_nan_left {a b : Word} (ha : (f32 a).isNan = true) (hb : (f32 b).isNan = false) :
    f32Min a b = b ∧ f32Max a b = b := by
  simp [f32Min, f32Max, ha, hb]

theorem f32Min_f32Max_of_nan_right {a b : Word} (ha : (f32 a).isNan = false) (hb : (f32 b).isNan = true) :
    f32Min a b = a ∧ f32Max a b = a := by
  simp [f32Min, f32Max, ha, hb]

/-- The test each condition makes of two reals; a NaN is unordered (R111). -/
def realTest (cc : FCmp) (un : Bool) (x y : Int) : Bool :=
  match cc with
  | .eq => !un && decide (x = y)
  | .ne => un || decide (x ≠ y)
  | .lt => !un && decide (x < y)
  | .le => !un && decide (x ≤ y)
  | .gt => !un && decide (y < x)
  | .ge => !un && decide (y ≤ x)
  | .un => un
  | .ord => !un

theorem f32Cmp_eq (cc : FCmp) (a b : Word) :
    f32Cmp cc a b = realTest cc ((f32 a).isNan || (f32 b).isNan) (f32 a).units (f32 b).units := by
  cases hun : (f32 a).isNan || (f32 b).isNan with
  | true => cases cc <;> simp [f32Cmp, realTest, hun]
  | false =>
    obtain ⟨ha, hb⟩ := Bool.or_eq_false_iff.mp hun
    cases cc with
    | eq => simp [f32Cmp, realTest, hun, f32Eq_eq_decide ha hb]
    | ne => simp [f32Cmp, realTest, hun, f32Eq_eq_decide ha hb]
    | lt => simp [f32Cmp, realTest, hun, f32Lt_eq_decide ha hb]
    | le => simp [f32Cmp, realTest, hun, f32Le_eq_decide ha hb]
    | gt => simp [f32Cmp, realTest, hun, f32Lt_eq_decide hb ha]
    | ge => simp [f32Cmp, realTest, hun, f32Eq_comm a b, f32Le_eq_decide hb ha]
    | un => exact hun
    | ord => exact congrArg not hun

/-! ### Classes (R112) -/

/-- The class bit of a value; a NaN's is told by bit 22 of its word, which marks it quiet. -/
def Fpv.classBit (quiet : Bool) : Fpv → Word
  | .nan => if quiet then 0x200#32 else 0x100#32
  | .inf n => if n then 0x1#32 else 0x80#32
  | .fin n m _ =>
    if m = 0 then (if n then 0x8#32 else 0x10#32)
    else if m < 2 ^ 23 then (if n then 0x4#32 else 0x20#32)
    else (if n then 0x2#32 else 0x40#32)

theorem f32Class_eq (a : Word) : f32Class a = (f32 a).classBit (a.getLsbD 22) := by
  have ha := a.isLt
  have hexp : a.toNat / 2 ^ 23 % 256 = f32Mag a / 2 ^ 23 := by rw [f32Mag]; omega
  have hfrac : a.toNat % 2 ^ 23 = f32Mag a % 2 ^ 23 := by rw [f32Mag]; omega
  have hlt : f32Mag a % 2 ^ 23 < 2 ^ 23 := Nat.mod_lt _ (by decide)
  rw [f32_eq, f32Class, hexp, hfrac]
  generalize f32Mag a / 2 ^ 23 = e
  generalize f32Mag a % 2 ^ 23 = f at hlt
  by_cases he : e = 255
  · by_cases hf : f = 0
    · cases a.msb <;> simp [he, hf, Fpv.classBit]
    · cases a.getLsbD 22 <;> simp [he, hf, Fpv.classBit]
  by_cases he0 : e = 0
  · by_cases hf : f = 0
    · cases a.msb <;> simp [he0, hf, Fpv.classBit]
    · cases a.msb <;> simpa [he0, hf, Fpv.classBit] using hlt
  · cases a.msb <;> simp [he, he0, Fpv.classBit]

/-! ### Signs (R110) -/

theorem fabs_eq (a : Word) : BitVec.ofNat 32 (a.toNat % 2 ^ 31) = a &&& 0x7FFFFFFF#32 := by
  refine BitVec.eq_of_toNat_eq ?_
  rw [BitVec.toNat_and, BitVec.toNat_ofNat, show (0x7FFFFFFF#32 : Word).toNat = 2 ^ 31 - 1 from rfl,
    Nat.and_two_pow_sub_one_eq_mod]
  omega

theorem fneg_eq (a : Word) : BitVec.ofNat 32 (a.toNat + 2 ^ 31) = a ^^^ 0x80000000#32 := by
  have ha := a.isLt
  rw [eq_iff_sign_mag]
  constructor
  · rw [BitVec.msb_xor, BitVec.msb_eq_decide, BitVec.msb_eq_decide a, BitVec.toNat_ofNat,
      show (0x80000000#32 : Word).msb = true from rfl, Bool.xor_true, ← decide_not, decide_eq_decide]
    omega
  · rw [f32Mag, f32Mag, BitVec.toNat_xor, Nat.xor_mod_two_pow, BitVec.toNat_ofNat,
      show (0x80000000#32 : Word).toNat % 2 ^ 31 = 0 from rfl, Nat.xor_zero]
    omega

/-! ### Conversion and packed arithmetic (R116 to R118) -/

/-- An instruction that writes one register computes in each lane what its function does. -/
theorem computes_lanewise {i : Instr} {d : Dst} {nw : Bool} {msel : BitVec 3} {os : List Opnd} {tag : Tag}
    {val : State → Nat → Nat → Nat → Word} (f : Env → Nat → Word)
    (hi : ∀ s, exec i s = laneRun s fun g => s.alu g d 1 nw msel os (lanewise tag f))
    (hf : ∀ s g L, val s g 0 L = f (s.env g msel os) L) : Computes i d 1 nw msel os (fun _ _ _ => tag) val := by
  refine computes_alu (fun _ _ => lanewise tag f) (by decide) hi fun s g => ?_
  refine ⟨_, _, rfl, rfl, fun _ _ => rfl, fun j L hj hL _ _ => ?_⟩
  obtain rfl : j = 0 := by omega
  rw [List.getD_cons_zero, Lanes.at_make _ hL, hf]

end Sys2Proof.Machine

/-! ### The statements -/

namespace Sys2Proof.Proofs

open Sys2Proof.Machine

/-- Settles O8: the model's sums and products are rounded once as they stand; `units_lt_iff` and `units_eq_iff` turn the order
of bit patterns, by which `fmin`, `fmax` and `fcmp` go, into that of the reals, and `f32_eq` gives `fclass` its fields. -/
theorem floatArithmetic : Obligations.FloatArithmetic :=
  ⟨fun _ => computes2 (fun _ _ => rfl) fun _ _ => rfl,
   fun _ => computes2 (fun _ _ => rfl) fun _ _ => rfl,
   fun _ => computes2 (fun _ _ => rfl) fun _ _ => rfl,
   fun _ => computes3 (fun _ _ => rfl) fun _ _ _ => rfl,
   computes2 (fun _ _ => rfl) fun _ _ => rfl,
   computes2 (fun _ _ => rfl) fun _ _ => rfl,
   computes1 (fun _ _ => rfl) fabs_eq,
   computes1 (fun _ _ => rfl) fneg_eq,
   fun _ => tests2 (fun _ _ => rfl) fun _ _ => rfl,
   computes1 (fun _ _ => rfl) fun _ => rfl,
   fun a b =>
    ⟨f32Min_f32Max_of_nans, f32Min_f32Max_of_nan_left, f32Min_f32Max_of_nan_right, fun ha hb =>
      ⟨f32Min_f32Max_of_lt ha hb, f32Min_f32Max_of_gt ha hb, fun h => h ▸ f32Min_f32Max_self ha,
       f32Min_f32Max_of_zeros ha hb⟩,
     fun cc => f32Cmp_eq cc a b⟩,
   f32Class_eq⟩

/-- Settles O11: each element of a conversion or of packed arithmetic, and the sum of `fdot2`, is rounded once as the model has
it; `computes_lanewise`, `computes2` and `computes3` carry the destination, its tag and the frame. -/
theorem conversionAndPackedArithmetic : Obligations.ConversionAndPackedArithmetic :=
  ⟨fun e1 _ _ =>
    ⟨computes_lanewise _ (fun _ => rfl) fun _ _ _ => rfl,
     computes_lanewise _ (fun _ => rfl) fun _ _ _ => rfl,
     computes_lanewise _ (fun _ => rfl) fun _ _ _ => by cases e1 <;> rfl,
     computes_lanewise _ (fun _ => rfl) fun _ _ _ => by cases e1 <;> rfl,
     computes_lanewise _ (fun _ => rfl) fun _ _ _ => rfl,
     computes_lanewise _ (fun _ => rfl) fun _ _ _ => rfl⟩,
   fun _ _ => computes2 (fun _ _ => rfl) fun _ _ => rfl,
   fun _ _ => computes2 (fun _ _ => rfl) fun _ _ => rfl,
   fun _ _ => computes3 (fun _ _ => rfl) fun _ _ _ => rfl,
   fun _ _ _ => computes_lanewise _ (fun _ => rfl) fun _ _ _ => rfl⟩

end Sys2Proof.Proofs
end

section
/-!
PROOFS. Shuffles, scans, votes and reductions (R126 to R130). A scan's running values are a fold over the lanes of the segment
up to the one that receives them; the tree that the model builds level by level over a segment's leaves is the tree of R127
built from its two halves.
-/
namespace Sys2Proof.Machine

/-! ### Results of one register and of two -/

/-- An instruction that writes one register, of a tag that may depend on what was read. -/
theorem computes_one {i : Instr} {d : Dst} {nw : Bool} {msel : BitVec 3} {os : List Opnd} {tag : State → Nat → Nat → Tag}
    {val : State → Nat → Nat → Nat → Word} (t : Env → Tag) (x : Env → Lanes)
    (hi : ∀ s, exec i s = laneRun s fun g => s.alu g d 1 nw msel os fun e => .ok (t e, [x e]))
    (ht : ∀ s g, tag s g 0 = t (s.env g msel os))
    (hx : ∀ s g L, L < 64 → inMask (s.active g msel) L = true → val s g 0 L = (x (s.env g msel os)).at L) :
    Computes i d 1 nw msel os tag val := by
  refine computes_alu (fun _ _ e => .ok (t e, [x e])) (by decide) hi fun s g => ?_
  refine ⟨_, _, rfl, rfl, fun j hj => ?_, fun j L hj hL hact _ => ?_⟩
  · obtain rfl : j = 0 := by omega
    exact ht s g
  · obtain rfl : j = 0 := by omega
    exact hx s g L hL hact

/-- An instruction that writes a pair, both registers under one tag. -/
theorem computes_two {i : Instr} {d : Dst} {nw : Bool} {msel : BitVec 3} {os : List Opnd} {tag : Tag}
    {val : State → Nat → Nat → Nat → Word} (lo hi : Env → Lanes)
    (hexec : ∀ s, exec i s = laneRun s fun g => s.alu g d 2 nw msel os fun e => .ok (tag, [lo e, hi e]))
    (hlo : ∀ s g L, L < 64 → val s g 0 L = (lo (s.env g msel os)).at L)
    (hhi : ∀ s g L, L < 64 → val s g 1 L = (hi (s.env g msel os)).at L) :
    Computes i d 2 nw msel os (fun _ _ _ => tag) val := by
  refine computes_alu (fun _ _ e => .ok (tag, [lo e, hi e])) (by decide) hexec fun s g => ?_
  refine ⟨_, _, rfl, rfl, fun _ _ => rfl, fun j L hj hL _ _ => ?_⟩
  obtain rfl | rfl : j = 0 ∨ j = 1 := by omega
  · exact hlo s g L hL
  · exact hhi s g L hL

theorem maskOf_eq_bitsOf (p : Nat → Bool) : maskOf p = bitsOf 64 p :=
  eq_bitsOf fun _ hL => inMask_maskOf p hL

/-! ### Shuffles (R126) -/

/-- A shuffle gives each lane A of the source lane, or its own A where there is none. -/
theorem computes_shuffle {i : Ops2 → Instr} {src : Nat → Word → Option Nat} {val : State → Nat → Nat → Nat → Word} {o : Ops2}
    (hi : ∀ s, exec (i o) s = laneRun s fun g => s.shuffle g o src)
    (hval : ∀ s g L, val s g 0 L = s.word g (.int o.a) ((src L (s.word g (.int o.b) L)).getD L)) :
    Computes (i o) o.d 1 o.nw o.msel [.int o.a, .int o.b] (fun s g _ => (s.opndTag g (.int o.a)).getD .b32) val := by
  refine computes_one _ _ hi (fun _ _ => rfl) fun s g L hL _ => ?_
  rw [Lanes.at_make _ hL, hval]
  rfl

/-- The first lane of the segment of lane `L` (R126). -/
theorem sub_mod_eq_div_mul (L w : Nat) : L - L % w = L / w * w := by
  rw [Nat.sub_eq_iff_eq_add (Nat.mod_le _ _), Nat.mul_comm, Nat.div_add_mod]

/-- A source lane that exists only under a condition: the lane itself stands in for it elsewhere. -/
theorem getD_ite_some (p q : Prop) [Decidable p] [Decidable q] (M L : Nat) :
    (if (decide p && decide q) = true then some M else none).getD L = if p ∧ q then M else L := by
  rw [← Bool.decide_and, apply_ite (Option.getD · L)]
  simp

/-! ### Scan (R129) -/

/-- What is carried on past a lane: its own value where nothing was carried to it. -/
def carryOn (f : Word → Word → Word) (a : Nat → Word) (r : Option Word) (L : Nat) : Word :=
  match r with
  | none => a L
  | some x => f x (a L)

/-- What is carried past a list of lanes. -/
def carryAll (f : Word → Word → Word) (a : Nat → Word) (r : Option Word) (ls : List Nat) : Option Word :=
  ls.foldl (fun r L => some (carryOn f a r L)) r

/-- The lanes whose values enter into what lane `L` receives. -/
def scanTakes (op : ScanOp) (L M : Nat) : Bool := decide (if op = .exadd then M < L else M ≤ L)

/-- The running value of a list of lanes. -/
def runningValue (f : Word → Word → Word) (a : Nat → Word) : List Nat → Word
  | [] => 0
  | M :: t => (t.map a).foldl f (a M)

theorem carryAll_some (f : Word → Word → Word) (a : Nat → Word) (ls : List Nat) :
    ∀ x, carryAll f a (some x) ls = some ((ls.map a).foldl f x) := by
  induction ls with
  | nil => exact fun _ => rfl
  | cons L t ih => exact fun x => ih (f x (a L))

theorem carryAll_none (f : Word → Word → Word) (a : Nat → Word) (ls : List Nat) :
    (carryAll f a none ls).getD 0 = runningValue f a ls := by
  cases ls with
  | nil => rfl
  | cons M t => exact congrArg (Option.getD · 0) (carryAll_some f a t (a M))

theorem redIdentity_add (ty : RTy) : redIdentity .add ty = 0 := by cases ty <;> rfl

theorem scanRun_cons (op : ScanOp) (ty : RTy) (rm : Rm) (e : Env) (r : Option Word) (L : Nat) (t : List Nat) :
    let next := carryOn (redCombine (scanRed op) ty rm) (e.v 0) r L
    scanRun op ty rm e r (L :: t) =
      (L, if op = .exadd then r.getD 0 else next) :: scanRun op ty rm e (some next) t := by
  cases r with
  | none => simp only [scanRun, redIdentity_add, beq_iff_eq, carryOn]
  | some x => simp only [scanRun, redIdentity_add, beq_iff_eq, carryOn]

theorem find_scanRun_of_not_mem {op : ScanOp} {ty : RTy} {rm : Rm} {e : Env} {L : Nat} {ls : List Nat} (hL : L ∉ ls) :
    ∀ r, Tbl.find (scanRun op ty rm e r ls) L = none := by
  induction ls with
  | nil => exact fun _ => rfl
  | cons M t ih =>
    rw [List.mem_cons, not_or] at hL
    obtain ⟨hM, ht⟩ := hL
    intro r
    rw [scanRun_cons, Tbl.find, if_neg (Ne.symm hM), ih ht]

/-- A lane of a list in ascending order receives what is carried past the lanes it takes. -/
theorem find_scanRun (op : ScanOp) (ty : RTy) (rm : Rm) (e : Env) {L : Nat} {ls : List Nat} (hasc : ls.Pairwise (· < ·))
    (hL : L ∈ ls) : ∀ r, Tbl.find (scanRun op ty rm e r ls) L =
      some ((carryAll (redCombine (scanRed op) ty rm) (e.v 0) r (ls.filter (scanTakes op L))).getD 0) := by
  induction ls with
  | nil => cases hL
  | cons M t ih =>
    obtain ⟨hM, ht⟩ := List.pairwise_cons.mp hasc
    intro r
    rw [scanRun_cons, Tbl.find]
    by_cases hML : M = L
    · subst hML
      have hnone : t.filter (scanTakes op M) = [] := List.filter_eq_nil_iff.mpr fun N hN => by
        have := hM N hN
        simp only [scanTakes, decide_eq_true_eq]
        split <;> omega
      rw [if_pos rfl, List.filter_cons, hnone]
      by_cases hop : op = .exadd
      · simp [scanTakes, hop, carryAll]
      · simp [scanTakes, hop, carryAll]
    · have hLt : L ∈ t := (List.mem_cons.mp hL).resolve_left (Ne.symm hML)
      have htakes : scanTakes op L M = true := by
        have := hM L hLt
        simp only [scanTakes, decide_eq_true_eq]
        split <;> omega
      rw [if_neg hML, ih ht hLt, List.filter_cons, if_pos htakes]
      rfl

theorem Tbl.find_append {α : Type} (t u : Tbl α) (k : Nat) :
    Tbl.find (t ++ u) k = (Tbl.find t k).or (Tbl.find u k) := by
  induction t with
  | nil => rfl
  | cons x t ih =>
    simp only [List.cons_append, Tbl.find, ih]
    split <;> rfl

theorem Tbl.find_flatMap_none {α : Type} {f : Nat → Tbl α} {k : Nat} {is : List Nat}
    (h : ∀ j ∈ is, Tbl.find (f j) k = none) : Tbl.find (is.flatMap f) k = none := by
  induction is with
  | nil => rfl
  | cons j t ih =>
    obtain ⟨hj, ht⟩ := List.forall_mem_cons.mp h
    rw [List.flatMap_cons, Tbl.find_append, hj, Option.none_or, ih ht]

/-- A key that one table alone can list is looked up there when tables stand one after another. -/
theorem Tbl.find_flatMap {α : Type} {f : Nat → Tbl α} {k i : Nat} {is : List Nat} (hi : i ∈ is)
    (hother : ∀ j, j ≠ i → Tbl.find (f j) k = none) : Tbl.find (is.flatMap f) k = Tbl.find (f i) k := by
  induction is with
  | nil => cases hi
  | cons j t ih =>
    rw [List.flatMap_cons, Tbl.find_append]
    by_cases hj : j = i
    · subst hj
      by_cases hjt : j ∈ t
      · rw [ih hjt, Option.or_self]
      · rw [Tbl.find_flatMap_none fun l hl => hother l fun h => hjt (h ▸ hl), Option.or_none]
    · rw [hother j hj, Option.none_or, ih ((List.mem_cons.mp hi).resolve_left (Ne.symm hj))]

theorem lanesOf_ascending (m : Dword) : (lanesOf m).Pairwise (· < ·) := List.pairwise_lt_range.filter _

theorem div_seg4W_lt {seg : Seg4} {L : Nat} (hL : L < 64) : L / seg4W seg < 64 / seg4W seg := by
  cases seg <;> simp only [seg4W] <;> omega

/-- The lanes of `act` in the segment of lane `L` whose values enter into what it receives. -/
def scanLanes (op : ScanOp) (seg : Seg4) (act : Dword) (L : Nat) : List Nat :=
  (lanesOf act).filter fun M => decide (M / seg4W seg = L / seg4W seg) && scanTakes op L M

/-- What `scan` gives an active lane, from the rows of all the segments. -/
theorem scan_received {op : ScanOp} {ty : RTy} {seg : Seg4} {rm : Rm} {e : Env} {L : Nat} (hL : L < 64)
    (hact : inMask e.act L = true) :
    (Tbl.find ((List.range (64 / seg4W seg)).flatMap fun j =>
      scanRun op ty rm e none ((lanesOf e.act).filter fun M => M / seg4W seg == j)) L).getD 0 =
      runningValue (redCombine (scanRed op) ty rm) (e.v 0) (scanLanes op seg e.act L) := by
  have hmem : L ∈ (lanesOf e.act).filter fun M => M / seg4W seg == L / seg4W seg :=
    List.mem_filter.mpr ⟨mem_lanesOf.mpr ⟨hL, hact⟩, beq_self_eq_true _⟩
  have hlanes : ((lanesOf e.act).filter fun M => M / seg4W seg == L / seg4W seg).filter (scanTakes op L) =
      scanLanes op seg e.act L := by
    rw [List.filter_filter, scanLanes]
    exact List.filter_congr fun M _ => Bool.and_comm ..
  rw [Tbl.find_flatMap (List.mem_range.mpr (div_seg4W_lt hL)) fun j hj => find_scanRun_of_not_mem (by simp [hj.symm]) none,
    find_scanRun _ _ _ _ ((lanesOf_ascending _).filter _) hmem, hlanes, Option.getD_some, carryAll_none]

/-! ### Ballot and match (R130) -/

theorem ballotMask_eq (act : Dword) (a : Nat → Word) :
    (bitsOf 64 fun L => inMask act L && decide (a L ≠ 0)) = maskOf fun L => inMask act L && a L != 0 := by
  rw [maskOf_eq_bitsOf]
  congr 1
  funext L
  rw [bne, beq_eq_decide, decide_not]

theorem matchMask_eq (act : Dword) (a : Nat → Word) (L : Nat) :
    (bitsOf 64 fun M => inMask act M && decide (a M = a L)) = maskOf fun M => inMask act M && a M == a L :=
  (maskOf_eq_bitsOf _).symm

/-! ### Combining two values (R127) -/

theorem iminVal_true (x y : Word) : (if x.toInt ≤ y.toInt then x else y) = iminVal true x y := by
  rw [← iminVal_signed, min_def, apply_ite (BitVec.ofInt 32), BitVec.ofInt_toInt, BitVec.ofInt_toInt]

theorem iminVal_false (x y : Word) : (if x.toNat ≤ y.toNat then x else y) = iminVal false x y := by
  rw [← iminVal_unsigned, min_def, apply_ite (BitVec.ofNat 32), BitVec.ofNat_toNat, BitVec.ofNat_toNat, BitVec.setWidth_eq,
    BitVec.setWidth_eq]

theorem imaxVal_true (x y : Word) : (if x.toInt ≤ y.toInt then y else x) = imaxVal true x y := by
  rw [← imaxVal_signed, max_def, apply_ite (BitVec.ofInt 32), BitVec.ofInt_toInt, BitVec.ofInt_toInt]

theorem imaxVal_false (x y : Word) : (if x.toNat ≤ y.toNat then y else x) = imaxVal false x y := by
  rw [← imaxVal_unsigned, max_def, apply_ite (BitVec.ofNat 32), BitVec.ofNat_toNat, BitVec.ofNat_toNat, BitVec.setWidth_eq,
    BitVec.setWidth_eq]

/-! ### The tree of a reduction (R127) -/

theorem redLevel_append (f : Word → Word → Word) (m : List (Option Word)) :
    ∀ l : List (Option Word), 2 ∣ l.length → redLevel f (l ++ m) = redLevel f l ++ redLevel f m
  | [], _ => rfl
  | [_], h => absurd h (by simp)
  | x :: y :: t, h => congrArg (redNode f x y :: ·) (redLevel_append f m t ((Nat.dvd_add_left (dvd_refl 2)).mp h))

theorem length_redLevel (f : Word → Word → Word) : ∀ l : List (Option Word), 2 ∣ l.length → (redLevel f l).length = l.length / 2
  | [], _ => rfl
  | [_], h => absurd h (by simp)
  | x :: y :: t, h => by
    rw [redLevel, List.length_cons, length_redLevel f t ((Nat.dvd_add_left (dvd_refl 2)).mp h)]
    simp only [List.length_cons]
    omega

theorem redTree_succ (f : Word → Word → Word) (k : Nat) : ∀ l, redTree f (k + 1) l = redLevel f (redTree f k l) := by
  induction k with
  | zero => exact fun _ => rfl
  | succ k ih => exact fun l => ih (redLevel f l)

theorem redTree_append (f : Word → Word → Word) (k : Nat) :
    ∀ l m : List (Option Word), 2 ^ k ∣ l.length → redTree f k (l ++ m) = redTree f k l ++ redTree f k m := by
  induction k with
  | zero => exact fun _ _ _ => rfl
  | succ k ih =>
    intro l m hl
    have heven : 2 ∣ l.length := (dvd_pow_self 2 (Nat.succ_ne_zero k)).trans hl
    rw [redTree, redLevel_append f m l heven, ih _ _ ?_]
    · rfl
    · rw [length_redLevel f l heven]
      exact Nat.dvd_div_of_mul_dvd (by rwa [← Nat.pow_succ'])

theorem redNode_treeOf (f : Word → Word → Word) (leaf : Nat → Option Word) (k lo : Nat) :
    redNode f (treeOf f leaf k lo) (treeOf f leaf k (lo + 2 ^ k)) = treeOf f leaf (k + 1) lo := by
  rw [treeOf]
  cases treeOf f leaf k lo <;> cases treeOf f leaf k (lo + 2 ^ k) <;> rfl

/-- Level by level or half by half, one value is left over `2 ^ k` leaves, and the same. -/
theorem redTree_leaves (f : Word → Word → Word) (leaf : Nat → Option Word) (k : Nat) :
    ∀ lo, redTree f k ((List.range' lo (2 ^ k)).map leaf) = [treeOf f leaf k lo] := by
  induction k with
  | zero => exact fun _ => rfl
  | succ k ih =>
    intro lo
    have hhalves : List.range' lo (2 ^ (k + 1)) = List.range' lo (2 ^ k) ++ List.range' (lo + 2 ^ k) (2 ^ k) := by
      rw [List.range'_append_1, ← Nat.two_mul, Nat.pow_succ']
    rw [hhalves, List.map_append, redTree_succ, redTree_append f k _ _ (by simp), ih, ih]
    exact congrArg ([·]) (redNode_treeOf f leaf k lo)

/-! ### The value of a segment (R127) -/

/-- The result from the root of the tree. -/
def rootValue (r : Red) (ty : RTy) : Option Word → Word
  | some x => redCanon ty x
  | none => redIdentity r ty

/-- The result of a reduction over segment `j` of `2 ^ k` lanes. -/
def segValue (r : Red) (ty : RTy) (rm : Rm) (k : Nat) (act : Dword) (a : Nat → Word) (j : Nat) : Word :=
  rootValue r ty (treeOf (redCombine r ty rm) (fun L => if inMask act L then some (a L) else none) k (j * 2 ^ k))

theorem redCanon_eq (ty : RTy) (w : Word) :
    redCanon ty w = if ty = .f32 ∧ (f32 w).isNan = true then 0x7FC00000#32 else w := by
  simp only [redCanon, Bool.and_eq_true, beq_iff_eq, qNaN]

theorem two_pow_seg4Log (seg : Seg4) : 2 ^ seg4Log seg = seg4W seg := by cases seg <;> rfl

theorem redSegment_eq_segValue (r : Red) (ty : RTy) (rm : Rm) (seg : Seg4) (e : Env) (j : Nat) :
    redSegment r ty rm seg e j = segValue r ty rm (seg4Log seg) e.act (e.v 0) j := by
  have hroot : redSegment r ty rm seg e j = rootValue r ty ((redTree (redCombine r ty rm) (seg4Log seg)
      ((List.range (seg4W seg)).map fun i =>
        if inMask e.act (j * seg4W seg + i) then some (e.v 0 (j * seg4W seg + i)) else none)).headD none) := rfl
  have hleaves : ((List.range (seg4W seg)).map fun i =>
      if inMask e.act (j * seg4W seg + i) then some (e.v 0 (j * seg4W seg + i)) else none) =
      (List.range' (j * 2 ^ seg4Log seg) (2 ^ seg4Log seg)).map fun L => if inMask e.act L then some (e.v 0 L) else none := by
    rw [two_pow_seg4Log, List.range'_eq_map_range, List.map_map]
    rfl
  rw [hroot, hleaves, redTree_leaves, List.headD_cons, segValue]

theorem bySegment_at (seg : Seg4) (f : Nat → Word) {L : Nat} (hL : L < 64) :
    (bySegment seg f).at L = f (L / 2 ^ seg4Log seg) := by
  rw [bySegment, Lanes.at_make _ hL, two_pow_seg4Log]
  simp [List.getD, div_seg4W_lt hL]

/-! ### The index of a segment's value (R128) -/

/-- Lane `L` holds a NaN, under `.f32`. -/
def nanLane (ty : RTy) (a : Nat → Word) (L : Nat) : Bool := decide (ty = .f32) && (f32 (a L)).isNan

/-- Lane `L` is active and of segment `j`. -/
def activeIn (k : Nat) (act : Dword) (j L : Nat) : Bool := inMask act L && decide (L / 2 ^ k = j)

/-- The lowest active lane of segment `j` that holds its value, or that is active at all where every one holds a NaN. -/
def segIndex (r : Red) (ty : RTy) (k : Nat) (act : Dword) (a : Nat → Word) (j : Nat) : Word :=
  BitVec.ofNat 32 (((List.range 64).find? fun L => activeIn k act j L &&
    ((List.range 64).all (fun M => !activeIn k act j M || nanLane ty a M) ||
      (!nanLane ty a L && a L == segValue r ty .rn k act a j))).getD 64)

theorem headD_filter {α : Type} (l : List α) (p : α → Bool) (d : α) : (l.filter p).headD d = (l.find? p).getD d := by
  rw [List.headD_eq_head?_getD, List.head?_filter]

theorem redIndex_eq_segIndex (r : Red) (ty : RTy) (seg : Seg4) (e : Env) (j : Nat) :
    redIndex r ty seg e j = segIndex r ty (seg4Log seg) e.act (e.v 0) j := by
  have hls : (lanesOf e.act).filter (fun L => L / seg4W seg == j) = (List.range 64).filter (activeIn (seg4Log seg) e.act j) := by
    rw [lanesOf, List.filter_filter]
    refine List.filter_congr fun L _ => ?_
    rw [activeIn, two_pow_seg4Log, beq_eq_decide, Bool.and_comm]
  have hall : ((List.range 64).filter (activeIn (seg4Log seg) e.act j)).all (nanLane ty (e.v 0)) =
      (List.range 64).all fun M => !activeIn (seg4Log seg) e.act j M || nanLane ty (e.v 0) M := List.all_filter
  have hindex : redIndex r ty seg e j = BitVec.ofNat 32
      ((if ((List.range 64).filter (activeIn (seg4Log seg) e.act j)).all (nanLane ty (e.v 0)) then
          (List.range 64).filter (activeIn (seg4Log seg) e.act j)
        else ((List.range 64).filter (activeIn (seg4Log seg) e.act j)).filter fun L =>
          !nanLane ty (e.v 0) L && e.v 0 L == segValue r ty .rn (seg4Log seg) e.act (e.v 0) j).headD 64) := by
    rw [← redSegment_eq_segValue, ← hls]
    rfl
  rw [hindex, segIndex, hall]
  split
  next h => simp only [h, Bool.true_or, Bool.and_true, headD_filter]
  next h => simp only [h, Bool.false_or, List.filter_filter, Bool.and_comm, headD_filter]

/-- A reduction gives each lane the value of its own segment. -/
theorem computes_reduce {i : Ops1 → Instr} {r : Red} {ty : RTy} {seg : Seg4} {rm : Rm} {val : State → Nat → Nat → Nat → Word}
    {o : Ops1} (hi : ∀ s, exec (i o) s = laneRun s fun g => s.reduce g r ty seg rm o)
    (hval : ∀ s g L, val s g 0 L = segValue r ty rm (seg4Log seg) (s.active g o.msel) (s.word g ⟨o.a, 1, rtyKind ty⟩)
      (L / 2 ^ seg4Log seg)) :
    Computes (i o) o.d 1 o.nw o.msel [⟨o.a, 1, rtyKind ty⟩] (fun _ _ _ => rtyTag ty) val := by
  refine computes_one _ _ hi (fun _ _ => rfl) fun s g L hL _ => ?_
  rw [hval, bySegment_at seg _ hL, redSegment_eq_segValue]
  rfl

/-! ### What the indexed forms leave -/

theorem State.vreg_setTag (s : State) (g m n : Nat) (x : Tag) :
    ((s.setTag g m x).vreg g n).lanes = (s.vreg g n).lanes ∧
    ((s.setTag g m x).vreg g n).tag = if n = m then x else (s.vreg g n).tag := by
  rw [State.setTag, State.vreg_setVreg]
  split
  next h => exact ⟨by rw [h], rfl⟩
  next => exact ⟨rfl, rfl⟩

/-- A register of a vector destination is given another tag. -/
theorem State.Wrote.setTag {s t : State} {g : Nat} {act : Dword} {n : BitVec 8} {dn : Nat} {tag : Nat → Tag}
    {val : Nat → Nat → Word} {srcs : List Src} (h : s.Wrote t g act (.v n) dn false tag val srcs) {i : Nat} (hi : i < dn)
    (x : Tag) : s.Wrote (t.setTag g (n.toNat + i) x) g act (.v n) dn false (fun j => if j = i then x else tag j) val srcs := by
  have hvreg := fun m => State.vreg_setTag t g (n.toNat + i) m x
  have hgrp : (t.setTag g (n.toNat + i) x).grp g =
      { t.grp g with vregs := ((t.setTag g (n.toNat + i) x).grp g).vregs } := (State.setVreg_frame t g _ _).1
  have hnear : s.Near (t.setTag g (n.toNat + i) x) g :=
    State.Near.trans ⟨h.kept, h.only⟩ (State.near_setVreg t g (n.toNat + i) _)
  refine ⟨fun m j hm hj _ L hL => ?_, fun m j hm hj _ => ?_, fun _ _ hm => (by cases hm), fun m hm => ?_, fun m hm => ?_,
    fun c hc hlast => ?_, fun q => ?_, hnear.kept, ?_, hnear.only⟩
  · rw [(hvreg _).1]
    exact h.lanes m j hm hj rfl L hL
  · cases hm
    rw [(hvreg _).2, h.tag n j rfl hj rfl]
    simp
  · have hne : m ≠ n.toNat + i := fun he => by
      subst he
      simp [dstNamesV, hi] at hm
    exact (State.vreg_setVreg ..).trans ((if_neg hne).trans (h.vregs m hm))
  · exact (State.sreg_setVreg ..).trans (h.sregs m hm)
  · rw [hgrp]
    exact h.latch c hc hlast
  · rw [hgrp]
    exact h.windows q
  · rw [hgrp]
    exact ⟨h.went.word, h.went.threads, h.went.ended, h.went.next⟩

/-- The last step of `redmini` and `redmaxi`: the second register of a vector pair takes tag I32. -/
def State.tagIndex (t : State) (g : Nat) (d : Dst) (nw : Bool) : State :=
  match d with
  | .v n => if nw then t else t.setTag g (n.toNat + 1) .i32
  | .s _ => t

theorem State.Wrote.tagIndex {s t : State} {g : Nat} {act : Dword} {d : Dst} {nw : Bool} {x : Tag} {val : Nat → Nat → Word}
    {srcs : List Src} (h : s.Wrote t g act d 2 nw (fun _ => x) val srcs) :
    s.Wrote (t.tagIndex g d nw) g act d 2 nw (fun j => if j = 0 then x else .i32) val srcs := by
  cases d with
  | s n => exact { h with tag := fun _ _ hd => by cases hd }
  | v n =>
    cases nw with
    | true => exact { h with tag := fun _ _ _ _ hnw => by cases hnw }
    | false =>
      refine (h.setTag (by decide : 1 < 2) .i32).congr (by decide) (fun j hj => ?_) fun _ _ _ _ _ _ => rfl
      obtain rfl | rfl : j = 0 ∨ j = 1 := by omega
      · rfl
      · rfl

/-- `redmini` and `redmaxi` leave the value under its own tag and the index under I32. -/
theorem computes_reduceIndex {i : Ops1 → Instr} {r : Red} {ty : RTy} {seg : Seg4} {val : State → Nat → Nat → Nat → Word} {o : Ops1}
    (hi : ∀ s, exec (i o) s = laneRun s fun g => s.reduceIndex g r ty seg o)
    (hval : ∀ s g j L, val s g j L = (if j = 0 then segValue r ty .rn else segIndex r ty) (seg4Log seg) (s.active g o.msel)
      (s.word g ⟨o.a, 1, rtyKind ty⟩) (L / 2 ^ seg4Log seg)) :
    Computes (i o) o.d 2 o.nw o.msel [⟨o.a, 1, rtyKind ty⟩] (fun _ _ j => if j = 0 then rtyTag ty else .i32) val := by
  intro s g hs hok
  have halu := State.alu_ok (nw := o.nw) (f := fun e => .ok (rtyTag ty,
    [bySegment seg (redSegment r ty .rn seg e), bySegment seg (redIndex r ty seg e)])) hok rfl
  have hwrote := (State.aluDone_wrote s g [o.a] (s.active g o.msel) o.d o.nw (rtyTag ty)
    [bySegment seg (redSegment r ty .rn seg (s.env g o.msel [⟨o.a, 1, rtyKind ty⟩])),
     bySegment seg (redIndex r ty seg (s.env g o.msel [⟨o.a, 1, rtyKind ty⟩]))] hs.2).congr
      (tag' := fun _ => rtyTag ty) (val' := val s g) (by simp) (fun _ _ => rfl) fun j L hj hL _ _ => ?_
  · refine ⟨_, (hi s).trans (laneRun_ok hs.1 ?_), hwrote.tagIndex⟩
    unfold State.reduceIndex
    rw [halu]
    rfl
  · rw [hval]
    obtain rfl | rfl : j = 0 ∨ j = 1 := by simp at hj; omega
    · rw [if_pos rfl, List.getD_cons_zero, bySegment_at seg _ hL, redSegment_eq_segValue]
      rfl
    · rw [if_neg one_ne_zero, List.getD_cons_succ, List.getD_cons_zero, bySegment_at seg _ hL, redIndex_eq_segIndex]
      rfl

end Sys2Proof.Machine

/-! ### The statements -/

namespace Sys2Proof.Proofs

open Sys2Proof.Machine

/-- Settles O13: a source lane is A's lane at the place the table names, by `sub_mod_eq_div_mul` and `getD_ite_some`; what `scan`
gives a lane is the fold of `scan_received`; the masks of `ballot` and `match` are read bit by bit. -/
theorem shufflesScansAndVotes : Obligations.ShufflesScansAndVotes := by
  refine ⟨⟨fun seg o => ?_, fun seg o => ?_, fun seg o => ?_, fun seg o => ?_, fun o => ?_⟩, fun op ty seg rm o => ?_,
    fun o => ?_, fun o => ?_⟩
  · refine computes_shuffle (fun _ => rfl) fun s g L => ?_
    simp only [sub_mod_eq_div_mul, Option.getD_some]
  · refine computes_shuffle (fun _ => rfl) fun s g L => ?_
    simp only [sub_mod_eq_div_mul, getD_ite_some]
  · refine computes_shuffle (fun _ => rfl) fun s g L => ?_
    simp only [sub_mod_eq_div_mul, getD_ite_some]
  · refine computes_shuffle (fun _ => rfl) fun s g L => ?_
    simp only [sub_mod_eq_div_mul, Option.getD_some]
  · exact computes_shuffle (fun _ => rfl) fun _ _ _ => rfl
  · refine computes_one _ _ (fun _ => rfl) (fun _ _ => rfl) fun s g L hL hact => ?_
    rw [Lanes.at_make _ hL, scan_received hL hact]
    rfl
  · refine computes_two _ _ (fun _ => rfl) (fun s g L hL => ?_) fun s g L hL => ?_
    · exact (congrArg lowWord (ballotMask_eq _ _)).trans (Lanes.at_splat _ hL).symm
    · exact (congrArg highWord (ballotMask_eq _ _)).trans (Lanes.at_splat _ hL).symm
  · refine computes_two _ _ (fun _ => rfl) (fun s g L hL => ?_) fun s g L hL => ?_
    · rw [Lanes.at_make _ hL]
      exact congrArg lowWord (matchMask_eq _ _ _)
    · rw [Lanes.at_make _ hL]
      exact congrArg highWord (matchMask_eq _ _ _)

/-- Settles O14: the model combines two values and answers for an empty segment as R127's table does, `redTree_leaves` turns its
levels into the tree, and `redIndex_eq_segIndex` gives the index; `State.Wrote.tagIndex` carries the second register's tag. -/
theorem reductions : Obligations.Reductions := by
  unfold Obligations.Reductions
  intro combine identity result index k src
  have hcombine : combine = redCombine := by
    funext r ty rm x y
    cases r with
    | add =>
      cases ty with
      | f32 => rfl
      | i32 => exact (BitVec.add_def x y).symm
      | u32 => exact (BitVec.add_def x y).symm
    | min =>
      cases ty with
      | f32 => rfl
      | i32 => exact iminVal_true x y
      | u32 => exact iminVal_false x y
    | max =>
      cases ty with
      | f32 => rfl
      | i32 => exact imaxVal_true x y
      | u32 => exact imaxVal_false x y
  have hidentity : identity = redIdentity := by
    funext r ty
    cases r <;> cases ty <;> rfl
  have hresult : result = segValue := by
    funext r ty rm k act a j
    simp only [result, segValue, hcombine, hidentity]
    cases treeOf (redCombine r ty rm) (fun L => if inMask act L then some (a L) else none) k (j * 2 ^ k) with
    | none => rfl
    | some x => exact (redCanon_eq ty x).symm
  have hindex : index = segIndex := by
    funext r ty k act a j
    simp only [index, segIndex, hresult]
    rfl
  refine ⟨two_pow_seg4Log, fun ty seg rm o => ?_, fun ty seg o => ?_, fun ty seg o => ?_, fun ty seg o => ?_, fun ty seg o => ?_⟩
  · exact computes_reduce (fun _ => rfl) fun _ _ _ => by rw [hresult]
  · exact computes_reduce (fun _ => rfl) fun _ _ _ => by rw [hresult]
  · exact computes_reduce (fun _ => rfl) fun _ _ _ => by rw [hresult]
  · exact computes_reduceIndex (fun _ => rfl) fun _ _ _ _ => by rw [hresult, hindex]
  · exact computes_reduceIndex (fun _ => rfl) fun _ _ _ _ => by rw [hresult, hindex]

end Sys2Proof.Proofs
end

section
/-!
PROOFS. The Sieve (R200 to R206). A rotation is a product by a power of two whose overflow is added at the bottom; a running sum
is the fold over the active lanes up to its own; and `topkthr` reads a place of the values in descending order, which is the one
value with fewer than k values above it and at least k not below it.
-/
namespace Sys2Proof.Machine

/-! ### The generator (R200) -/

/-- A product by `2 ^ n` whose overflow is added at the bottom is a rotation. -/
theorem ofNat_wrapped_product {w : Nat} (x : BitVec w) {n : Nat} (hn : n < w) :
    BitVec.ofNat w (x.toNat * 2 ^ n % 2 ^ w + x.toNat * 2 ^ n / 2 ^ w) = x.rotateLeft n := by
  have hsplit : 2 ^ w = 2 ^ (w - n) * 2 ^ n := by rw [← Nat.pow_add, Nat.sub_add_cancel hn.le]
  have htop : x.toNat * 2 ^ n / 2 ^ w = x.toNat / 2 ^ (w - n) := by
    rw [hsplit, Nat.mul_div_mul_right _ _ (Nat.two_pow_pos n)]
  have hlow : x.toNat / 2 ^ (w - n) < 2 ^ n := by
    rw [Nat.div_lt_iff_lt_mul (Nat.two_pow_pos _), Nat.mul_comm, ← hsplit]
    exact x.isLt
  have hsmall : x.toNat / 2 ^ (w - n) < 2 ^ w := (Nat.div_le_self _ _).trans_lt x.isLt
  refine BitVec.eq_of_toNat_eq ?_
  rw [htop, BitVec.toNat_ofNat, Nat.mod_add_mod, BitVec.toNat_rotateLeft, Nat.mod_eq_of_lt hn, ← Nat.shiftLeft_eq,
    Nat.shiftLeft_add_eq_or_of_lt hlow, Nat.or_mod_two_pow, Nat.mod_eq_of_lt hsmall, Nat.shiftRight_eq_div_pow]

theorem ofNat_toNat_div_two_pow {w : Nat} (x : BitVec w) (n : Nat) : BitVec.ofNat w (x.toNat / 2 ^ n) = x >>> n := by
  rw [← Nat.shiftRight_eq_div_pow, ← BitVec.toNat_ushiftRight, BitVec.ofNat_toNat, BitVec.setWidth_eq]

/-- A round of R200, in numbers. -/
theorem sieveRound_eq (k z : Dword) {j : Nat} (hj : j < 4) :
    sieveRound k z j =
      (let x := k.toNat * 2 ^ (16 * j)
       let z := z ^^^ BitVec.ofNat 64 (x % 2 ^ 64 + x / 2 ^ 64)
       let z := BitVec.ofNat 64 (z.toNat * 0xA5B357058C4E2D1B)
       z ^^^ BitVec.ofNat 64 (z.toNat / 2 ^ 29)) := by
  dsimp only
  rw [ofNat_wrapped_product k (show 16 * j < 64 by omega), ofNat_toNat_div_two_pow, BitVec.ofNat_mul, BitVec.ofNat_toNat,
    BitVec.setWidth_eq]
  rfl

theorem sieveOut_eq (k c : Dword) (L : Nat) :
    sieveOut k c L =
      highWord (sieveRound k (sieveRound k (sieveRound k (sieveRound k (BitVec.ofNat 64 (c.toNat * 64 + L)) 0) 1) 2) 3) := by
  rw [BitVec.ofNat_add, BitVec.ofNat_mul, BitVec.ofNat_toNat, BitVec.setWidth_eq]
  rfl

/-! ### Drawing (R201, R204) -/

/-- The counter moves on, once, if a lane is active. -/
def State.drawn (s : State) (g : Nat) (act : Dword) : State :=
  if act == 0 then s else s.modGrp g fun x => { x with rngC := x.rngC + 1 }

theorem State.drawn_eq {s : State} {g : Nat} (h : (Tbl.find s.groups g).isSome = true) (act : Dword) :
    s.drawn g act = if act = 0 then s
      else s.setGrp g { s.grp g with rngC := BitVec.ofNat 64 ((s.grp g).rngC.toNat + 1) } := by
  rw [State.drawn, State.modGrp_of_some _ _ _ h, BitVec.ofNat_add, BitVec.ofNat_toNat, BitVec.setWidth_eq]
  simp only [beq_iff_eq]
  rfl

theorem State.has_drawn {s : State} {g : Nat} (h : (Tbl.find s.groups g).isSome = true) (act : Dword) :
    (Tbl.find (s.drawn g act).groups g).isSome = true := by
  unfold State.drawn
  split
  · exact h
  · exact State.has_modGrp s g _ h

theorem State.draw_ok {s : State} {g : Nat} {o : Ops0} {tag : Tag} {f : Word → Word}
    (hok : s.operandsOk g o.msel (dstNeeds o.d 1) [] = true) :
    s.draw g o tag f = .ok ((s.drawn g (s.active g o.msel)).aluDone g [] (s.active g o.msel) o.d
      (o.nw || s.active g o.msel == 0) tag [Lanes.make fun L => f (sieveOut (s.grp g).rngK (s.grp g).rngC L)]) := by
  unfold State.draw
  rw [State.checkOperands_ok hok]
  rfl

/-- What every drawing instruction leaves (R201). -/
theorem drawing_wrote {i : Ops0 → Instr} {tag : Tag} {f : Word → Word}
    (hi : ∀ o s, exec (i o) s = laneRun s fun g => s.draw g o tag f) {o : Ops0} {s : State} {g : Nat} (hs : s.Issues g)
    (hok : s.operandsOk g o.msel (dstNeeds o.d 1) [] = true) :
    ∃ t, exec (i o) s = .next t ∧
      (s.drawn g (s.active g o.msel)).Wrote t g (s.active g o.msel) o.d 1 (o.nw || s.active g o.msel == 0)
        (fun _ => tag) (fun _ L => f (sieveOut (s.grp g).rngK (s.grp g).rngC L)) [] := by
  have hwrote := State.aluDone_wrote (s.drawn g (s.active g o.msel)) g [] (s.active g o.msel) o.d
    (o.nw || s.active g o.msel == 0) tag [Lanes.make fun L => f (sieveOut (s.grp g).rngK (s.grp g).rngC L)]
    (State.has_drawn hs.2 _)
  refine ⟨_, (hi o s).trans (laneRun_ok hs.1 (State.draw_ok hok)),
    hwrote.congr Nat.one_pos (fun _ _ => rfl) fun j L hj hL _ _ => ?_⟩
  obtain rfl : j = 0 := Nat.lt_one_iff.mp hj
  rw [List.getD_cons_zero, Lanes.at_make _ hL]

theorem rngUnif_eq (o : Word) : toF32 .rn (.fin false (o.toNat / 2 ^ 8) (-24)) = rngUnif o := by
  rw [toF32, BFmt.bits, rngUnif]
  simp only [Int.reduceNeg, Int.reduceToNat, Int.neg_neg, pow_zero, mul_one]
  rfl

/-! ### The generator's state (R203) -/

/-- An instruction that writes one 64-bit value, the same for every lane. -/
theorem computes_uniform2 {i : Instr} {d : Dst} {nw : Bool} {msel : BitVec 3} {os : List Opnd} {tag : Tag}
    (x : State → Nat → Dword) (hi : ∀ s, exec i s = laneRun s fun g => s.alu g d 2 nw msel os fun _ => uniform2 tag (x s g)) :
    Computes i d 2 nw msel os (fun _ _ _ => tag) fun s g j _ => halfOf j (x s g) := by
  refine computes_alu (fun s g _ => uniform2 tag (x s g)) (by decide) hi fun s g => ?_
  refine ⟨_, _, rfl, rfl, fun _ _ => rfl, fun j L hj hL _ _ => ?_⟩
  obtain rfl | rfl : j = 0 ∨ j = 1 := by omega
  · exact (Lanes.at_splat _ hL).symm
  · exact (Lanes.at_splat _ hL).symm

theorem State.values_simm_pairs (s : State) (g : Nat) (a b : SImm) :
    s.values g [SImm.opnd a, SImm.opnd b] =
      [s.opndLanes g (SImm.opnd a) 0, s.opndLanes g (SImm.opnd a) 1,
       s.opndLanes g (SImm.opnd b) 0, s.opndLanes g (SImm.opnd b) 1] := by
  cases a <;> cases b <;> rfl

theorem State.env_simm_pairs (s : State) (g : Nat) (msel : BitVec 3) (a b : SImm) :
    (s.env g msel [SImm.opnd a, SImm.opnd b]).p 0 0 = s.dword g (SImm.opnd a) 0 ∧
    (s.env g msel [SImm.opnd a, SImm.opnd b]).p 2 0 = s.dword g (SImm.opnd b) 0 := by
  simp only [Env.p, Env.v_of, State.values_simm_pairs]
  exact ⟨rfl, rfl⟩

/-- The generator's state once `rngkey` has set it, if a lane is active (R203). -/
def State.keyed (s : State) (g : Nat) (act k c : Dword) : State :=
  if act == 0 then s else s.modGrp g fun x => { x with rngK := k, rngC := c }

theorem State.rngkey_ok {s : State} {g : Nat} {a b : SImm} {msel : BitVec 3}
    (hok : s.operandsOk g msel [] [SImm.opnd a, SImm.opnd b] = true) :
    s.rngkey g a b msel =
      .ok ((s.keyed g (s.active g msel) (s.dword g (SImm.opnd a) 0) (s.dword g (SImm.opnd b) 0)).advance g) := by
  obtain ⟨ha, hb⟩ := State.env_simm_pairs s g msel a b
  rw [← ha, ← hb]
  unfold State.rngkey
  dsimp only
  rw [State.checkOperands_ok hok]
  rfl

theorem State.did_keyed {s : State} {g : Nat} (h : (Tbl.find s.groups g).isSome = true) (act k c : Dword) :
    s.Did ((s.keyed g act k c).advance g) g (if act = 0 then s.grp g else { s.grp g with rngK := k, rngC := c }) := by
  unfold State.keyed
  by_cases ha : act = 0
  · rw [if_pos ha, if_pos (beq_iff_eq.mpr ha)]
    exact State.did_advance s g h
  · rw [if_neg ha, if_neg (mt beq_iff_eq.mp ha)]
    exact State.did_modGrp s g _ h rfl rfl rfl rfl (SamePlace.refl _)

/-! ### Running sums and the lane drawn (R205) -/

/-- A sum with the weight of one more lane. -/
def addWeight (a : Nat → Word) (x : Word) (M : Nat) : Word := f32Add .rn x (weight (a M))

/-- The running sum at lane `L` over the lanes `ls`. -/
def runningSum (a : Nat → Word) (ls : List Nat) (L : Nat) : Word :=
  (ls.filter fun M => decide (M ≤ L)).foldl (addWeight a) 0

/-- Each lane of a list in ascending order is given the fold over the lanes up to it. -/
theorem runningSums_eq (e : Env) {ls : List Nat} (hasc : ls.Pairwise (· < ·)) :
    ∀ x, runningSums e x ls = ls.map fun L => (L, (ls.filter fun M => decide (M ≤ L)).foldl (addWeight (e.v 0)) x) := by
  induction ls with
  | nil => exact fun _ => rfl
  | cons M t ih =>
    obtain ⟨hM, ht⟩ := List.pairwise_cons.mp hasc
    intro x
    have hnone : t.filter (fun N => decide (N ≤ M)) = [] := List.filter_eq_nil_iff.mpr fun N hN => by
      simpa using hM N hN
    have htake : ∀ L ∈ t, (M :: t).filter (fun N => decide (N ≤ L)) = M :: t.filter fun N => decide (N ≤ L) :=
      fun L hL => List.filter_cons_of_pos (by simpa using (hM L hL).le)
    rw [runningSums, ih ht, List.map_cons, List.filter_cons_of_pos (by simp), hnone]
    refine congrArg (_ :: ·) (List.map_congr_left fun L hL => ?_)
    rw [htake L hL]
    rfl

theorem runningSums_lanesOf (e : Env) :
    runningSums e 0 (lanesOf e.act) = (lanesOf e.act).map fun L => (L, runningSum (e.v 0) (lanesOf e.act) L) :=
  runningSums_eq e (lanesOf_ascending _) 0

theorem runningSum_of_le {a : Nat → Word} {ls : List Nat} {L : Nat} (h : ∀ M ∈ ls, M ≤ L) :
    runningSum a ls L = ls.foldl (addWeight a) 0 := by
  rw [runningSum, List.filter_eq_self.mpr fun M hM => decide_eq_true (h M hM)]

/-- The sum at the last lane is the sum at lane 63; without a lane both are +0. -/
theorem runningSum_last (a : Nat → Word) (m : Dword) :
    ((lanesOf m).getLast?.map (runningSum a (lanesOf m))).getD 0 = runningSum a (lanesOf m) 63 := by
  have hasc := lanesOf_ascending m
  have hall : runningSum a (lanesOf m) 63 = (lanesOf m).foldl (addWeight a) 0 :=
    runningSum_of_le fun M hM => Nat.le_of_lt_succ (mem_lanesOf.mp hM).1
  rw [hall]
  rcases List.eq_nil_or_concat (lanesOf m) with h | ⟨t, L, h⟩
  · rw [h]; rfl
  · rw [h, List.concat_eq_append] at hasc ⊢
    have hle : ∀ M ∈ t ++ [L], M ≤ L := fun M hM => by
      rcases List.mem_append.mp hM with hM | hM
      · exact ((List.pairwise_append.mp hasc).2.2 M hM L (List.mem_singleton_self L)).le
      · exact (List.mem_singleton.mp hM).le
    rw [List.getLast?_concat, Option.map_some, Option.getD_some, runningSum_of_le hle]

/-- The lane that R205 draws among the lanes `act` at the uniform value `u`, from the running sums. -/
def drawnLane (act : List Nat) (a : Nat → Word) (u : Word) : Nat :=
  let run := runningSum a act
  let positive := act.filter fun L => decide (weight (a L) ≠ 0)
  if run 63 = 0 then 64
  else if run 63 = 0x7F800000#32 then (act.find? fun L => decide (run L = 0x7F800000#32)).getD 64
  else match positive.find? fun L => f32Cmp .gt (run L) (f32Mul .rn u (run 63)) with
    | some L => L
    | none => positive.getLastD 64

theorem sampleLane_eq (e : Env) : sampleLane e = drawnLane (lanesOf e.act) (e.v 0) (e.v 1 0) := by
  unfold sampleLane drawnLane
  simp only [← runningSum_last, runningSums_lanesOf, List.getLast?_map, List.filter_map, List.find?_map, List.map_map,
    Function.comp_def, List.map_id', headD_filter, List.getLastD_eq_getLast?, beq_eq_decide, bne, decide_not, decide_eq_true_eq]
  cases (lanesOf e.act).getLast? with
  | none => rfl
  | some last =>
    refine if_congr Iff.rfl rfl (if_congr Iff.rfl rfl ?_)
    simp only [Option.map_some, Option.getD_some]
    generalize (lanesOf e.act).filter (fun L => !decide (weight (e.v 0 L) = 0)) = positive
    cases positive.find? fun L => f32Cmp .gt (runningSum (e.v 0) (lanesOf e.act) L)
        (f32Mul .rn (e.v 1 0) (runningSum (e.v 0) (lanesOf e.act) last)) with
    | some L => rfl
    | none =>
      cases positive.getLast? with
      | some L => rfl
      | none => rfl

/-! ### The k-th largest value (R206) -/

theorem insertDesc_eq (x : Word) (l : List Word) :
    insertDesc x l = l.orderedInsert (fun x y => f32Key y ≤ f32Key x) x := by
  induction l with
  | nil => rfl
  | cons y t ih => rw [insertDesc, List.orderedInsert_cons, ih]

/-- The values `l` from the greatest down. -/
def sortedDesc (l : List Word) : List Word := l.foldr insertDesc []

theorem sortedDesc_eq (l : List Word) : sortedDesc l = l.insertionSort fun x y => f32Key y ≤ f32Key x :=
  congrArg (fun f => l.foldr f []) (funext fun x => funext (insertDesc_eq x))

theorem sortedDesc_perm (l : List Word) : (sortedDesc l).Perm l := by
  rw [sortedDesc_eq]
  exact List.perm_insertionSort _ l

theorem sortedDesc_descending (l : List Word) : (sortedDesc l).Pairwise fun x y => f32Key y ≤ f32Key x := by
  have : Std.Total fun x y : Word => f32Key y ≤ f32Key x := ⟨fun x y => Int.le_total (f32Key y) (f32Key x)⟩
  have : IsTrans Word fun x y => f32Key y ≤ f32Key x := ⟨fun _ _ _ hxy hyz => hyz.trans hxy⟩
  rw [sortedDesc_eq]
  exact List.pairwise_insertionSort _ l

/-- Fewer than `k` values lie above `v`, and at least `k` not below it. -/
def isKth (l : List Word) (k : Nat) (v : Word) : Bool :=
  decide (l.countP (fun x => decide (f32Key v < f32Key x)) < k) &&
    decide (k ≤ l.countP fun x => decide (f32Key v ≤ f32Key x))

theorem isKth_perm {l m : List Word} (h : l.Perm m) (k : Nat) (v : Word) : isKth l k v = isKth m k v := by
  rw [isKth, isKth, h.countP_eq, h.countP_eq]

/-- No two values are the k-th largest. -/
theorem isKth_unique {l : List Word} {k : Nat} {v w : Word} (hv : isKth l k v = true) (hw : isKth l k w = true) : v = w := by
  have hle : ∀ {v w : Word}, isKth l k v = true → isKth l k w = true → f32Key w ≤ f32Key v := fun {v w} hv hw => by
    simp only [isKth, Bool.and_eq_true, decide_eq_true_eq] at hv hw
    by_contra hlt
    have hmono : l.countP (fun x => decide (f32Key w ≤ f32Key x)) ≤ l.countP fun x => decide (f32Key v < f32Key x) :=
      List.countP_mono_left fun x _ hx => by simp only [decide_eq_true_eq] at hx ⊢; omega
    omega
  exact f32Key_inj.mp (le_antisymm (hle hw hv) (hle hv hw))

/-- The place `i` of values in descending order holds the one of rank `i + 1`. -/
theorem isKth_getElem {l : List Word} (hdesc : l.Pairwise fun x y => f32Key y ≤ f32Key x) {i : Nat} (hi : i < l.length) :
    isKth l (i + 1) l[i] = true := by
  have hanti : ∀ {j k : Nat} (hk : k < l.length) (hjk : j ≤ k), f32Key l[k] ≤ f32Key l[j] := fun {j k} hk hjk => by
    rcases hjk.eq_or_lt with rfl | hlt
    · exact le_rfl
    · exact List.pairwise_iff_getElem.mp hdesc j k (hjk.trans_lt hk) hk hlt
  have habove : l.countP (fun x => decide (f32Key l[i] < f32Key x)) ≤ i := by
    have hrest : (l.drop i).countP (fun x => decide (f32Key l[i] < f32Key x)) = 0 := List.countP_eq_zero.mpr fun x hx => by
      obtain ⟨j, hj, rfl⟩ := List.mem_drop_iff_getElem.mp hx
      simpa using hanti (by omega) (Nat.le_add_right i j)
    calc l.countP (fun x => decide (f32Key l[i] < f32Key x))
        = (l.take i ++ l.drop i).countP fun x => decide (f32Key l[i] < f32Key x) := by rw [List.take_append_drop]
      _ = (l.take i).countP fun x => decide (f32Key l[i] < f32Key x) := by rw [List.countP_append, hrest, Nat.add_zero]
      _ ≤ (l.take i).length := List.countP_le_length
      _ ≤ i := List.length_take_le i l
  have hbelow : i + 1 ≤ l.countP fun x => decide (f32Key l[i] ≤ f32Key x) := by
    have hfirst : (l.take (i + 1)).countP (fun x => decide (f32Key l[i] ≤ f32Key x)) = (l.take (i + 1)).length :=
      List.countP_eq_length.mpr fun x hx => by
        obtain ⟨j, hj, rfl⟩ := List.mem_take_iff_getElem.mp hx
        simpa using hanti hi (by omega)
    calc i + 1 = (l.take (i + 1)).length := (List.length_take_of_le hi).symm
      _ = (l.take (i + 1)).countP fun x => decide (f32Key l[i] ≤ f32Key x) := hfirst.symm
      _ ≤ l.countP fun x => decide (f32Key l[i] ≤ f32Key x) := (List.take_sublist _ _).countP_le
  rw [isKth, decide_eq_true (Nat.lt_succ_of_le habove), decide_eq_true hbelow, Bool.and_self]

/-- The value found by its rank is the one at its place among the sorted values. -/
theorem find?_isKth (l : List Word) (i : Nat) : l.find? (isKth l (i + 1)) = (sortedDesc l)[i]? := by
  have hperm := sortedDesc_perm l
  by_cases hi : i < (sortedDesc l).length
  · have hkth : isKth l (i + 1) (sortedDesc l)[i] = true := by
      rw [← isKth_perm hperm]
      exact isKth_getElem (sortedDesc_descending l) hi
    rw [List.getElem?_eq_getElem hi]
    obtain ⟨v, hv⟩ := Option.isSome_iff_exists.mp
      (List.find?_isSome.mpr ⟨_, hperm.mem_iff.mp (List.getElem_mem hi), hkth⟩)
    rw [hv, isKth_unique (List.find?_some hv) hkth]
  · rw [List.getElem?_eq_none (not_lt.mp hi), List.find?_eq_none]
    intro v _ hv
    simp only [isKth, Bool.and_eq_true, decide_eq_true_eq] at hv
    have := hperm.length_eq
    have := List.countP_le_length (p := fun x => decide (f32Key v ≤ f32Key x)) (l := l)
    omega

theorem topkVal_eq (e : Env) :
    topkVal e =
      (let vs := ((lanesOf e.act).map (e.v 0)).filter fun v => !(f32 v).isNan
       let k := (e.v 1 0).toNat
       if k = 0 then 0x7F800000#32 else (vs.find? (isKth vs k)).getD 0xFF800000#32) := by
  simp only [topkVal, beq_iff_eq]
  split
  next => rfl
  next h =>
    obtain ⟨i, hi⟩ := Nat.exists_eq_succ_of_ne_zero h
    rw [hi, Nat.succ_eq_add_one, find?_isKth, Nat.add_sub_cancel, List.getD_eq_getElem?_getD]
    rfl

end Sys2Proof.Machine

/-! ### The statements -/

namespace Sys2Proof.Proofs

open Sys2Proof.Machine

/-- Settles O17: `sieveRound_eq` and `sieveOut_eq` read the generator in numbers, `drawing_wrote` carries what all three
drawing instructions leave, and `State.did_keyed` what `rngkey` does. -/
theorem randomDrawsAndKeys : Obligations.RandomDrawsAndKeys := by
  unfold Obligations.RandomDrawsAndKeys
  refine ⟨?_, fun a b msel s g hs hok => ?_, fun d msel => ?_, fun d msel => ?_⟩
  · intro round output draws
    have hround : ∀ k z j, j < 4 → round k z j = sieveRound k z j := fun k z _ hj => (sieveRound_eq k z hj).symm
    have houtput : output = sieveOut := by
      funext k c L
      rw [sieveOut_eq]
      simp only [output, hround, Nat.reduceLT]
    have hdraws : ∀ (i : Ops0 → Instr) (tag : Tag) (f : Word → Word),
        (∀ o s, exec (i o) s = laneRun s fun g => s.draw g o tag f) → draws i tag f := by
      intro i tag f hi o s g hs hok
      have hwrote := drawing_wrote hi hs hok
      rw [State.drawn_eq hs.2, beq_eq_decide] at hwrote
      simp only [houtput]
      exact hwrote
    refine ⟨hdraws .rngnext .i32 (fun o => o) fun _ _ => rfl, ?_,
      fun rm => hdraws (.gumbel rm) .f32 (gumbelVal rm) fun _ _ => rfl⟩
    rw [funext rngUnif_eq]
    exact hdraws .rngunif .f32 rngUnif fun _ _ => rfl
  · exact ⟨_, laneRun_ok hs.1 (State.rngkey_ok hok), State.did_keyed hs.2 _ _ _⟩
  · exact computes_uniform2 (fun s g => (s.grp g).rngC) fun _ => rfl
  · exact computes_uniform2 (fun s g => (s.grp g).rngK) fun _ => rfl

/-- Settles O18: `sampleLane_eq` reads the model's row of running sums lane by lane, and `topkVal_eq` its sorted values by
rank; either result is one value for every lane. -/
theorem sampling : Obligations.Sampling := by
  refine ⟨fun o => ?_, fun o => ?_⟩
  · refine computes_one (fun _ => .i32) (fun e => Lanes.splat (BitVec.ofNat 32 (sampleLane e))) (fun _ => rfl) (fun _ _ => rfl)
      fun s g L hL _ => ?_
    rw [Lanes.at_splat _ hL, sampleLane_eq]
    rfl
  · refine computes_one (fun _ => .f32) (fun e => Lanes.splat (topkVal e)) (fun _ => rfl) (fun _ _ => rfl)
      fun s g L hL _ => ?_
    rw [Lanes.at_splat _ hL, topkVal_eq]
    rfl

end Sys2Proof.Proofs
end
